-- ==== Sys2Proof/Word.lean ====
section
/-! DEFINITION. The word types of the model: what spec/10 (R169) numbers in bytes, and cell time (spec/00, Quantities). -/

namespace Sys2Proof

/-- One byte on the host line or in a slot image (R169). -/
abbrev Byte := BitVec 8

/-- Cell time: milliseconds since the last reset, 32 bits, wrapping (spec/00, Quantities and units). -/
abbrev CellTime := BitVec 32

/-- A 32-bit digest (R29), revolution number or time-slot number (R67, R69). -/
abbrev Word32 := BitVec 32

end Sys2Proof
end

