-- ==== Sys2Proof/Syntax.lean ====
section
/-! DEFINITION. The commands and events of the T-860: one constructor for each row of spec/opcode_table.json, with the
operands the row's rule gives it. -/

namespace Sys2Proof

/-- The three streams of the Capture Store (spec/04, introduction). -/
inductive StreamId where
  | vib | slow | leak
  deriving DecidableEq, Repr

/-- The two streams cut into time slots (R69). -/
inductive SlotStream where
  | slow | leak
  deriving DecidableEq, Repr

/-- The four lines whose change is judged as a condition's source (R127). -/
inductive CondLine where
  | estop | guard1 | guard2 | supplyOk
  deriving DecidableEq, Repr

/-- One angle sample: the counts that the five vibration channels give, before saturation (R64, R67). -/
structure AngleSample where
  acc0 : Int
  acc1 : Int
  acc2 : Int
  acc3 : Int
  mic : Int
  deriving DecidableEq, Repr

/-- One value of each SLOW channel (R64): counts when it is sampled, engineering values in a record. -/
structure SlowSample where
  tqp : Int
  tql : Int
  tqr : Int
  toil : Int
  thsg : Int
  deriving DecidableEq, Repr

/-- One value of each LEAK channel (R64): counts when it is sampled, engineering values in a record. -/
structure LeakSample where
  prs0 : Int
  prs1 : Int
  prs2 : Int
  prs3 : Int
  tlk : Int
  deriving DecidableEq, Repr

/-- The steps of the part. A host command carries the `tag` of its frame (spec/09) and the fields of its body (spec/10
section 10.2); an event carries what it brings in from outside. -/
inductive Instr where
  /-- POWER_ON (R20). -/
  | powerOn
  /-- RESET_LINE (R20). -/
  | resetLine
  /-- STARTUP_SCAN_END (R34). -/
  | startupScanEnd
  /-- FRAME_RECEIVED (R157, R158): bytes arrive on the host line. -/
  | frameReceived (bytes : List Byte)
  /-- FRAME_GAP_TIMEOUT (R157). -/
  | frameGapTimeout
  /-- FRAME_SENT (R166). -/
  | frameSent
  /-- LINE_SILENCE_EXPIRY (R167). -/
  | lineSilenceExpiry
  /-- STATUS (R162). -/
  | status (tag : Byte)
  /-- IDENTIFY (R163). -/
  | identify (tag : Byte)
  /-- RESTART (R164). -/
  | restart (tag : Byte)
  /-- LOAD_UNIT (R7). -/
  | loadUnit (tag slot : Byte) (serial : List Byte)
  /-- START_RUN (R10). -/
  | startRun (tag : Byte) (id : BitVec 16)
  /-- ABORT_UNIT (R18). -/
  | abortUnit (tag : Byte) (id : BitVec 16)
  /-- UNIT_GET (R9). -/
  | unitGet (tag : Byte) (id : BitVec 16)
  /-- ADVANCE_STEP (R50). -/
  | advanceStep (tag : Byte)
  /-- STREAM_GET (R81). -/
  | streamGet (tag : Byte)
  /-- COND_LIST (R142). -/
  | condList (tag : Byte)
  /-- COND_GET (R142). -/
  | condGet (tag number : Byte)
  /-- COND_ACK (R137). -/
  | condAck (tag number : Byte)
  /-- COND_INJECT (R138). -/
  | condInject (tag number : Byte)
  /-- COND_CONFIG (R141). -/
  | condConfig (tag number severity vector : Byte)
  /-- SET_MASK (R131). -/
  | setMask (tag level : Byte)
  /-- RESUME (R139). -/
  | resume (tag : Byte)
  /-- REPORT_GET (R153). -/
  | reportGet (tag : Byte)
  /-- REPORT_RELEASE (R154). -/
  | reportRelease (tag : Byte) (id : BitVec 16)
  /-- SLOT_ERASE (R24). -/
  | slotErase (tag slot : Byte)
  /-- SLOT_BLANK (R26). -/
  | slotBlank (tag slot : Byte)
  /-- SLOT_WRITE (R27). -/
  | slotWrite (tag slot : Byte) (offset : BitVec 16) (data : List Byte)
  /-- SLOT_CLOSE (R28). -/
  | slotClose (tag slot : Byte)
  /-- SLOT_VERIFY (R31). -/
  | slotVerify (tag slot : Byte) (digest : Word32)
  /-- SLOT_READ (R36). -/
  | slotRead (tag slot : Byte) (offset length : BitVec 16)
  /-- SLOT_INFO (R37). -/
  | slotInfo (tag slot : Byte)
  /-- ERASE_COMPLETE (R25). -/
  | eraseComplete (slot : Fin 16)
  /-- CLOSE_COMPLETE (R29). -/
  | closeComplete (slot : Fin 16)
  /-- ARRIVE2_RISE (R13). -/
  | arrive2Rise
  /-- TRANSFER_TIMER_EXPIRY (R14). -/
  | transferTimerExpiry
  /-- TRANSFER_START (R12). -/
  | transferStart
  /-- LEAK_START (R16). -/
  | leakStart
  /-- ENTER_RUN_DONE (R11). -/
  | enterRunDone
  /-- UNIT_DONE (R17). -/
  | unitDone
  /-- SETPOINT_UPDATE (R44). -/
  | setpointUpdate
  /-- DRIVE_FEEDBACK (R45): measured pinion speed in 0.01 rpm, drive ready, drive fault. -/
  | driveFeedback (speed : Int) (ready fault : Bool)
  /-- STEP_TIMER_EXPIRY (R47, R48). -/
  | stepTimerExpiry
  /-- WINDOW_SETTLE_EXPIRY (R61). -/
  | windowSettleExpiry
  /-- WINDOW_DRAIN_CLOSE (R96). -/
  | windowDrainClose
  /-- ENCODER_INDEX (R67): `us` microseconds after the event before it, with the angle sample taken at the index. -/
  | encoderIndex (us : Nat) (x : AngleSample)
  /-- REVOLUTION_TIMEOUT (R68). -/
  | revolutionTimeout
  /-- ANALYSIS_COMPLETE (R91). -/
  | analysisComplete
  /-- TIME_SLOT_START (R75). -/
  | timeSlotStart (stream : SlotStream)
  /-- TIME_SLOT_END (R69). -/
  | timeSlotEnd (stream : SlotStream)
  /-- PLAN_APPLY (R79, R80). -/
  | planApply
  /-- SLOW_SAMPLE (R65): the counts of the five SLOW channels. -/
  | slowSample (x : SlowSample)
  /-- LEAK_SAMPLE (R65): the counts of the five LEAK channels. -/
  | leakSample (x : LeakSample)
  /-- FILL_GRANT (R108). -/
  | fillGrant
  /-- FILL_TIMEOUT (R110). -/
  | fillTimeout (chamber : Fin 4)
  /-- SETTLE_EXPIRY (R112). -/
  | settleExpiry (chamber : Fin 4)
  /-- MEASURE_TIMER_EXPIRY (R114). -/
  | measureTimerExpiry (chamber : Fin 4)
  /-- ATTEMPT_EVALUATION (R115). -/
  | attemptEvaluation (chamber : Fin 4)
  /-- VENT_EXPIRY (R119). -/
  | ventExpiry (chamber : Fin 4)
  /-- RESET_VENT_END (R125). -/
  | resetVentEnd
  /-- CONDITION_LINE_CHANGE (R127): the line and its new level. -/
  | conditionLineChange (line : CondLine) (asserted : Bool)
  /-- KEY_CHANGE (R130): the new level of the KEY line. -/
  | keyChange (asserted : Bool)
  /-- CONDITION_TAKE (R134). -/
  | conditionTake
  /-- ENCODER_PULSE (R67): `us` microseconds after the event before it, forward or reverse, with the levels the
  vibration channels have at it. -/
  | encoderPulse (us : Nat) (forward : Bool) (x : AngleSample)
  deriving DecidableEq, Repr

end Sys2Proof
end

