-- ==== Sys2Proof/Config.lean ====
section
/-! DEFINITION. What the spec leaves open and the model does not choose: uninterpreted constants, and nothing else.
No statement may rest on a value of any of them. -/

namespace Sys2Proof.Config

/-- FREE VALUE. The byte at offset `off` of the `n`-th slot left without defined bytes: "each of no defined value"
(R25, R36). Log 7. -/
opaque freeByte : Nat → Nat → BitVec 8

/-- The hardware revision letter of the board (R163), fixed when it is built. Log 8. -/
opaque boardRevision : BitVec 8

/-- The board serial number (R163): "a 32-bit number written into the board when it is built". Log 8. -/
opaque boardSerial : BitVec 32

end Sys2Proof.Config
end

