-- ==== Sys2Proof/Machine/Blocks.lean ====
section
/-! DEFINITION. The state each functional block of the T-860 owns (spec/00, Functional blocks), as plain data. -/

namespace Sys2Proof.Machine

/-- A timer: stopped, or running with the time remaining, in ms. -/
abbrev Timer := Option Nat

/-- Addressed bytes in canonical form (offsets strictly rising, no cell holding FFh); see Machine/Ops.lean. -/
abbrev Memory := List Host.Cell

/-! ## Codes of spec/10 section 10.8 -/

/-- Verdicts and grades (spec/00, Verdicts and grades), best first; `skipped` has no place in the order. -/
inductive Verdict where
  | pass | warn | incomplete | fail | aborted | skipped
  deriving DecidableEq, Repr

/-- The states of a unit record in use (R2). -/
inductive UnitState where
  | loaded | running | runDone | inTransfer | atLeak | leaking | done
  deriving DecidableEq, Repr

/-- The states of the run-in section (R3). -/
inductive RunInState where
  | notStarted | inProgress | finished | failed | aborted
  deriving DecidableEq, Repr

/-- The states of the leak section (R3). -/
inductive LeakState where
  | notStarted | inProgress | complete | skipped | aborted
  deriving DecidableEq, Repr

/-- The states of a recipe slot (R21). -/
inductive SlotState where
  | blank | writing | closing | valid | invalid | erasing
  deriving DecidableEq, Repr

/-- The validation reasons (R30, R32, R34). -/
inductive Reason where
  | badMark | badLength | stepCount | stepRange | loopTarget | lastNotZero | windowRange | resultCount | leakRange
  | captureRange | interrupted | configRange
  deriving DecidableEq, Repr

/-- Step kinds (spec/02 section 2.4). -/
inductive StepKind where
  | ramp | hold | pause | measureDrag
  deriving DecidableEq, Repr

/-- Window kinds (spec/02 section 2.4). -/
inductive WindowKind where
  | steady | sweep
  deriving DecidableEq, Repr

/-- Rotation directions of a window (spec/02 section 2.4). -/
inductive Direction where
  | fwd | rev
  deriving DecidableEq, Repr

/-- The direction of a revolution record (R68). -/
inductive RevDirection where
  | fwd | rev | mixed
  deriving DecidableEq, Repr

/-- Chamber kinds (spec/06, introduction). -/
inductive ChamberKind where
  | housing | hub | circuit
  deriving DecidableEq, Repr

/-- The outcomes of a leak attempt (R106). -/
inductive LeakOutcome where
  | pass | fail | unstable | gap | sensor | gross
  deriving DecidableEq, Repr

/-- The vibration channels (R64). -/
inductive Channel where
  | acc0 | acc1 | acc2 | acc3 | mic
  deriving DecidableEq, Repr

/-- The states of a stream (R74). -/
inductive StreamState where
  | idle | running | starved | pendingPlan
  deriving DecidableEq, Repr

/-- The two modes (R130). -/
inductive Mode where
  | production | maintenance
  deriving DecidableEq, Repr

/-- Where the live cell configuration came from (spec/02 section 2.5). -/
inductive ConfigSource where
  | defaults | slot0
  deriving DecidableEq, Repr

/-- Condition kinds (R126). -/
inductive ConditionKind where
  | level | latched
  deriving DecidableEq, Repr

/-- The status codes of a reply (spec/09 section 9.3). -/
inductive Status where
  | ok | accepted | empty | matched | mismatch | unknownKind | badLength | badValue | badOffset | wrongState | notFound
  | tableFull | stationBusy | notRecipe | recipeInvalid | slotInUse | slotBusy | notBlank | protected_ | stillActive
  | wrongReport | starting
  deriving DecidableEq, Repr

/-- A subset of the four kinds of work: a stop vector or the halt set (R126, R135). -/
structure StopSet where
  profile : Bool
  noise : Bool
  leak : Bool
  transfer : Bool
  deriving DecidableEq, Repr

/-! ## Recipes and the cell configuration (spec/02 sections 2.4 and 2.5) -/

/-- One step of a recipe. Speeds in rpm, rates in rpm/s, durations in ms, torques in N·m. -/
structure Step where
  kind : StepKind
  target : Int
  rate : Nat
  duration : Nat
  torqueL : Int
  torqueR : Int
  window : Nat
  loopTo : Nat
  loopCount : Nat
  deriving DecidableEq, Repr

/-- One pair of channel and order line of a window with its limit, in the order of R85. -/
structure Pair where
  channel : Channel
  order : Nat
  limit : Int
  deriving DecidableEq, Repr

/-- One noise window of a recipe. -/
structure WindowSpec where
  kind : WindowKind
  direction : Direction
  sLo : Nat
  sHi : Nat
  settle : Nat
  nReq : Nat
  nMin : Nat
  channels : List Channel
  warnBand : Nat
  pairs : List Pair
  deriving DecidableEq, Repr

/-- One chamber entry of a leak plan. -/
structure ChamberPlan where
  enabled : Bool
  kind : ChamberKind
  volume : Nat
  target : Nat
  tolerance : Nat
  fillTimeout : Nat
  settleBase : Nat
  settleGain : Nat
  settleMax : Nat
  measure : Nat
  qLim : Nat
  qNeg : Nat
  retries : Nat
  vent : Nat
  deriving DecidableEq, Repr

/-- The plan of one stream (R72): reservation, weight, resume threshold in percent. -/
structure Plan where
  res : Nat
  weight : Nat
  threshold : Nat
  deriving DecidableEq, Repr

/-- A recipe (spec/02 section 2.4), as the functional blocks read it. -/
structure Recipe where
  leakAfterFail : Bool
  maxSpeed : Nat
  torqueLimit : Nat
  oilLimit : Int
  tolerance : Nat
  softStop : Nat
  dragMin : Nat
  dragMax : Nat
  toothCount : Nat
  steps : List Step
  windows : List WindowSpec
  chambers : Vector ChamberPlan 4
  vibPlan : Plan
  slowPlan : Plan
  leakPlan : Plan
  deriving DecidableEq, Repr

/-- Calibration of one SLOW or LEAK channel (R65). -/
structure Calibration where
  zero : Int
  gain : Int
  low : Int
  high : Int
  deriving DecidableEq, Repr

/-- A severity and stop vector (R140). -/
structure CondSetting where
  severity : Nat
  vector : StopSet
  deriving DecidableEq, Repr

/-- The cell configuration (spec/02 section 2.5). Channels in the order of spec/10 section 10.7; settings of conditions
5, 9, 10, … 19 in that order; times in ms but the transfer time, in s. -/
structure CellConfig where
  channels : Vector Calibration 10
  sensitivity : Vector Int 5
  pAtm : Int
  tRef : Int
  silence : Nat
  transfer : Nat
  resetVent : Nat
  conditions : Vector CondSetting 12
  torqueLimit : Nat
  oilLimit : Int
  deriving DecidableEq, Repr

/-! ## Unit records (R2, R3) and reports (R147) -/

/-- The run-in section (R3, R55). -/
structure RunIn where
  state : RunInState
  verdict : Option Verdict
  steps : Nat
  dragResult : Option Verdict
  dragMean : Option Int
  peakOil : Option Int
  peakHousing : Option Int
  endHousing : Option Int
  failStep : Option Nat
  deriving DecidableEq, Repr

/-- A window summary (R99). -/
structure WindowSummary where
  number : Nat
  kind : WindowKind
  direction : Direction
  opened : Bool
  nReq : Nat
  nMin : Nat
  nAcc : Nat
  dropped : Nat
  slip : Nat
  wrongWay : Nat
  speedBand : Nat
  overload : Nat
  released : Nat
  deriving DecidableEq, Repr

/-- An order result (R99). -/
structure OrderResult where
  window : Nat
  channel : Channel
  order : Nat
  nAcc : Nat
  power : Nat
  level : Int
  limit : Int
  grade : Verdict
  deriving DecidableEq, Repr

/-- The noise section (R3, R99). -/
structure Noise where
  summaries : List WindowSummary
  results : List OrderResult
  verdict : Option Verdict
  deriving DecidableEq, Repr

/-- A chamber result (R106). -/
structure ChamberResult where
  kind : Option ChamberKind
  attempts : Nat
  outcome : Option LeakOutcome
  q : Option Int
  d : Option Int
  tMs : Option Nat
  verdict : Option Verdict
  deriving DecidableEq, Repr

/-- The leak section (R3, R106). -/
structure LeakSection where
  state : LeakState
  verdict : Option Verdict
  chambers : Vector ChamberResult 4
  deriving DecidableEq, Repr

/-- What a defect entry names (R150). -/
inductive DefectItem where
  | noise (window : Nat) (channel : Channel) (order : Nat)
  | drag
  | chamber (n : Fin 4)
  deriving DecidableEq, Repr

/-- A defect entry (R150). -/
structure Defect where
  item : DefectItem
  measured : Option Int
  limit : Option Int
  grade : Verdict
  deriving DecidableEq, Repr

/-- What the Report Assembler adds at the entry to DONE (R147). -/
structure ReportPart where
  toothCount : Nat
  overall : Verdict
  defects : List Defect
  notListed : Nat
  deriving DecidableEq, Repr

/-- A unit record in use (R2). -/
structure UnitRecord where
  id : Nat
  serial : List Byte
  slot : Fin 16
  digest : Word32
  state : UnitState
  loadTime : CellTime
  startTime : Option CellTime
  doneTime : Option CellTime
  abort : Bool
  runIn : RunIn
  noise : Noise
  leak : LeakSection
  interruptions : List (Fin 20)
  overflow : Bool
  report : Option ReportPart
  deriving DecidableEq, Repr

/-- The Unit Table (R1): `none` is a FREE record. -/
structure UnitTable where
  records : Vector (Option UnitRecord) 8
  idCounter : Nat
  transferLine : Bool
  transferTimer : Timer
  deriving DecidableEq, Repr

/-! ## The Recipe Store (R21) -/

/-- One slot (R21). `garbled` is the index of the free values its bytes read as after an interrupted operation (R36). -/
structure Slot where
  bytes : Memory
  garbled : Option Nat
  state : SlotState
  reason : Option Reason
  written : Nat
  digest : Option Word32
  inUse : Nat
  mark : Bool
  deriving DecidableEq, Repr

/-- The Recipe Store: the slots, the start-up scan (R34), and the live cell configuration (spec/02 section 2.5). -/
structure RecipeStore where
  slots : Vector Slot 16
  scanning : Bool
  live : CellConfig
  source : ConfigSource
  deriving DecidableEq, Repr

/-! ## The Profile Engine (R41) -/

/-- The phases of the Profile Engine (R41). -/
inductive Phase where
  | idle | held | stepping | suspended | reapproach | stopping
  deriving DecidableEq, Repr

/-- The halt styles (R41). -/
inductive HaltStyle where
  | none | soft | hard
  deriving DecidableEq, Repr

/-- Why the engine is STOPPING (R41). -/
inductive StopCause where
  | runOut | failure | abort
  deriving DecidableEq, Repr

/-- A setpoint record of the drive line (R45): speed in 0.01 rpm, torques in N·m. -/
structure SetpointRecord where
  speed : Int
  enable : Bool
  torqueL : Int
  torqueR : Int
  deriving DecidableEq, Repr

/-- The Profile Engine (R41). The statistics of R54 are in the run-in section of the RUNNING unit. `settled` and
`openSent` are the facts R61 and R62 speak of: the window settle timer has expired since the step's entry or restart, and
the open sent for it has not been followed by a pause. `enabledAt` is the uptime in ms at which drive enable last went on
(R128). `stepStart` is the cell time of the step's entry or restart (R52). -/
structure ProfileEngine where
  phase : Phase
  step : Option Nat
  counters : List Nat
  stepTimer : Timer
  settleTimer : Timer
  settled : Bool
  openSent : Bool
  setpoint : Int
  torqueL : Int
  torqueR : Int
  enable : Bool
  enabledAt : Option Nat
  brake : Bool
  halt : HaltStyle
  cause : Option StopCause
  dragRecords : Nat
  dragSamples : Nat
  dragSum : Int
  stepStart : CellTime
  updates : Nat
  sent : Option SetpointRecord
  deriving DecidableEq, Repr

/-! ## The Acquisition Front End (R64 to R69) -/

/-- A feedback record of the drive line (R45): speed in 0.01 rpm. -/
structure Feedback where
  speed : Int
  ready : Bool
  fault : Bool
  deriving DecidableEq, Repr

/-- The Acquisition Front End. Live values and range faults in the channel order of spec/10 section 10.7. `slowTaken` and
`leakTaken` count the samples taken since reset (R64); `slowSlot` and `leakSlot` are the current slot numbers and
`slowEnded` and `leakEnded` how many slots have ended (R69). -/
structure FrontEnd where
  live : Vector Int 10
  faults : Vector Bool 10
  feedback : Option Feedback
  pulses : Nat
  revolution : Word32
  periodUs : Option Nat
  sawForward : Bool
  sawReverse : Bool
  openVib : Option (Fin 32)
  slowTaken : Nat
  leakTaken : Nat
  slowSlot : Nat
  leakSlot : Nat
  slowEnded : Nat
  leakEnded : Nat
  deriving DecidableEq, Repr

/-! ## The Capture Store (R70, R72) -/

/-- The states of a descriptor (R70). -/
inductive DescState where
  | free | filling | held
  deriving DecidableEq, Repr

/-- One capture block of a VIB record: a channel's samples in the order taken (R68). -/
structure Block where
  channel : Channel
  samples : List Int
  deriving DecidableEq, Repr

/-- A VIB descriptor and the record it describes (R68, R70). -/
structure VibDescriptor where
  state : DescState
  seq : Word32
  fromRes : Nat
  fromPool : Nat
  window : Nat
  direction : RevDirection
  periodUs : Nat
  pulses : Nat
  overload : Bool
  blocks : List Block
  deriving DecidableEq, Repr

/-- A SLOW descriptor and its record: five blocks, held as rows of the five channels (R69, R70). -/
structure SlowDescriptor where
  state : DescState
  seq : Word32
  fromRes : Nat
  fromPool : Nat
  samples : List SlowSample
  deriving DecidableEq, Repr

/-- A LEAK descriptor and its record: five blocks, held as rows of the five channels (R69, R70). -/
structure LeakDescriptor where
  state : DescState
  seq : Word32
  fromRes : Nat
  fromPool : Nat
  samples : List LeakSample
  deriving DecidableEq, Repr

/-- The accounts of one stream (R72, R81). -/
structure Stream where
  state : StreamState
  plan : Plan
  target : Option Plan
  heldRes : Nat
  heldPool : Nat
  dropped : Nat
  lastSeq : Option Word32
  deriving DecidableEq, Repr

/-- The Capture Store. -/
structure CaptureStore where
  vib : Stream
  slow : Stream
  leak : Stream
  vibDescs : Vector VibDescriptor 32
  slowDescs : Vector SlowDescriptor 8
  leakDescs : Vector LeakDescriptor 8
  deriving DecidableEq, Repr

/-! ## The Order Analyzer (R84, R85) -/

/-- The states of a window (R85). -/
inductive WindowState where
  | idle | opened | paused | complete | closing | closed
  deriving DecidableEq, Repr

/-- A window entry (R85). -/
structure Window where
  number : Nat
  spec : WindowSpec
  state : WindowState
  opened : Bool
  nAcc : Nat
  acc : List Nat
  held : Nat
  dropped : Nat
  slip : Nat
  wrongWay : Nat
  speedBand : Nat
  overload : Nat
  released : Nat
  deriving DecidableEq, Repr

/-- The Order Analyzer: queue and record under analysis, each record by its VIB descriptor, and the window table. -/
structure OrderAnalyzer where
  queue : List (Fin 32)
  current : Option (Fin 32)
  windows : List Window
  deriving DecidableEq, Repr

/-! ## The Leak Controller (R105) -/

/-- The phases of a chamber (R105). -/
inductive ChamberPhase where
  | idle | waitFill | fill | settle | measure | vent | done
  deriving DecidableEq, Repr

/-- Where a vent leads (R119). -/
inductive AfterVent where
  | done | requeue | idle
  deriving DecidableEq, Repr

/-- A pair taken from a LEAK record (R113): slot number, pressure mean and TLK mean. -/
structure LeakPair where
  slot : Word32
  pressure : Int
  temperature : Int
  deriving DecidableEq, Repr

/-- What a chamber record holds in MEASURE (R105, R112). -/
structure Measure where
  start : CellTime
  stop : CellTime
  expired : Bool
  first : Option LeakPair
  latest : Option LeakPair
  sensor : Bool
  deriving DecidableEq, Repr

/-- A chamber record (R105). -/
structure Chamber where
  phase : ChamberPhase
  timer : Timer
  afterVent : Option AfterVent
  measure : Option Measure
  deriving DecidableEq, Repr

/-- The reset vent (R125): over, or running with its end, in ms after the reset, once the scan has set it. -/
inductive ResetVent where
  | over
  | running (stop : Option Nat)
  deriving DecidableEq, Repr

/-- The Leak Controller (R105). -/
structure LeakController where
  chambers : Vector Chamber 4
  queue : List (Fin 4)
  resetVent : ResetVent
  deriving DecidableEq, Repr

/-! ## The Condition Unit (R126, R132) -/

/-- The changeable items of a condition record (R126). -/
structure Condition where
  severity : Nat
  vector : StopSet
  source : Bool
  latch : Bool
  injected : Bool
  lastActive : Option CellTime
  deriving DecidableEq, Repr

/-- A hold frame (R132). -/
structure HoldFrame where
  number : Fin 20
  severity : Nat
  vector : StopSet
  savedRl : Nat
  taken : CellTime
  deriving DecidableEq, Repr

/-- The Condition Unit. The hold stack is held top frame first. -/
structure ConditionUnit where
  conditions : Vector Condition 20
  stack : List HoldFrame
  rl : Nat
  mask : Nat
  mode : Mode
  deriving DecidableEq, Repr

/-! ## The Line Port (spec/09) -/

/-- The receiver (R157), with the bytes of the frame it is taking. -/
inductive Receiver where
  | hunt
  | header (got : List Byte)
  | body (kind tag : Byte) (length : Nat) (got : List Byte)
  | check (kind tag : Byte) (body : List Byte) (first : Option Byte)
  deriving DecidableEq, Repr

/-- A frame: its kind, tag and body (spec/09 section 9.1). -/
structure Frame where
  kind : Byte
  tag : Byte
  body : List Byte
  deriving DecidableEq, Repr

/-- The keys of the pending-notice set (R165). -/
inductive NoticeKey where
  | unit (record : Fin 8)
  | condition (number : Fin 20)
  | stream (s : StreamId)
  | storeDone
  | reportReady
  deriving DecidableEq, Repr

/-- The contents of notices, each with the fields its rule gives it. -/
inductive NoticeContent where
  /-- R6; `none` is FREE. -/
  | unit (id : Nat) (state : Option UnitState) (abort : Bool) (time : CellTime)
  /-- R143, with the condition state of spec/10 section 10.5. -/
  | condition (state : Nat) (lastActive : Option CellTime) (rl depth : Nat) (halt : StopSet) (time : CellTime)
  /-- R82. -/
  | stream (state : StreamState) (dropped obtainable : Nat) (time : CellTime)
  /-- R35. -/
  | storeDone (slot : Fin 16) (state : SlotState) (reason : Option Reason) (digest : Option Word32)
  /-- R155. -/
  | reportReady (length : Nat) (head : Option Nat) (time : CellTime)
  deriving DecidableEq, Repr

/-- An entry of the pending-notice set (R165). -/
structure Notice where
  key : NoticeKey
  content : NoticeContent
  deriving DecidableEq, Repr

/-- The frame in transmission (R166). -/
inductive Sending where
  | reply (f : Frame)
  | notice (n : Notice)
  deriving DecidableEq, Repr

/-- The line silence timer (R167). -/
inductive Silence where
  | disarmed
  | running (left : Nat)
  | expired
  deriving DecidableEq, Repr

/-- The Line Port. -/
structure LinePort where
  receiver : Receiver
  head : Option Frame
  second : Option Frame
  badFrames : Nat
  overruns : Nat
  silence : Silence
  notices : List Notice
  reply : Option Frame
  sending : Option Sending
  restartDue : Bool
  deriving DecidableEq, Repr

/-- The line inputs that the Condition Unit judges (R127). The KEY line is the mode (R130). -/
structure Lines where
  estop : Bool
  guard1 : Bool
  guard2 : Bool
  supplyOk : Bool
  deriving DecidableEq, Repr

end Sys2Proof.Machine
end

