-- ==== Sys2Proof/Machine/Defaults.lean ====
section
/-! DEFINITION. The values the spec's tables fix: the condition table (R126), the default cell configuration (spec/02 section 2.5),
and what each block holds after reset. -/

namespace Sys2Proof.Machine

/-- The empty stop vector. -/
def StopSet.empty : StopSet := ⟨false, false, false, false⟩

/-- All four kinds of work. -/
def StopSet.full : StopSet := ⟨true, true, true, true⟩

/-- The severity and stop vector of each condition in the table of R126: the fixed value, or the default. -/
def conditionTable : Vector CondSetting 20 := #v[
  ⟨15, .full⟩,                          -- 0 ESTOP
  ⟨13, .full⟩,                          -- 1 RESET_OCCURRED
  ⟨14, ⟨true, false, true, true⟩⟩,      -- 2 LINE_SILENT
  ⟨14, ⟨true, true, false, false⟩⟩,     -- 3 OVERSPEED
  ⟨13, ⟨true, true, false, false⟩⟩,     -- 4 DRIVE_FAULT
  ⟨12, ⟨true, false, false, false⟩⟩,    -- 5 TORQUE_HIGH
  ⟨11, ⟨true, false, false, true⟩⟩,     -- 6 GUARD1_OPEN
  ⟨11, ⟨false, false, true, true⟩⟩,     -- 7 GUARD2_OPEN
  ⟨12, ⟨true, false, true, true⟩⟩,      -- 8 MODE_CHANGE
  ⟨12, ⟨false, false, false, true⟩⟩,    -- 9 TRANSFER_TIMEOUT
  ⟨9, ⟨true, false, false, false⟩⟩,     -- 10 OIL_HOT
  ⟨10, ⟨true, false, true, false⟩⟩,     -- 11 SENSOR_FAULT
  ⟨7, ⟨false, false, true, false⟩⟩,     -- 12 SUPPLY_LOW
  ⟨3, .empty⟩, ⟨3, .empty⟩, ⟨3, .empty⟩,  -- 13 to 15 VIB_STARVED, SLOW_STARVED, LEAK_STARVED
  ⟨1, .empty⟩, ⟨1, .empty⟩, ⟨1, .empty⟩, ⟨1, .empty⟩]  -- 16 to 19 USER0 to USER3

/-- The kind of each condition (R126): LEVEL for 4, 6, 7, 10, 11 and 12. -/
def conditionKind (n : Fin 20) : ConditionKind :=
  if n = 4 ∨ n = 6 ∨ n = 7 ∨ n = 10 ∨ n = 11 ∨ n = 12 then .level else .latched

/-- Where the settings of condition `n` stand in a cell configuration: conditions 5 and 9 to 19 are configurable (R126),
and no other. -/
def configIndex (n : Fin 20) : Option (Fin 12) :=
  match n with
  | 5 => some 0 | 9 => some 1 | 10 => some 2 | 11 => some 3 | 12 => some 4 | 13 => some 5
  | 14 => some 6 | 15 => some 7 | 16 => some 8 | 17 => some 9 | 18 => some 10 | 19 => some 11
  | _ => none

/-- The whole range of the quantity of each SLOW and LEAK channel (spec/02 section 2.5), in the order of spec/10 section 10.7. -/
def quantityRange : Vector (Int × Int) 10 := #v[
  (-32768, 32767), (-15000, 15000), (-15000, 15000), (-4000, 15000), (-4000, 15000),
  (0, 1000000), (0, 1000000), (0, 1000000), (0, 1000000), (-4000, 15000)]

/-- A channel with zero 0, gain 65,536 and the whole range of its quantity (spec/02 section 2.5). -/
def defaultCalibration (range : Int × Int) : Calibration := ⟨0, 65536, range.1, range.2⟩

/-- The default cell configuration (spec/02 section 2.5). -/
def defaultConfig : CellConfig where
  channels := #v[
    defaultCalibration (-32768, 32767), defaultCalibration (-15000, 15000), defaultCalibration (-15000, 15000),
    defaultCalibration (-4000, 15000), defaultCalibration (-4000, 15000), defaultCalibration (0, 1000000),
    defaultCalibration (0, 1000000), defaultCalibration (0, 1000000), defaultCalibration (0, 1000000),
    defaultCalibration (-4000, 15000)]
  sensitivity := #v[0, 0, 0, 0, 0]
  pAtm := 101325
  tRef := 2500
  silence := 1000
  transfer := 30
  resetVent := 3000
  conditions := #v[
    conditionTable[5], conditionTable[9], conditionTable[10], conditionTable[11], conditionTable[12], conditionTable[13],
    conditionTable[14], conditionTable[15], conditionTable[16], conditionTable[17], conditionTable[18], conditionTable[19]]
  torqueLimit := 15000
  oilLimit := 12000

/-- The plan of a stream whose station has no unit (R79): reservation 0, weight 0, threshold 100 %. -/
def Plan.vacant : Plan := ⟨0, 0, 100⟩

/-- A stream after reset (R83). -/
def Stream.atReset : Stream := ⟨.idle, .vacant, none, 0, 0, 0, none⟩

/-- A FREE VIB descriptor (R70). -/
def VibDescriptor.vacant : VibDescriptor := ⟨.free, 0, 0, 0, 0, .fwd, 0, 0, false, []⟩

/-- A FREE SLOW descriptor (R70). -/
def SlowDescriptor.vacant : SlowDescriptor := ⟨.free, 0, 0, 0, []⟩

/-- A FREE LEAK descriptor (R70). -/
def LeakDescriptor.vacant : LeakDescriptor := ⟨.free, 0, 0, 0, []⟩

/-- The Capture Store after reset (R83). -/
def CaptureStore.atReset : CaptureStore :=
  ⟨.atReset, .atReset, .atReset, .replicate 32 .vacant, .replicate 8 .vacant, .replicate 8 .vacant⟩

/-- The Acquisition Front End after reset (R83); live values and counts before the first sample or index: log 16. -/
def FrontEnd.atReset : FrontEnd where
  live := .replicate 10 0
  faults := .replicate 10 false
  feedback := none
  pulses := 0
  revolution := 0
  periodUs := none
  sawForward := false
  sawReverse := false
  openVib := none
  slowTaken := 0
  leakTaken := 0
  slowSlot := 0
  leakSlot := 0
  slowEnded := 0
  leakEnded := 0

/-- The Profile Engine after reset (R63). -/
def ProfileEngine.atReset : ProfileEngine where
  phase := .idle
  step := none
  counters := []
  stepTimer := none
  settleTimer := none
  settled := false
  openSent := false
  setpoint := 0
  torqueL := 0
  torqueR := 0
  enable := false
  enabledAt := none
  brake := true
  halt := .none
  cause := none
  dragRecords := 0
  dragSamples := 0
  dragSum := 0
  stepStart := 0
  updates := 0
  sent := none

/-- The Order Analyzer after reset (R104). -/
def OrderAnalyzer.atReset : OrderAnalyzer := ⟨[], none, []⟩

/-- A chamber record in IDLE (R124, R125). -/
def Chamber.atRest : Chamber := ⟨.idle, none, none, none⟩

/-- The Leak Controller after reset (R125). -/
def LeakController.atReset : LeakController := ⟨.replicate 4 .atRest, [], .running none⟩

/-- The Unit Table after reset (R20). -/
def UnitTable.atReset : UnitTable := ⟨.replicate 8 none, 1, false, none⟩

/-- A condition record after reset with its table settings (R144). -/
def Condition.atReset (c : CondSetting) : Condition := ⟨c.severity, c.vector, false, false, false, none⟩

/-- The Line Port after reset (R168), before the arbiter has chosen a frame. -/
def LinePort.atReset : LinePort where
  receiver := .hunt
  head := none
  second := none
  badFrames := 0
  overruns := 0
  silence := .disarmed
  notices := []
  reply := none
  sending := none
  restartDue := false

/-- A BLANK slot, all its bytes reading FFh (R21, R25). -/
def Slot.blankSlot : Slot := ⟨[], none, .blank, none, 0, none, 0, false⟩

end Sys2Proof.Machine
end

