-- ==== Sys2Proof/Machine/State.lean ====
section
/-! DEFINITION. The state of the T-860: the state of each functional block, the field lines, the clock, and the queue of
commands and events that are waiting. -/

namespace Sys2Proof.Machine

/-- Why the machine stops. No rule of the spec stops it: every command is answered and every event has its effect or changes
nothing, so there is no fault, and nothing raises one (safe). -/
inductive Fault : Type
  deriving DecidableEq, Repr

/-- Why a command has no meaning. -/
inductive Refusal where
  /-- Raised by an arm of `exec` whose row has no meaning yet; no arm is so now (safe). -/
  | notModelled (mnemonic : String)
  deriving DecidableEq, Repr

/-- The T-860. `pending` is the queue of waiting commands and events, first in, first out; `clockUs` the microseconds since
the reset; `freeCount` how many free values have been handed out (log 7). -/
structure State where
  pending : List Instr
  clockUs : Nat
  freeCount : Nat
  lines : Lines
  lp : LinePort
  ut : UnitTable
  rs : RecipeStore
  pe : ProfileEngine
  afe : FrontEnd
  cs : CaptureStore
  oa : OrderAnalyzer
  lkc : LeakController
  cu : ConditionUnit
  reports : List Nat
  deriving DecidableEq, Repr

/-- The conditions after a reset with ESTOP and the guards deasserted and the supply good: RESET_OCCURRED latched, its last
active time the reset itself (R129, R144, R145). -/
def resetConditions : Vector Condition 20 := #v[
  .atReset conditionTable[0],
  { Condition.atReset conditionTable[1] with latch := true, lastActive := some 0 },
  .atReset conditionTable[2], .atReset conditionTable[3], .atReset conditionTable[4], .atReset conditionTable[5],
  .atReset conditionTable[6], .atReset conditionTable[7], .atReset conditionTable[8], .atReset conditionTable[9],
  .atReset conditionTable[10], .atReset conditionTable[11], .atReset conditionTable[12], .atReset conditionTable[13],
  .atReset conditionTable[14], .atReset conditionTable[15], .atReset conditionTable[16], .atReset conditionTable[17],
  .atReset conditionTable[18], .atReset conditionTable[19]]

/-- The machine right after a reset (R20, R40, R63, R83, R104, R125, R144, R145, R168): RESET_OCCURRED is taken, its notice is
being sent, the PROFILE halt that it brings is SOFT (R56, log 20), the VENT lines are asserted and the start-up scan runs. The
field lines stand at rest, the KEY line is deasserted and every slot is BLANK (DESIGN CHOICE, unsafe, log 6: the spec gives the
lines no reset value and the slots keep theirs). -/
def State.reset : State where
  pending := []
  clockUs := 0
  freeCount := 0
  lines := ⟨false, false, false, true⟩
  lp := { LinePort.atReset with
    sending := some (.notice ⟨.condition 1, .condition 58 (some 0) 13 1 .full 0⟩) }
  ut := .atReset
  rs := ⟨.replicate 16 .blankSlot, true, defaultConfig, .defaults⟩
  pe := { ProfileEngine.atReset with halt := .soft }
  afe := .atReset
  cs := .atReset
  oa := .atReset
  lkc := .atReset
  cu := ⟨resetConditions, [⟨1, 13, .full, 0, 0⟩], 13, 0, .production⟩
  reports := []

end Sys2Proof.Machine
end

