-- ==== Sys2Proof/Machine/Ops.lean ====
section
/-! DEFINITION. The operations every functional block shares: updating a block, the clock, the slots' memory, raising a notice,
finding a unit. -/

namespace Sys2Proof.Machine

/-! ## Updating one block -/

/-- Replace the queue of waiting commands. -/
def State.setPending (s : State) (x : List Instr) : State := { s with pending := x }
/-- Replace the count of free values handed out. -/
def State.setFreeCount (s : State) (x : Nat) : State := { s with freeCount := x }
/-- Replace the field lines. -/
def State.setLines (s : State) (x : Lines) : State := { s with lines := x }
/-- Replace the Line Port. -/
def State.setLp (s : State) (x : LinePort) : State := { s with lp := x }
/-- Replace the Unit Table. -/
def State.setUt (s : State) (x : UnitTable) : State := { s with ut := x }
/-- Replace the Recipe Store. -/
def State.setRs (s : State) (x : RecipeStore) : State := { s with rs := x }
/-- Replace the Profile Engine. -/
def State.setPe (s : State) (x : ProfileEngine) : State := { s with pe := x }
/-- Replace the Acquisition Front End. -/
def State.setAfe (s : State) (x : FrontEnd) : State := { s with afe := x }
/-- Replace the Capture Store. -/
def State.setCs (s : State) (x : CaptureStore) : State := { s with cs := x }
/-- Replace the Order Analyzer. -/
def State.setOa (s : State) (x : OrderAnalyzer) : State := { s with oa := x }
/-- Replace the Leak Controller. -/
def State.setLkc (s : State) (x : LeakController) : State := { s with lkc := x }
/-- Replace the Condition Unit. -/
def State.setCu (s : State) (x : ConditionUnit) : State := { s with cu := x }
/-- Replace the report queue. -/
def State.setReports (s : State) (x : List Nat) : State := { s with reports := x }

/-! ## Numbers -/

/-- The next value of a count that stops at `top`. -/
def countUpTo (top n : Nat) : Nat := if n < top then n + 1 else n

/-- The next value of a 16-bit count that stops at 65535 (R85, R158, R159). -/
def count16 (n : Nat) : Nat := countUpTo 65535 n

/-- The next value of a 32-bit count that stops at 0FFFFFFFFh (R43, R81). -/
def count32 (n : Nat) : Nat := countUpTo 4294967295 n

/-- `x` held within `lo` and `hi`. -/
def clampInt (lo hi x : Int) : Int := if x < lo then lo else if hi < x then hi else x

/-! ## Time -/

/-- Whole milliseconds since the last reset. -/
def State.uptime (s : State) : Nat := s.clockUs / 1000

/-- Cell time (spec/00, Quantities): milliseconds since the last reset, 32 bits, wrapping. -/
def State.now (s : State) : CellTime := BitVec.ofNat 32 s.uptime

/-- A timer after `ms` more milliseconds; one that has run out stays at 0 until its expiry is taken. -/
def Timer.after (ms : Nat) (t : Timer) : Timer := Option.map (· - ms) t

/-- The line silence timer after `ms` more milliseconds. -/
def Silence.after (ms : Nat) : Silence → Silence
  | .running left => .running (left - ms)
  | x => x

/-- A chamber after `ms` more milliseconds. -/
def Chamber.after (ms : Nat) (c : Chamber) : Chamber := { c with timer := Timer.after ms c.timer }

/-- `us` microseconds pass: the clock, the period timer and every running timer move (log 2, log 3). -/
def State.elapse (us : Nat) (s : State) : State :=
  let ms := (s.clockUs + us) / 1000 - s.clockUs / 1000
  { s with
    clockUs := s.clockUs + us
    lp := { s.lp with silence := s.lp.silence.after ms }
    ut := { s.ut with transferTimer := s.ut.transferTimer.after ms }
    pe := { s.pe with stepTimer := s.pe.stepTimer.after ms, settleTimer := s.pe.settleTimer.after ms }
    afe := { s.afe with periodUs := s.afe.periodUs.map (· + us) }
    lkc := { s.lkc with chambers := Vector.ofFn fun i => (s.lkc.chambers[i]).after ms } }

/-- `ms` milliseconds pass. -/
def State.elapseMs (ms : Nat) (s : State) : State := s.elapse (1000 * ms)

/-- The clock moves to `ms` milliseconds after the reset, if that is still to come (log 3). -/
def State.elapseTo (ms : Nat) (s : State) : State := s.elapse (1000 * ms - s.clockUs)

/-- What a step does when no command waits: one millisecond passes (log 2). -/
def State.tick (s : State) : State := s.elapseMs 1

/-- Cell time differences are taken modulo 2^32 (R52, R113); `a` minus `b` as a signed number (log 13). -/
def timeDiff (a b : CellTime) : Int := (a - b).toInt

/-! ## The slots' memory -/

/-- What a byte not written since the last erase reads as (R21). -/
def erasedByte : Byte := 0xFF

/-- The byte at offset `a`. -/
def Memory.read : Memory → Nat → Byte
  | [], _ => erasedByte
  | (k, v) :: m, a => if k = a then v else Memory.read m a

/-- Store `v` at offset `a`, keeping the canonical form. -/
def Memory.write : Memory → Nat → Byte → Memory
  | [], a, v => if v = erasedByte then [] else [(a, v)]
  | (k, w) :: m, a, v =>
    if k < a then (k, w) :: Memory.write m a v
    else if k = a then (if v = erasedByte then m else (a, v) :: m)
    else if v = erasedByte then (k, w) :: m else (a, v) :: (k, w) :: m

/-- Store `data` from offset `a` on. -/
def Memory.writeAll : Memory → Nat → List Byte → Memory
  | m, _, [] => m
  | m, a, v :: vs => Memory.writeAll (m.write a v) (a + 1) vs

/-- The `n` bytes from offset `a` on. -/
def Memory.readAll (m : Memory) (a : Nat) : Nat → List Byte
  | 0 => []
  | n + 1 => m.read a :: Memory.readAll m (a + 1) n

/-- Every offset of `m` lies above `lo` where one is given, offsets rise strictly, and no cell holds the erased byte. -/
def Memory.wfFrom : Option Nat → Memory → Bool
  | _, [] => true
  | lo, (k, v) :: m => (match lo with | none => true | some l => decide (l < k)) && decide (v ≠ erasedByte) && Memory.wfFrom (some k) m

/-- The canonical form of a slot's bytes. -/
def Memory.wf (m : Memory) : Bool := Memory.wfFrom none m

/-- The byte at offset `off` of a slot, as a read sees it: after an interrupted operation, a free value (R36, log 7). -/
def Slot.byteAt (sl : Slot) (off : Nat) : Byte :=
  match sl.garbled with
  | none => sl.bytes.read off
  | some n => Config.freeByte n off

/-! ## Notices (R165) -/

/-- Put content under a key: a pending key keeps its place and takes the new content, another joins the tail. -/
def putNotice (n : Notice) : List Notice → List Notice
  | [] => [n]
  | m :: ms => if m.key = n.key then n :: ms else m :: putNotice n ms

/-- Raise a notice. -/
def State.raise (key : NoticeKey) (content : NoticeContent) (s : State) : State :=
  s.setLp { s.lp with notices := putNotice ⟨key, content⟩ s.lp.notices }

/-- The transmit arbiter (R166): with the transmitter free, a ready reply goes first, then the notice of the key at the head
of the pending order. It chooses at the end of each event. -/
def arbitrate (s : State) : State :=
  match s.lp.sending, s.lp.reply, s.lp.notices with
  | none, some f, _ => s.setLp { s.lp with reply := none, sending := some (.reply f) }
  | none, none, n :: ns => s.setLp { s.lp with notices := ns, sending := some (.notice n) }
  | _, _, _ => s

/-- An event that has had its effect: the arbiter chooses, and the machine goes on. -/
def finish (s : State) : Host.Outcome State Fault Refusal := .next (arbitrate s)

/-! ## Units and stations (R5) -/

/-- The states in which a unit occupies station 1. -/
def UnitState.atStation1 : UnitState → Bool
  | .loaded | .running | .runDone | .inTransfer => true
  | _ => false

/-- The states in which a unit occupies station 2. -/
def UnitState.atStation2 : UnitState → Bool
  | .inTransfer | .atLeak | .leaking => true
  | _ => false

/-- The states in which a unit is working: it collects interruptions (R4) and the line silence timer is armed (R167). -/
def UnitState.working : UnitState → Bool
  | .running | .leaking => true
  | _ => false

/-- The record of lowest index whose state satisfies `p`. -/
def UnitTable.find (p : UnitState → Bool) (ut : UnitTable) : Option (Fin 8) :=
  (List.finRange 8).find? fun i => match ut.records[i] with
    | some r => p r.state
    | none => false

/-- The record that carries `id` (R1). -/
def UnitTable.findId (id : Nat) (ut : UnitTable) : Option (Fin 8) :=
  (List.finRange 8).find? fun i => match ut.records[i] with
    | some r => decide (r.id = id)
    | none => false

/-- How many records are in use (R1). -/
def UnitTable.count (ut : UnitTable) : Nat := (ut.records.toList.filter Option.isSome).length

/-- The station-1 unit (R5, R38). -/
def State.unit1 (s : State) : Option (Fin 8) := s.ut.find UnitState.atStation1

/-- The station-2 unit (R5, R38). -/
def State.unit2 (s : State) : Option (Fin 8) := s.ut.find UnitState.atStation2

/-- Some unit is in state `u`. -/
def State.anyUnit (u : UnitState) (s : State) : Bool := (s.ut.find (fun v => decide (v = u))).isSome

/-- The record at index `i`, changed by `f`; a FREE record stays FREE. -/
def State.mapUnit (i : Fin 8) (f : UnitRecord → UnitRecord) (s : State) : State :=
  s.setUt { s.ut with records := s.ut.records.set i ((s.ut.records[i]).map f) }

/-- Raise the UNIT notice of the record at index `i` as it stands (R6). -/
def State.unitNotice (i : Fin 8) (s : State) : State :=
  match s.ut.records[i] with
  | some r => s.raise (.unit i) (.unit r.id (some r.state) r.abort s.now)
  | none => s

/-- The record at index `i` enters state `u` and raises its UNIT notice (R6). -/
def State.enterState (i : Fin 8) (u : UnitState) (s : State) : State :=
  (s.mapUnit i fun r => { r with state := u }).unitNotice i

/-! ## The halt set (R135) -/

/-- The union of two stop vectors. -/
def StopSet.union (a b : StopSet) : StopSet :=
  ⟨a.profile || b.profile, a.noise || b.noise, a.leak || b.leak, a.transfer || b.transfer⟩

/-- The union of the stop vectors of the frames of a stack. -/
def haltOf (stack : List HoldFrame) : StopSet := stack.foldr (fun f acc => f.vector.union acc) .empty

/-- The halt set. -/
def State.halt (s : State) : StopSet := haltOf s.cu.stack

end Sys2Proof.Machine
end

