-- ==== Sys2Proof/Machine/Operands.lean ====
section
/-! DEFINITION. Encodings (spec/10): little-endian fields, the codes of section 10.8, the two CRCs, the frame on the line, and how a
command's body is read. -/

namespace Sys2Proof.Machine

/-! ## Fields (R169) -/

/-- The low `n` bytes of `v`, least significant first. -/
def leBytes : Nat → Nat → List Byte
  | 0, _ => []
  | n + 1, v => BitVec.ofNat 8 v :: leBytes n (v / 256)

/-- The low `n` bytes of a signed value in two's complement, least significant first. -/
def leInt (n : Nat) (x : Int) : List Byte := leBytes n (x % (256 ^ n : Nat)).toNat

/-- The number that bytes hold, least significant first. -/
def leNat : List Byte → Nat
  | [] => 0
  | b :: bs => b.toNat + 256 * leNat bs

/-- A signed field that may be absent: the most negative value of its width then. -/
def leIntOpt (n : Nat) (x : Option Int) : List Byte := leInt n (x.getD (-(256 ^ n : Nat) / 2))

/-- A flag: 0 or 1. -/
def flagByte (b : Bool) : Byte := if b then 1 else 0

/-- A code in one byte. -/
def codeByte (n : Nat) : Byte := BitVec.ofNat 8 n

/-- An enumeration that may be absent: 0FFh then. -/
def codeOpt (x : Option Nat) : Byte := codeByte (x.getD 255)

/-- Text padded with 00h to `n` bytes. -/
def textBytes (n : Nat) (t : List Byte) : List Byte := (t ++ List.replicate n 0).take n

/-! ## Codes (spec/10 section 10.8 and the status table of section 10.2) -/

/-- Codes of unit states; FREE is 0. -/
def UnitState.code : UnitState → Nat
  | .loaded => 1 | .running => 2 | .runDone => 3 | .inTransfer => 4 | .atLeak => 5 | .leaking => 6 | .done => 7

/-- Codes of slot states. -/
def SlotState.code : SlotState → Nat
  | .blank => 0 | .writing => 1 | .closing => 2 | .valid => 3 | .invalid => 4 | .erasing => 5

/-- Codes of reasons. -/
def Reason.code : Reason → Nat
  | .badMark => 1 | .badLength => 2 | .stepCount => 3 | .stepRange => 4 | .loopTarget => 5 | .lastNotZero => 6
  | .windowRange => 7 | .resultCount => 8 | .leakRange => 9 | .captureRange => 10 | .interrupted => 11 | .configRange => 12

/-- Codes of verdicts and grades; for those of the verdict order (spec/00) also their rank, best first. -/
def Verdict.code : Verdict → Nat
  | .pass => 0 | .warn => 1 | .incomplete => 2 | .fail => 3 | .aborted => 4 | .skipped => 5

/-- Codes of run-in section states. -/
def RunInState.code : RunInState → Nat
  | .notStarted => 0 | .inProgress => 1 | .finished => 2 | .failed => 3 | .aborted => 4

/-- Codes of leak section states. -/
def LeakState.code : LeakState → Nat
  | .notStarted => 0 | .inProgress => 1 | .complete => 2 | .skipped => 3 | .aborted => 4

/-- Codes of window kinds. -/
def WindowKind.code : WindowKind → Nat
  | .steady => 0 | .sweep => 1

/-- Codes of directions. -/
def Direction.code : Direction → Nat
  | .fwd => 0 | .rev => 1

/-- Codes of chamber kinds. -/
def ChamberKind.code : ChamberKind → Nat
  | .housing => 0 | .hub => 1 | .circuit => 2

/-- Codes of outcomes. -/
def LeakOutcome.code : LeakOutcome → Nat
  | .pass => 0 | .fail => 1 | .unstable => 2 | .gap => 3 | .sensor => 4 | .gross => 5

/-- Codes of vibration channels. -/
def Channel.code : Channel → Nat
  | .acc0 => 0 | .acc1 => 1 | .acc2 => 2 | .acc3 => 3 | .mic => 4

/-- Codes of streams. -/
def streamCode : StreamId → Nat
  | .vib => 0 | .slow => 1 | .leak => 2

/-- Codes of stream states. -/
def StreamState.code : StreamState → Nat
  | .idle => 0 | .running => 1 | .starved => 2 | .pendingPlan => 3

/-- Codes of condition kinds. -/
def ConditionKind.code : ConditionKind → Nat
  | .level => 0 | .latched => 1

/-- Codes of modes. -/
def Mode.code : Mode → Nat
  | .production => 0 | .maintenance => 1

/-- Codes of configuration sources. -/
def ConfigSource.code : ConfigSource → Nat
  | .defaults => 0 | .slot0 => 1

/-- Codes of statuses (spec/10 section 10.2). -/
def Status.code : Status → Nat
  | .ok => 0x00 | .accepted => 0x01 | .empty => 0x02 | .matched => 0x03 | .mismatch => 0x04
  | .unknownKind => 0x10 | .badLength => 0x11 | .badValue => 0x12 | .badOffset => 0x13 | .wrongState => 0x14
  | .notFound => 0x15 | .tableFull => 0x16 | .stationBusy => 0x17 | .notRecipe => 0x18 | .recipeInvalid => 0x19
  | .slotInUse => 0x1A | .slotBusy => 0x1B | .notBlank => 0x1C | .protected_ => 0x1D | .stillActive => 0x1E
  | .wrongReport => 0x1F | .starting => 0x20

/-- A set in one number: the sum of its members' values. -/
def StopSet.code (x : StopSet) : Nat :=
  (if x.profile then 1 else 0) + (if x.noise then 2 else 0) + (if x.leak then 4 else 0) + (if x.transfer then 8 else 0)

/-- The stop vector with value `n`, from 0 to 15. -/
def StopSet.ofCode (n : Nat) : StopSet := ⟨n.testBit 0, n.testBit 1, n.testBit 2, n.testBit 3⟩

/-- The vibration channels in the order of R85, as spec/10 section 10.8 numbers them. -/
def allChannels : List Channel := [.acc0, .acc1, .acc2, .acc3, .mic]

/-! ## The two CRCs -/

/-- One bit of the CRC-16 of R158. -/
def crc16Bit (r : BitVec 16) : BitVec 16 := if r.msb then (r <<< 1) ^^^ 0x1021 else r <<< 1

/-- One byte of the CRC-16, most significant bit first. -/
def crc16Byte (r : BitVec 16) (b : Byte) : BitVec 16 :=
  Nat.repeat crc16Bit 8 (r ^^^ (b.setWidth 16 <<< 8))

/-- The CRC-16 of line frames (R158). -/
def crc16 (bs : List Byte) : BitVec 16 := bs.foldl crc16Byte 0xFFFF

/-- One bit of the CRC-32 of R29, in the right-shifting form. -/
def crc32Bit (r : BitVec 32) : BitVec 32 := if r.getLsbD 0 then (r >>> 1) ^^^ 0xEDB88320 else r >>> 1

/-- One byte of the CRC-32, least significant bit first. -/
def crc32Byte (r : BitVec 32) (b : Byte) : BitVec 32 := Nat.repeat crc32Bit 8 (r ^^^ b.setWidth 32)

/-- The recipe digest (R29). -/
def crc32 (bs : List Byte) : Word32 := ~~~(bs.foldl crc32Byte 0xFFFFFFFF)

/-! ## Frames (spec/10 section 10.2) -/

/-- The start byte of a frame. -/
def startByte : Byte := 0xC3

/-- The bytes the check is taken over (R158): kind, tag, body length, body. -/
def Frame.core (f : Frame) : List Byte := f.kind :: f.tag :: (leBytes 2 f.body.length ++ f.body)

/-- The check bytes that follow a kind, tag and body, least significant first (R158). -/
def Frame.checkBytes (f : Frame) : List Byte := leBytes 2 (crc16 f.core).toNat

/-- The bytes of a frame on the line. -/
def Frame.wire (f : Frame) : List Byte := startByte :: (f.core ++ f.checkBytes)

/-! ## Commands (spec/10 section 10.2) -/

/-- A command as its owning block takes it: the fields of its body. -/
inductive Command where
  | status | identify | restart
  | loadUnit (slot : Byte) (serial : List Byte)
  | startRun (id : Nat) | abortUnit (id : Nat) | unitGet (id : Nat)
  | advanceStep | streamGet | condList
  | condGet (n : Byte) | condAck (n : Byte) | condInject (n : Byte)
  | condConfig (n severity vector : Byte)
  | setMask (level : Byte)
  | resume | reportGet
  | reportRelease (id : Nat)
  | slotErase (slot : Byte) | slotBlank (slot : Byte)
  | slotWrite (slot : Byte) (offset : Nat) (data : List Byte)
  | slotClose (slot : Byte)
  | slotVerify (slot : Byte) (digest : Word32)
  | slotRead (slot : Byte) (offset length : Nat)
  | slotInfo (slot : Byte)
  deriving DecidableEq, Repr

/-- The least and the most bytes a command's body may have, by its kind (R160); `none` for a kind that names no command. -/
def bodyLimits (kind : Byte) : Option (Nat × Nat) :=
  match kind.toNat with
  | 0x01 | 0x02 | 0x03 | 0x0C | 0x0D | 0x10 | 0x16 | 0x18 => some (0, 0)
  | 0x08 => some (1, 21)
  | 0x09 | 0x0A | 0x0B | 0x19 => some (2, 2)
  | 0x11 | 0x12 | 0x13 | 0x15 | 0x20 | 0x21 | 0x23 | 0x26 => some (1, 1)
  | 0x14 => some (3, 3)
  | 0x22 => some (3, 1003)
  | 0x24 | 0x25 => some (5, 5)
  | _ => none

/-- Byte `i` of a body. -/
def bodyByte (body : List Byte) (i : Nat) : Byte := body.getD i 0

/-- The two-byte field at byte `i` of a body. -/
def bodyHalf (body : List Byte) (i : Nat) : Nat := leNat [bodyByte body i, bodyByte body (i + 1)]

/-- The command that a frame whose length has passed spells (spec/10 section 10.2). -/
def readCommand (kind : Byte) (body : List Byte) : Option Command :=
  match kind.toNat with
  | 0x01 => some .status
  | 0x02 => some .identify
  | 0x03 => some .restart
  | 0x08 => some (.loadUnit (bodyByte body 0) (body.drop 1))
  | 0x09 => some (.startRun (bodyHalf body 0))
  | 0x0A => some (.abortUnit (bodyHalf body 0))
  | 0x0B => some (.unitGet (bodyHalf body 0))
  | 0x0C => some .advanceStep
  | 0x0D => some .streamGet
  | 0x10 => some .condList
  | 0x11 => some (.condGet (bodyByte body 0))
  | 0x12 => some (.condAck (bodyByte body 0))
  | 0x13 => some (.condInject (bodyByte body 0))
  | 0x14 => some (.condConfig (bodyByte body 0) (bodyByte body 1) (bodyByte body 2))
  | 0x15 => some (.setMask (bodyByte body 0))
  | 0x16 => some .resume
  | 0x18 => some .reportGet
  | 0x19 => some (.reportRelease (bodyHalf body 0))
  | 0x20 => some (.slotErase (bodyByte body 0))
  | 0x21 => some (.slotBlank (bodyByte body 0))
  | 0x22 => some (.slotWrite (bodyByte body 0) (bodyHalf body 1) (body.drop 3))
  | 0x23 => some (.slotClose (bodyByte body 0))
  | 0x24 => some (.slotVerify (bodyByte body 0) (BitVec.ofNat 32 (leNat ((body.drop 1).take 4))))
  | 0x25 => some (.slotRead (bodyByte body 0) (bodyHalf body 1) (bodyHalf body 3))
  | 0x26 => some (.slotInfo (bodyByte body 0))
  | _ => none

/-! ## Replies -/

/-- A reply body: the status byte and the data after it (R161). -/
abbrev Reply := List Byte

/-- A reply with a status and data. -/
def answer (st : Status) (data : List Byte) : Reply := codeByte st.code :: data

/-- A reply of the status byte alone. -/
def refuse (st : Status) : Reply := answer st []

end Sys2Proof.Machine
end

