-- ==== Sys2Proof/Machine/Flags.lean ====
section
/-! DEFINITION. The Condition Unit's own state: sources, latches, the active judgement, taking and the hold stack (spec/07). What the
functional blocks do when the halt set changes is in Machine/Halts.lean. -/

namespace Sys2Proof.Machine

/-- Condition record `n` (R126). -/
def State.cond (n : Fin 20) (s : State) : Condition := s.cu.conditions[n]

/-- Condition record `n`, changed by `f`. -/
def State.mapCond (n : Fin 20) (f : Condition → Condition) (s : State) : State :=
  s.setCu { s.cu with conditions := s.cu.conditions.set n (f s.cu.conditions[n]) }

/-- A record's active item (R129): a LEVEL condition follows its source and injected flag, a LATCHED one its latch. -/
def Condition.active (k : ConditionKind) (c : Condition) : Bool :=
  match k with
  | .level => c.source || c.injected
  | .latched => c.latch

/-- Condition `n` is active (R129). -/
def State.active (n : Fin 20) (s : State) : Bool := (s.cond n).active (conditionKind n)

/-- A hold frame for condition `n` is on the stack (R126). -/
def State.onStack (n : Fin 20) (s : State) : Bool := s.cu.stack.any fun f => decide (f.number = n)

/-- A change of record `n` by `f`, with the last active time when it makes the condition active (R129). -/
def State.changeCond (n : Fin 20) (f : Condition → Condition) (s : State) : State :=
  s.mapCond n fun c =>
    let c' := f c
    if !c.active (conditionKind n) && c'.active (conditionKind n) then { c' with lastActive := some s.now } else c'

/-- The source of condition `n` is judged (R127, R128); an assertion sets the latch of a LATCHED condition (R129). -/
def State.setSource (n : Fin 20) (b : Bool) (s : State) : State :=
  s.changeCond n fun c => { c with source := b, latch := c.latch || (b && decide (conditionKind n = .latched)) }

/-- The source of condition `n` is asserted at an instant, and at once no longer (R127). -/
def State.sourceInstant (n : Fin 20) (s : State) : State := (s.setSource n true).setSource n false

/-- Condition `n` qualifies for taking (R133). -/
def State.qualifies (n : Fin 20) (s : State) : Bool :=
  s.active n && !s.onStack n && decide (s.cu.rl < (s.cond n).severity) && decide (s.cu.mask < (s.cond n).severity)

/-- Of two candidates the one to take: the higher severity, the earlier number at equal severity (R133). -/
def State.better (s : State) (best : Option (Fin 20)) (n : Fin 20) : Option (Fin 20) :=
  if s.qualifies n then
    match best with
    | none => some n
    | some b => if (s.cond b).severity < (s.cond n).severity then some n else some b
  else best

/-- The condition the taking check takes next (R133). -/
def State.pick (s : State) : Option (Fin 20) := (List.finRange 20).foldl s.better none

/-- Append a condition number to a record's interruptions: eight at most, then the overflow flag (R4). -/
def UnitRecord.interrupt (n : Fin 20) (r : UnitRecord) : UnitRecord :=
  if r.interruptions.length < 8 then { r with interruptions := r.interruptions ++ [n] } else { r with overflow := true }

/-- Append a condition number to every record that is RUNNING or LEAKING (R4). -/
def State.interruptUnits (n : Fin 20) (s : State) : State :=
  s.setUt { s.ut with records := Vector.ofFn fun i =>
    (s.ut.records[i]).map fun r => if r.state.working then r.interrupt n else r }

/-- Take condition `n` (R134): push its frame, set RL, append the interruption. Its notice follows the whole check (log 12). -/
def State.take (n : Fin 20) (s : State) : State :=
  let c := s.cond n
  (s.setCu { s.cu with
    stack := ⟨n, c.severity, c.vector, s.cu.rl, s.now⟩ :: s.cu.stack
    rl := c.severity }).interruptUnits n

/-- The taking check (R133), with the numbers taken in order. Each taking puts one more of the twenty conditions on the stack. -/
def takeAll : Nat → State → State × List (Fin 20)
  | 0, s => (s, [])
  | fuel + 1, s =>
    match s.pick with
    | none => (s, [])
    | some n =>
      let r := takeAll fuel (s.take n)
      (r.1, n :: r.2)

/-- The condition state in one number (spec/10 section 10.5). -/
def State.condCode (n : Fin 20) (s : State) : Nat :=
  let c := s.cond n
  (if c.source then 1 else 0) + (if c.latch then 2 else 0) + (if c.injected then 4 else 0) + (if s.active n then 8 else 0) +
    (if s.onStack n then 16 else 0) + (if c.lastActive.isSome then 32 else 0)

/-- Raise condition `n`'s notice, with RL, depth and halt set as they stand (R143). A taking raises it before its halts, so the condition
state in it shows the source from before them: that of a starvation condition whose halt makes the stream IDLE is sent as asserted
(DESIGN CHOICE, log 38: R143 has only RL, depth and halt set as they stand after the event). -/
def State.condNotice (n : Fin 20) (s : State) : State :=
  s.raise (.condition n)
    (.condition (s.condCode n) (s.cond n).lastActive s.cu.rl s.cu.stack.length s.halt s.now)

/-- The taking check, then the notices of the conditions in `first` and of those taken, in that order (R133, R134, R143). -/
def State.takingCheck (first : List (Fin 20)) (s : State) : State :=
  let r := takeAll 20 s
  (first ++ r.2).foldl (fun t n => t.condNotice n) r.1

/-- Some condition is active in `t` that was not in `s`. -/
def becameActive (s t : State) : Bool := (List.finRange 20).any fun n => !s.active n && t.active n

/-- After `t`, reached from `s` within one event, the taking check runs if a condition became active (R129, R133). -/
def checkIfActivated (s t : State) : State := if becameActive s t then t.takingCheck [] else t

/-- The live severity and stop vector of every configurable condition become those of a cell configuration (R140, R141). -/
def loadSettings (cfg : CellConfig) (v : Vector Condition 20) : Vector Condition 20 :=
  Vector.ofFn fun n => match configIndex n with
    | some k => { v[n] with severity := (cfg.conditions[k]).severity, vector := (cfg.conditions[k]).vector }
    | none => v[n]

end Sys2Proof.Machine
end

