-- ==== Sys2Proof/Machine/Recipes.lean ====
section
/-! DEFINITION. Recipe and configuration images: how their fields are read (spec/10 sections 10.6 and 10.7), the checks of a close
(R30, R32, R170), and which recipe governs a station (R38, R39). -/

namespace Sys2Proof.Machine

/-! ## Fields of an image -/

/-- The 4-byte word at offset `a`. -/
def Memory.word (m : Memory) (a : Nat) : Nat := leNat (m.readAll a 4)

/-- The signed 4-byte word at offset `a`. -/
def Memory.signed (m : Memory) (a : Nat) : Int := (BitVec.ofNat 32 (m.word a)).toInt

/-- The byte at offset `a`, as a number. -/
def Memory.byte (m : Memory) (a : Nat) : Nat := (m.read a).toNat

/-- The step count of a recipe image (spec/10 section 10.6). -/
def Memory.stepCount (m : Memory) : Nat := m.word 64

/-- The window count of a recipe image. -/
def Memory.windowCount (m : Memory) : Nat := m.word 68

/-- Where step `k` (from 0) of a recipe image stands. -/
def stepAt (k : Nat) : Nat := 72 + 36 * k

/-- Where window `w` (from 0) stands in an image with `S` steps. -/
def windowAt (S w : Nat) : Nat := 72 + 36 * S + 202 * w

/-- Where chamber `c`'s entry stands in an image with `S` steps and `W` windows. -/
def chamberAt (S W c : Nat) : Nat := 72 + 36 * S + 202 * W + 56 * c

/-- Where the capture plan stands. -/
def captureAt (S W : Nat) : Nat := 72 + 36 * S + 202 * W + 224

/-- The length a recipe image with `S` steps and `W` windows has (spec/10 section 10.6). -/
def imageLength (S W : Nat) : Nat := 332 + 36 * S + 202 * W

/-! ## Reading a recipe -/

/-- The step kind with a code. -/
def StepKind.ofCode : Nat → StepKind
  | 0 => .ramp | 1 => .hold | 2 => .pause | _ => .measureDrag

/-- The chamber kind with a code. -/
def ChamberKind.ofCode : Nat → ChamberKind
  | 0 => .housing | 1 => .hub | _ => .circuit

/-- The channels of a channel set (spec/10 section 10.8), in the order of R85. -/
def channelsOf (set : Nat) : List Channel := allChannels.filter fun c => set.testBit c.code

/-- Step `k` (from 0) of an image. -/
def readStep (m : Memory) (k : Nat) : Step :=
  let b := stepAt k
  { kind := .ofCode (m.word b), target := m.signed (b + 4), rate := m.word (b + 8), duration := m.word (b + 12),
    torqueL := m.signed (b + 16), torqueR := m.signed (b + 20), window := m.word (b + 24), loopTo := m.word (b + 28),
    loopCount := m.word (b + 32) }

/-- The limit of channel `c` and line position `j` in the window at `b`: offset 42 + 4 × (8c + j) (spec/10 section 10.6). -/
def readLimit (m : Memory) (b : Nat) (c : Channel) (j : Nat) : Int := m.signed (b + 42 + 4 * (8 * c.code + j))

/-- The window at offset `b` of an image. Its pairs are ordered by channel, then by line (R85). -/
def readWindow (m : Memory) (b : Nat) : WindowSpec :=
  let channels := channelsOf (m.word (b + 22))
  { kind := if m.byte b = 0 then .steady else .sweep
    direction := if m.byte (b + 1) = 0 then .fwd else .rev
    sLo := m.word (b + 2), sHi := m.word (b + 6), settle := m.word (b + 10), nReq := m.word (b + 14),
    nMin := m.word (b + 18), channels := channels, warnBand := m.word (b + 30)
    pairs := channels.flatMap fun c => (List.range (m.word (b + 26))).map fun j =>
      ⟨c, m.byte (b + 34 + j), readLimit m b c j⟩ }

/-- The chamber entry at offset `b` of an image. -/
def readChamber (m : Memory) (b : Nat) : ChamberPlan :=
  { enabled := decide (m.word b = 1), kind := .ofCode (m.word (b + 4)), volume := m.word (b + 8), target := m.word (b + 12),
    tolerance := m.word (b + 16), fillTimeout := m.word (b + 20), settleBase := m.word (b + 24),
    settleGain := m.word (b + 28), settleMax := m.word (b + 32), measure := m.word (b + 36), qLim := m.word (b + 40),
    qNeg := m.word (b + 44), retries := m.word (b + 48), vent := m.word (b + 52) }

/-- The recipe that an image holds (spec/10 section 10.6). -/
def readRecipe (m : Memory) : Recipe :=
  let S := m.stepCount
  let W := m.windowCount
  let cap := captureAt S W
  { leakAfterFail := decide (m.word 28 = 1), maxSpeed := m.word 32, torqueLimit := m.word 36, oilLimit := m.signed 40,
    tolerance := m.word 44, softStop := m.word 48, dragMin := m.word 52, dragMax := m.word 56, toothCount := m.word 60,
    steps := (List.range S).map (readStep m),
    windows := (List.range W).map fun w => readWindow m (windowAt S w),
    chambers := Vector.ofFn fun c => readChamber m (chamberAt S W c.val),
    vibPlan := ⟨m.word cap, m.word (cap + 12), m.word (cap + 24)⟩,
    slowPlan := ⟨m.word (cap + 4), m.word (cap + 16), m.word (cap + 28)⟩,
    leakPlan := ⟨m.word (cap + 8), m.word (cap + 20), m.word (cap + 32)⟩ }

/-! ## The checks of a recipe close (R30, R170) -/

/-- `lo ≤ x ≤ hi`. -/
def within (lo hi x : Nat) : Bool := decide (lo ≤ x) && decide (x ≤ hi)

/-- `lo ≤ x ≤ hi`, signed. -/
def withinInt (lo hi x : Int) : Bool := decide (lo ≤ x) && decide (x ≤ hi)

/-- A ramp rate or soft-stop rate: 5 to 2,000 rpm/s in multiples of 5. -/
def rateOk (x : Nat) : Bool := within 5 2000 x && decide (x % 5 = 0)

/-- A printable character (R2, spec/02 section 2.4). -/
def printable (b : Byte) : Bool := within 0x20 0x7E b.toNat

/-- The format mark of a recipe image. -/
def recipeMark : List Byte := [0x57, 0x4B, 0x43, 0x02]

/-- The format mark of a configuration image. -/
def configMark : List Byte := [0x57, 0x4B, 0x43, 0x0C]

/-- The header's fields lie in their ranges (spec/02 section 2.4). -/
def headerOk (m : Memory) : Bool :=
  (m.readAll 8 16).all printable && within 0 65535 (m.word 24) && within 0 1 (m.word 28) && within 100 3000 (m.word 32) &&
  within 1000 15000 (m.word 36) && withinInt (-4000) 15000 (m.signed 40) && within 1 100 (m.word 44) && rateOk (m.word 48) &&
  within 0 32767 (m.word 52) && within 0 32767 (m.word 56) && decide (m.word 52 ≤ m.word 56) && within 5 17 (m.word 60) &&
  within 0 6 m.windowCount

/-- Step `k` (from 0) lies in its ranges; a loop_to above its own index is left to LOOP_TARGET (R30). -/
def stepOk (m : Memory) (k : Nat) : Bool :=
  let b := stepAt k
  let top : Int := m.word 32
  within 0 3 (m.word b) && withinInt (-top) top (m.signed (b + 4)) && (decide (m.word b ≠ 2) || decide (m.signed (b + 4) = 0)) &&
  rateOk (m.word (b + 8)) && within 0 600000 (m.word (b + 12)) && withinInt (-15000) 15000 (m.signed (b + 16)) &&
  withinInt (-15000) 15000 (m.signed (b + 20)) && within 0 m.windowCount (m.word (b + 24)) &&
  decide (1 ≤ m.word (b + 28)) && within 0 255 (m.word (b + 32))

/-- The window at offset `b` lies in its ranges; limits and lines outside the channel set and line count are not checked
(R170). -/
def windowOk (m : Memory) (b : Nat) : Bool :=
  let lines := m.word (b + 26)
  within 0 1 (m.byte b) && within 0 1 (m.byte (b + 1)) && within 1 3000 (m.word (b + 2)) && within 1 3000 (m.word (b + 6)) &&
  decide (m.word (b + 2) ≤ m.word (b + 6)) && within 0 10000 (m.word (b + 10)) && within 4 256 (m.word (b + 14)) &&
  within 1 (m.word (b + 14)) (m.word (b + 18)) && within 1 31 (m.word (b + 22)) && within 1 8 lines &&
  within 0 200 (m.word (b + 30)) && ((List.range (min lines 8)).all fun j => within 1 63 (m.byte (b + 34 + j))) &&
  ((channelsOf (m.word (b + 22))).all fun c => (List.range (min lines 8)).all fun j =>
    withinInt (-2000) 2000 (readLimit m b c j))

/-- A chamber entry's enabled field is 0 or 1 and, when enabled, its fields lie in their ranges (R30, R170). -/
def chamberOk (m : Memory) (b : Nat) : Bool :=
  within 0 1 (m.word b) && (decide (m.word b = 0) ||
    (within 0 2 (m.word (b + 4)) && within 10 100000 (m.word (b + 8)) && within 1000 1000000 (m.word (b + 12)) &&
     within 0 (m.word (b + 12)) (m.word (b + 16)) && within 1000 120000 (m.word (b + 20)) &&
     within 0 (m.word (b + 32)) (m.word (b + 24)) && within 0 2000 (m.word (b + 28)) && within 0 60000 (m.word (b + 32)) &&
     within 2000 120000 (m.word (b + 36)) && within 0 1000000 (m.word (b + 40)) && within 0 1000000 (m.word (b + 44)) &&
     within 0 2 (m.word (b + 48)) && within 500 10000 (m.word (b + 52))))

/-- The capture plan lies in its ranges (spec/02 section 2.4). -/
def captureOk (m : Memory) (b : Nat) : Bool :=
  within 0 768 (m.word b) && within 0 256 (m.word (b + 4)) && within 0 256 (m.word (b + 8)) &&
  within 0 8 (m.word (b + 12)) && within 0 8 (m.word (b + 16)) && within 0 8 (m.word (b + 20)) &&
  ([b + 24, b + 28, b + 32].all fun a => [25, 50, 75, 100].contains (m.word a))

/-- The number of order results a recipe asks for (R30 RESULT_COUNT). -/
def resultCount (m : Memory) : Nat :=
  (((List.range m.windowCount).map fun w =>
    (channelsOf (m.word (windowAt m.stepCount w + 22))).length * m.word (windowAt m.stepCount w + 26))).sum

/-- The first reason of R30 whose check fails for a recipe image of `written` bytes. -/
def recipeReason (m : Memory) (written : Nat) : Option Reason :=
  let S := m.stepCount
  let W := m.windowCount
  if written < 4 ∨ m.readAll 0 4 ≠ recipeMark then some .badMark
  else if m.word 4 ≠ written ∨ m.word 4 ≠ imageLength S W then some .badLength
  else if ¬within 1 48 S then some .stepCount
  else if ¬(headerOk m && (List.range S).all (stepOk m)) then some .stepRange
  else if (List.range S).any (fun k => decide (k + 1 < m.word (stepAt k + 28))) then some .loopTarget
  else if m.signed (stepAt (S - 1) + 4) ≠ 0 then some .lastNotZero
  else if ¬(List.range W).all (fun w => windowOk m (windowAt S w)) then some .windowRange
  else if 40 < resultCount m then some .resultCount
  else if ¬(List.range 4).all (fun c => chamberOk m (chamberAt S W c)) then some .leakRange
  else if ¬captureOk m (captureAt S W) then some .captureRange
  else none

/-! ## The cell configuration (R32, spec/10 section 10.7) -/

/-- The fixed length of a configuration image. -/
def configLength : Nat := 312

/-- The calibration of channel `i` in a configuration image. -/
def readCalibration (m : Memory) (i : Nat) : Calibration :=
  let b := 8 + 16 * i
  ⟨m.signed b, m.signed (b + 4), m.signed (b + 8), m.signed (b + 12)⟩

/-- The condition settings at place `j` of a configuration image. -/
def readSetting (m : Memory) (j : Nat) : CondSetting := ⟨m.word (208 + 8 * j), .ofCode (m.word (212 + 8 * j))⟩

/-- The cell configuration that an image holds. -/
def readConfig (m : Memory) : CellConfig where
  channels := Vector.ofFn fun i => readCalibration m i.val
  sensitivity := Vector.ofFn fun i => m.signed (168 + 4 * i.val)
  pAtm := m.signed 188
  tRef := m.signed 192
  silence := m.word 196
  transfer := m.word 200
  resetVent := m.word 204
  conditions := Vector.ofFn fun j => readSetting m j.val
  torqueLimit := m.word 304
  oilLimit := m.signed 308

/-- The severity range of a configurable condition (R141): 11 to 14 for TORQUE_HIGH, 1 to 10 for the user conditions, 1 to 14
for the others. -/
def severityRange (n : Fin 20) : Nat × Nat := if n = 5 then (11, 14) else if 16 ≤ n.val then (1, 10) else (1, 14)

/-- The configurable conditions in the order of a configuration image (spec/10 section 10.7). -/
def configurable : Vector (Fin 20) 12 := #v[5, 9, 10, 11, 12, 13, 14, 15, 16, 17, 18, 19]

/-- The calibration of channel `i` lies in its ranges (spec/02 section 2.5). -/
def calibrationOk (m : Memory) (i : Fin 10) : Bool :=
  let c := readCalibration m i.val
  let q := quantityRange[i]
  withinInt (-32768) 32767 c.zero && withinInt 1 1048576 c.gain && decide (c.low < c.high) && decide (q.1 ≤ c.low) &&
  decide (c.high ≤ q.2)

/-- The settings at place `j` lie in their ranges, with every member the condition requires (R32). -/
def settingOk (m : Memory) (j : Fin 12) : Bool :=
  let n := configurable[j]
  let r := severityRange n
  within r.1 r.2 (m.word (208 + 8 * j.val)) && within 0 15 (m.word (212 + 8 * j.val)) &&
  (decide (n ≠ 5) || (m.word (212 + 8 * j.val)).testBit 0)

/-- Every field of a configuration image lies in its range (spec/02 section 2.5). -/
def configOk (m : Memory) : Bool :=
  (List.finRange 10).all (calibrationOk m) &&
  ((List.range 5).all fun i => withinInt (-600) 600 (m.signed (168 + 4 * i))) &&
  withinInt 80000 110000 (m.signed 188) && withinInt (-4000) 15000 (m.signed 192) && within 200 5000 (m.word 196) &&
  within 5 120 (m.word 200) && within 500 10000 (m.word 204) && (List.finRange 12).all (settingOk m) &&
  within 1000 15000 (m.word 304) && withinInt (-4000) 15000 (m.signed 308)

/-- The first reason of R32 whose check fails for a configuration image of `written` bytes. -/
def configReason (m : Memory) (written : Nat) : Option Reason :=
  if written < 4 ∨ m.readAll 0 4 ≠ configMark then some .badMark
  else if m.word 4 ≠ written ∨ written ≠ configLength then some .badLength
  else if ¬configOk m then some .configRange
  else none

/-! ## Which recipe governs what (R38, R39) -/

/-- The recipe bound to a record. -/
def State.recipeOf (r : UnitRecord) (s : State) : Recipe := readRecipe (s.rs.slots[r.slot]).bytes

/-- The recipe that governs station 1 (R38). -/
def State.recipe1 (s : State) : Option Recipe :=
  s.unit1.bind fun i => (s.ut.records[i]).map fun r => s.recipeOf r

/-- The recipe that governs station 2 (R38). -/
def State.recipe2 (s : State) : Option Recipe :=
  s.unit2.bind fun i => (s.ut.records[i]).map fun r => s.recipeOf r

/-- The wheel torque limit in force (R39). -/
def State.torqueLimit (s : State) : Nat := (s.recipe1.map Recipe.torqueLimit).getD s.rs.live.torqueLimit

/-- The oil temperature limit in force (R39). -/
def State.oilLimit (s : State) : Int := (s.recipe1.map Recipe.oilLimit).getD s.rs.live.oilLimit

/-- The speed limit of OVERSPEED in 0.01 rpm (R39, R128): the maximum speed × 105, or 315,000 with no unit at station 1. -/
def State.speedLimit (s : State) : Nat := (s.recipe1.map fun r => r.maxSpeed * 105).getD 315000

end Sys2Proof.Machine
end

