-- ==== Sys2Proof/Machine/Capture.lean ====
section
/-! DEFINITION. The Capture Store's accounts (spec/04 sections 4.4 to 4.6): credits, allocation, starvation, release and plans. -/

namespace Sys2Proof.Machine

/-! ## Accounts (R72, R73) -/

/-- All capture blocks of the store. -/
def allBlocks : Nat := 1536

/-- The stream `st`. -/
def CaptureStore.stream (c : CaptureStore) : StreamId → Stream
  | .vib => c.vib
  | .slow => c.slow
  | .leak => c.leak

/-- The stream `st`, replaced. -/
def CaptureStore.setStream (c : CaptureStore) (st : StreamId) (x : Stream) : CaptureStore :=
  match st with
  | .vib => { c with vib := x }
  | .slow => { c with slow := x }
  | .leak => { c with leak := x }

/-- The blocks a stream holds. -/
def Stream.held (x : Stream) : Nat := x.heldRes + x.heldPool

/-- The pool size (R72). -/
def CaptureStore.poolSize (c : CaptureStore) : Nat := allBlocks - (c.vib.plan.res + c.slow.plan.res + c.leak.plan.res)

/-- The pool's free blocks (R72). -/
def CaptureStore.poolFree (c : CaptureStore) : Nat := c.poolSize - (c.vib.heldPool + c.slow.heldPool + c.leak.heldPool)

/-- The free blocks of the store (R72). -/
def CaptureStore.freeBlocks (c : CaptureStore) : Nat := allBlocks - (c.vib.held + c.slow.held + c.leak.held)

/-- The enabled streams are those in RUNNING or STARVED (R73). -/
def Stream.enabled (x : Stream) : Bool := decide (x.state = .running) || decide (x.state = .starved)

/-- A stream's weight among the enabled streams. -/
def Stream.enabledWeight (x : Stream) : Nat := if x.enabled then x.plan.weight else 0

/-- W, the sum of the weights of the enabled streams (R73). -/
def CaptureStore.weightSum (c : CaptureStore) : Nat :=
  c.vib.enabledWeight + c.slow.enabledWeight + c.leak.enabledWeight

/-- The cap of a stream (R73): ⌊pool size × w / W⌋, 0 where it is not enabled or W is 0. -/
def CaptureStore.cap (c : CaptureStore) (st : StreamId) : Nat :=
  c.poolSize * (c.stream st).enabledWeight / c.weightSum

/-- The blocks a stream can obtain (R75). -/
def CaptureStore.obtainable (c : CaptureStore) (st : StreamId) : Nat :=
  ((c.stream st).plan.res - (c.stream st).heldRes) + min c.poolFree (c.cap st - (c.stream st).heldPool)

/-- The condition whose source a stream's starvation is (R126). -/
def starvedCondition : StreamId → Fin 20
  | .vib => 13
  | .slow => 14
  | .leak => 15

/-- The stream `st`. -/
def State.stream (st : StreamId) (s : State) : Stream := s.cs.stream st

/-- The stream `st`, replaced. -/
def State.setStream (st : StreamId) (x : Stream) (s : State) : State := s.setCs (s.cs.setStream st x)

/-- Raise a stream's STREAM notice as the stream stands (R82). -/
def State.streamNotice (st : StreamId) (s : State) : State :=
  s.raise (.stream st) (.stream (s.stream st).state (s.stream st).dropped (s.cs.obtainable st) s.now)

/-! ## When capture is wanted (R74) -/

/-- The window that is OPEN in the Order Analyzer. -/
def OrderAnalyzer.openWindow (oa : OrderAnalyzer) : Option Window := oa.windows.find? fun w => decide (w.state = .opened)

/-- Capture is wanted for a stream (R74). -/
def State.wanted (st : StreamId) (s : State) : Bool :=
  match st with
  | .vib => s.oa.openWindow.isSome && !s.halt.noise
  | .slow => s.anyUnit .running
  | .leak => s.anyUnit .leaking

/-- A stream enters a state; its starvation source follows (R76, R78, R80, R128). -/
def State.enterStream (st : StreamId) (x : StreamState) (s : State) : State :=
  let was := (s.stream st).state
  let t := s.setStream st { s.stream st with state := x }
  if x = .starved then t.setSource (starvedCondition st) true
  else if was = .starved then t.setSource (starvedCondition st) false
  else t

/-- A stream's state after capture became wanted or stopped being wanted (R74). -/
def State.syncStream (st : StreamId) (s : State) : State :=
  match (s.stream st).state, s.wanted st with
  | .idle, true => s.enterStream st .running
  | .running, false => s.enterStream st .idle
  | .starved, false => s.enterStream st .idle
  | _, _ => s

/-- Every stream's state after an event that may have changed what is wanted (R74). -/
def State.syncStreams (s : State) : State := ((s.syncStream .vib).syncStream .slow).syncStream .leak

/-! ## Plans (R79, R80) -/

/-- The state a stream with an applied plan takes: RUNNING where capture is wanted, else IDLE. -/
def State.wantedState (st : StreamId) (s : State) : StreamState := if s.wanted st then .running else .idle

/-- A plan can be applied at once: the stream holds no blocks, and the rise of its reservation is at most pool_free (R79). -/
def CaptureStore.canApply (c : CaptureStore) (st : StreamId) (p : Plan) : Bool :=
  decide ((c.stream st).held = 0) && decide (p.res ≤ (c.stream st).plan.res + c.poolFree)

/-- A stream enters RUNNING or IDLE as wanted, with a STREAM notice where it leaves STARVED for RUNNING (R79, R82). -/
def State.enterWanted (st : StreamId) (s : State) : State :=
  let t := s.enterStream st (s.wantedState st)
  if (s.stream st).state = .starved ∧ s.wanted st then t.streamNotice st else t

/-- Apply a plan (R79): the caps follow from it, since they are computed. -/
def State.applyPlan (st : StreamId) (p : Plan) (s : State) : State :=
  (s.setStream st { s.stream st with plan := p, target := none }).enterWanted st

/-- The target plan of a stream becomes `p` (R79, R80). -/
def State.setTarget (st : StreamId) (p : Plan) (s : State) : State :=
  let x := s.stream st
  if p = x.plan then
    if x.state = .pendingPlan then (s.setStream st { x with target := none }).enterWanted st else s
  else if s.cs.canApply st p then s.applyPlan st p
  else (s.setStream st { x with target := some p }).enterStream st .pendingPlan

/-- Apply a waiting plan where it can be (R80). -/
def State.checkPlan (st : StreamId) (s : State) : State :=
  match (s.stream st).state, (s.stream st).target with
  | .pendingPlan, some p => if s.cs.canApply st p then s.applyPlan st p else s
  | _, _ => s

/-- Check each waiting plan, in the order VIB, SLOW, LEAK (R80). -/
def State.checkPlans (s : State) : State := ((s.checkPlan .vib).checkPlan .slow).checkPlan .leak

/-! ## Allocation and release (R75, R77) -/

/-- How many of `k` blocks a stream takes from its reservation (R75). -/
def Stream.resShare (x : Stream) (k : Nat) : Nat := min k (x.plan.res - x.heldRes)

/-- A stream after taking `k` blocks for record `seq` (R75). -/
def Stream.takeBlocks (x : Stream) (k : Nat) (seq : Word32) : Stream :=
  { x with heldRes := x.heldRes + x.resShare k, heldPool := x.heldPool + (k - x.resShare k), lastSeq := some seq }

/-- A stream after `r` blocks came back to its reservation and `p` to the pool (R77). -/
def Stream.returnBlocks (x : Stream) (r p : Nat) : Stream :=
  { x with heldRes := x.heldRes - r, heldPool := x.heldPool - p }

/-- The FREE VIB descriptor of lowest index (log 15). -/
def CaptureStore.freeVib (c : CaptureStore) : Option (Fin 32) :=
  (List.finRange 32).find? fun d => decide ((c.vibDescs[d]).state = .free)

/-- The FREE SLOW descriptor of lowest index (log 15). -/
def CaptureStore.freeSlow (c : CaptureStore) : Option (Fin 8) :=
  (List.finRange 8).find? fun d => decide ((c.slowDescs[d]).state = .free)

/-- The FREE LEAK descriptor of lowest index (log 15). -/
def CaptureStore.freeLeak (c : CaptureStore) : Option (Fin 8) :=
  (List.finRange 8).find? fun d => decide ((c.leakDescs[d]).state = .free)

/-- Return the blocks and the descriptor of a VIB record, and check the waiting plans (R77). -/
def State.releaseVib (d : Fin 32) (s : State) : State :=
  let x := s.cs.vibDescs[d]
  (s.setCs { s.cs with
    vib := s.cs.vib.returnBlocks x.fromRes x.fromPool
    vibDescs := s.cs.vibDescs.set d .vacant }).checkPlans

/-- Return the blocks and the descriptor of a SLOW record, and check the waiting plans (R77). -/
def State.releaseSlow (d : Fin 8) (s : State) : State :=
  let x := s.cs.slowDescs[d]
  (s.setCs { s.cs with
    slow := s.cs.slow.returnBlocks x.fromRes x.fromPool
    slowDescs := s.cs.slowDescs.set d .vacant }).checkPlans

/-- Return the blocks and the descriptor of a LEAK record, and check the waiting plans (R77). -/
def State.releaseLeak (d : Fin 8) (s : State) : State :=
  let x := s.cs.leakDescs[d]
  (s.setCs { s.cs with
    leak := s.cs.leak.returnBlocks x.fromRes x.fromPool
    leakDescs := s.cs.leakDescs.set d .vacant }).checkPlans

/-! ## Record boundaries (R75, R76, R78, R80) -/

/-- What a record boundary does. -/
inductive Boundary where
  /-- nothing: the stream is IDLE, or PENDING_PLAN with no capture wanted -/
  | nothing
  /-- the record is captured; `resumed` where the stream leaves STARVED for it (R78) -/
  | capture (resumed : Bool)
  /-- the record is dropped; `starves` where the stream enters STARVED for it (R76) -/
  | drop (starves : Bool)
  deriving DecidableEq, Repr

/-- The blocks a STARVED stream must be able to obtain (R78): max(k, ⌈f × Res / 100⌉). -/
def Plan.resumeNeed (p : Plan) (k : Nat) : Nat := max k ((p.threshold * p.res + 99) / 100)

/-- What a boundary of a stream does that needs `k` blocks, `free` telling whether a descriptor is FREE. -/
def State.boundary (st : StreamId) (k : Nat) (free : Bool) (s : State) : Boundary :=
  match (s.stream st).state with
  | .idle => .nothing
  | .running => if free ∧ k ≤ s.cs.obtainable st then .capture false else .drop true
  | .starved => if free ∧ (s.stream st).plan.resumeNeed k ≤ s.cs.obtainable st then .capture true else .drop false
  | .pendingPlan => if s.wanted st then .drop false else .nothing

/-- A record of a stream is dropped at a boundary (R76, R78, R80). The STREAM notice of a starvation becomes pending here, before the
CONDITION notice of its condition, which the taking check at the end of the event raises (DESIGN CHOICE, log 32: the spec gives the
two no order). -/
def State.dropRecord (st : StreamId) (starves : Bool) (s : State) : State :=
  let t := s.setStream st { s.stream st with dropped := count32 (s.stream st).dropped }
  if starves then (t.enterStream st .starved).streamNotice st else t

/-- A stream that captures enters RUNNING where it was STARVED, with its notice (R78, R82). -/
def State.resumeStream (st : StreamId) (resumed : Bool) (s : State) : State :=
  if resumed then (s.enterStream st .running).streamNotice st else s

end Sys2Proof.Machine
end

