-- ==== Sys2Proof/Machine/Orders.lean ====
section
/-! DEFINITION. The Order Analyzer (spec/05): windows, the analysis queue, order sums, accumulation, levels and grading. -/

namespace Sys2Proof.Machine

/-! ## Order sums (R92) -/

/-- The first quarter of Ctab: 16384 × cos(2πm/128) rounded to the nearest integer, m = 0 to 32 (R92). -/
def cosQuarter : List Int :=
  [16384, 16364, 16305, 16207, 16069, 15893, 15679, 15426, 15137, 14811, 14449] ++
  [14053, 13623, 13160, 12665, 12140, 11585, 11003, 10394, 9760, 9102, 8423] ++
  [7723, 7005, 6270, 5520, 4756, 3981, 3196, 2404, 1606, 804, 0]

/-- Ctab[m], by the symmetry of the cosine. -/
def cosTab (m : Nat) : Int :=
  if m ≤ 32 then cosQuarter.getD m 0
  else if m ≤ 64 then -cosQuarter.getD (64 - m) 0
  else if m ≤ 96 then -cosQuarter.getD (m - 64) 0
  else cosQuarter.getD (128 - m) 0

/-- Stab[m]: the sine is the cosine a quarter turn earlier. -/
def sinTab (m : Nat) : Int := cosTab ((m + 96) % 128)

/-- The sum of x[n] × tab[(q × n) mod 128] over the samples, the first of them being x[n] (R92). -/
def correlate (tab : Nat → Int) (q : Nat) : Nat → List Int → Int
  | _, [] => 0
  | n, x :: xs => x * tab (q * n % 128) + correlate tab q (n + 1) xs

/-- The power p of order `q` in a channel's samples (R92). Samples a short revolution lacks are 0 (R68). -/
def orderPower (q : Nat) (xs : List Int) : Nat :=
  let re := correlate cosTab q 0 xs
  let im := correlate sinTab q 0 xs
  ((re * re + im * im) / 4294967296).toNat

/-- The samples of channel `c` in a record. -/
def VibDescriptor.samplesOf (x : VibDescriptor) (c : Channel) : List Int :=
  ((x.blocks.find? fun b => decide (b.channel = c)).map Block.samples).getD []

/-! ## Levels and grades (R97, R98) -/

/-- 512 × 10^(l/100) ≤ p, without roots: both sides to the power 100 (R97). -/
def levelAtMost (l : Int) (p : Nat) : Bool :=
  decide (512 ^ 100 * 10 ^ l.toNat ≤ p ^ 100 * 10 ^ (-l).toNat)

/-- The greatest integer from `l` down whose level is at most that of `p`, within `fuel` steps. -/
def levelFrom (p : Nat) : Nat → Int → Int
  | 0, l => l
  | fuel + 1, l => if levelAtMost l p then l else levelFrom p fuel (l - 1)

/-- L of R97 for a power of 1 or more: the greatest integer with 512 × 10^(L/100) ≤ P. The search starts above it, since ten to
the 0.31 exceeds two, and L is at least −271. -/
def levelOf (p : Nat) : Int :=
  let top := 31 * (p.log2 + 1)
  levelFrom p (top + 271) top

/-- The reported level (R97): −2000 without power, else L plus the channel's sensitivity offset. -/
def reportedLevel (offset : Int) (p : Nat) : Int := if p = 0 then -2000 else levelOf p + offset

/-- The grade of a pair (R98). -/
def gradePair (spec : WindowSpec) (nAcc p : Nat) (level limit : Int) : Verdict :=
  if nAcc < spec.nMin then .incomplete
  else if p = 0 then .pass
  else if limit < level then .fail
  else if limit - spec.warnBand < level then .warn
  else .pass

/-- The power P of a pair from its accumulator (R96): 0 when N_acc is 0. -/
def pairPower (kind : WindowKind) (nAcc acc : Nat) : Nat :=
  if nAcc = 0 then 0 else match kind with
    | .steady => acc / nAcc
    | .sweep => acc

/-- The worse of two verdicts (spec/00, Verdicts and grades). -/
def Verdict.worse (a b : Verdict) : Verdict := if a.code < b.code then b else a

/-- The worst of several verdicts; PASS of none. -/
def worst (vs : List Verdict) : Verdict := vs.foldl Verdict.worse .pass

/-- The sensitivity offset of a channel in the live cell configuration (R97). -/
def CellConfig.offset (cfg : CellConfig) : Channel → Int
  | .acc0 => cfg.sensitivity[0]
  | .acc1 => cfg.sensitivity[1]
  | .acc2 => cfg.sensitivity[2]
  | .acc3 => cfg.sensitivity[3]
  | .mic => cfg.sensitivity[4]

/-- The order result of one pair (R99). -/
def Window.result (cfg : CellConfig) (w : Window) (p : Pair) (acc : Nat) : OrderResult :=
  let power := pairPower w.spec.kind w.nAcc acc
  let level := reportedLevel (cfg.offset p.channel) power
  ⟨w.number, p.channel, p.order, w.nAcc, power, level, p.limit, gradePair w.spec w.nAcc power level p.limit⟩

/-- The order results of a window, in pair order (R99). -/
def Window.results (cfg : CellConfig) (w : Window) : List OrderResult :=
  List.zipWith (w.result cfg) w.spec.pairs w.acc

/-- The window summary (R99). -/
def Window.summary (w : Window) : WindowSummary where
  number := w.number
  kind := w.spec.kind
  direction := w.spec.direction
  opened := w.opened
  nReq := w.spec.nReq
  nMin := w.spec.nMin
  nAcc := w.nAcc
  dropped := w.dropped
  slip := w.slip
  wrongWay := w.wrongWay
  speedBand := w.speedBand
  overload := w.overload
  released := w.released

/-! ## The window table (R85) -/

/-- Window `n`. -/
def OrderAnalyzer.window (oa : OrderAnalyzer) (n : Nat) : Option Window := oa.windows.find? fun w => decide (w.number = n)

/-- The table with window `n` changed by `f`. -/
def OrderAnalyzer.mapWindow (oa : OrderAnalyzer) (n : Nat) (f : Window → Window) : OrderAnalyzer :=
  { oa with windows := oa.windows.map fun w => if w.number = n then f w else w }

/-- Window `n`, changed by `f`. -/
def State.mapWindow (n : Nat) (f : Window → Window) (s : State) : State := s.setOa (s.oa.mapWindow n f)

/-- A window entry as START_RUN makes it (R85). -/
def Window.fresh (n : Nat) (spec : WindowSpec) : Window where
  number := n
  spec := spec
  state := .idle
  opened := false
  nAcc := 0
  acc := spec.pairs.map fun _ => 0
  held := 0
  dropped := 0
  slip := 0
  wrongWay := 0
  speedBand := 0
  overload := 0
  released := 0

/-- The windows of a recipe are set up, numbered from 1 (R84, R85). -/
def State.setUpWindows (r : Recipe) (s : State) : State :=
  s.setOa { s.oa with windows := (r.windows.zipIdx 1).map fun (spec, n) => Window.fresh n spec }

/-- The noise section of the station-1 unit, changed by `f`. -/
def State.mapNoise (f : Noise → Noise) (s : State) : State :=
  match s.unit1 with
  | some i => s.mapUnit i fun r => { r with noise := f r.noise }
  | none => s

/-- When every window is CLOSED the noise verdict is set and the table is emptied (R99). -/
def State.closeTable (s : State) : State :=
  if s.oa.windows.all fun w => decide (w.state = .closed) then
    (s.mapNoise fun n => { n with verdict := some (worst (n.results.map OrderResult.grade)) }).setOa
      { s.oa with windows := [] }
  else s

/-- Window `n` enters CLOSED: it is graded and written into the noise section (R96, R99). -/
def State.gradeWindow (n : Nat) (s : State) : State :=
  match s.oa.window n with
  | none => s
  | some w =>
    (((s.mapWindow n fun w => { w with state := .closed }).mapNoise fun noise =>
      { noise with summaries := noise.summaries ++ [w.summary], results := noise.results ++ w.results s.rs.live })).closeTable

/-! ## Window signals (R86 to R88) -/

/-- The open of window `n` (R86). -/
def State.openWindow (n : Nat) (s : State) : State :=
  (s.mapWindow n fun w =>
    if w.state = .idle ∨ w.state = .paused then { w with state := .opened, opened := true } else w).syncStreams

/-- The pause of window `n` (R87). -/
def State.pauseWindow (n : Nat) (s : State) : State :=
  (s.mapWindow n fun w => if w.state = .opened then { w with state := .paused } else w).syncStreams

/-- Abandon the open VIB record (R68): its blocks and descriptor come back, and nothing is delivered. -/
def State.abandonOpen (s : State) : State :=
  match s.afe.openVib with
  | some d => (s.setAfe { s.afe with openVib := none }).releaseVib d
  | none => s

/-- Abandon the open VIB record where it belongs to window `n` (R68, R88). -/
def State.abandonFor (n : Nat) (s : State) : State :=
  match s.afe.openVib with
  | some d => if (s.cs.vibDescs[d]).window = n then s.abandonOpen else s
  | none => s

/-- The close of window `n` (R88). -/
def State.closeWindow (n : Nat) (s : State) : State :=
  match s.oa.window n with
  | none => s
  | some w =>
    match w.state with
    | .idle | .complete => ((s.abandonFor n).gradeWindow n).syncStreams
    | .opened | .paused =>
      if w.held = 0 then ((s.abandonFor n).gradeWindow n).syncStreams
      else ((s.abandonFor n).mapWindow n fun w => { w with state := .closing }).syncStreams
    | .closing | .closed => s

/-- The close of every window of the table, in window order (R62, R88). -/
def State.closeAll (s : State) : State := (s.oa.windows.map Window.number).foldl (fun t n => t.closeWindow n) s

/-! ## Taking a revolution (R89, R90) -/

/-- The reasons for which a record is rejected (R90). -/
inductive Reject where
  | slip | wrongWay | speedBand | overload
  deriving DecidableEq, Repr

/-- A record's direction is the window's (R90); a MIXED record is neither. -/
def RevDirection.matches : RevDirection → Direction → Bool
  | .fwd, .fwd => true
  | .rev, .rev => true
  | _, _ => false

/-- The first acceptance check a record fails (R90). -/
def rejectReason (x : VibDescriptor) (w : WindowSpec) : Option Reject :=
  if x.pulses ≠ 1024 then some .slip
  else if ¬x.direction.matches w.direction then some .wrongWay
  else if ¬(x.periodUs * w.sLo ≤ 60000000 ∧ 60000000 ≤ x.periodUs * w.sHi) then some .speedBand
  else if x.overload then some .overload
  else none

/-- A window's count of a rejection (R85, R90). -/
def Window.countReject (why : Reject) (w : Window) : Window :=
  match why with
  | .slip => { w with slip := count16 w.slip }
  | .wrongWay => { w with wrongWay := count16 w.wrongWay }
  | .speedBand => { w with speedBand := count16 w.speedBand }
  | .overload => { w with overload := count16 w.overload }

/-- A CLOSING window that holds no record enters CLOSED (R96). -/
def State.closeIfDrained (n : Nat) (s : State) : State :=
  match s.oa.window n with
  | some w => if w.state = .closing ∧ w.held = 0 then s.gradeWindow n else s
  | none => s

/-- The record taken from the head is rejected: counted, released, and no longer held (R90). -/
def State.rejectRecord (d : Fin 32) (n : Nat) (why : Reject) (s : State) : State :=
  (((s.mapWindow n fun w => let w' := w.countReject why; { w' with held := w'.held - 1 }).releaseVib d).closeIfDrained n)

/-- The free Order Analyzer takes records from the head until one is accepted or the queue is empty (R89). -/
def pump : Nat → State → State
  | 0, s => s
  | fuel + 1, s =>
    match s.oa.current, s.oa.queue with
    | none, d :: rest =>
      let t := s.setOa { s.oa with queue := rest }
      let x := s.cs.vibDescs[d]
      match s.oa.window x.window with
      | none => pump fuel (t.releaseVib d)
      | some w =>
        match rejectReason x w.spec with
        | some why => pump fuel (t.rejectRecord d w.number why)
        | none => t.setOa { t.oa with current := some d }
    | _, _ => s

/-- Take heads while the Order Analyzer is free. -/
def State.takeHeads (s : State) : State := pump (s.oa.queue.length + 1) s

/-- A VIB record is delivered (R89): it joins the queue, or is released at once where its window is COMPLETE. -/
def State.deliverVib (d : Fin 32) (s : State) : State :=
  match s.oa.window (s.cs.vibDescs[d]).window with
  | none => s.releaseVib d
  | some w =>
    match w.state with
    | .complete => (s.mapWindow w.number fun w => { w with released := count16 w.released }).releaseVib d
    | .opened | .paused | .closing =>
      (s.setOa { s.oa.mapWindow w.number (fun w => { w with held := w.held + 1 }) with
        queue := s.oa.queue ++ [d] }).takeHeads
    | .idle | .closed => s.releaseVib d

/-! ## Accumulation (R91, R93, R94) -/

/-- The power of each pair of a window in a record. -/
def VibDescriptor.powers (x : VibDescriptor) (w : WindowSpec) : List Nat :=
  w.pairs.map fun p => orderPower p.order (x.samplesOf p.channel)

/-- A window after the powers of an accepted revolution joined it: added for STEADY (R93), the greater kept for SWEEP (R94). -/
def Window.accumulate (ps : List Nat) (w : Window) : Window :=
  match w.spec.kind with
  | .steady => { w with acc := List.zipWith (· + ·) w.acc ps, nAcc := w.nAcc + 1 }
  | .sweep => { w with acc := List.zipWith max w.acc ps, nAcc := if w.nAcc < w.spec.nReq then w.nAcc + 1 else w.nAcc }

/-- The records of window `n` still in the queue are released unanalysed, and the others keep their order (R93). -/
def State.releaseSurplus (n : Nat) (s : State) : State :=
  let mine := s.oa.queue.filter fun d => decide ((s.cs.vibDescs[d]).window = n)
  let rest := s.oa.queue.filter fun d => !decide ((s.cs.vibDescs[d]).window = n)
  let t := (s.setOa { s.oa with queue := rest }).mapWindow n fun w =>
    { w with released := Nat.repeat count16 mine.length w.released, held := 0 }
  mine.foldl (fun u d => u.releaseVib d) t

/-- What follows the count of an accepted revolution (R93, R96): a STEADY window at N_req completes or closes and gives up its
surplus; a CLOSING window that holds nothing more closes. -/
def State.afterAccept (n : Nat) (s : State) : State :=
  match s.oa.window n with
  | none => s
  | some w =>
    if w.spec.kind = .steady ∧ w.nAcc = w.spec.nReq then
      let t := s.releaseSurplus n
      if w.state = .closing then t.gradeWindow n
      else (t.mapWindow n fun w => { w with state := .complete }).syncStreams
    else s.closeIfDrained n

/-- The analysis of the record under analysis completes (R91): it is accumulated and released, and the next head is taken. -/
def State.completeAnalysis (s : State) : State :=
  match s.oa.current with
  | none => s
  | some d =>
    let x := s.cs.vibDescs[d]
    let t := s.setOa { s.oa with current := none }
    match s.oa.window x.window with
    | none => (t.releaseVib d).takeHeads
    | some w =>
      ((((t.mapWindow w.number fun w => let w' := w.accumulate (x.powers w.spec); { w' with held := w'.held - 1 }).releaseVib
        d).afterAccept w.number).takeHeads)

/-- A CLOSING window whose last held record has left closes: the row WINDOW_DRAIN_CLOSE (R96, log 5). -/
def State.drainClose (s : State) : State :=
  match s.oa.windows.find? fun w => decide (w.state = .closing) && decide (w.held = 0) with
  | some w => s.gradeWindow w.number
  | none => s

end Sys2Proof.Machine
end

