-- ==== Sys2Proof/Machine/Reports.lean ====
section
/-! DEFINITION. The Report Assembler (spec/08): the overall verdict, the defect list, the report queue and its notice. -/

namespace Sys2Proof.Machine

/-- A grade that makes a graded item a defect (R149). -/
def Verdict.isDefect : Verdict → Bool
  | .warn | .incomplete | .fail => true
  | _ => false

/-- The overall verdict (R148). -/
def overallVerdict (r : UnitRecord) : Verdict :=
  if r.abort then .aborted
  else worst ([r.runIn.verdict, r.noise.verdict, r.leak.verdict].filterMap id)

/-- The defect of an order result (R150). -/
def noiseDefect (o : OrderResult) : Defect := ⟨.noise o.window o.channel o.order, some o.level, some o.limit, o.grade⟩

/-- The limit that a drag mean missed (R150): none when the result is INCOMPLETE. -/
def dragLimit (recipe : Recipe) (mean : Option Int) : Option Int :=
  mean.bind fun m =>
    if (recipe.dragMax : Int) < m then some recipe.dragMax
    else if m < recipe.dragMin then some recipe.dragMin else none

/-- The drag result as a graded item, where the section holds one (R149, R150). -/
def dragItems (recipe : Recipe) (r : UnitRecord) : List Defect :=
  match r.runIn.dragResult with
  | some g => [⟨.drag, r.runIn.dragMean, dragLimit recipe r.runIn.dragMean, g⟩]
  | none => []

/-- A chamber result as a graded item: PASS, FAIL and INCOMPLETE verdicts alone (R149, R150). -/
def chamberItem (recipe : Recipe) (r : UnitRecord) (c : Fin 4) : List Defect :=
  let x := r.leak.chambers[c]
  let limit : Int := if x.outcome = some .unstable then -((recipe.chambers[c]).qNeg : Int) else (recipe.chambers[c]).qLim
  match x.verdict with
  | some .pass => [⟨.chamber c, x.q, some limit, .pass⟩]
  | some .fail => [⟨.chamber c, x.q, some limit, .fail⟩]
  | some .incomplete => [⟨.chamber c, x.q, some limit, .incomplete⟩]
  | _ => []

/-- The order results by window number, each window's in their own order (R151). -/
def byWindow (rs : List OrderResult) : List OrderResult := rs.insertionSort fun a b => a.window ≤ b.window

/-- The graded items of a report, in the order of R151. -/
def gradedItems (recipe : Recipe) (r : UnitRecord) : List Defect :=
  (byWindow r.noise.results).map noiseDefect ++ dragItems recipe r ++ (List.finRange 4).flatMap (chamberItem recipe r)

/-- The defects of a report, in the order of R151. -/
def allDefects (recipe : Recipe) (r : UnitRecord) : List Defect := (gradedItems recipe r).filter fun d => d.grade.isDefect

/-- How many defects a report lists (R151). -/
def maxDefects : Nat := 12

/-- The report part (R147, R151). -/
def assemble (recipe : Recipe) (r : UnitRecord) : ReportPart :=
  let ds := allDefects recipe r
  ⟨recipe.toothCount, overallVerdict r, ds.take maxDefects, ds.length - maxDefects⟩

/-- Raise the REPORT_READY notice (R155). -/
def State.reportNotice (s : State) : State :=
  s.raise .reportReady (.reportReady s.reports.length s.reports.head? s.now)

/-- The hand-over of the record at index `i` (R147): its report part, its place at the tail of the queue, and the notice. -/
def State.assembleReport (i : Fin 8) (s : State) : State :=
  match s.ut.records[i] with
  | none => s
  | some r =>
    let part := assemble (s.recipeOf r) r
    ((s.mapUnit i fun r => { r with report := some part }).setReports (s.reports ++ [r.id])).reportNotice

end Sys2Proof.Machine
end

