-- ==== Sys2Proof/Machine/Leak.lean ====
section
/-! DEFINITION. The Leak Controller (spec/06): chambers, the fill arbiter, settling, measuring, the leak rate and its outcomes. What
ends a unit's test is in Machine/Units.lean. -/

namespace Sys2Proof.Machine

/-- Chamber `c`. -/
def State.chamber (c : Fin 4) (s : State) : Chamber := s.lkc.chambers[c]

/-- Chamber `c`, replaced. -/
def State.setChamber (c : Fin 4) (x : Chamber) (s : State) : State :=
  s.setLkc { s.lkc with chambers := s.lkc.chambers.set c x }

/-- A leak plan entry that is not enabled. -/
def ChamberPlan.off : ChamberPlan := ⟨false, .housing, 0, 0, 0, 0, 0, 0, 0, 0, 0, 0, 0, 0⟩

/-- The leak plan entry of chamber `c` in the recipe that governs station 2 (R105); with no unit there, none is enabled. -/
def State.chamberPlan (c : Fin 4) (s : State) : ChamberPlan :=
  match s.recipe2 with
  | some r => r.chambers[c]
  | none => .off

/-- The unit in LEAKING. -/
def State.leakingUnit (s : State) : Option (Fin 8) := s.ut.find fun u => decide (u = .leaking)

/-! ## The valve lines (R120) -/

/-- FILL line of chamber `c`. -/
def State.fillLine (c : Fin 4) (s : State) : Bool := decide ((s.chamber c).phase = .fill)

/-- VENT line of chamber `c`: while it vents, and while the reset vent runs. -/
def State.ventLine (c : Fin 4) (s : State) : Bool :=
  decide ((s.chamber c).phase = .vent) || decide (s.lkc.resetVent ≠ .over)

/-! ## The fill arbiter (R108) -/

/-- No chamber is in FILL. -/
def State.supplyFree (s : State) : Bool := (List.finRange 4).all fun c => decide ((s.chamber c).phase ≠ .fill)

/-- The arbiter checks for a grant (R108). -/
def State.checkGrant (s : State) : State :=
  match s.lkc.queue with
  | [] => s
  | c :: rest =>
    if s.supplyFree ∧ ¬s.halt.leak ∧ s.lkc.resetVent = .over then
      (s.setLkc { s.lkc with queue := rest }).setChamber c ⟨.fill, some (s.chamberPlan c).fillTimeout, none, none⟩
    else s

/-- Chamber `c` enters WAIT_FILL at the tail of the queue. -/
def State.joinQueue (c : Fin 4) (s : State) : State :=
  s.setLkc { s.lkc with chambers := s.lkc.chambers.set c ⟨.waitFill, none, none, none⟩, queue := s.lkc.queue ++ [c] }

/-- The Leak Controller starts on a unit (R107): its enabled chambers join the queue in order, and the arbiter checks. -/
def State.startChambers (s : State) : State :=
  ((List.finRange 4).foldl (fun t c => if (t.chamberPlan c).enabled then t.joinQueue c else t) s).checkGrant

/-- Chamber `c` enters VENT (R119). -/
def State.enterVent (c : Fin 4) (after : AfterVent) (s : State) : State :=
  s.setChamber c ⟨.vent, some (s.chamberPlan c).vent, some after, none⟩

/-! ## Settling and measuring (R111 to R114) -/

/-- The settle time of a chamber (R111). -/
def settleTime (p : ChamberPlan) (endHousing : Option Int) (tRef : Int) : Nat :=
  match p.kind with
  | .circuit => p.settleBase
  | _ => min p.settleMax (p.settleBase + p.settleGain * ((endHousing.getD tRef) - tRef).toNat / 100)

/-- The end housing temperature of the station-2 unit's run-in section. -/
def State.endHousing (s : State) : Option Int :=
  s.unit2.bind fun i => (s.ut.records[i]).bind fun r => r.runIn.endHousing

/-- Chamber `c` enters MEASURE (R112). -/
def State.enterMeasure (c : Fin 4) (s : State) : State :=
  let t := (s.chamberPlan c).measure
  s.setChamber c ⟨.measure, some t, none, some ⟨s.now, s.now + BitVec.ofNat 32 t, false, none, none, false⟩⟩

/-- Chamber `c` has reached its target (R109): it enters SETTLE, or MEASURE where its settle time is 0, and the arbiter
checks. -/
def State.fillReached (c : Fin 4) (s : State) : State :=
  let t := settleTime (s.chamberPlan c) s.endHousing s.rs.live.tRef
  (if t = 0 then s.enterMeasure c else s.setChamber c ⟨.settle, some t, none, none⟩).checkGrant

/-- The cell time at which LEAK slot `n` takes its first sample (R69). -/
def leakSlotStart (n : Word32) : CellTime := n * 640

/-- The cell time of the last sample of LEAK slot `n` (R113). -/
def leakSlotLast (n : Word32) : CellTime := leakSlotStart n + 635

/-- The mean of the values of a record, rounded down; a record has 128 of them (R54, R113). -/
def recordMean (xs : List Int) : Int := xs.sum / 128

/-- Channel PRSc of a LEAK sample. -/
def pressureOf (c : Fin 4) (x : LeakSample) : Int :=
  match c with
  | 0 => x.prs0
  | 1 => x.prs1
  | 2 => x.prs2
  | 3 => x.prs3

/-- The time a measurement lasts, from its start to its end. -/
def Measure.length (m : Measure) : Int := timeDiff m.stop m.start

/-- What a delivered record adds to a measurement (R113, R114): the first pair until the timer has expired, and the latest
pair. -/
def Measure.takeRecord (m : Measure) (slot : Word32) (pressure temperature : Int) : Measure :=
  let p : LeakPair := ⟨slot, pressure, temperature⟩
  { m with
    first := if !m.expired && m.first.isNone && decide (0 ≤ timeDiff (leakSlotStart slot) m.start) then some p else m.first
    latest := if timeDiff (leakSlotLast slot) m.start ≤ m.length then some p else m.latest }

/-- The pairs of chamber `c` after a LEAK record (R113). -/
def takeRecordFor (slot : Word32) (xs : List LeakSample) (c : Fin 4) (x : Chamber) : Chamber :=
  { x with measure := x.measure.map fun m =>
      m.takeRecord slot (recordMean (xs.map (pressureOf c))) (recordMean (xs.map LeakSample.tlk)) }

/-- A LEAK record is taken for every chamber in MEASURE (R113). -/
def State.takeLeakRecord (slot : Word32) (xs : List LeakSample) (s : State) : State :=
  s.setLkc { s.lkc with chambers := Vector.ofFn fun c => takeRecordFor slot xs c s.lkc.chambers[c] }

/-- The range fault of TLK at a sample taken `now` sets the sensor flag of each measurement that `now` lies in (R114). -/
def Measure.senseFault (now : CellTime) (m : Measure) : Measure :=
  if 0 ≤ timeDiff now m.start ∧ timeDiff now m.start ≤ m.length then { m with sensor := true } else m

/-- The sensor flags after a sample with a range fault of TLK (R114). -/
def State.senseFault (s : State) : State :=
  s.setLkc { s.lkc with chambers := Vector.ofFn fun c =>
    { s.lkc.chambers[c] with measure := (s.lkc.chambers[c]).measure.map (Measure.senseFault s.now) } }

/-- The last slot that can qualify has ended: the next slot to end takes its last sample after the measure end (R114). -/
def Measure.slotsEnded (leakEnded : Nat) (m : Measure) : Bool :=
  decide (m.length < timeDiff (leakSlotLast (BitVec.ofNat 32 leakEnded)) m.start)

/-- The two events that bring the evaluation of chamber `c` have both occurred (R114). -/
def State.evaluable (c : Fin 4) (s : State) : Bool :=
  decide ((s.chamber c).phase = .measure) &&
  match (s.chamber c).measure with
  | some m => m.expired && m.slotsEnded s.afe.leakEnded
  | none => false

/-! ## The leak rate and the outcome (R115 to R118) -/

/-- What an attempt comes to: its outcome with, after the computation of R116, Q, D and t_ms. -/
structure AttemptResult where
  outcome : LeakOutcome
  q : Option Int
  d : Option Int
  tMs : Option Nat
  deriving DecidableEq, Repr

/-- An outcome without a leak rate. -/
def AttemptResult.bare (o : LeakOutcome) : AttemptResult := ⟨o, none, none, none⟩

/-- The decay D (R116, steps 1 to 4). -/
def decay (kind : ChamberKind) (pAtm ps ts pe te : Int) : Int :=
  let as := ps + pAtm
  let ae := pe + pAtm
  let e := match kind with
    | .circuit => as
    | _ => as * (te + 27315) / (ts + 27315)
  e - ae

/-- The leak rate Q (R116, step 5), rounded toward zero. -/
def leakRate (volume : Nat) (d pAtm : Int) (tMs : Nat) : Int := (volume * d * 6000000).tdiv (pAtm * tMs)

/-- The judgement of Q against the chamber's limits (R118). -/
def judgeRate (p : ChamberPlan) (q : Int) : LeakOutcome :=
  if q < -(p.qNeg : Int) then .unstable else if (p.qLim : Int) < q then .fail else .pass

/-- The outcome of a measurement (R115). -/
def judgeAttempt (p : ChamberPlan) (pAtm : Int) (m : Measure) : AttemptResult :=
  if m.sensor then .bare .sensor
  else match m.first, m.latest with
    | some f, some l =>
      if l.slot.toNat ≤ f.slot.toNat then .bare .gap
      else
        let tMs := (l.slot.toNat - f.slot.toNat) * 640
        let d := decay p.kind pAtm f.pressure f.temperature l.pressure l.temperature
        let q := leakRate p.volume d pAtm tMs
        ⟨judgeRate p q, some q, some d, some tMs⟩
    | _, _ => .bare .gap

/-- The chamber verdict that a counted attempt brings, none where it is retried (R118). -/
def verdictAfter (o : LeakOutcome) (attempts retries : Nat) : Option Verdict :=
  match o with
  | .pass => some .pass
  | .fail | .gross => some .fail
  | .unstable | .gap | .sensor => if attempts ≤ retries then none else some .incomplete

/-- A chamber result after a counted attempt (R118). -/
def ChamberResult.count (retries : Nat) (a : AttemptResult) (x : ChamberResult) : ChamberResult :=
  { x with
    attempts := x.attempts + 1, outcome := some a.outcome, q := a.q, d := a.d, tMs := a.tMs
    verdict := verdictAfter a.outcome (x.attempts + 1) retries }

/-- The chamber result of chamber `c` in the leak section of record `i`, changed by `f`. -/
def State.mapResult (i : Fin 8) (c : Fin 4) (f : ChamberResult → ChamberResult) (s : State) : State :=
  s.mapUnit i fun r => { r with leak := { r.leak with chambers := r.leak.chambers.set c (f r.leak.chambers[c]) } }

/-- The verdict recorded for chamber `c` of record `i`. -/
def State.chamberVerdict (i : Fin 8) (c : Fin 4) (s : State) : Option Verdict :=
  (s.ut.records[i]).bind fun r => (r.leak.chambers[c]).verdict

/-- An attempt of chamber `c` is counted (R118), and the chamber enters VENT (R119): for its last time where it has a verdict,
else to come back to the queue. -/
def State.countAttempt (c : Fin 4) (a : AttemptResult) (s : State) : State :=
  match s.leakingUnit with
  | none => s.enterVent c .done
  | some i =>
    let t := s.mapResult i c (ChamberResult.count (s.chamberPlan c).retries a)
    t.enterVent c (if (t.chamberVerdict i c).isSome then .done else .requeue)

/-- The attempt of chamber `c` is evaluated once both events have occurred (R114, R115). -/
def State.evaluate (c : Fin 4) (s : State) : State :=
  if s.evaluable c then
    match (s.chamber c).measure with
    | some m => s.countAttempt c (judgeAttempt (s.chamberPlan c) s.rs.live.pAtm m)
    | none => s
  else s

/-- Every attempt whose two events have occurred is evaluated (R114). -/
def State.evaluateAll (s : State) : State := (List.finRange 4).foldl (fun t c => t.evaluate c) s

/-! ## Halt and abort (R121, R123) -/

/-- The phases in which an attempt is in progress. -/
def ChamberPhase.attempting : ChamberPhase → Bool
  | .fill | .settle | .measure => true
  | _ => false

/-- LEAK enters the halt set: attempts in progress vent, to come back (R121). -/
def State.haltChambers (s : State) : State :=
  (List.finRange 4).foldl (fun t c => if (t.chamber c).phase.attempting then t.enterVent c .requeue else t) s

/-- What an abort does to chamber `c` (R123). -/
def State.abortChamber (c : Fin 4) (s : State) : State :=
  match (s.chamber c).phase with
  | .waitFill => s.setChamber c .atRest
  | .fill | .settle | .measure => s.enterVent c .idle
  | .vent =>
    if (s.chamber c).afterVent = some .requeue then s.setChamber c { s.chamber c with afterVent := some .idle } else s
  | .idle | .done => s

/-- The chambers are stopped by an abort, and the queue is empty (R123). -/
def State.abortChambers (s : State) : State :=
  let t := (List.finRange 4).foldl (fun t c => t.abortChamber c) s
  t.setLkc { t.lkc with queue := [] }

/-- Some chamber vents. -/
def State.anyVenting (s : State) : Bool := (List.finRange 4).any fun c => decide ((s.chamber c).phase = .vent)

/-- Every enabled chamber is in its DONE phase with a verdict recorded in record `i` (R17, R124). -/
def State.chambersDone (i : Fin 8) (s : State) : Bool :=
  (List.finRange 4).all fun c => !(s.chamberPlan c).enabled ||
    (decide ((s.chamber c).phase = .done) && (s.chamberVerdict i c).isSome)

/-- Every chamber record returns to IDLE (R124). -/
def State.restChambers (s : State) : State := s.setLkc { s.lkc with chambers := .replicate 4 .atRest, queue := [] }

end Sys2Proof.Machine
end

