-- ==== Sys2Proof/Machine/Units.lean ====
section
/-! DEFINITION. The Unit Table (spec/01): a record's way from load to DONE, the conveyor, and what the other blocks are told at each
station change. -/

namespace Sys2Proof.Machine

/-! ## The line silence timer (R167) -/

/-- Some unit is RUNNING or LEAKING. -/
def State.anyWorking (s : State) : Bool := (s.ut.find UnitState.working).isSome

/-- The timer is armed when a unit starts to work (R167). -/
def State.armSilence (s : State) : State :=
  match s.lp.silence with
  | .disarmed => s.setLp { s.lp with silence := .running s.rs.live.silence }
  | _ => s

/-- The timer is disarmed when no unit is left working (R167). -/
def State.disarmSilence (s : State) : State :=
  if s.anyWorking then s else s.setLp { s.lp with silence := .disarmed }

/-! ## The conveyor (R12, R15) -/

/-- The TRANSFER line is asserted, and the transfer timer loaded with the full transfer time and started (R12, R15). -/
def State.runConveyor (s : State) : State :=
  s.setUt { s.ut with transferLine := true, transferTimer := some (s.rs.live.transfer * 1000) }

/-- The TRANSFER line is deasserted and the transfer timer stopped (R13, R15). -/
def State.stopConveyor (s : State) : State := s.setUt { s.ut with transferLine := false, transferTimer := none }

/-- The transfer start check (R12). The LEAK plan becomes that of the unit that is now the station-2 unit (R79). -/
def State.checkTransfer (s : State) : State :=
  match s.ut.find fun u => decide (u = .runDone) with
  | some i =>
    if s.unit2.isNone ∧ ¬s.halt.transfer then
      let t := (s.runConveyor).enterState i .inTransfer
      match t.recipe2 with
      | some r => t.setTarget .leak r.leakPlan
      | none => t
    else s
  | none => s

/-! ## The end of testing (R17) -/

/-- The leak section of record `i`, changed by `f`. -/
def State.mapLeak (i : Fin 8) (f : LeakSection → LeakSection) (s : State) : State :=
  s.mapUnit i fun r => { r with leak := f r.leak }

/-- Record `i` enters DONE (R17): done time, capture, chambers at rest (R124), the report (R147), the UNIT notice, the LEAK plan
of a vacant station (R79), the line silence timer (R167), and the transfer start check (R12). -/
def State.enterDone (i : Fin 8) (s : State) : State :=
  let t := s.mapUnit i fun r => { r with state := .done, doneTime := some s.now }
  let t := (t.syncStreams).restChambers
  let t := (t.assembleReport i).unitNotice i
  let t := t.setTarget .leak .vacant
  (t.disarmSilence).checkTransfer

/-- The verdict of a COMPLETE leak section (R17, R124): the worst of the recorded verdicts, SKIPPED not counting. -/
def LeakSection.worstVerdict (x : LeakSection) : Verdict :=
  worst ((x.chambers.toList.filterMap ChamberResult.verdict).filter fun v => decide (v ≠ .skipped))

/-- The unit in LEAKING is finished where the Leak Controller has finished with it: COMPLETE (R17, R124), or ABORTED at the end
of abort venting (R19, R123). -/
def State.checkLeakEnd (s : State) : State :=
  match s.leakingUnit with
  | none => s
  | some i =>
    match s.ut.records[i] with
    | none => s
    | some r =>
      if r.abort then
        if s.anyVenting then s
        else (s.mapLeak i fun x => { x with state := .aborted, verdict := some .aborted }).enterDone i
      else if s.chambersDone i then
        (s.mapLeak i fun x => { x with state := .complete, verdict := some x.worstVerdict }).enterDone i
      else s

/-! ## Leak start (R16) -/

/-- The leak test of a record is to be skipped (R16). -/
def skipsLeak (recipe : Recipe) (r : UnitRecord) : Bool :=
  r.abort || (decide (r.runIn.verdict = some .fail) && !recipe.leakAfterFail) ||
  (List.finRange 4).all fun c => !(recipe.chambers[c]).enabled

/-- A skipped leak section (R3, R16): every chamber SKIPPED, verdict PASS. -/
def LeakSection.skip (x : LeakSection) : LeakSection :=
  ⟨.skipped, some .pass, Vector.ofFn fun c => { x.chambers[c] with verdict := some .skipped }⟩

/-- The leak start decision for the unit in AT_LEAK (R16). -/
def State.decideLeak (s : State) : State :=
  match s.ut.find fun u => decide (u = .atLeak) with
  | none => s
  | some i =>
    match s.ut.records[i] with
    | none => s
    | some r =>
      if skipsLeak (s.recipeOf r) r then (s.mapLeak i LeakSection.skip).enterDone i
      else if s.halt.leak then s
      else
        ((((s.mapLeak i fun x => { x with state := .inProgress }).enterState i .leaking).syncStreams).armSilence).startChambers

/-- ARRIVE2 rises (R13). -/
def State.arrive (s : State) : State :=
  match s.ut.find fun u => decide (u = .inTransfer) with
  | none => s
  | some i =>
    let t := (s.stopConveyor).enterState i .atLeak
    let t := (t.setTarget .vib .vacant).setTarget .slow .vacant
    t.decideLeak

/-! ## The end of running-in (R11) -/

/-- The profile of a record has ended (R55). -/
def RunIn.ended (x : RunIn) : Bool :=
  match x.state with
  | .finished | .failed | .aborted => true
  | .notStarted | .inProgress => false

/-- A RUNNING record whose profile has ended and whose windows are all CLOSED enters RUN_DONE (R11). -/
def State.checkRunDone (s : State) : State :=
  match s.ut.find fun u => decide (u = .running) with
  | none => s
  | some i =>
    match s.ut.records[i] with
    | none => s
    | some r =>
      if r.runIn.ended ∧ s.oa.windows = [] then
        (((s.enterState i .runDone).syncStreams).disarmSilence).checkTransfer
      else s

/-! ## Loading (R3, R7, R8) -/

/-- The run-in section at load (R3). -/
def RunIn.begun : RunIn := ⟨.notStarted, none, 0, none, none, none, none, none, none⟩

/-- The leak section at load, from the recipe's leak plan (R3). A disabled chamber has no kind (spec/10 section 10.4). -/
def LeakSection.begun (recipe : Recipe) : LeakSection :=
  ⟨.notStarted, none, Vector.ofFn fun c =>
    if (recipe.chambers[c]).enabled then ⟨some (recipe.chambers[c]).kind, 0, none, none, none, none, none⟩
    else ⟨none, 0, none, none, none, none, some .skipped⟩⟩

/-- A record as a load begins it (R3, R8). -/
def UnitRecord.begun (id : Nat) (serial : List Byte) (slot : Fin 16) (digest : Word32) (recipe : Recipe) (time : CellTime) :
    UnitRecord where
  id := id
  serial := serial
  slot := slot
  digest := digest
  state := .loaded
  loadTime := time
  startTime := none
  doneTime := none
  abort := false
  runIn := .begun
  noise := ⟨[], [], none⟩
  leak := .begun recipe
  interruptions := []
  overflow := false
  report := none

/-- The id after `id`: 65535 is followed by 1 (R8). -/
def nextId (id : Nat) : Nat := if 65535 ≤ id then 1 else id + 1

/-- The first id from `id` on that no record in use carries, within `fuel` advances (R8). -/
def UnitTable.freeId (ut : UnitTable) : Nat → Nat → Nat
  | 0, id => id
  | fuel + 1, id => if (ut.findId id).isSome then ut.freeId fuel (nextId id) else id

/-- The FREE record of lowest index (R8). -/
def UnitTable.freeRecord (ut : UnitTable) : Option (Fin 8) := (List.finRange 8).find? fun i => (ut.records[i]).isNone

/-- Slot `k`, changed by `f`. -/
def State.mapSlot (k : Fin 16) (f : Slot → Slot) (s : State) : State :=
  s.setRs { s.rs with slots := s.rs.slots.set k (f s.rs.slots[k]) }

/-- A load that has passed every check (R8): bind the slot, make the record, raise its notice, and give the VIB and SLOW streams
the loaded unit's plans (R79). -/
def State.load (i : Fin 8) (serial : List Byte) (slot : Fin 16) (s : State) : State :=
  let id := s.ut.freeId 8 s.ut.idCounter
  let recipe := readRecipe (s.rs.slots[slot]).bytes
  let record := UnitRecord.begun id serial slot ((s.rs.slots[slot]).digest.getD 0) recipe s.now
  let t := s.mapSlot slot fun x => { x with inUse := x.inUse + 1 }
  let t := (t.setUt { t.ut with records := t.ut.records.set i (some record), idCounter := nextId id }).unitNotice i
  (t.setTarget .vib recipe.vibPlan).setTarget .slow recipe.slowPlan

/-- LOAD_UNIT is taken by the Unit Table (R7). -/
def takeLoadUnit (slot : Byte) (serial : List Byte) (s : State) : State × Reply :=
  if ¬(within 1 20 serial.length && serial.all printable && decide (slot.toNat ≤ 15)) then (s, refuse .badValue)
  else match s.ut.freeRecord with
    | none => (s, refuse .tableFull)
    | some i =>
      if s.unit1.isSome then (s, refuse .stationBusy)
      else if slot.toNat = 0 then (s, refuse .notRecipe)
      else
        let k := Fin.ofNat 16 slot.toNat
        if (s.rs.slots[k]).state ≠ .valid then (s, refuse .recipeInvalid)
        else (s.load i serial k, answer .ok (leBytes 2 (s.ut.freeId 8 s.ut.idCounter)))

end Sys2Proof.Machine
end

