-- ==== Sys2Proof/Machine/Profile.lean ====
section
/-! DEFINITION. The Profile Engine (spec/03): step entry and end, drag torque, halts, window signals, and the profile end. What
brings each of these is in the event files. -/

namespace Sys2Proof.Machine

/-! ## The running unit and the current step -/

/-- The unit in RUNNING. -/
def State.runningUnit (s : State) : Option (Fin 8) := s.ut.find fun u => decide (u = .running)

/-- The run-in section of the RUNNING unit, changed by `f` (R55). -/
def State.mapRunIn (f : RunIn → RunIn) (s : State) : State :=
  match s.runningUnit with
  | some i => s.mapUnit i fun r => { r with runIn := f r.runIn }
  | none => s

/-- Step `k`, from 1, of the recipe that governs station 1. -/
def State.stepOf (k : Nat) (s : State) : Option Step :=
  s.recipe1.bind fun r => if k = 0 then none else r.steps[k - 1]?

/-- The current step. -/
def State.currentStep (s : State) : Option Step := s.pe.step.bind fun k => s.stepOf k

/-- A torque setpoint clamped to the wheel torque limit (R43, R39). -/
def State.clampTorque (s : State) (t : Int) : Int := clampInt (-(s.torqueLimit : Int)) s.torqueLimit t

/-! ## Drive enable and DRIVE_FAULT (R128) -/

/-- The source of DRIVE_FAULT as the last feedback record and drive enable give it (R128). -/
def State.driveFaulty (s : State) : Bool :=
  match s.afe.feedback with
  | none => false
  | some f => f.fault || (!f.ready && s.pe.enable && decide (500 ≤ s.uptime - (s.pe.enabledAt.getD s.uptime)))

/-- DRIVE_FAULT is judged (R128). -/
def State.judgeDrive (s : State) : State := s.setSource 4 s.driveFaulty

/-- Drive enable is turned on or off; DRIVE_FAULT is judged where that changes it (R128). -/
def State.setEnable (b : Bool) (s : State) : State :=
  if s.pe.enable = b then s
  else (s.setPe { s.pe with enable := b, enabledAt := if b then some s.uptime else s.pe.enabledAt }).judgeDrive

/-! ## Window signals (R61, R62) -/

/-- The Profile Engine sends open for the step's window where the four things of R61 hold and none is standing. -/
def State.tryOpen (s : State) : State :=
  match s.currentStep with
  | none => s
  | some x =>
    if s.pe.phase = .stepping ∧ x.window ≠ 0 ∧ s.pe.settled ∧ ¬s.pe.openSent ∧ ¬s.halt.noise then
      (s.setPe { s.pe with openSent := true }).openWindow x.window
    else s

/-- The window settle timer has run out, or its time is 0: the open is sent unless NOISE is halted (R61). -/
def State.settle (s : State) : State := (s.setPe { s.pe with settleTimer := none, settled := true }).tryOpen

/-- The window settle timer is loaded with the settle time of the step's window, or stopped without one (R43, R59). A window
with settle time 0 opens at once (R61). -/
def State.loadSettle (x : Step) (s : State) : State :=
  let t := s.setPe { s.pe with settleTimer := none, settled := false, openSent := false }
  match s.recipe1.bind (fun r => if x.window = 0 then none else r.windows[x.window - 1]?) with
  | none => t
  | some w => if w.settle = 0 then t.settle else t.setPe { t.pe with settleTimer := some w.settle }

/-- Pause for the step's window, if the step has one, and the window settle timer stopped (R47, R48, R56, R60). -/
def State.pauseStep (s : State) : State :=
  let t := s.setPe { s.pe with settleTimer := none, settled := false, openSent := false }
  match s.currentStep with
  | some x => if x.window = 0 then t else t.pauseWindow x.window
  | none => t

/-- NOISE enters the halt set: pause for the window that was opened (R62). -/
def State.noisePause (s : State) : State :=
  match s.currentStep with
  | some x => if s.pe.openSent then (s.setPe { s.pe with openSent := false }).pauseWindow x.window else s
  | none => s

/-! ## Step entry and restart (R43, R59) -/

/-- The timer of a step: none for a RAMP with duration 0, which has no timeout. -/
def Step.timer (x : Step) : Timer := if x.kind = .ramp ∧ x.duration = 0 then none else some x.duration

/-- A step that ends at its entry (R43). -/
def Step.endsAtEntry (x : Step) : Bool := decide (x.kind ≠ .ramp) && decide (x.duration = 0)

/-- The engine in STEPPING with step `x`'s timer and torques, an empty drag accumulator for a MEASURE_DRAG step, and the drag
span's start (R43, R52, R59). -/
def State.loadStep (x : Step) (s : State) : State :=
  let drag := decide (x.kind = .measureDrag)
  (s.setPe { s.pe with
    phase := .stepping, stepTimer := x.timer, torqueL := s.clampTorque x.torqueL, torqueR := s.clampTorque x.torqueR,
    dragRecords := if drag then 0 else s.pe.dragRecords, dragSamples := if drag then 0 else s.pe.dragSamples,
    dragSum := if drag then 0 else s.pe.dragSum, stepStart := s.now }).loadSettle x

/-- Step `k` is entered (R43). -/
def State.enterStep (k : Nat) (x : Step) (s : State) : State :=
  ((s.setPe { s.pe with step := some k }).mapRunIn fun r => { r with steps := count32 r.steps }).loadStep x

/-- The suspended step restarts in full (R59). -/
def State.restartStep (s : State) : State :=
  match s.currentStep with
  | some x => s.loadStep x
  | none => s

/-! ## Drag torque (R53) -/

/-- The result of a pass of a MEASURE_DRAG step with its mean (R53). -/
def dragResult (recipe : Recipe) (duration records samples : Nat) (sum : Int) : Verdict × Option Int :=
  if records = 0 ∨ 2 * records < (duration - 500) / 256 then (.incomplete, none)
  else
    let mean := sum / samples
    (if recipe.dragMin ≤ mean ∧ mean ≤ recipe.dragMax then .pass else .fail, some mean)

/-- A pass result joins the run-in section: the worse stays, the earlier at equality (R53). -/
def RunIn.joinDrag (p : Verdict × Option Int) (r : RunIn) : RunIn :=
  match r.dragResult with
  | none => { r with dragResult := some p.1, dragMean := p.2 }
  | some old => if old.code < p.1.code then { r with dragResult := some p.1, dragMean := p.2 } else r

/-- The drag result of the pass of step `x` is evaluated (R53). -/
def State.evaluateDrag (x : Step) (s : State) : State :=
  match s.recipe1 with
  | some r => s.mapRunIn (RunIn.joinDrag (dragResult r x.duration s.pe.dragRecords s.pe.dragSamples s.pe.dragSum))
  | none => s

/-- The drag accumulator is cleared. -/
def State.clearDrag (s : State) : State := s.setPe { s.pe with dragRecords := 0, dragSamples := 0, dragSum := 0 }

/-! ## The profile end (R51, R55) -/

/-- The state of the run-in section after an outcome. -/
def StopCause.ends : StopCause → RunInState
  | .runOut => .finished
  | .failure => .failed
  | .abort => .aborted

/-- The run-in section at the profile end (R55). -/
def RunIn.complete (cause : StopCause) (r : RunIn) : RunIn :=
  { r with
    state := cause.ends
    verdict := some (
      if cause = .abort then .aborted
      else if r.failStep.isSome ∨ r.dragResult = some .fail then .fail
      else if r.dragResult = some .incomplete then .incomplete
      else .pass) }

/-- Close for every window of the recipe (R51, R62). Without windows the noise verdict is set at the profile end itself (R11,
R99). -/
def State.closeWindows (s : State) : State := if s.oa.windows = [] then s.closeTable else s.closeAll

/-- The profile ends with the outcome of `cause` (R51). -/
def State.profileEnd (cause : StopCause) (s : State) : State :=
  let t := s.setEnable false
  let t := t.setPe { t.pe with
    brake := true, stepTimer := none, settleTimer := none, settled := false, openSent := false, step := none }
  let t := (t.mapRunIn (RunIn.complete cause)).closeWindows
  (t.setPe { t.pe with phase := .idle, cause := none }).checkRunDone

/-- The engine enters STOPPING; with the setpoint at 0 the profile ends at once (R51, R60, log 19). -/
def State.beginStop (cause : StopCause) (s : State) : State :=
  let t := s.setPe { s.pe with phase := .stopping, cause := some cause, stepTimer := none, torqueL := 0, torqueR := 0 }
  if t.pe.setpoint = 0 then t.profileEnd cause else t

/-! ## The normal end of a step (R47, R49, R51) -/

/-- The step after step `k` by its loop fields, with the loop counter of `k` after the choice (R49). -/
def loopNext (k : Nat) (x : Step) (counter : Nat) : Nat × Nat :=
  if 2 ≤ x.loopCount then
    if counter - 1 = 0 then (k + 1, x.loopCount) else (x.loopTo, counter - 1)
  else (k + 1, counter)

/-- Step `k` ends normally; the index of the next step is with it (R47). -/
def State.endStep (k : Nat) (x : Step) (s : State) : State × Nat :=
  let t := s.pauseStep
  let t := if x.kind = .measureDrag then t.evaluateDrag x else t
  let c := loopNext k x (t.pe.counters.getD (k - 1) 0)
  (t.setPe { t.pe with stepTimer := none, counters := t.pe.counters.set (k - 1) c.2 }, c.1)

/-- The profile finishes after its last step (R51). -/
def State.finishProfile (s : State) : State := s.beginStop .runOut

/-- Step `k` is entered, and every step that ends at its entry is ended, until one lasts or the profile finishes. -/
def runSteps : Nat → Nat → State → State
  | 0, _, s => s
  | fuel + 1, k, s =>
    match s.stepOf k with
    | none => s.finishProfile
    | some x =>
      let t := s.enterStep k x
      if x.endsAtEntry then
        let e := t.endStep k x
        runSteps fuel e.2 e.1
      else t

/-- More entries than any chain of steps of duration 0 can make: 48 steps, and 255 passes at most of each one's loop (log 17). -/
def chainFuel : Nat := 256 ^ 49

/-- The profile goes on with step `k` (R43, R47). -/
def State.goTo (k : Nat) (s : State) : State := runSteps chainFuel k s

/-- The current step ends normally: by its on-target event, its timer or ADVANCE_STEP (R47). -/
def State.endCurrent (s : State) : State :=
  match s.pe.step, s.currentStep with
  | some k, some x =>
    let e := s.endStep k x
    e.1.goTo e.2
  | _, _ => s

/-- The current RAMP step fails with STEP_TIMEOUT (R48). -/
def State.failStep (s : State) : State :=
  ((s.mapRunIn fun r => { r with failStep := s.pe.step }).pauseStep).beginStop .failure

/-! ## Start and abort (R42, R60) -/

/-- The halt set holds a frame with severity 14 or more (R57). -/
def State.severeFrame (s : State) : Bool := s.cu.stack.any fun f => decide (14 ≤ f.severity)

/-- The profile begins at step 1 with drive enable on and the brake released (R42, R58). -/
def State.beginProfile (s : State) : State :=
  let t := s.setEnable true
  (t.setPe { t.pe with brake := false, phase := .stepping }).goTo 1

/-- START_RUN hands a unit with this recipe to the Profile Engine (R42). -/
def State.startProfile (r : Recipe) (s : State) : State :=
  let t := (s.setPe { s.pe with counters := r.steps.map Step.loopCount, halt := .none }).clearDrag
  if s.halt.profile then
    t.setPe { t.pe with phase := .held, step := none, stepTimer := none, halt := if s.severeFrame then .hard else .soft }
  else t.beginProfile

/-- ABORT_UNIT of the RUNNING unit stops the profile by the phase (R60). -/
def State.abortProfile (s : State) : State :=
  match s.pe.phase with
  | .stepping => ((s.pauseStep).clearDrag).beginStop .abort
  | .reapproach | .suspended | .stopping => s.beginStop .abort
  | .held => s.profileEnd .abort
  | .idle => s

/-! ## Halts (R56 to R58) -/

/-- The change to HARD where a severe frame is on the stack under a PROFILE halt (R57). -/
def State.hardCheck (s : State) : State :=
  if s.pe.halt ≠ .hard ∧ s.severeFrame then
    let t := s.setEnable false
    let t := t.setPe { t.pe with halt := .hard, setpoint := 0, torqueL := 0, torqueR := 0, brake := true }
    match t.pe.phase, t.pe.cause with
    | .stopping, some cause => t.profileEnd cause
    | _, _ => t
  else s

/-- PROFILE enters the halt set (R56). -/
def State.profileHalted (s : State) : State :=
  let t : State := match s.pe.phase with
    | .stepping =>
      let t := s.pauseStep
      let t := if t.currentStep.map Step.kind = some StepKind.measureDrag then t.clearDrag else t
      t.setPe { t.pe with phase := .suspended, stepTimer := none, torqueL := 0, torqueR := 0 }
    | .reapproach => s.setPe { s.pe with phase := .suspended }
    | .held | .stopping | .idle | .suspended => s
  (t.setPe { t.pe with halt := .soft }).hardCheck

/-- PROFILE leaves the halt set (R58). -/
def State.profileReleased (s : State) : State :=
  let t := s.setPe { s.pe with halt := .none }
  match t.pe.phase with
  | .suspended =>
    let t := t.setEnable true
    t.setPe { t.pe with brake := false, phase := .reapproach }
  | .held => t.beginProfile
  | .stepping | .reapproach | .stopping | .idle => t

/-! ## Setpoints (R44, R45) -/

/-- From `x` toward `goal` by at most `step` (R44). -/
def moveToward (goal : Int) (step : Nat) (x : Int) : Int :=
  if x ≤ goal then min goal (x + step) else max goal (x - step)

/-- Goal in 0.01 rpm and rate in force in rpm/s (R44); none in the phases where the setpoint rests. -/
def State.goal (s : State) : Option (Int × Nat) :=
  match s.pe.phase with
  | .idle | .held => none
  | .stepping | .reapproach => s.currentStep.map fun x => (x.target * 100, x.rate)
  | .suspended => if s.pe.halt = .hard then none else s.recipe1.map fun r => (0, r.softStop)
  | .stopping => s.recipe1.map fun r => (0, r.softStop)

/-- The setpoint held within the maximum speed of the governing recipe (R44). -/
def State.clampSpeed (s : State) (x : Int) : Int :=
  match s.recipe1 with
  | some r => clampInt (-(r.maxSpeed * 100 : Nat)) (r.maxSpeed * 100 : Nat) x
  | none => x

/-- The speed setpoint after one update's movement (R44). -/
def State.movedSetpoint (s : State) : Int :=
  match s.goal with
  | some (goal, rate) => s.clampSpeed (moveToward goal (rate / 5) s.pe.setpoint)
  | none => s.clampSpeed s.pe.setpoint

/-- The setpoint record the engine sends (R45). -/
def State.setpointRecord (s : State) : SetpointRecord :=
  match s.pe.phase with
  | .idle | .held => ⟨0, false, 0, 0⟩
  | .stepping => ⟨s.pe.setpoint, s.pe.enable, s.pe.torqueL, s.pe.torqueR⟩
  | .suspended | .reapproach | .stopping => ⟨s.pe.setpoint, s.pe.enable, 0, 0⟩

/-- One setpoint update (R44, R45): the setpoint moves, the record is sent, and a profile that was stopping ends at 0 (R51,
log 10). -/
def State.updateSetpoint (s : State) : State :=
  let t := s.setPe { s.pe with setpoint := s.movedSetpoint, updates := s.pe.updates + 1 }
  let t := t.setPe { t.pe with sent := some t.setpointRecord }
  match t.pe.phase, t.pe.cause with
  | .stopping, some cause => if t.pe.setpoint = 0 then t.profileEnd cause else t
  | _, _ => t

/-- The on-target event of R46: the setpoint equals the target and the measured speed lies within the tolerance. -/
def State.onTarget (speed : Int) (s : State) : Bool :=
  match s.currentStep, s.recipe1 with
  | some x, some r => decide (s.pe.setpoint = x.target * 100) && decide ((speed - x.target * 100).natAbs ≤ r.tolerance * 100)
  | _, _ => false

/-- What the Profile Engine does with the measured speed of a feedback record (R46, R59). -/
def State.takeSpeed (speed : Int) (s : State) : State :=
  match s.pe.phase with
  | .stepping =>
    match s.currentStep with
    | some x => if x.kind = .ramp ∧ s.onTarget speed then s.endCurrent else s
    | none => s
  | .reapproach => if s.onTarget speed then s.restartStep else s
  | .idle | .held | .suspended | .stopping => s

/-! ## SLOW records (R52, R54) -/

/-- The maximum of a value that may be absent and another. -/
def peak (old : Option Int) (x : Int) : Option Int :=
  match old with
  | none => some x
  | some y => some (if y < x then x else y)

/-- The temperature statistics after a record (R54). -/
def RunIn.absorb (oil housing : Int) (r : RunIn) : RunIn :=
  { r with peakOil := peak r.peakOil oil, peakHousing := peak r.peakHousing housing, endHousing := some housing }

/-- The cell time at which SLOW slot `n` begins (R69). -/
def slowSlotStart (n : Word32) : CellTime := n * 256

/-- A record of SLOW slot `n` lies wholly in the drag span, which begins 500 ms after the step's entry and reaches to the present
(R52). Differences from the entry are taken modulo 2^32. -/
def inDragSpan (stepStart now : CellTime) (n : Word32) : Bool :=
  let a := (slowSlotStart n - stepStart).toNat
  decide (500 ≤ a) && decide (a + 256 ≤ (now - stepStart).toNat)

/-- The drag accumulator takes a record (R52). -/
def State.takeDrag (seq : Word32) (xs : List SlowSample) (s : State) : State :=
  match s.pe.phase, s.currentStep with
  | .stepping, some x =>
    if x.kind = .measureDrag ∧ inDragSpan s.pe.stepStart s.now seq then
      let sum := (xs.map SlowSample.tqp).sum
      s.setPe { s.pe with
        dragRecords := s.pe.dragRecords + 1, dragSamples := s.pe.dragSamples + 128
        dragSum := s.pe.dragSum + if x.target < 0 then -sum else sum }
    else s
  | _, _ => s

/-- The Profile Engine absorbs a SLOW record between the profile's start and its end (R54). -/
def State.absorb (seq : Word32) (xs : List SlowSample) (s : State) : State :=
  match s.pe.phase with
  | .idle => s
  | _ => (s.mapRunIn (RunIn.absorb (recordMean (xs.map SlowSample.toil)) (recordMean (xs.map SlowSample.thsg)))).takeDrag seq xs

end Sys2Proof.Machine
end

