-- ==== Sys2Proof/Machine/Halts.lean ====
section
/-! DEFINITION. What the functional blocks do when members enter and leave the halt set (R135), and how an event ends. -/

namespace Sys2Proof.Machine

/-- Some unit is IN_TRANSFER. -/
def State.anyTransfer (s : State) : Bool := (s.ut.find fun u => decide (u = .inTransfer)).isSome

/-- PROFILE against the halt set before the event: entry, exit, or the check of R57 where it stayed. -/
def State.applyProfileHalt (was : StopSet) (s : State) : State :=
  match was.profile, s.halt.profile with
  | false, true => s.profileHalted
  | true, true => s.hardCheck
  | true, false => s.profileReleased
  | false, false => s

/-- NOISE against the halt set before the event (R61, R62, R74, R100). -/
def State.applyNoiseHalt (was : StopSet) (s : State) : State :=
  match was.noise, s.halt.noise with
  | false, true => s.noisePause.syncStreams
  | true, false => s.tryOpen.syncStreams
  | _, _ => s

/-- LEAK against the halt set before the event (R121, R122, R16). -/
def State.applyLeakHalt (was : StopSet) (s : State) : State :=
  match was.leak, s.halt.leak with
  | false, true => s.haltChambers
  | true, false => s.checkGrant.decideLeak
  | _, _ => s

/-- TRANSFER against the halt set before the event (R15, R12). -/
def State.applyTransferHalt (was : StopSet) (s : State) : State :=
  match was.transfer, s.halt.transfer with
  | false, true => if s.anyTransfer then s.stopConveyor else s
  | true, false => (if s.anyTransfer then s.runConveyor else s).checkTransfer
  | _, _ => s

/-- The halt set that stands after the event is handed on to the blocks, member by member (R135, log 11). -/
def State.applyHalts (was : StopSet) (s : State) : State :=
  (((s.applyProfileHalt was).applyNoiseHalt was).applyLeakHalt was).applyTransferHalt was

/-- The end of an event that led from `s` to `t`: the taking check where a condition became active (R133), with its CONDITION notices,
and then the halts (R135). So the CONDITION notice of a taking becomes pending before the UNIT and other notices that its halt brings
(DESIGN CHOICE, log 35: the spec gives them no order). -/
def react (s t : State) : State := (checkIfActivated s t).applyHalts s.halt

end Sys2Proof.Machine
end

