-- ==== Sys2Proof/Machine/FrontEnd.lean ====
section
/-! DEFINITION. The Acquisition Front End's events (spec/04 sections 4.1 to 4.3): calibration and live values, the encoder, the time
slots, and the record boundaries they make. -/

namespace Sys2Proof.Machine

/-! ## Samples (R64 to R66, R128) -/

/-- A count as it is taken: signed 16 bits, saturating (R64). -/
def rawCount (x : Int) : Int := clampInt (-32768) 32767 x

/-- The engineering value and the range fault of a raw count (R65). -/
def calibrate (c : Calibration) (x : Int) : Int × Bool :=
  let raw := rawCount x
  if raw = 32767 then (c.high, true)
  else if raw = -32768 then (c.low, true)
  else
    let v := ((raw - c.zero) * c.gain).tdiv 65536
    if v < c.low then (c.low, true) else if c.high < v then (c.high, true) else (v, false)

/-- Live value and range fault of channel `i` after a sample with count `x` (R65, R66). -/
def State.takeChannel (i : Fin 10) (x : Int) (s : State) : State :=
  let v := calibrate s.rs.live.channels[i] x
  s.setAfe { s.afe with live := s.afe.live.set i v.1, faults := s.afe.faults.set i v.2 }

/-- The live SLOW values as a row of a record. -/
def FrontEnd.slowRow (a : FrontEnd) : SlowSample := ⟨a.live[0], a.live[1], a.live[2], a.live[3], a.live[4]⟩

/-- The live LEAK values as a row of a record. -/
def FrontEnd.leakRow (a : FrontEnd) : LeakSample := ⟨a.live[5], a.live[6], a.live[7], a.live[8], a.live[9]⟩

/-- The range fault of TOIL, THSG or TLK is set (R66, R128). -/
def FrontEnd.sensorFaulty (a : FrontEnd) : Bool := a.faults[3] || a.faults[4] || a.faults[9]

/-- SENSOR_FAULT is judged (R128). -/
def State.judgeSensors (s : State) : State := s.setSource 11 s.afe.sensorFaulty

/-- TORQUE_HIGH, OIL_HOT and SENSOR_FAULT are judged at a SLOW sample (R128). -/
def State.judgeSlow (s : State) : State :=
  let limit := s.torqueLimit
  ((s.setSource 5 (decide (limit < (s.afe.live[1]).natAbs) || decide (limit < (s.afe.live[2]).natAbs))).setSource 10
    (decide (s.oilLimit < s.afe.live[3]))).judgeSensors

/-- The FILLING SLOW record of slot `n`. -/
def CaptureStore.slowRecord (c : CaptureStore) (n : Word32) : Option (Fin 8) :=
  (List.finRange 8).find? fun d => decide ((c.slowDescs[d]).state = .filling) && decide ((c.slowDescs[d]).seq = n)

/-- The FILLING LEAK record of slot `n`. -/
def CaptureStore.leakRecord (c : CaptureStore) (n : Word32) : Option (Fin 8) :=
  (List.finRange 8).find? fun d => decide ((c.leakDescs[d]).state = .filling) && decide ((c.leakDescs[d]).seq = n)

/-- Number of a slot as 32 bits (R69). -/
def slotNumber (n : Nat) : Word32 := BitVec.ofNat 32 n

/-- A SLOW sample joins the record of its slot (R69). -/
def State.storeSlow (s : State) : State :=
  match s.cs.slowRecord (slotNumber (s.afe.slowTaken / 128)) with
  | none => s
  | some d =>
    let x := s.cs.slowDescs[d]
    s.setCs { s.cs with slowDescs := s.cs.slowDescs.set d { x with samples := x.samples ++ [s.afe.slowRow] } }

/-- A LEAK sample joins the record of its slot (R69). -/
def State.storeLeak (s : State) : State :=
  match s.cs.leakRecord (slotNumber (s.afe.leakTaken / 128)) with
  | none => s
  | some d =>
    let x := s.cs.leakDescs[d]
    s.setCs { s.cs with leakDescs := s.cs.leakDescs.set d { x with samples := x.samples ++ [s.afe.leakRow] } }

/-- The next SLOW sample, due at 2i ms after the reset, is taken, stored and judged (R64 to R66, R128). -/
def State.takeSlow (x : SlowSample) (s : State) : State :=
  let t := s.elapseTo (2 * s.afe.slowTaken)
  let t := ((((t.takeChannel 0 x.tqp).takeChannel 1 x.tql).takeChannel 2 x.tqr).takeChannel 3 x.toil).takeChannel 4 x.thsg
  let t := t.storeSlow
  (t.setAfe { t.afe with slowTaken := t.afe.slowTaken + 1 }).judgeSlow

/-- A chamber in FILL whose live pressure has reached its target less its tolerance ends its fill (R109). -/
def State.checkFill (c : Fin 4) (s : State) : State :=
  let p := s.chamberPlan c
  if (s.chamber c).phase = .fill ∧ (p.target : Int) - p.tolerance ≤ pressureOf c s.afe.leakRow then s.fillReached c else s

/-- The chamber in FILL is tested at a LEAK sample (R109). One chamber at most is in FILL at the sample (R108); the chamber that
the arbiter then grants is tested at the next sample. -/
def State.checkFills (s : State) : State :=
  match (List.finRange 4).find? fun c => decide ((s.chamber c).phase = .fill) with
  | some c => s.checkFill c
  | none => s

/-- The next LEAK sample, due at 5i ms after the reset, is taken, stored and judged, and the Leak Controller reads it (R64 to
R66, R109, R114, R128). The Leak Controller acts on it, and the arbiter grants, before the Condition Unit judges SENSOR_FAULT (DESIGN
CHOICE, log 31: the spec gives the two no order). -/
def State.takeLeak (x : LeakSample) (s : State) : State :=
  let t := s.elapseTo (5 * s.afe.leakTaken)
  let t := ((((t.takeChannel 5 x.prs0).takeChannel 6 x.prs1).takeChannel 7 x.prs2).takeChannel 8 x.prs3).takeChannel 9 x.tlk
  let t := t.storeLeak
  let t := (t.setAfe { t.afe with leakTaken := t.afe.leakTaken + 1 }).checkFills
  (if t.afe.faults[9] then t.senseFault else t).judgeSensors

/-! ## The encoder (R67, R68) -/

/-- A channel of an angle sample. -/
def angleOf (x : AngleSample) : Channel → Int
  | .acc0 => x.acc0
  | .acc1 => x.acc1
  | .acc2 => x.acc2
  | .acc3 => x.acc3
  | .mic => x.mic

/-- A raw count is saturated (R64, R65). -/
def saturated (x : Int) : Bool := decide (rawCount x = 32767) || decide (rawCount x = -32768)

/-- An angle sample joins every block of a VIB record, and a saturated stored sample sets its overload (R68). -/
def VibDescriptor.addSample (x : AngleSample) (d : VibDescriptor) : VibDescriptor :=
  { d with
    blocks := d.blocks.map fun b => { b with samples := b.samples ++ [rawCount (angleOf x b.channel)] }
    overload := d.overload || d.blocks.any fun b => saturated (angleOf x b.channel) }

/-- An angle sample is taken into the open VIB record (R68). -/
def State.storeAngle (x : AngleSample) (s : State) : State :=
  match s.afe.openVib with
  | none => s
  | some d => s.setCs { s.cs with vibDescs := s.cs.vibDescs.set d ((s.cs.vibDescs[d]).addSample x) }

/-- A quadrature pulse (R67): the counter rises, the direction is marked, and at a multiple of 8 an angle sample is taken, the
128th at count 1,016 being the last that is stored (R68). -/
def State.pulse (us : Nat) (forward : Bool) (x : AngleSample) (s : State) : State :=
  let t := s.elapse us
  let a := t.afe
  let t := t.setAfe { a with
    pulses := a.pulses + 1, sawForward := a.sawForward || forward, sawReverse := a.sawReverse || !forward }
  if t.afe.pulses % 8 = 0 ∧ t.afe.pulses / 8 < 128 then t.storeAngle x else t

/-- The direction of the revolution that closes (R68). -/
def FrontEnd.direction (a : FrontEnd) : RevDirection :=
  if ¬a.sawReverse then .fwd else if ¬a.sawForward then .rev else .mixed

/-- The open VIB record is closed at an index and delivered (R68, R70). -/
def State.closeVib (s : State) : State :=
  match s.afe.openVib with
  | none => s
  | some d =>
    let x := { s.cs.vibDescs[d] with
      state := .held, direction := s.afe.direction, periodUs := s.afe.periodUs.getD 0, pulses := s.afe.pulses }
    ((s.setAfe { s.afe with openVib := none }).setCs { s.cs with vibDescs := s.cs.vibDescs.set d x }).deliverVib d

/-- The counters at an index (R67). -/
def State.countIndex (s : State) : State :=
  s.setAfe { s.afe with
    pulses := 0, revolution := s.afe.revolution + 1, periodUs := some 0, sawForward := false, sawReverse := false }

/-- A VIB record of window `w` is captured at an index (R68, R75). -/
def State.captureVib (w : Window) (resumed : Bool) (x : AngleSample) (s : State) : State :=
  match s.cs.freeVib with
  | none => s
  | some d =>
    let k := w.spec.channels.length
    let r := s.cs.vib.resShare k
    let rec0 : VibDescriptor :=
      ⟨.filling, s.afe.revolution, r, k - r, w.number, .fwd, 0, 0, false, w.spec.channels.map fun c => ⟨c, []⟩⟩
    let t := s.setCs { s.cs with
      vib := s.cs.vib.takeBlocks k s.afe.revolution, vibDescs := s.cs.vibDescs.set d (rec0.addSample x) }
    (t.setAfe { t.afe with openVib := some d }).resumeStream .vib resumed

/-- The record boundary of VIB at an index (R75, R76, R78, R80); a drop is counted in the OPEN window (R76, R95). -/
def State.boundaryVib (x : AngleSample) (s : State) : State :=
  match s.oa.openWindow with
  | none => s
  | some w =>
    match s.boundary .vib w.spec.channels.length s.cs.freeVib.isSome with
    | .nothing => s
    | .capture resumed => s.captureVib w resumed x
    | .drop starves => (s.mapWindow w.number fun w => { w with dropped := count16 w.dropped }).dropRecord .vib starves

/-- The index (R67, R68): the open record is closed and delivered first, which may end the unit's running (R11); then the
counters and the record boundary. -/
def State.index (us : Nat) (x : AngleSample) (s : State) : State :=
  ((((s.elapse us).closeVib).checkRunDone).countIndex).boundaryVib x

/-- The time without an index after which an open record is abandoned, in µs (R68). -/
def revolutionLimit : Nat := 60000000

/-- The period timer passes its limit with a record open, which is abandoned (R68). -/
def State.revolutionTimeout (s : State) : State :=
  match s.afe.openVib, s.afe.periodUs with
  | some _, some p => (s.elapse (revolutionLimit + 1 - p)).abandonOpen
  | _, _ => s

/-! ## Time slots (R69, R75) -/

/-- A SLOW record of slot `n` is captured at the slot's start (R69, R75). A sample already taken at this instant is its
first. -/
def State.captureSlow (n : Nat) (resumed : Bool) (s : State) : State :=
  match s.cs.freeSlow with
  | none => s
  | some d =>
    let r := s.cs.slow.resShare 5
    let first := if s.afe.slowTaken = 128 * n + 1 then [s.afe.slowRow] else []
    (s.setCs { s.cs with
      slow := s.cs.slow.takeBlocks 5 (slotNumber n)
      slowDescs := s.cs.slowDescs.set d ⟨.filling, slotNumber n, r, 5 - r, first⟩ }).resumeStream .slow resumed

/-- A LEAK record of slot `n` is captured at the slot's start (R69, R75). -/
def State.captureLeak (n : Nat) (resumed : Bool) (s : State) : State :=
  match s.cs.freeLeak with
  | none => s
  | some d =>
    let r := s.cs.leak.resShare 5
    let first := if s.afe.leakTaken = 128 * n + 1 then [s.afe.leakRow] else []
    (s.setCs { s.cs with
      leak := s.cs.leak.takeBlocks 5 (slotNumber n)
      leakDescs := s.cs.leakDescs.set d ⟨.filling, slotNumber n, r, 5 - r, first⟩ }).resumeStream .leak resumed

/-- The record boundary of SLOW at the start of slot `n` (R75, R76, R78, R80). -/
def State.boundarySlow (n : Nat) (s : State) : State :=
  match s.boundary .slow 5 s.cs.freeSlow.isSome with
  | .nothing => s
  | .capture resumed => s.captureSlow n resumed
  | .drop starves => s.dropRecord .slow starves

/-- The record boundary of LEAK at the start of slot `n`. -/
def State.boundaryLeak (n : Nat) (s : State) : State :=
  match s.boundary .leak 5 s.cs.freeLeak.isSome with
  | .nothing => s
  | .capture resumed => s.captureLeak n resumed
  | .drop starves => s.dropRecord .leak starves

/-- The next SLOW slot begins (R69), where the slot before the current one has ended (log 3). -/
def State.startSlow (s : State) : State :=
  let n := s.afe.slowSlot + 1
  if s.afe.slowSlot ≤ s.afe.slowEnded then
    let t := s.elapseTo (256 * n)
    (t.setAfe { t.afe with slowSlot := n }).boundarySlow n
  else s

/-- The next LEAK slot begins (R69), where the slot before the current one has ended (log 3). -/
def State.startLeak (s : State) : State :=
  let n := s.afe.leakSlot + 1
  if s.afe.leakSlot ≤ s.afe.leakEnded then
    let t := s.elapseTo (640 * n)
    (t.setAfe { t.afe with leakSlot := n }).boundaryLeak n
  else s

/-- The SLOW slot that is due ends (R69): its record goes to the Profile Engine, which absorbs and releases it (R54, R71). -/
def State.endSlow (s : State) : State :=
  let n := s.afe.slowEnded
  if n ≤ s.afe.slowSlot then
    let t := s.elapseTo (256 * (n + 1))
    let t := t.setAfe { t.afe with slowEnded := n + 1 }
    match t.cs.slowRecord (slotNumber n) with
    | none => t
    | some d => (t.absorb (slotNumber n) (t.cs.slowDescs[d]).samples).releaseSlow d
  else s

/-- The LEAK slot that is due ends (R69): its record goes to the Leak Controller, which takes its values and releases it (R71,
R113), and attempts whose measure time has expired are evaluated (R114). -/
def State.endLeak (s : State) : State :=
  let n := s.afe.leakEnded
  if n ≤ s.afe.leakSlot then
    let t := s.elapseTo (640 * (n + 1))
    let t := t.setAfe { t.afe with leakEnded := n + 1 }
    let t := match t.cs.leakRecord (slotNumber n) with
      | none => t
      | some d => (t.takeLeakRecord (slotNumber n) (t.cs.leakDescs[d]).samples).releaseLeak d
    t.evaluateAll
  else s

end Sys2Proof.Machine
end

