-- ==== Sys2Proof/Machine/Store.lean ====
section
/-! DEFINITION. The Recipe Store (spec/02): the slot commands, the completion of an erase and of a close, and the start-up scan. -/

namespace Sys2Proof.Machine

/-- The bytes of a slot (R21). -/
def slotSize : Nat := 4096

/-- The slot that a command's slot number names: none above 15 (R23). -/
def slotIndex (b : Byte) : Option (Fin 16) := if b.toNat ≤ 15 then some (Fin.ofNat 16 b.toNat) else none

/-- Slot `k`. -/
def State.slot (k : Fin 16) (s : State) : Slot := s.rs.slots[k]

/-- An operation is in flight in a slot. -/
def SlotState.busy : SlotState → Bool
  | .erasing | .closing => true
  | .blank | .writing | .valid | .invalid => false

/-- Why a command that would change slot `k` may not (R23): slot 0 needs MAINTENANCE and an empty unit table. -/
def State.slotGuard (k : Fin 16) (s : State) : Option Status :=
  if k ≠ 0 then none
  else if s.cu.mode = .production then some .protected_
  else if s.ut.count ≠ 0 then some .wrongState
  else none

/-- A command that names a slot above 15 is answered BAD_VALUE (R23). -/
def withSlot (b : Byte) (f : Fin 16 → State → State × Reply) (s : State) : State × Reply :=
  match slotIndex b with
  | none => (s, refuse .badValue)
  | some k => f k s

/-- A command that would change a slot passes the checks of R23 before `f` looks at the slot. -/
def withOwnSlot (b : Byte) (f : Fin 16 → State → State × Reply) (s : State) : State × Reply :=
  withSlot b (fun k s => match s.slotGuard k with
    | some st => (s, refuse st)
    | none => f k s) s

/-! ## The slot commands (R24, R26 to R28, R31, R36, R37) -/

/-- SLOT_ERASE (R24). -/
def takeSlotErase (b : Byte) : State → State × Reply := withOwnSlot b fun k s =>
  let x := s.slot k
  if x.state.busy then (s, refuse .slotBusy)
  else if 0 < x.inUse then (s, refuse .slotInUse)
  else (s.mapSlot k fun x => { x with state := .erasing, reason := none, written := 0, digest := none, mark := true },
    refuse .accepted)

/-- The first byte of a slot that does not read FFh (R26). In the canonical form it is the first cell. -/
def Slot.firstWritten (x : Slot) : Option Nat :=
  match x.garbled with
  | none => x.bytes.head?.map Prod.fst
  | some _ => (List.range slotSize).find? fun off => decide (x.byteAt off ≠ erasedByte)

/-- SLOT_BLANK (R26). -/
def takeSlotBlank (b : Byte) : State → State × Reply := withSlot b fun k s =>
  let x := s.slot k
  if x.state.busy then (s, refuse .slotBusy)
  else (s, answer .ok (flagByte x.firstWritten.isNone :: leBytes 2 (x.firstWritten.getD 0)))

/-- SLOT_WRITE (R27). -/
def takeSlotWrite (b : Byte) (offset : Nat) (data : List Byte) : State → State × Reply := withOwnSlot b fun k s =>
  let x := s.slot k
  if x.state.busy then (s, refuse .slotBusy)
  else if x.state = .valid ∨ x.state = .invalid then (s, refuse .notBlank)
  else if ¬within 1 1000 data.length then (s, refuse .badLength)
  else if offset ≠ x.written then (s, answer .badOffset (leBytes 2 x.written))
  else if slotSize < offset + data.length then (s, refuse .badLength)
  else (s.mapSlot k fun x => { x with
      bytes := x.bytes.writeAll offset data, state := .writing, written := offset + data.length },
    answer .ok (leBytes 2 (offset + data.length)))

/-- SLOT_CLOSE (R28). -/
def takeSlotClose (b : Byte) : State → State × Reply := withOwnSlot b fun k s =>
  if (s.slot k).state = .writing then
    (s.mapSlot k fun x => { x with state := .closing, mark := true }, refuse .accepted)
  else (s, refuse .wrongState)

/-- SLOT_VERIFY (R31). -/
def takeSlotVerify (b : Byte) (digest : Word32) : State → State × Reply := withSlot b fun k s =>
  let x := s.slot k
  if x.state = .valid then (s, refuse (if x.digest = some digest then .matched else .mismatch))
  else (s, refuse .wrongState)

/-- SLOT_READ (R36). -/
def takeSlotRead (b : Byte) (offset length : Nat) : State → State × Reply := withSlot b fun k s =>
  let x := s.slot k
  if slotSize ≤ offset then (s, refuse .badOffset)
  else if ¬(within 1 1000 length && decide (offset + length ≤ slotSize)) then (s, refuse .badLength)
  else if x.state.busy then (s, refuse .slotBusy)
  else (s, answer .ok ((List.range length).map fun i => x.byteAt (offset + i)))

/-- SLOT_INFO (R37). -/
def takeSlotInfo (b : Byte) : State → State × Reply := withSlot b fun k s =>
  let x := s.slot k
  (s, answer .ok ([codeByte x.state.code, codeOpt (x.reason.map Reason.code)] ++ leBytes 2 x.written ++
    leBytes 4 (x.digest.getD 0).toNat ++
    [codeByte x.inUse, if k = 0 then codeByte s.rs.source.code else codeOpt none]))

/-! ## Completions (R25, R29, R33, R35) -/

/-- Raise STORE_DONE for slot `k` as it stands (R35). -/
def State.storeDone (k : Fin 16) (s : State) : State :=
  let x := s.slot k
  s.raise .storeDone (.storeDone k x.state x.reason x.digest)

/-- The erase of slot `k` completes (R25). -/
def State.completeErase (k : Fin 16) (s : State) : State :=
  if (s.slot k).state = .erasing ∧ ¬s.rs.scanning then
    (s.mapSlot k fun x => { x with
      bytes := [], garbled := none, state := .blank, reason := none, written := 0, digest := none, mark := false }).storeDone k
  else s

/-- The first reason for which the image of slot `k` fails (R30, R32). -/
def imageReason (k : Fin 16) (x : Slot) : Option Reason :=
  if k = 0 then configReason x.bytes x.written else recipeReason x.bytes x.written

/-- A slot after its close completes (R29). -/
def Slot.closed (k : Fin 16) (x : Slot) : Slot :=
  { x with
    state := if (imageReason k x).isNone then .valid else .invalid
    reason := imageReason k x
    digest := some (crc32 (x.bytes.readAll 0 x.written))
    mark := false }

/-- A cell configuration comes into force from slot 0 (R33, R34, R140). -/
def State.useConfig (cfg : CellConfig) (source : ConfigSource) (s : State) : State :=
  let t := s.setRs { s.rs with live := cfg, source := source }
  t.setCu { t.cu with conditions := loadSettings cfg t.cu.conditions }

/-- The close of slot `k` completes (R29); that of slot 0 VALID puts its image in force, with one taking check after all the
condition changes (R33, R141). STORE_DONE becomes pending before the CONDITION notices of that check (DESIGN CHOICE, log 30: the
spec gives the two no order). -/
def State.completeClose (k : Fin 16) (s : State) : State :=
  if (s.slot k).state = .closing ∧ ¬s.rs.scanning then
    let t := (s.mapSlot k (Slot.closed k)).storeDone k
    if k = 0 ∧ (t.slot 0).state = .valid then
      ((t.useConfig (readConfig (t.slot 0).bytes) .slot0).takingCheck []).applyHalts s.halt
    else t
  else s

/-! ## The start-up scan (R34) -/

/-- A slot found in WRITING, ERASING or CLOSING, or carrying a mark (R34). -/
def Slot.interrupted (x : Slot) : Bool := decide (x.state = .writing) || x.state.busy || x.mark

/-- An interrupted slot after the scan: INVALID, its bytes free values (R34, R36, log 7). -/
def Slot.scanned (fresh : Nat) (x : Slot) : Slot :=
  if x.interrupted then
    { x with state := .invalid, reason := some .interrupted, written := 0, digest := none, mark := false, garbled := some fresh }
  else x

/-- The scan ends (R34): the slots are settled, the live configuration is put in force, one taking check runs (R144), and the
reset vent gets its end (R125). -/
def State.endScan (s : State) : State :=
  if ¬s.rs.scanning then s
  else
    let t := s.setRs { s.rs with
      slots := Vector.ofFn fun k => (s.rs.slots[k]).scanned (s.freeCount + k.val), scanning := false }
    let t := t.setFreeCount (s.freeCount + 16)
    let x := t.slot 0
    let t := if x.state = .valid then t.useConfig (readConfig x.bytes) .slot0 else t.useConfig defaultConfig .defaults
    let t := (t.takingCheck []).applyHalts s.halt
    match t.lkc.resetVent with
    | .running _ => t.setLkc { t.lkc with resetVent := .running (some t.rs.live.resetVent) }
    | .over => t

end Sys2Proof.Machine
end

