-- ==== Sys2Proof/Machine/Conditions.lean ====
section
/-! DEFINITION. The condition commands (spec/07 sections 7.7 and 7.8), the field lines and the KEY line (R127, R130). -/

namespace Sys2Proof.Machine

/-- The condition that a command's number names: none above 19 (R136). -/
def conditionIndex (b : Byte) : Option (Fin 20) := if b.toNat ≤ 19 then some (Fin.ofNat 20 b.toNat) else none

/-- A command that names a condition above 19 is answered BAD_VALUE (R136). -/
def withCondition (b : Byte) (f : Fin 20 → State → State × Reply) (s : State) : State × Reply :=
  match conditionIndex b with
  | none => (s, refuse .badValue)
  | some n => f n s

/-- COND_ACK (R137). -/
def takeCondAck (b : Byte) : State → State × Reply := withCondition b fun n s =>
  match conditionKind n with
  | .latched =>
    if (s.cond n).source then (s, refuse .stillActive)
    else (s.mapCond n fun c => { c with latch := false, injected := false }, refuse .ok)
  | .level => (s.mapCond n fun c => { c with injected := false }, refuse .ok)

/-- Condition `n` with its injected flag set, and its latch where it is LATCHED (R138). -/
def State.inject (n : Fin 20) (s : State) : State :=
  s.changeCond n fun c => { c with injected := true, latch := c.latch || decide (conditionKind n = .latched) }

/-- COND_INJECT (R138). -/
def takeCondInject (b : Byte) : State → State × Reply := withCondition b fun n s =>
  if n.val < 16 ∧ s.cu.mode = .production then (s, refuse .protected_)
  else
    let t := ((s.inject n).takingCheck []).applyHalts s.halt
    (t, answer .ok [flagByte (!s.onStack n && t.onStack n)])

/-- The severity that COND_CONFIG applies to condition `n` (R141). -/
def clampSeverity (n : Fin 20) (severity : Nat) : Nat := min (severityRange n).2 (max (severityRange n).1 severity)

/-- The stop vector that COND_CONFIG applies to condition `n`: TORQUE_HIGH keeps PROFILE (R141). -/
def completeVector (n : Fin 20) (v : StopSet) : StopSet := if n = 5 then { v with profile := true } else v

/-- COND_CONFIG (R141). -/
def takeCondConfig (b severity vector : Byte) : State → State × Reply := withCondition b fun n s =>
  if s.cu.mode = .production then (s, refuse .protected_)
  else if (configIndex n).isNone then (s, refuse .protected_)
  else if 15 < vector.toNat then (s, refuse .badValue)
  else
    let sev := clampSeverity n severity.toNat
    let vec := completeVector n (.ofCode vector.toNat)
    let t := s.mapCond n fun c => { c with severity := sev, vector := vec }
    let t := if s.onStack n then t else (t.takingCheck []).applyHalts s.halt
    (t, answer .ok [codeByte sev, codeByte vec.code])

/-- The cap of the mask level (R131). -/
def Mode.cap : Mode → Nat
  | .maintenance => 14
  | .production => 10

/-- SET_MASK (R131). -/
def takeSetMask (level : Byte) (s : State) : State × Reply :=
  let m := min level.toNat s.cu.mode.cap
  let t := s.setCu { s.cu with mask := m }
  (if m < s.cu.mask then (t.takingCheck []).applyHalts s.halt else t, answer .ok [codeByte m])

/-- RESUME (R139). -/
def takeResume (s : State) : State × Reply :=
  match s.cu.stack with
  | [] => (s, refuse .empty)
  | f :: rest =>
    if s.active f.number then (s, refuse .stillActive)
    else
      let t := s.setCu { s.cu with stack := rest, rl := f.savedRl }
      let t := (t.takingCheck [f.number]).applyHalts s.halt
      (t, answer .ok [codeByte f.number.val, codeByte t.cu.rl, codeByte t.cu.stack.length, codeByte t.halt.code])

/-! ## The field lines (R127, R130) -/

/-- A field line takes a level (R127). -/
def Lines.put (line : CondLine) (b : Bool) (x : Lines) : Lines :=
  match line with
  | .estop => { x with estop := b }
  | .guard1 => { x with guard1 := b }
  | .guard2 => { x with guard2 := b }
  | .supplyOk => { x with supplyOk := b }

/-- The sources of the four line conditions as the lines stand (R127). -/
def State.judgeLines (s : State) : State :=
  (((s.setSource 0 s.lines.estop).setSource 6 s.lines.guard1).setSource 7 s.lines.guard2).setSource 12 (!s.lines.supplyOk)

/-- The source that follows a line is judged again (R127). -/
def State.judgeLine (line : CondLine) (s : State) : State :=
  match line with
  | .estop => s.setSource 0 s.lines.estop
  | .guard1 => s.setSource 6 s.lines.guard1
  | .guard2 => s.setSource 7 s.lines.guard2
  | .supplyOk => s.setSource 12 (!s.lines.supplyOk)

/-- A field line changes (R127). -/
def State.changeLine (line : CondLine) (b : Bool) (s : State) : State :=
  react s ((s.setLines (s.lines.put line b)).judgeLine line)

/-- The mode that a level of the KEY line gives (R130). -/
def keyMode (asserted : Bool) : Mode := if asserted then .maintenance else .production

/-- The KEY line takes a level (R130). MODE_CHANGE is asserted for an instant where a unit is working (R127); at a change to
PRODUCTION the mask is capped and the taking check runs. -/
def State.changeKey (asserted : Bool) (s : State) : State :=
  if s.cu.mode = keyMode asserted then s
  else
    let t := s.setCu { s.cu with mode := keyMode asserted, mask := if asserted then s.cu.mask else min 10 s.cu.mask }
    let t := if s.anyWorking then t.sourceInstant 8 else t
    if asserted then react s t else (t.takingCheck []).applyHalts s.halt

end Sys2Proof.Machine
end

