-- ==== Sys2Proof/Machine/Replies.lean ====
section
/-! DEFINITION. What the T-860 sends (spec/10 sections 10.3 to 10.5): the data of the query replies, the unit record and report, and the
notice bodies. -/

namespace Sys2Proof.Machine

/-! ## The unit record (spec/10 section 10.4) -/

/-- A cell time that may be absent: 0 then. -/
def timeBytes (t : Option CellTime) : List Byte := leBytes 4 (t.getD 0).toNat

/-- A verdict or grade that may be absent. -/
def verdictOpt (v : Option Verdict) : Byte := codeOpt (v.map Verdict.code)

/-- The run-in group. -/
def RunIn.encode (x : RunIn) : List Byte :=
  [codeByte x.state.code, verdictOpt x.verdict] ++ leBytes 4 x.steps ++ [verdictOpt x.dragResult, codeByte (x.failStep.getD 0)] ++
  leIntOpt 4 x.dragMean ++ leIntOpt 2 x.peakOil ++ leIntOpt 2 x.peakHousing ++ leIntOpt 2 x.endHousing

/-- An order result. -/
def OrderResult.encode (x : OrderResult) : List Byte :=
  [codeByte x.channel.code, codeByte x.order, codeByte x.grade.code] ++ leBytes 6 x.power ++ leInt 2 x.level ++ leInt 2 x.limit

/-- A window summary followed by its results. -/
def WindowSummary.encode (results : List OrderResult) (x : WindowSummary) : List Byte :=
  let mine := results.filter fun r => decide (r.window = x.number)
  [codeByte x.number, codeByte x.kind.code, codeByte x.direction.code, flagByte x.opened] ++
  leBytes 2 x.nReq ++ leBytes 2 x.nMin ++ leBytes 2 x.nAcc ++ leBytes 2 x.dropped ++ leBytes 2 x.slip ++ leBytes 2 x.wrongWay ++
  leBytes 2 x.speedBand ++ leBytes 2 x.overload ++ leBytes 2 x.released ++ [codeByte mine.length] ++
  mine.flatMap OrderResult.encode

/-- The noise group. -/
def Noise.encode (x : Noise) : List Byte :=
  [verdictOpt x.verdict, codeByte x.summaries.length] ++ x.summaries.flatMap (WindowSummary.encode x.results)

/-- A chamber result. -/
def ChamberResult.encode (x : ChamberResult) : List Byte :=
  [codeOpt (x.kind.map ChamberKind.code), codeByte x.attempts, codeOpt (x.outcome.map LeakOutcome.code), verdictOpt x.verdict] ++
  leIntOpt 8 x.q ++ leIntOpt 4 x.d ++ leBytes 4 (x.tMs.getD 0)

/-- The leak group. -/
def LeakSection.encode (x : LeakSection) : List Byte :=
  [codeByte x.state.code, verdictOpt x.verdict] ++ x.chambers.toList.flatMap ChamberResult.encode

/-- A measured value in a defect entry: a Q beyond 32 bits shows the bound of its sign (R169). A Q of −2^31, whose code is that of the
absent value, counts as beyond 32 bits (DESIGN CHOICE, log 34: the spec does not say which is sent). -/
def measuredBytes (x : Option Int) : List Byte := leIntOpt 4 (x.map (clampInt (-2147483647) 2147483647))

/-- Section, window or chamber number, channel and order of a defect entry. -/
def DefectItem.encode : DefectItem → List Byte
  | .drag => [0, 0, 0, 0]
  | .noise w c q => [1, codeByte w, codeByte c.code, codeByte q]
  | .chamber n => [2, codeByte n.val, 0, 0]

/-- A defect entry. -/
def Defect.encode (x : Defect) : List Byte :=
  x.item.encode ++ [codeByte x.grade.code] ++ measuredBytes x.measured ++ leIntOpt 4 x.limit

/-- The presence byte of the times group. -/
def UnitRecord.presence (r : UnitRecord) : Nat :=
  (if r.startTime.isSome then 1 else 0) + (if r.doneTime.isSome then 2 else 0) + (if r.report.isSome then 4 else 0)

/-- The whole record, as UNIT_GET and REPORT_GET send it (R9, R152). The interruptions are always eight bytes, 00h past the last of the
list (DESIGN CHOICE, log 37: the layout gives the numbers 8 bytes, and R169 lets only the present entries of a list follow its count). -/
def UnitRecord.encode (r : UnitRecord) : List Byte :=
  leBytes 2 r.id ++ textBytes 20 r.serial ++ [codeByte r.slot.val] ++ leBytes 4 r.digest.toNat ++
  [codeByte ((r.report.map ReportPart.toothCount).getD 0), codeByte r.state.code] ++
  [codeByte r.presence] ++ leBytes 4 r.loadTime.toNat ++ timeBytes r.startTime ++ timeBytes r.doneTime ++
  [verdictOpt (r.report.map ReportPart.overall), flagByte r.abort] ++
  r.runIn.encode ++ r.noise.encode ++ r.leak.encode ++
  [codeByte r.interruptions.length, flagByte r.overflow] ++
  textBytes 8 (r.interruptions.map fun n => codeByte n.val) ++
  [codeByte ((r.report.map fun p => p.defects.length).getD 0), codeByte ((r.report.map ReportPart.notListed).getD 0)] ++
  ((r.report.map ReportPart.defects).getD []).flatMap Defect.encode

/-! ## The query replies (spec/10 sections 10.3 and 10.5) -/

/-- The unit id of a station's unit: 0 without one. -/
def State.unitId (i : Option (Fin 8)) (s : State) : Nat :=
  ((i.bind fun i => s.ut.records[i]).map UnitRecord.id).getD 0

/-- The data of a STATUS reply (R162): 25 bytes. -/
def State.statusData (s : State) : List Byte :=
  [flagByte s.rs.scanning, codeByte s.cu.mode.code, codeByte s.cu.rl, codeByte s.cu.mask, codeByte s.cu.stack.length,
    codeByte s.halt.code] ++
  leBytes 2 (s.unitId s.unit1) ++ leBytes 2 (s.unitId s.unit2) ++ [codeByte s.ut.count, codeByte s.rs.source.code] ++
  leBytes 2 s.cs.freeBlocks ++
  [codeByte s.cs.vib.state.code, codeByte s.cs.slow.state.code, codeByte s.cs.leak.state.code] ++
  leBytes 2 s.lp.badFrames ++ leBytes 2 s.lp.overruns ++ leBytes 4 s.now.toNat

/-- The family name, Weckton (R163). -/
def familyText : List Byte := [0x57, 0x65, 0x63, 0x6B, 0x74, 0x6F, 0x6E]

/-- The part, T-860 (R163). -/
def partText : List Byte := [0x54, 0x2D, 0x38, 0x36, 0x30]

/-- The data of an IDENTIFY reply (R163). -/
def identityData : List Byte :=
  textBytes 8 familyText ++ textBytes 8 partText ++ [Config.boardRevision, 16] ++ leBytes 2 slotSize ++
  leBytes 4 Config.boardSerial.toNat

/-- A hold frame (spec/10 section 10.5). -/
def HoldFrame.encode (f : HoldFrame) : List Byte :=
  [codeByte f.number.val, codeByte f.severity, codeByte f.vector.code, codeByte f.savedRl] ++ leBytes 4 f.taken.toNat

/-- The data of a COND_LIST reply (R142). -/
def State.condListData (s : State) : List Byte :=
  [codeByte s.cu.mode.code, codeByte s.cu.rl, codeByte s.cu.mask, codeByte s.halt.code, codeByte s.cu.stack.length] ++
  s.cu.stack.reverse.flatMap HoldFrame.encode ++
  (List.finRange 20).flatMap fun n => [codeByte (s.cond n).severity, codeByte (s.condCode n)]

/-- The data of a COND_GET reply (R142); the frame is zero when the condition is not on the stack. -/
def State.condGetData (n : Fin 20) (s : State) : List Byte :=
  [codeByte n.val, codeByte (conditionKind n).code, codeByte (s.cond n).severity, codeByte (s.cond n).vector.code,
    codeByte (s.condCode n)] ++ timeBytes (s.cond n).lastActive ++
  ((s.cu.stack.find? fun f => decide (f.number = n)).map HoldFrame.encode).getD (List.replicate 8 0)

/-- How many descriptors of a stream are not FREE (R81). -/
def CaptureStore.busyDescriptors (c : CaptureStore) : StreamId → Nat
  | .vib => (c.vibDescs.toList.filter fun d => decide (d.state ≠ .free)).length
  | .slow => (c.slowDescs.toList.filter fun d => decide (d.state ≠ .free)).length
  | .leak => (c.leakDescs.toList.filter fun d => decide (d.state ≠ .free)).length

/-- A plan's reservation, weight and threshold: 4 bytes. -/
def Plan.encode (p : Plan) : List Byte := leBytes 2 p.res ++ [codeByte p.weight, codeByte p.threshold]

/-- A stream block of a STREAM_GET reply (R81): 27 bytes. The target fields are 0 outside PENDING_PLAN. -/
def State.streamData (st : StreamId) (s : State) : List Byte :=
  let x := s.stream st
  [codeByte x.state.code, flagByte (s.wanted st)] ++ x.plan.encode ++
  (match x.state, x.target with
    | .pendingPlan, some p => p.encode
    | _, _ => [0, 0, 0, 0]) ++
  leBytes 2 x.heldRes ++ leBytes 2 x.heldPool ++ leBytes 2 (s.cs.cap st) ++ leBytes 2 (s.cs.obtainable st) ++
  [codeByte (s.cs.busyDescriptors st)] ++ leBytes 4 (x.lastSeq.getD 0xFFFFFFFF).toNat ++ leBytes 4 x.dropped

/-- The range faults in one number: the sum of 2^i over the faulted channels (spec/10 section 10.5). -/
def FrontEnd.faultCode (a : FrontEnd) : Nat :=
  ((List.finRange 10).map fun i => if a.faults[i] then 2 ^ i.val else 0).sum

/-- The data of a STREAM_GET reply (R81): 101 bytes. -/
def State.streamGetData (s : State) : List Byte :=
  s.streamData .vib ++ s.streamData .slow ++ s.streamData .leak ++
  leBytes 2 s.cs.freeBlocks ++ leBytes 2 s.cs.poolSize ++ leBytes 2 s.cs.poolFree ++ leBytes 2 s.afe.faultCode ++
  leBytes 4 s.afe.revolution.toNat ++ leBytes 4 (slotNumber s.afe.slowSlot).toNat ++ leBytes 4 (slotNumber s.afe.leakSlot).toNat

/-! ## Notices (R165, spec/10 section 10.3) -/

/-- Key kind and key index of a notice. -/
def NoticeKey.encode : NoticeKey → List Byte
  | .unit i => [1, codeByte i.val]
  | .condition n => [2, codeByte n.val]
  | .stream st => [3, codeByte (streamCode st)]
  | .storeDone => [4, 0]
  | .reportReady => [5, 0]

/-- The content of a notice. -/
def NoticeContent.encode : NoticeContent → List Byte
  | .unit id st abort t =>
    leBytes 2 id ++ [codeByte ((st.map UnitState.code).getD 0), flagByte abort] ++ leBytes 4 t.toNat
  | .condition st last rl depth halt t =>
    [codeByte st] ++ timeBytes last ++ [codeByte rl, codeByte depth, codeByte halt.code] ++ leBytes 4 t.toNat
  | .stream st dropped room t => [codeByte st.code] ++ leBytes 4 dropped ++ leBytes 2 room ++ leBytes 4 t.toNat
  | .storeDone k st why digest =>
    [codeByte k.val, codeByte st.code, codeOpt (why.map Reason.code)] ++ leBytes 4 (digest.getD 0).toNat
  | .reportReady n head t => [codeByte n] ++ leBytes 2 (head.getD 0) ++ leBytes 4 t.toNat

/-- The frame of a notice: kind 40h, tag 0 (R165). -/
def Notice.frame (n : Notice) : Frame := ⟨0x40, 0, n.key.encode ++ n.content.encode⟩

/-- The frame in transmission. -/
def Sending.frame : Sending → Frame
  | .reply f => f
  | .notice n => n.frame

/-! ## Taking the queries and the report commands -/

/-- UNIT_GET (R9). Id 0 is never carried. -/
def takeUnitGet (id : Nat) (s : State) : State × Reply :=
  match (s.ut.findId id).bind fun i => s.ut.records[i] with
  | some r => (s, answer .ok r.encode)
  | none => (s, refuse .notFound)

/-- STREAM_GET (R81). -/
def takeStreamGet (s : State) : State × Reply := (s, answer .ok s.streamGetData)

/-- COND_LIST (R142). -/
def takeCondList (s : State) : State × Reply := (s, answer .ok s.condListData)

/-- COND_GET (R142). -/
def takeCondGet (b : Byte) : State → State × Reply := withCondition b fun n s => (s, answer .ok (s.condGetData n))

/-- STATUS (R162). -/
def takeStatus (s : State) : State × Reply := (s, answer .ok s.statusData)

/-- IDENTIFY (R163). -/
def takeIdentify (s : State) : State × Reply := (s, answer .ok identityData)

/-- REPORT_GET (R153): the report of the unit at the head of the queue. -/
def takeReportGet (s : State) : State × Reply :=
  match s.reports with
  | [] => (s, refuse .empty)
  | id :: _ =>
    match (s.ut.findId id).bind fun i => s.ut.records[i] with
    | some r => (s, answer .ok r.encode)
    | none => (s, refuse .empty)

/-- Record `i` is freed (R17): the slot's in-use count falls, and its UNIT notice shows FREE (R6), with the abort mark that the
record held (DESIGN CHOICE, log 33: R6 gives the notice of a freed record no value for the mark). -/
def State.freeUnit (i : Fin 8) (s : State) : State :=
  match s.ut.records[i] with
  | none => s
  | some r =>
    ((s.setUt { s.ut with records := s.ut.records.set i none }).mapSlot r.slot fun x =>
      { x with inUse := x.inUse - 1 }).raise (.unit i) (.unit r.id none r.abort s.now)

/-- The record that carries `id` is freed, where there is one. -/
def State.freeId (id : Nat) (s : State) : State :=
  match s.ut.findId id with
  | some i => s.freeUnit i
  | none => s

/-- REPORT_RELEASE (R154). -/
def takeReportRelease (id : Nat) (s : State) : State × Reply :=
  match s.reports with
  | [] => (s, refuse .notFound)
  | head :: rest =>
    if head = id then
      let t := ((s.setReports rest).freeId id).reportNotice
      (t, answer .ok (codeByte t.reports.length :: leBytes 2 (t.reports.head?.getD 0)))
    else (s, refuse (if rest.contains id then .wrongReport else .notFound))

end Sys2Proof.Machine
end

