-- ==== Sys2Proof/Machine/Commands.lean ====
section
/-! DEFINITION. The commands that start, stop and advance a unit (R10, R18, R50), and the taking of any command by its owner (R160). -/

namespace Sys2Proof.Machine

/-! ## START_RUN (R10) -/

/-- START_RUN of the LOADED record `i`, with its recipe (R10): the record runs, its windows are set up, SLOW captures, the line
silence timer is armed, and the Profile Engine begins or holds (R42). -/
def State.startRun (i : Fin 8) (recipe : Recipe) (s : State) : State :=
  let t := s.mapUnit i fun r => { r with startTime := some s.now, runIn := { r.runIn with state := .inProgress } }
  ((((t.enterState i .running).setUpWindows recipe).syncStreams).armSilence).startProfile recipe

/-- START_RUN is taken by the Unit Table (R10). -/
def takeStartRun (id : Nat) (s : State) : State × Reply :=
  match s.ut.findId id with
  | none => (s, refuse .notFound)
  | some i =>
    match s.ut.records[i] with
    | none => (s, refuse .notFound)
    | some r => if r.state = .loaded then (s.startRun i (s.recipeOf r), refuse .ok) else (s, refuse .wrongState)

/-! ## ABORT_UNIT (R18, R19) -/

/-- The abort of a LOADED record `i` (R18): its run-in section is ABORTED, its windows are set up and closed at once, and it
enters RUN_DONE. -/
def State.abortLoaded (i : Fin 8) (recipe : Recipe) (s : State) : State :=
  let t := s.mapUnit i fun r => { r with runIn := { r.runIn with state := .aborted, verdict := some .aborted, steps := 0 } }
  ((((t.setUpWindows recipe).closeWindows).enterState i .runDone).checkTransfer)

/-- What an abort does by the state of record `i` (R18, R19). -/
def State.abortByState (i : Fin 8) (r : UnitRecord) (s : State) : State :=
  match r.state with
  | .loaded => s.abortLoaded i (s.recipeOf r)
  | .running => s.abortProfile
  | .runDone | .inTransfer | .done => s
  | .atLeak => s.decideLeak
  | .leaking => s.abortChambers.checkLeakEnd

/-- ABORT_UNIT is taken by the Unit Table (R18). -/
def takeAbortUnit (id : Nat) (s : State) : State × Reply :=
  match s.ut.findId id with
  | none => (s, refuse .notFound)
  | some i =>
    match s.ut.records[i] with
    | none => (s, refuse .notFound)
    | some r =>
      if r.state = .done then (s, refuse .wrongState)
      else
        let t := (s.mapUnit i fun r => { r with abort := true }).unitNotice i
        (t.abortByState i r, refuse .ok)

/-! ## ADVANCE_STEP (R50) -/

/-- ADVANCE_STEP is taken by the Profile Engine (R50). -/
def takeAdvanceStep (s : State) : State × Reply :=
  if s.cu.mode = .production then (s, refuse .protected_)
  else if s.pe.phase = .stepping then (s.endCurrent, refuse .ok)
  else (s, refuse .wrongState)

/-! ## RESTART (R164) -/

/-- RESTART is taken by the Line Port (R164): the reset follows its reply. -/
def takeRestart (s : State) : State × Reply := (s.setLp { s.lp with restartDue := true }, refuse .ok)

/-! ## Taking and answering (R160, R161) -/

/-- A command is taken by its owning block, which answers with the reply body (R160). -/
def take (c : Command) : State → State × Reply :=
  match c with
  | .status => takeStatus
  | .identify => takeIdentify
  | .restart => takeRestart
  | .loadUnit slot serial => takeLoadUnit slot serial
  | .startRun id => takeStartRun id
  | .abortUnit id => takeAbortUnit id
  | .unitGet id => takeUnitGet id
  | .advanceStep => takeAdvanceStep
  | .streamGet => takeStreamGet
  | .condList => takeCondList
  | .condGet n => takeCondGet n
  | .condAck n => takeCondAck n
  | .condInject n => takeCondInject n
  | .condConfig n severity vector => takeCondConfig n severity vector
  | .setMask level => takeSetMask level
  | .resume => takeResume
  | .reportGet => takeReportGet
  | .reportRelease id => takeReportRelease id
  | .slotErase k => takeSlotErase k
  | .slotBlank k => takeSlotBlank k
  | .slotWrite k offset data => takeSlotWrite k offset data
  | .slotClose k => takeSlotClose k
  | .slotVerify k digest => takeSlotVerify k digest
  | .slotRead k offset length => takeSlotRead k offset length
  | .slotInfo k => takeSlotInfo k

/-- A kind that is served while the start-up scan runs: STATUS and IDENTIFY (R160, R34). -/
def servedInScan (kind : Byte) : Bool := decide (kind = 0x01) || decide (kind = 0x02)

/-- The answer to a frame in the head: the tests of R160 in their order, then the owner's taking. -/
def serve (f : Frame) (s : State) : State × Reply :=
  match bodyLimits f.kind with
  | none => (s, refuse .unknownKind)
  | some (least, most) =>
    if s.rs.scanning ∧ ¬servedInScan f.kind then (s, refuse .starting)
    else if ¬within least most f.body.length then (s, refuse .badLength)
    else match readCommand f.kind f.body with
      | none => (s, refuse .unknownKind)
      | some c => take c s

/-- The reply to a command frame (R161). -/
def replyTo (f : Frame) (r : Reply) : Frame := ⟨f.kind + 0x80, f.tag, r⟩

/-- A frame that has reached the head is handled, and its reply is ready (R160, R161). -/
def State.handle (f : Frame) (s : State) : State :=
  let r := serve f s
  r.1.setLp { r.1.lp with reply := some (replyTo f r.2) }

/-! ## Holding (R158, R159, R167) -/

/-- A frame that passes its check restarts the line silence timer (R167). -/
def State.restartSilence (s : State) : State :=
  match s.lp.silence with
  | .disarmed => s
  | _ => s.setLp { s.lp with silence := .running s.rs.live.silence }

/-- A frame is discarded and counted (R158). -/
def State.badFrame (s : State) : State := s.setLp { s.lp with badFrames := count16 s.lp.badFrames }

/-- A command frame is offered to the holding (R159). -/
def State.offer (f : Frame) (s : State) : State :=
  match s.lp.head, s.lp.second with
  | none, _ => (s.setLp { s.lp with head := some f }).handle f
  | some _, none => s.setLp { s.lp with second := some f }
  | some _, some _ => s.setLp { s.lp with overruns := count16 s.lp.overruns }

/-- A frame has passed its check (R158): the timer restarts, and a command frame is offered to the holding. -/
def State.passFrame (f : Frame) (s : State) : State :=
  let t := s.restartSilence
  if 0x40 ≤ f.kind.toNat then t.badFrame else t.offer f

/-- A command frame arrives whole (log 1): a body above 1,024 bytes ends it in the header (R157). A partial frame that bytes of
FRAME_RECEIVED have left in the receiver, and the state of the receiver, stand as they are (DESIGN CHOICE, log 36). -/
def State.arriveFrame (f : Frame) (s : State) : State := if 1024 < f.body.length then s.badFrame else s.passFrame f

/-! ## The receiver (R157, R158) -/

/-- The receiver enters a state. -/
def State.setReceiver (r : Receiver) (s : State) : State := s.setLp { s.lp with receiver := r }

/-- The body length has been taken (R157). -/
def State.takeHeader (kind tag lo hi : Byte) (s : State) : State :=
  let n := leNat [lo, hi]
  if 1024 < n then (s.setReceiver .hunt).badFrame
  else if n = 0 then s.setReceiver (.check kind tag [] none)
  else s.setReceiver (.body kind tag n [])

/-- The second check byte has been received (R158). -/
def State.checkFrame (f : Frame) (first second : Byte) (s : State) : State :=
  let t := s.setReceiver .hunt
  if f.checkBytes = [first, second] then t.passFrame f else t.badFrame

/-- A byte arrives on the host line (R157). -/
def State.takeByte (s : State) (b : Byte) : State :=
  match s.lp.receiver with
  | .hunt => if b = startByte then s.setReceiver (.header []) else s
  | .header [kind, tag, lo] => s.takeHeader kind tag lo b
  | .header got => s.setReceiver (.header (got ++ [b]))
  | .body kind tag n got =>
    if n ≤ got.length + 1 then s.setReceiver (.check kind tag (got ++ [b]) none)
    else s.setReceiver (.body kind tag n (got ++ [b]))
  | .check kind tag body none => s.setReceiver (.check kind tag body (some b))
  | .check kind tag body (some first) => s.checkFrame ⟨kind, tag, body⟩ first b

/-- Bytes arrive one after another. -/
def State.takeBytes (bytes : List Byte) (s : State) : State := bytes.foldl State.takeByte s

/-- More than 5 ms pass inside a frame (R157): the partial frame is discarded and counted. In HUNT time has no limit. -/
def State.gapTimeout (s : State) : State :=
  match s.lp.receiver with
  | .hunt => s
  | _ => (s.setReceiver .hunt).badFrame

/-! ## Reset (R20, R40, R63, R83, R104, R125, R144, R145, R168) -/

/-- What every kind of reset leaves before RESET_OCCURRED is taken: every block in its reset state, the slots' non-volatile
items, the lines and the mode as they stand. -/
def State.cleared (s : State) : State where
  pending := s.pending
  clockUs := 0
  freeCount := s.freeCount
  lines := s.lines
  lp := .atReset
  ut := .atReset
  rs := ⟨Vector.ofFn fun k => { s.rs.slots[k] with inUse := 0 }, true, defaultConfig, .defaults⟩
  pe := .atReset
  afe := .atReset
  cs := .atReset
  oa := .atReset
  lkc := .atReset
  cu := ⟨Vector.ofFn fun n => .atReset conditionTable[n], [], 0, 0, s.cu.mode⟩
  reports := []

/-- A reset (R144, R145): the line sources are judged, RESET_OCCURRED is taken, then ESTOP where its line is asserted, and the
halts that follow reach the blocks (log 20). -/
def State.doReset (s : State) : State :=
  ((((s.cleared.judgeLines).sourceInstant 1).take 1).takingCheck [1]).applyHalts .empty

/-! ## The transmitter (R166) -/

/-- The frame in the second place moves to the head and is handled (R159, R160). -/
def State.freeHead (s : State) : State :=
  let t := s.setLp { s.lp with head := s.lp.second, second := none }
  match t.lp.head with
  | some f => t.handle f
  | none => t

/-- The transmitter finishes its frame (R166): a sent reply frees its place, or brings the reset that RESTART asked for (R164). -/
def State.frameSent (s : State) : State :=
  match s.lp.sending with
  | none => s
  | some (.notice _) => s.setLp { s.lp with sending := none }
  | some (.reply _) => if s.lp.restartDue then s.doReset else (s.setLp { s.lp with sending := none }).freeHead

/-- The line silence timer expires (R167). -/
def State.silenceExpiry (s : State) : State :=
  match s.lp.silence with
  | .running left =>
    let t := s.elapseMs left
    react s ((t.setLp { t.lp with silence := .expired }).sourceInstant 2)
  | _ => s

end Sys2Proof.Machine
end

