-- ==== Sys2Proof/Machine/HostFamily.lean ====
section
/-! DEFINITION. The host commands of spec/opcode_table.json: each is the arrival of its frame, whole and with its check passed, with
the tag and the body fields of spec/10 section 10.2 (log 1). What follows from the arrival is in Machine/Commands.lean. -/

namespace Sys2Proof.Machine

/-- The frame that a host command of spec/opcode_table.json is (spec/10 section 10.2, log 1); none for an event. -/
def commandFrame (c : Instr) : Option Frame :=
  match c with
  | .status tag => some ⟨0x01, tag, []⟩
  | .identify tag => some ⟨0x02, tag, []⟩
  | .restart tag => some ⟨0x03, tag, []⟩
  | .loadUnit tag slot serial => some ⟨0x08, tag, slot :: serial⟩
  | .startRun tag id => some ⟨0x09, tag, leBytes 2 id.toNat⟩
  | .abortUnit tag id => some ⟨0x0A, tag, leBytes 2 id.toNat⟩
  | .unitGet tag id => some ⟨0x0B, tag, leBytes 2 id.toNat⟩
  | .advanceStep tag => some ⟨0x0C, tag, []⟩
  | .streamGet tag => some ⟨0x0D, tag, []⟩
  | .condList tag => some ⟨0x10, tag, []⟩
  | .condGet tag number => some ⟨0x11, tag, [number]⟩
  | .condAck tag number => some ⟨0x12, tag, [number]⟩
  | .condInject tag number => some ⟨0x13, tag, [number]⟩
  | .condConfig tag number severity vector => some ⟨0x14, tag, [number, severity, vector]⟩
  | .setMask tag level => some ⟨0x15, tag, [level]⟩
  | .resume tag => some ⟨0x16, tag, []⟩
  | .reportGet tag => some ⟨0x18, tag, []⟩
  | .reportRelease tag id => some ⟨0x19, tag, leBytes 2 id.toNat⟩
  | .slotErase tag slot => some ⟨0x20, tag, [slot]⟩
  | .slotBlank tag slot => some ⟨0x21, tag, [slot]⟩
  | .slotWrite tag slot offset data => some ⟨0x22, tag, slot :: (leBytes 2 offset.toNat ++ data)⟩
  | .slotClose tag slot => some ⟨0x23, tag, [slot]⟩
  | .slotVerify tag slot digest => some ⟨0x24, tag, slot :: leBytes 4 digest.toNat⟩
  | .slotRead tag slot offset length => some ⟨0x25, tag, slot :: (leBytes 2 offset.toNat ++ leBytes 2 length.toNat)⟩
  | .slotInfo tag slot => some ⟨0x26, tag, [slot]⟩
  | .powerOn | .resetLine | .startupScanEnd | .frameReceived _ | .frameGapTimeout | .frameSent | .lineSilenceExpiry => none
  | .eraseComplete _ | .closeComplete _ | .arrive2Rise | .transferTimerExpiry | .transferStart | .leakStart => none
  | .enterRunDone | .unitDone | .setpointUpdate | .driveFeedback _ _ _ | .stepTimerExpiry | .windowSettleExpiry => none
  | .windowDrainClose | .encoderIndex _ _ | .revolutionTimeout | .analysisComplete | .timeSlotStart _ | .timeSlotEnd _ => none
  | .planApply | .slowSample _ | .leakSample _ | .fillGrant | .fillTimeout _ | .settleExpiry _ | .measureTimerExpiry _ => none
  | .attemptEvaluation _ | .ventExpiry _ | .resetVentEnd | .conditionLineChange _ _ | .keyChange _ | .conditionTake => none
  | .encoderPulse _ _ _ => none

/-- The command that a host command of spec/opcode_table.json is, as its owner takes it (R160); none for an event. -/
def hostCommand (c : Instr) : Option Command :=
  match c with
  | .status _ => some .status
  | .identify _ => some .identify
  | .restart _ => some .restart
  | .loadUnit _ slot serial => some (.loadUnit slot serial)
  | .startRun _ id => some (.startRun id.toNat)
  | .abortUnit _ id => some (.abortUnit id.toNat)
  | .unitGet _ id => some (.unitGet id.toNat)
  | .advanceStep _ => some .advanceStep
  | .streamGet _ => some .streamGet
  | .condList _ => some .condList
  | .condGet _ number => some (.condGet number)
  | .condAck _ number => some (.condAck number)
  | .condInject _ number => some (.condInject number)
  | .condConfig _ number severity vector => some (.condConfig number severity vector)
  | .setMask _ level => some (.setMask level)
  | .resume _ => some .resume
  | .reportGet _ => some .reportGet
  | .reportRelease _ id => some (.reportRelease id.toNat)
  | .slotErase _ slot => some (.slotErase slot)
  | .slotBlank _ slot => some (.slotBlank slot)
  | .slotWrite _ slot offset data => some (.slotWrite slot offset.toNat data)
  | .slotClose _ slot => some (.slotClose slot)
  | .slotVerify _ slot digest => some (.slotVerify slot digest)
  | .slotRead _ slot offset length => some (.slotRead slot offset.toNat length.toNat)
  | .slotInfo _ slot => some (.slotInfo slot)
  | .powerOn | .resetLine | .startupScanEnd | .frameReceived _ | .frameGapTimeout | .frameSent | .lineSilenceExpiry => none
  | .eraseComplete _ | .closeComplete _ | .arrive2Rise | .transferTimerExpiry | .transferStart | .leakStart => none
  | .enterRunDone | .unitDone | .setpointUpdate | .driveFeedback _ _ _ | .stepTimerExpiry | .windowSettleExpiry => none
  | .windowDrainClose | .encoderIndex _ _ | .revolutionTimeout | .analysisComplete | .timeSlotStart _ | .timeSlotEnd _ => none
  | .planApply | .slowSample _ | .leakSample _ | .fillGrant | .fillTimeout _ | .settleExpiry _ | .measureTimerExpiry _ => none
  | .attemptEvaluation _ | .ventExpiry _ | .resetVentEnd | .conditionLineChange _ _ | .keyChange _ | .conditionTake => none
  | .encoderPulse _ _ _ => none

/-- A command frame of a kind arrives. -/
def sendFrame (kind tag : Byte) (body : List Byte) (s : State) : Host.Outcome State Fault Refusal :=
  finish (s.arriveFrame ⟨kind, tag, body⟩)

/-- STATUS (R162). -/
def execStatus (tag : Byte) (s : State) : Host.Outcome State Fault Refusal := sendFrame 0x01 tag [] s

/-- IDENTIFY (R163). -/
def execIdentify (tag : Byte) (s : State) : Host.Outcome State Fault Refusal := sendFrame 0x02 tag [] s

/-- RESTART (R164). -/
def execRestart (tag : Byte) (s : State) : Host.Outcome State Fault Refusal := sendFrame 0x03 tag [] s

/-- LOAD_UNIT (R7, R8). -/
def execLoadUnit (tag slot : Byte) (serial : List Byte) (s : State) : Host.Outcome State Fault Refusal :=
  sendFrame 0x08 tag (slot :: serial) s

/-- START_RUN (R10). -/
def execStartRun (tag : Byte) (id : BitVec 16) (s : State) : Host.Outcome State Fault Refusal :=
  sendFrame 0x09 tag (leBytes 2 id.toNat) s

/-- ABORT_UNIT (R18). -/
def execAbortUnit (tag : Byte) (id : BitVec 16) (s : State) : Host.Outcome State Fault Refusal :=
  sendFrame 0x0A tag (leBytes 2 id.toNat) s

/-- UNIT_GET (R9). -/
def execUnitGet (tag : Byte) (id : BitVec 16) (s : State) : Host.Outcome State Fault Refusal :=
  sendFrame 0x0B tag (leBytes 2 id.toNat) s

/-- ADVANCE_STEP (R50). -/
def execAdvanceStep (tag : Byte) (s : State) : Host.Outcome State Fault Refusal := sendFrame 0x0C tag [] s

/-- STREAM_GET (R81). -/
def execStreamGet (tag : Byte) (s : State) : Host.Outcome State Fault Refusal := sendFrame 0x0D tag [] s

/-- COND_LIST (R142). -/
def execCondList (tag : Byte) (s : State) : Host.Outcome State Fault Refusal := sendFrame 0x10 tag [] s

/-- COND_GET (R142). -/
def execCondGet (tag number : Byte) (s : State) : Host.Outcome State Fault Refusal := sendFrame 0x11 tag [number] s

/-- COND_ACK (R137). -/
def execCondAck (tag number : Byte) (s : State) : Host.Outcome State Fault Refusal := sendFrame 0x12 tag [number] s

/-- COND_INJECT (R138). -/
def execCondInject (tag number : Byte) (s : State) : Host.Outcome State Fault Refusal := sendFrame 0x13 tag [number] s

/-- COND_CONFIG (R141). -/
def execCondConfig (tag number severity vector : Byte) (s : State) : Host.Outcome State Fault Refusal :=
  sendFrame 0x14 tag [number, severity, vector] s

/-- SET_MASK (R131). -/
def execSetMask (tag level : Byte) (s : State) : Host.Outcome State Fault Refusal := sendFrame 0x15 tag [level] s

/-- RESUME (R139). -/
def execResume (tag : Byte) (s : State) : Host.Outcome State Fault Refusal := sendFrame 0x16 tag [] s

/-- REPORT_GET (R153). -/
def execReportGet (tag : Byte) (s : State) : Host.Outcome State Fault Refusal := sendFrame 0x18 tag [] s

/-- REPORT_RELEASE (R154). -/
def execReportRelease (tag : Byte) (id : BitVec 16) (s : State) : Host.Outcome State Fault Refusal :=
  sendFrame 0x19 tag (leBytes 2 id.toNat) s

/-- SLOT_ERASE (R24). -/
def execSlotErase (tag slot : Byte) (s : State) : Host.Outcome State Fault Refusal := sendFrame 0x20 tag [slot] s

/-- SLOT_BLANK (R26). -/
def execSlotBlank (tag slot : Byte) (s : State) : Host.Outcome State Fault Refusal := sendFrame 0x21 tag [slot] s

/-- SLOT_WRITE (R27). -/
def execSlotWrite (tag slot : Byte) (offset : BitVec 16) (data : List Byte) (s : State) : Host.Outcome State Fault Refusal :=
  sendFrame 0x22 tag (slot :: (leBytes 2 offset.toNat ++ data)) s

/-- SLOT_CLOSE (R28). -/
def execSlotClose (tag slot : Byte) (s : State) : Host.Outcome State Fault Refusal := sendFrame 0x23 tag [slot] s

/-- SLOT_VERIFY (R31). -/
def execSlotVerify (tag slot : Byte) (digest : Word32) (s : State) : Host.Outcome State Fault Refusal :=
  sendFrame 0x24 tag (slot :: leBytes 4 digest.toNat) s

/-- SLOT_READ (R36). -/
def execSlotRead (tag slot : Byte) (offset length : BitVec 16) (s : State) : Host.Outcome State Fault Refusal :=
  sendFrame 0x25 tag (slot :: (leBytes 2 offset.toNat ++ leBytes 2 length.toNat)) s

/-- SLOT_INFO (R37). -/
def execSlotInfo (tag slot : Byte) (s : State) : Host.Outcome State Fault Refusal := sendFrame 0x26 tag [slot] s

end Sys2Proof.Machine
end

