-- ==== Sys2Proof/Machine/LeakStandFamily.lean ====
section
/-! DEFINITION. The events of the leak stand (spec/06). An event whose guard does not hold changes nothing (log 4). -/

namespace Sys2Proof.Machine

/-- LEAK_SAMPLE (R65, R66, R109, R114, R128). -/
def execLeakSample (x : LeakSample) (s : State) : Host.Outcome State Fault Refusal := finish (react s (s.takeLeak x))

/-- LEAK_START (R16). -/
def execLeakStart (s : State) : Host.Outcome State Fault Refusal := finish s.decideLeak

/-- UNIT_DONE (R17). -/
def execUnitDone (s : State) : Host.Outcome State Fault Refusal := finish s.checkLeakEnd

/-- FILL_GRANT (R108). -/
def execFillGrant (s : State) : Host.Outcome State Fault Refusal := finish s.checkGrant

/-- The phase timer of chamber `c`, where the chamber is in phase `p` with its timer running. -/
def State.phaseTimer (p : ChamberPhase) (c : Fin 4) (s : State) : Timer :=
  if (s.chamber c).phase = p then (s.chamber c).timer else none

/-- The fill timeout of chamber `c` expires (R110): the attempt is counted GROSS, and the arbiter checks. -/
def State.fillTimeout (c : Fin 4) (s : State) : State :=
  match s.phaseTimer .fill c with
  | none => s
  | some left => ((s.elapseMs left).countAttempt c (.bare .gross)).checkGrant

/-- FILL_TIMEOUT (R110). -/
def execFillTimeout (chamber : Fin 4) (s : State) : Host.Outcome State Fault Refusal := finish (s.fillTimeout chamber)

/-- The settle time of chamber `c` expires (R112). -/
def State.settleEnd (c : Fin 4) (s : State) : State :=
  match s.phaseTimer .settle c with
  | none => s
  | some left => (s.elapseMs left).enterMeasure c

/-- SETTLE_EXPIRY (R112). -/
def execSettleExpiry (chamber : Fin 4) (s : State) : Host.Outcome State Fault Refusal := finish (s.settleEnd chamber)

/-- The measure time of chamber `c` expires (R114): the item becomes yes, and the attempt is evaluated where its last slot has
ended. -/
def State.measureEnd (c : Fin 4) (s : State) : State :=
  match s.phaseTimer .measure c with
  | none => s
  | some left =>
    let t := s.elapseMs left
    let x := t.chamber c
    (t.setChamber c { x with timer := none, measure := x.measure.map fun m => { m with expired := true } }).evaluate c

/-- MEASURE_TIMER_EXPIRY (R114). -/
def execMeasureTimerExpiry (chamber : Fin 4) (s : State) : Host.Outcome State Fault Refusal := finish (s.measureEnd chamber)

/-- ATTEMPT_EVALUATION (R115 to R118). -/
def execAttemptEvaluation (chamber : Fin 4) (s : State) : Host.Outcome State Fault Refusal := finish (s.evaluate chamber)

/-- A chamber that has vented goes where its after vent points (R119). -/
def State.leaveVent (c : Fin 4) (s : State) : State :=
  match (s.chamber c).afterVent with
  | some .done => s.setChamber c ⟨.done, none, none, none⟩
  | some .requeue => (s.joinQueue c).checkGrant
  | some .idle => s.setChamber c .atRest
  | none => s.setChamber c .atRest

/-- The vent time of chamber `c` expires (R119): it leaves VENT, and the end of the unit's test is checked (R123, R124). -/
def State.ventExpiry (c : Fin 4) (s : State) : State :=
  match s.phaseTimer .vent c with
  | none => s
  | some left => ((s.elapseMs left).leaveVent c).checkLeakEnd

/-- VENT_EXPIRY (R119). -/
def execVentExpiry (chamber : Fin 4) (s : State) : Host.Outcome State Fault Refusal := finish (s.ventExpiry chamber)

/-- The reset vent ends (R125), once the scan has set its end. -/
def State.resetVentEnd (s : State) : State :=
  match s.lkc.resetVent with
  | .running (some stop) =>
    let t := s.elapseTo stop
    (t.setLkc { t.lkc with resetVent := .over }).checkGrant
  | _ => s

/-- RESET_VENT_END (R125). -/
def execResetVentEnd (s : State) : Host.Outcome State Fault Refusal := finish s.resetVentEnd

end Sys2Proof.Machine
end

