-- ==== Sys2Proof/Machine/PartFamily.lean ====
section
/-! DEFINITION. The events of the part itself: resets, the start-up scan, the host line, the slot operations, the field lines and the
taking of conditions. An event whose guard does not hold changes nothing (log 4). -/

namespace Sys2Proof.Machine

/-- POWER_ON (R20): a reset; the slots' non-volatile items survive the loss of power (R21). -/
def execPowerOn (s : State) : Host.Outcome State Fault Refusal := finish s.doReset

/-- RESET_LINE (R20). -/
def execResetLine (s : State) : Host.Outcome State Fault Refusal := finish s.doReset

/-- STARTUP_SCAN_END (R34, R144). -/
def execStartupScanEnd (s : State) : Host.Outcome State Fault Refusal := finish s.endScan

/-- FRAME_RECEIVED (R157, R158). -/
def execFrameReceived (bytes : List Byte) (s : State) : Host.Outcome State Fault Refusal := finish (s.takeBytes bytes)

/-- FRAME_GAP_TIMEOUT (R157). -/
def execFrameGapTimeout (s : State) : Host.Outcome State Fault Refusal := finish s.gapTimeout

/-- FRAME_SENT (R166, R164). -/
def execFrameSent (s : State) : Host.Outcome State Fault Refusal := finish s.frameSent

/-- LINE_SILENCE_EXPIRY (R167). -/
def execLineSilenceExpiry (s : State) : Host.Outcome State Fault Refusal := finish s.silenceExpiry

/-- ERASE_COMPLETE (R25). -/
def execEraseComplete (slot : Fin 16) (s : State) : Host.Outcome State Fault Refusal := finish (s.completeErase slot)

/-- CLOSE_COMPLETE (R29). -/
def execCloseComplete (slot : Fin 16) (s : State) : Host.Outcome State Fault Refusal := finish (s.completeClose slot)

/-- CONDITION_LINE_CHANGE (R127). -/
def execConditionLineChange (line : CondLine) (asserted : Bool) (s : State) : Host.Outcome State Fault Refusal :=
  finish (s.changeLine line asserted)

/-- KEY_CHANGE (R130). -/
def execKeyChange (asserted : Bool) (s : State) : Host.Outcome State Fault Refusal := finish (s.changeKey asserted)

/-- CONDITION_TAKE (R133, R134): the taking check. -/
def execConditionTake (s : State) : Host.Outcome State Fault Refusal := finish ((s.takingCheck []).applyHalts s.halt)

end Sys2Proof.Machine
end

