-- ==== Sys2Proof/Machine/RunStandFamily.lean ====
section
/-! DEFINITION. The events of the run stand: the conveyor, the Profile Engine, the acquisition, the Capture Store and the Order
Analyzer. An event whose guard does not hold changes nothing (log 4). -/

namespace Sys2Proof.Machine

/-! ## The Unit Table and the conveyor -/

/-- ARRIVE2_RISE (R13, R16). -/
def execArrive2Rise (s : State) : Host.Outcome State Fault Refusal := finish s.arrive

/-- The transfer timer expires (R14). -/
def State.transferExpiry (s : State) : State :=
  match s.ut.transferTimer with
  | none => s
  | some left =>
    let t := s.elapseMs left
    react s ((t.setUt { t.ut with transferTimer := none }).sourceInstant 9)

/-- TRANSFER_TIMER_EXPIRY (R14). -/
def execTransferTimerExpiry (s : State) : Host.Outcome State Fault Refusal := finish s.transferExpiry

/-- TRANSFER_START (R12). -/
def execTransferStart (s : State) : Host.Outcome State Fault Refusal := finish s.checkTransfer

/-- ENTER_RUN_DONE (R11). -/
def execEnterRunDone (s : State) : Host.Outcome State Fault Refusal := finish s.checkRunDone

/-! ## The Profile Engine -/

/-- Update n + 1 is due at 2(n + 1) ms after the reset (R44, log 3). -/
def State.setpointDue (s : State) : State := (s.elapseTo (2 * (s.pe.updates + 1))).updateSetpoint

/-- SETPOINT_UPDATE (R44, R45). -/
def execSetpointUpdate (s : State) : Host.Outcome State Fault Refusal := finish s.setpointDue

/-- OVERSPEED and DRIVE_FAULT are judged at a feedback record (R128). -/
def State.judgeFeedback (speed : Int) (s : State) : State :=
  (s.setSource 3 (decide (s.speedLimit < speed.natAbs))).judgeDrive

/-- A feedback record arrives (R45): the Profile Engine reads it, then the Condition Unit (log 9). -/
def State.feedbackArrives (f : Feedback) (s : State) : State :=
  react s (((s.setAfe { s.afe with feedback := some f }).takeSpeed f.speed).judgeFeedback f.speed)

/-- DRIVE_FEEDBACK (R45, R46, R59, R128). -/
def execDriveFeedback (speed : Int) (ready fault : Bool) (s : State) : Host.Outcome State Fault Refusal :=
  finish (s.feedbackArrives ⟨speed, ready, fault⟩)

/-- The step timer expires (R47, R48). -/
def State.stepExpiry (s : State) : State :=
  match s.pe.stepTimer with
  | none => s
  | some left =>
    let t := s.elapseMs left
    if t.currentStep.map Step.kind = some StepKind.ramp then t.failStep else t.endCurrent

/-- STEP_TIMER_EXPIRY (R47, R48). -/
def execStepTimerExpiry (s : State) : Host.Outcome State Fault Refusal := finish s.stepExpiry

/-- The window settle timer expires (R61). -/
def State.settleExpiry (s : State) : State :=
  match s.pe.settleTimer with
  | none => s
  | some left => (s.elapseMs left).settle

/-- WINDOW_SETTLE_EXPIRY (R61). -/
def execWindowSettleExpiry (s : State) : Host.Outcome State Fault Refusal := finish s.settleExpiry

/-! ## The Order Analyzer -/

/-- WINDOW_DRAIN_CLOSE (R96, R99, R11). -/
def execWindowDrainClose (s : State) : Host.Outcome State Fault Refusal := finish s.drainClose.checkRunDone

/-- ANALYSIS_COMPLETE (R91 to R94, R89, R11). -/
def execAnalysisComplete (s : State) : Host.Outcome State Fault Refusal := finish s.completeAnalysis.checkRunDone

/-! ## Acquisition and the Capture Store -/

/-- ENCODER_INDEX (R67, R68, R75). -/
def execEncoderIndex (us : Nat) (x : AngleSample) (s : State) : Host.Outcome State Fault Refusal :=
  finish (react s (s.index us x))

/-- ENCODER_PULSE (R67). -/
def execEncoderPulse (us : Nat) (forward : Bool) (x : AngleSample) (s : State) : Host.Outcome State Fault Refusal :=
  finish (s.pulse us forward x)

/-- REVOLUTION_TIMEOUT (R68). -/
def execRevolutionTimeout (s : State) : Host.Outcome State Fault Refusal := finish s.revolutionTimeout

/-- The next slot of a stream begins (R69, R75). -/
def State.startSlot (stream : SlotStream) (s : State) : State :=
  match stream with
  | .slow => s.startSlow
  | .leak => s.startLeak

/-- TIME_SLOT_START (R69, R75, R76, R78, R80). -/
def execTimeSlotStart (stream : SlotStream) (s : State) : Host.Outcome State Fault Refusal :=
  finish (react s (s.startSlot stream))

/-- The slot of a stream that is due ends (R69). -/
def State.endSlot (stream : SlotStream) (s : State) : State :=
  match stream with
  | .slow => s.endSlow
  | .leak => s.endLeak

/-- TIME_SLOT_END (R69, R54, R113, R114). -/
def execTimeSlotEnd (stream : SlotStream) (s : State) : Host.Outcome State Fault Refusal := finish (s.endSlot stream)

/-- PLAN_APPLY (R79, R80). -/
def execPlanApply (s : State) : Host.Outcome State Fault Refusal := finish s.checkPlans

/-- SLOW_SAMPLE (R65, R66, R128). -/
def execSlowSample (x : SlowSample) (s : State) : Host.Outcome State Fault Refusal := finish (react s (s.takeSlow x))

end Sys2Proof.Machine
end

