-- ==== Sys2Proof/Machine/Dispatch.lean ====
section
/-! DEFINITION. The meaning of each row of spec/opcode_table.json, one arm a row. -/

namespace Sys2Proof.Machine

def exec (i : Instr) (s : State) : Host.Outcome State Fault Refusal :=
  match i with
  | .powerOn => Sys2Proof.Machine.execPowerOn s
  | .resetLine => Sys2Proof.Machine.execResetLine s
  | .startupScanEnd => Sys2Proof.Machine.execStartupScanEnd s
  | .frameReceived bytes => Sys2Proof.Machine.execFrameReceived bytes s
  | .frameGapTimeout => Sys2Proof.Machine.execFrameGapTimeout s
  | .frameSent => Sys2Proof.Machine.execFrameSent s
  | .lineSilenceExpiry => Sys2Proof.Machine.execLineSilenceExpiry s
  | .status tag => Sys2Proof.Machine.execStatus tag s
  | .identify tag => Sys2Proof.Machine.execIdentify tag s
  | .restart tag => Sys2Proof.Machine.execRestart tag s
  | .loadUnit tag slot serial => Sys2Proof.Machine.execLoadUnit tag slot serial s
  | .startRun tag id => Sys2Proof.Machine.execStartRun tag id s
  | .abortUnit tag id => Sys2Proof.Machine.execAbortUnit tag id s
  | .unitGet tag id => Sys2Proof.Machine.execUnitGet tag id s
  | .advanceStep tag => Sys2Proof.Machine.execAdvanceStep tag s
  | .streamGet tag => Sys2Proof.Machine.execStreamGet tag s
  | .condList tag => Sys2Proof.Machine.execCondList tag s
  | .condGet tag number => Sys2Proof.Machine.execCondGet tag number s
  | .condAck tag number => Sys2Proof.Machine.execCondAck tag number s
  | .condInject tag number => Sys2Proof.Machine.execCondInject tag number s
  | .condConfig tag number severity vector => Sys2Proof.Machine.execCondConfig tag number severity vector s
  | .setMask tag level => Sys2Proof.Machine.execSetMask tag level s
  | .resume tag => Sys2Proof.Machine.execResume tag s
  | .reportGet tag => Sys2Proof.Machine.execReportGet tag s
  | .reportRelease tag id => Sys2Proof.Machine.execReportRelease tag id s
  | .slotErase tag slot => Sys2Proof.Machine.execSlotErase tag slot s
  | .slotBlank tag slot => Sys2Proof.Machine.execSlotBlank tag slot s
  | .slotWrite tag slot offset data => Sys2Proof.Machine.execSlotWrite tag slot offset data s
  | .slotClose tag slot => Sys2Proof.Machine.execSlotClose tag slot s
  | .slotVerify tag slot digest => Sys2Proof.Machine.execSlotVerify tag slot digest s
  | .slotRead tag slot offset length => Sys2Proof.Machine.execSlotRead tag slot offset length s
  | .slotInfo tag slot => Sys2Proof.Machine.execSlotInfo tag slot s
  | .eraseComplete slot => Sys2Proof.Machine.execEraseComplete slot s
  | .closeComplete slot => Sys2Proof.Machine.execCloseComplete slot s
  | .arrive2Rise => Sys2Proof.Machine.execArrive2Rise s
  | .transferTimerExpiry => Sys2Proof.Machine.execTransferTimerExpiry s
  | .transferStart => Sys2Proof.Machine.execTransferStart s
  | .leakStart => Sys2Proof.Machine.execLeakStart s
  | .enterRunDone => Sys2Proof.Machine.execEnterRunDone s
  | .unitDone => Sys2Proof.Machine.execUnitDone s
  | .setpointUpdate => Sys2Proof.Machine.execSetpointUpdate s
  | .driveFeedback speed ready fault => Sys2Proof.Machine.execDriveFeedback speed ready fault s
  | .stepTimerExpiry => Sys2Proof.Machine.execStepTimerExpiry s
  | .windowSettleExpiry => Sys2Proof.Machine.execWindowSettleExpiry s
  | .windowDrainClose => Sys2Proof.Machine.execWindowDrainClose s
  | .encoderIndex us x => Sys2Proof.Machine.execEncoderIndex us x s
  | .revolutionTimeout => Sys2Proof.Machine.execRevolutionTimeout s
  | .analysisComplete => Sys2Proof.Machine.execAnalysisComplete s
  | .timeSlotStart stream => Sys2Proof.Machine.execTimeSlotStart stream s
  | .timeSlotEnd stream => Sys2Proof.Machine.execTimeSlotEnd stream s
  | .planApply => Sys2Proof.Machine.execPlanApply s
  | .slowSample x => Sys2Proof.Machine.execSlowSample x s
  | .leakSample x => Sys2Proof.Machine.execLeakSample x s
  | .fillGrant => Sys2Proof.Machine.execFillGrant s
  | .fillTimeout chamber => Sys2Proof.Machine.execFillTimeout chamber s
  | .settleExpiry chamber => Sys2Proof.Machine.execSettleExpiry chamber s
  | .measureTimerExpiry chamber => Sys2Proof.Machine.execMeasureTimerExpiry chamber s
  | .attemptEvaluation chamber => Sys2Proof.Machine.execAttemptEvaluation chamber s
  | .ventExpiry chamber => Sys2Proof.Machine.execVentExpiry chamber s
  | .resetVentEnd => Sys2Proof.Machine.execResetVentEnd s
  | .conditionLineChange line asserted => Sys2Proof.Machine.execConditionLineChange line asserted s
  | .keyChange asserted => Sys2Proof.Machine.execKeyChange asserted s
  | .conditionTake => Sys2Proof.Machine.execConditionTake s
  | .encoderPulse us forward x => Sys2Proof.Machine.execEncoderPulse us forward x s

end Sys2Proof.Machine
end

