-- ==== Sys2Proof/WellFormed.lean ====
section
/-! DEFINITION. What makes a term of `Instr` one the hardware can meet: a host command's body fits a frame. -/

namespace Sys2Proof

/-- The most bytes a frame's body can hold (spec/09 section 9.1). -/
def maxBody : Nat := 1024

/-- A command whose variable part, with its fixed fields, does not fit a frame cannot be sent (spec/09 section 9.1, R157). Every
other term of `Instr` stands for a command or an event that can come. -/
def Instr.wf : Instr → Bool
  | .loadUnit _ _ serial => decide (1 + serial.length ≤ maxBody)
  | .slotWrite _ _ _ data => decide (3 + data.length ≤ maxBody)
  | _ => true

end Sys2Proof
end

