-- ==== Sys2Proof/Safety.lean ====
section
/-! DEFINITION. The terms the claims are stated in: what an event leaves alone, what the host line shows of a command, and the laws of
the manual that every step keeps. -/

namespace Sys2Proof.Machine

/-! ## What an event leaves alone -/

/-- The parts of the state: the clock, the free values handed out, the field lines, and the state of each functional block. -/
inductive Part where
  | clock | freeValues | lines | lp | ut | rs | pe | afe | cs | oa | lkc | cu | reports
  deriving DecidableEq, Repr

/-- A part of the state stands in `t` as it stood in `s`. -/
def Part.same (b : Part) (s t : State) : Prop :=
  match b with
  | .clock => t.clockUs = s.clockUs
  | .freeValues => t.freeCount = s.freeCount
  | .lines => t.lines = s.lines
  | .lp => t.lp = s.lp
  | .ut => t.ut = s.ut
  | .rs => t.rs = s.rs
  | .pe => t.pe = s.pe
  | .afe => t.afe = s.afe
  | .cs => t.cs = s.cs
  | .oa => t.oa = s.oa
  | .lkc => t.lkc = s.lkc
  | .cu => t.cu = s.cu
  | .reports => t.reports = s.reports

/-- Between `s` and `t` nothing but the parts in `bs` has changed; the queue of waiting commands never has. -/
def OnlyChanges (bs : List Part) (s t : State) : Prop := t.pending = s.pending ∧ ∀ b : Part, b ∉ bs → b.same s t

/-- Every unit record but the one at index `i` stands as it stood. -/
def OtherUnitsKept (i : Fin 8) (s t : State) : Prop := ∀ j : Fin 8, j ≠ i → t.ut.records[j] = s.ut.records[j]

/-- Every slot but slot `k` stands as it stood. -/
def OtherSlotsKept (k : Fin 16) (s t : State) : Prop := ∀ j : Fin 16, j ≠ k → t.rs.slots[j] = s.rs.slots[j]

/-- Every chamber but chamber `c` stands as it stood. -/
def OtherChambersKept (c : Fin 4) (s t : State) : Prop := ∀ d : Fin 4, d ≠ c → t.lkc.chambers[d] = s.lkc.chambers[d]

/-- Every condition record but that of condition `n` stands as it stood. -/
def OtherConditionsKept (n : Fin 20) (s t : State) : Prop := ∀ m, m ≠ n → t.cond m = s.cond m

/-! ## The host line (spec/09) -/

/-- A frame that arrives is handled at once, and any command is passed to its owner: the holding is empty and the start-up scan is
over (R159, R160). -/
def State.listens (s : State) : Prop := s.lp.head = none ∧ s.rs.scanning = false

/-- The line silence timer after a frame has passed its check (R167). -/
def State.silenceAfterFrame (s : State) : Silence :=
  match s.lp.silence with
  | .disarmed => .disarmed
  | _ => .running s.rs.live.silence

/-- The receiver, the holding and the counts stand as they stood. -/
def HoldingKept (s t : State) : Prop :=
  t.lp.receiver = s.lp.receiver ∧ t.lp.head = s.lp.head ∧ t.lp.second = s.lp.second ∧ t.lp.badFrames = s.lp.badFrames ∧
  t.lp.overruns = s.lp.overruns

/-- The frame `cmd` has taken the head and is answered with reply body `r`: the reply is sent at once where the transmitter is
free, and waits for the frame that is being sent where it is not (R159, R161, R166). The receiver stands, also where it holds a partial
frame (log 36). -/
def Answered (cmd : Frame) (r : Reply) (s t : State) : Prop :=
  t.lp.receiver = s.lp.receiver ∧ t.lp.head = some cmd ∧ t.lp.second = s.lp.second ∧ t.lp.badFrames = s.lp.badFrames ∧
  t.lp.overruns = s.lp.overruns ∧
  (s.lp.sending = none →
    t.lp.sending = some (.reply ⟨cmd.kind + 0x80, cmd.tag, r⟩) ∧ t.lp.reply = none) ∧
  (s.lp.sending ≠ none →
    t.lp.sending = s.lp.sending ∧ t.lp.reply = some ⟨cmd.kind + 0x80, cmd.tag, r⟩)

/-- The frame `cmd` is answered with `r`, and nothing else happens but that the line silence timer restarts: what a refused command
and a query leave. -/
def OnlyAnswers (cmd : Frame) (r : Reply) (s t : State) : Prop :=
  OnlyChanges [.lp] s t ∧ Answered cmd r s t ∧ t.lp.notices = s.lp.notices ∧ t.lp.restartDue = s.lp.restartDue ∧
  t.lp.silence = s.silenceAfterFrame

/-- A notice stands in the pending-notice set or is being sent (R165, R166). -/
def Announced (n : Notice) (t : State) : Prop := n ∈ t.lp.notices ∨ t.lp.sending = some (.notice n)

/-- The line after an event that raises no notice: as it stood, but that the arbiter has chosen (R166). -/
def LineLeftToArbiter (s t : State) : Prop := t.lp = (arbitrate s).lp

/-- `t` is `s` but for the line silence timer (R167): every frame that passes its check restarts it, and a frame that moves to the head
restarts nothing. -/
def SameButSilence (s t : State) : Prop := t = s.setLp { s.lp with silence := t.lp.silence }

/-- The kinds of the command frames, each with the least and the most bytes of its body (spec/10 section 10.2). -/
def commandBodies : List (Byte × Nat × Nat) := [
  (0x01, 0, 0), (0x02, 0, 0), (0x03, 0, 0), (0x08, 1, 21), (0x09, 2, 2), (0x0A, 2, 2), (0x0B, 2, 2), (0x0C, 0, 0), (0x0D, 0, 0),
  (0x10, 0, 0), (0x11, 1, 1), (0x12, 1, 1), (0x13, 1, 1), (0x14, 3, 3), (0x15, 1, 1), (0x16, 0, 0), (0x18, 0, 0), (0x19, 2, 2),
  (0x20, 1, 1), (0x21, 1, 1), (0x22, 3, 1003), (0x23, 1, 1), (0x24, 5, 5), (0x25, 5, 5), (0x26, 1, 1)]

/-! ## What the rules speak of -/

/-- Record `i` is in use and in state `u`, and no other record is. -/
def IsUnitIn (u : UnitState) (i : Fin 8) (r : UnitRecord) (s : State) : Prop :=
  s.ut.records[i] = some r ∧ r.state = u ∧ ∀ j : Fin 8, j ≠ i → ∀ r' : UnitRecord, s.ut.records[j] = some r' → r'.state ≠ u

/-- No record is in state `u`. -/
def NoUnitIn (u : UnitState) (s : State) : Prop := ∀ (j : Fin 8) (r : UnitRecord), s.ut.records[j] = some r → r.state ≠ u

/-- Record `i` carries `id`, and no other record in use does (R1). -/
def CarriesId (id : Nat) (i : Fin 8) (r : UnitRecord) (s : State) : Prop :=
  s.ut.records[i] = some r ∧ r.id = id ∧ ∀ j : Fin 8, j ≠ i → ∀ r' : UnitRecord, s.ut.records[j] = some r' → r'.id ≠ id

/-- No record in use carries `id`. -/
def NoUnitCarries (id : Nat) (s : State) : Prop := ∀ (j : Fin 8) (r : UnitRecord), s.ut.records[j] = some r → r.id ≠ id

/-- Station 2 is free (R5). -/
def Station2Free (s : State) : Prop := ∀ (j : Fin 8) (r : UnitRecord), s.ut.records[j] = some r → r.state.atStation2 = false

/-- The condition the taking check takes (R133): of the highest severity among those that qualify, and of the lowest number among
those of that severity. -/
def IsTaken (n : Fin 20) (s : State) : Prop :=
  s.qualifies n = true ∧
  ∀ m, s.qualifies m = true → (s.cond m).severity < (s.cond n).severity ∨
    ((s.cond m).severity = (s.cond n).severity ∧ n ≤ m)

/-- No condition qualifies for taking (R133). -/
def NoneQualifies (s : State) : Prop := ∀ n, s.qualifies n = false

/-- A FIFO or a pool has nothing to choose: no plan waits (R80). -/
def NoPlanWaits (s : State) : Prop := ∀ st, (s.stream st).state ≠ .pendingPlan

/-! ## The laws of the manual -/

/-- R21, R27: each slot's bytes are held in canonical form, at offsets inside the slot. -/
def MemoryLaw (s : State) : Prop :=
  ∀ k : Fin 16, (s.rs.slots[k]).bytes.wf = true ∧ ∀ cell ∈ (s.rs.slots[k]).bytes, cell.1 < slotSize

/-- The frames of a stack from the top down, against the reaction level above them: each frame's severity is the reaction level
its taking set, and exceeds the one before it (R132). -/
def FramesLinked : Nat → List HoldFrame → Prop
  | rl, [] => rl = 0
  | rl, f :: fs => rl = f.severity ∧ f.savedRl < f.severity ∧ FramesLinked f.savedRl fs

/-- R132, R131: the frames of the hold stack rise strictly in severity, RL is the top frame's severity or 0, no condition is in two
frames, RL is at most 15 and the depth is at most 15, and the mask is within the cap of the mode. The bounds rest on the live
severities (R126, R141), and those on the settings that a VALID slot 0 holds for the next reset (R32, R34). -/
def StackLaw (s : State) : Prop :=
  FramesLinked s.cu.rl s.cu.stack ∧ (s.cu.stack.map HoldFrame.number).Nodup ∧ s.cu.mask ≤ s.cu.mode.cap ∧
  s.cu.rl ≤ 15 ∧ s.cu.stack.length ≤ 15 ∧ (∀ n, (s.cond n).severity ≤ 15) ∧
  ((s.slot 0).state = .valid → ∀ k : Fin 12, ((readConfig (s.slot 0).bytes).conditions[k]).severity ≤ 15)

/-- R72: no stream holds more of its reservation than it has, and the reservations and the pool's held blocks fit the store. -/
def AccountsLaw (s : State) : Prop :=
  (∀ st, (s.stream st).heldRes ≤ (s.stream st).plan.res) ∧
  s.cs.vib.plan.res + s.cs.slow.plan.res + s.cs.leak.plan.res + (s.cs.vib.heldPool + s.cs.slow.heldPool + s.cs.leak.heldPool) ≤
    allBlocks

/-- R5: at most one record is in a station-1 state, and at most one in a station-2 state. -/
def StationLaw (s : State) : Prop :=
  ∀ (i j : Fin 8) (r r' : UnitRecord), s.ut.records[i] = some r → s.ut.records[j] = some r' →
    (r.state.atStation1 = true → r'.state.atStation1 = true → i = j) ∧
    (r.state.atStation2 = true → r'.state.atStation2 = true → i = j)

/-- R108, R120, R121, R125: at most one chamber is in FILL, none while the reset vent runs, and no attempt is in progress while LEAK
is in the halt set. -/
def SupplyLaw (s : State) : Prop :=
  (∀ c d, (s.chamber c).phase = .fill → (s.chamber d).phase = .fill → c = d) ∧
  (s.lkc.resetVent ≠ .over → ∀ c, (s.chamber c).phase ≠ .fill) ∧
  (s.halt.leak = true → ∀ c, (s.chamber c).phase.attempting = false)

/-- R57: while PROFILE is in the halt set and the hold stack holds a frame of severity 14 or more, the halt style is HARD. -/
def HardWhereSevere (s : State) : Prop :=
  s.halt.profile = true → (∃ f ∈ s.cu.stack, 14 ≤ f.severity) → s.pe.halt = .hard

/-- R56, R43, R61, R57: while PROFILE is in the halt set the Profile Engine is neither STEPPING nor in REAPPROACH, and HARD over a severe
frame; and its step timer runs in STEPPING alone. -/
def DriveLaw (s : State) : Prop :=
  (s.halt.profile = true → s.pe.phase ≠ .stepping ∧ s.pe.phase ≠ .reapproach) ∧
  (s.pe.stepTimer ≠ none → s.pe.phase = .stepping) ∧ HardWhereSevere s

/-! ## What single events do -/

/-- Whether the line of condition `n` asserts its source (R127). -/
def lineAsserts (lines : Lines) (n : Fin 20) : Bool :=
  if n = 0 then lines.estop else if n = 6 then lines.guard1 else if n = 7 then lines.guard2
  else if n = 12 then !lines.supplyOk else false

/-- The taking check that stands at the end of an event (R133, R134): where no condition qualifies in `u` the stack and RL stay,
and otherwise the one condition of R133 is pushed with its live values. -/
def TakingCheckMade (u t : State) : Prop :=
  (NoneQualifies u → t.cu.stack = u.cu.stack ∧ t.cu.rl = u.cu.rl) ∧
  ∀ n, IsTaken n u →
    t.cu.stack = ⟨n, (u.cond n).severity, (u.cond n).vector, u.cu.rl, u.now⟩ :: u.cu.stack ∧ t.cu.rl = (u.cond n).severity

/-- The machine with the start-up scan's findings in the store and the settings of configuration `cfg` loaded (R34, R140). -/
def scanFound (cfg : CellConfig) (s : State) : State :=
  s.setCu { s.cu with conditions := loadSettings cfg s.cu.conditions }

/-- The live severity and stop vector of conditions 5 and 9 to 19 are those of configuration `cfg`, which holds the twelve in that
order; the others keep theirs (R140, R126). -/
def SettingsLoaded (cfg : CellConfig) (s t : State) : Prop :=
  ∀ n : Fin 20,
    (∀ k : Fin 12, (n = 5 ∧ k = 0) ∨ (9 ≤ n.val ∧ k.val + 8 = n.val) →
      (t.cond n).severity = (cfg.conditions[k]).severity ∧ (t.cond n).vector = (cfg.conditions[k]).vector) ∧
    (n ≠ 5 → n.val < 9 → (t.cond n).severity = (s.cond n).severity ∧ (t.cond n).vector = (s.cond n).vector)

/-- The window table `ws` after the signal pause for window `n` (R87); a step without a window, index 0, sends none. -/
def pausedWindow (n : Nat) (ws : List Window) : List Window :=
  ws.map fun w => if n ≠ 0 ∧ w.number = n ∧ w.state = .opened then { w with state := .paused } else w

/-- The window table `ws` after the signal open for window `n` (R86). -/
def openedWindow (n : Nat) (ws : List Window) : List Window :=
  ws.map fun w => if w.number = n ∧ (w.state = .idle ∨ w.state = .paused) then { w with state := .opened, opened := true } else w

/-- What the entry to step `y`, or its restart, makes of the window settle timer and of the table `ws` (R43, R59, R61): the timer is loaded
with the settle time of the step's window and stopped without one, and a settle time of 0 opens the window at once, unless NOISE is
halted. -/
def SettleLoaded (recipe : Recipe) (y : Step) (noise : Bool) (ws : List Window) (t : State) : Prop :=
  let time := if y.window = 0 then none else (recipe.windows[y.window - 1]?).map WindowSpec.settle
  (time = none → t.pe.settleTimer = none ∧ t.pe.settled = false ∧ t.pe.openSent = false ∧ t.oa.windows = ws) ∧
  ∀ ms, time = some ms →
    (ms ≠ 0 → t.pe.settleTimer = some ms ∧ t.pe.settled = false ∧ t.pe.openSent = false ∧ t.oa.windows = ws) ∧
    (ms = 0 → t.pe.settleTimer = none ∧ t.pe.settled = true ∧ t.pe.openSent = !noise ∧
      t.oa.windows = if noise then ws else openedWindow y.window ws)

/-- What the entry to step `y` and its restart both leave (R43, R59): the engine is STEPPING, the step timer loaded, the torques clamped to
the recipe's limit, the window settle timer loaded, and for MEASURE_DRAG an empty drag accumulator and a span that begins now (R52). -/
def StepLoaded (recipe : Recipe) (y : Step) (noise : Bool) (ws : List Window) (t : State) : Prop :=
  t.pe.phase = .stepping ∧ t.pe.stepTimer = y.timer ∧
  t.pe.torqueL = clampInt (-(recipe.torqueLimit : Int)) recipe.torqueLimit y.torqueL ∧
  t.pe.torqueR = clampInt (-(recipe.torqueLimit : Int)) recipe.torqueLimit y.torqueR ∧
  (y.kind = .measureDrag → t.pe.dragRecords = 0 ∧ t.pe.dragSamples = 0 ∧ t.pe.dragSum = 0 ∧ t.pe.stepStart = t.now) ∧
  SettleLoaded recipe y noise ws t

/-- What the entry to step `y` that lasts leaves after the normal end of step `x` (R43, R47): the window of `x` is paused, and the step
`y` is current and counted, its timers loaded, its torques clamped to the recipe's limit, and the setpoint as it was. -/
def StepEntered (k : Nat) (x y : Step) (i : Fin 8) (r : UnitRecord) (s t : State) : Prop :=
  StepLoaded (s.recipeOf r) y s.halt.noise (pausedWindow x.window s.oa.windows) t ∧ t.pe.step = some k ∧
  t.pe.setpoint = s.pe.setpoint ∧ t.pe.enable = s.pe.enable ∧ t.pe.brake = s.pe.brake ∧
  ∃ r', t.ut.records[i] = some r' ∧ r'.state = .running ∧ r'.runIn.steps = count32 r.runIn.steps

/-- Step `k`, from 1, of the recipe of the RUNNING record is current in STEPPING. -/
def IsStepping (k : Nat) (x : Step) (i : Fin 8) (r : UnitRecord) (s : State) : Prop :=
  StationLaw s ∧ IsUnitIn .running i r s ∧ s.pe.phase = .stepping ∧ s.pe.step = some k ∧ 1 ≤ k ∧
  (s.recipeOf r).steps[k - 1]? = some x

/-- The step that follows step `k` at its normal end, with the loop counter of `k` after the choice (R49). -/
def nextStep (k : Nat) (x : Step) (counter : Nat) : Nat × Nat :=
  if x.loopCount ≤ 1 then (k + 1, counter)
  else if counter - 1 = 0 then (k + 1, x.loopCount)
  else (x.loopTo, counter - 1)

/-- The number of the current slot of a time-slot stream, and how many of its slots have ended (R69). -/
def slotsOf (st : SlotStream) (s : State) : Nat × Nat :=
  match st with
  | .slow => (s.afe.slowSlot, s.afe.slowEnded)
  | .leak => (s.afe.leakSlot, s.afe.leakEnded)

/-- The length of a slot in ms (R69). -/
def slotMs : SlotStream → Nat
  | .slow => 256
  | .leak => 640

/-- The stream of the Capture Store that a time-slot stream is. -/
def slotStreamId : SlotStream → StreamId
  | .slow => .slow
  | .leak => .leak

/-- The engineering value of a SLOW or LEAK sample with its range fault, from its raw count (R64, R65): the count saturates at 16 bits;
a saturated count gives the end of the range; any other is calibrated, rounded toward zero, and clamped to the range. -/
def IsLiveValue (c : Calibration) (count live : Int) (fault : Bool) : Prop :=
  let v := ((count - c.zero) * c.gain).tdiv 65536
  (32767 ≤ count → live = c.high ∧ fault = true) ∧
  (count ≤ -32768 → live = c.low ∧ fault = true) ∧
  (-32768 < count → count < 32767 →
    (v < c.low → live = c.low ∧ fault = true) ∧
    (c.low ≤ v → c.high < v → live = c.high ∧ fault = true) ∧
    (c.low ≤ v → v ≤ c.high → live = v ∧ fault = false))

/-- What the judgement of R115 comes to for a measurement: SENSOR, then GAP, then the leak rate of R116 judged by R118. -/
def IsOutcome (p : ChamberPlan) (pAtm : Int) (m : Measure) (a : AttemptResult) : Prop :=
  (m.sensor = true → a = ⟨.sensor, none, none, none⟩) ∧
  (m.sensor = false → (m.first = none ∨ m.latest = none) → a = ⟨.gap, none, none, none⟩) ∧
  ∀ f l : LeakPair, m.sensor = false → m.first = some f → m.latest = some l →
    (l.slot.toNat ≤ f.slot.toNat → a = ⟨.gap, none, none, none⟩) ∧
    (f.slot.toNat < l.slot.toNat →
      let aS := f.pressure + pAtm; let aE := l.pressure + pAtm
      let kS := f.temperature + 27315; let kE := l.temperature + 27315
      let e := if p.kind = .circuit then aS else aS * kE / kS
      let tMs := (l.slot.toNat - f.slot.toNat) * 640
      let q := (p.volume * (e - aE) * 6000000).tdiv (pAtm * tMs)
      a.q = some q ∧ a.d = some (e - aE) ∧ a.tMs = some tMs ∧
      (q < -(p.qNeg : Int) → a.outcome = .unstable) ∧ ((p.qLim : Int) < q → -(p.qNeg : Int) ≤ q → a.outcome = .fail) ∧
      (-(p.qNeg : Int) ≤ q → q ≤ p.qLim → a.outcome = .pass))

/-- Attempt `a` of a chamber with plan `p` has been counted (R118, R119): its figures replace those of the result `old`, the verdict is that
of R118, and the chamber vents, for its last time where it has a verdict and else to come back to the queue. -/
def AttemptCounted (p : ChamberPlan) (a : AttemptResult) (old result : ChamberResult) (chamber : Chamber) : Prop :=
  let n := old.attempts + 1
  let verdict : Option Verdict := match a.outcome with
    | .pass => some .pass
    | .fail | .gross => some .fail
    | .unstable | .gap | .sensor => if n ≤ p.retries then none else some .incomplete
  result = { old with attempts := n, outcome := some a.outcome, q := a.q, d := a.d, tMs := a.tMs, verdict := verdict } ∧
  chamber = ⟨.vent, some p.vent, some (if verdict = none then .requeue else .done), none⟩

/-- `captured` is the descriptor that fills with the record of LEAK slot `n`, and none where the slot has not been captured (R69, R71). -/
def IsLeakRecordOf (n : Nat) (captured : Option (Fin 8)) (s : State) : Prop :=
  let fills (d : Fin 8) : Prop := (s.cs.leakDescs[d]).state = .filling ∧ (s.cs.leakDescs[d]).seq = BitVec.ofNat 32 n
  match captured with
  | none => ∀ d, ¬fills d
  | some d => fills d ∧ ∀ e, e ≠ d → ¬fills e

/-- The measurement `m` of chamber `c` after the delivery of the record `xs` of LEAK slot `n`, if there is one (R113, R114): the first pair
where it has none and its measure time runs, and the latest pair, by the times of the first and last samples of the slot. -/
def pairsTaken (n : Nat) (xs : Option (List LeakSample)) (c : Fin 4) (m : Measure) : Measure :=
  match xs with
  | none => m
  | some xs =>
    let start : CellTime := BitVec.ofNat 32 n * 640
    let pair : LeakPair := ⟨BitVec.ofNat 32 n, (xs.map (pressureOf c)).sum / 128, (xs.map LeakSample.tlk).sum / 128⟩
    { m with
      first := if m.expired = false ∧ m.first = none ∧ 0 ≤ timeDiff start m.start then some pair else m.first
      latest := if timeDiff (start + 635) m.start ≤ timeDiff m.stop m.start then some pair else m.latest }

/-- The line condition that a field line is judged for (R127). -/
def lineCondition : CondLine → Fin 20
  | .estop => 0
  | .guard1 => 6
  | .guard2 => 7
  | .supplyOk => 12

/-- What the condition-taking of `n` does besides the frame (R134, R4, R143): its number joins the interruptions of every RUNNING or
LEAKING record, eight at most and then the overflow flag, and its notice is raised with RL, depth and halt set. The sources of DRIVE_FAULT
and of the starvation conditions may move again with the halt, after their notice (log 38), so nothing is said of theirs. -/
def TakingRecorded (n : Fin 20) (s t : State) : Prop :=
  (∀ (i : Fin 8) (r : UnitRecord), s.ut.records[i] = some r → ∃ r', t.ut.records[i] = some r' ∧
    (r.state.working = true →
      (r.interruptions.length < 8 → r'.interruptions = r.interruptions ++ [n] ∧ r'.overflow = r.overflow) ∧
      (8 ≤ r.interruptions.length → r'.interruptions = r.interruptions ∧ r'.overflow = true)) ∧
    (r.state.working = false → r'.interruptions = r.interruptions ∧ r'.overflow = r.overflow)) ∧
  (n ≠ 4 → n.val < 13 ∨ 15 < n.val →
    Announced ⟨.condition n, .condition (t.condCode n) (t.cond n).lastActive t.cu.rl t.cu.stack.length t.halt s.now⟩ t)

/-- `s` with condition record `n` replaced by `c`, `us` microseconds later: what a taking check looks at. -/
def raisedAt (us : Nat) (n : Fin 20) (c : Condition) (s : State) : State :=
  (s.elapse us).setCu { s.cu with conditions := s.cu.conditions.set n c }

/-! ## Speed and drive (R128), and the drag result (R53) -/

/-- The limit of OVERSPEED in 0.01 rpm: the maximum speed of the station-1 recipe × 105, or 315,000 with no unit at station 1. -/
def IsSpeedLimit (limit : Nat) (s : State) : Prop :=
  ((∀ (j : Fin 8) (r : UnitRecord), s.ut.records[j] = some r → r.state.atStation1 = false) ∧ limit = 315000) ∨
  ∃ (i : Fin 8) (r : UnitRecord), s.ut.records[i] = some r ∧ r.state.atStation1 = true ∧ StationLaw s ∧
    limit = (s.recipeOf r).maxSpeed * 105

/-- What the feedback record asserts of DRIVE_FAULT: a drive fault, or a drive not ready while drive enable has been on for 500 ms. -/
def driveFaultAsserted (ready fault : Bool) (s : State) : Bool :=
  fault || (!ready && s.pe.enable && match s.pe.enabledAt with
    | some since => decide (since + 500 ≤ s.uptime)
    | none => false)

/-- Condition record `c` with its source and, where it is LATCHED, its latch after a judgement of `asserted`, and its last active time
where that makes it active (R127 to R129). -/
def judged (latched asserted active : Bool) (now : CellTime) (c : Condition) : Condition :=
  { c with
    source := asserted, latch := c.latch || (latched && asserted)
    lastActive := if asserted && !active then some now else c.lastActive }

/-- The run-in section after the normal end of a pass of step `x` with the drag accumulator of `pe` (R53): a step of another kind
leaves the drag result; a MEASURE_DRAG pass gives its result and mean where none is held, or a better one. -/
def DragEvaluated (recipe : Recipe) (x : Step) (pe : ProfileEngine) (r r' : RunIn) : Prop :=
  let mean := pe.dragSum / pe.dragSamples
  let pass : Verdict × Option Int :=
    if pe.dragRecords = 0 ∨ 2 * pe.dragRecords < (x.duration - 500) / 256 then (.incomplete, none)
    else if recipe.dragMin ≤ mean ∧ mean ≤ recipe.dragMax then (.pass, some mean) else (.fail, some mean)
  (x.kind ≠ .measureDrag → r'.dragResult = r.dragResult ∧ r'.dragMean = r.dragMean) ∧
  (x.kind = .measureDrag → r.dragResult = none → r'.dragResult = some pass.1 ∧ r'.dragMean = pass.2) ∧
  ∀ old, x.kind = .measureDrag → r.dragResult = some old → old = .pass ∨ old = .incomplete ∨ old = .fail →
    if (old = .pass ∧ pass.1 ≠ .pass) ∨ (old = .incomplete ∧ pass.1 = .fail) then
      r'.dragResult = some pass.1 ∧ r'.dragMean = pass.2
    else r'.dragResult = r.dragResult ∧ r'.dragMean = r.dragMean

/-- A run-in section completed with the outcome of `cause` (R55). -/
def RunInEnded (cause : StopCause) (x : RunIn) : Prop :=
  x.state = (match cause with | .runOut => .finished | .failure => .failed | .abort => .aborted) ∧
  x.verdict = some (
    if cause = .abort then .aborted
    else if x.failStep ≠ none ∨ x.dragResult = some .fail then .fail
    else if x.dragResult = some .incomplete then .incomplete else .pass)

/-- The engine after the profile end (R51): IDLE without a step, its timers stopped, the drive off and braked. -/
def EngineAtRest (t : State) : Prop :=
  t.pe.phase = .idle ∧ t.pe.cause = none ∧ t.pe.step = none ∧ t.pe.stepTimer = none ∧ t.pe.settleTimer = none ∧
  t.pe.enable = false ∧ t.pe.brake = true

/-- A window after the signal close (R88): CLOSED from IDLE, from COMPLETE and where it holds no record, else CLOSING. -/
def Window.afterClose (w : Window) : Window :=
  if w.state = .idle ∨ w.state = .complete ∨ ((w.state = .opened ∨ w.state = .paused) ∧ w.held = 0) then { w with state := .closed }
  else if w.state = .opened ∨ w.state = .paused then { w with state := .closing } else w

/-- Close has been sent for every window of the table `ws` at the profile end of the RUNNING record, `r` before and `r'` after (R51, R62,
R88, R96, R99, R11, R12). Each window that enters CLOSED is graded into the noise section, in window order. While one of the table is not
CLOSED the record stays RUNNING; with all CLOSED the noise verdict is set, the table is empty, and the record is RUN_DONE, or IN_TRANSFER
where its transfer starts at once. The open record of a window so closed is abandoned (R68). -/
def TableClosed (ws : List Window) (r r' : UnitRecord) (s t : State) : Prop :=
  let after := ws.map Window.afterClose
  let graded := ws.filter fun w => decide (w.state ≠ .closed ∧ w.afterClose.state = .closed)
  let results := r.noise.results ++ graded.flatMap fun w => w.results s.rs.live
  let starts : Bool := !t.halt.transfer && s.unit2.isNone
  (ws.map Window.number).Nodup → ws = [] ∨ (∃ w ∈ ws, w.state ≠ .closed) →
    r'.noise.summaries = r.noise.summaries ++ graded.map Window.summary ∧ r'.noise.results = results ∧
    ((∃ w ∈ after, w.state ≠ .closed) → t.oa.windows = after ∧ r'.state = .running ∧ r'.noise.verdict = r.noise.verdict) ∧
    ((∀ w ∈ after, w.state = .closed) → t.oa.windows = [] ∧
      r'.noise.verdict = some (worst (results.map OrderResult.grade)) ∧ r'.state = if starts then .inTransfer else .runDone) ∧
    ∀ d : Fin 32, s.afe.openVib = some d →
      (∃ w ∈ ws, w.number = (s.cs.vibDescs[d]).window ∧ w.state ≠ .closing ∧ w.state ≠ .closed) → t.afe.openVib = none

/-- The last step `x` has ended normally, its window paused, with its drag result where it is a MEASURE_DRAG step, and no loop returns from
it (R47, R51): at setpoint 0 the profile has ended FINISHED and every window is sent close, and otherwise the engine is STOPPING with
cause RUN_OUT. -/
def ProfileRunsOut (x : Step) (i : Fin 8) (r : UnitRecord) (s t : State) : Prop :=
  let ws := pausedWindow x.window s.oa.windows
  ∃ r', t.ut.records[i] = some r' ∧ DragEvaluated (s.recipeOf r) x s.pe r.runIn r'.runIn ∧
    r'.runIn.failStep = r.runIn.failStep ∧ t.pe.setpoint = s.pe.setpoint ∧
    (s.pe.setpoint ≠ 0 → t.pe.phase = .stopping ∧ t.pe.cause = some .runOut ∧ t.pe.stepTimer = none ∧ t.pe.settleTimer = none ∧
      t.pe.torqueL = 0 ∧ t.pe.torqueR = 0 ∧ r'.state = .running ∧ r'.runIn.state = r.runIn.state ∧ t.oa.windows = ws) ∧
    (s.pe.setpoint = 0 → EngineAtRest t ∧ RunInEnded .runOut r'.runIn ∧ TableClosed ws r r' s t)

/-- What the change to a HARD halt leaves (R57): drive enable off, the setpoints 0 and the brake applied; a profile that was STOPPING has
ended with the outcome of its cause, and every window is sent close. -/
def HaltedHard (s t : State) : Prop :=
  t.pe.halt = .hard ∧ t.pe.setpoint = 0 ∧ t.pe.torqueL = 0 ∧ t.pe.torqueR = 0 ∧ t.pe.enable = false ∧ t.pe.brake = true ∧
  ∀ cause, s.pe.phase = .stopping → s.pe.cause = some cause → EngineAtRest t ∧
    (StationLaw s → ∀ (i : Fin 8) (r : UnitRecord), IsUnitIn .running i r s →
      ∃ r', t.ut.records[i] = some r' ∧ RunInEnded cause r'.runIn ∧ r'.runIn.dragResult = r.runIn.dragResult ∧
        r'.runIn.failStep = r.runIn.failStep ∧ TableClosed s.oa.windows r r' s t)

/-! ## The acceptance of a revolution (R90) -/

/-- A record's direction is the window's. -/
def SameWay (y : VibDescriptor) (w : WindowSpec) : Prop :=
  (w.direction = .fwd ∧ y.direction = .fwd) ∨ (w.direction = .rev ∧ y.direction = .rev)

/-- A record's mean speed lies in the window's speed band, both ends included. -/
def InBand (y : VibDescriptor) (w : WindowSpec) : Prop := y.periodUs * w.sLo ≤ 60000000 ∧ 60000000 ≤ y.periodUs * w.sHi

/-- A record taken from the head passes the four checks. -/
def Passes (y : VibDescriptor) (w : WindowSpec) : Prop :=
  y.pulses = 1024 ∧ SameWay y w ∧ InBand y w ∧ y.overload = false

/-- A window after it has rejected `y`: the count of the first check that fails rises, and it holds one record less. -/
def IsRejection (y : VibDescriptor) (w w' : Window) : Prop :=
  (y.pulses ≠ 1024 → w' = { w with held := w.held - 1, slip := count16 w.slip }) ∧
  (y.pulses = 1024 → ¬SameWay y w.spec → w' = { w with held := w.held - 1, wrongWay := count16 w.wrongWay }) ∧
  (y.pulses = 1024 → SameWay y w.spec → ¬InBand y w.spec →
    w' = { w with held := w.held - 1, speedBand := count16 w.speedBand }) ∧
  (y.pulses = 1024 → SameWay y w.spec → InBand y w.spec → w' = { w with held := w.held - 1, overload := count16 w.overload })

/-! ## The record boundary of an index (R75, R76, R78, R80, R95) -/

/-- The accounts `c` after a record of window `w` has been captured in descriptor `d` at an index with angle sample `x`, which is revolution
`n`: a block for each channel with its first sample, saturated as R64 has it, from the reservation first (R67, R68, R75). -/
def capturedVib (n : Word32) (x : AngleSample) (w : Window) (d : Fin 32) (c : CaptureStore) : CaptureStore :=
  let k := w.spec.channels.length
  let r := min k (c.vib.plan.res - c.vib.heldRes)
  let blocks := w.spec.channels.map fun ch => (⟨ch, [max (-32768) (min 32767 (angleOf x ch))]⟩ : Machine.Block)
  { c with
    vib := { c.vib with
      state := .running, heldRes := c.vib.heldRes + r, heldPool := c.vib.heldPool + (k - r), lastSeq := some n }
    vibDescs := c.vibDescs.set d ⟨.filling, n, r, k - r, w.number, .fwd, 0, 0,
      w.spec.channels.any (fun ch => decide (32767 ≤ angleOf x ch) || decide (angleOf x ch ≤ -32768)), blocks⟩ }

/-- A stream that starves at a boundary (R76): its dropped count one higher and its state STARVED, with the blocks it can then obtain, which
the STREAM notice carries (R82). -/
def starvedStream (st : StreamId) (c : CaptureStore) : Stream × Nat :=
  let x : Stream := { c.stream st with state := .starved, dropped := count32 (c.stream st).dropped }
  (x, (c.setStream st x).obtainable st)

/-- The boundary of the index that comes `us` microseconds after `s`, where the close of the open record has left the accounts `c` and the
analyzer `o`. A RUNNING stream captures a record of the OPEN window, in the FREE descriptor of lowest index (log 15), where it can obtain
the blocks; where it cannot, the record is dropped, counted in stream and window, and the stream starves, until a halt that its condition
brings ends capture. A STARVED stream resumes with this record where it can obtain the threshold of its plan, and else drops it, as one
whose plan waits does. With no window OPEN or no capture wanted nothing is captured or dropped. -/
def BoundaryMade (us : Nat) (x : AngleSample) (c : CaptureStore) (o : OrderAnalyzer) (s t : State) : Prop :=
  let u := s.elapse us
  let quiet := OnlyChanges [.lp, .afe, .cs, .oa] u t ∧ LineLeftToArbiter u t
  let skipped := quiet ∧ t.afe.openVib = none ∧ t.cs = c ∧ t.oa = o
  (o.openWindow = none → o.windows ≠ [] ∨ NoUnitIn .running s → skipped) ∧
  ∀ w : Window, o.openWindow = some w → let k := w.spec.channels.length
    let noneFree := ∀ d : Fin 32, (c.vibDescs[d]).state ≠ .free
    let isFirst (d : Fin 32) := (c.vibDescs[d]).state = .free ∧ ∀ e, e < d → (c.vibDescs[e]).state ≠ .free
    let need := max k ((c.vib.plan.threshold * c.vib.plan.res + 99) / 100)
    let captured (d : Fin 32) := t.afe.openVib = some d ∧ t.cs = capturedVib (s.afe.revolution + 1) x w d c ∧ t.oa = o
    let dropped (state : StreamState) := t.afe.openVib = none ∧
      t.cs = { c with vib := { c.vib with state := state, dropped := count32 c.vib.dropped } } ∧
      t.oa = { o with windows := o.windows.map fun v => if v.number = w.number then { v with dropped := count16 v.dropped } else v }
    (c.vib.state = .idle ∨ (c.vib.state = .pendingPlan ∧ s.halt.noise = true) → skipped) ∧
    (c.vib.state = .pendingPlan → s.halt.noise = false → quiet ∧ dropped .pendingPlan) ∧
    (c.vib.state = .running →
      (∀ d, isFirst d → k ≤ c.obtainable .vib → quiet ∧ captured d) ∧
      (noneFree ∨ c.obtainable .vib < k →
        (s.active 13 = true → OnlyChanges [.lp, .afe, .cs, .oa, .cu] u t ∧ dropped .starved ∧ (t.cond 13).source = true ∧
          t.cu.stack = s.cu.stack ∧
          Announced ⟨.stream .vib, .stream .starved (count32 c.vib.dropped) (t.cs.obtainable .vib) u.now⟩ t) ∧
        (s.active 13 = false → (t.cond 13).latch = true ∧ (t.cond 13).lastActive = some u.now ∧
          t.afe.openVib = none ∧ t.oa.queue = o.queue ∧ t.oa.current = o.current ∧ t.cs.vibDescs = c.vibDescs ∧
          (s.halt.noise = false → t.stream .vib = { c.vib with
            state := if t.wanted .vib then .starved else .idle, dropped := count32 c.vib.dropped }) ∧
          (s.pe.phase ≠ .stopping → t.oa.windows.map (fun v => (v.number, v.dropped)) =
            o.windows.map fun v => (v.number, if v.number = w.number then count16 v.dropped else v.dropped)) ∧
          Announced ⟨.stream .vib, .stream .starved (count32 c.vib.dropped)
            (starvedStream .vib c).2 u.now⟩ t ∧
          TakingCheckMade (raisedAt us 13 { s.cond 13 with source := true, latch := true, lastActive := some u.now } s) t))) ∧
    (c.vib.state = .starved →
      (∀ d, isFirst d → need ≤ c.obtainable .vib → OnlyChanges [.lp, .afe, .cs, .oa, .cu] u t ∧ captured d ∧
        (t.cond 13).source = false ∧ OtherConditionsKept 13 s t ∧ t.cu.stack = s.cu.stack ∧
        Announced ⟨.stream .vib, .stream .running c.vib.dropped (t.cs.obtainable .vib) u.now⟩ t) ∧
      (noneFree ∨ c.obtainable .vib < need → quiet ∧ dropped .starved))

/-! ## The report (R148 to R151) -/

/-- The entry of an order result. -/
def noiseEntry (o : OrderResult) : Defect := ⟨.noise o.window o.channel o.order, some o.level, some o.limit, o.grade⟩

/-- The entry of the drag result, where the section holds one. -/
def dragEntry (recipe : Recipe) (x : RunIn) : List Defect :=
  match x.dragResult, x.dragMean with
  | none, _ => []
  | some g, none => [⟨.drag, none, none, g⟩]
  | some g, some m =>
    [⟨.drag, some m,
      if (recipe.dragMax : Int) < m then some recipe.dragMax else if m < recipe.dragMin then some recipe.dragMin else none, g⟩]

/-- The entry of a chamber whose verdict is PASS, FAIL or INCOMPLETE. -/
def chamberEntry (recipe : Recipe) (x : LeakSection) (c : Fin 4) : List Defect :=
  let y := x.chambers[c]
  let limit : Int := if y.outcome = some .unstable then -((recipe.chambers[c]).qNeg : Int) else (recipe.chambers[c]).qLim
  match y.verdict with
  | some g => if g = .pass ∨ g = .fail ∨ g = .incomplete then [⟨.chamber c, y.q, some limit, g⟩] else []
  | none => []

/-- The report part of record `r` (R147 to R151). The overall verdict is ABORTED with the abort mark, else the worst of the section
verdicts. The defects are the graded items of grade WARN, INCOMPLETE or FAIL, noise by window number, then drag, then the chambers;
twelve are listed and the others counted. -/
def IsReport (recipe : Recipe) (r : UnitRecord) (p : ReportPart) : Prop :=
  let verdicts := [r.runIn.verdict, r.noise.verdict, r.leak.verdict].filterMap id
  let items := ([1, 2, 3, 4, 5, 6].flatMap fun n => (r.noise.results.filter fun o => decide (o.window = n)).map noiseEntry) ++
    dragEntry recipe r.runIn ++ ([0, 1, 2, 3] : List (Fin 4)).flatMap (chamberEntry recipe r.leak)
  let defects := items.filter fun d => decide (d.grade = .warn ∨ d.grade = .incomplete ∨ d.grade = .fail)
  p.toothCount = recipe.toothCount ∧
  (r.abort = true → p.overall = .aborted) ∧
  (r.abort = false → (p.overall = .pass ∨ p.overall ∈ verdicts) ∧ ∀ v ∈ verdicts, v.code ≤ p.overall.code) ∧
  ((∀ o ∈ r.noise.results, 1 ≤ o.window ∧ o.window ≤ 6) → p.defects = defects.take 12 ∧ p.notListed = defects.length - 12)

/-! ## The accounts (R72, R73, R75) and the plans (R79) -/

/-- The pool size: 1,536 less the three reservations. -/
def poolOf (s : State) : Nat := 1536 - (s.cs.vib.plan.res + s.cs.slow.plan.res + s.cs.leak.plan.res)

/-- The pool's free blocks. -/
def poolLeft (s : State) : Nat := poolOf s - (s.cs.vib.heldPool + s.cs.slow.heldPool + s.cs.leak.heldPool)

/-- The weight of a stream in RUNNING or STARVED, 0 in another state. -/
def weightIn (x : Stream) : Nat := if x.state = .running ∨ x.state = .starved then x.plan.weight else 0

/-- The cap of a stream. -/
def capOf (x : Stream) (s : State) : Nat :=
  let all := weightIn s.cs.vib + weightIn s.cs.slow + weightIn s.cs.leak
  if all = 0 then 0 else poolOf s * weightIn x / all

/-- The blocks a stream can obtain. -/
def roomOf (x : Stream) (s : State) : Nat := (x.plan.res - x.heldRes) + min (poolLeft s) (capOf x s - x.heldPool)

/-- A stream after its target plan has become `p`, with `room` blocks of the pool free: nothing where `p` is applied already, applied
at once where the stream holds nothing and the rise fits, and waiting otherwise. -/
def PlanTaken (p : Plan) (room : Nat) (wanted : Bool) (x y : Stream) : Prop :=
  let fits := x.heldRes + x.heldPool = 0 ∧ p.res ≤ x.plan.res + room
  let moving : StreamState := if wanted then .running else .idle
  (p = x.plan → y.plan = x.plan ∧ y.state = if x.state = .pendingPlan then moving else x.state) ∧
  (p ≠ x.plan → fits → y.plan = p ∧ y.target = none ∧ y.state = moving) ∧
  (p ≠ x.plan → ¬fits → y.plan = x.plan ∧ y.target = some p ∧ y.state = .pendingPlan)

/-- A stream follows plan `p`: it is applied and nothing waits, or it waits (R79, R80). -/
def PlanFollows (p : Plan) (x : Stream) : Prop :=
  (x.plan = p ∧ x.state ≠ .pendingPlan) ∨ (x.state = .pendingPlan ∧ x.target = some p)

/-- The leak test of the LEAKING record `i`, which stands as `r` in `s`, has ended (R17, R79, R123, R124, R147, R155): the record is DONE,
its leak section ABORTED with the abort mark and COMPLETE with the worst verdict without, its report assembled and at the tail of the
queue; the chambers rest; and the LEAK stream follows no recipe, or that of the waiting unit whose transfer starts (R12). -/
def TestEnded (i : Fin 8) (r : UnitRecord) (s t : State) : Prop :=
  OnlyChanges [.lp, .ut, .cs, .lkc, .cu, .reports] s t ∧
  (let leak : LeakSection := if r.abort then { r.leak with state := .aborted, verdict := some .aborted }
      else { r.leak with state := .complete, verdict := some r.leak.worstVerdict };
    let r' : UnitRecord := { r with state := .done, doneTime := some s.now, leak := leak }
    ∃ part, t.ut.records[i] = some { r' with report := some part } ∧ IsReport (s.recipeOf r) r' part) ∧
  (StationLaw s →
    (NoUnitIn .runDone s ∨ s.halt.transfer = true → OtherUnitsKept i s t ∧ PlanFollows ⟨0, 0, 100⟩ (t.stream .leak)) ∧
    (s.halt.transfer = false → ∀ (j : Fin 8) (q : UnitRecord), IsUnitIn .runDone j q s →
      t.ut.records[j] = some { q with state := .inTransfer } ∧ t.ut.transferLine = true ∧
      PlanFollows (s.recipeOf q).leakPlan (t.stream .leak))) ∧
  t.reports = s.reports ++ [r.id] ∧ (∀ c, t.chamber c = ⟨.idle, none, none, none⟩) ∧ t.lkc.queue = [] ∧
  t.lkc.resetVent = s.lkc.resetVent ∧
  Announced ⟨.unit i, .unit r.id (some .done) r.abort s.now⟩ t ∧
  Announced ⟨.reportReady, .reportReady t.reports.length t.reports.head? s.now⟩ t

/-- The entry to CLOSED of a window, whose counts and accumulators are those of `g` (R96, R99, R11, R12). Its summary and results join the
noise section of the RUNNING record `i`, whose profile has ended. With others to close, that is all. As the last of the table it brings
the noise verdict, the empty table, and RUN_DONE or IN_TRANSFER, where the transfer starts at once. -/
def WindowClosed (g : Window) (i : Fin 8) (r : UnitRecord) (s t : State) : Prop :=
  let summaries := r.noise.summaries ++ [g.summary]
  let results := r.noise.results ++ g.results s.rs.live
  let last := ∀ v ∈ s.oa.windows, v.number ≠ g.number → v.state = .closed
  let starts : Bool := !s.halt.transfer && s.unit2.isNone
  OtherUnitsKept i s t ∧
  (¬last → t.ut.records[i] = some { r with noise := ⟨summaries, results, r.noise.verdict⟩ } ∧
    t.oa.windows = s.oa.windows.map fun v => if v.number = g.number then { g with state := .closed } else v) ∧
  (last → t.oa.windows = [] ∧
    t.ut.records[i] = some { r with
      state := if starts then .inTransfer else .runDone
      noise := ⟨summaries, results, some (worst (results.map OrderResult.grade))⟩ } ∧
    t.ut.transferLine = (if starts then true else s.ut.transferLine) ∧
    t.ut.transferTimer = (if starts then some (s.rs.live.transfer * 1000) else s.ut.transferTimer) ∧
    (starts = true → PlanFollows (s.recipeOf r).leakPlan (t.stream .leak)) ∧
    Announced ⟨.unit i, .unit r.id (some (if starts then .inTransfer else .runDone)) r.abort s.now⟩ t ∧
    (t.stream .slow).state ≠ .running ∧ (t.stream .slow).state ≠ .starved ∧
    t.lp.silence = if t.anyWorking then s.lp.silence else .disarmed)

/-! ## Layouts (spec/10 sections 10.4 and 10.5) -/

/-- A stream block of STREAM_GET, 27 bytes. -/
def streamBlock (x : Stream) (wanted : Bool) (busy : Nat) (s : State) : List Byte :=
  let plan (p : Plan) : List Byte := leBytes 2 p.res ++ [codeByte p.weight, codeByte p.threshold]
  [codeByte x.state.code, if wanted then 1 else 0] ++ plan x.plan ++
  (match x.target with
    | some p => if x.state = .pendingPlan then plan p else [0, 0, 0, 0]
    | none => [0, 0, 0, 0]) ++
  leBytes 2 x.heldRes ++ leBytes 2 x.heldPool ++ leBytes 2 (capOf x s) ++ leBytes 2 (roomOf x s) ++ [codeByte busy] ++
  (match x.lastSeq with
    | some n => leBytes 4 n.toNat
    | none => [0xFF, 0xFF, 0xFF, 0xFF]) ++ leBytes 4 x.dropped

/-- A signed field of `n` bytes that may be absent: its most negative value then. -/
def signedField (n : Nat) (x : Option Int) : List Byte :=
  match x with
  | some v => leInt n v
  | none => List.replicate (n - 1) 0 ++ [0x80]

/-- A verdict or grade, 0FFh when absent. -/
def verdictField (v : Option Verdict) : Byte :=
  match v with
  | some g => codeByte g.code
  | none => 0xFF

/-- A summary of 23 bytes with the results of its window, 13 bytes each. -/
def summaryBytes (results : List OrderResult) (w : WindowSummary) : List Byte :=
  let mine := results.filter fun o => decide (o.window = w.number)
  [codeByte w.number, codeByte w.kind.code, codeByte w.direction.code, if w.opened then 1 else 0] ++
  [w.nReq, w.nMin, w.nAcc, w.dropped, w.slip, w.wrongWay, w.speedBand, w.overload, w.released].flatMap (leBytes 2) ++
  [codeByte mine.length] ++
  mine.flatMap fun o => [codeByte o.channel.code, codeByte o.order, codeByte o.grade.code] ++ leBytes 6 o.power ++
    leInt 2 o.level ++ leInt 2 o.limit

/-- A chamber result of 20 bytes. -/
def chamberBytes (x : ChamberResult) : List Byte :=
  [match x.kind with | some k => codeByte k.code | none => 0xFF, codeByte x.attempts,
    match x.outcome with | some o => codeByte o.code | none => 0xFF, verdictField x.verdict] ++
  signedField 8 x.q ++ signedField 4 x.d ++ leBytes 4 (x.tMs.getD 0)

/-- A defect entry of 13 bytes; a measured value beyond 32 bits is given by its sign, and −2^31 as beyond (log 34). -/
def defectBytes (x : Defect) : List Byte :=
  (match x.item with
    | .drag => [0, 0, 0, 0]
    | .noise w c q => [1, codeByte w, codeByte c.code, codeByte q]
    | .chamber c => [2, codeByte c.val, 0, 0]) ++
  [codeByte x.grade.code] ++
  signedField 4 (x.measured.map fun v =>
    if v ≤ -2147483648 then -2147483647 else if 2147483647 ≤ v then 2147483647 else v) ++ signedField 4 x.limit

/-- The unit record as UNIT_GET and REPORT_GET send it: identity, times, verdict, run-in, noise, leak, interruptions, defects. The
interruptions are eight bytes, 0 past the last of the list (the model's choice, log 37). -/
def recordBytes (r : UnitRecord) : List Byte :=
  let text (n : Nat) (bs : List Byte) : List Byte := (bs ++ List.replicate n 0).take n
  let time (t : Option CellTime) : List Byte := match t with | some v => leBytes 4 v.toNat | none => [0, 0, 0, 0]
  let present (b : Bool) (n : Nat) : Nat := if b then n else 0
  let part := r.report.getD ⟨0, .pass, [], 0⟩
  leBytes 2 r.id ++ text 20 r.serial ++ [codeByte r.slot.val] ++ leBytes 4 r.digest.toNat ++
  [codeByte part.toothCount, codeByte r.state.code] ++
  [codeByte (present r.startTime.isSome 1 + present r.doneTime.isSome 2 + present r.report.isSome 4)] ++
  leBytes 4 r.loadTime.toNat ++ time r.startTime ++ time r.doneTime ++
  [if r.report.isSome then codeByte part.overall.code else 0xFF, if r.abort then 1 else 0] ++
  [codeByte r.runIn.state.code, verdictField r.runIn.verdict] ++ leBytes 4 r.runIn.steps ++
  [verdictField r.runIn.dragResult, codeByte (r.runIn.failStep.getD 0)] ++ signedField 4 r.runIn.dragMean ++
  signedField 2 r.runIn.peakOil ++ signedField 2 r.runIn.peakHousing ++ signedField 2 r.runIn.endHousing ++
  [verdictField r.noise.verdict, codeByte r.noise.summaries.length] ++ r.noise.summaries.flatMap (summaryBytes r.noise.results) ++
  [codeByte r.leak.state.code, verdictField r.leak.verdict] ++
  chamberBytes r.leak.chambers[0] ++ chamberBytes r.leak.chambers[1] ++ chamberBytes r.leak.chambers[2] ++
  chamberBytes r.leak.chambers[3] ++
  [codeByte r.interruptions.length, if r.overflow then 1 else 0] ++ text 8 (r.interruptions.map fun n => codeByte n.val) ++
  [codeByte part.defects.length, codeByte part.notListed] ++ part.defects.flatMap defectBytes

end Sys2Proof.Machine
end

