-- ==== Sys2Proof/Certificates/Slice0/Obligations.lean ====
section
/-! DEFINITION. The statements for the provers. Each cites the rules of the spec it formalises; where one rests on a choice of the
model it names the log entry. -/

open Sys2Proof Sys2Proof.Machine

/-! ## The machine -/

/-- A step takes the command at the front of the queue, first in, first out. With no command waiting it is one millisecond: the clock,
the period timer and every running timer move, and nothing else does (the model's choice, log 2). -/
def Obligations.StepTakesTheFrontCommand : Prop :=
  (∀ (c : Instr) (rest : List Instr) (s : State), s.pending = c :: rest → step s = exec c (s.setPending rest)) ∧
  ∀ s : State, s.pending = [] → ∃ t, step s = .next t ∧ OnlyChanges [.clock, .lp, .ut, .pe, .afe, .lkc] s t ∧
    t.clockUs = s.clockUs + 1000 ∧
    t.lp = { s.lp with silence := match s.lp.silence with | .running left => .running (left - 1) | x => x } ∧
    t.ut = { s.ut with transferTimer := s.ut.transferTimer.map (· - 1) } ∧
    t.pe = { s.pe with stepTimer := s.pe.stepTimer.map (· - 1), settleTimer := s.pe.settleTimer.map (· - 1) } ∧
    t.afe = { s.afe with periodUs := s.afe.periodUs.map (· + 1000) } ∧
    t.lkc.queue = s.lkc.queue ∧ t.lkc.resetVent = s.lkc.resetVent ∧
    ∀ c : Fin 4, t.lkc.chambers[c] = { s.lkc.chambers[c] with timer := (s.lkc.chambers[c]).timer.map (· - 1) }

/-- What a reset leaves in each block (R20, R40, R63, R83, R104, R125, R144, R145, R168). The levels of the lines, the mode and the
slots' contents are the model's choice (log 6), and the halt style is deduced (log 20); this says nothing of them. -/
def Obligations.ResetStateHoldsTheResetValues : Prop :=
  let s := State.reset
  s.pending = [] ∧ s.clockUs = 0 ∧
  (∀ i : Fin 8, s.ut.records[i] = none) ∧ s.ut.idCounter = 1 ∧ s.ut.transferLine = false ∧ s.ut.transferTimer = none ∧
  (∀ k : Fin 16, (s.rs.slots[k]).inUse = 0) ∧ s.rs.scanning = true ∧ s.rs.live = defaultConfig ∧ s.rs.source = .defaults ∧
  s.pe.phase = .idle ∧ s.pe.step = none ∧ s.pe.setpoint = 0 ∧ s.pe.torqueL = 0 ∧ s.pe.torqueR = 0 ∧ s.pe.enable = false ∧
  s.pe.brake = true ∧ s.pe.cause = none ∧ s.pe.stepTimer = none ∧ s.pe.settleTimer = none ∧ s.pe.counters = [] ∧
  s.pe.dragRecords = 0 ∧ s.pe.dragSamples = 0 ∧ s.pe.dragSum = 0 ∧
  s.afe.revolution = 0 ∧ s.afe.slowSlot = 0 ∧ s.afe.leakSlot = 0 ∧ s.afe.openVib = none ∧ s.afe.periodUs = none ∧
  (∀ st, s.stream st = ⟨.idle, ⟨0, 0, 100⟩, none, 0, 0, 0, none⟩) ∧ s.cs.poolSize = 1536 ∧ s.cs.freeBlocks = 1536 ∧
  (∀ st, s.cs.cap st = 0) ∧ (∀ d : Fin 32, (s.cs.vibDescs[d]).state = .free) ∧
  (∀ d : Fin 8, (s.cs.slowDescs[d]).state = .free ∧ (s.cs.leakDescs[d]).state = .free) ∧
  s.oa.queue = [] ∧ s.oa.current = none ∧ s.oa.windows = [] ∧
  (∀ c, s.chamber c = ⟨.idle, none, none, none⟩) ∧ s.lkc.queue = [] ∧ (∀ c, s.fillLine c = false ∧ s.ventLine c = true) ∧
  s.cu.stack = [⟨1, 13, .full, 0, 0⟩] ∧ s.cu.rl = 13 ∧ s.cu.mask = 0 ∧ s.halt = .full ∧
  (∀ n, (s.cond n).severity = (conditionTable[n]).severity ∧ (s.cond n).vector = (conditionTable[n]).vector ∧
    (s.cond n).injected = false) ∧
  (s.cond 1).latch = true ∧ (s.cond 1).source = false ∧ (s.cond 1).lastActive = some 0 ∧
  (s.cond 13).source = false ∧ (s.cond 14).source = false ∧ (s.cond 15).source = false ∧
  s.lp.receiver = .hunt ∧ s.lp.head = none ∧ s.lp.second = none ∧ s.lp.badFrames = 0 ∧ s.lp.overruns = 0 ∧
  s.lp.silence = .disarmed ∧ s.reports = []

/-- POWER_ON and RESET_LINE reset every block, whatever the cell was doing; the slots keep their images and the field lines and the
mode stand (R20, R40, R63, R83, R104, R125, R144, R145, R168). The halt style after the reset is deduced (log 20). That lines, mode and
images stand over a reset (log 6), and the live values, range faults, pulse counter and step start before the first of their events
(log 16), are the model's choice. -/
def Obligations.PowerOnAndResetLineResetEveryBlock : Prop :=
  ∀ (s : State) (c : Instr), c = .powerOn ∨ c = .resetLine → ∃ t, exec c s = .next t ∧
    OnlyChanges [.clock, .lp, .ut, .rs, .pe, .afe, .cs, .oa, .lkc, .cu, .reports] s t ∧ t.clockUs = 0 ∧
    t.ut = .atReset ∧ t.afe = .atReset ∧ t.cs = .atReset ∧ t.oa = .atReset ∧ t.lkc = .atReset ∧ t.reports = [] ∧
    t.pe = { ProfileEngine.atReset with halt := if s.lines.estop then .hard else .soft } ∧
    t.rs.scanning = true ∧ t.rs.live = defaultConfig ∧ t.rs.source = .defaults ∧
    (∀ k : Fin 16, t.rs.slots[k] = { s.rs.slots[k] with inUse := 0 }) ∧
    t.cu.mode = s.cu.mode ∧ t.cu.mask = 0 ∧ t.cu.rl = (if s.lines.estop then 15 else 13) ∧
    t.cu.stack = (if s.lines.estop then [⟨0, 15, .full, 13, 0⟩] else []) ++ [⟨1, 13, .full, 0, 0⟩] ∧
    (∀ n, t.cond n =
      let latch := decide (n = 1) || (decide (n = 0) && s.lines.estop)
      ⟨(conditionTable[n]).severity, (conditionTable[n]).vector, lineAsserts s.lines n, latch, false,
        if latch || lineAsserts s.lines n then some 0 else none⟩) ∧
    t.lp.receiver = .hunt ∧ t.lp.head = none ∧ t.lp.second = none ∧ t.lp.badFrames = 0 ∧ t.lp.overruns = 0 ∧
    t.lp.silence = .disarmed ∧ t.lp.reply = none ∧ t.lp.restartDue = false ∧
    (∃ x, t.lp.sending = some (.notice ⟨.condition 1, x⟩)) ∧
    t.lp.notices.map Notice.key = if s.lines.estop then [.condition 0] else []

/-- STARTUP_SCAN_END settles the slots, puts the cell configuration in force, loads the condition settings, makes one taking check,
and gives the reset vent its end (R34, R125, R140, R144). The bytes of an interrupted slot are free values (log 7). -/
def Obligations.StartupScanEndPutsTheConfigurationInForce : Prop :=
  ∀ s : State, s.rs.scanning = true → ∃ t, exec .startupScanEnd s = .next t ∧
    OnlyChanges [.freeValues, .lp, .ut, .rs, .pe, .afe, .cs, .oa, .lkc, .cu, .reports] s t ∧
    t.rs.scanning = false ∧
    (∀ k : Fin 16, let x := s.rs.slots[k]; let y := t.rs.slots[k]
      if x.state = .writing ∨ x.state = .erasing ∨ x.state = .closing ∨ x.mark = true then
        y.state = .invalid ∧ y.reason = some .interrupted ∧ y.written = 0 ∧ y.digest = none ∧ y.mark = false ∧
        y.bytes = x.bytes ∧ y.inUse = x.inUse
      else y = x) ∧
    ((s.slot 0).state = .valid ∧ (s.slot 0).mark = false →
      t.rs.live = readConfig (s.slot 0).bytes ∧ t.rs.source = .slot0) ∧
    (¬((s.slot 0).state = .valid ∧ (s.slot 0).mark = false) → t.rs.live = defaultConfig ∧ t.rs.source = .defaults) ∧
    SettingsLoaded t.rs.live s t ∧ TakingCheckMade (scanFound t.rs.live s) t ∧
    (∀ stop, s.lkc.resetVent = .running stop → t.lkc.resetVent = .running (some t.rs.live.resetVent)) ∧
    (s.lkc.resetVent = .over → t.lkc.resetVent = .over)

/-! ## The host line -/

/-- The bytes of a command's frame, alone or after noise that holds no start byte, are received as one frame and have the effect of
the command's row (spec/10 section 10.2, R157, R158). That the row itself is the arrival of its frame is the model's choice (log 1). -/
def Obligations.ReceivedFrameIsItsCommand : Prop :=
  ∀ (c : Instr) (f : Frame) (noise : List Byte) (s : State), commandFrame c = some f → c.wf = true →
    startByte ∉ noise → s.lp.receiver = .hunt →
    ∃ t, exec (.frameReceived (noise ++ f.wire)) s = .next t ∧ exec c s = .next t

/-- A frame with a wrong check, one that states a body above 1,024 bytes, one of a kind from 40h on, and one broken by a gap are
each discarded and counted, and change nothing else; a gap in HUNT is no gap (R157, R158, R167). -/
def Obligations.BrokenFramesAreCountedAndDiscarded : Prop :=
  ∀ s : State,
    (∀ (f : Frame) (a b : Byte), s.lp.receiver = .hunt → f.body.length ≤ 1024 → [a, b] ≠ f.checkBytes →
      ∃ t, exec (.frameReceived (startByte :: (f.core ++ [a, b]))) s = .next t ∧ OnlyChanges [.lp] s t ∧
        t.lp = { (arbitrate s).lp with badFrames := count16 s.lp.badFrames }) ∧
    (∀ kind tag lo hi : Byte, s.lp.receiver = .hunt → 1024 < lo.toNat + 256 * hi.toNat →
      ∃ t, exec (.frameReceived [startByte, kind, tag, lo, hi]) s = .next t ∧ OnlyChanges [.lp] s t ∧
        t.lp = { (arbitrate s).lp with badFrames := count16 s.lp.badFrames }) ∧
    (∀ f : Frame, s.lp.receiver = .hunt → f.body.length ≤ 1024 → 0x40 ≤ f.kind.toNat →
      ∃ t, exec (.frameReceived f.wire) s = .next t ∧ OnlyChanges [.lp] s t ∧
        t.lp = { (arbitrate s).lp with badFrames := count16 s.lp.badFrames, silence := s.silenceAfterFrame }) ∧
    (s.lp.receiver ≠ .hunt →
      ∃ t, exec .frameGapTimeout s = .next t ∧ OnlyChanges [.lp] s t ∧
        t.lp = { (arbitrate s).lp with badFrames := count16 s.lp.badFrames, receiver := .hunt }) ∧
    (s.lp.receiver = .hunt → exec .frameGapTimeout s = .next (arbitrate s))

/-- A command frame that arrives while the head is taken waits in the second place, and is discarded and counted as an overrun while
both are taken (R159, R167). One that takes the head while the start-up scan runs is answered STARTING, unless it is STATUS or IDENTIFY
(R34, R160). Any frame that reaches the head is tested in the order of R160: a kind that names no command is UNKNOWN_KIND, a command
while the scan runs STARTING, and a body whose length is not one of spec/10 section 10.2 BAD_LENGTH. Nothing else changes but the line
silence timer. A command's row leaves a partial frame in the receiver as it stands (the model's choice, log 36). -/
def Obligations.CommandsWaitOverrunOrFindTheScanRunning : Prop :=
  (∀ (f : Frame) (s : State), s.lp.receiver = .hunt → s.lp.head = none → f.body.length ≤ 1024 → f.kind.toNat < 0x40 →
    ∃ t, exec (.frameReceived f.wire) s = .next t ∧
      ((∀ e ∈ commandBodies, e.1 ≠ f.kind) → OnlyAnswers f [0x10] s t) ∧
      ∀ e ∈ commandBodies, e.1 = f.kind → let served := s.rs.scanning = false ∨ f.kind = 0x01 ∨ f.kind = 0x02
        (¬served → OnlyAnswers f [0x20] s t) ∧
        (served → f.body.length < e.2.1 ∨ e.2.2 < f.body.length → OnlyAnswers f [0x11] s t)) ∧
  ∀ (c : Instr) (f : Frame) (s : State), commandFrame c = some f → c.wf = true → ∃ t, exec c s = .next t ∧
    (∀ held, s.lp.head = some held → OnlyChanges [.lp] s t ∧
      (s.lp.second = none →
        t.lp = { (arbitrate s).lp with second := some f, silence := s.silenceAfterFrame }) ∧
      (∀ g, s.lp.second = some g →
        t.lp = { (arbitrate s).lp with overruns := count16 s.lp.overruns, silence := s.silenceAfterFrame })) ∧
    (s.lp.head = none → s.rs.scanning = true → f.kind ≠ 0x01 → f.kind ≠ 0x02 → OnlyAnswers f [0x20] s t)

/-- The transmitter finishes a frame (R159, R160, R164, R166): a sent notice frees it for what waits; a sent reply frees the head, a
frame in the second place moves up and is handled as its command is from an empty holding, but that it restarts no line silence timer;
a free transmitter finishes nothing (the model's choice, log 4). RESTART is answered OK, and the end of its reply brings the reset. -/
def Obligations.FrameSentFreesItsPlace : Prop :=
  (∀ (tag : Byte) (s : State), s.listens → ∃ t, exec (.restart tag) s = .next t ∧ OnlyChanges [.lp] s t ∧
    Answered ⟨0x03, tag, []⟩ [0x00] s t ∧ t.lp.restartDue = true ∧ t.lp.notices = s.lp.notices ∧
    t.lp.silence = s.silenceAfterFrame) ∧
  ∀ s : State,
    (s.lp.sending = none → exec .frameSent s = .next (arbitrate s)) ∧
    (∀ n, s.lp.sending = some (.notice n) → ∃ t, exec .frameSent s = .next t ∧ OnlyChanges [.lp] s t ∧ HoldingKept s t ∧
      (∀ r, s.lp.reply = some r → t.lp.sending = some (.reply r) ∧ t.lp.reply = none ∧ t.lp.notices = s.lp.notices) ∧
      (s.lp.reply = none → ∀ m ms, s.lp.notices = m :: ms →
        t.lp.sending = some (.notice m) ∧ t.lp.notices = ms ∧ t.lp.reply = none) ∧
      (s.lp.reply = none → s.lp.notices = [] → t.lp.sending = none ∧ t.lp.notices = [] ∧ t.lp.reply = none)) ∧
    (∀ f, s.lp.sending = some (.reply f) → s.lp.restartDue = true → exec .frameSent s = exec .resetLine s) ∧
    (∀ f, s.lp.sending = some (.reply f) → s.lp.restartDue = false → s.lp.second = none → s.lp.reply = none →
      ∃ t, exec .frameSent s = .next t ∧ OnlyChanges [.lp] s t ∧ t.lp.head = none ∧ t.lp.second = none ∧
        t.lp.badFrames = s.lp.badFrames ∧ t.lp.overruns = s.lp.overruns ∧ t.lp.receiver = s.lp.receiver ∧
        (∀ m ms, s.lp.notices = m :: ms → t.lp.sending = some (.notice m) ∧ t.lp.notices = ms) ∧
        (s.lp.notices = [] → t.lp.sending = none ∧ t.lp.notices = [])) ∧
    (∀ f g, s.lp.sending = some (.reply f) → s.lp.restartDue = false → s.lp.second = some g →
      ∃ t r, exec .frameSent s = .next t ∧ t.lp.head = some g ∧ t.lp.second = none ∧
        t.lp.sending = some (.reply ⟨g.kind + 0x80, g.tag, r⟩) ∧ t.lp.reply = none ∧
        ∀ c : Instr, commandFrame c = some g → c.wf = true →
          ∃ t', exec c (s.setLp { s.lp with sending := none, head := none, second := none }) = .next t' ∧ SameButSilence t' t ∧
            (s.silenceAfterFrame = s.lp.silence → t = t'))

/-! ## Queries -/

/-- STATUS and IDENTIFY are answered OK at any time with the figures of R162 and R163, and STREAM_GET and COND_LIST once the scan is
over with those of R81 and R142, in the layouts of spec/10; nothing else changes. The cap and the blocks that a stream can obtain, in
the stream blocks, are those of R73 and R75. -/
def Obligations.PlainQueriesOnlyAnswer : Prop :=
  ∀ (tag : Byte) (s : State), s.lp.head = none →
    (∃ t, exec (.status tag) s = .next t ∧ OnlyAnswers ⟨0x01, tag, []⟩
      ([0x00, flagByte s.rs.scanning, codeByte s.cu.mode.code, codeByte s.cu.rl, codeByte s.cu.mask,
        codeByte s.cu.stack.length, codeByte s.halt.code] ++
        leBytes 2 (s.unitId s.unit1) ++ leBytes 2 (s.unitId s.unit2) ++ [codeByte s.ut.count, codeByte s.rs.source.code] ++
        leBytes 2 s.cs.freeBlocks ++
        [codeByte s.cs.vib.state.code, codeByte s.cs.slow.state.code, codeByte s.cs.leak.state.code] ++
        leBytes 2 s.lp.badFrames ++ leBytes 2 s.lp.overruns ++ leBytes 4 s.now.toNat) s t) ∧
    (∃ t, exec (.identify tag) s = .next t ∧ OnlyAnswers ⟨0x02, tag, []⟩
      ([0x00, 0x57, 0x65, 0x63, 0x6B, 0x74, 0x6F, 0x6E, 0x00, 0x54, 0x2D, 0x38, 0x36, 0x30, 0x00, 0x00, 0x00,
        Config.boardRevision, 16, 0x00, 0x10] ++ leBytes 4 Config.boardSerial.toNat) s t) ∧
    (s.rs.scanning = false → ∃ t, exec (.streamGet tag) s = .next t ∧ OnlyAnswers ⟨0x0D, tag, []⟩
      (0x00 :: (
        streamBlock s.cs.vib ((s.oa.windows.any fun w => decide (w.state = .opened)) && !s.halt.noise)
          ((List.finRange 32).filter fun d => decide ((s.cs.vibDescs[d]).state ≠ .free)).length s ++
        streamBlock s.cs.slow (s.ut.records.toList.any fun o => o.any fun r => decide (r.state = .running))
          ((List.finRange 8).filter fun d => decide ((s.cs.slowDescs[d]).state ≠ .free)).length s ++
        streamBlock s.cs.leak (s.ut.records.toList.any fun o => o.any fun r => decide (r.state = .leaking))
          ((List.finRange 8).filter fun d => decide ((s.cs.leakDescs[d]).state ≠ .free)).length s ++
        leBytes 2 s.cs.freeBlocks ++ leBytes 2 (poolOf s) ++ leBytes 2 (poolLeft s) ++ leBytes 2 s.afe.faultCode ++
        leBytes 4 s.afe.revolution.toNat ++ leBytes 4 s.afe.slowSlot ++ leBytes 4 s.afe.leakSlot)) s t) ∧
    (s.rs.scanning = false → ∃ t, exec (.condList tag) s = .next t ∧ OnlyAnswers ⟨0x10, tag, []⟩
      (0x00 :: ([codeByte s.cu.mode.code, codeByte s.cu.rl, codeByte s.cu.mask, codeByte s.halt.code,
        codeByte s.cu.stack.length] ++ s.cu.stack.reverse.flatMap HoldFrame.encode ++
        (List.finRange 20).flatMap fun n => [codeByte (s.cond n).severity, codeByte (s.condCode n)])) s t)

/-- UNIT_GET, REPORT_GET and COND_GET are answered with the record they name, whole and as it stands, in the layouts of spec/10, or with
the refusal of R9, R153 or R136; nothing else changes. A measured Q of −2^31 counts as beyond 32 bits (log 34), and the interruptions are
eight bytes, 0 past the last of the list (log 37): the model's choices. -/
def Obligations.RecordQueriesReturnTheRecord : Prop :=
  ∀ (tag : Byte) (s : State), s.listens →
    (∀ (id : BitVec 16) (i : Fin 8) (r : UnitRecord), CarriesId id.toNat i r s →
      ∃ t, exec (.unitGet tag id) s = .next t ∧ OnlyAnswers ⟨0x0B, tag, leBytes 2 id.toNat⟩ (0x00 :: recordBytes r) s t) ∧
    (∀ id : BitVec 16, NoUnitCarries id.toNat s →
      ∃ t, exec (.unitGet tag id) s = .next t ∧ OnlyAnswers ⟨0x0B, tag, leBytes 2 id.toNat⟩ [0x15] s t) ∧
    (s.reports = [] → ∃ t, exec (.reportGet tag) s = .next t ∧ OnlyAnswers ⟨0x18, tag, []⟩ [0x02] s t) ∧
    (∀ (id : Nat) (rest : List Nat) (i : Fin 8) (r : UnitRecord), s.reports = id :: rest → CarriesId id i r s →
      ∃ t, exec (.reportGet tag) s = .next t ∧ OnlyAnswers ⟨0x18, tag, []⟩ (0x00 :: recordBytes r) s t) ∧
    (∀ n : Fin 20, ∃ t, exec (.condGet tag (BitVec.ofNat 8 n.val)) s = .next t ∧
      OnlyAnswers ⟨0x11, tag, [BitVec.ofNat 8 n.val]⟩
        ([0x00, BitVec.ofNat 8 n.val, codeByte (conditionKind n).code, codeByte (s.cond n).severity,
          codeByte (s.cond n).vector.code, codeByte (s.condCode n)] ++ leBytes 4 ((s.cond n).lastActive.getD 0).toNat ++
          (((s.cu.stack.find? fun f => decide (f.number = n)).map HoldFrame.encode).getD [0, 0, 0, 0, 0, 0, 0, 0])) s t) ∧
    (∀ n : Byte, 19 < n.toNat →
      ∃ t, exec (.condGet tag n) s = .next t ∧ OnlyAnswers ⟨0x11, tag, [n]⟩ [0x12] s t)

/-- SLOT_BLANK tells from the bytes themselves whether every one of the 4,096 reads FFh, and where the first that does not stands
(R26). SLOT_VERIFY, SLOT_READ and SLOT_INFO answer by the slot, with the refusals of R31 and R36 in their order. A slot number above 15
is BAD_VALUE (R23). Nothing else changes. -/
def Obligations.SlotQueriesAnswerFromTheSlot : Prop :=
  (∀ (tag : Byte) (s : State), s.listens → MemoryLaw s →
    (∀ b : Byte, 15 < b.toNat → ∃ t, exec (.slotBlank tag b) s = .next t ∧ OnlyAnswers ⟨0x21, tag, [b]⟩ [0x12] s t) ∧
    ∀ k : Fin 16,
      ∃ t, exec (.slotBlank tag (BitVec.ofNat 8 k.val)) s = .next t ∧
        (((s.slot k).state = .erasing ∨ (s.slot k).state = .closing) →
          OnlyAnswers ⟨0x21, tag, [BitVec.ofNat 8 k.val]⟩ [0x1B] s t) ∧
        ((s.slot k).state ≠ .erasing → (s.slot k).state ≠ .closing →
          ((∀ off, off < 4096 → (s.slot k).byteAt off = 0xFF) →
            OnlyAnswers ⟨0x21, tag, [BitVec.ofNat 8 k.val]⟩ [0x00, 1, 0, 0] s t) ∧
          (∀ off, off < 4096 → (s.slot k).byteAt off ≠ 0xFF → (∀ o, o < off → (s.slot k).byteAt o = 0xFF) →
            OnlyAnswers ⟨0x21, tag, [BitVec.ofNat 8 k.val]⟩ ([0x00, 0] ++ leBytes 2 off) s t))) ∧
  ∀ (tag : Byte) (s : State), s.listens →
    (∀ (b : Byte) (digest : Word32) (off len : BitVec 16), 15 < b.toNat →
      (∃ t, exec (.slotVerify tag b digest) s = .next t ∧
        OnlyAnswers ⟨0x24, tag, b :: leBytes 4 digest.toNat⟩ [0x12] s t) ∧
      (∃ t, exec (.slotRead tag b off len) s = .next t ∧
        OnlyAnswers ⟨0x25, tag, b :: (leBytes 2 off.toNat ++ leBytes 2 len.toNat)⟩ [0x12] s t) ∧
      (∃ t, exec (.slotInfo tag b) s = .next t ∧ OnlyAnswers ⟨0x26, tag, [b]⟩ [0x12] s t)) ∧
    ∀ k : Fin 16, let b := BitVec.ofNat 8 k.val
      (∀ digest : Word32, ∃ t, exec (.slotVerify tag b digest) s = .next t ∧
        OnlyAnswers ⟨0x24, tag, b :: leBytes 4 digest.toNat⟩
          (if (s.slot k).state ≠ .valid then [0x14]
            else if (s.slot k).digest = some digest then [0x03] else [0x04]) s t) ∧
      (∀ off len : BitVec 16, ∃ t, exec (.slotRead tag b off len) s = .next t ∧
        OnlyAnswers ⟨0x25, tag, b :: (leBytes 2 off.toNat ++ leBytes 2 len.toNat)⟩
          (if 4096 ≤ off.toNat then [0x13]
            else if len.toNat = 0 ∨ 1000 < len.toNat ∨ 4096 < off.toNat + len.toNat then [0x11]
            else if (s.slot k).state = .erasing ∨ (s.slot k).state = .closing then [0x1B]
            else 0x00 :: (List.range len.toNat).map fun i => (s.slot k).byteAt (off.toNat + i)) s t) ∧
      (∃ t, exec (.slotInfo tag b) s = .next t ∧
        OnlyAnswers ⟨0x26, tag, [b]⟩
          ([0x00, codeByte (s.slot k).state.code, codeOpt ((s.slot k).reason.map Reason.code)] ++
            leBytes 2 (s.slot k).written ++ leBytes 4 ((s.slot k).digest.getD 0).toNat ++
            [codeByte (s.slot k).inUse, if k = 0 then codeByte s.rs.source.code else 0xFF]) s t)

/-! ## The Recipe Store -/

/-- SLOT_ERASE and SLOT_CLOSE: the refusals of R23, R24 and R28 in their order, and otherwise the slot enters ERASING or CLOSING with
its mark set, the reply is ACCEPTED, and nothing else changes. -/
def Obligations.SlotEraseAndCloseBeginTheirOperation : Prop :=
  ∀ (tag : Byte) (s : State), s.listens →
    (∀ b : Byte, 15 < b.toNat →
      (∃ t, exec (.slotErase tag b) s = .next t ∧ OnlyAnswers ⟨0x20, tag, [b]⟩ [0x12] s t) ∧
      (∃ t, exec (.slotClose tag b) s = .next t ∧ OnlyAnswers ⟨0x23, tag, [b]⟩ [0x12] s t)) ∧
    ∀ k : Fin 16, let b := BitVec.ofNat 8 k.val; let x := s.slot k
      (∃ t, exec (.slotErase tag b) s = .next t ∧
        (if k = 0 ∧ s.cu.mode = .production then OnlyAnswers ⟨0x20, tag, [b]⟩ [0x1D] s t
          else if k = 0 ∧ s.ut.count ≠ 0 then OnlyAnswers ⟨0x20, tag, [b]⟩ [0x14] s t
          else if x.state = .erasing ∨ x.state = .closing then OnlyAnswers ⟨0x20, tag, [b]⟩ [0x1B] s t
          else if 0 < x.inUse then OnlyAnswers ⟨0x20, tag, [b]⟩ [0x1A] s t
          else OnlyChanges [.lp, .rs] s t ∧ Answered ⟨0x20, tag, [b]⟩ [0x01] s t ∧ t.lp.notices = s.lp.notices ∧
            t.slot k = { x with state := .erasing, reason := none, written := 0, digest := none, mark := true } ∧
            OtherSlotsKept k s t ∧ t.rs.live = s.rs.live ∧ t.rs.source = s.rs.source ∧ t.rs.scanning = s.rs.scanning)) ∧
      (∃ t, exec (.slotClose tag b) s = .next t ∧
        (if k = 0 ∧ s.cu.mode = .production then OnlyAnswers ⟨0x23, tag, [b]⟩ [0x1D] s t
          else if k = 0 ∧ s.ut.count ≠ 0 then OnlyAnswers ⟨0x23, tag, [b]⟩ [0x14] s t
          else if x.state ≠ .writing then OnlyAnswers ⟨0x23, tag, [b]⟩ [0x14] s t
          else OnlyChanges [.lp, .rs] s t ∧ Answered ⟨0x23, tag, [b]⟩ [0x01] s t ∧ t.lp.notices = s.lp.notices ∧
            t.slot k = { x with state := .closing, mark := true } ∧
            OtherSlotsKept k s t ∧ t.rs.live = s.rs.live ∧ t.rs.source = s.rs.source ∧ t.rs.scanning = s.rs.scanning))

/-- SLOT_WRITE: the refusals of R23 and R27 in their order change nothing; otherwise the data reads back at the offset, every other
byte reads as before, the written length advances, and a BLANK slot enters WRITING (R27). A data part above 1,000 bytes is
refused by the Line Port before the owner's checks, with the same BAD_LENGTH (R160). -/
def Obligations.SlotWriteStoresInOrder : Prop :=
  ∀ (tag : Byte) (offset : BitVec 16) (data : List Byte) (s : State), s.listens → MemoryLaw s → data.length ≤ 1021 →
    (∀ b : Byte, 15 < b.toNat → data.length ≤ 1000 →
      ∃ t, exec (.slotWrite tag b offset data) s = .next t ∧
        OnlyAnswers ⟨0x22, tag, b :: (leBytes 2 offset.toNat ++ data)⟩ [0x12] s t) ∧
    ∀ k : Fin 16, let b := BitVec.ofNat 8 k.val; let x := s.slot k
      let f : Frame := ⟨0x22, tag, b :: (leBytes 2 offset.toNat ++ data)⟩
      ∃ t, exec (.slotWrite tag b offset data) s = .next t ∧
        (if 1000 < data.length then OnlyAnswers f [0x11] s t
          else if k = 0 ∧ s.cu.mode = .production then OnlyAnswers f [0x1D] s t
          else if k = 0 ∧ s.ut.count ≠ 0 then OnlyAnswers f [0x14] s t
          else if x.state = .erasing ∨ x.state = .closing then OnlyAnswers f [0x1B] s t
          else if x.state = .valid ∨ x.state = .invalid then OnlyAnswers f [0x1C] s t
          else if data = [] then OnlyAnswers f [0x11] s t
          else if offset.toNat ≠ x.written then OnlyAnswers f (0x13 :: leBytes 2 x.written) s t
          else if 4096 < offset.toNat + data.length then OnlyAnswers f [0x11] s t
          else OnlyChanges [.lp, .rs] s t ∧ Answered f (0x00 :: leBytes 2 (offset.toNat + data.length)) s t ∧
            t.lp.notices = s.lp.notices ∧
            (∀ j, (h : j < data.length) → (t.slot k).bytes.read (offset.toNat + j) = data[j]) ∧
            (∀ a, a < offset.toNat ∨ offset.toNat + data.length ≤ a → (t.slot k).bytes.read a = x.bytes.read a) ∧
            t.slot k = { x with bytes := (t.slot k).bytes, state := .writing, written := offset.toNat + data.length } ∧
            OtherSlotsKept k s t ∧ t.rs.live = s.rs.live ∧ t.rs.source = s.rs.source ∧ t.rs.scanning = s.rs.scanning)

/-- ERASE_COMPLETE of an ERASING slot empties it, and CLOSE_COMPLETE of a CLOSING recipe slot makes it VALID where no check of R30 fails
and INVALID with the first reason that does, with the digest of R29; each announces STORE_DONE (R25, R29, R35). A close of slot 0 whose
image fails no check of R32 puts it in force with its condition settings and one taking check, and announces STORE_DONE (R33, R141); one
that fails leaves the live configuration and announces it too. Without such an operation in flight neither changes anything (log 4). -/
def Obligations.StoreOperationsComplete : Prop :=
  (∀ (k : Fin 16) (s : State), s.rs.scanning = false →
    ((s.slot k).state = .erasing → ∃ t, exec (.eraseComplete k) s = .next t ∧ OnlyChanges [.lp, .rs] s t ∧ HoldingKept s t ∧
      t.slot k = ⟨[], none, .blank, none, 0, none, (s.slot k).inUse, false⟩ ∧
      (∀ off, (t.slot k).byteAt off = 0xFF) ∧ OtherSlotsKept k s t ∧ t.rs.live = s.rs.live ∧ t.rs.source = s.rs.source ∧
      Announced ⟨.storeDone, .storeDone k .blank none none⟩ t) ∧
    ((s.slot k).state ≠ .erasing → exec (.eraseComplete k) s = .next (arbitrate s)) ∧
    (k ≠ 0 → (s.slot k).state = .closing → ∃ t, exec (.closeComplete k) s = .next t ∧ OnlyChanges [.lp, .rs] s t ∧
      HoldingKept s t ∧ OtherSlotsKept k s t ∧ t.rs.live = s.rs.live ∧ t.rs.source = s.rs.source ∧
      (let x := s.slot k;
        let why := recipeReason x.bytes x.written
        let y : Slot := { x with
          state := if why = none then .valid else .invalid, reason := why, mark := false
          digest := some (crc32 (x.bytes.readAll 0 x.written)) }
        t.slot k = y ∧ Announced ⟨.storeDone, .storeDone k y.state y.reason y.digest⟩ t)) ∧
    ((s.slot k).state ≠ .closing → exec (.closeComplete k) s = .next (arbitrate s))) ∧
  ∀ s : State, s.rs.scanning = false → (s.slot 0).state = .closing →
    let x := s.slot 0
    ∃ t, exec (.closeComplete 0) s = .next t ∧ OtherSlotsKept 0 s t ∧ t.rs.scanning = false ∧
      (configReason x.bytes x.written = none →
        OnlyChanges [.lp, .ut, .rs, .pe, .afe, .cs, .oa, .lkc, .cu, .reports] s t ∧
        t.slot 0 = { x with
          state := .valid, reason := none, mark := false, digest := some (crc32 (x.bytes.readAll 0 x.written)) } ∧
        t.rs.live = readConfig x.bytes ∧ t.rs.source = .slot0 ∧ SettingsLoaded (readConfig x.bytes) s t ∧
        Announced ⟨.storeDone, .storeDone 0 .valid none (some (crc32 (x.bytes.readAll 0 x.written)))⟩ t ∧
        TakingCheckMade (s.setCu { s.cu with conditions := loadSettings (readConfig x.bytes) s.cu.conditions }) t) ∧
      (∀ why, configReason x.bytes x.written = some why →
        OnlyChanges [.lp, .rs] s t ∧
        t.slot 0 = { x with
          state := .invalid, reason := some why, mark := false, digest := some (crc32 (x.bytes.readAll 0 x.written)) } ∧
        t.rs.live = s.rs.live ∧ t.rs.source = s.rs.source ∧
        Announced ⟨.storeDone, .storeDone 0 .invalid (some why) (some (crc32 (x.bytes.readAll 0 x.written)))⟩ t)

/-! ## Units -/

/-- LOAD_UNIT: a body above 21 bytes is BAD_LENGTH before the owner's checks (R160), and the refusals of R7 follow in their order; each
changes nothing. Otherwise the FREE record of lowest index becomes LOADED with the counter's id, or the first after it that no record in
use carries; the slot is bound, the UNIT notice is raised, and the VIB and SLOW plans become the recipe's, applied at once where the
stream holds nothing and the rise fits, VIB first, and waiting otherwise (R3, R7, R8, R79). A new target while a plan waits is tried at
once (log 14). -/
def Obligations.LoadUnitBindsARecipeToAFreeRecord : Prop :=
  ∀ (tag slot : Byte) (serial : List Byte) (s : State), s.listens → serial.length ≤ 1023 →
    let f : Frame := ⟨0x08, tag, slot :: serial⟩
    ∃ t, exec (.loadUnit tag slot serial) s = .next t ∧
      (if 20 < serial.length then OnlyAnswers f [0x11] s t
        else if serial = [] ∨ (∃ ch ∈ serial, ch.toNat < 0x20 ∨ 0x7E < ch.toNat) ∨ 15 < slot.toNat then OnlyAnswers f [0x12] s t
        else if ∀ i : Fin 8, (s.ut.records[i]).isSome = true then OnlyAnswers f [0x16] s t
        else if ∃ i : Fin 8, (s.ut.records[i]).any (fun r => r.state.atStation1) = true then
          OnlyAnswers f [0x17] s t
        else if slot = 0 then OnlyAnswers f [0x18] s t
        else if ∀ k : Fin 16, k.val = slot.toNat → (s.slot k).state ≠ .valid then OnlyAnswers f [0x19] s t
        else
          ∃ (i : Fin 8) (k : Fin 16) (id : Nat), k.val = slot.toNat ∧
            s.ut.records[i] = none ∧ (∀ j, j < i → (s.ut.records[j]).isSome = true) ∧
            OnlyChanges [.lp, .ut, .rs, .cs, .cu] s t ∧ Answered f (0x00 :: leBytes 2 id) s t ∧
            (let after (n : Nat) : Nat := if 65535 ≤ n then 1 else n + 1;
              NoUnitCarries id s ∧ (NoUnitCarries s.ut.idCounter s → id = s.ut.idCounter) ∧
              ∃ n : Fin 8, id = Nat.repeat after n.val s.ut.idCounter ∧
                ∀ m : Fin 8, m < n → ¬NoUnitCarries (Nat.repeat after m.val s.ut.idCounter) s) ∧
            t.ut.idCounter = (if 65535 ≤ id then 1 else id + 1) ∧
            t.ut.transferLine = s.ut.transferLine ∧ t.ut.transferTimer = s.ut.transferTimer ∧
            (let recipe := readRecipe (s.slot k).bytes;
              (∃ r, t.ut.records[i] = some r ∧ r.id = id ∧ r.serial = serial ∧ r.slot = k ∧
                r.digest = (s.slot k).digest.getD 0 ∧ r.state = .loaded ∧ r.loadTime = s.now ∧ r.startTime = none ∧
                r.doneTime = none ∧ r.abort = false ∧
                r.runIn = ⟨.notStarted, none, 0, none, none, none, none, none, none⟩ ∧ r.noise = ⟨[], [], none⟩ ∧
                r.leak.state = .notStarted ∧ r.leak.verdict = none ∧ r.interruptions = [] ∧ r.overflow = false ∧
                r.report = none ∧ ∀ c : Fin 4, (r.leak.chambers[c]).attempts = 0 ∧
                  (r.leak.chambers[c]).outcome = none ∧
                  (r.leak.chambers[c]).verdict = if (recipe.chambers[c]).enabled then none else some .skipped) ∧
              PlanTaken recipe.vibPlan (poolLeft s) (s.wanted .vib) s.cs.vib t.cs.vib ∧
              PlanTaken recipe.slowPlan (poolLeft (s.setCs { s.cs with vib := t.cs.vib })) (s.wanted .slow) s.cs.slow t.cs.slow) ∧
            OtherUnitsKept i s t ∧ t.slot k = { s.slot k with inUse := (s.slot k).inUse + 1 } ∧ OtherSlotsKept k s t ∧
            t.cs.leak = s.cs.leak ∧ Announced ⟨.unit i, .unit id (some .loaded) false s.now⟩ t)

/-- START_RUN of a LOADED record (R10, R42, R43): it runs from now on, answered OK. Under a PROFILE halt the profile is HELD with the
drive as it was. Without one the drive is enabled and released and step 1 is entered; where that step lasts, it is current with its timers
and its clamped torques, and the setpoint has not moved. Either way the windows are fresh, SLOW capture is wanted (R74), the line silence
timer runs (R167), and the UNIT notice is raised (R6). Any other record is refused. -/
def Obligations.StartRunBeginsOrHoldsTheProfile : Prop :=
  ∀ (tag : Byte) (id : BitVec 16) (s : State), s.listens → let f : Frame := ⟨0x09, tag, leBytes 2 id.toNat⟩
    (NoUnitCarries id.toNat s → ∃ t, exec (.startRun tag id) s = .next t ∧ OnlyAnswers f [0x15] s t) ∧
    ∀ (i : Fin 8) (r : UnitRecord), CarriesId id.toNat i r s →
      (r.state ≠ .loaded → ∃ t, exec (.startRun tag id) s = .next t ∧ OnlyAnswers f [0x14] s t) ∧
      (r.state = .loaded → StationLaw s →
        let recipe := readRecipe (s.slot r.slot).bytes
        let fresh := (recipe.windows.zipIdx 1).map fun (spec, n) => Window.fresh n spec
        ∃ t, exec (.startRun tag id) s = .next t ∧ Answered f [0x00] s t ∧
          let began := t.lp.silence = .running s.rs.live.silence ∧
            t.stream .slow = { s.stream .slow with
              state := if (s.stream .slow).state = .idle then .running else (s.stream .slow).state } ∧
            Announced ⟨.unit i, .unit r.id (some .running) r.abort s.now⟩ t
          OnlyChanges [.lp, .ut, .pe, .afe, .cs, .oa, .cu] s t ∧ OtherUnitsKept i s t ∧
          (∃ r', t.ut.records[i] = some r' ∧ r'.startTime = some s.now ∧ r'.id = r.id ∧ r'.serial = r.serial ∧
            r'.abort = r.abort ∧ r'.leak = r.leak) ∧
          (s.halt.profile = true →
            t.ut.records[i] = some { r with
              state := .running, startTime := some s.now, runIn := { r.runIn with state := .inProgress } } ∧
            t.pe.phase = .held ∧ t.pe.step = none ∧ t.pe.setpoint = s.pe.setpoint ∧ t.pe.enable = s.pe.enable ∧
            t.pe.brake = s.pe.brake ∧
            t.pe.halt = (if ∃ fr ∈ s.cu.stack, 14 ≤ fr.severity then .hard else .soft) ∧
            t.oa.windows = fresh ∧ began) ∧
          (s.halt.profile = false → ∀ x rest, recipe.steps = x :: rest → x.endsAtEntry = false →
            (∃ r', t.ut.records[i] = some r' ∧ r'.state = .running ∧ r'.runIn.state = .inProgress ∧
              r'.runIn.steps = count32 r.runIn.steps) ∧
            StepLoaded recipe x s.halt.noise fresh t ∧ t.pe.step = some 1 ∧ t.pe.setpoint = s.pe.setpoint ∧
            t.pe.enable = true ∧ t.pe.brake = false ∧ t.pe.halt = .none ∧
            t.pe.counters = recipe.steps.map Step.loopCount ∧ began))

/-- ABORT_UNIT (R18, R19, R60, R123): refused NOT_FOUND and WRONG_STATE as the rule states; otherwise answered OK with the abort mark set
and the UNIT notice raised, and then by the record's state: a LOADED record ends its run-in ABORTED and enters RUN_DONE or rides on; the
profile of a RUNNING one enters STOPPING with cause ABORT in every phase that may still turn the drive, its step's window paused (R62),
and ends ABORTED at once at setpoint 0 and in HELD (log 19), with close for every window (R88), and where it has ended already it stands;
a record in RUN_DONE or IN_TRANSFER goes on as before; a record in AT_LEAK is DONE with every chamber SKIPPED; the chambers of a LEAKING
record vent, never to come back. -/
def Obligations.AbortUnitActsByTheRecordsState : Prop :=
  ∀ (tag : Byte) (id : BitVec 16) (s : State), s.listens → let f : Frame := ⟨0x0A, tag, leBytes 2 id.toNat⟩
    (NoUnitCarries id.toNat s → ∃ t, exec (.abortUnit tag id) s = .next t ∧ OnlyAnswers f [0x15] s t) ∧
    ∀ (i : Fin 8) (r : UnitRecord), CarriesId id.toNat i r s → StationLaw s →
      (r.state = .done → ∃ t, exec (.abortUnit tag id) s = .next t ∧ OnlyAnswers f [0x14] s t) ∧
      (r.state ≠ .done → ∃ t r', exec (.abortUnit tag id) s = .next t ∧ Answered f [0x00] s t ∧
        OnlyChanges [.lp, .ut, .pe, .afe, .cs, .oa, .lkc, .cu, .reports] s t ∧
        t.ut.records[i] = some r' ∧ r'.abort = true ∧ r'.id = r.id ∧ r'.serial = r.serial ∧
        (∃ x, Announced ⟨.unit i, x⟩ t) ∧
        (r.state = .loaded →
          r'.runIn = { r.runIn with state := .aborted, verdict := some .aborted, steps := 0 } ∧ r'.startTime = r.startTime ∧
          t.oa.windows = [] ∧ t.pe = s.pe ∧
          r'.state = (if s.halt.transfer = false ∧ s.unit2 = none then .inTransfer else .runDone)) ∧
        (r.state = .running → s.pe.phase = .stepping → s.pe.setpoint ≠ 0 →
          r' = { r with abort := true } ∧ t.pe.phase = .stopping ∧ t.pe.cause = some .abort ∧ t.pe.stepTimer = none ∧
          t.pe.settleTimer = none ∧ t.pe.torqueL = 0 ∧ t.pe.torqueR = 0 ∧ t.pe.setpoint = s.pe.setpoint ∧
          t.pe.dragRecords = 0 ∧
          ∀ (k : Nat) (x : Step), IsStepping k x i r s → t.oa.windows = pausedWindow x.window s.oa.windows) ∧
        (r.state = .running → s.pe.phase = .reapproach ∨ s.pe.phase = .suspended ∨ s.pe.phase = .stopping → s.pe.setpoint ≠ 0 →
          r' = { r with abort := true } ∧ t.pe = { s.pe with
            phase := .stopping, cause := some .abort, stepTimer := none, torqueL := 0, torqueR := 0 }) ∧
        (r.state = .running → s.pe.phase = .held ∨ (s.pe.phase ≠ .idle ∧ s.pe.setpoint = 0) →
          r'.runIn.state = .aborted ∧ r'.runIn.verdict = some .aborted ∧ r'.runIn.steps = r.runIn.steps ∧
          EngineAtRest t ∧ (s.pe.phase ≠ .stepping → TableClosed s.oa.windows r r' s t) ∧
          ∀ (k : Nat) (x : Step), IsStepping k x i r s → TableClosed (pausedWindow x.window s.oa.windows) r r' s t) ∧
        (r.state = .running → s.pe.phase = .idle → r' = { r with abort := true } ∧ t.pe = s.pe ∧ t.oa = s.oa) ∧
        ((r.state = .runDone ∨ r.state = .inTransfer) →
          OnlyChanges [.lp, .ut] s t ∧ r' = { r with abort := true } ∧ OtherUnitsKept i s t) ∧
        (r.state = .atLeak → r'.state = .done ∧ r'.doneTime = some s.now ∧ r'.leak.state = .skipped ∧
          r'.leak.verdict = some .pass ∧ (∀ c : Fin 4, (r'.leak.chambers[c]).verdict = some .skipped) ∧
          t.reports = s.reports ++ [r.id]) ∧
        (r.state = .leaking →
          ((∃ c, (s.chamber c).phase.attempting = true ∨ (s.chamber c).phase = .vent) →
            r' = { r with abort := true } ∧ t.lkc.queue = [] ∧
            ∀ c, t.chamber c =
              let x := s.chamber c
              match x.phase with
              | .waitFill => ⟨.idle, none, none, none⟩
              | .fill | .settle | .measure => ⟨.vent, some (s.chamberPlan c).vent, some .idle, none⟩
              | .vent => { x with afterVent := if x.afterVent = some .requeue then some .idle else x.afterVent }
              | .idle | .done => x) ∧
          ((∀ c, (s.chamber c).phase.attempting = false ∧ (s.chamber c).phase ≠ .vent) →
            r'.state = .done ∧ r'.leak.state = .aborted ∧ r'.leak.verdict = some .aborted ∧
            r'.leak.chambers = r.leak.chambers ∧ t.reports = s.reports ++ [r.id])))

/-- ARRIVE2_RISE moves the record IN_TRANSFER to AT_LEAK or, by the leak start decision, on to LEAKING or DONE; the conveyor stops and
the VIB and SLOW streams follow no recipe. Without a record IN_TRANSFER it is ignored (R13, R16, R79). -/
def Obligations.ArrivalStopsTheConveyorAndDecidesTheLeakStart : Prop :=
  ∀ s : State, StationLaw s →
    (NoUnitIn .inTransfer s → exec .arrive2Rise s = .next (arbitrate s)) ∧
    ∀ (i : Fin 8) (r : UnitRecord), IsUnitIn .inTransfer i r s →
      let skip := r.abort = true ∨ (r.runIn.verdict = some .fail ∧ (s.recipeOf r).leakAfterFail = false) ∨
        ∀ c : Fin 4, ((s.recipeOf r).chambers[c]).enabled = false
      ∃ t r', exec .arrive2Rise s = .next t ∧ OnlyChanges [.lp, .ut, .cs, .lkc, .cu, .reports] s t ∧ HoldingKept s t ∧
        t.ut.transferLine = false ∧ t.ut.transferTimer = none ∧ OtherUnitsKept i s t ∧
        t.ut.records[i] = some r' ∧ r'.id = r.id ∧ r'.runIn = r.runIn ∧ r'.noise = r.noise ∧ r'.abort = r.abort ∧
        (∃ x, Announced ⟨.unit i, x⟩ t) ∧
        (skip → r'.state = .done ∧ r'.doneTime = some s.now ∧ r'.leak.state = .skipped ∧
          r'.leak.verdict = some .pass ∧ t.reports = s.reports ++ [r.id]) ∧
        (¬skip → s.halt.leak = true →
          r' = { r with state := .atLeak } ∧ t.lkc = s.lkc ∧ t.reports = s.reports) ∧
        (¬skip → s.halt.leak = false →
          r'.state = .leaking ∧ r'.leak.state = .inProgress ∧ r'.leak.chambers = r.leak.chambers ∧ t.reports = s.reports) ∧
        (∀ st ∈ [StreamId.vib, StreamId.slow], (t.stream st).plan = ⟨0, 0, 100⟩ ∨
          ((t.stream st).state = .pendingPlan ∧ (t.stream st).target = some ⟨0, 0, 100⟩))

/-- TRANSFER_START (R12, R79): where a record is in RUN_DONE, station 2 is free and TRANSFER is not in the halt set, the TRANSFER line
is asserted with the full transfer time, the record is IN_TRANSFER, and the LEAK plan is its recipe's, applied or waiting;
where one of the three fails nothing changes. -/
def Obligations.TransferStartsWhenItsThreeThingsHold : Prop :=
  ∀ s : State,
    (NoUnitIn .runDone s ∨ s.halt.transfer = true ∨ ¬Station2Free s → exec .transferStart s = .next (arbitrate s)) ∧
    ∀ (i : Fin 8) (r : UnitRecord), IsUnitIn .runDone i r s → s.halt.transfer = false → Station2Free s →
      ∃ t, exec .transferStart s = .next t ∧ OnlyChanges [.lp, .ut, .cs, .cu] s t ∧ HoldingKept s t ∧
        t.ut.transferLine = true ∧ t.ut.transferTimer = some (s.rs.live.transfer * 1000) ∧
        t.ut.records[i] = some { r with state := .inTransfer } ∧ OtherUnitsKept i s t ∧ t.ut.idCounter = s.ut.idCounter ∧
        Announced ⟨.unit i, .unit r.id (some .inTransfer) r.abort s.now⟩ t ∧
        t.cs.vib = s.cs.vib ∧ t.cs.slow = s.cs.slow ∧
        ((t.stream .leak).plan = (s.recipeOf r).leakPlan ∨
          ((t.stream .leak).state = .pendingPlan ∧ (t.stream .leak).target = some (s.recipeOf r).leakPlan))

/-- LINE_SILENCE_EXPIRY and TRANSFER_TIMER_EXPIRY (R167, R14, R15, R127, R129): the time left has passed, LINE_SILENT or TRANSFER_TIMEOUT
is latched with its source no longer asserted, and the taking check is made where the condition was not active before. The line silence
timer is EXPIRED, or DISARMED where the halt that followed left no unit working. The transfer timer is stopped and its record stays
IN_TRANSFER; the TRANSFER line falls exactly where TRANSFER enters the halt set. That an expiry lets the time left pass (log 3), and that
without its running timer neither changes anything (log 4), are the model's choice. -/
def Obligations.TimerExpiriesLatchTheirConditions : Prop :=
  (∀ s : State, s.lp.silence = .disarmed ∨ s.lp.silence = .expired → exec .lineSilenceExpiry s = .next (arbitrate s)) ∧
  (∀ (s : State) (left : Nat), s.lp.silence = .running left → ∃ t, exec .lineSilenceExpiry s = .next t ∧
    OnlyChanges [.clock, .lp, .ut, .pe, .afe, .cs, .oa, .lkc, .cu, .reports] s t ∧ HoldingKept s t ∧
    t.clockUs = s.clockUs + 1000 * left ∧
    (t.cond 2).latch = true ∧ (t.cond 2).source = false ∧ (t.cond 2).injected = (s.cond 2).injected ∧
    (s.active 2 = false → (t.cond 2).lastActive = some t.now ∧ TakingCheckMade (raisedAt (1000 * left) 2
      { s.cond 2 with latch := true, source := false, lastActive := some t.now } s) t) ∧
    (s.active 2 = true → (t.cond 2).lastActive = (s.cond 2).lastActive ∧ t.cu.stack = s.cu.stack ∧ t.cu.rl = s.cu.rl) ∧
    (t.lp.silence = .expired ∨ (t.lp.silence = .disarmed ∧ t.anyWorking = false))) ∧
  ∀ s : State,
    (s.ut.transferTimer = none → exec .transferTimerExpiry s = .next (arbitrate s)) ∧
    ∀ (left : Nat) (i : Fin 8) (r : UnitRecord), s.ut.transferTimer = some left → IsUnitIn .inTransfer i r s → StationLaw s →
      ∃ t, exec .transferTimerExpiry s = .next t ∧ HoldingKept s t ∧
        OnlyChanges [.clock, .lp, .ut, .pe, .afe, .cs, .oa, .lkc, .cu, .reports] s t ∧
        t.clockUs = s.clockUs + 1000 * left ∧ t.ut.transferTimer = none ∧
        (∃ r', t.ut.records[i] = some r' ∧ r'.state = .inTransfer) ∧
        (t.cond 9).latch = true ∧ (t.cond 9).source = false ∧
        (s.active 9 = false → (t.cond 9).lastActive = some t.now ∧
          TakingCheckMade (raisedAt (1000 * left) 9
            { s.cond 9 with latch := true, source := false, lastActive := some t.now } s) t) ∧
        (s.active 9 = true → t.cu.stack = s.cu.stack ∧ t.cu.rl = s.cu.rl) ∧
        t.ut.transferLine = (s.ut.transferLine && !(!s.halt.transfer && t.halt.transfer))

/-- LEAK_START (R16, R107, R108): a record in AT_LEAK whose test is skipped is DONE; one whose test is not waits under a LEAK halt, and
otherwise is LEAKING with its enabled chambers queued in order, the first of them filling once the reset vent is over. Without a
record in AT_LEAK nothing changes. -/
def Obligations.LeakStartSkipsWaitsOrStarts : Prop :=
  ∀ s : State,
    (NoUnitIn .atLeak s → exec .leakStart s = .next (arbitrate s)) ∧
    ∀ (i : Fin 8) (r : UnitRecord), IsUnitIn .atLeak i r s →
      let skip := r.abort = true ∨ (r.runIn.verdict = some .fail ∧ (s.recipeOf r).leakAfterFail = false) ∨
        ∀ c : Fin 4, ((s.recipeOf r).chambers[c]).enabled = false
      (skip → ∃ t r', exec .leakStart s = .next t ∧ HoldingKept s t ∧
        OnlyChanges [.lp, .ut, .cs, .lkc, .cu, .reports] s t ∧
        t.ut.records[i] = some r' ∧ r'.state = .done ∧ r'.doneTime = some s.now ∧ r'.leak.state = .skipped ∧
        r'.leak.verdict = some .pass ∧ (∀ c : Fin 4, (r'.leak.chambers[c]).verdict = some .skipped) ∧
        t.reports = s.reports ++ [r.id]) ∧
      (¬skip → s.halt.leak = true → exec .leakStart s = .next (arbitrate s)) ∧
      (¬skip → s.halt.leak = false → StationLaw s → (∀ c, s.chamber c = ⟨.idle, none, none, none⟩) →
        s.lkc.queue = [] → ∃ t, exec .leakStart s = .next t ∧ HoldingKept s t ∧
          OnlyChanges [.lp, .ut, .cs, .lkc, .cu] s t ∧ OtherUnitsKept i s t ∧
          t.ut.records[i] = some { r with state := .leaking, leak := { r.leak with state := .inProgress } } ∧
          Announced ⟨.unit i, .unit r.id (some .leaking) r.abort s.now⟩ t ∧
          t.lp.silence = (if s.lp.silence = .disarmed then .running s.rs.live.silence else s.lp.silence) ∧
          (let enabled := (List.finRange 4).filter fun c => ((s.recipeOf r).chambers[c]).enabled;
            (s.lkc.resetVent ≠ .over → t.lkc.queue = enabled ∧
              ∀ c, t.chamber c = if c ∈ enabled then ⟨.waitFill, none, none, none⟩ else ⟨.idle, none, none, none⟩) ∧
            (s.lkc.resetVent = .over → ∀ c rest, enabled = c :: rest → t.lkc.queue = rest ∧
              ∀ d, t.chamber d =
                if d = c then ⟨.fill, some ((s.recipeOf r).chambers[c]).fillTimeout, none, none⟩
                else if d ∈ enabled then ⟨.waitFill, none, none, none⟩ else ⟨.idle, none, none, none⟩)))

/-- ENTER_RUN_DONE (R11, R12, R167): a RUNNING record whose profile has ended and whose windows are all CLOSED enters RUN_DONE, and
its transfer starts at once where station 2 is free and TRANSFER not halted; otherwise nothing changes. -/
def Obligations.RunDoneFollowsTheProfileAndTheWindows : Prop :=
  ∀ s : State,
    (NoUnitIn .running s → exec .enterRunDone s = .next (arbitrate s)) ∧
    ∀ (i : Fin 8) (r : UnitRecord), IsUnitIn .running i r s →
      let ended := r.runIn.state = .finished ∨ r.runIn.state = .failed ∨ r.runIn.state = .aborted
      (¬(ended ∧ s.oa.windows = []) → exec .enterRunDone s = .next (arbitrate s)) ∧
      (ended → s.oa.windows = [] → StationLaw s → ∃ t, exec .enterRunDone s = .next t ∧ HoldingKept s t ∧
        OnlyChanges [.lp, .ut, .cs, .cu] s t ∧ OtherUnitsKept i s t ∧
        (let starts : Bool := !s.halt.transfer && s.unit2.isNone;
          t.ut.records[i] = some { r with state := if starts then .inTransfer else .runDone } ∧
          t.ut.transferLine = (if starts then true else s.ut.transferLine) ∧
          t.ut.transferTimer = (if starts then some (s.rs.live.transfer * 1000) else s.ut.transferTimer) ∧
          Announced ⟨.unit i, .unit r.id (some (if starts then .inTransfer else .runDone)) r.abort s.now⟩ t) ∧
        (t.stream .slow).state ≠ .running ∧ (t.stream .slow).state ≠ .starved ∧
        t.lp.silence = if t.anyWorking then s.lp.silence else .disarmed)

/-- UNIT_DONE (R17, R79, R123, R124, R147 to R151, R155): a LEAKING record enters DONE, COMPLETE with the worst of its verdicts once
every enabled chamber is in its DONE phase with a verdict, or ABORTED once none vents. Its report has the overall verdict of R148
and the defects of R149 to R151, and joins the tail of the queue; the chambers rest; and the LEAK stream follows no recipe, or that of
the waiting unit whose transfer starts, applied or waiting. Before that nothing changes (log 4). -/
def Obligations.UnitDoneAssemblesTheReport : Prop :=
  ∀ s : State,
    (NoUnitIn .leaking s → exec .unitDone s = .next (arbitrate s)) ∧
    ∀ (i : Fin 8) (r : UnitRecord), IsUnitIn .leaking i r s →
      let finished := ∀ c, (s.chamberPlan c).enabled = true →
        (s.chamber c).phase = .done ∧ ((r.leak.chambers[c]).verdict).isSome = true
      let vented := ∀ c, (s.chamber c).phase ≠ .vent
      (r.abort = true → ¬vented → exec .unitDone s = .next (arbitrate s)) ∧
      (r.abort = false → ¬finished → exec .unitDone s = .next (arbitrate s)) ∧
      ((r.abort = true ∧ vented) ∨ (r.abort = false ∧ finished) →
        ∃ t, exec .unitDone s = .next t ∧ HoldingKept s t ∧ TestEnded i r s t)

/-- REPORT_RELEASE (R154, R17, R22): an id at the head of the queue is released, its record is FREE, its slot's count one lower, and
the reply carries the new length and head; an id elsewhere in the queue is WRONG_REPORT and any other NOT_FOUND, and those
change nothing. The abort mark in the notice of the freed record is the model's choice (log 33). -/
def Obligations.ReportReleaseFreesTheHead : Prop :=
  ∀ (tag : Byte) (id : BitVec 16) (s : State), s.listens → let f : Frame := ⟨0x19, tag, leBytes 2 id.toNat⟩
    (id.toNat ∉ s.reports → ∃ t, exec (.reportRelease tag id) s = .next t ∧ OnlyAnswers f [0x15] s t) ∧
    (∀ head rest, s.reports = head :: rest → id.toNat ≠ head → id.toNat ∈ rest →
      ∃ t, exec (.reportRelease tag id) s = .next t ∧ OnlyAnswers f [0x1F] s t) ∧
    ∀ (rest : List Nat) (i : Fin 8) (r : UnitRecord), s.reports = id.toNat :: rest → CarriesId id.toNat i r s →
      ∃ t, exec (.reportRelease tag id) s = .next t ∧ OnlyChanges [.lp, .ut, .rs, .reports] s t ∧
        Answered f (0x00 :: codeByte rest.length :: leBytes 2 (rest.head?.getD 0)) s t ∧
        t.reports = rest ∧ t.ut.records[i] = none ∧ OtherUnitsKept i s t ∧ t.ut.idCounter = s.ut.idCounter ∧
        t.ut.transferLine = s.ut.transferLine ∧ t.ut.transferTimer = s.ut.transferTimer ∧
        t.slot r.slot = { s.slot r.slot with inUse := (s.slot r.slot).inUse - 1 } ∧ OtherSlotsKept r.slot s t ∧
        Announced ⟨.unit i, .unit r.id none r.abort s.now⟩ t ∧
        Announced ⟨.reportReady, .reportReady rest.length rest.head? s.now⟩ t

/-! ## The Profile Engine -/

/-- SETPOINT_UPDATE (R44, R45, R51): update n + 1 comes at 2(n + 1) ms (that the row moves the clock there is log 3), the setpoint moves
toward the goal of its phase by a fifth of the rate in force and rests elsewhere, the record sent carries it, and in STOPPING the profile
ends at 0, with close for every window (R55, R88). The setpoint is taken within the maximum speed, as every update leaves it. The record
of the update that ends the profile carries drive enable as it was (log 10). Updates with no RUNNING unit are not spoken of. -/
def Obligations.SetpointUpdateMovesByTheRateInForce : Prop :=
  ∀ (s : State) (i : Fin 8) (r : UnitRecord), StationLaw s → IsUnitIn .running i r s →
    s.pe.setpoint.natAbs ≤ (s.recipeOf r).maxSpeed * 100 →
    let u := s.elapseTo (2 * (s.pe.updates + 1))
    let moved (goal : Int) (rate : Nat) : Int :=
      if s.pe.setpoint ≤ goal then min goal (s.pe.setpoint + rate / 5) else max goal (s.pe.setpoint - rate / 5)
    let top : Nat := (s.recipeOf r).maxSpeed * 100
    let clamped (v : Int) : Int := max (-(top : Int)) (min top v)
    ∃ t, exec .setpointUpdate s = .next t ∧ HoldingKept s t ∧ t.clockUs = u.clockUs ∧
      OnlyChanges [.clock, .lp, .ut, .pe, .afe, .cs, .oa, .lkc, .cu] s t ∧ t.pe.updates = s.pe.updates + 1 ∧
      ((s.pe.phase = .idle ∨ s.pe.phase = .held) →
        t.pe = { u.pe with updates := s.pe.updates + 1, sent := some ⟨0, false, 0, 0⟩ } ∧ OnlyChanges [.pe, .lp] u t) ∧
      (∀ k x, s.pe.step = some k → 1 ≤ k → (s.recipeOf r).steps[k - 1]? = some x →
        (s.pe.phase = .stepping →
          t.pe = { u.pe with
            updates := s.pe.updates + 1, setpoint := clamped (moved (x.target * 100) x.rate)
            sent := some ⟨clamped (moved (x.target * 100) x.rate), s.pe.enable, s.pe.torqueL, s.pe.torqueR⟩ } ∧
          OnlyChanges [.pe, .lp] u t) ∧
        (s.pe.phase = .reapproach →
          t.pe = { u.pe with
            updates := s.pe.updates + 1, setpoint := clamped (moved (x.target * 100) x.rate)
            sent := some ⟨clamped (moved (x.target * 100) x.rate), s.pe.enable, 0, 0⟩ } ∧
          OnlyChanges [.pe, .lp] u t)) ∧
      (s.pe.phase = .suspended → s.pe.halt ≠ .hard →
        t.pe = { u.pe with
          updates := s.pe.updates + 1, setpoint := moved 0 (s.recipeOf r).softStop
          sent := some ⟨moved 0 (s.recipeOf r).softStop, s.pe.enable, 0, 0⟩ } ∧ OnlyChanges [.pe, .lp] u t) ∧
      (s.pe.phase = .suspended → s.pe.halt = .hard →
        t.pe = { u.pe with
          updates := s.pe.updates + 1, sent := some ⟨s.pe.setpoint, s.pe.enable, 0, 0⟩ } ∧ OnlyChanges [.pe, .lp] u t) ∧
      (∀ cause, s.pe.phase = .stopping → s.pe.cause = some cause →
        t.pe.setpoint = moved 0 (s.recipeOf r).softStop ∧
        t.pe.sent = some ⟨moved 0 (s.recipeOf r).softStop, s.pe.enable, 0, 0⟩ ∧
        (moved 0 (s.recipeOf r).softStop ≠ 0 → t.pe.phase = .stopping ∧ OnlyChanges [.pe, .lp] u t) ∧
        (moved 0 (s.recipeOf r).softStop = 0 → EngineAtRest t ∧
          ∃ r', t.ut.records[i] = some r' ∧ RunInEnded cause r'.runIn ∧ r'.runIn.failStep = r.runIn.failStep ∧
            r'.runIn.dragResult = r.runIn.dragResult ∧ TableClosed s.oa.windows r r' s t))

/-- STEP_TIMER_EXPIRY (R43, R47, R48, R49, R51, R53, R62): the window of the step is paused; a RAMP step has failed, and the engine stops;
any other kind ends normally, a MEASURE_DRAG step with its drag result, and the step of R49 is entered where it lasts; past the last step
the profile finishes, at once at setpoint 0, with the verdict of R55 and close for every window (R88), and through STOPPING otherwise. A
failed RAMP at setpoint 0 ends at once (log 19); the time left passes (log 3); and without a running step timer nothing changes (log 4). A
next step that ends at its entry is not spoken of. -/
def Obligations.StepTimerExpiryEndsOrFailsTheStep : Prop :=
  ∀ s : State,
    (s.pe.stepTimer = none → exec .stepTimerExpiry s = .next (arbitrate s)) ∧
    ∀ (k left : Nat) (x : Step) (i : Fin 8) (r : UnitRecord), IsStepping k x i r s → s.pe.stepTimer = some left →
      ∃ t, exec .stepTimerExpiry s = .next t ∧ HoldingKept s t ∧ t.clockUs = s.clockUs + 1000 * left ∧
        OnlyChanges [.clock, .lp, .ut, .pe, .afe, .cs, .oa, .lkc, .cu] s t ∧
        (x.kind = .ramp → s.pe.setpoint ≠ 0 →
          t.pe.phase = .stopping ∧ t.pe.cause = some .failure ∧ t.pe.stepTimer = none ∧ t.pe.settleTimer = none ∧
          t.pe.torqueL = 0 ∧ t.pe.torqueR = 0 ∧ t.pe.setpoint = s.pe.setpoint ∧ t.pe.counters = s.pe.counters ∧
          t.oa.windows = pausedWindow x.window s.oa.windows ∧
          t.ut.records[i] = some { r with runIn := { r.runIn with failStep := some k } }) ∧
        (x.kind = .ramp → s.pe.setpoint = 0 →
          EngineAtRest t ∧ ∃ r', t.ut.records[i] = some r' ∧ r'.runIn.state = .failed ∧ r'.runIn.verdict = some .fail ∧
            r'.runIn.failStep = some k ∧ TableClosed (pausedWindow x.window s.oa.windows) r r' s t) ∧
        (x.kind ≠ .ramp → let n := nextStep k x (s.pe.counters.getD (k - 1) 0)
          ∀ y, 1 ≤ n.1 → (s.recipeOf r).steps[n.1 - 1]? = some y → y.endsAtEntry = false →
            StepEntered n.1 x y i r s t ∧ t.pe.counters = s.pe.counters.set (k - 1) n.2 ∧
            ∃ r', t.ut.records[i] = some r' ∧ DragEvaluated (s.recipeOf r) x s.pe r.runIn r'.runIn) ∧
        (x.kind ≠ .ramp → (s.recipeOf r).steps.length < (nextStep k x (s.pe.counters.getD (k - 1) 0)).1 →
          ProfileRunsOut x i r s t)

/-- ADVANCE_STEP (R50, R47, R49, R53): PROTECTED in PRODUCTION, WRONG_STATE in any phase but STEPPING; otherwise the current step, of any
kind, ends normally with the setpoint not moved, a MEASURE_DRAG step with its drag result, and the step of R49 is entered where it lasts;
past the last step the profile finishes, at once at setpoint 0, with close for every window (R88), and through STOPPING otherwise (R51,
R55). The window of the step that ends is paused, and the settle timer of the next one's loaded (R62, R43). -/
def Obligations.AdvanceStepEndsTheCurrentStep : Prop :=
  ∀ (tag : Byte) (s : State), s.listens → let f : Frame := ⟨0x0C, tag, []⟩
    (s.cu.mode = .production → ∃ t, exec (.advanceStep tag) s = .next t ∧ OnlyAnswers f [0x1D] s t) ∧
    (s.cu.mode = .maintenance → s.pe.phase ≠ .stepping →
      ∃ t, exec (.advanceStep tag) s = .next t ∧ OnlyAnswers f [0x14] s t) ∧
    ∀ (k : Nat) (x : Step) (i : Fin 8) (r : UnitRecord), s.cu.mode = .maintenance → IsStepping k x i r s →
      ∃ t, exec (.advanceStep tag) s = .next t ∧ Answered f [0x00] s t ∧
        OnlyChanges [.lp, .ut, .pe, .afe, .cs, .oa, .cu] s t ∧ t.pe.setpoint = s.pe.setpoint ∧
        let n := nextStep k x (s.pe.counters.getD (k - 1) 0)
        (∀ y, 1 ≤ n.1 → (s.recipeOf r).steps[n.1 - 1]? = some y → y.endsAtEntry = false →
          StepEntered n.1 x y i r s t ∧ t.pe.counters = s.pe.counters.set (k - 1) n.2 ∧
          ∃ r', t.ut.records[i] = some r' ∧ DragEvaluated (s.recipeOf r) x s.pe r.runIn r'.runIn) ∧
        ((s.recipeOf r).steps.length < n.1 → ProfileRunsOut x i r s t)

/-- DRIVE_FEEDBACK with no condition to raise and no PROFILE halt (R45, R46, R59, R128): a RAMP step that is on target ends and the step
of R49 is entered where it lasts; the last step's end finishes the profile, at once at setpoint 0 and through STOPPING otherwise (R51,
R55); a re-approach on target restarts the suspended step in full, its settle timer too, uncounted; any other record leaves the Profile
Engine alone. -/
def Obligations.FeedbackOnTargetEndsARampOrAReapproach : Prop :=
  ∀ (speed : Int) (s : State) (k : Nat) (x : Step) (i : Fin 8) (r : UnitRecord),
    StationLaw s → IsUnitIn .running i r s → s.pe.step = some k → 1 ≤ k → (s.recipeOf r).steps[k - 1]? = some x →
    s.halt.profile = false → speed.natAbs ≤ (s.recipeOf r).maxSpeed * 105 →
    let onTarget := s.pe.setpoint = x.target * 100 ∧ (speed - x.target * 100).natAbs ≤ (s.recipeOf r).tolerance * 100
    ∃ t, exec (.driveFeedback speed true false) s = .next t ∧ HoldingKept s t ∧
      OnlyChanges [.lp, .ut, .pe, .afe, .cs, .oa, .cu] s t ∧ t.afe.feedback = some ⟨speed, true, false⟩ ∧
      (t.cond 3).source = false ∧ (t.cond 4).source = false ∧ t.cu.stack = s.cu.stack ∧
      (s.pe.phase = .stepping → x.kind = .ramp → onTarget →
        let n := nextStep k x (s.pe.counters.getD (k - 1) 0)
        (∀ y, 1 ≤ n.1 → (s.recipeOf r).steps[n.1 - 1]? = some y → y.endsAtEntry = false →
          StepEntered n.1 x y i r s t ∧ t.pe.counters = s.pe.counters.set (k - 1) n.2) ∧
        ((s.recipeOf r).steps.length < n.1 → ProfileRunsOut x i r s t)) ∧
      (s.pe.phase = .reapproach → onTarget →
        StepLoaded (s.recipeOf r) x s.halt.noise s.oa.windows t ∧ t.pe.step = some k ∧ t.pe.setpoint = s.pe.setpoint ∧
        t.pe.counters = s.pe.counters ∧ t.ut = s.ut) ∧
      ((s.pe.phase = .stepping ∧ x.kind ≠ .ramp) ∨ (s.pe.phase ≠ .stepping ∧ s.pe.phase ≠ .reapproach) ∨ ¬onTarget →
        t.pe = s.pe ∧ t.ut = s.ut ∧ t.oa = s.oa ∧ t.cs = s.cs)

/-- DRIVE_FEEDBACK that ends no step and no re-approach (R46, R59, R128, R129, R133), as in a step that is no RAMP, before the setpoint has
reached the target, or out of tolerance: a measured speed above the limit of the station-1 recipe, or
above 315,000 with no unit there, latches OVERSPEED; a drive fault, or a drive not ready while drive enable has been on for 500 ms,
asserts the source of DRIVE_FAULT; and the taking check is made where one of them became active. Where neither did, the engine, the units
and the stack stand, also under a standing PROFILE halt. With the engine at rest nothing but the feedback, the conditions and what their
halts do changes. -/
def Obligations.FeedbackJudgesOverspeedAndDriveFault : Prop :=
  ∀ (limit : Nat) (speed : Int) (ready fault : Bool) (s : State), IsSpeedLimit limit s →
    (s.pe.phase ≠ .stepping ∧ s.pe.phase ≠ .reapproach) ∨
      (∃ (k : Nat) (x : Step) (i : Fin 8) (r : UnitRecord), StationLaw s ∧ IsUnitIn .running i r s ∧ s.pe.step = some k ∧ 1 ≤ k ∧
        (s.recipeOf r).steps[k - 1]? = some x ∧ ((s.pe.phase = .stepping ∧ x.kind ≠ .ramp) ∨ s.pe.setpoint ≠ x.target * 100 ∨
          (s.recipeOf r).tolerance * 100 < (speed - x.target * 100).natAbs)) →
    let tooFast := decide (limit < speed.natAbs)
    let faulty := driveFaultAsserted ready fault s
    let c3 := judged true tooFast (s.active 3) s.now (s.cond 3)
    let c4 := judged false faulty (s.active 4) s.now (s.cond 4)
    let v := s.setCu { s.cu with conditions := (s.cu.conditions.set 3 c3).set 4 c4 }
    ∃ t, exec (.driveFeedback speed ready fault) s = .next t ∧ HoldingKept s t ∧
      OnlyChanges [.lp, .ut, .pe, .afe, .cs, .oa, .lkc, .cu, .reports] s t ∧ t.afe.feedback = some ⟨speed, ready, fault⟩ ∧
      t.cond 3 = c3 ∧ (t.cond 4).latch = c4.latch ∧
      ((s.active 3 = false ∧ tooFast = true) ∨ (s.active 4 = false ∧ faulty = true) → TakingCheckMade v t) ∧
      ((s.active 3 = true ∨ tooFast = false) → (s.active 4 = true ∨ faulty = false) → HardWhereSevere s →
        OnlyChanges [.lp, .afe, .cu] s t ∧ t.afe = { s.afe with feedback := some ⟨speed, ready, fault⟩ } ∧ t.cu = v.cu) ∧
      (s.pe.phase = .idle → s.pe.enable = false →
        t.afe = { s.afe with feedback := some ⟨speed, ready, fault⟩ } ∧ t.cond 4 = c4)

/-- WINDOW_SETTLE_EXPIRY (R61, R74, R86): in STEPPING the settle timer's expiry sends open for the step's window where NOISE is not
halted, so that the window is OPEN from IDLE or PAUSED and VIB capture wanted; under a NOISE halt the open waits. The time left
passes (log 3), and without a running settle timer nothing changes (log 4). -/
def Obligations.WindowSettleExpiryOpensTheWindow : Prop :=
  ∀ s : State,
    (s.pe.settleTimer = none → exec .windowSettleExpiry s = .next (arbitrate s)) ∧
    ∀ (k left : Nat) (x : Step) (i : Fin 8) (r : UnitRecord), IsStepping k x i r s → s.pe.settleTimer = some left →
      let u := s.elapseMs left
      ∃ t, exec .windowSettleExpiry s = .next t ∧ OnlyChanges [.clock, .lp, .ut, .pe, .afe, .cs, .oa, .lkc, .cu] s t ∧
        OnlyChanges [.lp, .pe, .cs, .oa, .cu] u t ∧ HoldingKept s t ∧
        (s.halt.noise = true → t.pe = { u.pe with settleTimer := none, settled := true } ∧ t.oa = s.oa ∧ t.cs = s.cs) ∧
        (s.halt.noise = false → x.window ≠ 0 → s.pe.openSent = false →
          t.pe = { u.pe with settleTimer := none, settled := true, openSent := true } ∧
          t.oa.windows = (s.oa.windows.map fun w =>
            if w.number = x.window ∧ (w.state = .idle ∨ w.state = .paused) then { w with state := .opened, opened := true }
            else w) ∧
          t.oa.queue = s.oa.queue ∧ t.oa.current = s.oa.current ∧
          ((∃ w ∈ s.oa.windows, w.number = x.window ∧ (w.state = .idle ∨ w.state = .paused)) →
            (s.stream .vib).state = .idle → (t.stream .vib).state = .running))

/-! ## Acquisition and the Capture Store -/

/-- ENCODER_PULSE counts one pulse of either direction, and stores an angle sample in the open record at each multiple of 8 below 1,024
(R67, R68). REVOLUTION_TIMEOUT abandons the open record once 60,000,000 µs have passed since the last index: descriptor and blocks
come back and nothing is delivered (R68, R77). That the row itself lets that time pass (log 3), and that without an open record it
changes nothing (log 4), are the model's choice. -/
def Obligations.PulsesFillTheOpenRecordAndTimeoutAbandonsIt : Prop :=
  (∀ (us : Nat) (forward : Bool) (x : AngleSample) (s : State), let u := s.elapse us
    ∃ t, exec (.encoderPulse us forward x) s = .next t ∧ OnlyChanges [.lp, .afe, .cs] u t ∧ LineLeftToArbiter u t ∧
      t.clockUs = s.clockUs + us ∧
      t.afe = { u.afe with
        pulses := s.afe.pulses + 1, sawForward := s.afe.sawForward || forward, sawReverse := s.afe.sawReverse || !forward } ∧
      ((s.afe.openVib = none ∨ (s.afe.pulses + 1) % 8 ≠ 0 ∨ 1024 ≤ s.afe.pulses + 1) → t.cs = s.cs) ∧
      (∀ d : Fin 32, s.afe.openVib = some d → (s.afe.pulses + 1) % 8 = 0 → s.afe.pulses + 1 < 1024 →
        let old := s.cs.vibDescs[d]
        t.cs = { s.cs with vibDescs := s.cs.vibDescs.set d { old with
          blocks := old.blocks.map fun b =>
            { b with samples := b.samples ++ [max (-32768) (min 32767 (angleOf x b.channel))] }
          overload := old.overload ||
            old.blocks.any fun b => decide (32767 ≤ angleOf x b.channel) || decide (angleOf x b.channel ≤ -32768) } })) ∧
  (∀ s : State,
    (s.afe.openVib = none → exec .revolutionTimeout s = .next (arbitrate s)) ∧
    (∀ (d : Fin 32) (p : Nat), s.afe.openVib = some d → s.afe.periodUs = some p → p ≤ 60000000 → NoPlanWaits s →
      let u := s.elapse (60000001 - p)
      let old := s.cs.vibDescs[d]
      ∃ t, exec .revolutionTimeout s = .next t ∧ OnlyChanges [.lp, .afe, .cs] u t ∧ LineLeftToArbiter u t ∧
        t.afe = { u.afe with openVib := none } ∧
        t.cs = { s.cs with
          vib := { s.cs.vib with heldRes := s.cs.vib.heldRes - old.fromRes, heldPool := s.cs.vib.heldPool - old.fromPool }
          vibDescs := s.cs.vibDescs.set d ⟨.free, 0, 0, 0, 0, .fwd, 0, 0, false, []⟩ }))

/-- ENCODER_INDEX (R67, R68, R75, R76, R89, R90, R95). The counters restart. The open record closes first, with the fields of R68: of an
OPEN, PAUSED or CLOSING window it joins the tail of a busy analyzer's queue, while a free analyzer takes and checks it at once and
analyses it, or rejects and releases it; and of a COMPLETE window it is released and counted, unqueued. The boundary follows on what the
close has left, in the same event (BoundaryMade): a RUNNING stream captures the next record of the OPEN window, in the FREE descriptor of
lowest index (log 15), where it can obtain the blocks, and else drops it and starves; a STARVED stream resumes with it where it can obtain
the threshold of its plan, and else drops it, as one whose plan waits does (R78, R80). All this holds under a standing PROFILE halt too
(R66, R74). -/
def Obligations.IndexClosesARecordAndMakesTheBoundary : Prop :=
  ∀ (us : Nat) (x : AngleSample) (s : State),
    ∃ t, exec (.encoderIndex us x) s = .next t ∧ HoldingKept s t ∧
      OnlyChanges [.clock, .lp, .ut, .pe, .afe, .cs, .oa, .lkc, .cu, .reports] s t ∧ t.clockUs = s.clockUs + us ∧
      t.afe.pulses = 0 ∧ t.afe.revolution = s.afe.revolution + 1 ∧ t.afe.periodUs = some 0 ∧
      t.afe.sawForward = false ∧ t.afe.sawReverse = false ∧
      (HardWhereSevere s → s.afe.openVib = none → BoundaryMade us x s.cs s.oa s t) ∧
      (HardWhereSevere s → ∀ (d : Fin 32) (w : Window), s.afe.openVib = some d →
        s.oa.window (s.cs.vibDescs[d]).window = some w →
        let y : VibDescriptor := { s.cs.vibDescs[d] with
          state := .held, pulses := s.afe.pulses, periodUs := (s.afe.periodUs.map (· + us)).getD 0
          direction := if s.afe.sawReverse = false then .fwd else if s.afe.sawForward = false then .rev else .mixed }
        let closed : CaptureStore := { s.cs with vibDescs := s.cs.vibDescs.set d y }
        let released : CaptureStore := { s.cs with
          vib := { s.cs.vib with heldRes := s.cs.vib.heldRes - y.fromRes, heldPool := s.cs.vib.heldPool - y.fromPool }
          vibDescs := s.cs.vibDescs.set d ⟨.free, 0, 0, 0, 0, .fwd, 0, 0, false, []⟩ }
        let changed (f : Window → Window) : List Window := s.oa.windows.map fun v => if v.number = w.number then f v else v
        let joined := changed fun v => { v with held := v.held + 1 }
        (w.state = .opened ∨ w.state = .paused ∨ w.state = .closing →
          (∀ e, s.oa.current = some e → BoundaryMade us x closed ⟨s.oa.queue ++ [d], some e, joined⟩ s t) ∧
          (s.oa.current = none → s.oa.queue = [] → Passes y w.spec → BoundaryMade us x closed ⟨[], some d, joined⟩ s t) ∧
          (s.oa.current = none → s.oa.queue = [] → w.state ≠ .closing → ¬Passes y w.spec → NoPlanWaits s →
            (∀ v ∈ s.oa.windows, v.number = w.number → v = w) →
            ∃ v, IsRejection y { w with held := w.held + 1 } v ∧ BoundaryMade us x released ⟨[], none, changed fun _ => v⟩ s t)) ∧
        (w.state = .complete → NoPlanWaits s →
          BoundaryMade us x released { s.oa with windows := changed fun v => { v with released := count16 v.released } } s t))

/-- TIME_SLOT_START (R69, R75, R76, R78, R80): slot n + 1 begins at its time (that the row moves the clock there is log 3), under a
standing PROFILE halt too (R74). An IDLE stream takes nothing. A RUNNING one captures a record of five blocks in the FREE descriptor of
lowest index (log 15) where it can obtain them, reservation first, and otherwise drops it, counted and announced, and starves, until a
halt that its condition brings ends capture (R82, R74); a STARVED one resumes only where it can obtain the threshold of its plan, and one
whose plan waits drops it. -/
def Obligations.SlotStartMakesTheBoundary : Prop :=
  ∀ (ss : SlotStream) (s : State), let n := (slotsOf ss s).1 + 1; let st := slotStreamId ss; let x := s.stream st
    (slotsOf ss s).1 ≤ (slotsOf ss s).2 → HardWhereSevere s →
    let u := s.elapseTo (slotMs ss * n)
    let noneFree := match ss with
      | .slow => ∀ d : Fin 8, (s.cs.slowDescs[d]).state ≠ .free
      | .leak => ∀ d : Fin 8, (s.cs.leakDescs[d]).state ≠ .free
    ∃ t, exec (.timeSlotStart ss) s = .next t ∧ HoldingKept s t ∧
      OnlyChanges [.clock, .lp, .ut, .pe, .afe, .cs, .oa, .lkc, .cu, .reports] s t ∧ t.clockUs = u.clockUs ∧
      (slotsOf ss t).1 = n ∧ (slotsOf ss t).2 = (slotsOf ss s).2 ∧
      (x.state = .idle → OnlyChanges [.lp, .afe] u t) ∧
      (x.state = .running → ¬noneFree → 5 ≤ s.cs.obtainable st →
        let r := min 5 (x.plan.res - x.heldRes)
        OnlyChanges [.lp, .afe, .cs] u t ∧
        t.stream st = { x with
          heldRes := x.heldRes + r, heldPool := x.heldPool + (5 - r), lastSeq := some (BitVec.ofNat 32 n) } ∧
        (∀ d : Fin 8, ss = .slow → (s.cs.slowDescs[d]).state = .free → (∀ e, e < d → (s.cs.slowDescs[e]).state ≠ .free) →
          (t.cs.slowDescs[d]).state = .filling ∧ (t.cs.slowDescs[d]).seq = BitVec.ofNat 32 n ∧
          (t.cs.slowDescs[d]).fromRes = r ∧ (t.cs.slowDescs[d]).fromPool = 5 - r ∧
          ∀ e, e ≠ d → t.cs.slowDescs[e] = s.cs.slowDescs[e]) ∧
        (∀ d : Fin 8, ss = .leak → (s.cs.leakDescs[d]).state = .free → (∀ e, e < d → (s.cs.leakDescs[e]).state ≠ .free) →
          (t.cs.leakDescs[d]).state = .filling ∧ (t.cs.leakDescs[d]).seq = BitVec.ofNat 32 n ∧
          (t.cs.leakDescs[d]).fromRes = r ∧ (t.cs.leakDescs[d]).fromPool = 5 - r ∧
          ∀ e, e ≠ d → t.cs.leakDescs[e] = s.cs.leakDescs[e])) ∧
      (x.state = .running → noneFree ∨ s.cs.obtainable st < 5 →
        Announced ⟨.stream st, .stream .starved (count32 x.dropped) (starvedStream st s.cs).2 u.now⟩ t) ∧
      (x.state = .running → noneFree ∨ s.cs.obtainable st < 5 → s.active (starvedCondition st) = true →
        t.cs = s.cs.setStream st (starvedStream st s.cs).1 ∧ OnlyChanges [.lp, .afe, .cs, .cu] u t ∧ t.cu.stack = s.cu.stack ∧
        (t.cond (starvedCondition st)).source = true) ∧
      (x.state = .running → noneFree ∨ s.cs.obtainable st < 5 → s.active (starvedCondition st) = false →
        (s.wanted st = true → t.stream st = { x with
          state := if t.wanted st then .starved else .idle, dropped := count32 x.dropped }) ∧
        (t.cond (starvedCondition st)).latch = true ∧ (t.cond (starvedCondition st)).lastActive = some u.now ∧
        TakingCheckMade (raisedAt (1000 * (slotMs ss * n) - s.clockUs) (starvedCondition st)
          { s.cond (starvedCondition st) with source := true, latch := true, lastActive := some u.now } s) t) ∧
      (x.state = .starved → (noneFree ∨ s.cs.obtainable st < max 5 ((x.plan.threshold * x.plan.res + 99) / 100)) →
        OnlyChanges [.lp, .afe, .cs] u t ∧ t.stream st = { x with dropped := count32 x.dropped } ∧
        t.lp.notices.length ≤ s.lp.notices.length) ∧
      (x.state = .starved → ¬noneFree → max 5 ((x.plan.threshold * x.plan.res + 99) / 100) ≤ s.cs.obtainable st →
        (t.stream st).state = .running ∧ (t.cond (starvedCondition st)).source = false ∧ t.cu.stack = s.cu.stack ∧
        (t.stream st).heldRes + (t.stream st).heldPool = x.heldRes + x.heldPool + 5) ∧
      (x.state = .pendingPlan → s.wanted st = true →
        OnlyChanges [.lp, .afe, .cs] u t ∧ t.stream st = { x with dropped := count32 x.dropped })

/-- TIME_SLOT_END of SLOW (R69, R52, R54, R71, R77): the slot that is due ends at its time; its record, if one was captured, is absorbed
into the run-in statistics between the start of a profile and its end, and into the drag accumulator where it lies in the drag span of
a MEASURE_DRAG step, and its blocks and descriptor come back. A record counts 128 samples however many it holds (the model's choice,
log 24), and the slot's time is reached by the event itself (log 3). -/
def Obligations.SlowRecordIsAbsorbedAndReleased : Prop :=
  ∀ s : State, s.afe.slowEnded ≤ s.afe.slowSlot → let n := s.afe.slowEnded; let u := s.elapseTo (256 * (n + 1))
    ∃ t, exec (.timeSlotEnd .slow) s = .next t ∧ HoldingKept s t ∧ t.clockUs = u.clockUs ∧
      OnlyChanges [.lp, .ut, .pe, .afe, .cs, .cu] u t ∧ t.afe = { u.afe with slowEnded := n + 1 } ∧
      ((∀ d : Fin 8, (s.cs.slowDescs[d]).state = .filling → (s.cs.slowDescs[d]).seq ≠ BitVec.ofNat 32 n) →
        OnlyChanges [.lp, .afe] u t) ∧
      ∀ d : Fin 8, (s.cs.slowDescs[d]).state = .filling → (s.cs.slowDescs[d]).seq = BitVec.ofNat 32 n →
        (∀ e, e ≠ d → (s.cs.slowDescs[e]).state = .filling → (s.cs.slowDescs[e]).seq ≠ BitVec.ofNat 32 n) →
        let old := s.cs.slowDescs[d]
        (NoPlanWaits s → t.cu = s.cu ∧ t.cs = { s.cs with
          slow := { s.cs.slow with heldRes := s.cs.slow.heldRes - old.fromRes, heldPool := s.cs.slow.heldPool - old.fromPool }
          slowDescs := s.cs.slowDescs.set d ⟨.free, 0, 0, 0, []⟩ }) ∧
        (s.pe.phase = .idle → t.pe = u.pe ∧ t.ut = u.ut) ∧
        ∀ (i : Fin 8) (r : UnitRecord), IsUnitIn .running i r s → s.pe.phase ≠ .idle →
          let oil := (old.samples.map SlowSample.toil).sum / 128
          let housing := (old.samples.map SlowSample.thsg).sum / 128
          OtherUnitsKept i s t ∧
          t.ut.records[i] = some { r with runIn := { r.runIn with
            peakOil := some (max (r.runIn.peakOil.getD oil) oil)
            peakHousing := some (max (r.runIn.peakHousing.getD housing) housing), endHousing := some housing } } ∧
          ∀ (k : Nat) (x : Step), IsStepping k x i r s → let start := (BitVec.ofNat 32 n : CellTime) * 256 - s.pe.stepStart
            (x.kind = .measureDrag → 500 ≤ start.toNat → start.toNat + 256 ≤ (u.now - s.pe.stepStart).toNat →
              let sum := (old.samples.map SlowSample.tqp).sum
              t.pe = { u.pe with
                dragRecords := s.pe.dragRecords + 1, dragSamples := s.pe.dragSamples + 128
                dragSum := s.pe.dragSum + (if x.target < 0 then -sum else sum) }) ∧
            (¬(x.kind = .measureDrag ∧ 500 ≤ start.toNat ∧ start.toNat + 256 ≤ (u.now - s.pe.stepStart).toNat) →
              t.pe = u.pe)

/-- TIME_SLOT_END of LEAK (R69, R71, R77, R113 to R115, R118, R119): the slot that is due ends at its time, which the event itself reaches
(log 3); every chamber in MEASURE takes from its record, if one was captured, the first pair while it has none and its measure time runs,
and the latest pair, by the times of the record's first and last samples; and the record's blocks and descriptor come back. Each chamber
whose measure time has expired, and whose last slot that can qualify this was, is evaluated in the same event on the pairs it then holds,
as at ATTEMPT_EVALUATION: its attempt is judged and counted, and it vents. The other chambers and their results stand but for the pairs.
The means are over 128 samples however many the record holds (the model's choice, log 24), and the times are compared by signed
differences (deduced, log 13). -/
def Obligations.LeakRecordGivesItsPairsAndIsReleased : Prop :=
  ∀ s : State, s.afe.leakEnded ≤ s.afe.leakSlot → let n := s.afe.leakEnded; let u := s.elapseTo (640 * (n + 1))
    let due (c : Fin 4) (m : Measure) : Prop :=
      (s.chamber c).phase = .measure ∧ (s.chamber c).measure = some m ∧ m.expired = true ∧
      timeDiff m.stop m.start < timeDiff ((BitVec.ofNat 32 (n + 1) : CellTime) * 640 + 635) m.start
    ∃ t, exec (.timeSlotEnd .leak) s = .next t ∧ HoldingKept s t ∧ t.clockUs = u.clockUs ∧
      OnlyChanges [.lp, .ut, .afe, .cs, .lkc, .cu] u t ∧ t.afe = { u.afe with leakEnded := n + 1 } ∧
      t.lkc.queue = s.lkc.queue ∧ t.lkc.resetVent = s.lkc.resetVent ∧
      ((∀ c m, ¬due c m) ∨ NoUnitIn .leaking s → t.ut = u.ut) ∧
      ∀ captured : Option (Fin 8), IsLeakRecordOf n captured s →
        let taken := pairsTaken n (captured.map fun d => (s.cs.leakDescs[d]).samples)
        (captured = none → t.cs = s.cs ∧ t.cu = s.cu ∧ LineLeftToArbiter u t) ∧
        (∀ d, captured = some d → NoPlanWaits s → let old := s.cs.leakDescs[d]
          t.cu = s.cu ∧ LineLeftToArbiter u t ∧ t.cs = { s.cs with
            leak := { s.cs.leak with heldRes := s.cs.leak.heldRes - old.fromRes, heldPool := s.cs.leak.heldPool - old.fromPool }
            leakDescs := s.cs.leakDescs.set d ⟨.free, 0, 0, 0, []⟩ }) ∧
        (∀ c : Fin 4, (∀ m, ¬due c m) → t.chamber c = { u.chamber c with measure := (s.chamber c).measure.map (taken c) }) ∧
        ∀ (i : Fin 8) (r : UnitRecord), IsUnitIn .leaking i r s →
          ∃ results : Vector ChamberResult 4,
            t.ut = { u.ut with records := u.ut.records.set i (some { r with leak := { r.leak with chambers := results } }) } ∧
            ∀ c : Fin 4, ((∀ m, ¬due c m) → results[c] = r.leak.chambers[c]) ∧
              ∀ m, due c m → ∃ a : AttemptResult, IsOutcome (s.chamberPlan c) s.rs.live.pAtm (taken c m) a ∧
                AttemptCounted (s.chamberPlan c) a r.leak.chambers[c] results[c] (t.chamber c)

/-- PLAN_APPLY (R79, R80): with one stream waiting, its target plan is applied where the stream holds no blocks and the rise of its
reservation is at most pool_free, and the stream is RUNNING or IDLE as capture is wanted; where that fails, and where no stream
waits, nothing changes (log 4). The pool size, pool_free, the free blocks, the caps, and the blocks a stream can obtain have the values
of R72, R73 and R75. -/
def Obligations.WaitingPlanIsAppliedWhenItFits : Prop :=
  (∀ s : State, s.cs.poolSize = poolOf s ∧ s.cs.poolFree = poolLeft s ∧
    s.cs.freeBlocks = 1536 - (s.cs.vib.heldRes + s.cs.vib.heldPool + (s.cs.slow.heldRes + s.cs.slow.heldPool) +
      (s.cs.leak.heldRes + s.cs.leak.heldPool)) ∧
    ∀ st : StreamId, s.cs.cap st = capOf (s.stream st) s ∧ s.cs.obtainable st = roomOf (s.stream st) s) ∧
  ∀ s : State, (NoPlanWaits s → exec .planApply s = .next (arbitrate s)) ∧
    ∀ (st : StreamId) (p : Plan), (s.stream st).state = .pendingPlan → (s.stream st).target = some p →
      (∀ other, other ≠ st → (s.stream other).state ≠ .pendingPlan) →
      let x := s.stream st
      let fits := x.heldRes + x.heldPool = 0 ∧ p.res ≤ x.plan.res + poolLeft s
      (¬fits → exec .planApply s = .next (arbitrate s)) ∧
      (fits → ∃ t, exec .planApply s = .next t ∧ OnlyChanges [.lp, .cs] s t ∧ LineLeftToArbiter s t ∧
        t.stream st = { x with plan := p, target := none, state := if s.wanted st then .running else .idle } ∧
        (∀ other, other ≠ st → t.stream other = s.stream other) ∧ t.cs.vibDescs = s.cs.vibDescs ∧
        t.cs.slowDescs = s.cs.slowDescs ∧ t.cs.leakDescs = s.cs.leakDescs)

/-- SLOW_SAMPLE i comes at 2i ms (R64; that the row moves the clock there is log 3). Its five values become live, each with its range fault
(R65, R66); they join the record of their slot (R69); and the sources of TORQUE_HIGH, OIL_HOT and SENSOR_FAULT follow them (R66, R128),
with the taking check where one of the three became active (R133). Where none did, also under a standing PROFILE halt, nothing else
changes. -/
def Obligations.SlowSampleBecomesLiveAndIsJudged : Prop :=
  ∀ (x : SlowSample) (s : State), let i := s.afe.slowTaken; let u := s.elapseTo (2 * i)
    ∃ t, exec (.slowSample x) s = .next t ∧ HoldingKept s t ∧ t.clockUs = u.clockUs ∧
      OnlyChanges [.clock, .lp, .ut, .pe, .afe, .cs, .oa, .lkc, .cu, .reports] s t ∧ t.afe.slowTaken = i + 1 ∧
      (∀ c : Fin 10, c.val < 5 → IsLiveValue s.rs.live.channels[c]
        ([x.tqp, x.tql, x.tqr, x.toil, x.thsg].getD c.val 0) t.afe.live[c] t.afe.faults[c]) ∧
      (∀ c : Fin 10, 5 ≤ c.val → t.afe.live[c] = s.afe.live[c] ∧ t.afe.faults[c] = s.afe.faults[c]) ∧
      (∀ d : Fin 8, t.cs.slowDescs[d] =
        (let old := s.cs.slowDescs[d];
          if s.cs.slowRecord (BitVec.ofNat 32 (i / 128)) = some d then { old with samples := old.samples ++
            [⟨t.afe.live[0], t.afe.live[1], t.afe.live[2], t.afe.live[3], t.afe.live[4]⟩] } else old)) ∧
      (t.cond 5).source = (decide (s.torqueLimit < (t.afe.live[1]).natAbs) || decide (s.torqueLimit < (t.afe.live[2]).natAbs)) ∧
      (t.cond 10).source = decide (s.oilLimit < t.afe.live[3]) ∧
      (t.cond 11).source = (t.afe.faults[3] || t.afe.faults[4] || t.afe.faults[9]) ∧
      ((t.cond 5).source = true → (t.cond 5).latch = true) ∧
      (let c5 := judged true (t.cond 5).source (s.active 5) u.now (s.cond 5);
        let c10 := judged false (t.cond 10).source (s.active 10) u.now (s.cond 10)
        let c11 := judged false (t.cond 11).source (s.active 11) u.now (s.cond 11)
        let v := u.setCu { s.cu with conditions := ((s.cu.conditions.set 5 c5).set 10 c10).set 11 c11 }
        let raised := (s.active 5 = false ∧ (t.cond 5).source = true) ∨ (s.active 10 = false ∧ v.active 10 = true) ∨
          (s.active 11 = false ∧ v.active 11 = true)
        t.cond 5 = c5 ∧ t.cond 10 = c10 ∧ t.cond 11 = c11 ∧ (raised → TakingCheckMade v t) ∧
        (¬raised → HardWhereSevere s → t.cu = v.cu ∧ OnlyChanges [.lp, .afe, .cs, .cu] u t))

/-- LEAK_SAMPLE i comes at 5i ms (R64). Its five values become live, each with its range fault (R65, R66), and SENSOR_FAULT follows
(R128), with the taking check where it became active (R133). Where it did not, also under a standing PROFILE halt, a chamber in FILL at or
above its target less the tolerance ends its fill and settles for the time of R111, or measures at once where that is 0 (R112), the next
of the queue begins to fill, and a range fault of TLK marks the chambers in MEASURE (R109, R108, R114), a sample at either end of the
measurement included (deduced, log 28), by signed differences of the time (deduced, log 13). The time moves to the sample's (the model's
choice, log 3). -/
def Obligations.LeakSampleBecomesLiveAndEndsAFill : Prop :=
  (∀ (p : ChamberPlan) (tRef : Int), (p.kind = .circuit → ∀ housing, settleTime p housing tRef = p.settleBase) ∧
    (p.kind ≠ .circuit → (p.settleBase ≤ p.settleMax → settleTime p none tRef = p.settleBase) ∧
      ∀ e : Int, (settleTime p (some e) tRef : Int) =
        min (p.settleMax : Int) (p.settleBase + (p.settleGain * max 0 (e - tRef)) / 100))) ∧
  ∀ (x : LeakSample) (s : State), let i := s.afe.leakTaken; let u := s.elapseTo (5 * i)
    ∃ t, exec (.leakSample x) s = .next t ∧ HoldingKept s t ∧ t.clockUs = u.clockUs ∧
      OnlyChanges [.clock, .lp, .ut, .pe, .afe, .cs, .oa, .lkc, .cu, .reports] s t ∧ t.afe.leakTaken = i + 1 ∧
      (∀ c : Fin 10, 5 ≤ c.val → IsLiveValue s.rs.live.channels[c]
        ([x.prs0, x.prs1, x.prs2, x.prs3, x.tlk].getD (c.val - 5) 0) t.afe.live[c] t.afe.faults[c]) ∧
      (∀ c : Fin 10, c.val < 5 → t.afe.live[c] = s.afe.live[c] ∧ t.afe.faults[c] = s.afe.faults[c]) ∧
      (t.cond 11).source = (t.afe.faults[3] || t.afe.faults[4] || t.afe.faults[9]) ∧
      (let c11 := judged false (t.cond 11).source (s.active 11) u.now (s.cond 11);
        let v := u.setCu { s.cu with conditions := s.cu.conditions.set 11 c11 }
        t.cond 11 = c11 ∧ (s.active 11 = false → v.active 11 = true → TakingCheckMade v t)) ∧
      (s.active 11 = true ∨ (t.cond 11).source = false → HardWhereSevere s →
        t.cu.stack = s.cu.stack ∧ OnlyChanges [.lp, .afe, .cs, .lkc, .cu] u t ∧
        (∀ c : Fin 4, (s.chamber c).phase = .measure → ∀ m, (s.chamber c).measure = some m →
          (∀ d, (s.chamber d).phase ≠ .fill) ∨ s.lkc.queue.head? ≠ some c →
          (t.chamber c).measure = some { m with
            sensor := m.sensor || (t.afe.faults[9] && decide (0 ≤ timeDiff u.now m.start) &&
              decide (timeDiff u.now m.start ≤ timeDiff m.stop m.start)) }) ∧
        (∀ c : Fin 4, (s.chamber c).phase = .fill → (∀ d, (s.chamber d).phase = .fill → d = c) → s.lkc.queue.head? ≠ some c →
          let p := s.chamberPlan c
          let live : Int := [t.afe.live[5], t.afe.live[6], t.afe.live[7], t.afe.live[8]].getD c.val 0
          (live < p.target - p.tolerance → (t.chamber c).phase = .fill ∧ (t.chamber c).timer = (u.chamber c).timer ∧
            t.lkc.queue = s.lkc.queue) ∧
          ((p.target : Int) - p.tolerance ≤ live → let settle := settleTime p s.endHousing s.rs.live.tRef
            (0 < settle → t.chamber c = ⟨.settle, some settle, none, none⟩) ∧
            (settle = 0 → p.measure < 2 ^ 31 → t.chamber c = ⟨.measure, some p.measure, none,
              some ⟨u.now, u.now + BitVec.ofNat 32 p.measure, false, none, none, t.afe.faults[9]⟩⟩) ∧
            ∀ d rest, s.lkc.queue = d :: rest → s.halt.leak = false → s.lkc.resetVent = .over →
              t.chamber d = ⟨.fill, some (s.chamberPlan d).fillTimeout, none, none⟩ ∧ t.lkc.queue = rest)))

/-! ## The Order Analyzer -/

/-- ANALYSIS_COMPLETE (R89 to R91, R93, R94, R96): the record's power of each pair joins a STEADY window's sums or a SWEEP window's
maxima, N_acc rises, and the record is released and no longer held. The head of the queue is then taken, and analysed where it passes
the four checks of R90 or else rejected, counted and released. A STEADY window that reaches N_req in OPEN or PAUSED is COMPLETE and
gives up its surplus; a CLOSING window that reaches it, or that holds no more, is graded and CLOSED. Without a record under analysis no
window changes (the model's choice, log 4). -/
def Obligations.AnalysisAccumulatesTheRevolution : Prop :=
  ∀ s : State, NoPlanWaits s →
    (s.oa.current = none → ∃ t, exec .analysisComplete s = .next t ∧ t.oa = s.oa ∧ t.afe = s.afe ∧ t.cs.vibDescs = s.cs.vibDescs) ∧
    ∀ (d : Fin 32) (w : Window), s.oa.current = some d → s.oa.window (s.cs.vibDescs[d]).window = some w →
      (w.state = .opened ∨ w.state = .paused ∨ w.state = .closing) → let old := s.cs.vibDescs[d]
      let added (v : Window) : Window := { v with
        held := v.held - 1
        acc := match v.spec.kind with
          | .steady => List.zipWith (· + ·) v.acc (old.powers v.spec)
          | .sweep => List.zipWith max v.acc (old.powers v.spec)
        nAcc := if v.spec.kind = .sweep ∧ v.spec.nReq ≤ v.nAcc then v.nAcc else v.nAcc + 1 }
      let full := w.spec.kind = .steady ∧ w.nAcc + 1 = w.spec.nReq
      let goesOn := ¬full ∧ (w.state ≠ .closing ∨ 1 < w.held)
      let join (v : Window) : Window := if v.number = w.number then added v else v
      ∃ t, exec .analysisComplete s = .next t ∧ HoldingKept s t ∧ OnlyChanges [.lp, .ut, .cs, .oa, .cu] s t ∧
        (goesOn → s.oa.queue = [] →
          t.cs = { s.cs with
            vib := { s.cs.vib with heldRes := s.cs.vib.heldRes - old.fromRes, heldPool := s.cs.vib.heldPool - old.fromPool }
            vibDescs := s.cs.vibDescs.set d ⟨.free, 0, 0, 0, 0, .fwd, 0, 0, false, []⟩ } ∧
          t.oa = ⟨[], none, s.oa.windows.map join⟩) ∧
        (goesOn → ∀ (e : Fin 32) (rest : List (Fin 32)), s.oa.queue = e :: rest → e ≠ d →
          ∀ v : Window, s.oa.window (s.cs.vibDescs[e]).window = some v → (v.state = .opened ∨ v.state = .paused) →
          (∀ x ∈ s.oa.windows, x.number = v.number → x = v) →
          (Passes (s.cs.vibDescs[e]) v.spec → t.oa = ⟨rest, some e, s.oa.windows.map join⟩ ∧
            t.cs.vibDescs[e] = s.cs.vibDescs[e] ∧ (t.cs.vibDescs[d]).state = .free) ∧
          (¬Passes (s.cs.vibDescs[e]) v.spec → rest = [] →
            (t.cs.vibDescs[e]).state = .free ∧ (t.cs.vibDescs[d]).state = .free ∧
            ∃ v' ∈ t.oa.windows, v'.number = v.number ∧ IsRejection (s.cs.vibDescs[e]) (join v) v' ∧
              t.oa = ⟨[], none, s.oa.windows.map fun x => if x.number = v.number then v' else join x⟩)) ∧
        (full → w.state ≠ .closing → (∀ e ∈ s.oa.queue, e ≠ d → (s.cs.vibDescs[e]).window = w.number) → d ∉ s.oa.queue →
          t.oa.queue = [] ∧ t.oa.current = none ∧
          (∀ e ∈ s.oa.queue, (t.cs.vibDescs[e]).state = .free) ∧ (t.cs.vibDescs[d]).state = .free ∧
          ∃ v ∈ t.oa.windows, v.number = w.number ∧ v.state = .complete ∧ v.held = 0 ∧ v.nAcc = w.spec.nReq ∧
            v.acc = List.zipWith (· + ·) w.acc (old.powers w.spec) ∧
            (w.released + s.oa.queue.length ≤ 65535 → v.released = w.released + s.oa.queue.length)) ∧
        ∀ (i : Fin 8) (r : UnitRecord), w.state = .closing → (∀ v ∈ s.oa.windows, v.number = w.number → v = w) →
          StationLaw s → IsUnitIn .running i r s →
          (r.runIn.state = .finished ∨ r.runIn.state = .failed ∨ r.runIn.state = .aborted) →
          (full → w.released ≤ 65535 → (∀ e ∈ s.oa.queue, e ≠ d → (s.cs.vibDescs[e]).window = w.number) → d ∉ s.oa.queue →
            WindowClosed { added w with
              held := 0, released := min 65535 (w.released + s.oa.queue.length) } i r s t ∧
            t.oa.queue = [] ∧ t.oa.current = none ∧
            (∀ e ∈ s.oa.queue, (t.cs.vibDescs[e]).state = .free) ∧ (t.cs.vibDescs[d]).state = .free) ∧
          (¬full → w.held ≤ 1 → s.oa.queue = [] →
            WindowClosed (added w) i r s t ∧ t.oa.queue = [] ∧ t.oa.current = none ∧ (t.cs.vibDescs[d]).state = .free)

/-- WINDOW_DRAIN_CLOSE (R96, R98, R99, R11, R12): with the profile ended, a CLOSING window that holds no record is CLOSED and graded: its
summary and its results join the noise section of the RUNNING unit, and nothing else changes. Where it was the last, the noise verdict
is the worst grade, the table is empty, and the unit enters RUN_DONE, or its transfer starts where station 2 is free and TRANSFER not
halted. Without such a window the table and the noise sections stand (the model's choice, log 4), and the check of R11 alone is made
(log 5). -/
def Obligations.DrainedWindowIsGradedAndWritten : Prop :=
  ∀ s : State,
    ((∀ w ∈ s.oa.windows, ¬(w.state = .closing ∧ w.held = 0)) → exec .windowDrainClose s = exec .enterRunDone s ∧
      (NoUnitIn .running s ∨ s.oa.windows ≠ [] → exec .windowDrainClose s = .next (arbitrate s))) ∧
    ∀ (w : Window) (i : Fin 8) (r : UnitRecord), w ∈ s.oa.windows → w.state = .closing → w.held = 0 →
      (∀ v ∈ s.oa.windows, v.number = w.number → v = w) →
      (∀ v ∈ s.oa.windows, v.state = .closing → v.held = 0 → v = w) →
      StationLaw s → IsUnitIn .running i r s →
      (r.runIn.state = .finished ∨ r.runIn.state = .failed ∨ r.runIn.state = .aborted) →
      ∃ t, exec .windowDrainClose s = .next t ∧ HoldingKept s t ∧ OnlyChanges [.lp, .ut, .cs, .oa, .cu] s t ∧
        t.oa.queue = s.oa.queue ∧ t.oa.current = s.oa.current ∧ WindowClosed w i r s t ∧
        ((∃ v ∈ s.oa.windows, v.number ≠ w.number ∧ v.state ≠ .closed) →
          OnlyChanges [.lp, .ut, .oa] s t ∧ LineLeftToArbiter s t)

/-! ## The leak stand -/

/-- FILL_GRANT and RESET_VENT_END (R108, R120, R125). The arbiter grants the head of the queue where no chamber fills, LEAK is not
halted and the reset vent is over: the chamber's FILL line rises and its fill timeout runs. Where one of them fails nothing changes (log 4).
The reset vent ends at its time (log 3), once the scan has set it, and the arbiter checks. -/
def Obligations.ArbiterGrantsTheHeadOfTheQueue : Prop :=
  ∀ s : State,
    (s.lkc.queue = [] ∨ (∃ c, (s.chamber c).phase = .fill) ∨ s.halt.leak = true ∨ s.lkc.resetVent ≠ .over →
      exec .fillGrant s = .next (arbitrate s)) ∧
    (∀ (c : Fin 4) (rest : List (Fin 4)), s.lkc.queue = c :: rest → (∀ d, (s.chamber d).phase ≠ .fill) →
      s.halt.leak = false → s.lkc.resetVent = .over →
      ∃ t, exec .fillGrant s = .next t ∧ OnlyChanges [.lp, .lkc] s t ∧ LineLeftToArbiter s t ∧
        t.chamber c = ⟨.fill, some (s.chamberPlan c).fillTimeout, none, none⟩ ∧ OtherChambersKept c s t ∧ t.lkc.queue = rest ∧
        t.lkc.resetVent = .over ∧ t.fillLine c = true ∧ t.ventLine c = false) ∧
    ((s.lkc.resetVent = .over ∨ s.lkc.resetVent = .running none) → exec .resetVentEnd s = .next (arbitrate s)) ∧
    (∀ stop, s.lkc.resetVent = .running (some stop) → let u := s.elapseTo stop
      ∃ t, exec .resetVentEnd s = .next t ∧ OnlyChanges [.lp, .lkc] u t ∧ LineLeftToArbiter u t ∧ t.lkc.resetVent = .over ∧
        ((s.lkc.queue = [] ∨ s.halt.leak = true) → t.lkc = { u.lkc with resetVent := .over }) ∧
        ∀ (c : Fin 4) (rest : List (Fin 4)), s.lkc.queue = c :: rest → (∀ d, (s.chamber d).phase ≠ .fill) →
          s.halt.leak = false → t.chamber c = ⟨.fill, some (s.chamberPlan c).fillTimeout, none, none⟩ ∧ t.lkc.queue = rest ∧
            ∀ d, d ≠ c → t.chamber d = u.chamber d)

/-- FILL_TIMEOUT (R110, R118, R119, R108): the time left has passed, the attempt is counted GROSS with verdict FAIL and no figures, the
chamber vents for its last time, and the next of the queue begins to fill. That an expiry lets the time left pass (log 3), and that
without a running fill timeout nothing changes (log 4), are the model's choice. -/
def Obligations.FillTimeoutCountsAGrossAttempt : Prop :=
  ∀ (c : Fin 4) (s : State),
    ((s.chamber c).phase ≠ .fill ∨ (s.chamber c).timer = none → exec (.fillTimeout c) s = .next (arbitrate s)) ∧
    ∀ (left : Nat) (i : Fin 8) (r : UnitRecord), (s.chamber c).phase = .fill → (s.chamber c).timer = some left →
      (∀ d, (s.chamber d).phase = .fill → d = c) → IsUnitIn .leaking i r s → StationLaw s → let u := s.elapseMs left
      ∃ t r', exec (.fillTimeout c) s = .next t ∧ OnlyChanges [.lp, .ut, .lkc] u t ∧ LineLeftToArbiter u t ∧
        t.clockUs = s.clockUs + 1000 * left ∧ OtherUnitsKept i s t ∧ t.ut.records[i] = some r' ∧
        r' = { r with leak := { r.leak with chambers := r.leak.chambers.set c { r.leak.chambers[c] with
          attempts := (r.leak.chambers[c]).attempts + 1, outcome := some .gross, q := none, d := none, tMs := none
          verdict := some .fail } } } ∧
        (c ∉ s.lkc.queue → t.chamber c = ⟨.vent, some (s.chamberPlan c).vent, some .done, none⟩ ∧
          t.fillLine c = false ∧ t.ventLine c = true) ∧
        ((s.lkc.queue = [] ∨ s.halt.leak = true ∨ s.lkc.resetVent ≠ .over) → t.lkc.queue = s.lkc.queue) ∧
        ∀ (d : Fin 4) (rest : List (Fin 4)), s.lkc.queue = d :: rest → s.halt.leak = false → s.lkc.resetVent = .over →
          t.chamber d = ⟨.fill, some (s.chamberPlan d).fillTimeout, none, none⟩ ∧ t.lkc.queue = rest

/-- SETTLE_EXPIRY enters MEASURE with the times, timer, pairs and flag of R112. MEASURE_TIMER_EXPIRY marks the timer expired and, while
the last slot that can qualify has not ended, leaves the chamber in MEASURE (R114); where it has ended, the attempt is evaluated in the
same event, as ATTEMPT_EVALUATION would (log 5). Slots are compared by signed differences of the time (deduced, log 13). That an expiry
lets the time left pass (log 3), and that without its running timer neither changes anything (log 4), are the model's choice. -/
def Obligations.SettlingLeadsToMeasuring : Prop :=
  ∀ (c : Fin 4) (s : State),
    ((s.chamber c).phase ≠ .settle ∨ (s.chamber c).timer = none → exec (.settleExpiry c) s = .next (arbitrate s)) ∧
    (∀ left, (s.chamber c).phase = .settle → (s.chamber c).timer = some left → let u := s.elapseMs left
      ∃ t, exec (.settleExpiry c) s = .next t ∧ OnlyChanges [.lp, .lkc] u t ∧ LineLeftToArbiter u t ∧
        t.clockUs = s.clockUs + 1000 * left ∧ OtherChambersKept c u t ∧ t.lkc.queue = s.lkc.queue ∧
        t.lkc.resetVent = s.lkc.resetVent ∧
        t.chamber c = ⟨.measure, some (s.chamberPlan c).measure, none,
          some ⟨u.now, u.now + BitVec.ofNat 32 (s.chamberPlan c).measure, false, none, none, false⟩⟩) ∧
    ((s.chamber c).phase ≠ .measure ∨ (s.chamber c).timer = none → exec (.measureTimerExpiry c) s = .next (arbitrate s)) ∧
    (∀ (left : Nat) (m : Measure), (s.chamber c).phase = .measure → (s.chamber c).timer = some left →
      (s.chamber c).measure = some m →
      timeDiff ((BitVec.ofNat 32 s.afe.leakEnded : CellTime) * 640 + 635) m.start ≤ timeDiff m.stop m.start →
      let u := s.elapseMs left
      ∃ t, exec (.measureTimerExpiry c) s = .next t ∧ OnlyChanges [.lp, .lkc] u t ∧ LineLeftToArbiter u t ∧
        t.clockUs = s.clockUs + 1000 * left ∧ OtherChambersKept c u t ∧ t.lkc.queue = s.lkc.queue ∧
        t.chamber c = ⟨.measure, none, (s.chamber c).afterVent, some { m with expired := true }⟩) ∧
    (∀ (left : Nat) (m : Measure), (s.chamber c).phase = .measure → (s.chamber c).timer = some left →
      (s.chamber c).measure = some m →
      timeDiff m.stop m.start < timeDiff ((BitVec.ofNat 32 s.afe.leakEnded : CellTime) * 640 + 635) m.start →
      exec (.measureTimerExpiry c) s = exec (.attemptEvaluation c) ((s.elapseMs left).setChamber c
        ⟨.measure, none, (s.chamber c).afterVent, some { m with expired := true }⟩))

/-- ATTEMPT_EVALUATION (R114, R115, R116, R118, R119): an attempt whose timer has expired and whose last slot has ended is judged and
counted: its figures replace the ones before, the verdict is that of R118, and the chamber vents, for its last time or to come back.
Whether the last slot has ended is told by signed differences of the time (deduced, log 13). Before that nothing changes (the model's
choice, log 4). -/
def Obligations.EvaluatedAttemptIsCounted : Prop :=
  ∀ (c : Fin 4) (s : State),
    ((s.chamber c).phase ≠ .measure ∨ (∀ m, (s.chamber c).measure = some m → m.expired = false ∨
        timeDiff ((BitVec.ofNat 32 s.afe.leakEnded : CellTime) * 640 + 635) m.start ≤ timeDiff m.stop m.start) →
      exec (.attemptEvaluation c) s = .next (arbitrate s)) ∧
    ∀ (m : Measure) (i : Fin 8) (r : UnitRecord), (s.chamber c).phase = .measure → (s.chamber c).measure = some m →
      m.expired = true →
      timeDiff m.stop m.start < timeDiff ((BitVec.ofNat 32 s.afe.leakEnded : CellTime) * 640 + 635) m.start →
      IsUnitIn .leaking i r s → StationLaw s → let p := s.chamberPlan c
      ∃ (t : State) (a : AttemptResult) (result : ChamberResult), exec (.attemptEvaluation c) s = .next t ∧
        OnlyChanges [.lp, .ut, .lkc] s t ∧ LineLeftToArbiter s t ∧ OtherUnitsKept i s t ∧ OtherChambersKept c s t ∧
        t.lkc.queue = s.lkc.queue ∧ IsOutcome p s.rs.live.pAtm m a ∧
        t.ut.records[i] = some { r with leak := { r.leak with chambers := r.leak.chambers.set c result } } ∧
        AttemptCounted p a r.leak.chambers[c] result (t.chamber c)

/-- VENT_EXPIRY (R119, R123, R124, R108, R17): the time left has passed, and the chamber goes where its after vent points: to its DONE
phase, to IDLE, or to the tail of the queue, whose head the arbiter then grants where it can. Where the unit's test is not over by
that, nothing else changes. Where it is over, since every enabled chamber is DONE with its verdict, or, after an abort, since no other
chamber vents, the unit is DONE with all that UNIT_DONE brings. The chambers in the queue are in WAIT_FILL. That an expiry lets the time
left pass (log 3), and that without a running vent timer nothing changes (log 4), are the model's choice. -/
def Obligations.VentedChamberGoesWhereItsAfterVentPoints : Prop :=
  ∀ (c : Fin 4) (s : State),
    ((s.chamber c).phase ≠ .vent ∨ (s.chamber c).timer = none → exec (.ventExpiry c) s = .next (arbitrate s)) ∧
    ∀ (left : Nat) (i : Fin 8) (r : UnitRecord), (s.chamber c).phase = .vent → (s.chamber c).timer = some left →
      IsUnitIn .leaking i r s → StationLaw s → (∀ d ∈ s.lkc.queue, (s.chamber d).phase = .waitFill) → let u := s.elapseMs left
      let after := (s.chamber c).afterVent
      let finished := (r.abort = true → ∀ d, d ≠ c → (s.chamber d).phase ≠ .vent) ∧
        (r.abort = false → ∀ d, (s.chamberPlan d).enabled = true →
          ((d = c ∧ after = some .done) ∨ (d ≠ c ∧ (s.chamber d).phase = .done)) ∧
          ((r.leak.chambers[d]).verdict).isSome = true)
      ∃ t, exec (.ventExpiry c) s = .next t ∧ HoldingKept s t ∧ t.clockUs = s.clockUs + 1000 * left ∧
        t.lkc.resetVent = s.lkc.resetVent ∧ OnlyChanges [.lp, .ut, .cs, .lkc, .cu, .reports] u t ∧
        (finished → TestEnded i r u t) ∧
        (¬finished → OnlyChanges [.lp, .lkc] u t ∧ LineLeftToArbiter u t ∧
          (after = some .done → t.chamber c = ⟨.done, none, none, none⟩ ∧ t.lkc.queue = s.lkc.queue ∧
            OtherChambersKept c u t) ∧
          (after = some .idle → t.chamber c = ⟨.idle, none, none, none⟩ ∧ t.lkc.queue = s.lkc.queue ∧
            OtherChambersKept c u t) ∧
          (after = some .requeue → (s.halt.leak = true ∨ s.lkc.resetVent ≠ .over ∨ ∃ d, (s.chamber d).phase = .fill) →
            t.chamber c = ⟨.waitFill, none, none, none⟩ ∧ t.lkc.queue = s.lkc.queue ++ [c] ∧ OtherChambersKept c u t) ∧
          (after = some .requeue → s.halt.leak = false → s.lkc.resetVent = .over → (∀ d, (s.chamber d).phase ≠ .fill) →
            (s.lkc.queue = [] → t.chamber c = ⟨.fill, some (s.chamberPlan c).fillTimeout, none, none⟩ ∧ t.lkc.queue = [] ∧
              OtherChambersKept c u t) ∧
            ∀ (d : Fin 4) (rest : List (Fin 4)), s.lkc.queue = d :: rest →
              t.chamber d = ⟨.fill, some (s.chamberPlan d).fillTimeout, none, none⟩ ∧
              t.chamber c = ⟨.waitFill, none, none, none⟩ ∧ t.lkc.queue = rest ++ [c] ∧
              ∀ e, e ≠ c → e ≠ d → t.chamber e = u.chamber e))

/-! ## Conditions -/

/-- CONDITION_LINE_CHANGE (R127, R129, R133): the line takes its level, the source of its condition follows, SUPPLY_OK's the other way
round, an assertion of the LATCHED ESTOP sets its latch, and the taking check is made where the condition becomes active. Where it
does not, the stack and the blocks stand. -/
def Obligations.LineChangeJudgesItsCondition : Prop :=
  ∀ (line : CondLine) (b : Bool) (s : State), let n := lineCondition line; let source := if line = .supplyOk then !b else b
    let latch := (s.cond n).latch || (decide (line = .estop) && source)
    let active := if line = .estop then latch else source || (s.cond n).injected
    ∃ t, exec (.conditionLineChange line b) s = .next t ∧ HoldingKept s t ∧
      OnlyChanges [.lines, .lp, .ut, .pe, .afe, .cs, .oa, .lkc, .cu, .reports] s t ∧ t.lines = s.lines.put line b ∧
      (t.cond n).source = source ∧ (t.cond n).latch = latch ∧ (t.cond n).injected = (s.cond n).injected ∧
      (t.active n = active) ∧ t.cu.mode = s.cu.mode ∧ t.cu.mask = s.cu.mask ∧
      (s.active n = true ∨ active = false → (t.cond n).lastActive = (s.cond n).lastActive ∧ t.cu.stack = s.cu.stack ∧
        t.cu.rl = s.cu.rl ∧ (HardWhereSevere s → OnlyChanges [.lines, .lp, .cu] s t ∧ OtherConditionsKept n s t)) ∧
      (s.active n = false → active = true → (t.cond n).lastActive = some s.now ∧
        TakingCheckMade (raisedAt 0 n { s.cond n with source := source, latch := latch, lastActive := some s.now } s) t)

/-- KEY_CHANGE (R130, R127): the mode follows the line. A change while a unit is RUNNING or LEAKING latches MODE_CHANGE and takes it
where it qualifies; a change to PRODUCTION lowers the mask to 10 and makes the taking check; a level that is no change changes
nothing. -/
def Obligations.KeyChangeSetsTheModeAndCapsTheMask : Prop :=
  ∀ (b : Bool) (s : State), let mode : Mode := if b then .maintenance else .production
    (s.cu.mode = mode → exec (.keyChange b) s = .next (arbitrate s)) ∧
    (s.cu.mode ≠ mode → let mask := if b then s.cu.mask else min s.cu.mask 10
      ∃ t, exec (.keyChange b) s = .next t ∧ HoldingKept s t ∧
        OnlyChanges [.lp, .ut, .pe, .afe, .cs, .oa, .lkc, .cu, .reports] s t ∧ t.cu.mode = mode ∧ t.cu.mask = mask ∧
        (t.cond 8).source = ((s.cond 8).source && !s.anyWorking) ∧ (t.cond 8).latch = ((s.cond 8).latch || s.anyWorking) ∧
        (s.anyWorking = true → s.active 8 = false → (t.cond 8).lastActive = some s.now) ∧
        (b = true → s.anyWorking = false → t.cu.stack = s.cu.stack ∧ t.cu.rl = s.cu.rl) ∧
        (b = true → s.anyWorking = true → s.active 8 = true → t.cu.stack = s.cu.stack ∧ t.cu.rl = s.cu.rl) ∧
        (b = true → s.anyWorking = true → s.active 8 = false →
          TakingCheckMade (raisedAt 0 8 { s.cond 8 with source := false, latch := true, lastActive := some s.now } s) t) ∧
        (b = false → TakingCheckMade (s.setCu { s.cu with
          mask := mask
          conditions := s.cu.conditions.set 8 { s.cond 8 with latch := (s.cond 8).latch || s.anyWorking } }) t))

/-- CONDITION_TAKE (R133 to R135): where a condition qualifies the one of the highest severity, of the lowest number among equals, is
taken with all of R134, and each member that enters the halt set stops its work. PROFILE: a stepping profile or a re-approach is
suspended, its torques 0, the window of a stepping one paused and a drag pass discarded, with the drive held or, at severity 14 and above,
cut, which ends a profile that was STOPPING; a standing SOFT halt turns HARD at such a taking, and a HARD one stands (R56, R57). NOISE:
the open window is PAUSED and VIB capture no longer wanted (R62, R74, R87, R100). LEAK: attempts in progress vent, to come back (R121).
TRANSFER: the conveyor stops (R15). Where none qualifies nothing changes. -/
def Obligations.TakingAConditionHaltsItsWork : Prop :=
  ∀ s : State,
    (NoneQualifies s → HardWhereSevere s → exec .conditionTake s = .next (arbitrate s)) ∧
    ∀ n, IsTaken n s → let vector := (s.cond n).vector; let severe := 14 ≤ (s.cond n).severity
      let mild := (s.cond n).severity < 14 ∧ ∀ f ∈ s.cu.stack, f.severity < 14
      ∃ t, exec .conditionTake s = .next t ∧ HoldingKept s t ∧
        OnlyChanges [.lp, .ut, .pe, .afe, .cs, .oa, .lkc, .cu, .reports] s t ∧ TakingCheckMade s t ∧
        t.halt = vector.union s.halt ∧ t.cu.mode = s.cu.mode ∧ t.cu.mask = s.cu.mask ∧
        TakingRecorded n s t ∧
        (vector.profile = true → s.halt.profile = false →
          (s.pe.phase = .stepping →
            t.pe.phase = .suspended ∧ t.pe.step = s.pe.step ∧ t.pe.stepTimer = none ∧ t.pe.settleTimer = none ∧
            t.pe.torqueL = 0 ∧ t.pe.torqueR = 0 ∧ t.pe.counters = s.pe.counters ∧
            ∀ (k : Nat) (x : Step) (i : Fin 8) (r : UnitRecord), IsStepping k x i r s →
              t.pe.settled = false ∧ t.pe.openSent = false ∧ t.oa = { s.oa with windows := pausedWindow x.window s.oa.windows } ∧
              (x.kind = .measureDrag → t.pe.dragRecords = 0 ∧ t.pe.dragSamples = 0 ∧ t.pe.dragSum = 0)) ∧
          (s.pe.phase = .reapproach → s.pe.openSent = false → t.oa = s.oa) ∧
          (s.pe.phase = .reapproach → t.pe.phase = .suspended ∧ t.pe.step = s.pe.step ∧ t.pe.counters = s.pe.counters) ∧
          (s.pe.phase = .held ∨ s.pe.phase = .idle → t.pe.phase = s.pe.phase) ∧
          (mild → t.pe.halt = .soft ∧ t.pe.setpoint = s.pe.setpoint ∧ t.pe.enable = s.pe.enable ∧ t.pe.brake = s.pe.brake ∧
            (s.pe.phase = .stopping → t.pe.phase = .stopping ∧ t.pe.cause = s.pe.cause)) ∧
          (severe → HaltedHard s t)) ∧
        (s.halt.profile = true →
          (s.pe.halt ≠ .hard → severe → HaltedHard s t ∧ (s.pe.phase ≠ .stopping → t.pe.phase = s.pe.phase ∧ t.pe.step = s.pe.step)) ∧
          (s.pe.halt = .hard ∨ mild → s.pe.openSent = false → t.pe = s.pe)) ∧
        (vector.noise = true → s.halt.noise = false →
          (t.stream .vib).state ≠ .running ∧ (t.stream .vib).state ≠ .starved ∧
          ∀ (k : Nat) (x : Step) (i : Fin 8) (r : UnitRecord), IsStepping k x i r s → x.window ≠ 0 → s.pe.openSent = true →
            t.pe.openSent = false ∧ t.oa = { s.oa with windows := s.oa.windows.map fun w =>
              if w.number = x.window ∧ w.state = .opened then { w with state := .paused } else w } ∧
            (vector.profile = false → s.halt.profile = false → t.pe = { s.pe with openSent := false })) ∧
        (vector.leak = true → s.halt.leak = false → StationLaw s → ∀ i r, IsUnitIn .leaking i r s →
          t.lkc.queue = s.lkc.queue ∧ ∀ c, t.chamber c = if (s.chamber c).phase.attempting
            then ⟨.vent, some (s.chamberPlan c).vent, some .requeue, none⟩ else s.chamber c) ∧
        (vector.transfer = true → s.halt.transfer = false → ∀ i r, IsUnitIn .inTransfer i r s →
          t.ut.transferLine = false ∧ t.ut.transferTimer = none)

/-- COND_ACK (R136, R137): a number above 19 is BAD_VALUE and a LATCHED condition whose source is asserted is STILL_ACTIVE, and those
change nothing; otherwise latch and injected flag are cleared, the latch only where the condition is LATCHED, and no frame is
touched. -/
def Obligations.AckClearsLatchAndInjection : Prop :=
  ∀ (tag : Byte) (s : State), s.listens →
    (∀ b : Byte, 19 < b.toNat → ∃ t, exec (.condAck tag b) s = .next t ∧ OnlyAnswers ⟨0x12, tag, [b]⟩ [0x12] s t) ∧
    ∀ n : Fin 20, let b := BitVec.ofNat 8 n.val; let f : Frame := ⟨0x12, tag, [b]⟩
      (conditionKind n = .latched → (s.cond n).source = true →
        ∃ t, exec (.condAck tag b) s = .next t ∧ OnlyAnswers f [0x1E] s t) ∧
      (conditionKind n = .level ∨ (s.cond n).source = false →
        ∃ t, exec (.condAck tag b) s = .next t ∧ OnlyChanges [.lp, .cu] s t ∧ Answered f [0x00] s t ∧
          t.lp.notices = s.lp.notices ∧
          t.cond n = { s.cond n with
            injected := false, latch := if conditionKind n = .latched then false else (s.cond n).latch } ∧
          OtherConditionsKept n s t ∧ t.cu.stack = s.cu.stack ∧ t.cu.rl = s.cu.rl ∧ t.cu.mask = s.cu.mask ∧
          t.cu.mode = s.cu.mode)

/-- COND_INJECT (R136, R138): BAD_VALUE above 19, PROTECTED for conditions 0 to 15 in PRODUCTION; otherwise the injected flag is set,
and the latch of a LATCHED condition, the taking check runs, and the reply carries whether the condition was taken. -/
def Obligations.InjectionActivatesAndChecks : Prop :=
  ∀ (tag : Byte) (s : State), s.listens →
    (∀ b : Byte, 19 < b.toNat → ∃ t, exec (.condInject tag b) s = .next t ∧ OnlyAnswers ⟨0x13, tag, [b]⟩ [0x12] s t) ∧
    ∀ n : Fin 20, let b := BitVec.ofNat 8 n.val; let f : Frame := ⟨0x13, tag, [b]⟩
      (n.val < 16 → s.cu.mode = .production → ∃ t, exec (.condInject tag b) s = .next t ∧ OnlyAnswers f [0x1D] s t) ∧
      (16 ≤ n.val ∨ s.cu.mode = .maintenance →
        let c := s.cond n
        let injected : Condition := { c with
          injected := true, latch := c.latch || decide (conditionKind n = .latched)
          lastActive := if s.active n then c.lastActive else some s.now }
        ∃ t, exec (.condInject tag b) s = .next t ∧
          OnlyChanges [.lp, .ut, .pe, .afe, .cs, .oa, .lkc, .cu, .reports] s t ∧
          t.active n = true ∧ (t.cond n).injected = true ∧ (t.cond n).latch = injected.latch ∧
          (t.cond n).lastActive = injected.lastActive ∧ TakingCheckMade (raisedAt 0 n injected s) t ∧
          (IsTaken n (raisedAt 0 n injected s) → Answered f [0x00, 1] s t) ∧
          (¬IsTaken n (raisedAt 0 n injected s) → Answered f [0x00, 0] s t))

/-- COND_CONFIG and SET_MASK (R131, R136, R141): the refusals of R141 change nothing, the number checked before the mode (the model's
choice, log 27); otherwise severity and vector are clamped and completed, become the live values, and come back in the reply, and the
taking check runs where the condition is off the stack. A mask is clamped to the cap of the mode, and a lowered one brings the check.
Frames are not changed. -/
def Obligations.ConfigAndMaskAreClampedAndChecked : Prop :=
  ∀ (tag : Byte) (s : State), s.listens →
    (∀ b severity vector : Byte, let f : Frame := ⟨0x14, tag, [b, severity, vector]⟩
      (19 < b.toNat → ∃ t, exec (.condConfig tag b severity vector) s = .next t ∧ OnlyAnswers f [0x12] s t) ∧
      ∀ n : Fin 20, b = BitVec.ofNat 8 n.val → let configurable := n = 5 ∨ 9 ≤ n.val
        (s.cu.mode = .production ∨ ¬configurable →
          ∃ t, exec (.condConfig tag b severity vector) s = .next t ∧ OnlyAnswers f [0x1D] s t) ∧
        (s.cu.mode = .maintenance → configurable → 15 < vector.toNat →
          ∃ t, exec (.condConfig tag b severity vector) s = .next t ∧ OnlyAnswers f [0x12] s t) ∧
        (s.cu.mode = .maintenance → configurable → vector.toNat ≤ 15 →
          let least := if n = 5 then 11 else 1
          let most := if 16 ≤ n.val then 10 else 14
          let sev := min most (max least severity.toNat)
          let vec : StopSet := ⟨vector.toNat.testBit 0 || decide (n = 5), vector.toNat.testBit 1, vector.toNat.testBit 2,
            vector.toNat.testBit 3⟩
          let v := s.setCu { s.cu with conditions := s.cu.conditions.set n { s.cond n with severity := sev, vector := vec } }
          ∃ t, exec (.condConfig tag b severity vector) s = .next t ∧ Answered f [0x00, codeByte sev, codeByte vec.code] s t ∧
            OnlyChanges [.lp, .ut, .pe, .afe, .cs, .oa, .lkc, .cu, .reports] s t ∧
            (t.cond n).severity = sev ∧ (t.cond n).vector = vec ∧
            (s.onStack n = true → OnlyChanges [.lp, .cu] s t ∧ t.cu = v.cu) ∧
            (s.onStack n = false → TakingCheckMade v t))) ∧
    ∀ level : Byte, let mask := min level.toNat (if s.cu.mode = .maintenance then 14 else 10)
      ∃ t, exec (.setMask tag level) s = .next t ∧ Answered ⟨0x15, tag, [level]⟩ [0x00, codeByte mask] s t ∧
        OnlyChanges [.lp, .ut, .pe, .afe, .cs, .oa, .lkc, .cu, .reports] s t ∧ t.cu.mask = mask ∧
        (s.cu.mask ≤ mask → OnlyChanges [.lp, .cu] s t ∧ t.cu = { s.cu with mask := mask }) ∧
        (mask < s.cu.mask → TakingCheckMade (s.setCu { s.cu with mask := mask }) t)

/-- RESUME (R139, R135): EMPTY on an empty stack, STILL_ACTIVE while the condition of the top frame is active; otherwise the top frame is
popped, RL is the one it saved, the taking check runs, and the reply carries the number, RL, depth and halt set that stand. Where nothing
more is halted, the drive re-approaches, from a suspended profile, with drive enable on and the brake released, and a HELD profile begins
at step 1 (R58, R43); a window whose settle time has run out opens (R61); the head of the chamber queue fills, and a unit waiting in
AT_LEAK starts its leak test (R122, R16); and the conveyor runs on, or takes the unit that waits in RUN_DONE for a free station 2 (R15,
R12). -/
def Obligations.ResumePopsTheTopFrame : Prop :=
  ∀ (tag : Byte) (s : State), s.listens → let f : Frame := ⟨0x16, tag, []⟩
    (s.cu.stack = [] → ∃ t, exec (.resume tag) s = .next t ∧ OnlyAnswers f [0x02] s t) ∧
    ∀ (top : HoldFrame) (rest : List HoldFrame), s.cu.stack = top :: rest →
      (s.active top.number = true → ∃ t, exec (.resume tag) s = .next t ∧ OnlyAnswers f [0x1E] s t) ∧
      (s.active top.number = false → let v := s.setCu { s.cu with stack := rest, rl := top.savedRl }
        ∃ t, exec (.resume tag) s = .next t ∧
          OnlyChanges [.lp, .ut, .pe, .afe, .cs, .oa, .lkc, .cu, .reports] s t ∧ TakingCheckMade v t ∧
          Answered f [0x00, codeByte top.number.val, codeByte t.cu.rl, codeByte t.cu.stack.length, codeByte t.halt.code] s t ∧
          (NoneQualifies v → t.halt = v.halt ∧
            (∃ x, Announced ⟨.condition top.number, x⟩ t) ∧
            (s.halt.profile = true → v.halt.profile = false → s.pe.phase = .suspended →
              t.pe = { s.pe with
                halt := .none, enable := true, brake := false, phase := .reapproach
                enabledAt := if s.pe.enable then s.pe.enabledAt else some s.uptime }) ∧
            (s.halt.leak = true → v.halt.leak = false → s.pe.phase ≠ .held → (∀ c, (s.chamber c).phase ≠ .fill) → s.lkc.resetVent = .over →
              NoUnitIn .atLeak s → ∀ c q, s.lkc.queue = c :: q →
              t.chamber c = ⟨.fill, some (s.chamberPlan c).fillTimeout, none, none⟩ ∧ t.lkc.queue = q) ∧
            (s.halt.profile = true → v.halt.profile = false → s.pe.phase = .held → StationLaw s →
              ∀ (i : Fin 8) (r : UnitRecord) (x : Step), IsUnitIn .running i r s → (s.recipeOf r).steps[0]? = some x →
              x.endsAtEntry = false →
              StepLoaded (s.recipeOf r) x v.halt.noise s.oa.windows t ∧ t.pe.step = some 1 ∧ t.pe.setpoint = s.pe.setpoint ∧
              t.pe.enable = true ∧ t.pe.brake = false ∧ t.pe.halt = .none ∧
              t.ut.records[i] = some { r with runIn := { r.runIn with steps := count32 r.runIn.steps } }) ∧
            (s.halt.noise = true → v.halt.noise = false → s.halt.profile = false →
              ∀ (k : Nat) (x : Step) (i : Fin 8) (r : UnitRecord), IsStepping k x i r s → x.window ≠ 0 →
              s.pe.settled = true → s.pe.openSent = false →
              t.pe = { s.pe with openSent := true } ∧ t.oa = { s.oa with windows := s.oa.windows.map fun w =>
                if w.number = x.window ∧ (w.state = .idle ∨ w.state = .paused) then { w with state := .opened, opened := true }
                else w }) ∧
            (s.halt.leak = true → v.halt.leak = false → s.pe.phase ≠ .held → StationLaw s →
              (∀ c, s.chamber c = ⟨.idle, none, none, none⟩) → s.lkc.queue = [] →
              ∀ (i : Fin 8) (r : UnitRecord), IsUnitIn .atLeak i r s → let recipe := s.recipeOf r
              r.abort = false → ¬(r.runIn.verdict = some .fail ∧ recipe.leakAfterFail = false) →
              (∃ c : Fin 4, (recipe.chambers[c]).enabled = true) →
              t.ut.records[i] = some { r with state := .leaking, leak := { r.leak with state := .inProgress } } ∧
              let enabled := (List.finRange 4).filter fun c => (recipe.chambers[c]).enabled
              (s.lkc.resetVent ≠ .over → t.lkc.queue = enabled) ∧
              (s.lkc.resetVent = .over → ∀ c q, enabled = c :: q → t.lkc.queue = q ∧
                t.chamber c = ⟨.fill, some (recipe.chambers[c]).fillTimeout, none, none⟩)) ∧
            (s.halt.transfer = true → v.halt.transfer = false → ∀ i r, IsUnitIn .inTransfer i r s →
              t.ut.transferLine = true ∧ t.ut.transferTimer = some (s.rs.live.transfer * 1000)) ∧
            (s.halt.transfer = true → v.halt.transfer = false → StationLaw s → Station2Free s → s.pe.phase ≠ .held →
              ∀ (i : Fin 8) (r : UnitRecord), IsUnitIn .runDone i r s →
              t.ut.records[i] = some { r with state := .inTransfer } ∧ t.ut.transferLine = true ∧
              t.ut.transferTimer = some (s.rs.live.transfer * 1000) ∧ PlanFollows (s.recipeOf r).leakPlan (t.stream .leak) ∧
              Announced ⟨.unit i, .unit r.id (some .inTransfer) r.abort s.now⟩ t)))

/-! ## Levels, grades and leak rates -/

/-- R97: for P of 1 or more, L is the greatest integer for which 512 × 10^(L/100) ≤ P, in the real numbers, 569 for 256,000,000, and it
lies in −271..963 for every P that order sums give. The reported level adds the channel's sensitivity offset in the live configuration,
and lies in −871..1563; for P of 0 it is −2000. -/
def Obligations.LevelIsTheGreatestIntegerBelowThePower : Prop :=
  (∀ offset : Int, reportedLevel offset 0 = -2000) ∧ levelOf 256000000 = 569 ∧
  (∀ (offset : Int) (p : Nat), 1 ≤ p →
    reportedLevel offset p = levelOf p + offset ∧
    512 * (10 : ℝ) ^ ((levelOf p : ℝ) / 100) ≤ p ∧
    (∀ l : Int, 512 * (10 : ℝ) ^ ((l : ℝ) / 100) ≤ p → l ≤ levelOf p) ∧
    (p ≤ 2 ^ 41 → -271 ≤ levelOf p ∧ levelOf p ≤ 963 ∧
      (-600 ≤ offset → offset ≤ 600 → -871 ≤ reportedLevel offset p ∧ reportedLevel offset p ≤ 1563))) ∧
  ∀ (s : State) (w : Window), ∀ x ∈ w.results s.rs.live,
    x.level = reportedLevel (s.rs.live.sensitivity[x.channel.code]?.getD 0) x.power

/-- R98: the grade of a pair, by the tests of the rule in their order: INCOMPLETE, PASS without energy, FAIL, WARN, and otherwise PASS. -/
def Obligations.GradesFollowTheirTestsInOrder : Prop :=
  ∀ (w : WindowSpec) (nAcc p : Nat) (level limit : Int),
    (gradePair w nAcc p level limit = .incomplete ↔ nAcc < w.nMin) ∧
    (w.nMin ≤ nAcc → p = 0 → gradePair w nAcc p level limit = .pass) ∧
    (gradePair w nAcc p level limit = .fail ↔ w.nMin ≤ nAcc ∧ p ≠ 0 ∧ limit < level) ∧
    (gradePair w nAcc p level limit = .warn ↔ w.nMin ≤ nAcc ∧ p ≠ 0 ∧ level ≤ limit ∧ limit - w.warnBand < level) ∧
    (gradePair w nAcc p level limit = .pass ↔ w.nMin ≤ nAcc ∧ (p = 0 ∨ level ≤ limit ∧ level ≤ limit - w.warnBand)) ∧
    (w.nMin ≤ nAcc → w.warnBand = 0 → gradePair w nAcc p level limit ≠ .warn) ∧
    (limit = level → gradePair w nAcc p level limit ≠ .fail) ∧
    (level = limit - w.warnBand → gradePair w nAcc p level limit ≠ .warn) ∧
    ∀ (cfg : CellConfig) (v : Window), (∀ x ∈ v.results cfg, x.grade = gradePair v.spec v.nAcc x.power x.level x.limit) ∧
      ((∀ x ∈ v.results cfg, x.grade = .incomplete) ∨ (∀ x ∈ v.results cfg, x.grade ≠ .incomplete))

/-- R92: the tables hold 16384 times the cosine and the sine of 128ths of a turn, each rounded to the nearest integer, with exact entries
at 0, 32, 64 and 96; the power of an order is the floor of (Re² + Im²) / 2^32 over the samples' sums; and with at most 128 samples of 16
bits it is at most 2^41. -/
def Obligations.OrderPowerIsAtMostTwoToThe41 : Prop :=
  (∀ m : Nat, m < 128 →
    |(cosTab m : ℝ) - 16384 * Real.cos (2 * Real.pi * m / 128)| < 1 / 2 ∧
    |(sinTab m : ℝ) - 16384 * Real.sin (2 * Real.pi * m / 128)| < 1 / 2) ∧
  [0, 32, 64, 96].map cosTab = [16384, 0, -16384, 0] ∧ [0, 32, 64, 96].map sinTab = [0, 16384, 0, -16384] ∧
  (∀ (q : Nat) (xs : List Int),
    let re := ((List.range xs.length).map fun n => xs.getD n 0 * cosTab (q * n % 128)).sum
    let im := ((List.range xs.length).map fun n => xs.getD n 0 * sinTab (q * n % 128)).sum
    (orderPower q xs : Int) = (re * re + im * im) / 2 ^ 32) ∧
  ∀ (q : Nat) (xs : List Int), xs.length ≤ 128 → (∀ x ∈ xs, -32768 ≤ x ∧ x ≤ 32767) → orderPower q xs ≤ 2 ^ 41

/-! ## Laws that every step keeps -/

/-- The laws hold right after reset. -/
def Obligations.LawsHoldAtReset : Prop :=
  MemoryLaw State.reset ∧ StackLaw State.reset ∧ AccountsLaw State.reset ∧ StationLaw State.reset ∧ SupplyLaw State.reset ∧
  DriveLaw State.reset

/-- Every step keeps the slots' bytes in canonical form, inside the slots (R21, R27). -/
def Obligations.EveryStepKeepsTheMemoryLaw : Prop := ∀ s t : State, MemoryLaw s → step s = .next t → MemoryLaw t

/-- Every step keeps the law of the hold stack, with RL and the depth at most 15, and the cap of the mask (R132, R131). The bounds rest
on the severities that are in force, and on those that a VALID slot 0 holds for the next reset (R126, R32). -/
def Obligations.EveryStepKeepsTheStackLaw : Prop := ∀ s t : State, StackLaw s → step s = .next t → StackLaw t

/-- Every step keeps the accounts of the Capture Store (R72). -/
def Obligations.EveryStepKeepsTheAccountsLaw : Prop := ∀ s t : State, AccountsLaw s → step s = .next t → AccountsLaw t

/-- Every step keeps at most one record at each station (R5), the law of the compressed-air supply (R108, R121, R125), and the halt of
the run stand: while PROFILE is in the halt set no step is in progress (R56), and the halt is HARD over a frame of severity 14 or more
(R57). -/
def Obligations.EveryStepKeepsTheStandsLaws : Prop :=
  ∀ s t : State, step s = .next t →
    (StationLaw s → StationLaw t) ∧ (SupplyLaw s → SupplyLaw t) ∧ (DriveLaw s → DriveLaw t)
end

