-- ==== Sys2Proof/Laws/State.lean ====
section
/-! SUPPORT. One lemma for each field of the state and each block update, true by unfolding once, so that no later proof unfolds a
record update. -/

namespace Sys2Proof.Machine

/-! ## setPending -/

@[simp] theorem State.setPending_pending (s : State) (x : List Instr) : (s.setPending x).pending = x := rfl
@[simp] theorem State.setPending_clockUs (s : State) (x : List Instr) : (s.setPending x).clockUs = s.clockUs := rfl
@[simp] theorem State.setPending_freeCount (s : State) (x : List Instr) : (s.setPending x).freeCount = s.freeCount := rfl
@[simp] theorem State.setPending_lines (s : State) (x : List Instr) : (s.setPending x).lines = s.lines := rfl
@[simp] theorem State.setPending_lp (s : State) (x : List Instr) : (s.setPending x).lp = s.lp := rfl
@[simp] theorem State.setPending_ut (s : State) (x : List Instr) : (s.setPending x).ut = s.ut := rfl
@[simp] theorem State.setPending_rs (s : State) (x : List Instr) : (s.setPending x).rs = s.rs := rfl
@[simp] theorem State.setPending_pe (s : State) (x : List Instr) : (s.setPending x).pe = s.pe := rfl
@[simp] theorem State.setPending_afe (s : State) (x : List Instr) : (s.setPending x).afe = s.afe := rfl
@[simp] theorem State.setPending_cs (s : State) (x : List Instr) : (s.setPending x).cs = s.cs := rfl
@[simp] theorem State.setPending_oa (s : State) (x : List Instr) : (s.setPending x).oa = s.oa := rfl
@[simp] theorem State.setPending_lkc (s : State) (x : List Instr) : (s.setPending x).lkc = s.lkc := rfl
@[simp] theorem State.setPending_cu (s : State) (x : List Instr) : (s.setPending x).cu = s.cu := rfl
@[simp] theorem State.setPending_reports (s : State) (x : List Instr) : (s.setPending x).reports = s.reports := rfl
@[simp] theorem State.setPending_setPending (s : State) (x y : List Instr) : (s.setPending x).setPending y = s.setPending y := rfl
@[simp] theorem State.setPending_self (s : State) : s.setPending s.pending = s := rfl

/-! ## setFreeCount -/

@[simp] theorem State.setFreeCount_pending (s : State) (x : Nat) : (s.setFreeCount x).pending = s.pending := rfl
@[simp] theorem State.setFreeCount_clockUs (s : State) (x : Nat) : (s.setFreeCount x).clockUs = s.clockUs := rfl
@[simp] theorem State.setFreeCount_freeCount (s : State) (x : Nat) : (s.setFreeCount x).freeCount = x := rfl
@[simp] theorem State.setFreeCount_lines (s : State) (x : Nat) : (s.setFreeCount x).lines = s.lines := rfl
@[simp] theorem State.setFreeCount_lp (s : State) (x : Nat) : (s.setFreeCount x).lp = s.lp := rfl
@[simp] theorem State.setFreeCount_ut (s : State) (x : Nat) : (s.setFreeCount x).ut = s.ut := rfl
@[simp] theorem State.setFreeCount_rs (s : State) (x : Nat) : (s.setFreeCount x).rs = s.rs := rfl
@[simp] theorem State.setFreeCount_pe (s : State) (x : Nat) : (s.setFreeCount x).pe = s.pe := rfl
@[simp] theorem State.setFreeCount_afe (s : State) (x : Nat) : (s.setFreeCount x).afe = s.afe := rfl
@[simp] theorem State.setFreeCount_cs (s : State) (x : Nat) : (s.setFreeCount x).cs = s.cs := rfl
@[simp] theorem State.setFreeCount_oa (s : State) (x : Nat) : (s.setFreeCount x).oa = s.oa := rfl
@[simp] theorem State.setFreeCount_lkc (s : State) (x : Nat) : (s.setFreeCount x).lkc = s.lkc := rfl
@[simp] theorem State.setFreeCount_cu (s : State) (x : Nat) : (s.setFreeCount x).cu = s.cu := rfl
@[simp] theorem State.setFreeCount_reports (s : State) (x : Nat) : (s.setFreeCount x).reports = s.reports := rfl
@[simp] theorem State.setFreeCount_setFreeCount (s : State) (x y : Nat) : (s.setFreeCount x).setFreeCount y = s.setFreeCount y := rfl
@[simp] theorem State.setFreeCount_self (s : State) : s.setFreeCount s.freeCount = s := rfl

/-! ## setLines -/

@[simp] theorem State.setLines_pending (s : State) (x : Lines) : (s.setLines x).pending = s.pending := rfl
@[simp] theorem State.setLines_clockUs (s : State) (x : Lines) : (s.setLines x).clockUs = s.clockUs := rfl
@[simp] theorem State.setLines_freeCount (s : State) (x : Lines) : (s.setLines x).freeCount = s.freeCount := rfl
@[simp] theorem State.setLines_lines (s : State) (x : Lines) : (s.setLines x).lines = x := rfl
@[simp] theorem State.setLines_lp (s : State) (x : Lines) : (s.setLines x).lp = s.lp := rfl
@[simp] theorem State.setLines_ut (s : State) (x : Lines) : (s.setLines x).ut = s.ut := rfl
@[simp] theorem State.setLines_rs (s : State) (x : Lines) : (s.setLines x).rs = s.rs := rfl
@[simp] theorem State.setLines_pe (s : State) (x : Lines) : (s.setLines x).pe = s.pe := rfl
@[simp] theorem State.setLines_afe (s : State) (x : Lines) : (s.setLines x).afe = s.afe := rfl
@[simp] theorem State.setLines_cs (s : State) (x : Lines) : (s.setLines x).cs = s.cs := rfl
@[simp] theorem State.setLines_oa (s : State) (x : Lines) : (s.setLines x).oa = s.oa := rfl
@[simp] theorem State.setLines_lkc (s : State) (x : Lines) : (s.setLines x).lkc = s.lkc := rfl
@[simp] theorem State.setLines_cu (s : State) (x : Lines) : (s.setLines x).cu = s.cu := rfl
@[simp] theorem State.setLines_reports (s : State) (x : Lines) : (s.setLines x).reports = s.reports := rfl
@[simp] theorem State.setLines_setLines (s : State) (x y : Lines) : (s.setLines x).setLines y = s.setLines y := rfl
@[simp] theorem State.setLines_self (s : State) : s.setLines s.lines = s := rfl

/-! ## setLp -/

@[simp] theorem State.setLp_pending (s : State) (x : LinePort) : (s.setLp x).pending = s.pending := rfl
@[simp] theorem State.setLp_clockUs (s : State) (x : LinePort) : (s.setLp x).clockUs = s.clockUs := rfl
@[simp] theorem State.setLp_freeCount (s : State) (x : LinePort) : (s.setLp x).freeCount = s.freeCount := rfl
@[simp] theorem State.setLp_lines (s : State) (x : LinePort) : (s.setLp x).lines = s.lines := rfl
@[simp] theorem State.setLp_lp (s : State) (x : LinePort) : (s.setLp x).lp = x := rfl
@[simp] theorem State.setLp_ut (s : State) (x : LinePort) : (s.setLp x).ut = s.ut := rfl
@[simp] theorem State.setLp_rs (s : State) (x : LinePort) : (s.setLp x).rs = s.rs := rfl
@[simp] theorem State.setLp_pe (s : State) (x : LinePort) : (s.setLp x).pe = s.pe := rfl
@[simp] theorem State.setLp_afe (s : State) (x : LinePort) : (s.setLp x).afe = s.afe := rfl
@[simp] theorem State.setLp_cs (s : State) (x : LinePort) : (s.setLp x).cs = s.cs := rfl
@[simp] theorem State.setLp_oa (s : State) (x : LinePort) : (s.setLp x).oa = s.oa := rfl
@[simp] theorem State.setLp_lkc (s : State) (x : LinePort) : (s.setLp x).lkc = s.lkc := rfl
@[simp] theorem State.setLp_cu (s : State) (x : LinePort) : (s.setLp x).cu = s.cu := rfl
@[simp] theorem State.setLp_reports (s : State) (x : LinePort) : (s.setLp x).reports = s.reports := rfl
@[simp] theorem State.setLp_setLp (s : State) (x y : LinePort) : (s.setLp x).setLp y = s.setLp y := rfl
@[simp] theorem State.setLp_self (s : State) : s.setLp s.lp = s := rfl

/-! ## setUt -/

@[simp] theorem State.setUt_pending (s : State) (x : UnitTable) : (s.setUt x).pending = s.pending := rfl
@[simp] theorem State.setUt_clockUs (s : State) (x : UnitTable) : (s.setUt x).clockUs = s.clockUs := rfl
@[simp] theorem State.setUt_freeCount (s : State) (x : UnitTable) : (s.setUt x).freeCount = s.freeCount := rfl
@[simp] theorem State.setUt_lines (s : State) (x : UnitTable) : (s.setUt x).lines = s.lines := rfl
@[simp] theorem State.setUt_lp (s : State) (x : UnitTable) : (s.setUt x).lp = s.lp := rfl
@[simp] theorem State.setUt_ut (s : State) (x : UnitTable) : (s.setUt x).ut = x := rfl
@[simp] theorem State.setUt_rs (s : State) (x : UnitTable) : (s.setUt x).rs = s.rs := rfl
@[simp] theorem State.setUt_pe (s : State) (x : UnitTable) : (s.setUt x).pe = s.pe := rfl
@[simp] theorem State.setUt_afe (s : State) (x : UnitTable) : (s.setUt x).afe = s.afe := rfl
@[simp] theorem State.setUt_cs (s : State) (x : UnitTable) : (s.setUt x).cs = s.cs := rfl
@[simp] theorem State.setUt_oa (s : State) (x : UnitTable) : (s.setUt x).oa = s.oa := rfl
@[simp] theorem State.setUt_lkc (s : State) (x : UnitTable) : (s.setUt x).lkc = s.lkc := rfl
@[simp] theorem State.setUt_cu (s : State) (x : UnitTable) : (s.setUt x).cu = s.cu := rfl
@[simp] theorem State.setUt_reports (s : State) (x : UnitTable) : (s.setUt x).reports = s.reports := rfl
@[simp] theorem State.setUt_setUt (s : State) (x y : UnitTable) : (s.setUt x).setUt y = s.setUt y := rfl
@[simp] theorem State.setUt_self (s : State) : s.setUt s.ut = s := rfl

/-! ## setRs -/

@[simp] theorem State.setRs_pending (s : State) (x : RecipeStore) : (s.setRs x).pending = s.pending := rfl
@[simp] theorem State.setRs_clockUs (s : State) (x : RecipeStore) : (s.setRs x).clockUs = s.clockUs := rfl
@[simp] theorem State.setRs_freeCount (s : State) (x : RecipeStore) : (s.setRs x).freeCount = s.freeCount := rfl
@[simp] theorem State.setRs_lines (s : State) (x : RecipeStore) : (s.setRs x).lines = s.lines := rfl
@[simp] theorem State.setRs_lp (s : State) (x : RecipeStore) : (s.setRs x).lp = s.lp := rfl
@[simp] theorem State.setRs_ut (s : State) (x : RecipeStore) : (s.setRs x).ut = s.ut := rfl
@[simp] theorem State.setRs_rs (s : State) (x : RecipeStore) : (s.setRs x).rs = x := rfl
@[simp] theorem State.setRs_pe (s : State) (x : RecipeStore) : (s.setRs x).pe = s.pe := rfl
@[simp] theorem State.setRs_afe (s : State) (x : RecipeStore) : (s.setRs x).afe = s.afe := rfl
@[simp] theorem State.setRs_cs (s : State) (x : RecipeStore) : (s.setRs x).cs = s.cs := rfl
@[simp] theorem State.setRs_oa (s : State) (x : RecipeStore) : (s.setRs x).oa = s.oa := rfl
@[simp] theorem State.setRs_lkc (s : State) (x : RecipeStore) : (s.setRs x).lkc = s.lkc := rfl
@[simp] theorem State.setRs_cu (s : State) (x : RecipeStore) : (s.setRs x).cu = s.cu := rfl
@[simp] theorem State.setRs_reports (s : State) (x : RecipeStore) : (s.setRs x).reports = s.reports := rfl
@[simp] theorem State.setRs_setRs (s : State) (x y : RecipeStore) : (s.setRs x).setRs y = s.setRs y := rfl
@[simp] theorem State.setRs_self (s : State) : s.setRs s.rs = s := rfl

/-! ## setPe -/

@[simp] theorem State.setPe_pending (s : State) (x : ProfileEngine) : (s.setPe x).pending = s.pending := rfl
@[simp] theorem State.setPe_clockUs (s : State) (x : ProfileEngine) : (s.setPe x).clockUs = s.clockUs := rfl
@[simp] theorem State.setPe_freeCount (s : State) (x : ProfileEngine) : (s.setPe x).freeCount = s.freeCount := rfl
@[simp] theorem State.setPe_lines (s : State) (x : ProfileEngine) : (s.setPe x).lines = s.lines := rfl
@[simp] theorem State.setPe_lp (s : State) (x : ProfileEngine) : (s.setPe x).lp = s.lp := rfl
@[simp] theorem State.setPe_ut (s : State) (x : ProfileEngine) : (s.setPe x).ut = s.ut := rfl
@[simp] theorem State.setPe_rs (s : State) (x : ProfileEngine) : (s.setPe x).rs = s.rs := rfl
@[simp] theorem State.setPe_pe (s : State) (x : ProfileEngine) : (s.setPe x).pe = x := rfl
@[simp] theorem State.setPe_afe (s : State) (x : ProfileEngine) : (s.setPe x).afe = s.afe := rfl
@[simp] theorem State.setPe_cs (s : State) (x : ProfileEngine) : (s.setPe x).cs = s.cs := rfl
@[simp] theorem State.setPe_oa (s : State) (x : ProfileEngine) : (s.setPe x).oa = s.oa := rfl
@[simp] theorem State.setPe_lkc (s : State) (x : ProfileEngine) : (s.setPe x).lkc = s.lkc := rfl
@[simp] theorem State.setPe_cu (s : State) (x : ProfileEngine) : (s.setPe x).cu = s.cu := rfl
@[simp] theorem State.setPe_reports (s : State) (x : ProfileEngine) : (s.setPe x).reports = s.reports := rfl
@[simp] theorem State.setPe_setPe (s : State) (x y : ProfileEngine) : (s.setPe x).setPe y = s.setPe y := rfl
@[simp] theorem State.setPe_self (s : State) : s.setPe s.pe = s := rfl

/-! ## setAfe -/

@[simp] theorem State.setAfe_pending (s : State) (x : FrontEnd) : (s.setAfe x).pending = s.pending := rfl
@[simp] theorem State.setAfe_clockUs (s : State) (x : FrontEnd) : (s.setAfe x).clockUs = s.clockUs := rfl
@[simp] theorem State.setAfe_freeCount (s : State) (x : FrontEnd) : (s.setAfe x).freeCount = s.freeCount := rfl
@[simp] theorem State.setAfe_lines (s : State) (x : FrontEnd) : (s.setAfe x).lines = s.lines := rfl
@[simp] theorem State.setAfe_lp (s : State) (x : FrontEnd) : (s.setAfe x).lp = s.lp := rfl
@[simp] theorem State.setAfe_ut (s : State) (x : FrontEnd) : (s.setAfe x).ut = s.ut := rfl
@[simp] theorem State.setAfe_rs (s : State) (x : FrontEnd) : (s.setAfe x).rs = s.rs := rfl
@[simp] theorem State.setAfe_pe (s : State) (x : FrontEnd) : (s.setAfe x).pe = s.pe := rfl
@[simp] theorem State.setAfe_afe (s : State) (x : FrontEnd) : (s.setAfe x).afe = x := rfl
@[simp] theorem State.setAfe_cs (s : State) (x : FrontEnd) : (s.setAfe x).cs = s.cs := rfl
@[simp] theorem State.setAfe_oa (s : State) (x : FrontEnd) : (s.setAfe x).oa = s.oa := rfl
@[simp] theorem State.setAfe_lkc (s : State) (x : FrontEnd) : (s.setAfe x).lkc = s.lkc := rfl
@[simp] theorem State.setAfe_cu (s : State) (x : FrontEnd) : (s.setAfe x).cu = s.cu := rfl
@[simp] theorem State.setAfe_reports (s : State) (x : FrontEnd) : (s.setAfe x).reports = s.reports := rfl
@[simp] theorem State.setAfe_setAfe (s : State) (x y : FrontEnd) : (s.setAfe x).setAfe y = s.setAfe y := rfl
@[simp] theorem State.setAfe_self (s : State) : s.setAfe s.afe = s := rfl

/-! ## setCs -/

@[simp] theorem State.setCs_pending (s : State) (x : CaptureStore) : (s.setCs x).pending = s.pending := rfl
@[simp] theorem State.setCs_clockUs (s : State) (x : CaptureStore) : (s.setCs x).clockUs = s.clockUs := rfl
@[simp] theorem State.setCs_freeCount (s : State) (x : CaptureStore) : (s.setCs x).freeCount = s.freeCount := rfl
@[simp] theorem State.setCs_lines (s : State) (x : CaptureStore) : (s.setCs x).lines = s.lines := rfl
@[simp] theorem State.setCs_lp (s : State) (x : CaptureStore) : (s.setCs x).lp = s.lp := rfl
@[simp] theorem State.setCs_ut (s : State) (x : CaptureStore) : (s.setCs x).ut = s.ut := rfl
@[simp] theorem State.setCs_rs (s : State) (x : CaptureStore) : (s.setCs x).rs = s.rs := rfl
@[simp] theorem State.setCs_pe (s : State) (x : CaptureStore) : (s.setCs x).pe = s.pe := rfl
@[simp] theorem State.setCs_afe (s : State) (x : CaptureStore) : (s.setCs x).afe = s.afe := rfl
@[simp] theorem State.setCs_cs (s : State) (x : CaptureStore) : (s.setCs x).cs = x := rfl
@[simp] theorem State.setCs_oa (s : State) (x : CaptureStore) : (s.setCs x).oa = s.oa := rfl
@[simp] theorem State.setCs_lkc (s : State) (x : CaptureStore) : (s.setCs x).lkc = s.lkc := rfl
@[simp] theorem State.setCs_cu (s : State) (x : CaptureStore) : (s.setCs x).cu = s.cu := rfl
@[simp] theorem State.setCs_reports (s : State) (x : CaptureStore) : (s.setCs x).reports = s.reports := rfl
@[simp] theorem State.setCs_setCs (s : State) (x y : CaptureStore) : (s.setCs x).setCs y = s.setCs y := rfl
@[simp] theorem State.setCs_self (s : State) : s.setCs s.cs = s := rfl

/-! ## setOa -/

@[simp] theorem State.setOa_pending (s : State) (x : OrderAnalyzer) : (s.setOa x).pending = s.pending := rfl
@[simp] theorem State.setOa_clockUs (s : State) (x : OrderAnalyzer) : (s.setOa x).clockUs = s.clockUs := rfl
@[simp] theorem State.setOa_freeCount (s : State) (x : OrderAnalyzer) : (s.setOa x).freeCount = s.freeCount := rfl
@[simp] theorem State.setOa_lines (s : State) (x : OrderAnalyzer) : (s.setOa x).lines = s.lines := rfl
@[simp] theorem State.setOa_lp (s : State) (x : OrderAnalyzer) : (s.setOa x).lp = s.lp := rfl
@[simp] theorem State.setOa_ut (s : State) (x : OrderAnalyzer) : (s.setOa x).ut = s.ut := rfl
@[simp] theorem State.setOa_rs (s : State) (x : OrderAnalyzer) : (s.setOa x).rs = s.rs := rfl
@[simp] theorem State.setOa_pe (s : State) (x : OrderAnalyzer) : (s.setOa x).pe = s.pe := rfl
@[simp] theorem State.setOa_afe (s : State) (x : OrderAnalyzer) : (s.setOa x).afe = s.afe := rfl
@[simp] theorem State.setOa_cs (s : State) (x : OrderAnalyzer) : (s.setOa x).cs = s.cs := rfl
@[simp] theorem State.setOa_oa (s : State) (x : OrderAnalyzer) : (s.setOa x).oa = x := rfl
@[simp] theorem State.setOa_lkc (s : State) (x : OrderAnalyzer) : (s.setOa x).lkc = s.lkc := rfl
@[simp] theorem State.setOa_cu (s : State) (x : OrderAnalyzer) : (s.setOa x).cu = s.cu := rfl
@[simp] theorem State.setOa_reports (s : State) (x : OrderAnalyzer) : (s.setOa x).reports = s.reports := rfl
@[simp] theorem State.setOa_setOa (s : State) (x y : OrderAnalyzer) : (s.setOa x).setOa y = s.setOa y := rfl
@[simp] theorem State.setOa_self (s : State) : s.setOa s.oa = s := rfl

/-! ## setLkc -/

@[simp] theorem State.setLkc_pending (s : State) (x : LeakController) : (s.setLkc x).pending = s.pending := rfl
@[simp] theorem State.setLkc_clockUs (s : State) (x : LeakController) : (s.setLkc x).clockUs = s.clockUs := rfl
@[simp] theorem State.setLkc_freeCount (s : State) (x : LeakController) : (s.setLkc x).freeCount = s.freeCount := rfl
@[simp] theorem State.setLkc_lines (s : State) (x : LeakController) : (s.setLkc x).lines = s.lines := rfl
@[simp] theorem State.setLkc_lp (s : State) (x : LeakController) : (s.setLkc x).lp = s.lp := rfl
@[simp] theorem State.setLkc_ut (s : State) (x : LeakController) : (s.setLkc x).ut = s.ut := rfl
@[simp] theorem State.setLkc_rs (s : State) (x : LeakController) : (s.setLkc x).rs = s.rs := rfl
@[simp] theorem State.setLkc_pe (s : State) (x : LeakController) : (s.setLkc x).pe = s.pe := rfl
@[simp] theorem State.setLkc_afe (s : State) (x : LeakController) : (s.setLkc x).afe = s.afe := rfl
@[simp] theorem State.setLkc_cs (s : State) (x : LeakController) : (s.setLkc x).cs = s.cs := rfl
@[simp] theorem State.setLkc_oa (s : State) (x : LeakController) : (s.setLkc x).oa = s.oa := rfl
@[simp] theorem State.setLkc_lkc (s : State) (x : LeakController) : (s.setLkc x).lkc = x := rfl
@[simp] theorem State.setLkc_cu (s : State) (x : LeakController) : (s.setLkc x).cu = s.cu := rfl
@[simp] theorem State.setLkc_reports (s : State) (x : LeakController) : (s.setLkc x).reports = s.reports := rfl
@[simp] theorem State.setLkc_setLkc (s : State) (x y : LeakController) : (s.setLkc x).setLkc y = s.setLkc y := rfl
@[simp] theorem State.setLkc_self (s : State) : s.setLkc s.lkc = s := rfl

/-! ## setCu -/

@[simp] theorem State.setCu_pending (s : State) (x : ConditionUnit) : (s.setCu x).pending = s.pending := rfl
@[simp] theorem State.setCu_clockUs (s : State) (x : ConditionUnit) : (s.setCu x).clockUs = s.clockUs := rfl
@[simp] theorem State.setCu_freeCount (s : State) (x : ConditionUnit) : (s.setCu x).freeCount = s.freeCount := rfl
@[simp] theorem State.setCu_lines (s : State) (x : ConditionUnit) : (s.setCu x).lines = s.lines := rfl
@[simp] theorem State.setCu_lp (s : State) (x : ConditionUnit) : (s.setCu x).lp = s.lp := rfl
@[simp] theorem State.setCu_ut (s : State) (x : ConditionUnit) : (s.setCu x).ut = s.ut := rfl
@[simp] theorem State.setCu_rs (s : State) (x : ConditionUnit) : (s.setCu x).rs = s.rs := rfl
@[simp] theorem State.setCu_pe (s : State) (x : ConditionUnit) : (s.setCu x).pe = s.pe := rfl
@[simp] theorem State.setCu_afe (s : State) (x : ConditionUnit) : (s.setCu x).afe = s.afe := rfl
@[simp] theorem State.setCu_cs (s : State) (x : ConditionUnit) : (s.setCu x).cs = s.cs := rfl
@[simp] theorem State.setCu_oa (s : State) (x : ConditionUnit) : (s.setCu x).oa = s.oa := rfl
@[simp] theorem State.setCu_lkc (s : State) (x : ConditionUnit) : (s.setCu x).lkc = s.lkc := rfl
@[simp] theorem State.setCu_cu (s : State) (x : ConditionUnit) : (s.setCu x).cu = x := rfl
@[simp] theorem State.setCu_reports (s : State) (x : ConditionUnit) : (s.setCu x).reports = s.reports := rfl
@[simp] theorem State.setCu_setCu (s : State) (x y : ConditionUnit) : (s.setCu x).setCu y = s.setCu y := rfl
@[simp] theorem State.setCu_self (s : State) : s.setCu s.cu = s := rfl

/-! ## setReports -/

@[simp] theorem State.setReports_pending (s : State) (x : List Nat) : (s.setReports x).pending = s.pending := rfl
@[simp] theorem State.setReports_clockUs (s : State) (x : List Nat) : (s.setReports x).clockUs = s.clockUs := rfl
@[simp] theorem State.setReports_freeCount (s : State) (x : List Nat) : (s.setReports x).freeCount = s.freeCount := rfl
@[simp] theorem State.setReports_lines (s : State) (x : List Nat) : (s.setReports x).lines = s.lines := rfl
@[simp] theorem State.setReports_lp (s : State) (x : List Nat) : (s.setReports x).lp = s.lp := rfl
@[simp] theorem State.setReports_ut (s : State) (x : List Nat) : (s.setReports x).ut = s.ut := rfl
@[simp] theorem State.setReports_rs (s : State) (x : List Nat) : (s.setReports x).rs = s.rs := rfl
@[simp] theorem State.setReports_pe (s : State) (x : List Nat) : (s.setReports x).pe = s.pe := rfl
@[simp] theorem State.setReports_afe (s : State) (x : List Nat) : (s.setReports x).afe = s.afe := rfl
@[simp] theorem State.setReports_cs (s : State) (x : List Nat) : (s.setReports x).cs = s.cs := rfl
@[simp] theorem State.setReports_oa (s : State) (x : List Nat) : (s.setReports x).oa = s.oa := rfl
@[simp] theorem State.setReports_lkc (s : State) (x : List Nat) : (s.setReports x).lkc = s.lkc := rfl
@[simp] theorem State.setReports_cu (s : State) (x : List Nat) : (s.setReports x).cu = s.cu := rfl
@[simp] theorem State.setReports_reports (s : State) (x : List Nat) : (s.setReports x).reports = x := rfl
@[simp] theorem State.setReports_setReports (s : State) (x y : List Nat) : (s.setReports x).setReports y = s.setReports y := rfl
@[simp] theorem State.setReports_self (s : State) : s.setReports s.reports = s := rfl

/-! ## Time passing -/

@[simp] theorem State.elapse_pending (us : Nat) (s : State) : (s.elapse us).pending = s.pending := rfl
@[simp] theorem State.elapse_clockUs (us : Nat) (s : State) : (s.elapse us).clockUs = s.clockUs + us := rfl
@[simp] theorem State.elapse_freeCount (us : Nat) (s : State) : (s.elapse us).freeCount = s.freeCount := rfl
@[simp] theorem State.elapse_lines (us : Nat) (s : State) : (s.elapse us).lines = s.lines := rfl
@[simp] theorem State.elapse_rs (us : Nat) (s : State) : (s.elapse us).rs = s.rs := rfl
@[simp] theorem State.elapse_cs (us : Nat) (s : State) : (s.elapse us).cs = s.cs := rfl
@[simp] theorem State.elapse_oa (us : Nat) (s : State) : (s.elapse us).oa = s.oa := rfl
@[simp] theorem State.elapse_cu (us : Nat) (s : State) : (s.elapse us).cu = s.cu := rfl
@[simp] theorem State.elapse_reports (us : Nat) (s : State) : (s.elapse us).reports = s.reports := rfl
@[simp] theorem State.elapse_records (us : Nat) (s : State) : (s.elapse us).ut.records = s.ut.records := rfl
@[simp] theorem State.elapse_idCounter (us : Nat) (s : State) : (s.elapse us).ut.idCounter = s.ut.idCounter := rfl
@[simp] theorem State.elapse_transferLine (us : Nat) (s : State) : (s.elapse us).ut.transferLine = s.ut.transferLine := rfl
@[simp] theorem State.elapse_phase (us : Nat) (s : State) : (s.elapse us).pe.phase = s.pe.phase := rfl
@[simp] theorem State.elapse_step (us : Nat) (s : State) : (s.elapse us).pe.step = s.pe.step := rfl
@[simp] theorem State.elapse_counters (us : Nat) (s : State) : (s.elapse us).pe.counters = s.pe.counters := rfl
@[simp] theorem State.elapse_settled (us : Nat) (s : State) : (s.elapse us).pe.settled = s.pe.settled := rfl
@[simp] theorem State.elapse_openSent (us : Nat) (s : State) : (s.elapse us).pe.openSent = s.pe.openSent := rfl
@[simp] theorem State.elapse_setpoint (us : Nat) (s : State) : (s.elapse us).pe.setpoint = s.pe.setpoint := rfl
@[simp] theorem State.elapse_torqueL (us : Nat) (s : State) : (s.elapse us).pe.torqueL = s.pe.torqueL := rfl
@[simp] theorem State.elapse_torqueR (us : Nat) (s : State) : (s.elapse us).pe.torqueR = s.pe.torqueR := rfl
@[simp] theorem State.elapse_enable (us : Nat) (s : State) : (s.elapse us).pe.enable = s.pe.enable := rfl
@[simp] theorem State.elapse_enabledAt (us : Nat) (s : State) : (s.elapse us).pe.enabledAt = s.pe.enabledAt := rfl
@[simp] theorem State.elapse_brake (us : Nat) (s : State) : (s.elapse us).pe.brake = s.pe.brake := rfl
@[simp] theorem State.elapse_haltStyle (us : Nat) (s : State) : (s.elapse us).pe.halt = s.pe.halt := rfl
@[simp] theorem State.elapse_cause (us : Nat) (s : State) : (s.elapse us).pe.cause = s.pe.cause := rfl
@[simp] theorem State.elapse_updates (us : Nat) (s : State) : (s.elapse us).pe.updates = s.pe.updates := rfl
@[simp] theorem State.elapse_sent (us : Nat) (s : State) : (s.elapse us).pe.sent = s.pe.sent := rfl
@[simp] theorem State.elapse_live (us : Nat) (s : State) : (s.elapse us).afe.live = s.afe.live := rfl
@[simp] theorem State.elapse_faults (us : Nat) (s : State) : (s.elapse us).afe.faults = s.afe.faults := rfl
@[simp] theorem State.elapse_feedback (us : Nat) (s : State) : (s.elapse us).afe.feedback = s.afe.feedback := rfl
@[simp] theorem State.elapse_pulses (us : Nat) (s : State) : (s.elapse us).afe.pulses = s.afe.pulses := rfl
@[simp] theorem State.elapse_revolution (us : Nat) (s : State) : (s.elapse us).afe.revolution = s.afe.revolution := rfl
@[simp] theorem State.elapse_sawForward (us : Nat) (s : State) : (s.elapse us).afe.sawForward = s.afe.sawForward := rfl
@[simp] theorem State.elapse_sawReverse (us : Nat) (s : State) : (s.elapse us).afe.sawReverse = s.afe.sawReverse := rfl
@[simp] theorem State.elapse_openVib (us : Nat) (s : State) : (s.elapse us).afe.openVib = s.afe.openVib := rfl
@[simp] theorem State.elapse_slowTaken (us : Nat) (s : State) : (s.elapse us).afe.slowTaken = s.afe.slowTaken := rfl
@[simp] theorem State.elapse_leakTaken (us : Nat) (s : State) : (s.elapse us).afe.leakTaken = s.afe.leakTaken := rfl
@[simp] theorem State.elapse_slowSlot (us : Nat) (s : State) : (s.elapse us).afe.slowSlot = s.afe.slowSlot := rfl
@[simp] theorem State.elapse_leakSlot (us : Nat) (s : State) : (s.elapse us).afe.leakSlot = s.afe.leakSlot := rfl
@[simp] theorem State.elapse_slowEnded (us : Nat) (s : State) : (s.elapse us).afe.slowEnded = s.afe.slowEnded := rfl
@[simp] theorem State.elapse_leakEnded (us : Nat) (s : State) : (s.elapse us).afe.leakEnded = s.afe.leakEnded := rfl
@[simp] theorem State.elapse_receiver (us : Nat) (s : State) : (s.elapse us).lp.receiver = s.lp.receiver := rfl
@[simp] theorem State.elapse_head (us : Nat) (s : State) : (s.elapse us).lp.head = s.lp.head := rfl
@[simp] theorem State.elapse_second (us : Nat) (s : State) : (s.elapse us).lp.second = s.lp.second := rfl
@[simp] theorem State.elapse_badFrames (us : Nat) (s : State) : (s.elapse us).lp.badFrames = s.lp.badFrames := rfl
@[simp] theorem State.elapse_overruns (us : Nat) (s : State) : (s.elapse us).lp.overruns = s.lp.overruns := rfl
@[simp] theorem State.elapse_notices (us : Nat) (s : State) : (s.elapse us).lp.notices = s.lp.notices := rfl
@[simp] theorem State.elapse_reply (us : Nat) (s : State) : (s.elapse us).lp.reply = s.lp.reply := rfl
@[simp] theorem State.elapse_sending (us : Nat) (s : State) : (s.elapse us).lp.sending = s.lp.sending := rfl
@[simp] theorem State.elapse_restartDue (us : Nat) (s : State) : (s.elapse us).lp.restartDue = s.lp.restartDue := rfl
@[simp] theorem State.elapse_fillQueue (us : Nat) (s : State) : (s.elapse us).lkc.queue = s.lkc.queue := rfl
@[simp] theorem State.elapse_resetVent (us : Nat) (s : State) : (s.elapse us).lkc.resetVent = s.lkc.resetVent := rfl

/-- Time moves the phase timer of a chamber and nothing else of it. -/
@[simp] theorem State.elapse_chamber (us : Nat) (s : State) (c : Fin 4) :
    (s.elapse us).lkc.chambers[c] = (s.lkc.chambers[c]).after ((s.clockUs + us) / 1000 - s.clockUs / 1000) := by
  simp [State.elapse]

/-- No time passes in no time. -/
theorem Timer.after_zero (t : Timer) : Timer.after 0 t = t := by cases t <;> rfl

end Sys2Proof.Machine
end

