-- ==== Sys2Proof/Laws/Frames.lean ====
section
/-! SUPPORT. The frame of each shared operation: the blocks it leaves as they were. Each is stated once and proved from the frames of
the operations it calls, so that no later proof opens an operation for what it does not touch. -/

namespace Sys2Proof.Machine

/-! ## Shared operations -/

@[simp] theorem State.raise_frame (key : NoticeKey) (content : NoticeContent) (s : State) :
    (s.raise key content).pending = s.pending ∧ (s.raise key content).clockUs = s.clockUs ∧
    (s.raise key content).freeCount = s.freeCount ∧ (s.raise key content).lines = s.lines ∧ (s.raise key content).ut = s.ut ∧
    (s.raise key content).rs = s.rs ∧ (s.raise key content).pe = s.pe ∧ (s.raise key content).afe = s.afe ∧
    (s.raise key content).cs = s.cs ∧ (s.raise key content).oa = s.oa ∧ (s.raise key content).lkc = s.lkc ∧
    (s.raise key content).cu = s.cu ∧ (s.raise key content).reports = s.reports := by simp [State.raise]

@[simp] theorem arbitrate_frame (s : State) :
    (arbitrate s).pending = s.pending ∧ (arbitrate s).clockUs = s.clockUs ∧ (arbitrate s).freeCount = s.freeCount ∧
    (arbitrate s).lines = s.lines ∧ (arbitrate s).ut = s.ut ∧ (arbitrate s).rs = s.rs ∧ (arbitrate s).pe = s.pe ∧
    (arbitrate s).afe = s.afe ∧ (arbitrate s).cs = s.cs ∧ (arbitrate s).oa = s.oa ∧ (arbitrate s).lkc = s.lkc ∧
    (arbitrate s).cu = s.cu ∧ (arbitrate s).reports = s.reports := by
  unfold arbitrate
  split <;> simp

@[simp] theorem State.mapUnit_frame (i : Fin 8) (f : UnitRecord → UnitRecord) (s : State) :
    (s.mapUnit i f).pending = s.pending ∧ (s.mapUnit i f).clockUs = s.clockUs ∧ (s.mapUnit i f).freeCount = s.freeCount ∧
    (s.mapUnit i f).lines = s.lines ∧ (s.mapUnit i f).lp = s.lp ∧ (s.mapUnit i f).rs = s.rs ∧ (s.mapUnit i f).pe = s.pe ∧
    (s.mapUnit i f).afe = s.afe ∧ (s.mapUnit i f).cs = s.cs ∧ (s.mapUnit i f).oa = s.oa ∧ (s.mapUnit i f).lkc = s.lkc ∧
    (s.mapUnit i f).cu = s.cu ∧ (s.mapUnit i f).reports = s.reports := by simp [State.mapUnit]

@[simp] theorem State.unitNotice_frame (i : Fin 8) (s : State) :
    (s.unitNotice i).pending = s.pending ∧ (s.unitNotice i).clockUs = s.clockUs ∧ (s.unitNotice i).freeCount = s.freeCount ∧
    (s.unitNotice i).lines = s.lines ∧ (s.unitNotice i).ut = s.ut ∧ (s.unitNotice i).rs = s.rs ∧ (s.unitNotice i).pe = s.pe ∧
    (s.unitNotice i).afe = s.afe ∧ (s.unitNotice i).cs = s.cs ∧ (s.unitNotice i).oa = s.oa ∧ (s.unitNotice i).lkc = s.lkc ∧
    (s.unitNotice i).cu = s.cu ∧ (s.unitNotice i).reports = s.reports := by
  unfold State.unitNotice
  split <;> simp

@[simp] theorem State.enterState_frame (i : Fin 8) (u : UnitState) (s : State) :
    (s.enterState i u).pending = s.pending ∧ (s.enterState i u).clockUs = s.clockUs ∧
    (s.enterState i u).freeCount = s.freeCount ∧ (s.enterState i u).lines = s.lines ∧ (s.enterState i u).rs = s.rs ∧
    (s.enterState i u).pe = s.pe ∧ (s.enterState i u).afe = s.afe ∧ (s.enterState i u).cs = s.cs ∧
    (s.enterState i u).oa = s.oa ∧ (s.enterState i u).lkc = s.lkc ∧ (s.enterState i u).cu = s.cu ∧
    (s.enterState i u).reports = s.reports := by simp [State.enterState]

/-! ## The Condition Unit -/

@[simp] theorem State.mapCond_frame (n : Fin 20) (f : Condition → Condition) (s : State) :
    (s.mapCond n f).pending = s.pending ∧ (s.mapCond n f).clockUs = s.clockUs ∧ (s.mapCond n f).freeCount = s.freeCount ∧
    (s.mapCond n f).lines = s.lines ∧ (s.mapCond n f).lp = s.lp ∧ (s.mapCond n f).ut = s.ut ∧ (s.mapCond n f).rs = s.rs ∧
    (s.mapCond n f).pe = s.pe ∧ (s.mapCond n f).afe = s.afe ∧ (s.mapCond n f).cs = s.cs ∧ (s.mapCond n f).oa = s.oa ∧
    (s.mapCond n f).lkc = s.lkc ∧ (s.mapCond n f).reports = s.reports := by simp [State.mapCond]

@[simp] theorem State.changeCond_frame (n : Fin 20) (f : Condition → Condition) (s : State) :
    (s.changeCond n f).pending = s.pending ∧ (s.changeCond n f).clockUs = s.clockUs ∧
    (s.changeCond n f).freeCount = s.freeCount ∧ (s.changeCond n f).lines = s.lines ∧ (s.changeCond n f).lp = s.lp ∧
    (s.changeCond n f).ut = s.ut ∧ (s.changeCond n f).rs = s.rs ∧ (s.changeCond n f).pe = s.pe ∧
    (s.changeCond n f).afe = s.afe ∧ (s.changeCond n f).cs = s.cs ∧ (s.changeCond n f).oa = s.oa ∧
    (s.changeCond n f).lkc = s.lkc ∧ (s.changeCond n f).reports = s.reports := by simp [State.changeCond]

@[simp] theorem State.setSource_frame (n : Fin 20) (b : Bool) (s : State) :
    (s.setSource n b).pending = s.pending ∧ (s.setSource n b).clockUs = s.clockUs ∧
    (s.setSource n b).freeCount = s.freeCount ∧ (s.setSource n b).lines = s.lines ∧ (s.setSource n b).lp = s.lp ∧
    (s.setSource n b).ut = s.ut ∧ (s.setSource n b).rs = s.rs ∧ (s.setSource n b).pe = s.pe ∧ (s.setSource n b).afe = s.afe ∧
    (s.setSource n b).cs = s.cs ∧ (s.setSource n b).oa = s.oa ∧ (s.setSource n b).lkc = s.lkc ∧
    (s.setSource n b).reports = s.reports := by simp [State.setSource]

@[simp] theorem State.sourceInstant_frame (n : Fin 20) (s : State) :
    (s.sourceInstant n).pending = s.pending ∧ (s.sourceInstant n).clockUs = s.clockUs ∧
    (s.sourceInstant n).freeCount = s.freeCount ∧ (s.sourceInstant n).lines = s.lines ∧ (s.sourceInstant n).lp = s.lp ∧
    (s.sourceInstant n).ut = s.ut ∧ (s.sourceInstant n).rs = s.rs ∧ (s.sourceInstant n).pe = s.pe ∧
    (s.sourceInstant n).afe = s.afe ∧ (s.sourceInstant n).cs = s.cs ∧ (s.sourceInstant n).oa = s.oa ∧
    (s.sourceInstant n).lkc = s.lkc ∧ (s.sourceInstant n).reports = s.reports := by simp [State.sourceInstant]

@[simp] theorem State.interruptUnits_frame (n : Fin 20) (s : State) :
    (s.interruptUnits n).pending = s.pending ∧ (s.interruptUnits n).clockUs = s.clockUs ∧
    (s.interruptUnits n).freeCount = s.freeCount ∧ (s.interruptUnits n).lines = s.lines ∧ (s.interruptUnits n).lp = s.lp ∧
    (s.interruptUnits n).rs = s.rs ∧ (s.interruptUnits n).pe = s.pe ∧ (s.interruptUnits n).afe = s.afe ∧
    (s.interruptUnits n).cs = s.cs ∧ (s.interruptUnits n).oa = s.oa ∧ (s.interruptUnits n).lkc = s.lkc ∧
    (s.interruptUnits n).cu = s.cu ∧ (s.interruptUnits n).reports = s.reports := by simp [State.interruptUnits]

@[simp] theorem State.take_frame (n : Fin 20) (s : State) :
    (s.take n).pending = s.pending ∧ (s.take n).clockUs = s.clockUs ∧ (s.take n).freeCount = s.freeCount ∧
    (s.take n).lines = s.lines ∧ (s.take n).lp = s.lp ∧ (s.take n).rs = s.rs ∧ (s.take n).pe = s.pe ∧
    (s.take n).afe = s.afe ∧ (s.take n).cs = s.cs ∧ (s.take n).oa = s.oa ∧ (s.take n).lkc = s.lkc ∧
    (s.take n).reports = s.reports := by simp [State.take]

@[simp] theorem takeAll_frame (fuel : Nat) (s : State) :
    (takeAll fuel s).1.pending = s.pending ∧ (takeAll fuel s).1.clockUs = s.clockUs ∧
    (takeAll fuel s).1.freeCount = s.freeCount ∧ (takeAll fuel s).1.lines = s.lines ∧ (takeAll fuel s).1.lp = s.lp ∧
    (takeAll fuel s).1.rs = s.rs ∧ (takeAll fuel s).1.pe = s.pe ∧ (takeAll fuel s).1.afe = s.afe ∧
    (takeAll fuel s).1.cs = s.cs ∧ (takeAll fuel s).1.oa = s.oa ∧ (takeAll fuel s).1.lkc = s.lkc ∧
    (takeAll fuel s).1.reports = s.reports := by
  induction fuel generalizing s with
  | zero => simp [takeAll]
  | succ fuel ih =>
    unfold takeAll
    split
    · simp
    · simp [ih]

@[simp] theorem State.condNotice_frame (n : Fin 20) (s : State) :
    (s.condNotice n).pending = s.pending ∧ (s.condNotice n).clockUs = s.clockUs ∧ (s.condNotice n).freeCount = s.freeCount ∧
    (s.condNotice n).lines = s.lines ∧ (s.condNotice n).ut = s.ut ∧ (s.condNotice n).rs = s.rs ∧ (s.condNotice n).pe = s.pe ∧
    (s.condNotice n).afe = s.afe ∧ (s.condNotice n).cs = s.cs ∧ (s.condNotice n).oa = s.oa ∧ (s.condNotice n).lkc = s.lkc ∧
    (s.condNotice n).cu = s.cu ∧ (s.condNotice n).reports = s.reports := by simp [State.condNotice]

@[simp] theorem foldl_condNotice_frame (ns : List (Fin 20)) (s : State) :
    (ns.foldl (fun t n => t.condNotice n) s).pending = s.pending ∧
    (ns.foldl (fun t n => t.condNotice n) s).clockUs = s.clockUs ∧
    (ns.foldl (fun t n => t.condNotice n) s).freeCount = s.freeCount ∧
    (ns.foldl (fun t n => t.condNotice n) s).lines = s.lines ∧ (ns.foldl (fun t n => t.condNotice n) s).ut = s.ut ∧
    (ns.foldl (fun t n => t.condNotice n) s).rs = s.rs ∧ (ns.foldl (fun t n => t.condNotice n) s).pe = s.pe ∧
    (ns.foldl (fun t n => t.condNotice n) s).afe = s.afe ∧ (ns.foldl (fun t n => t.condNotice n) s).cs = s.cs ∧
    (ns.foldl (fun t n => t.condNotice n) s).oa = s.oa ∧ (ns.foldl (fun t n => t.condNotice n) s).lkc = s.lkc ∧
    (ns.foldl (fun t n => t.condNotice n) s).cu = s.cu ∧ (ns.foldl (fun t n => t.condNotice n) s).reports = s.reports := by
  induction ns generalizing s with
  | nil => simp
  | cons n ns ih => simp [ih]

@[simp] theorem State.takingCheck_frame (first : List (Fin 20)) (s : State) :
    (s.takingCheck first).pending = s.pending ∧ (s.takingCheck first).clockUs = s.clockUs ∧
    (s.takingCheck first).freeCount = s.freeCount ∧ (s.takingCheck first).lines = s.lines ∧ (s.takingCheck first).rs = s.rs ∧
    (s.takingCheck first).pe = s.pe ∧ (s.takingCheck first).afe = s.afe ∧ (s.takingCheck first).cs = s.cs ∧
    (s.takingCheck first).oa = s.oa ∧ (s.takingCheck first).lkc = s.lkc ∧
    (s.takingCheck first).reports = s.reports := by simp [State.takingCheck]

@[simp] theorem checkIfActivated_frame (s t : State) :
    (checkIfActivated s t).pending = t.pending ∧ (checkIfActivated s t).clockUs = t.clockUs ∧
    (checkIfActivated s t).freeCount = t.freeCount ∧ (checkIfActivated s t).lines = t.lines ∧
    (checkIfActivated s t).rs = t.rs ∧ (checkIfActivated s t).pe = t.pe ∧ (checkIfActivated s t).afe = t.afe ∧
    (checkIfActivated s t).cs = t.cs ∧ (checkIfActivated s t).oa = t.oa ∧ (checkIfActivated s t).lkc = t.lkc ∧
    (checkIfActivated s t).reports = t.reports := by
  unfold checkIfActivated
  split <;> simp

/-! ## The Capture Store -/

@[simp] theorem State.setStream_frame (st : StreamId) (x : Stream) (s : State) :
    (s.setStream st x).pending = s.pending ∧ (s.setStream st x).clockUs = s.clockUs ∧
    (s.setStream st x).freeCount = s.freeCount ∧ (s.setStream st x).lines = s.lines ∧ (s.setStream st x).lp = s.lp ∧
    (s.setStream st x).ut = s.ut ∧ (s.setStream st x).rs = s.rs ∧ (s.setStream st x).pe = s.pe ∧
    (s.setStream st x).afe = s.afe ∧ (s.setStream st x).oa = s.oa ∧ (s.setStream st x).lkc = s.lkc ∧
    (s.setStream st x).cu = s.cu ∧ (s.setStream st x).reports = s.reports := by simp [State.setStream]

@[simp] theorem State.streamNotice_frame (st : StreamId) (s : State) :
    (s.streamNotice st).pending = s.pending ∧ (s.streamNotice st).clockUs = s.clockUs ∧
    (s.streamNotice st).freeCount = s.freeCount ∧ (s.streamNotice st).lines = s.lines ∧ (s.streamNotice st).ut = s.ut ∧
    (s.streamNotice st).rs = s.rs ∧ (s.streamNotice st).pe = s.pe ∧ (s.streamNotice st).afe = s.afe ∧
    (s.streamNotice st).cs = s.cs ∧ (s.streamNotice st).oa = s.oa ∧ (s.streamNotice st).lkc = s.lkc ∧
    (s.streamNotice st).cu = s.cu ∧ (s.streamNotice st).reports = s.reports := by simp [State.streamNotice]

@[simp] theorem State.enterStream_frame (st : StreamId) (x : StreamState) (s : State) :
    (s.enterStream st x).pending = s.pending ∧ (s.enterStream st x).clockUs = s.clockUs ∧
    (s.enterStream st x).freeCount = s.freeCount ∧ (s.enterStream st x).lines = s.lines ∧ (s.enterStream st x).lp = s.lp ∧
    (s.enterStream st x).ut = s.ut ∧ (s.enterStream st x).rs = s.rs ∧ (s.enterStream st x).pe = s.pe ∧
    (s.enterStream st x).afe = s.afe ∧ (s.enterStream st x).oa = s.oa ∧ (s.enterStream st x).lkc = s.lkc ∧
    (s.enterStream st x).reports = s.reports := by
  unfold State.enterStream
  dsimp only
  repeat' split
  all_goals simp

@[simp] theorem State.syncStream_frame (st : StreamId) (s : State) :
    (s.syncStream st).pending = s.pending ∧ (s.syncStream st).clockUs = s.clockUs ∧
    (s.syncStream st).freeCount = s.freeCount ∧ (s.syncStream st).lines = s.lines ∧ (s.syncStream st).lp = s.lp ∧
    (s.syncStream st).ut = s.ut ∧ (s.syncStream st).rs = s.rs ∧ (s.syncStream st).pe = s.pe ∧ (s.syncStream st).afe = s.afe ∧
    (s.syncStream st).oa = s.oa ∧ (s.syncStream st).lkc = s.lkc ∧ (s.syncStream st).reports = s.reports := by
  unfold State.syncStream
  split <;> simp

@[simp] theorem State.syncStreams_frame (s : State) :
    (s.syncStreams).pending = s.pending ∧ (s.syncStreams).clockUs = s.clockUs ∧ (s.syncStreams).freeCount = s.freeCount ∧
    (s.syncStreams).lines = s.lines ∧ (s.syncStreams).lp = s.lp ∧ (s.syncStreams).ut = s.ut ∧ (s.syncStreams).rs = s.rs ∧
    (s.syncStreams).pe = s.pe ∧ (s.syncStreams).afe = s.afe ∧ (s.syncStreams).oa = s.oa ∧ (s.syncStreams).lkc = s.lkc ∧
    (s.syncStreams).reports = s.reports := by simp [State.syncStreams]

@[simp] theorem State.enterWanted_frame (st : StreamId) (s : State) :
    (s.enterWanted st).pending = s.pending ∧ (s.enterWanted st).clockUs = s.clockUs ∧
    (s.enterWanted st).freeCount = s.freeCount ∧ (s.enterWanted st).lines = s.lines ∧ (s.enterWanted st).ut = s.ut ∧
    (s.enterWanted st).rs = s.rs ∧ (s.enterWanted st).pe = s.pe ∧ (s.enterWanted st).afe = s.afe ∧
    (s.enterWanted st).oa = s.oa ∧ (s.enterWanted st).lkc = s.lkc ∧ (s.enterWanted st).reports = s.reports := by
  unfold State.enterWanted
  split <;> simp

@[simp] theorem State.applyPlan_frame (st : StreamId) (p : Plan) (s : State) :
    (s.applyPlan st p).pending = s.pending ∧ (s.applyPlan st p).clockUs = s.clockUs ∧
    (s.applyPlan st p).freeCount = s.freeCount ∧ (s.applyPlan st p).lines = s.lines ∧ (s.applyPlan st p).ut = s.ut ∧
    (s.applyPlan st p).rs = s.rs ∧ (s.applyPlan st p).pe = s.pe ∧ (s.applyPlan st p).afe = s.afe ∧
    (s.applyPlan st p).oa = s.oa ∧ (s.applyPlan st p).lkc = s.lkc ∧
    (s.applyPlan st p).reports = s.reports := by simp [State.applyPlan]

@[simp] theorem State.setTarget_frame (st : StreamId) (p : Plan) (s : State) :
    (s.setTarget st p).pending = s.pending ∧ (s.setTarget st p).clockUs = s.clockUs ∧
    (s.setTarget st p).freeCount = s.freeCount ∧ (s.setTarget st p).lines = s.lines ∧ (s.setTarget st p).ut = s.ut ∧
    (s.setTarget st p).rs = s.rs ∧ (s.setTarget st p).pe = s.pe ∧ (s.setTarget st p).afe = s.afe ∧
    (s.setTarget st p).oa = s.oa ∧ (s.setTarget st p).lkc = s.lkc ∧ (s.setTarget st p).reports = s.reports := by
  unfold State.setTarget
  dsimp only
  repeat' split
  all_goals simp

@[simp] theorem State.checkPlan_frame (st : StreamId) (s : State) :
    (s.checkPlan st).pending = s.pending ∧ (s.checkPlan st).clockUs = s.clockUs ∧ (s.checkPlan st).freeCount = s.freeCount ∧
    (s.checkPlan st).lines = s.lines ∧ (s.checkPlan st).ut = s.ut ∧ (s.checkPlan st).rs = s.rs ∧ (s.checkPlan st).pe = s.pe ∧
    (s.checkPlan st).afe = s.afe ∧ (s.checkPlan st).oa = s.oa ∧ (s.checkPlan st).lkc = s.lkc ∧
    (s.checkPlan st).reports = s.reports := by
  unfold State.checkPlan
  repeat' split
  all_goals simp

@[simp] theorem State.checkPlans_frame (s : State) :
    (s.checkPlans).pending = s.pending ∧ (s.checkPlans).clockUs = s.clockUs ∧ (s.checkPlans).freeCount = s.freeCount ∧
    (s.checkPlans).lines = s.lines ∧ (s.checkPlans).ut = s.ut ∧ (s.checkPlans).rs = s.rs ∧ (s.checkPlans).pe = s.pe ∧
    (s.checkPlans).afe = s.afe ∧ (s.checkPlans).oa = s.oa ∧ (s.checkPlans).lkc = s.lkc ∧
    (s.checkPlans).reports = s.reports := by simp [State.checkPlans]

@[simp] theorem State.releaseVib_frame (d : Fin 32) (s : State) :
    (s.releaseVib d).pending = s.pending ∧ (s.releaseVib d).clockUs = s.clockUs ∧ (s.releaseVib d).freeCount = s.freeCount ∧
    (s.releaseVib d).lines = s.lines ∧ (s.releaseVib d).ut = s.ut ∧ (s.releaseVib d).rs = s.rs ∧ (s.releaseVib d).pe = s.pe ∧
    (s.releaseVib d).afe = s.afe ∧ (s.releaseVib d).oa = s.oa ∧ (s.releaseVib d).lkc = s.lkc ∧
    (s.releaseVib d).reports = s.reports := by simp [State.releaseVib]

@[simp] theorem State.releaseSlow_frame (d : Fin 8) (s : State) :
    (s.releaseSlow d).pending = s.pending ∧ (s.releaseSlow d).clockUs = s.clockUs ∧
    (s.releaseSlow d).freeCount = s.freeCount ∧ (s.releaseSlow d).lines = s.lines ∧ (s.releaseSlow d).ut = s.ut ∧
    (s.releaseSlow d).rs = s.rs ∧ (s.releaseSlow d).pe = s.pe ∧ (s.releaseSlow d).afe = s.afe ∧ (s.releaseSlow d).oa = s.oa ∧
    (s.releaseSlow d).lkc = s.lkc ∧ (s.releaseSlow d).reports = s.reports := by simp [State.releaseSlow]

@[simp] theorem State.releaseLeak_frame (d : Fin 8) (s : State) :
    (s.releaseLeak d).pending = s.pending ∧ (s.releaseLeak d).clockUs = s.clockUs ∧
    (s.releaseLeak d).freeCount = s.freeCount ∧ (s.releaseLeak d).lines = s.lines ∧ (s.releaseLeak d).ut = s.ut ∧
    (s.releaseLeak d).rs = s.rs ∧ (s.releaseLeak d).pe = s.pe ∧ (s.releaseLeak d).afe = s.afe ∧ (s.releaseLeak d).oa = s.oa ∧
    (s.releaseLeak d).lkc = s.lkc ∧ (s.releaseLeak d).reports = s.reports := by simp [State.releaseLeak]

@[simp] theorem State.dropRecord_frame (st : StreamId) (starves : Bool) (s : State) :
    (s.dropRecord st starves).pending = s.pending ∧ (s.dropRecord st starves).clockUs = s.clockUs ∧
    (s.dropRecord st starves).freeCount = s.freeCount ∧ (s.dropRecord st starves).lines = s.lines ∧
    (s.dropRecord st starves).ut = s.ut ∧ (s.dropRecord st starves).rs = s.rs ∧ (s.dropRecord st starves).pe = s.pe ∧
    (s.dropRecord st starves).afe = s.afe ∧ (s.dropRecord st starves).oa = s.oa ∧ (s.dropRecord st starves).lkc = s.lkc ∧
    (s.dropRecord st starves).reports = s.reports := by
  unfold State.dropRecord
  split <;> simp

@[simp] theorem State.resumeStream_frame (st : StreamId) (resumed : Bool) (s : State) :
    (s.resumeStream st resumed).pending = s.pending ∧ (s.resumeStream st resumed).clockUs = s.clockUs ∧
    (s.resumeStream st resumed).freeCount = s.freeCount ∧ (s.resumeStream st resumed).lines = s.lines ∧
    (s.resumeStream st resumed).ut = s.ut ∧ (s.resumeStream st resumed).rs = s.rs ∧ (s.resumeStream st resumed).pe = s.pe ∧
    (s.resumeStream st resumed).afe = s.afe ∧ (s.resumeStream st resumed).oa = s.oa ∧
    (s.resumeStream st resumed).lkc = s.lkc ∧ (s.resumeStream st resumed).reports = s.reports := by
  unfold State.resumeStream
  split <;> simp

/-! ## The Order Analyzer -/

@[simp] theorem State.mapWindow_frame (n : Nat) (f : Window → Window) (s : State) :
    (s.mapWindow n f).pending = s.pending ∧ (s.mapWindow n f).clockUs = s.clockUs ∧
    (s.mapWindow n f).freeCount = s.freeCount ∧ (s.mapWindow n f).lines = s.lines ∧ (s.mapWindow n f).lp = s.lp ∧
    (s.mapWindow n f).ut = s.ut ∧ (s.mapWindow n f).rs = s.rs ∧ (s.mapWindow n f).pe = s.pe ∧ (s.mapWindow n f).afe = s.afe ∧
    (s.mapWindow n f).cs = s.cs ∧ (s.mapWindow n f).lkc = s.lkc ∧ (s.mapWindow n f).cu = s.cu ∧
    (s.mapWindow n f).reports = s.reports := by simp [State.mapWindow]

@[simp] theorem State.setUpWindows_frame (r : Recipe) (s : State) :
    (s.setUpWindows r).pending = s.pending ∧ (s.setUpWindows r).clockUs = s.clockUs ∧
    (s.setUpWindows r).freeCount = s.freeCount ∧ (s.setUpWindows r).lines = s.lines ∧ (s.setUpWindows r).lp = s.lp ∧
    (s.setUpWindows r).ut = s.ut ∧ (s.setUpWindows r).rs = s.rs ∧ (s.setUpWindows r).pe = s.pe ∧
    (s.setUpWindows r).afe = s.afe ∧ (s.setUpWindows r).cs = s.cs ∧ (s.setUpWindows r).lkc = s.lkc ∧
    (s.setUpWindows r).cu = s.cu ∧ (s.setUpWindows r).reports = s.reports := by simp [State.setUpWindows]

@[simp] theorem State.mapNoise_frame (f : Noise → Noise) (s : State) :
    (s.mapNoise f).pending = s.pending ∧ (s.mapNoise f).clockUs = s.clockUs ∧ (s.mapNoise f).freeCount = s.freeCount ∧
    (s.mapNoise f).lines = s.lines ∧ (s.mapNoise f).lp = s.lp ∧ (s.mapNoise f).rs = s.rs ∧ (s.mapNoise f).pe = s.pe ∧
    (s.mapNoise f).afe = s.afe ∧ (s.mapNoise f).cs = s.cs ∧ (s.mapNoise f).oa = s.oa ∧ (s.mapNoise f).lkc = s.lkc ∧
    (s.mapNoise f).cu = s.cu ∧ (s.mapNoise f).reports = s.reports := by
  unfold State.mapNoise
  split <;> simp

@[simp] theorem State.closeTable_frame (s : State) :
    (s.closeTable).pending = s.pending ∧ (s.closeTable).clockUs = s.clockUs ∧ (s.closeTable).freeCount = s.freeCount ∧
    (s.closeTable).lines = s.lines ∧ (s.closeTable).lp = s.lp ∧ (s.closeTable).rs = s.rs ∧ (s.closeTable).pe = s.pe ∧
    (s.closeTable).afe = s.afe ∧ (s.closeTable).cs = s.cs ∧ (s.closeTable).lkc = s.lkc ∧ (s.closeTable).cu = s.cu ∧
    (s.closeTable).reports = s.reports := by
  unfold State.closeTable
  split <;> simp

@[simp] theorem State.gradeWindow_frame (n : Nat) (s : State) :
    (s.gradeWindow n).pending = s.pending ∧ (s.gradeWindow n).clockUs = s.clockUs ∧
    (s.gradeWindow n).freeCount = s.freeCount ∧ (s.gradeWindow n).lines = s.lines ∧ (s.gradeWindow n).lp = s.lp ∧
    (s.gradeWindow n).rs = s.rs ∧ (s.gradeWindow n).pe = s.pe ∧ (s.gradeWindow n).afe = s.afe ∧ (s.gradeWindow n).cs = s.cs ∧
    (s.gradeWindow n).lkc = s.lkc ∧ (s.gradeWindow n).cu = s.cu ∧ (s.gradeWindow n).reports = s.reports := by
  unfold State.gradeWindow
  split <;> simp

@[simp] theorem State.openWindow_frame (n : Nat) (s : State) :
    (s.openWindow n).pending = s.pending ∧ (s.openWindow n).clockUs = s.clockUs ∧ (s.openWindow n).freeCount = s.freeCount ∧
    (s.openWindow n).lines = s.lines ∧ (s.openWindow n).lp = s.lp ∧ (s.openWindow n).ut = s.ut ∧ (s.openWindow n).rs = s.rs ∧
    (s.openWindow n).pe = s.pe ∧ (s.openWindow n).afe = s.afe ∧ (s.openWindow n).lkc = s.lkc ∧
    (s.openWindow n).reports = s.reports := by simp [State.openWindow]

@[simp] theorem State.pauseWindow_frame (n : Nat) (s : State) :
    (s.pauseWindow n).pending = s.pending ∧ (s.pauseWindow n).clockUs = s.clockUs ∧
    (s.pauseWindow n).freeCount = s.freeCount ∧ (s.pauseWindow n).lines = s.lines ∧ (s.pauseWindow n).lp = s.lp ∧
    (s.pauseWindow n).ut = s.ut ∧ (s.pauseWindow n).rs = s.rs ∧ (s.pauseWindow n).pe = s.pe ∧ (s.pauseWindow n).afe = s.afe ∧
    (s.pauseWindow n).lkc = s.lkc ∧ (s.pauseWindow n).reports = s.reports := by simp [State.pauseWindow]

@[simp] theorem State.abandonOpen_frame (s : State) :
    (s.abandonOpen).pending = s.pending ∧ (s.abandonOpen).clockUs = s.clockUs ∧ (s.abandonOpen).freeCount = s.freeCount ∧
    (s.abandonOpen).lines = s.lines ∧ (s.abandonOpen).ut = s.ut ∧ (s.abandonOpen).rs = s.rs ∧ (s.abandonOpen).pe = s.pe ∧
    (s.abandonOpen).oa = s.oa ∧ (s.abandonOpen).lkc = s.lkc ∧ (s.abandonOpen).reports = s.reports := by
  unfold State.abandonOpen
  split <;> simp

@[simp] theorem State.abandonFor_frame (n : Nat) (s : State) :
    (s.abandonFor n).pending = s.pending ∧ (s.abandonFor n).clockUs = s.clockUs ∧ (s.abandonFor n).freeCount = s.freeCount ∧
    (s.abandonFor n).lines = s.lines ∧ (s.abandonFor n).ut = s.ut ∧ (s.abandonFor n).rs = s.rs ∧ (s.abandonFor n).pe = s.pe ∧
    (s.abandonFor n).oa = s.oa ∧ (s.abandonFor n).lkc = s.lkc ∧ (s.abandonFor n).reports = s.reports := by
  unfold State.abandonFor
  repeat' split
  all_goals simp

@[simp] theorem State.closeWindow_frame (n : Nat) (s : State) :
    (s.closeWindow n).pending = s.pending ∧ (s.closeWindow n).clockUs = s.clockUs ∧
    (s.closeWindow n).freeCount = s.freeCount ∧ (s.closeWindow n).lines = s.lines ∧ (s.closeWindow n).rs = s.rs ∧
    (s.closeWindow n).pe = s.pe ∧ (s.closeWindow n).lkc = s.lkc ∧ (s.closeWindow n).reports = s.reports := by
  unfold State.closeWindow
  repeat' split
  all_goals simp

@[simp] theorem foldl_closeWindow_frame (ns : List Nat) (s : State) :
    (ns.foldl (fun t n => t.closeWindow n) s).pending = s.pending ∧
    (ns.foldl (fun t n => t.closeWindow n) s).clockUs = s.clockUs ∧
    (ns.foldl (fun t n => t.closeWindow n) s).freeCount = s.freeCount ∧
    (ns.foldl (fun t n => t.closeWindow n) s).lines = s.lines ∧ (ns.foldl (fun t n => t.closeWindow n) s).rs = s.rs ∧
    (ns.foldl (fun t n => t.closeWindow n) s).pe = s.pe ∧ (ns.foldl (fun t n => t.closeWindow n) s).lkc = s.lkc ∧
    (ns.foldl (fun t n => t.closeWindow n) s).reports = s.reports := by
  induction ns generalizing s with
  | nil => simp
  | cons n ns ih => simp [ih]

@[simp] theorem State.closeAll_frame (s : State) :
    (s.closeAll).pending = s.pending ∧ (s.closeAll).clockUs = s.clockUs ∧ (s.closeAll).freeCount = s.freeCount ∧
    (s.closeAll).lines = s.lines ∧ (s.closeAll).rs = s.rs ∧ (s.closeAll).pe = s.pe ∧ (s.closeAll).lkc = s.lkc ∧
    (s.closeAll).reports = s.reports := by simp [State.closeAll]

@[simp] theorem State.closeIfDrained_frame (n : Nat) (s : State) :
    (s.closeIfDrained n).pending = s.pending ∧ (s.closeIfDrained n).clockUs = s.clockUs ∧
    (s.closeIfDrained n).freeCount = s.freeCount ∧ (s.closeIfDrained n).lines = s.lines ∧ (s.closeIfDrained n).lp = s.lp ∧
    (s.closeIfDrained n).rs = s.rs ∧ (s.closeIfDrained n).pe = s.pe ∧ (s.closeIfDrained n).afe = s.afe ∧
    (s.closeIfDrained n).cs = s.cs ∧ (s.closeIfDrained n).lkc = s.lkc ∧ (s.closeIfDrained n).cu = s.cu ∧
    (s.closeIfDrained n).reports = s.reports := by
  unfold State.closeIfDrained
  repeat' split
  all_goals simp

@[simp] theorem State.rejectRecord_frame (d : Fin 32) (n : Nat) (why : Reject) (s : State) :
    (s.rejectRecord d n why).pending = s.pending ∧ (s.rejectRecord d n why).clockUs = s.clockUs ∧
    (s.rejectRecord d n why).freeCount = s.freeCount ∧ (s.rejectRecord d n why).lines = s.lines ∧
    (s.rejectRecord d n why).rs = s.rs ∧ (s.rejectRecord d n why).pe = s.pe ∧ (s.rejectRecord d n why).afe = s.afe ∧
    (s.rejectRecord d n why).lkc = s.lkc ∧ (s.rejectRecord d n why).reports = s.reports := by simp [State.rejectRecord]

@[simp] theorem pump_frame (fuel : Nat) (s : State) :
    (pump fuel s).pending = s.pending ∧ (pump fuel s).clockUs = s.clockUs ∧ (pump fuel s).freeCount = s.freeCount ∧
    (pump fuel s).lines = s.lines ∧ (pump fuel s).rs = s.rs ∧ (pump fuel s).pe = s.pe ∧ (pump fuel s).afe = s.afe ∧
    (pump fuel s).lkc = s.lkc ∧ (pump fuel s).reports = s.reports := by
  induction fuel generalizing s with
  | zero => simp [pump]
  | succ fuel ih =>
    unfold pump
    dsimp only
    repeat' split
    all_goals simp [ih]

@[simp] theorem State.takeHeads_frame (s : State) :
    (s.takeHeads).pending = s.pending ∧ (s.takeHeads).clockUs = s.clockUs ∧ (s.takeHeads).freeCount = s.freeCount ∧
    (s.takeHeads).lines = s.lines ∧ (s.takeHeads).rs = s.rs ∧ (s.takeHeads).pe = s.pe ∧ (s.takeHeads).afe = s.afe ∧
    (s.takeHeads).lkc = s.lkc ∧ (s.takeHeads).reports = s.reports := by simp [State.takeHeads]

@[simp] theorem State.deliverVib_frame (d : Fin 32) (s : State) :
    (s.deliverVib d).pending = s.pending ∧ (s.deliverVib d).clockUs = s.clockUs ∧ (s.deliverVib d).freeCount = s.freeCount ∧
    (s.deliverVib d).lines = s.lines ∧ (s.deliverVib d).rs = s.rs ∧ (s.deliverVib d).pe = s.pe ∧
    (s.deliverVib d).afe = s.afe ∧ (s.deliverVib d).lkc = s.lkc ∧ (s.deliverVib d).reports = s.reports := by
  unfold State.deliverVib
  repeat' split
  all_goals simp

@[simp] theorem foldl_releaseVib_frame (ds : List (Fin 32)) (s : State) :
    (ds.foldl (fun t d => t.releaseVib d) s).pending = s.pending ∧
    (ds.foldl (fun t d => t.releaseVib d) s).clockUs = s.clockUs ∧
    (ds.foldl (fun t d => t.releaseVib d) s).freeCount = s.freeCount ∧
    (ds.foldl (fun t d => t.releaseVib d) s).lines = s.lines ∧ (ds.foldl (fun t d => t.releaseVib d) s).ut = s.ut ∧
    (ds.foldl (fun t d => t.releaseVib d) s).rs = s.rs ∧ (ds.foldl (fun t d => t.releaseVib d) s).pe = s.pe ∧
    (ds.foldl (fun t d => t.releaseVib d) s).afe = s.afe ∧ (ds.foldl (fun t d => t.releaseVib d) s).oa = s.oa ∧
    (ds.foldl (fun t d => t.releaseVib d) s).lkc = s.lkc ∧ (ds.foldl (fun t d => t.releaseVib d) s).reports = s.reports := by
  induction ds generalizing s with
  | nil => simp
  | cons d ds ih => simp [ih]

@[simp] theorem State.releaseSurplus_frame (n : Nat) (s : State) :
    (s.releaseSurplus n).pending = s.pending ∧ (s.releaseSurplus n).clockUs = s.clockUs ∧
    (s.releaseSurplus n).freeCount = s.freeCount ∧ (s.releaseSurplus n).lines = s.lines ∧ (s.releaseSurplus n).ut = s.ut ∧
    (s.releaseSurplus n).rs = s.rs ∧ (s.releaseSurplus n).pe = s.pe ∧ (s.releaseSurplus n).afe = s.afe ∧
    (s.releaseSurplus n).lkc = s.lkc ∧ (s.releaseSurplus n).reports = s.reports := by simp [State.releaseSurplus]

@[simp] theorem State.afterAccept_frame (n : Nat) (s : State) :
    (s.afterAccept n).pending = s.pending ∧ (s.afterAccept n).clockUs = s.clockUs ∧
    (s.afterAccept n).freeCount = s.freeCount ∧ (s.afterAccept n).lines = s.lines ∧ (s.afterAccept n).rs = s.rs ∧
    (s.afterAccept n).pe = s.pe ∧ (s.afterAccept n).afe = s.afe ∧ (s.afterAccept n).lkc = s.lkc ∧
    (s.afterAccept n).reports = s.reports := by
  unfold State.afterAccept
  repeat' split
  all_goals simp

@[simp] theorem State.completeAnalysis_frame (s : State) :
    (s.completeAnalysis).pending = s.pending ∧ (s.completeAnalysis).clockUs = s.clockUs ∧
    (s.completeAnalysis).freeCount = s.freeCount ∧ (s.completeAnalysis).lines = s.lines ∧ (s.completeAnalysis).rs = s.rs ∧
    (s.completeAnalysis).pe = s.pe ∧ (s.completeAnalysis).afe = s.afe ∧ (s.completeAnalysis).lkc = s.lkc ∧
    (s.completeAnalysis).reports = s.reports := by
  unfold State.completeAnalysis
  dsimp only
  repeat' split
  all_goals simp

@[simp] theorem State.drainClose_frame (s : State) :
    (s.drainClose).pending = s.pending ∧ (s.drainClose).clockUs = s.clockUs ∧ (s.drainClose).freeCount = s.freeCount ∧
    (s.drainClose).lines = s.lines ∧ (s.drainClose).lp = s.lp ∧ (s.drainClose).rs = s.rs ∧ (s.drainClose).pe = s.pe ∧
    (s.drainClose).afe = s.afe ∧ (s.drainClose).cs = s.cs ∧ (s.drainClose).lkc = s.lkc ∧ (s.drainClose).cu = s.cu ∧
    (s.drainClose).reports = s.reports := by
  unfold State.drainClose
  split <;> simp

/-! ## The Report Assembler -/

@[simp] theorem State.reportNotice_frame (s : State) :
    (s.reportNotice).pending = s.pending ∧ (s.reportNotice).clockUs = s.clockUs ∧ (s.reportNotice).freeCount = s.freeCount ∧
    (s.reportNotice).lines = s.lines ∧ (s.reportNotice).ut = s.ut ∧ (s.reportNotice).rs = s.rs ∧ (s.reportNotice).pe = s.pe ∧
    (s.reportNotice).afe = s.afe ∧ (s.reportNotice).cs = s.cs ∧ (s.reportNotice).oa = s.oa ∧ (s.reportNotice).lkc = s.lkc ∧
    (s.reportNotice).cu = s.cu ∧ (s.reportNotice).reports = s.reports := by simp [State.reportNotice]

@[simp] theorem State.assembleReport_frame (i : Fin 8) (s : State) :
    (s.assembleReport i).pending = s.pending ∧ (s.assembleReport i).clockUs = s.clockUs ∧
    (s.assembleReport i).freeCount = s.freeCount ∧ (s.assembleReport i).lines = s.lines ∧ (s.assembleReport i).rs = s.rs ∧
    (s.assembleReport i).pe = s.pe ∧ (s.assembleReport i).afe = s.afe ∧ (s.assembleReport i).cs = s.cs ∧
    (s.assembleReport i).oa = s.oa ∧ (s.assembleReport i).lkc = s.lkc ∧ (s.assembleReport i).cu = s.cu := by
  unfold State.assembleReport
  split <;> simp

/-! ## The Leak Controller -/

@[simp] theorem State.setChamber_frame (c : Fin 4) (x : Chamber) (s : State) :
    (s.setChamber c x).pending = s.pending ∧ (s.setChamber c x).clockUs = s.clockUs ∧
    (s.setChamber c x).freeCount = s.freeCount ∧ (s.setChamber c x).lines = s.lines ∧ (s.setChamber c x).lp = s.lp ∧
    (s.setChamber c x).ut = s.ut ∧ (s.setChamber c x).rs = s.rs ∧ (s.setChamber c x).pe = s.pe ∧
    (s.setChamber c x).afe = s.afe ∧ (s.setChamber c x).cs = s.cs ∧ (s.setChamber c x).oa = s.oa ∧
    (s.setChamber c x).cu = s.cu ∧ (s.setChamber c x).reports = s.reports := by simp [State.setChamber]

@[simp] theorem State.checkGrant_frame (s : State) :
    (s.checkGrant).pending = s.pending ∧ (s.checkGrant).clockUs = s.clockUs ∧ (s.checkGrant).freeCount = s.freeCount ∧
    (s.checkGrant).lines = s.lines ∧ (s.checkGrant).lp = s.lp ∧ (s.checkGrant).ut = s.ut ∧ (s.checkGrant).rs = s.rs ∧
    (s.checkGrant).pe = s.pe ∧ (s.checkGrant).afe = s.afe ∧ (s.checkGrant).cs = s.cs ∧ (s.checkGrant).oa = s.oa ∧
    (s.checkGrant).cu = s.cu ∧ (s.checkGrant).reports = s.reports := by
  unfold State.checkGrant
  repeat' split
  all_goals simp

@[simp] theorem State.joinQueue_frame (c : Fin 4) (s : State) :
    (s.joinQueue c).pending = s.pending ∧ (s.joinQueue c).clockUs = s.clockUs ∧ (s.joinQueue c).freeCount = s.freeCount ∧
    (s.joinQueue c).lines = s.lines ∧ (s.joinQueue c).lp = s.lp ∧ (s.joinQueue c).ut = s.ut ∧ (s.joinQueue c).rs = s.rs ∧
    (s.joinQueue c).pe = s.pe ∧ (s.joinQueue c).afe = s.afe ∧ (s.joinQueue c).cs = s.cs ∧ (s.joinQueue c).oa = s.oa ∧
    (s.joinQueue c).cu = s.cu ∧ (s.joinQueue c).reports = s.reports := by simp [State.joinQueue]

@[simp] theorem foldl_joinQueue_frame (cs : List (Fin 4)) (s : State) :
    (cs.foldl (fun t c => if (t.chamberPlan c).enabled then t.joinQueue c else t) s).pending = s.pending ∧
    (cs.foldl (fun t c => if (t.chamberPlan c).enabled then t.joinQueue c else t) s).clockUs = s.clockUs ∧
    (cs.foldl (fun t c => if (t.chamberPlan c).enabled then t.joinQueue c else t) s).freeCount = s.freeCount ∧
    (cs.foldl (fun t c => if (t.chamberPlan c).enabled then t.joinQueue c else t) s).lines = s.lines ∧
    (cs.foldl (fun t c => if (t.chamberPlan c).enabled then t.joinQueue c else t) s).lp = s.lp ∧
    (cs.foldl (fun t c => if (t.chamberPlan c).enabled then t.joinQueue c else t) s).ut = s.ut ∧
    (cs.foldl (fun t c => if (t.chamberPlan c).enabled then t.joinQueue c else t) s).rs = s.rs ∧
    (cs.foldl (fun t c => if (t.chamberPlan c).enabled then t.joinQueue c else t) s).pe = s.pe ∧
    (cs.foldl (fun t c => if (t.chamberPlan c).enabled then t.joinQueue c else t) s).afe = s.afe ∧
    (cs.foldl (fun t c => if (t.chamberPlan c).enabled then t.joinQueue c else t) s).cs = s.cs ∧
    (cs.foldl (fun t c => if (t.chamberPlan c).enabled then t.joinQueue c else t) s).oa = s.oa ∧
    (cs.foldl (fun t c => if (t.chamberPlan c).enabled then t.joinQueue c else t) s).cu = s.cu ∧
    (cs.foldl (fun t c => if (t.chamberPlan c).enabled then t.joinQueue c else t) s).reports = s.reports := by
  induction cs generalizing s with
  | nil => simp
  | cons c cs ih => simp only [List.foldl_cons, ih]; split <;> simp

@[simp] theorem State.startChambers_frame (s : State) :
    (s.startChambers).pending = s.pending ∧ (s.startChambers).clockUs = s.clockUs ∧
    (s.startChambers).freeCount = s.freeCount ∧ (s.startChambers).lines = s.lines ∧ (s.startChambers).lp = s.lp ∧
    (s.startChambers).ut = s.ut ∧ (s.startChambers).rs = s.rs ∧ (s.startChambers).pe = s.pe ∧ (s.startChambers).afe = s.afe ∧
    (s.startChambers).cs = s.cs ∧ (s.startChambers).oa = s.oa ∧ (s.startChambers).cu = s.cu ∧
    (s.startChambers).reports = s.reports := by simp [State.startChambers]

@[simp] theorem State.enterVent_frame (c : Fin 4) (after : AfterVent) (s : State) :
    (s.enterVent c after).pending = s.pending ∧ (s.enterVent c after).clockUs = s.clockUs ∧
    (s.enterVent c after).freeCount = s.freeCount ∧ (s.enterVent c after).lines = s.lines ∧ (s.enterVent c after).lp = s.lp ∧
    (s.enterVent c after).ut = s.ut ∧ (s.enterVent c after).rs = s.rs ∧ (s.enterVent c after).pe = s.pe ∧
    (s.enterVent c after).afe = s.afe ∧ (s.enterVent c after).cs = s.cs ∧ (s.enterVent c after).oa = s.oa ∧
    (s.enterVent c after).cu = s.cu ∧ (s.enterVent c after).reports = s.reports := by simp [State.enterVent]

@[simp] theorem State.enterMeasure_frame (c : Fin 4) (s : State) :
    (s.enterMeasure c).pending = s.pending ∧ (s.enterMeasure c).clockUs = s.clockUs ∧
    (s.enterMeasure c).freeCount = s.freeCount ∧ (s.enterMeasure c).lines = s.lines ∧ (s.enterMeasure c).lp = s.lp ∧
    (s.enterMeasure c).ut = s.ut ∧ (s.enterMeasure c).rs = s.rs ∧ (s.enterMeasure c).pe = s.pe ∧
    (s.enterMeasure c).afe = s.afe ∧ (s.enterMeasure c).cs = s.cs ∧ (s.enterMeasure c).oa = s.oa ∧
    (s.enterMeasure c).cu = s.cu ∧ (s.enterMeasure c).reports = s.reports := by simp [State.enterMeasure]

@[simp] theorem State.fillReached_frame (c : Fin 4) (s : State) :
    (s.fillReached c).pending = s.pending ∧ (s.fillReached c).clockUs = s.clockUs ∧
    (s.fillReached c).freeCount = s.freeCount ∧ (s.fillReached c).lines = s.lines ∧ (s.fillReached c).lp = s.lp ∧
    (s.fillReached c).ut = s.ut ∧ (s.fillReached c).rs = s.rs ∧ (s.fillReached c).pe = s.pe ∧ (s.fillReached c).afe = s.afe ∧
    (s.fillReached c).cs = s.cs ∧ (s.fillReached c).oa = s.oa ∧ (s.fillReached c).cu = s.cu ∧
    (s.fillReached c).reports = s.reports := by
  unfold State.fillReached
  dsimp only
  split <;> simp

@[simp] theorem State.takeLeakRecord_frame (slot : Word32) (xs : List LeakSample) (s : State) :
    (s.takeLeakRecord slot xs).pending = s.pending ∧ (s.takeLeakRecord slot xs).clockUs = s.clockUs ∧
    (s.takeLeakRecord slot xs).freeCount = s.freeCount ∧ (s.takeLeakRecord slot xs).lines = s.lines ∧
    (s.takeLeakRecord slot xs).lp = s.lp ∧ (s.takeLeakRecord slot xs).ut = s.ut ∧ (s.takeLeakRecord slot xs).rs = s.rs ∧
    (s.takeLeakRecord slot xs).pe = s.pe ∧ (s.takeLeakRecord slot xs).afe = s.afe ∧ (s.takeLeakRecord slot xs).cs = s.cs ∧
    (s.takeLeakRecord slot xs).oa = s.oa ∧ (s.takeLeakRecord slot xs).cu = s.cu ∧
    (s.takeLeakRecord slot xs).reports = s.reports := by simp [State.takeLeakRecord]

@[simp] theorem State.senseFault_frame (s : State) :
    (s.senseFault).pending = s.pending ∧ (s.senseFault).clockUs = s.clockUs ∧ (s.senseFault).freeCount = s.freeCount ∧
    (s.senseFault).lines = s.lines ∧ (s.senseFault).lp = s.lp ∧ (s.senseFault).ut = s.ut ∧ (s.senseFault).rs = s.rs ∧
    (s.senseFault).pe = s.pe ∧ (s.senseFault).afe = s.afe ∧ (s.senseFault).cs = s.cs ∧ (s.senseFault).oa = s.oa ∧
    (s.senseFault).cu = s.cu ∧ (s.senseFault).reports = s.reports := by simp [State.senseFault]

@[simp] theorem State.mapResult_frame (i : Fin 8) (c : Fin 4) (f : ChamberResult → ChamberResult) (s : State) :
    (s.mapResult i c f).pending = s.pending ∧ (s.mapResult i c f).clockUs = s.clockUs ∧
    (s.mapResult i c f).freeCount = s.freeCount ∧ (s.mapResult i c f).lines = s.lines ∧ (s.mapResult i c f).lp = s.lp ∧
    (s.mapResult i c f).rs = s.rs ∧ (s.mapResult i c f).pe = s.pe ∧ (s.mapResult i c f).afe = s.afe ∧
    (s.mapResult i c f).cs = s.cs ∧ (s.mapResult i c f).oa = s.oa ∧ (s.mapResult i c f).lkc = s.lkc ∧
    (s.mapResult i c f).cu = s.cu ∧ (s.mapResult i c f).reports = s.reports := by simp [State.mapResult]

@[simp] theorem State.countAttempt_frame (c : Fin 4) (a : AttemptResult) (s : State) :
    (s.countAttempt c a).pending = s.pending ∧ (s.countAttempt c a).clockUs = s.clockUs ∧
    (s.countAttempt c a).freeCount = s.freeCount ∧ (s.countAttempt c a).lines = s.lines ∧ (s.countAttempt c a).lp = s.lp ∧
    (s.countAttempt c a).rs = s.rs ∧ (s.countAttempt c a).pe = s.pe ∧ (s.countAttempt c a).afe = s.afe ∧
    (s.countAttempt c a).cs = s.cs ∧ (s.countAttempt c a).oa = s.oa ∧ (s.countAttempt c a).cu = s.cu ∧
    (s.countAttempt c a).reports = s.reports := by
  unfold State.countAttempt
  split <;> simp

@[simp] theorem State.evaluate_frame (c : Fin 4) (s : State) :
    (s.evaluate c).pending = s.pending ∧ (s.evaluate c).clockUs = s.clockUs ∧ (s.evaluate c).freeCount = s.freeCount ∧
    (s.evaluate c).lines = s.lines ∧ (s.evaluate c).lp = s.lp ∧ (s.evaluate c).rs = s.rs ∧ (s.evaluate c).pe = s.pe ∧
    (s.evaluate c).afe = s.afe ∧ (s.evaluate c).cs = s.cs ∧ (s.evaluate c).oa = s.oa ∧ (s.evaluate c).cu = s.cu ∧
    (s.evaluate c).reports = s.reports := by
  unfold State.evaluate
  repeat' split
  all_goals simp

@[simp] theorem foldl_evaluate_frame (cs : List (Fin 4)) (s : State) :
    (cs.foldl (fun t c => t.evaluate c) s).pending = s.pending ∧ (cs.foldl (fun t c => t.evaluate c) s).clockUs = s.clockUs ∧
    (cs.foldl (fun t c => t.evaluate c) s).freeCount = s.freeCount ∧ (cs.foldl (fun t c => t.evaluate c) s).lines = s.lines ∧
    (cs.foldl (fun t c => t.evaluate c) s).lp = s.lp ∧ (cs.foldl (fun t c => t.evaluate c) s).rs = s.rs ∧
    (cs.foldl (fun t c => t.evaluate c) s).pe = s.pe ∧ (cs.foldl (fun t c => t.evaluate c) s).afe = s.afe ∧
    (cs.foldl (fun t c => t.evaluate c) s).cs = s.cs ∧ (cs.foldl (fun t c => t.evaluate c) s).oa = s.oa ∧
    (cs.foldl (fun t c => t.evaluate c) s).cu = s.cu ∧ (cs.foldl (fun t c => t.evaluate c) s).reports = s.reports := by
  induction cs generalizing s with
  | nil => simp
  | cons c cs ih => simp [ih]

@[simp] theorem State.evaluateAll_frame (s : State) :
    (s.evaluateAll).pending = s.pending ∧ (s.evaluateAll).clockUs = s.clockUs ∧ (s.evaluateAll).freeCount = s.freeCount ∧
    (s.evaluateAll).lines = s.lines ∧ (s.evaluateAll).lp = s.lp ∧ (s.evaluateAll).rs = s.rs ∧ (s.evaluateAll).pe = s.pe ∧
    (s.evaluateAll).afe = s.afe ∧ (s.evaluateAll).cs = s.cs ∧ (s.evaluateAll).oa = s.oa ∧ (s.evaluateAll).cu = s.cu ∧
    (s.evaluateAll).reports = s.reports := by simp [State.evaluateAll]

@[simp] theorem foldl_enterVent_frame (cs : List (Fin 4)) (s : State) :
    (cs.foldl (fun t c => if (t.chamber c).phase.attempting then t.enterVent c .requeue else t) s).pending = s.pending ∧
    (cs.foldl (fun t c => if (t.chamber c).phase.attempting then t.enterVent c .requeue else t) s).clockUs = s.clockUs ∧
    (cs.foldl (fun t c => if (t.chamber c).phase.attempting then t.enterVent c .requeue else t) s).freeCount = s.freeCount ∧
    (cs.foldl (fun t c => if (t.chamber c).phase.attempting then t.enterVent c .requeue else t) s).lines = s.lines ∧
    (cs.foldl (fun t c => if (t.chamber c).phase.attempting then t.enterVent c .requeue else t) s).lp = s.lp ∧
    (cs.foldl (fun t c => if (t.chamber c).phase.attempting then t.enterVent c .requeue else t) s).ut = s.ut ∧
    (cs.foldl (fun t c => if (t.chamber c).phase.attempting then t.enterVent c .requeue else t) s).rs = s.rs ∧
    (cs.foldl (fun t c => if (t.chamber c).phase.attempting then t.enterVent c .requeue else t) s).pe = s.pe ∧
    (cs.foldl (fun t c => if (t.chamber c).phase.attempting then t.enterVent c .requeue else t) s).afe = s.afe ∧
    (cs.foldl (fun t c => if (t.chamber c).phase.attempting then t.enterVent c .requeue else t) s).cs = s.cs ∧
    (cs.foldl (fun t c => if (t.chamber c).phase.attempting then t.enterVent c .requeue else t) s).oa = s.oa ∧
    (cs.foldl (fun t c => if (t.chamber c).phase.attempting then t.enterVent c .requeue else t) s).cu = s.cu ∧
    (cs.foldl (fun t c => if (t.chamber c).phase.attempting then t.enterVent c .requeue else t) s).reports = s.reports := by
  induction cs generalizing s with
  | nil => simp
  | cons c cs ih => simp only [List.foldl_cons, ih]; split <;> simp

@[simp] theorem State.haltChambers_frame (s : State) :
    (s.haltChambers).pending = s.pending ∧ (s.haltChambers).clockUs = s.clockUs ∧ (s.haltChambers).freeCount = s.freeCount ∧
    (s.haltChambers).lines = s.lines ∧ (s.haltChambers).lp = s.lp ∧ (s.haltChambers).ut = s.ut ∧ (s.haltChambers).rs = s.rs ∧
    (s.haltChambers).pe = s.pe ∧ (s.haltChambers).afe = s.afe ∧ (s.haltChambers).cs = s.cs ∧ (s.haltChambers).oa = s.oa ∧
    (s.haltChambers).cu = s.cu ∧ (s.haltChambers).reports = s.reports := by simp [State.haltChambers]

@[simp] theorem State.abortChamber_frame (c : Fin 4) (s : State) :
    (s.abortChamber c).pending = s.pending ∧ (s.abortChamber c).clockUs = s.clockUs ∧
    (s.abortChamber c).freeCount = s.freeCount ∧ (s.abortChamber c).lines = s.lines ∧ (s.abortChamber c).lp = s.lp ∧
    (s.abortChamber c).ut = s.ut ∧ (s.abortChamber c).rs = s.rs ∧ (s.abortChamber c).pe = s.pe ∧
    (s.abortChamber c).afe = s.afe ∧ (s.abortChamber c).cs = s.cs ∧ (s.abortChamber c).oa = s.oa ∧
    (s.abortChamber c).cu = s.cu ∧ (s.abortChamber c).reports = s.reports := by
  unfold State.abortChamber
  repeat' split
  all_goals simp

@[simp] theorem foldl_abortChamber_frame (cs : List (Fin 4)) (s : State) :
    (cs.foldl (fun t c => t.abortChamber c) s).pending = s.pending ∧
    (cs.foldl (fun t c => t.abortChamber c) s).clockUs = s.clockUs ∧
    (cs.foldl (fun t c => t.abortChamber c) s).freeCount = s.freeCount ∧
    (cs.foldl (fun t c => t.abortChamber c) s).lines = s.lines ∧ (cs.foldl (fun t c => t.abortChamber c) s).lp = s.lp ∧
    (cs.foldl (fun t c => t.abortChamber c) s).ut = s.ut ∧ (cs.foldl (fun t c => t.abortChamber c) s).rs = s.rs ∧
    (cs.foldl (fun t c => t.abortChamber c) s).pe = s.pe ∧ (cs.foldl (fun t c => t.abortChamber c) s).afe = s.afe ∧
    (cs.foldl (fun t c => t.abortChamber c) s).cs = s.cs ∧ (cs.foldl (fun t c => t.abortChamber c) s).oa = s.oa ∧
    (cs.foldl (fun t c => t.abortChamber c) s).cu = s.cu ∧
    (cs.foldl (fun t c => t.abortChamber c) s).reports = s.reports := by
  induction cs generalizing s with
  | nil => simp
  | cons c cs ih => simp [ih]

@[simp] theorem State.abortChambers_frame (s : State) :
    (s.abortChambers).pending = s.pending ∧ (s.abortChambers).clockUs = s.clockUs ∧
    (s.abortChambers).freeCount = s.freeCount ∧ (s.abortChambers).lines = s.lines ∧ (s.abortChambers).lp = s.lp ∧
    (s.abortChambers).ut = s.ut ∧ (s.abortChambers).rs = s.rs ∧ (s.abortChambers).pe = s.pe ∧ (s.abortChambers).afe = s.afe ∧
    (s.abortChambers).cs = s.cs ∧ (s.abortChambers).oa = s.oa ∧ (s.abortChambers).cu = s.cu ∧
    (s.abortChambers).reports = s.reports := by simp [State.abortChambers]

@[simp] theorem State.restChambers_frame (s : State) :
    (s.restChambers).pending = s.pending ∧ (s.restChambers).clockUs = s.clockUs ∧ (s.restChambers).freeCount = s.freeCount ∧
    (s.restChambers).lines = s.lines ∧ (s.restChambers).lp = s.lp ∧ (s.restChambers).ut = s.ut ∧ (s.restChambers).rs = s.rs ∧
    (s.restChambers).pe = s.pe ∧ (s.restChambers).afe = s.afe ∧ (s.restChambers).cs = s.cs ∧ (s.restChambers).oa = s.oa ∧
    (s.restChambers).cu = s.cu ∧ (s.restChambers).reports = s.reports := by simp [State.restChambers]

/-! ## The Unit Table -/

@[simp] theorem State.armSilence_frame (s : State) :
    (s.armSilence).pending = s.pending ∧ (s.armSilence).clockUs = s.clockUs ∧ (s.armSilence).freeCount = s.freeCount ∧
    (s.armSilence).lines = s.lines ∧ (s.armSilence).ut = s.ut ∧ (s.armSilence).rs = s.rs ∧ (s.armSilence).pe = s.pe ∧
    (s.armSilence).afe = s.afe ∧ (s.armSilence).cs = s.cs ∧ (s.armSilence).oa = s.oa ∧ (s.armSilence).lkc = s.lkc ∧
    (s.armSilence).cu = s.cu ∧ (s.armSilence).reports = s.reports := by
  unfold State.armSilence
  split <;> simp

@[simp] theorem State.disarmSilence_frame (s : State) :
    (s.disarmSilence).pending = s.pending ∧ (s.disarmSilence).clockUs = s.clockUs ∧
    (s.disarmSilence).freeCount = s.freeCount ∧ (s.disarmSilence).lines = s.lines ∧ (s.disarmSilence).ut = s.ut ∧
    (s.disarmSilence).rs = s.rs ∧ (s.disarmSilence).pe = s.pe ∧ (s.disarmSilence).afe = s.afe ∧ (s.disarmSilence).cs = s.cs ∧
    (s.disarmSilence).oa = s.oa ∧ (s.disarmSilence).lkc = s.lkc ∧ (s.disarmSilence).cu = s.cu ∧
    (s.disarmSilence).reports = s.reports := by
  unfold State.disarmSilence
  split <;> simp

@[simp] theorem State.runConveyor_frame (s : State) :
    (s.runConveyor).pending = s.pending ∧ (s.runConveyor).clockUs = s.clockUs ∧ (s.runConveyor).freeCount = s.freeCount ∧
    (s.runConveyor).lines = s.lines ∧ (s.runConveyor).lp = s.lp ∧ (s.runConveyor).rs = s.rs ∧ (s.runConveyor).pe = s.pe ∧
    (s.runConveyor).afe = s.afe ∧ (s.runConveyor).cs = s.cs ∧ (s.runConveyor).oa = s.oa ∧ (s.runConveyor).lkc = s.lkc ∧
    (s.runConveyor).cu = s.cu ∧ (s.runConveyor).reports = s.reports := by simp [State.runConveyor]

@[simp] theorem State.stopConveyor_frame (s : State) :
    (s.stopConveyor).pending = s.pending ∧ (s.stopConveyor).clockUs = s.clockUs ∧ (s.stopConveyor).freeCount = s.freeCount ∧
    (s.stopConveyor).lines = s.lines ∧ (s.stopConveyor).lp = s.lp ∧ (s.stopConveyor).rs = s.rs ∧ (s.stopConveyor).pe = s.pe ∧
    (s.stopConveyor).afe = s.afe ∧ (s.stopConveyor).cs = s.cs ∧ (s.stopConveyor).oa = s.oa ∧ (s.stopConveyor).lkc = s.lkc ∧
    (s.stopConveyor).cu = s.cu ∧ (s.stopConveyor).reports = s.reports := by simp [State.stopConveyor]

@[simp] theorem State.checkTransfer_frame (s : State) :
    (s.checkTransfer).pending = s.pending ∧ (s.checkTransfer).clockUs = s.clockUs ∧
    (s.checkTransfer).freeCount = s.freeCount ∧ (s.checkTransfer).lines = s.lines ∧ (s.checkTransfer).rs = s.rs ∧
    (s.checkTransfer).pe = s.pe ∧ (s.checkTransfer).afe = s.afe ∧ (s.checkTransfer).oa = s.oa ∧
    (s.checkTransfer).lkc = s.lkc ∧ (s.checkTransfer).reports = s.reports := by
  unfold State.checkTransfer
  dsimp only
  repeat' split
  all_goals simp

@[simp] theorem State.mapLeak_frame (i : Fin 8) (f : LeakSection → LeakSection) (s : State) :
    (s.mapLeak i f).pending = s.pending ∧ (s.mapLeak i f).clockUs = s.clockUs ∧ (s.mapLeak i f).freeCount = s.freeCount ∧
    (s.mapLeak i f).lines = s.lines ∧ (s.mapLeak i f).lp = s.lp ∧ (s.mapLeak i f).rs = s.rs ∧ (s.mapLeak i f).pe = s.pe ∧
    (s.mapLeak i f).afe = s.afe ∧ (s.mapLeak i f).cs = s.cs ∧ (s.mapLeak i f).oa = s.oa ∧ (s.mapLeak i f).lkc = s.lkc ∧
    (s.mapLeak i f).cu = s.cu ∧ (s.mapLeak i f).reports = s.reports := by simp [State.mapLeak]

@[simp] theorem State.enterDone_frame (i : Fin 8) (s : State) :
    (s.enterDone i).pending = s.pending ∧ (s.enterDone i).clockUs = s.clockUs ∧ (s.enterDone i).freeCount = s.freeCount ∧
    (s.enterDone i).lines = s.lines ∧ (s.enterDone i).rs = s.rs ∧ (s.enterDone i).pe = s.pe ∧ (s.enterDone i).afe = s.afe ∧
    (s.enterDone i).oa = s.oa := by simp [State.enterDone]

@[simp] theorem State.checkLeakEnd_frame (s : State) :
    (s.checkLeakEnd).pending = s.pending ∧ (s.checkLeakEnd).clockUs = s.clockUs ∧ (s.checkLeakEnd).freeCount = s.freeCount ∧
    (s.checkLeakEnd).lines = s.lines ∧ (s.checkLeakEnd).rs = s.rs ∧ (s.checkLeakEnd).pe = s.pe ∧
    (s.checkLeakEnd).afe = s.afe ∧ (s.checkLeakEnd).oa = s.oa := by
  unfold State.checkLeakEnd
  repeat' split
  all_goals simp

@[simp] theorem State.decideLeak_frame (s : State) :
    (s.decideLeak).pending = s.pending ∧ (s.decideLeak).clockUs = s.clockUs ∧ (s.decideLeak).freeCount = s.freeCount ∧
    (s.decideLeak).lines = s.lines ∧ (s.decideLeak).rs = s.rs ∧ (s.decideLeak).pe = s.pe ∧ (s.decideLeak).afe = s.afe ∧
    (s.decideLeak).oa = s.oa := by
  unfold State.decideLeak
  repeat' split
  all_goals simp

@[simp] theorem State.arrive_frame (s : State) :
    (s.arrive).pending = s.pending ∧ (s.arrive).clockUs = s.clockUs ∧ (s.arrive).freeCount = s.freeCount ∧
    (s.arrive).lines = s.lines ∧ (s.arrive).rs = s.rs ∧ (s.arrive).pe = s.pe ∧ (s.arrive).afe = s.afe ∧
    (s.arrive).oa = s.oa := by
  unfold State.arrive
  split <;> simp

@[simp] theorem State.checkRunDone_frame (s : State) :
    (s.checkRunDone).pending = s.pending ∧ (s.checkRunDone).clockUs = s.clockUs ∧ (s.checkRunDone).freeCount = s.freeCount ∧
    (s.checkRunDone).lines = s.lines ∧ (s.checkRunDone).rs = s.rs ∧ (s.checkRunDone).pe = s.pe ∧
    (s.checkRunDone).afe = s.afe ∧ (s.checkRunDone).oa = s.oa ∧ (s.checkRunDone).lkc = s.lkc ∧
    (s.checkRunDone).reports = s.reports := by
  unfold State.checkRunDone
  repeat' split
  all_goals simp

@[simp] theorem State.mapSlot_frame (k : Fin 16) (f : Slot → Slot) (s : State) :
    (s.mapSlot k f).pending = s.pending ∧ (s.mapSlot k f).clockUs = s.clockUs ∧ (s.mapSlot k f).freeCount = s.freeCount ∧
    (s.mapSlot k f).lines = s.lines ∧ (s.mapSlot k f).lp = s.lp ∧ (s.mapSlot k f).ut = s.ut ∧ (s.mapSlot k f).pe = s.pe ∧
    (s.mapSlot k f).afe = s.afe ∧ (s.mapSlot k f).cs = s.cs ∧ (s.mapSlot k f).oa = s.oa ∧ (s.mapSlot k f).lkc = s.lkc ∧
    (s.mapSlot k f).cu = s.cu ∧ (s.mapSlot k f).reports = s.reports := by simp [State.mapSlot]

@[simp] theorem State.load_frame (i : Fin 8) (serial : List Byte) (slot : Fin 16) (s : State) :
    (s.load i serial slot).pending = s.pending ∧ (s.load i serial slot).clockUs = s.clockUs ∧
    (s.load i serial slot).freeCount = s.freeCount ∧ (s.load i serial slot).lines = s.lines ∧
    (s.load i serial slot).pe = s.pe ∧ (s.load i serial slot).afe = s.afe ∧ (s.load i serial slot).oa = s.oa ∧
    (s.load i serial slot).lkc = s.lkc ∧ (s.load i serial slot).reports = s.reports := by simp [State.load]

/-! ## The Profile Engine -/

@[simp] theorem State.mapRunIn_frame (f : RunIn → RunIn) (s : State) :
    (s.mapRunIn f).pending = s.pending ∧ (s.mapRunIn f).clockUs = s.clockUs ∧ (s.mapRunIn f).freeCount = s.freeCount ∧
    (s.mapRunIn f).lines = s.lines ∧ (s.mapRunIn f).lp = s.lp ∧ (s.mapRunIn f).rs = s.rs ∧ (s.mapRunIn f).pe = s.pe ∧
    (s.mapRunIn f).afe = s.afe ∧ (s.mapRunIn f).cs = s.cs ∧ (s.mapRunIn f).oa = s.oa ∧ (s.mapRunIn f).lkc = s.lkc ∧
    (s.mapRunIn f).cu = s.cu ∧ (s.mapRunIn f).reports = s.reports := by
  unfold State.mapRunIn
  split <;> simp

@[simp] theorem State.judgeDrive_frame (s : State) :
    (s.judgeDrive).pending = s.pending ∧ (s.judgeDrive).clockUs = s.clockUs ∧ (s.judgeDrive).freeCount = s.freeCount ∧
    (s.judgeDrive).lines = s.lines ∧ (s.judgeDrive).lp = s.lp ∧ (s.judgeDrive).ut = s.ut ∧ (s.judgeDrive).rs = s.rs ∧
    (s.judgeDrive).pe = s.pe ∧ (s.judgeDrive).afe = s.afe ∧ (s.judgeDrive).cs = s.cs ∧ (s.judgeDrive).oa = s.oa ∧
    (s.judgeDrive).lkc = s.lkc ∧ (s.judgeDrive).reports = s.reports := by simp [State.judgeDrive]

@[simp] theorem State.setEnable_frame (b : Bool) (s : State) :
    (s.setEnable b).pending = s.pending ∧ (s.setEnable b).clockUs = s.clockUs ∧ (s.setEnable b).freeCount = s.freeCount ∧
    (s.setEnable b).lines = s.lines ∧ (s.setEnable b).lp = s.lp ∧ (s.setEnable b).ut = s.ut ∧ (s.setEnable b).rs = s.rs ∧
    (s.setEnable b).afe = s.afe ∧ (s.setEnable b).cs = s.cs ∧ (s.setEnable b).oa = s.oa ∧ (s.setEnable b).lkc = s.lkc ∧
    (s.setEnable b).reports = s.reports := by
  unfold State.setEnable
  split <;> simp

@[simp] theorem State.tryOpen_frame (s : State) :
    (s.tryOpen).pending = s.pending ∧ (s.tryOpen).clockUs = s.clockUs ∧ (s.tryOpen).freeCount = s.freeCount ∧
    (s.tryOpen).lines = s.lines ∧ (s.tryOpen).lp = s.lp ∧ (s.tryOpen).ut = s.ut ∧ (s.tryOpen).rs = s.rs ∧
    (s.tryOpen).afe = s.afe ∧ (s.tryOpen).lkc = s.lkc ∧ (s.tryOpen).reports = s.reports := by
  unfold State.tryOpen
  repeat' split
  all_goals simp

@[simp] theorem State.settle_frame (s : State) :
    (s.settle).pending = s.pending ∧ (s.settle).clockUs = s.clockUs ∧ (s.settle).freeCount = s.freeCount ∧
    (s.settle).lines = s.lines ∧ (s.settle).lp = s.lp ∧ (s.settle).ut = s.ut ∧ (s.settle).rs = s.rs ∧
    (s.settle).afe = s.afe ∧ (s.settle).lkc = s.lkc ∧ (s.settle).reports = s.reports := by simp [State.settle]

@[simp] theorem State.loadSettle_frame (x : Step) (s : State) :
    (s.loadSettle x).pending = s.pending ∧ (s.loadSettle x).clockUs = s.clockUs ∧ (s.loadSettle x).freeCount = s.freeCount ∧
    (s.loadSettle x).lines = s.lines ∧ (s.loadSettle x).lp = s.lp ∧ (s.loadSettle x).ut = s.ut ∧ (s.loadSettle x).rs = s.rs ∧
    (s.loadSettle x).afe = s.afe ∧ (s.loadSettle x).lkc = s.lkc ∧ (s.loadSettle x).reports = s.reports := by
  unfold State.loadSettle
  repeat' split
  all_goals simp

@[simp] theorem State.pauseStep_frame (s : State) :
    (s.pauseStep).pending = s.pending ∧ (s.pauseStep).clockUs = s.clockUs ∧ (s.pauseStep).freeCount = s.freeCount ∧
    (s.pauseStep).lines = s.lines ∧ (s.pauseStep).lp = s.lp ∧ (s.pauseStep).ut = s.ut ∧ (s.pauseStep).rs = s.rs ∧
    (s.pauseStep).afe = s.afe ∧ (s.pauseStep).lkc = s.lkc ∧ (s.pauseStep).reports = s.reports := by
  unfold State.pauseStep
  repeat' split
  all_goals simp

@[simp] theorem State.noisePause_frame (s : State) :
    (s.noisePause).pending = s.pending ∧ (s.noisePause).clockUs = s.clockUs ∧ (s.noisePause).freeCount = s.freeCount ∧
    (s.noisePause).lines = s.lines ∧ (s.noisePause).lp = s.lp ∧ (s.noisePause).ut = s.ut ∧ (s.noisePause).rs = s.rs ∧
    (s.noisePause).afe = s.afe ∧ (s.noisePause).lkc = s.lkc ∧ (s.noisePause).reports = s.reports := by
  unfold State.noisePause
  repeat' split
  all_goals simp

@[simp] theorem State.loadStep_frame (x : Step) (s : State) :
    (s.loadStep x).pending = s.pending ∧ (s.loadStep x).clockUs = s.clockUs ∧ (s.loadStep x).freeCount = s.freeCount ∧
    (s.loadStep x).lines = s.lines ∧ (s.loadStep x).lp = s.lp ∧ (s.loadStep x).ut = s.ut ∧ (s.loadStep x).rs = s.rs ∧
    (s.loadStep x).afe = s.afe ∧ (s.loadStep x).lkc = s.lkc ∧ (s.loadStep x).reports = s.reports := by simp [State.loadStep]

@[simp] theorem State.enterStep_frame (k : Nat) (x : Step) (s : State) :
    (s.enterStep k x).pending = s.pending ∧ (s.enterStep k x).clockUs = s.clockUs ∧
    (s.enterStep k x).freeCount = s.freeCount ∧ (s.enterStep k x).lines = s.lines ∧ (s.enterStep k x).lp = s.lp ∧
    (s.enterStep k x).rs = s.rs ∧ (s.enterStep k x).afe = s.afe ∧ (s.enterStep k x).lkc = s.lkc ∧
    (s.enterStep k x).reports = s.reports := by simp [State.enterStep]

@[simp] theorem State.restartStep_frame (s : State) :
    (s.restartStep).pending = s.pending ∧ (s.restartStep).clockUs = s.clockUs ∧ (s.restartStep).freeCount = s.freeCount ∧
    (s.restartStep).lines = s.lines ∧ (s.restartStep).lp = s.lp ∧ (s.restartStep).ut = s.ut ∧ (s.restartStep).rs = s.rs ∧
    (s.restartStep).afe = s.afe ∧ (s.restartStep).lkc = s.lkc ∧ (s.restartStep).reports = s.reports := by
  unfold State.restartStep
  split <;> simp

@[simp] theorem State.evaluateDrag_frame (x : Step) (s : State) :
    (s.evaluateDrag x).pending = s.pending ∧ (s.evaluateDrag x).clockUs = s.clockUs ∧
    (s.evaluateDrag x).freeCount = s.freeCount ∧ (s.evaluateDrag x).lines = s.lines ∧ (s.evaluateDrag x).lp = s.lp ∧
    (s.evaluateDrag x).rs = s.rs ∧ (s.evaluateDrag x).pe = s.pe ∧ (s.evaluateDrag x).afe = s.afe ∧
    (s.evaluateDrag x).cs = s.cs ∧ (s.evaluateDrag x).oa = s.oa ∧ (s.evaluateDrag x).lkc = s.lkc ∧
    (s.evaluateDrag x).cu = s.cu ∧ (s.evaluateDrag x).reports = s.reports := by
  unfold State.evaluateDrag
  split <;> simp

@[simp] theorem State.clearDrag_frame (s : State) :
    (s.clearDrag).pending = s.pending ∧ (s.clearDrag).clockUs = s.clockUs ∧ (s.clearDrag).freeCount = s.freeCount ∧
    (s.clearDrag).lines = s.lines ∧ (s.clearDrag).lp = s.lp ∧ (s.clearDrag).ut = s.ut ∧ (s.clearDrag).rs = s.rs ∧
    (s.clearDrag).afe = s.afe ∧ (s.clearDrag).cs = s.cs ∧ (s.clearDrag).oa = s.oa ∧ (s.clearDrag).lkc = s.lkc ∧
    (s.clearDrag).cu = s.cu ∧ (s.clearDrag).reports = s.reports := by simp [State.clearDrag]

@[simp] theorem State.closeWindows_frame (s : State) :
    (s.closeWindows).pending = s.pending ∧ (s.closeWindows).clockUs = s.clockUs ∧ (s.closeWindows).freeCount = s.freeCount ∧
    (s.closeWindows).lines = s.lines ∧ (s.closeWindows).rs = s.rs ∧ (s.closeWindows).pe = s.pe ∧
    (s.closeWindows).lkc = s.lkc ∧ (s.closeWindows).reports = s.reports := by
  unfold State.closeWindows
  split <;> simp

@[simp] theorem State.profileEnd_frame (cause : StopCause) (s : State) :
    (s.profileEnd cause).pending = s.pending ∧ (s.profileEnd cause).clockUs = s.clockUs ∧
    (s.profileEnd cause).freeCount = s.freeCount ∧ (s.profileEnd cause).lines = s.lines ∧ (s.profileEnd cause).rs = s.rs ∧
    (s.profileEnd cause).lkc = s.lkc ∧ (s.profileEnd cause).reports = s.reports := by simp [State.profileEnd]

@[simp] theorem State.beginStop_frame (cause : StopCause) (s : State) :
    (s.beginStop cause).pending = s.pending ∧ (s.beginStop cause).clockUs = s.clockUs ∧
    (s.beginStop cause).freeCount = s.freeCount ∧ (s.beginStop cause).lines = s.lines ∧ (s.beginStop cause).rs = s.rs ∧
    (s.beginStop cause).lkc = s.lkc ∧ (s.beginStop cause).reports = s.reports := by
  unfold State.beginStop
  dsimp only
  split <;> simp

@[simp] theorem State.endStep_frame (k : Nat) (x : Step) (s : State) :
    (s.endStep k x).1.pending = s.pending ∧ (s.endStep k x).1.clockUs = s.clockUs ∧
    (s.endStep k x).1.freeCount = s.freeCount ∧ (s.endStep k x).1.lines = s.lines ∧ (s.endStep k x).1.lp = s.lp ∧
    (s.endStep k x).1.rs = s.rs ∧ (s.endStep k x).1.afe = s.afe ∧ (s.endStep k x).1.lkc = s.lkc ∧
    (s.endStep k x).1.reports = s.reports := by
  unfold State.endStep
  split <;> simp

@[simp] theorem State.finishProfile_frame (s : State) :
    (s.finishProfile).pending = s.pending ∧ (s.finishProfile).clockUs = s.clockUs ∧
    (s.finishProfile).freeCount = s.freeCount ∧ (s.finishProfile).lines = s.lines ∧ (s.finishProfile).rs = s.rs ∧
    (s.finishProfile).lkc = s.lkc ∧ (s.finishProfile).reports = s.reports := by simp [State.finishProfile]

@[simp] theorem runSteps_frame (fuel k : Nat) (s : State) :
    (runSteps fuel k s).pending = s.pending ∧ (runSteps fuel k s).clockUs = s.clockUs ∧
    (runSteps fuel k s).freeCount = s.freeCount ∧ (runSteps fuel k s).lines = s.lines ∧ (runSteps fuel k s).rs = s.rs ∧
    (runSteps fuel k s).lkc = s.lkc ∧ (runSteps fuel k s).reports = s.reports := by
  induction fuel generalizing k s with
  | zero => simp [runSteps]
  | succ fuel ih =>
    unfold runSteps
    dsimp only
    repeat' split
    all_goals simp [ih]

@[simp] theorem State.goTo_frame (k : Nat) (s : State) :
    (s.goTo k).pending = s.pending ∧ (s.goTo k).clockUs = s.clockUs ∧ (s.goTo k).freeCount = s.freeCount ∧
    (s.goTo k).lines = s.lines ∧ (s.goTo k).rs = s.rs ∧ (s.goTo k).lkc = s.lkc ∧
    (s.goTo k).reports = s.reports := by simp [State.goTo]

@[simp] theorem State.endCurrent_frame (s : State) :
    (s.endCurrent).pending = s.pending ∧ (s.endCurrent).clockUs = s.clockUs ∧ (s.endCurrent).freeCount = s.freeCount ∧
    (s.endCurrent).lines = s.lines ∧ (s.endCurrent).rs = s.rs ∧ (s.endCurrent).lkc = s.lkc ∧
    (s.endCurrent).reports = s.reports := by
  unfold State.endCurrent
  split <;> simp

@[simp] theorem State.failStep_frame (s : State) :
    (s.failStep).pending = s.pending ∧ (s.failStep).clockUs = s.clockUs ∧ (s.failStep).freeCount = s.freeCount ∧
    (s.failStep).lines = s.lines ∧ (s.failStep).rs = s.rs ∧ (s.failStep).lkc = s.lkc ∧
    (s.failStep).reports = s.reports := by simp [State.failStep]

@[simp] theorem State.beginProfile_frame (s : State) :
    (s.beginProfile).pending = s.pending ∧ (s.beginProfile).clockUs = s.clockUs ∧ (s.beginProfile).freeCount = s.freeCount ∧
    (s.beginProfile).lines = s.lines ∧ (s.beginProfile).rs = s.rs ∧ (s.beginProfile).lkc = s.lkc ∧
    (s.beginProfile).reports = s.reports := by simp [State.beginProfile]

@[simp] theorem State.startProfile_frame (r : Recipe) (s : State) :
    (s.startProfile r).pending = s.pending ∧ (s.startProfile r).clockUs = s.clockUs ∧
    (s.startProfile r).freeCount = s.freeCount ∧ (s.startProfile r).lines = s.lines ∧ (s.startProfile r).rs = s.rs ∧
    (s.startProfile r).lkc = s.lkc ∧ (s.startProfile r).reports = s.reports := by
  unfold State.startProfile
  split <;> simp

@[simp] theorem State.abortProfile_frame (s : State) :
    (s.abortProfile).pending = s.pending ∧ (s.abortProfile).clockUs = s.clockUs ∧ (s.abortProfile).freeCount = s.freeCount ∧
    (s.abortProfile).lines = s.lines ∧ (s.abortProfile).rs = s.rs ∧ (s.abortProfile).lkc = s.lkc ∧
    (s.abortProfile).reports = s.reports := by
  unfold State.abortProfile
  split <;> simp

@[simp] theorem State.hardCheck_frame (s : State) :
    (s.hardCheck).pending = s.pending ∧ (s.hardCheck).clockUs = s.clockUs ∧ (s.hardCheck).freeCount = s.freeCount ∧
    (s.hardCheck).lines = s.lines ∧ (s.hardCheck).rs = s.rs ∧ (s.hardCheck).lkc = s.lkc ∧
    (s.hardCheck).reports = s.reports := by
  unfold State.hardCheck
  dsimp only
  repeat' split
  all_goals simp

@[simp] theorem State.profileHalted_frame (s : State) :
    (s.profileHalted).pending = s.pending ∧ (s.profileHalted).clockUs = s.clockUs ∧
    (s.profileHalted).freeCount = s.freeCount ∧ (s.profileHalted).lines = s.lines ∧ (s.profileHalted).rs = s.rs ∧
    (s.profileHalted).lkc = s.lkc ∧ (s.profileHalted).reports = s.reports := by
  unfold State.profileHalted
  dsimp only
  repeat' split
  all_goals simp

@[simp] theorem State.profileReleased_frame (s : State) :
    (s.profileReleased).pending = s.pending ∧ (s.profileReleased).clockUs = s.clockUs ∧
    (s.profileReleased).freeCount = s.freeCount ∧ (s.profileReleased).lines = s.lines ∧ (s.profileReleased).rs = s.rs ∧
    (s.profileReleased).lkc = s.lkc ∧ (s.profileReleased).reports = s.reports := by
  unfold State.profileReleased
  dsimp only
  split <;> simp

@[simp] theorem State.updateSetpoint_frame (s : State) :
    (s.updateSetpoint).pending = s.pending ∧ (s.updateSetpoint).clockUs = s.clockUs ∧
    (s.updateSetpoint).freeCount = s.freeCount ∧ (s.updateSetpoint).lines = s.lines ∧ (s.updateSetpoint).rs = s.rs ∧
    (s.updateSetpoint).lkc = s.lkc ∧ (s.updateSetpoint).reports = s.reports := by
  unfold State.updateSetpoint
  dsimp only
  repeat' split
  all_goals simp

@[simp] theorem State.takeSpeed_frame (speed : Int) (s : State) :
    (s.takeSpeed speed).pending = s.pending ∧ (s.takeSpeed speed).clockUs = s.clockUs ∧
    (s.takeSpeed speed).freeCount = s.freeCount ∧ (s.takeSpeed speed).lines = s.lines ∧ (s.takeSpeed speed).rs = s.rs ∧
    (s.takeSpeed speed).lkc = s.lkc ∧ (s.takeSpeed speed).reports = s.reports := by
  unfold State.takeSpeed
  repeat' split
  all_goals simp

@[simp] theorem State.takeDrag_frame (seq : Word32) (xs : List SlowSample) (s : State) :
    (s.takeDrag seq xs).pending = s.pending ∧ (s.takeDrag seq xs).clockUs = s.clockUs ∧
    (s.takeDrag seq xs).freeCount = s.freeCount ∧ (s.takeDrag seq xs).lines = s.lines ∧ (s.takeDrag seq xs).lp = s.lp ∧
    (s.takeDrag seq xs).ut = s.ut ∧ (s.takeDrag seq xs).rs = s.rs ∧ (s.takeDrag seq xs).afe = s.afe ∧
    (s.takeDrag seq xs).cs = s.cs ∧ (s.takeDrag seq xs).oa = s.oa ∧ (s.takeDrag seq xs).lkc = s.lkc ∧
    (s.takeDrag seq xs).cu = s.cu ∧ (s.takeDrag seq xs).reports = s.reports := by
  unfold State.takeDrag
  repeat' split
  all_goals simp

@[simp] theorem State.absorb_frame (seq : Word32) (xs : List SlowSample) (s : State) :
    (s.absorb seq xs).pending = s.pending ∧ (s.absorb seq xs).clockUs = s.clockUs ∧
    (s.absorb seq xs).freeCount = s.freeCount ∧ (s.absorb seq xs).lines = s.lines ∧ (s.absorb seq xs).lp = s.lp ∧
    (s.absorb seq xs).rs = s.rs ∧ (s.absorb seq xs).afe = s.afe ∧ (s.absorb seq xs).cs = s.cs ∧ (s.absorb seq xs).oa = s.oa ∧
    (s.absorb seq xs).lkc = s.lkc ∧ (s.absorb seq xs).cu = s.cu ∧ (s.absorb seq xs).reports = s.reports := by
  unfold State.absorb
  split <;> simp

/-! ## Halts -/

@[simp] theorem State.applyProfileHalt_frame (was : StopSet) (s : State) :
    (s.applyProfileHalt was).pending = s.pending ∧ (s.applyProfileHalt was).clockUs = s.clockUs ∧
    (s.applyProfileHalt was).freeCount = s.freeCount ∧ (s.applyProfileHalt was).lines = s.lines ∧
    (s.applyProfileHalt was).rs = s.rs ∧ (s.applyProfileHalt was).lkc = s.lkc ∧
    (s.applyProfileHalt was).reports = s.reports := by
  unfold State.applyProfileHalt
  split <;> simp

@[simp] theorem State.applyNoiseHalt_frame (was : StopSet) (s : State) :
    (s.applyNoiseHalt was).pending = s.pending ∧ (s.applyNoiseHalt was).clockUs = s.clockUs ∧
    (s.applyNoiseHalt was).freeCount = s.freeCount ∧ (s.applyNoiseHalt was).lines = s.lines ∧
    (s.applyNoiseHalt was).lp = s.lp ∧ (s.applyNoiseHalt was).ut = s.ut ∧ (s.applyNoiseHalt was).rs = s.rs ∧
    (s.applyNoiseHalt was).afe = s.afe ∧ (s.applyNoiseHalt was).lkc = s.lkc ∧ (s.applyNoiseHalt was).reports = s.reports := by
  unfold State.applyNoiseHalt
  split <;> simp

@[simp] theorem State.applyLeakHalt_frame (was : StopSet) (s : State) :
    (s.applyLeakHalt was).pending = s.pending ∧ (s.applyLeakHalt was).clockUs = s.clockUs ∧
    (s.applyLeakHalt was).freeCount = s.freeCount ∧ (s.applyLeakHalt was).lines = s.lines ∧ (s.applyLeakHalt was).rs = s.rs ∧
    (s.applyLeakHalt was).pe = s.pe ∧ (s.applyLeakHalt was).afe = s.afe ∧ (s.applyLeakHalt was).oa = s.oa := by
  unfold State.applyLeakHalt
  split <;> simp

@[simp] theorem State.applyTransferHalt_frame (was : StopSet) (s : State) :
    (s.applyTransferHalt was).pending = s.pending ∧ (s.applyTransferHalt was).clockUs = s.clockUs ∧
    (s.applyTransferHalt was).freeCount = s.freeCount ∧ (s.applyTransferHalt was).lines = s.lines ∧
    (s.applyTransferHalt was).rs = s.rs ∧ (s.applyTransferHalt was).pe = s.pe ∧ (s.applyTransferHalt was).afe = s.afe ∧
    (s.applyTransferHalt was).oa = s.oa ∧ (s.applyTransferHalt was).lkc = s.lkc ∧
    (s.applyTransferHalt was).reports = s.reports := by
  unfold State.applyTransferHalt
  repeat' split
  all_goals simp

@[simp] theorem State.applyHalts_frame (was : StopSet) (s : State) :
    (s.applyHalts was).pending = s.pending ∧ (s.applyHalts was).clockUs = s.clockUs ∧
    (s.applyHalts was).freeCount = s.freeCount ∧ (s.applyHalts was).lines = s.lines ∧
    (s.applyHalts was).rs = s.rs := by simp [State.applyHalts]

@[simp] theorem react_frame (s t : State) :
    (react s t).pending = t.pending ∧ (react s t).clockUs = t.clockUs ∧ (react s t).freeCount = t.freeCount ∧
    (react s t).lines = t.lines ∧ (react s t).rs = t.rs := by simp [react]

/-! ## The Acquisition Front End -/

@[simp] theorem State.elapseMs_frame (ms : Nat) (s : State) :
    (s.elapseMs ms).pending = s.pending ∧ (s.elapseMs ms).freeCount = s.freeCount ∧ (s.elapseMs ms).lines = s.lines ∧
    (s.elapseMs ms).rs = s.rs ∧ (s.elapseMs ms).cs = s.cs ∧ (s.elapseMs ms).oa = s.oa ∧ (s.elapseMs ms).cu = s.cu ∧
    (s.elapseMs ms).reports = s.reports := by simp [State.elapseMs]

@[simp] theorem State.elapseTo_frame (ms : Nat) (s : State) :
    (s.elapseTo ms).pending = s.pending ∧ (s.elapseTo ms).freeCount = s.freeCount ∧ (s.elapseTo ms).lines = s.lines ∧
    (s.elapseTo ms).rs = s.rs ∧ (s.elapseTo ms).cs = s.cs ∧ (s.elapseTo ms).oa = s.oa ∧ (s.elapseTo ms).cu = s.cu ∧
    (s.elapseTo ms).reports = s.reports := by simp [State.elapseTo]

@[simp] theorem State.tick_frame (s : State) :
    s.tick.pending = s.pending ∧ s.tick.freeCount = s.freeCount ∧ s.tick.lines = s.lines ∧ s.tick.rs = s.rs ∧
    s.tick.cs = s.cs ∧ s.tick.oa = s.oa ∧ s.tick.cu = s.cu ∧ s.tick.reports = s.reports := by simp [State.tick]

@[simp] theorem State.takeChannel_frame (i : Fin 10) (x : Int) (s : State) :
    (s.takeChannel i x).pending = s.pending ∧ (s.takeChannel i x).clockUs = s.clockUs ∧
    (s.takeChannel i x).freeCount = s.freeCount ∧ (s.takeChannel i x).lines = s.lines ∧ (s.takeChannel i x).lp = s.lp ∧
    (s.takeChannel i x).ut = s.ut ∧ (s.takeChannel i x).rs = s.rs ∧ (s.takeChannel i x).pe = s.pe ∧
    (s.takeChannel i x).cs = s.cs ∧ (s.takeChannel i x).oa = s.oa ∧ (s.takeChannel i x).lkc = s.lkc ∧
    (s.takeChannel i x).cu = s.cu ∧ (s.takeChannel i x).reports = s.reports := by simp [State.takeChannel]

@[simp] theorem State.judgeSensors_frame (s : State) :
    (s.judgeSensors).pending = s.pending ∧ (s.judgeSensors).clockUs = s.clockUs ∧ (s.judgeSensors).freeCount = s.freeCount ∧
    (s.judgeSensors).lines = s.lines ∧ (s.judgeSensors).lp = s.lp ∧ (s.judgeSensors).ut = s.ut ∧ (s.judgeSensors).rs = s.rs ∧
    (s.judgeSensors).pe = s.pe ∧ (s.judgeSensors).afe = s.afe ∧ (s.judgeSensors).cs = s.cs ∧ (s.judgeSensors).oa = s.oa ∧
    (s.judgeSensors).lkc = s.lkc ∧ (s.judgeSensors).reports = s.reports := by simp [State.judgeSensors]

@[simp] theorem State.judgeSlow_frame (s : State) :
    (s.judgeSlow).pending = s.pending ∧ (s.judgeSlow).clockUs = s.clockUs ∧ (s.judgeSlow).freeCount = s.freeCount ∧
    (s.judgeSlow).lines = s.lines ∧ (s.judgeSlow).lp = s.lp ∧ (s.judgeSlow).ut = s.ut ∧ (s.judgeSlow).rs = s.rs ∧
    (s.judgeSlow).pe = s.pe ∧ (s.judgeSlow).afe = s.afe ∧ (s.judgeSlow).cs = s.cs ∧ (s.judgeSlow).oa = s.oa ∧
    (s.judgeSlow).lkc = s.lkc ∧ (s.judgeSlow).reports = s.reports := by simp [State.judgeSlow]

@[simp] theorem State.storeSlow_frame (s : State) :
    (s.storeSlow).pending = s.pending ∧ (s.storeSlow).clockUs = s.clockUs ∧ (s.storeSlow).freeCount = s.freeCount ∧
    (s.storeSlow).lines = s.lines ∧ (s.storeSlow).lp = s.lp ∧ (s.storeSlow).ut = s.ut ∧ (s.storeSlow).rs = s.rs ∧
    (s.storeSlow).pe = s.pe ∧ (s.storeSlow).afe = s.afe ∧ (s.storeSlow).oa = s.oa ∧ (s.storeSlow).lkc = s.lkc ∧
    (s.storeSlow).cu = s.cu ∧ (s.storeSlow).reports = s.reports := by
  unfold State.storeSlow
  split <;> simp

@[simp] theorem State.storeLeak_frame (s : State) :
    (s.storeLeak).pending = s.pending ∧ (s.storeLeak).clockUs = s.clockUs ∧ (s.storeLeak).freeCount = s.freeCount ∧
    (s.storeLeak).lines = s.lines ∧ (s.storeLeak).lp = s.lp ∧ (s.storeLeak).ut = s.ut ∧ (s.storeLeak).rs = s.rs ∧
    (s.storeLeak).pe = s.pe ∧ (s.storeLeak).afe = s.afe ∧ (s.storeLeak).oa = s.oa ∧ (s.storeLeak).lkc = s.lkc ∧
    (s.storeLeak).cu = s.cu ∧ (s.storeLeak).reports = s.reports := by
  unfold State.storeLeak
  split <;> simp

@[simp] theorem State.takeSlow_frame (x : SlowSample) (s : State) :
    (s.takeSlow x).pending = s.pending ∧ (s.takeSlow x).freeCount = s.freeCount ∧ (s.takeSlow x).lines = s.lines ∧
    (s.takeSlow x).rs = s.rs ∧ (s.takeSlow x).oa = s.oa ∧ (s.takeSlow x).reports = s.reports := by simp [State.takeSlow]

@[simp] theorem State.checkFill_frame (c : Fin 4) (s : State) :
    (s.checkFill c).pending = s.pending ∧ (s.checkFill c).clockUs = s.clockUs ∧ (s.checkFill c).freeCount = s.freeCount ∧
    (s.checkFill c).lines = s.lines ∧ (s.checkFill c).lp = s.lp ∧ (s.checkFill c).ut = s.ut ∧ (s.checkFill c).rs = s.rs ∧
    (s.checkFill c).pe = s.pe ∧ (s.checkFill c).afe = s.afe ∧ (s.checkFill c).cs = s.cs ∧ (s.checkFill c).oa = s.oa ∧
    (s.checkFill c).cu = s.cu ∧ (s.checkFill c).reports = s.reports := by
  unfold State.checkFill
  dsimp only
  split <;> simp

@[simp] theorem State.checkFills_frame (s : State) :
    (s.checkFills).pending = s.pending ∧ (s.checkFills).clockUs = s.clockUs ∧ (s.checkFills).freeCount = s.freeCount ∧
    (s.checkFills).lines = s.lines ∧ (s.checkFills).lp = s.lp ∧ (s.checkFills).ut = s.ut ∧ (s.checkFills).rs = s.rs ∧
    (s.checkFills).pe = s.pe ∧ (s.checkFills).afe = s.afe ∧ (s.checkFills).cs = s.cs ∧ (s.checkFills).oa = s.oa ∧
    (s.checkFills).cu = s.cu ∧ (s.checkFills).reports = s.reports := by
  unfold State.checkFills
  split <;> simp

@[simp] theorem State.takeLeak_frame (x : LeakSample) (s : State) :
    (s.takeLeak x).pending = s.pending ∧ (s.takeLeak x).freeCount = s.freeCount ∧ (s.takeLeak x).lines = s.lines ∧
    (s.takeLeak x).rs = s.rs ∧ (s.takeLeak x).oa = s.oa ∧ (s.takeLeak x).reports = s.reports := by
  unfold State.takeLeak
  dsimp only
  split <;> simp

@[simp] theorem State.storeAngle_frame (x : AngleSample) (s : State) :
    (s.storeAngle x).pending = s.pending ∧ (s.storeAngle x).clockUs = s.clockUs ∧ (s.storeAngle x).freeCount = s.freeCount ∧
    (s.storeAngle x).lines = s.lines ∧ (s.storeAngle x).lp = s.lp ∧ (s.storeAngle x).ut = s.ut ∧ (s.storeAngle x).rs = s.rs ∧
    (s.storeAngle x).pe = s.pe ∧ (s.storeAngle x).afe = s.afe ∧ (s.storeAngle x).oa = s.oa ∧ (s.storeAngle x).lkc = s.lkc ∧
    (s.storeAngle x).cu = s.cu ∧ (s.storeAngle x).reports = s.reports := by
  unfold State.storeAngle
  split <;> simp

@[simp] theorem State.pulse_frame (us : Nat) (forward : Bool) (x : AngleSample) (s : State) :
    (s.pulse us forward x).pending = s.pending ∧ (s.pulse us forward x).freeCount = s.freeCount ∧
    (s.pulse us forward x).lines = s.lines ∧ (s.pulse us forward x).rs = s.rs ∧ (s.pulse us forward x).oa = s.oa ∧
    (s.pulse us forward x).cu = s.cu ∧ (s.pulse us forward x).reports = s.reports := by
  unfold State.pulse
  dsimp only
  split <;> simp

@[simp] theorem State.closeVib_frame (s : State) :
    (s.closeVib).pending = s.pending ∧ (s.closeVib).clockUs = s.clockUs ∧ (s.closeVib).freeCount = s.freeCount ∧
    (s.closeVib).lines = s.lines ∧ (s.closeVib).rs = s.rs ∧ (s.closeVib).pe = s.pe ∧ (s.closeVib).lkc = s.lkc ∧
    (s.closeVib).reports = s.reports := by
  unfold State.closeVib
  split <;> simp

@[simp] theorem State.countIndex_frame (s : State) :
    (s.countIndex).pending = s.pending ∧ (s.countIndex).clockUs = s.clockUs ∧ (s.countIndex).freeCount = s.freeCount ∧
    (s.countIndex).lines = s.lines ∧ (s.countIndex).lp = s.lp ∧ (s.countIndex).ut = s.ut ∧ (s.countIndex).rs = s.rs ∧
    (s.countIndex).pe = s.pe ∧ (s.countIndex).cs = s.cs ∧ (s.countIndex).oa = s.oa ∧ (s.countIndex).lkc = s.lkc ∧
    (s.countIndex).cu = s.cu ∧ (s.countIndex).reports = s.reports := by simp [State.countIndex]

@[simp] theorem State.captureVib_frame (w : Window) (resumed : Bool) (x : AngleSample) (s : State) :
    (s.captureVib w resumed x).pending = s.pending ∧ (s.captureVib w resumed x).clockUs = s.clockUs ∧
    (s.captureVib w resumed x).freeCount = s.freeCount ∧ (s.captureVib w resumed x).lines = s.lines ∧
    (s.captureVib w resumed x).ut = s.ut ∧ (s.captureVib w resumed x).rs = s.rs ∧ (s.captureVib w resumed x).pe = s.pe ∧
    (s.captureVib w resumed x).oa = s.oa ∧ (s.captureVib w resumed x).lkc = s.lkc ∧
    (s.captureVib w resumed x).reports = s.reports := by
  unfold State.captureVib
  split <;> simp

@[simp] theorem State.boundaryVib_frame (x : AngleSample) (s : State) :
    (s.boundaryVib x).pending = s.pending ∧ (s.boundaryVib x).clockUs = s.clockUs ∧
    (s.boundaryVib x).freeCount = s.freeCount ∧ (s.boundaryVib x).lines = s.lines ∧ (s.boundaryVib x).ut = s.ut ∧
    (s.boundaryVib x).rs = s.rs ∧ (s.boundaryVib x).pe = s.pe ∧ (s.boundaryVib x).lkc = s.lkc ∧
    (s.boundaryVib x).reports = s.reports := by
  unfold State.boundaryVib
  repeat' split
  all_goals simp

@[simp] theorem State.index_frame (us : Nat) (x : AngleSample) (s : State) :
    (s.index us x).pending = s.pending ∧ (s.index us x).freeCount = s.freeCount ∧ (s.index us x).lines = s.lines ∧
    (s.index us x).rs = s.rs ∧ (s.index us x).reports = s.reports := by simp [State.index]

@[simp] theorem State.revolutionTimeout_frame (s : State) :
    (s.revolutionTimeout).pending = s.pending ∧ (s.revolutionTimeout).freeCount = s.freeCount ∧
    (s.revolutionTimeout).lines = s.lines ∧ (s.revolutionTimeout).rs = s.rs ∧ (s.revolutionTimeout).oa = s.oa ∧
    (s.revolutionTimeout).reports = s.reports := by
  unfold State.revolutionTimeout
  split <;> simp

@[simp] theorem State.captureSlow_frame (n : Nat) (resumed : Bool) (s : State) :
    (s.captureSlow n resumed).pending = s.pending ∧ (s.captureSlow n resumed).clockUs = s.clockUs ∧
    (s.captureSlow n resumed).freeCount = s.freeCount ∧ (s.captureSlow n resumed).lines = s.lines ∧
    (s.captureSlow n resumed).ut = s.ut ∧ (s.captureSlow n resumed).rs = s.rs ∧ (s.captureSlow n resumed).pe = s.pe ∧
    (s.captureSlow n resumed).afe = s.afe ∧ (s.captureSlow n resumed).oa = s.oa ∧ (s.captureSlow n resumed).lkc = s.lkc ∧
    (s.captureSlow n resumed).reports = s.reports := by
  unfold State.captureSlow
  split <;> simp

@[simp] theorem State.captureLeak_frame (n : Nat) (resumed : Bool) (s : State) :
    (s.captureLeak n resumed).pending = s.pending ∧ (s.captureLeak n resumed).clockUs = s.clockUs ∧
    (s.captureLeak n resumed).freeCount = s.freeCount ∧ (s.captureLeak n resumed).lines = s.lines ∧
    (s.captureLeak n resumed).ut = s.ut ∧ (s.captureLeak n resumed).rs = s.rs ∧ (s.captureLeak n resumed).pe = s.pe ∧
    (s.captureLeak n resumed).afe = s.afe ∧ (s.captureLeak n resumed).oa = s.oa ∧ (s.captureLeak n resumed).lkc = s.lkc ∧
    (s.captureLeak n resumed).reports = s.reports := by
  unfold State.captureLeak
  split <;> simp

@[simp] theorem State.boundarySlow_frame (n : Nat) (s : State) :
    (s.boundarySlow n).pending = s.pending ∧ (s.boundarySlow n).clockUs = s.clockUs ∧
    (s.boundarySlow n).freeCount = s.freeCount ∧ (s.boundarySlow n).lines = s.lines ∧ (s.boundarySlow n).ut = s.ut ∧
    (s.boundarySlow n).rs = s.rs ∧ (s.boundarySlow n).pe = s.pe ∧ (s.boundarySlow n).afe = s.afe ∧
    (s.boundarySlow n).oa = s.oa ∧ (s.boundarySlow n).lkc = s.lkc ∧ (s.boundarySlow n).reports = s.reports := by
  unfold State.boundarySlow
  split <;> simp

@[simp] theorem State.boundaryLeak_frame (n : Nat) (s : State) :
    (s.boundaryLeak n).pending = s.pending ∧ (s.boundaryLeak n).clockUs = s.clockUs ∧
    (s.boundaryLeak n).freeCount = s.freeCount ∧ (s.boundaryLeak n).lines = s.lines ∧ (s.boundaryLeak n).ut = s.ut ∧
    (s.boundaryLeak n).rs = s.rs ∧ (s.boundaryLeak n).pe = s.pe ∧ (s.boundaryLeak n).afe = s.afe ∧
    (s.boundaryLeak n).oa = s.oa ∧ (s.boundaryLeak n).lkc = s.lkc ∧ (s.boundaryLeak n).reports = s.reports := by
  unfold State.boundaryLeak
  split <;> simp

@[simp] theorem State.startSlow_frame (s : State) :
    (s.startSlow).pending = s.pending ∧ (s.startSlow).freeCount = s.freeCount ∧ (s.startSlow).lines = s.lines ∧
    (s.startSlow).rs = s.rs ∧ (s.startSlow).oa = s.oa ∧ (s.startSlow).reports = s.reports := by
  unfold State.startSlow
  split <;> simp

@[simp] theorem State.startLeak_frame (s : State) :
    (s.startLeak).pending = s.pending ∧ (s.startLeak).freeCount = s.freeCount ∧ (s.startLeak).lines = s.lines ∧
    (s.startLeak).rs = s.rs ∧ (s.startLeak).oa = s.oa ∧ (s.startLeak).reports = s.reports := by
  unfold State.startLeak
  split <;> simp

@[simp] theorem State.endSlow_frame (s : State) :
    (s.endSlow).pending = s.pending ∧ (s.endSlow).freeCount = s.freeCount ∧ (s.endSlow).lines = s.lines ∧
    (s.endSlow).rs = s.rs ∧ (s.endSlow).oa = s.oa ∧ (s.endSlow).reports = s.reports := by
  unfold State.endSlow
  dsimp only
  repeat' split
  all_goals simp

@[simp] theorem State.endLeak_frame (s : State) :
    (s.endLeak).pending = s.pending ∧ (s.endLeak).freeCount = s.freeCount ∧ (s.endLeak).lines = s.lines ∧
    (s.endLeak).rs = s.rs ∧ (s.endLeak).oa = s.oa ∧ (s.endLeak).reports = s.reports := by
  unfold State.endLeak
  dsimp only
  repeat' split
  all_goals simp

/-! ## The Recipe Store -/

@[simp] theorem takeSlotErase_frame (b : Byte) (s : State) :
    (takeSlotErase b s).1.pending = s.pending ∧ (takeSlotErase b s).1.clockUs = s.clockUs ∧
    (takeSlotErase b s).1.freeCount = s.freeCount ∧ (takeSlotErase b s).1.lines = s.lines ∧ (takeSlotErase b s).1.lp = s.lp ∧
    (takeSlotErase b s).1.ut = s.ut ∧ (takeSlotErase b s).1.pe = s.pe ∧ (takeSlotErase b s).1.afe = s.afe ∧
    (takeSlotErase b s).1.cs = s.cs ∧ (takeSlotErase b s).1.oa = s.oa ∧ (takeSlotErase b s).1.lkc = s.lkc ∧
    (takeSlotErase b s).1.cu = s.cu ∧ (takeSlotErase b s).1.reports = s.reports := by
  simp only [takeSlotErase, withOwnSlot, withSlot]
  repeat' split
  all_goals simp

@[simp] theorem takeSlotBlank_frame (b : Byte) (s : State) :
    (takeSlotBlank b s).1.pending = s.pending ∧ (takeSlotBlank b s).1.clockUs = s.clockUs ∧
    (takeSlotBlank b s).1.freeCount = s.freeCount ∧ (takeSlotBlank b s).1.lines = s.lines ∧ (takeSlotBlank b s).1.lp = s.lp ∧
    (takeSlotBlank b s).1.ut = s.ut ∧ (takeSlotBlank b s).1.rs = s.rs ∧ (takeSlotBlank b s).1.pe = s.pe ∧
    (takeSlotBlank b s).1.afe = s.afe ∧ (takeSlotBlank b s).1.cs = s.cs ∧ (takeSlotBlank b s).1.oa = s.oa ∧
    (takeSlotBlank b s).1.lkc = s.lkc ∧ (takeSlotBlank b s).1.cu = s.cu ∧ (takeSlotBlank b s).1.reports = s.reports := by
  simp only [takeSlotBlank, withSlot]
  repeat' split
  all_goals simp

@[simp] theorem takeSlotWrite_frame (b : Byte) (offset : Nat) (data : List Byte) (s : State) :
    (takeSlotWrite b offset data s).1.pending = s.pending ∧ (takeSlotWrite b offset data s).1.clockUs = s.clockUs ∧
    (takeSlotWrite b offset data s).1.freeCount = s.freeCount ∧ (takeSlotWrite b offset data s).1.lines = s.lines ∧
    (takeSlotWrite b offset data s).1.lp = s.lp ∧ (takeSlotWrite b offset data s).1.ut = s.ut ∧
    (takeSlotWrite b offset data s).1.pe = s.pe ∧ (takeSlotWrite b offset data s).1.afe = s.afe ∧
    (takeSlotWrite b offset data s).1.cs = s.cs ∧ (takeSlotWrite b offset data s).1.oa = s.oa ∧
    (takeSlotWrite b offset data s).1.lkc = s.lkc ∧ (takeSlotWrite b offset data s).1.cu = s.cu ∧
    (takeSlotWrite b offset data s).1.reports = s.reports := by
  simp only [takeSlotWrite, withOwnSlot, withSlot]
  repeat' split
  all_goals simp

@[simp] theorem takeSlotClose_frame (b : Byte) (s : State) :
    (takeSlotClose b s).1.pending = s.pending ∧ (takeSlotClose b s).1.clockUs = s.clockUs ∧
    (takeSlotClose b s).1.freeCount = s.freeCount ∧ (takeSlotClose b s).1.lines = s.lines ∧ (takeSlotClose b s).1.lp = s.lp ∧
    (takeSlotClose b s).1.ut = s.ut ∧ (takeSlotClose b s).1.pe = s.pe ∧ (takeSlotClose b s).1.afe = s.afe ∧
    (takeSlotClose b s).1.cs = s.cs ∧ (takeSlotClose b s).1.oa = s.oa ∧ (takeSlotClose b s).1.lkc = s.lkc ∧
    (takeSlotClose b s).1.cu = s.cu ∧ (takeSlotClose b s).1.reports = s.reports := by
  simp only [takeSlotClose, withOwnSlot, withSlot]
  repeat' split
  all_goals simp

@[simp] theorem takeSlotVerify_frame (b : Byte) (digest : Word32) (s : State) :
    (takeSlotVerify b digest s).1.pending = s.pending ∧ (takeSlotVerify b digest s).1.clockUs = s.clockUs ∧
    (takeSlotVerify b digest s).1.freeCount = s.freeCount ∧ (takeSlotVerify b digest s).1.lines = s.lines ∧
    (takeSlotVerify b digest s).1.lp = s.lp ∧ (takeSlotVerify b digest s).1.ut = s.ut ∧
    (takeSlotVerify b digest s).1.rs = s.rs ∧ (takeSlotVerify b digest s).1.pe = s.pe ∧
    (takeSlotVerify b digest s).1.afe = s.afe ∧ (takeSlotVerify b digest s).1.cs = s.cs ∧
    (takeSlotVerify b digest s).1.oa = s.oa ∧ (takeSlotVerify b digest s).1.lkc = s.lkc ∧
    (takeSlotVerify b digest s).1.cu = s.cu ∧ (takeSlotVerify b digest s).1.reports = s.reports := by
  simp only [takeSlotVerify, withSlot]
  repeat' split
  all_goals simp

@[simp] theorem takeSlotRead_frame (b : Byte) (offset length : Nat) (s : State) :
    (takeSlotRead b offset length s).1.pending = s.pending ∧ (takeSlotRead b offset length s).1.clockUs = s.clockUs ∧
    (takeSlotRead b offset length s).1.freeCount = s.freeCount ∧ (takeSlotRead b offset length s).1.lines = s.lines ∧
    (takeSlotRead b offset length s).1.lp = s.lp ∧ (takeSlotRead b offset length s).1.ut = s.ut ∧
    (takeSlotRead b offset length s).1.rs = s.rs ∧ (takeSlotRead b offset length s).1.pe = s.pe ∧
    (takeSlotRead b offset length s).1.afe = s.afe ∧ (takeSlotRead b offset length s).1.cs = s.cs ∧
    (takeSlotRead b offset length s).1.oa = s.oa ∧ (takeSlotRead b offset length s).1.lkc = s.lkc ∧
    (takeSlotRead b offset length s).1.cu = s.cu ∧ (takeSlotRead b offset length s).1.reports = s.reports := by
  simp only [takeSlotRead, withSlot]
  repeat' split
  all_goals simp

@[simp] theorem takeSlotInfo_frame (b : Byte) (s : State) :
    (takeSlotInfo b s).1.pending = s.pending ∧ (takeSlotInfo b s).1.clockUs = s.clockUs ∧
    (takeSlotInfo b s).1.freeCount = s.freeCount ∧ (takeSlotInfo b s).1.lines = s.lines ∧ (takeSlotInfo b s).1.lp = s.lp ∧
    (takeSlotInfo b s).1.ut = s.ut ∧ (takeSlotInfo b s).1.rs = s.rs ∧ (takeSlotInfo b s).1.pe = s.pe ∧
    (takeSlotInfo b s).1.afe = s.afe ∧ (takeSlotInfo b s).1.cs = s.cs ∧ (takeSlotInfo b s).1.oa = s.oa ∧
    (takeSlotInfo b s).1.lkc = s.lkc ∧ (takeSlotInfo b s).1.cu = s.cu ∧ (takeSlotInfo b s).1.reports = s.reports := by
  simp only [takeSlotInfo, withSlot]
  repeat' split
  all_goals simp

@[simp] theorem State.storeDone_frame (k : Fin 16) (s : State) :
    (s.storeDone k).pending = s.pending ∧ (s.storeDone k).clockUs = s.clockUs ∧ (s.storeDone k).freeCount = s.freeCount ∧
    (s.storeDone k).lines = s.lines ∧ (s.storeDone k).ut = s.ut ∧ (s.storeDone k).rs = s.rs ∧ (s.storeDone k).pe = s.pe ∧
    (s.storeDone k).afe = s.afe ∧ (s.storeDone k).cs = s.cs ∧ (s.storeDone k).oa = s.oa ∧ (s.storeDone k).lkc = s.lkc ∧
    (s.storeDone k).cu = s.cu ∧ (s.storeDone k).reports = s.reports := by simp [State.storeDone]

@[simp] theorem State.completeErase_frame (k : Fin 16) (s : State) :
    (s.completeErase k).pending = s.pending ∧ (s.completeErase k).clockUs = s.clockUs ∧
    (s.completeErase k).freeCount = s.freeCount ∧ (s.completeErase k).lines = s.lines ∧ (s.completeErase k).ut = s.ut ∧
    (s.completeErase k).pe = s.pe ∧ (s.completeErase k).afe = s.afe ∧ (s.completeErase k).cs = s.cs ∧
    (s.completeErase k).oa = s.oa ∧ (s.completeErase k).lkc = s.lkc ∧ (s.completeErase k).cu = s.cu ∧
    (s.completeErase k).reports = s.reports := by
  unfold State.completeErase
  split <;> simp

@[simp] theorem State.useConfig_frame (cfg : CellConfig) (source : ConfigSource) (s : State) :
    (s.useConfig cfg source).pending = s.pending ∧ (s.useConfig cfg source).clockUs = s.clockUs ∧
    (s.useConfig cfg source).freeCount = s.freeCount ∧ (s.useConfig cfg source).lines = s.lines ∧
    (s.useConfig cfg source).lp = s.lp ∧ (s.useConfig cfg source).ut = s.ut ∧ (s.useConfig cfg source).pe = s.pe ∧
    (s.useConfig cfg source).afe = s.afe ∧ (s.useConfig cfg source).cs = s.cs ∧ (s.useConfig cfg source).oa = s.oa ∧
    (s.useConfig cfg source).lkc = s.lkc ∧ (s.useConfig cfg source).reports = s.reports := by simp [State.useConfig]

@[simp] theorem State.completeClose_frame (k : Fin 16) (s : State) :
    (s.completeClose k).pending = s.pending ∧ (s.completeClose k).clockUs = s.clockUs ∧
    (s.completeClose k).freeCount = s.freeCount ∧ (s.completeClose k).lines = s.lines := by
  unfold State.completeClose
  dsimp only
  repeat' split
  all_goals simp

@[simp] theorem State.endScan_frame (s : State) :
    (s.endScan).pending = s.pending ∧ (s.endScan).clockUs = s.clockUs ∧ (s.endScan).lines = s.lines := by
  unfold State.endScan
  dsimp only
  repeat' split
  all_goals simp

/-! ## The condition commands and lines -/

@[simp] theorem takeCondAck_frame (b : Byte) (s : State) :
    (takeCondAck b s).1.pending = s.pending ∧ (takeCondAck b s).1.clockUs = s.clockUs ∧
    (takeCondAck b s).1.freeCount = s.freeCount ∧ (takeCondAck b s).1.lines = s.lines ∧ (takeCondAck b s).1.lp = s.lp ∧
    (takeCondAck b s).1.ut = s.ut ∧ (takeCondAck b s).1.rs = s.rs ∧ (takeCondAck b s).1.pe = s.pe ∧
    (takeCondAck b s).1.afe = s.afe ∧ (takeCondAck b s).1.cs = s.cs ∧ (takeCondAck b s).1.oa = s.oa ∧
    (takeCondAck b s).1.lkc = s.lkc ∧ (takeCondAck b s).1.reports = s.reports := by
  simp only [takeCondAck, withCondition]
  repeat' split
  all_goals simp

@[simp] theorem State.inject_frame (n : Fin 20) (s : State) :
    (s.inject n).pending = s.pending ∧ (s.inject n).clockUs = s.clockUs ∧ (s.inject n).freeCount = s.freeCount ∧
    (s.inject n).lines = s.lines ∧ (s.inject n).lp = s.lp ∧ (s.inject n).ut = s.ut ∧ (s.inject n).rs = s.rs ∧
    (s.inject n).pe = s.pe ∧ (s.inject n).afe = s.afe ∧ (s.inject n).cs = s.cs ∧ (s.inject n).oa = s.oa ∧
    (s.inject n).lkc = s.lkc ∧ (s.inject n).reports = s.reports := by simp [State.inject]

@[simp] theorem takeCondInject_frame (b : Byte) (s : State) :
    (takeCondInject b s).1.pending = s.pending ∧ (takeCondInject b s).1.clockUs = s.clockUs ∧
    (takeCondInject b s).1.freeCount = s.freeCount ∧ (takeCondInject b s).1.lines = s.lines ∧
    (takeCondInject b s).1.rs = s.rs := by
  simp only [takeCondInject, withCondition]
  repeat' split
  all_goals simp

@[simp] theorem takeCondConfig_frame (b : Byte) (severity vector : Byte) (s : State) :
    (takeCondConfig b severity vector s).1.pending = s.pending ∧ (takeCondConfig b severity vector s).1.clockUs = s.clockUs ∧
    (takeCondConfig b severity vector s).1.freeCount = s.freeCount ∧ (takeCondConfig b severity vector s).1.lines = s.lines ∧
    (takeCondConfig b severity vector s).1.rs = s.rs := by
  simp only [takeCondConfig, withCondition]
  repeat' split
  all_goals simp

@[simp] theorem takeSetMask_frame (level : Byte) (s : State) :
    (takeSetMask level s).1.pending = s.pending ∧ (takeSetMask level s).1.clockUs = s.clockUs ∧
    (takeSetMask level s).1.freeCount = s.freeCount ∧ (takeSetMask level s).1.lines = s.lines ∧
    (takeSetMask level s).1.rs = s.rs := by
  unfold takeSetMask
  dsimp only
  split <;> simp

@[simp] theorem takeResume_frame (s : State) :
    (takeResume s).1.pending = s.pending ∧ (takeResume s).1.clockUs = s.clockUs ∧ (takeResume s).1.freeCount = s.freeCount ∧
    (takeResume s).1.lines = s.lines ∧ (takeResume s).1.rs = s.rs := by
  unfold takeResume
  repeat' split
  all_goals simp

@[simp] theorem State.judgeLines_frame (s : State) :
    (s.judgeLines).pending = s.pending ∧ (s.judgeLines).clockUs = s.clockUs ∧ (s.judgeLines).freeCount = s.freeCount ∧
    (s.judgeLines).lines = s.lines ∧ (s.judgeLines).lp = s.lp ∧ (s.judgeLines).ut = s.ut ∧ (s.judgeLines).rs = s.rs ∧
    (s.judgeLines).pe = s.pe ∧ (s.judgeLines).afe = s.afe ∧ (s.judgeLines).cs = s.cs ∧ (s.judgeLines).oa = s.oa ∧
    (s.judgeLines).lkc = s.lkc ∧ (s.judgeLines).reports = s.reports := by simp [State.judgeLines]

@[simp] theorem State.judgeLine_frame (line : CondLine) (s : State) :
    (s.judgeLine line).pending = s.pending ∧ (s.judgeLine line).clockUs = s.clockUs ∧
    (s.judgeLine line).freeCount = s.freeCount ∧ (s.judgeLine line).lines = s.lines ∧ (s.judgeLine line).lp = s.lp ∧
    (s.judgeLine line).ut = s.ut ∧ (s.judgeLine line).rs = s.rs ∧ (s.judgeLine line).pe = s.pe ∧
    (s.judgeLine line).afe = s.afe ∧ (s.judgeLine line).cs = s.cs ∧ (s.judgeLine line).oa = s.oa ∧
    (s.judgeLine line).lkc = s.lkc ∧ (s.judgeLine line).reports = s.reports := by
  unfold State.judgeLine
  split <;> simp

@[simp] theorem State.changeLine_frame (line : CondLine) (b : Bool) (s : State) :
    (s.changeLine line b).pending = s.pending ∧ (s.changeLine line b).clockUs = s.clockUs ∧
    (s.changeLine line b).freeCount = s.freeCount ∧ (s.changeLine line b).rs = s.rs := by simp [State.changeLine]

@[simp] theorem State.changeKey_frame (asserted : Bool) (s : State) :
    (s.changeKey asserted).pending = s.pending ∧ (s.changeKey asserted).clockUs = s.clockUs ∧
    (s.changeKey asserted).freeCount = s.freeCount ∧ (s.changeKey asserted).lines = s.lines ∧
    (s.changeKey asserted).rs = s.rs := by
  unfold State.changeKey
  repeat' split
  all_goals simp

/-! ## Replies and reports -/

@[simp] theorem takeUnitGet_frame (id : Nat) (s : State) :
    (takeUnitGet id s).1.pending = s.pending ∧ (takeUnitGet id s).1.clockUs = s.clockUs ∧
    (takeUnitGet id s).1.freeCount = s.freeCount ∧ (takeUnitGet id s).1.lines = s.lines ∧ (takeUnitGet id s).1.lp = s.lp ∧
    (takeUnitGet id s).1.ut = s.ut ∧ (takeUnitGet id s).1.rs = s.rs ∧ (takeUnitGet id s).1.pe = s.pe ∧
    (takeUnitGet id s).1.afe = s.afe ∧ (takeUnitGet id s).1.cs = s.cs ∧ (takeUnitGet id s).1.oa = s.oa ∧
    (takeUnitGet id s).1.lkc = s.lkc ∧ (takeUnitGet id s).1.cu = s.cu ∧ (takeUnitGet id s).1.reports = s.reports := by
  unfold takeUnitGet
  split <;> simp

@[simp] theorem takeStreamGet_frame (s : State) :
    (takeStreamGet s).1.pending = s.pending ∧ (takeStreamGet s).1.clockUs = s.clockUs ∧
    (takeStreamGet s).1.freeCount = s.freeCount ∧ (takeStreamGet s).1.lines = s.lines ∧ (takeStreamGet s).1.lp = s.lp ∧
    (takeStreamGet s).1.ut = s.ut ∧ (takeStreamGet s).1.rs = s.rs ∧ (takeStreamGet s).1.pe = s.pe ∧
    (takeStreamGet s).1.afe = s.afe ∧ (takeStreamGet s).1.cs = s.cs ∧ (takeStreamGet s).1.oa = s.oa ∧
    (takeStreamGet s).1.lkc = s.lkc ∧ (takeStreamGet s).1.cu = s.cu ∧
    (takeStreamGet s).1.reports = s.reports := by simp [takeStreamGet]

@[simp] theorem takeCondList_frame (s : State) :
    (takeCondList s).1.pending = s.pending ∧ (takeCondList s).1.clockUs = s.clockUs ∧
    (takeCondList s).1.freeCount = s.freeCount ∧ (takeCondList s).1.lines = s.lines ∧ (takeCondList s).1.lp = s.lp ∧
    (takeCondList s).1.ut = s.ut ∧ (takeCondList s).1.rs = s.rs ∧ (takeCondList s).1.pe = s.pe ∧
    (takeCondList s).1.afe = s.afe ∧ (takeCondList s).1.cs = s.cs ∧ (takeCondList s).1.oa = s.oa ∧
    (takeCondList s).1.lkc = s.lkc ∧ (takeCondList s).1.cu = s.cu ∧
    (takeCondList s).1.reports = s.reports := by simp [takeCondList]

@[simp] theorem takeCondGet_frame (b : Byte) (s : State) :
    (takeCondGet b s).1.pending = s.pending ∧ (takeCondGet b s).1.clockUs = s.clockUs ∧
    (takeCondGet b s).1.freeCount = s.freeCount ∧ (takeCondGet b s).1.lines = s.lines ∧ (takeCondGet b s).1.lp = s.lp ∧
    (takeCondGet b s).1.ut = s.ut ∧ (takeCondGet b s).1.rs = s.rs ∧ (takeCondGet b s).1.pe = s.pe ∧
    (takeCondGet b s).1.afe = s.afe ∧ (takeCondGet b s).1.cs = s.cs ∧ (takeCondGet b s).1.oa = s.oa ∧
    (takeCondGet b s).1.lkc = s.lkc ∧ (takeCondGet b s).1.cu = s.cu ∧ (takeCondGet b s).1.reports = s.reports := by
  simp only [takeCondGet, withCondition]
  repeat' split
  all_goals simp

@[simp] theorem takeStatus_frame (s : State) :
    (takeStatus s).1.pending = s.pending ∧ (takeStatus s).1.clockUs = s.clockUs ∧ (takeStatus s).1.freeCount = s.freeCount ∧
    (takeStatus s).1.lines = s.lines ∧ (takeStatus s).1.lp = s.lp ∧ (takeStatus s).1.ut = s.ut ∧ (takeStatus s).1.rs = s.rs ∧
    (takeStatus s).1.pe = s.pe ∧ (takeStatus s).1.afe = s.afe ∧ (takeStatus s).1.cs = s.cs ∧ (takeStatus s).1.oa = s.oa ∧
    (takeStatus s).1.lkc = s.lkc ∧ (takeStatus s).1.cu = s.cu ∧ (takeStatus s).1.reports = s.reports := by simp [takeStatus]

@[simp] theorem takeIdentify_frame (s : State) :
    (takeIdentify s).1.pending = s.pending ∧ (takeIdentify s).1.clockUs = s.clockUs ∧
    (takeIdentify s).1.freeCount = s.freeCount ∧ (takeIdentify s).1.lines = s.lines ∧ (takeIdentify s).1.lp = s.lp ∧
    (takeIdentify s).1.ut = s.ut ∧ (takeIdentify s).1.rs = s.rs ∧ (takeIdentify s).1.pe = s.pe ∧
    (takeIdentify s).1.afe = s.afe ∧ (takeIdentify s).1.cs = s.cs ∧ (takeIdentify s).1.oa = s.oa ∧
    (takeIdentify s).1.lkc = s.lkc ∧ (takeIdentify s).1.cu = s.cu ∧
    (takeIdentify s).1.reports = s.reports := by simp [takeIdentify]

@[simp] theorem takeReportGet_frame (s : State) :
    (takeReportGet s).1.pending = s.pending ∧ (takeReportGet s).1.clockUs = s.clockUs ∧
    (takeReportGet s).1.freeCount = s.freeCount ∧ (takeReportGet s).1.lines = s.lines ∧ (takeReportGet s).1.lp = s.lp ∧
    (takeReportGet s).1.ut = s.ut ∧ (takeReportGet s).1.rs = s.rs ∧ (takeReportGet s).1.pe = s.pe ∧
    (takeReportGet s).1.afe = s.afe ∧ (takeReportGet s).1.cs = s.cs ∧ (takeReportGet s).1.oa = s.oa ∧
    (takeReportGet s).1.lkc = s.lkc ∧ (takeReportGet s).1.cu = s.cu ∧ (takeReportGet s).1.reports = s.reports := by
  unfold takeReportGet
  repeat' split
  all_goals simp

@[simp] theorem State.freeUnit_frame (i : Fin 8) (s : State) :
    (s.freeUnit i).pending = s.pending ∧ (s.freeUnit i).clockUs = s.clockUs ∧ (s.freeUnit i).freeCount = s.freeCount ∧
    (s.freeUnit i).lines = s.lines ∧ (s.freeUnit i).pe = s.pe ∧ (s.freeUnit i).afe = s.afe ∧ (s.freeUnit i).cs = s.cs ∧
    (s.freeUnit i).oa = s.oa ∧ (s.freeUnit i).lkc = s.lkc ∧ (s.freeUnit i).cu = s.cu ∧
    (s.freeUnit i).reports = s.reports := by
  unfold State.freeUnit
  split <;> simp

@[simp] theorem State.freeId_frame (id : Nat) (s : State) :
    (s.freeId id).pending = s.pending ∧ (s.freeId id).clockUs = s.clockUs ∧ (s.freeId id).freeCount = s.freeCount ∧
    (s.freeId id).lines = s.lines ∧ (s.freeId id).pe = s.pe ∧ (s.freeId id).afe = s.afe ∧ (s.freeId id).cs = s.cs ∧
    (s.freeId id).oa = s.oa ∧ (s.freeId id).lkc = s.lkc ∧ (s.freeId id).cu = s.cu ∧ (s.freeId id).reports = s.reports := by
  unfold State.freeId
  split <;> simp

@[simp] theorem takeReportRelease_frame (id : Nat) (s : State) :
    (takeReportRelease id s).1.pending = s.pending ∧ (takeReportRelease id s).1.clockUs = s.clockUs ∧
    (takeReportRelease id s).1.freeCount = s.freeCount ∧ (takeReportRelease id s).1.lines = s.lines ∧
    (takeReportRelease id s).1.pe = s.pe ∧ (takeReportRelease id s).1.afe = s.afe ∧ (takeReportRelease id s).1.cs = s.cs ∧
    (takeReportRelease id s).1.oa = s.oa ∧ (takeReportRelease id s).1.lkc = s.lkc ∧ (takeReportRelease id s).1.cu = s.cu := by
  unfold takeReportRelease
  repeat' split
  all_goals simp

/-! ## Commands and the host line -/

@[simp] theorem State.startRun_frame (i : Fin 8) (recipe : Recipe) (s : State) :
    (s.startRun i recipe).pending = s.pending ∧ (s.startRun i recipe).clockUs = s.clockUs ∧
    (s.startRun i recipe).freeCount = s.freeCount ∧ (s.startRun i recipe).lines = s.lines ∧ (s.startRun i recipe).rs = s.rs ∧
    (s.startRun i recipe).lkc = s.lkc ∧ (s.startRun i recipe).reports = s.reports := by simp [State.startRun]

@[simp] theorem takeStartRun_frame (id : Nat) (s : State) :
    (takeStartRun id s).1.pending = s.pending ∧ (takeStartRun id s).1.clockUs = s.clockUs ∧
    (takeStartRun id s).1.freeCount = s.freeCount ∧ (takeStartRun id s).1.lines = s.lines ∧ (takeStartRun id s).1.rs = s.rs ∧
    (takeStartRun id s).1.lkc = s.lkc ∧ (takeStartRun id s).1.reports = s.reports := by
  unfold takeStartRun
  repeat' split
  all_goals simp

@[simp] theorem State.abortLoaded_frame (i : Fin 8) (recipe : Recipe) (s : State) :
    (s.abortLoaded i recipe).pending = s.pending ∧ (s.abortLoaded i recipe).clockUs = s.clockUs ∧
    (s.abortLoaded i recipe).freeCount = s.freeCount ∧ (s.abortLoaded i recipe).lines = s.lines ∧
    (s.abortLoaded i recipe).rs = s.rs ∧ (s.abortLoaded i recipe).pe = s.pe ∧ (s.abortLoaded i recipe).lkc = s.lkc ∧
    (s.abortLoaded i recipe).reports = s.reports := by simp [State.abortLoaded]

@[simp] theorem State.abortByState_frame (i : Fin 8) (r : UnitRecord) (s : State) :
    (s.abortByState i r).pending = s.pending ∧ (s.abortByState i r).clockUs = s.clockUs ∧
    (s.abortByState i r).freeCount = s.freeCount ∧ (s.abortByState i r).lines = s.lines ∧ (s.abortByState i r).rs = s.rs := by
  unfold State.abortByState
  split <;> simp

@[simp] theorem takeAbortUnit_frame (id : Nat) (s : State) :
    (takeAbortUnit id s).1.pending = s.pending ∧ (takeAbortUnit id s).1.clockUs = s.clockUs ∧
    (takeAbortUnit id s).1.freeCount = s.freeCount ∧ (takeAbortUnit id s).1.lines = s.lines ∧
    (takeAbortUnit id s).1.rs = s.rs := by
  unfold takeAbortUnit
  repeat' split
  all_goals simp

@[simp] theorem takeAdvanceStep_frame (s : State) :
    (takeAdvanceStep s).1.pending = s.pending ∧ (takeAdvanceStep s).1.clockUs = s.clockUs ∧
    (takeAdvanceStep s).1.freeCount = s.freeCount ∧ (takeAdvanceStep s).1.lines = s.lines ∧ (takeAdvanceStep s).1.rs = s.rs ∧
    (takeAdvanceStep s).1.lkc = s.lkc ∧ (takeAdvanceStep s).1.reports = s.reports := by
  unfold takeAdvanceStep
  repeat' split
  all_goals simp

@[simp] theorem takeRestart_frame (s : State) :
    (takeRestart s).1.pending = s.pending ∧ (takeRestart s).1.clockUs = s.clockUs ∧
    (takeRestart s).1.freeCount = s.freeCount ∧ (takeRestart s).1.lines = s.lines ∧ (takeRestart s).1.ut = s.ut ∧
    (takeRestart s).1.rs = s.rs ∧ (takeRestart s).1.pe = s.pe ∧ (takeRestart s).1.afe = s.afe ∧ (takeRestart s).1.cs = s.cs ∧
    (takeRestart s).1.oa = s.oa ∧ (takeRestart s).1.lkc = s.lkc ∧ (takeRestart s).1.cu = s.cu ∧
    (takeRestart s).1.reports = s.reports := by simp [takeRestart]

@[simp] theorem takeLoadUnit_frame (slot : Byte) (serial : List Byte) (s : State) :
    (takeLoadUnit slot serial s).1.pending = s.pending ∧ (takeLoadUnit slot serial s).1.clockUs = s.clockUs ∧
    (takeLoadUnit slot serial s).1.freeCount = s.freeCount ∧ (takeLoadUnit slot serial s).1.lines = s.lines ∧
    (takeLoadUnit slot serial s).1.pe = s.pe ∧ (takeLoadUnit slot serial s).1.afe = s.afe ∧
    (takeLoadUnit slot serial s).1.oa = s.oa ∧ (takeLoadUnit slot serial s).1.lkc = s.lkc ∧
    (takeLoadUnit slot serial s).1.reports = s.reports := by
  unfold takeLoadUnit
  dsimp only
  repeat' split
  all_goals simp

@[simp] theorem take_frame (c : Command) (s : State) :
    (take c s).1.pending = s.pending ∧ (take c s).1.clockUs = s.clockUs ∧ (take c s).1.freeCount = s.freeCount ∧
    (take c s).1.lines = s.lines := by
  cases c <;> simp [Machine.take]

@[simp] theorem serve_frame (f : Frame) (s : State) :
    (serve f s).1.pending = s.pending ∧ (serve f s).1.clockUs = s.clockUs ∧ (serve f s).1.freeCount = s.freeCount ∧
    (serve f s).1.lines = s.lines := by
  unfold serve
  repeat' split
  all_goals simp

@[simp] theorem State.handle_frame (f : Frame) (s : State) :
    (s.handle f).pending = s.pending ∧ (s.handle f).clockUs = s.clockUs ∧ (s.handle f).freeCount = s.freeCount ∧
    (s.handle f).lines = s.lines := by simp [State.handle]

@[simp] theorem State.restartSilence_frame (s : State) :
    (s.restartSilence).pending = s.pending ∧ (s.restartSilence).clockUs = s.clockUs ∧
    (s.restartSilence).freeCount = s.freeCount ∧ (s.restartSilence).lines = s.lines ∧ (s.restartSilence).ut = s.ut ∧
    (s.restartSilence).rs = s.rs ∧ (s.restartSilence).pe = s.pe ∧ (s.restartSilence).afe = s.afe ∧
    (s.restartSilence).cs = s.cs ∧ (s.restartSilence).oa = s.oa ∧ (s.restartSilence).lkc = s.lkc ∧
    (s.restartSilence).cu = s.cu ∧ (s.restartSilence).reports = s.reports := by
  unfold State.restartSilence
  split <;> simp

@[simp] theorem State.badFrame_frame (s : State) :
    (s.badFrame).pending = s.pending ∧ (s.badFrame).clockUs = s.clockUs ∧ (s.badFrame).freeCount = s.freeCount ∧
    (s.badFrame).lines = s.lines ∧ (s.badFrame).ut = s.ut ∧ (s.badFrame).rs = s.rs ∧ (s.badFrame).pe = s.pe ∧
    (s.badFrame).afe = s.afe ∧ (s.badFrame).cs = s.cs ∧ (s.badFrame).oa = s.oa ∧ (s.badFrame).lkc = s.lkc ∧
    (s.badFrame).cu = s.cu ∧ (s.badFrame).reports = s.reports := by simp [State.badFrame]

@[simp] theorem State.offer_frame (f : Frame) (s : State) :
    (s.offer f).pending = s.pending ∧ (s.offer f).clockUs = s.clockUs ∧ (s.offer f).freeCount = s.freeCount ∧
    (s.offer f).lines = s.lines := by
  unfold State.offer
  split <;> simp

@[simp] theorem State.passFrame_frame (f : Frame) (s : State) :
    (s.passFrame f).pending = s.pending ∧ (s.passFrame f).clockUs = s.clockUs ∧ (s.passFrame f).freeCount = s.freeCount ∧
    (s.passFrame f).lines = s.lines := by
  unfold State.passFrame
  split <;> simp

@[simp] theorem State.arriveFrame_frame (f : Frame) (s : State) :
    (s.arriveFrame f).pending = s.pending ∧ (s.arriveFrame f).clockUs = s.clockUs ∧
    (s.arriveFrame f).freeCount = s.freeCount ∧ (s.arriveFrame f).lines = s.lines := by
  unfold State.arriveFrame
  split <;> simp

@[simp] theorem State.setReceiver_frame (r : Receiver) (s : State) :
    (s.setReceiver r).pending = s.pending ∧ (s.setReceiver r).clockUs = s.clockUs ∧
    (s.setReceiver r).freeCount = s.freeCount ∧ (s.setReceiver r).lines = s.lines ∧ (s.setReceiver r).ut = s.ut ∧
    (s.setReceiver r).rs = s.rs ∧ (s.setReceiver r).pe = s.pe ∧ (s.setReceiver r).afe = s.afe ∧ (s.setReceiver r).cs = s.cs ∧
    (s.setReceiver r).oa = s.oa ∧ (s.setReceiver r).lkc = s.lkc ∧ (s.setReceiver r).cu = s.cu ∧
    (s.setReceiver r).reports = s.reports := by simp [State.setReceiver]

@[simp] theorem State.takeHeader_frame (kind tag lo hi : Byte) (s : State) :
    (s.takeHeader kind tag lo hi).pending = s.pending ∧ (s.takeHeader kind tag lo hi).clockUs = s.clockUs ∧
    (s.takeHeader kind tag lo hi).freeCount = s.freeCount ∧ (s.takeHeader kind tag lo hi).lines = s.lines ∧
    (s.takeHeader kind tag lo hi).ut = s.ut ∧ (s.takeHeader kind tag lo hi).rs = s.rs ∧
    (s.takeHeader kind tag lo hi).pe = s.pe ∧ (s.takeHeader kind tag lo hi).afe = s.afe ∧
    (s.takeHeader kind tag lo hi).cs = s.cs ∧ (s.takeHeader kind tag lo hi).oa = s.oa ∧
    (s.takeHeader kind tag lo hi).lkc = s.lkc ∧ (s.takeHeader kind tag lo hi).cu = s.cu ∧
    (s.takeHeader kind tag lo hi).reports = s.reports := by
  unfold State.takeHeader
  dsimp only
  repeat' split
  all_goals simp

@[simp] theorem State.checkFrame_frame (f : Frame) (first second : Byte) (s : State) :
    (s.checkFrame f first second).pending = s.pending ∧ (s.checkFrame f first second).clockUs = s.clockUs ∧
    (s.checkFrame f first second).freeCount = s.freeCount ∧ (s.checkFrame f first second).lines = s.lines := by
  unfold State.checkFrame
  split <;> simp

@[simp] theorem State.takeByte_frame (s : State) (b : Byte) :
    (s.takeByte b).pending = s.pending ∧ (s.takeByte b).clockUs = s.clockUs ∧ (s.takeByte b).freeCount = s.freeCount ∧
    (s.takeByte b).lines = s.lines := by
  unfold State.takeByte
  repeat' split
  all_goals simp

@[simp] theorem State.takeBytes_frame (bytes : List Byte) (s : State) :
    (s.takeBytes bytes).pending = s.pending ∧ (s.takeBytes bytes).clockUs = s.clockUs ∧
    (s.takeBytes bytes).freeCount = s.freeCount ∧ (s.takeBytes bytes).lines = s.lines := by
  unfold State.takeBytes
  induction bytes generalizing s with
  | nil => simp
  | cons b bs ih => simp [ih]

@[simp] theorem State.gapTimeout_frame (s : State) :
    (s.gapTimeout).pending = s.pending ∧ (s.gapTimeout).clockUs = s.clockUs ∧ (s.gapTimeout).freeCount = s.freeCount ∧
    (s.gapTimeout).lines = s.lines ∧ (s.gapTimeout).ut = s.ut ∧ (s.gapTimeout).rs = s.rs ∧ (s.gapTimeout).pe = s.pe ∧
    (s.gapTimeout).afe = s.afe ∧ (s.gapTimeout).cs = s.cs ∧ (s.gapTimeout).oa = s.oa ∧ (s.gapTimeout).lkc = s.lkc ∧
    (s.gapTimeout).cu = s.cu ∧ (s.gapTimeout).reports = s.reports := by
  unfold State.gapTimeout
  split <;> simp

@[simp] theorem State.cleared_frame (s : State) :
    (s.cleared).pending = s.pending ∧ (s.cleared).freeCount = s.freeCount ∧
    (s.cleared).lines = s.lines := by simp [State.cleared]

@[simp] theorem State.doReset_frame (s : State) :
    (s.doReset).pending = s.pending ∧ (s.doReset).freeCount = s.freeCount ∧
    (s.doReset).lines = s.lines := by simp [State.doReset]

@[simp] theorem State.freeHead_frame (s : State) :
    (s.freeHead).pending = s.pending ∧ (s.freeHead).clockUs = s.clockUs ∧ (s.freeHead).freeCount = s.freeCount ∧
    (s.freeHead).lines = s.lines := by
  unfold State.freeHead
  dsimp only
  split <;> simp

@[simp] theorem State.frameSent_frame (s : State) :
    (s.frameSent).pending = s.pending ∧ (s.frameSent).freeCount = s.freeCount ∧ (s.frameSent).lines = s.lines := by
  unfold State.frameSent
  repeat' split
  all_goals simp

@[simp] theorem State.silenceExpiry_frame (s : State) :
    (s.silenceExpiry).pending = s.pending ∧ (s.silenceExpiry).freeCount = s.freeCount ∧ (s.silenceExpiry).lines = s.lines ∧
    (s.silenceExpiry).rs = s.rs := by
  unfold State.silenceExpiry
  split <;> simp

/-! ## Events of the stands -/

@[simp] theorem State.transferExpiry_frame (s : State) :
    (s.transferExpiry).pending = s.pending ∧ (s.transferExpiry).freeCount = s.freeCount ∧
    (s.transferExpiry).lines = s.lines ∧ (s.transferExpiry).rs = s.rs := by
  unfold State.transferExpiry
  split <;> simp

@[simp] theorem State.setpointDue_frame (s : State) :
    (s.setpointDue).pending = s.pending ∧ (s.setpointDue).freeCount = s.freeCount ∧ (s.setpointDue).lines = s.lines ∧
    (s.setpointDue).rs = s.rs ∧ (s.setpointDue).reports = s.reports := by simp [State.setpointDue]

@[simp] theorem State.judgeFeedback_frame (speed : Int) (s : State) :
    (s.judgeFeedback speed).pending = s.pending ∧ (s.judgeFeedback speed).clockUs = s.clockUs ∧
    (s.judgeFeedback speed).freeCount = s.freeCount ∧ (s.judgeFeedback speed).lines = s.lines ∧
    (s.judgeFeedback speed).lp = s.lp ∧ (s.judgeFeedback speed).ut = s.ut ∧ (s.judgeFeedback speed).rs = s.rs ∧
    (s.judgeFeedback speed).pe = s.pe ∧ (s.judgeFeedback speed).afe = s.afe ∧ (s.judgeFeedback speed).cs = s.cs ∧
    (s.judgeFeedback speed).oa = s.oa ∧ (s.judgeFeedback speed).lkc = s.lkc ∧
    (s.judgeFeedback speed).reports = s.reports := by simp [State.judgeFeedback]

@[simp] theorem State.feedbackArrives_frame (f : Feedback) (s : State) :
    (s.feedbackArrives f).pending = s.pending ∧ (s.feedbackArrives f).clockUs = s.clockUs ∧
    (s.feedbackArrives f).freeCount = s.freeCount ∧ (s.feedbackArrives f).lines = s.lines ∧
    (s.feedbackArrives f).rs = s.rs := by simp [State.feedbackArrives]

@[simp] theorem State.stepExpiry_frame (s : State) :
    (s.stepExpiry).pending = s.pending ∧ (s.stepExpiry).freeCount = s.freeCount ∧ (s.stepExpiry).lines = s.lines ∧
    (s.stepExpiry).rs = s.rs ∧ (s.stepExpiry).reports = s.reports := by
  unfold State.stepExpiry
  dsimp only
  repeat' split
  all_goals simp

@[simp] theorem State.settleExpiry_frame (s : State) :
    (s.settleExpiry).pending = s.pending ∧ (s.settleExpiry).freeCount = s.freeCount ∧ (s.settleExpiry).lines = s.lines ∧
    (s.settleExpiry).rs = s.rs ∧ (s.settleExpiry).reports = s.reports := by
  unfold State.settleExpiry
  split <;> simp

@[simp] theorem State.startSlot_frame (stream : SlotStream) (s : State) :
    (s.startSlot stream).pending = s.pending ∧ (s.startSlot stream).freeCount = s.freeCount ∧
    (s.startSlot stream).lines = s.lines ∧ (s.startSlot stream).rs = s.rs ∧ (s.startSlot stream).oa = s.oa ∧
    (s.startSlot stream).reports = s.reports := by
  unfold State.startSlot
  split <;> simp

@[simp] theorem State.endSlot_frame (stream : SlotStream) (s : State) :
    (s.endSlot stream).pending = s.pending ∧ (s.endSlot stream).freeCount = s.freeCount ∧
    (s.endSlot stream).lines = s.lines ∧ (s.endSlot stream).rs = s.rs ∧ (s.endSlot stream).oa = s.oa ∧
    (s.endSlot stream).reports = s.reports := by
  unfold State.endSlot
  split <;> simp

@[simp] theorem State.fillTimeout_frame (c : Fin 4) (s : State) :
    (s.fillTimeout c).pending = s.pending ∧ (s.fillTimeout c).freeCount = s.freeCount ∧ (s.fillTimeout c).lines = s.lines ∧
    (s.fillTimeout c).rs = s.rs ∧ (s.fillTimeout c).cs = s.cs ∧ (s.fillTimeout c).oa = s.oa ∧ (s.fillTimeout c).cu = s.cu ∧
    (s.fillTimeout c).reports = s.reports := by
  unfold State.fillTimeout
  split <;> simp

@[simp] theorem State.settleEnd_frame (c : Fin 4) (s : State) :
    (s.settleEnd c).pending = s.pending ∧ (s.settleEnd c).freeCount = s.freeCount ∧ (s.settleEnd c).lines = s.lines ∧
    (s.settleEnd c).rs = s.rs ∧ (s.settleEnd c).cs = s.cs ∧ (s.settleEnd c).oa = s.oa ∧ (s.settleEnd c).cu = s.cu ∧
    (s.settleEnd c).reports = s.reports := by
  unfold State.settleEnd
  split <;> simp

@[simp] theorem State.measureEnd_frame (c : Fin 4) (s : State) :
    (s.measureEnd c).pending = s.pending ∧ (s.measureEnd c).freeCount = s.freeCount ∧ (s.measureEnd c).lines = s.lines ∧
    (s.measureEnd c).rs = s.rs ∧ (s.measureEnd c).cs = s.cs ∧ (s.measureEnd c).oa = s.oa ∧ (s.measureEnd c).cu = s.cu ∧
    (s.measureEnd c).reports = s.reports := by
  unfold State.measureEnd
  split <;> simp

@[simp] theorem State.leaveVent_frame (c : Fin 4) (s : State) :
    (s.leaveVent c).pending = s.pending ∧ (s.leaveVent c).clockUs = s.clockUs ∧ (s.leaveVent c).freeCount = s.freeCount ∧
    (s.leaveVent c).lines = s.lines ∧ (s.leaveVent c).lp = s.lp ∧ (s.leaveVent c).ut = s.ut ∧ (s.leaveVent c).rs = s.rs ∧
    (s.leaveVent c).pe = s.pe ∧ (s.leaveVent c).afe = s.afe ∧ (s.leaveVent c).cs = s.cs ∧ (s.leaveVent c).oa = s.oa ∧
    (s.leaveVent c).cu = s.cu ∧ (s.leaveVent c).reports = s.reports := by
  unfold State.leaveVent
  split <;> simp

@[simp] theorem State.ventExpiry_frame (c : Fin 4) (s : State) :
    (s.ventExpiry c).pending = s.pending ∧ (s.ventExpiry c).freeCount = s.freeCount ∧ (s.ventExpiry c).lines = s.lines ∧
    (s.ventExpiry c).rs = s.rs ∧ (s.ventExpiry c).oa = s.oa := by
  unfold State.ventExpiry
  split <;> simp

@[simp] theorem State.resetVentEnd_frame (s : State) :
    (s.resetVentEnd).pending = s.pending ∧ (s.resetVentEnd).freeCount = s.freeCount ∧ (s.resetVentEnd).lines = s.lines ∧
    (s.resetVentEnd).rs = s.rs ∧ (s.resetVentEnd).cs = s.cs ∧ (s.resetVentEnd).oa = s.oa ∧ (s.resetVentEnd).cu = s.cu ∧
    (s.resetVentEnd).reports = s.reports := by
  unfold State.resetVentEnd
  split <;> simp

end Sys2Proof.Machine
end

