-- ==== Sys2Proof/Laws/Parts.lean ====
section
/-! SUPPORT. Finer frames: of a block that an operation does change, the parts that it leaves as they were. -/

namespace Sys2Proof.Machine

/-! ## Shared operations -/

@[simp] theorem State.raise_parts (key : NoticeKey) (content : NoticeContent) (s : State) :
    (s.raise key content).lp.receiver = s.lp.receiver ∧ (s.raise key content).lp.head = s.lp.head ∧
    (s.raise key content).lp.second = s.lp.second ∧ (s.raise key content).lp.badFrames = s.lp.badFrames ∧
    (s.raise key content).lp.overruns = s.lp.overruns ∧ (s.raise key content).lp.silence = s.lp.silence ∧
    (s.raise key content).lp.reply = s.lp.reply ∧ (s.raise key content).lp.sending = s.lp.sending ∧
    (s.raise key content).lp.restartDue = s.lp.restartDue := by simp [State.raise]

@[simp] theorem arbitrate_parts (s : State) :
    (arbitrate s).lp.receiver = s.lp.receiver ∧ (arbitrate s).lp.head = s.lp.head ∧ (arbitrate s).lp.second = s.lp.second ∧
    (arbitrate s).lp.badFrames = s.lp.badFrames ∧ (arbitrate s).lp.overruns = s.lp.overruns ∧
    (arbitrate s).lp.silence = s.lp.silence ∧ (arbitrate s).lp.restartDue = s.lp.restartDue := by
  unfold arbitrate
  split <;> simp

@[simp] theorem State.mapUnit_parts (i : Fin 8) (f : UnitRecord → UnitRecord) (s : State) :
    (s.mapUnit i f).ut.idCounter = s.ut.idCounter ∧ (s.mapUnit i f).ut.transferLine = s.ut.transferLine ∧
    (s.mapUnit i f).ut.transferTimer = s.ut.transferTimer := by simp [State.mapUnit]

@[simp] theorem State.unitNotice_parts (i : Fin 8) (s : State) :
    (s.unitNotice i).lp.receiver = s.lp.receiver ∧ (s.unitNotice i).lp.head = s.lp.head ∧
    (s.unitNotice i).lp.second = s.lp.second ∧ (s.unitNotice i).lp.badFrames = s.lp.badFrames ∧
    (s.unitNotice i).lp.overruns = s.lp.overruns ∧ (s.unitNotice i).lp.silence = s.lp.silence ∧
    (s.unitNotice i).lp.reply = s.lp.reply ∧ (s.unitNotice i).lp.sending = s.lp.sending ∧
    (s.unitNotice i).lp.restartDue = s.lp.restartDue := by
  unfold State.unitNotice
  split <;> simp

@[simp] theorem State.enterState_parts (i : Fin 8) (u : UnitState) (s : State) :
    (s.enterState i u).ut.idCounter = s.ut.idCounter ∧ (s.enterState i u).ut.transferLine = s.ut.transferLine ∧
    (s.enterState i u).ut.transferTimer = s.ut.transferTimer ∧ (s.enterState i u).lp.receiver = s.lp.receiver ∧
    (s.enterState i u).lp.head = s.lp.head ∧ (s.enterState i u).lp.second = s.lp.second ∧
    (s.enterState i u).lp.badFrames = s.lp.badFrames ∧ (s.enterState i u).lp.overruns = s.lp.overruns ∧
    (s.enterState i u).lp.silence = s.lp.silence ∧ (s.enterState i u).lp.reply = s.lp.reply ∧
    (s.enterState i u).lp.sending = s.lp.sending ∧
    (s.enterState i u).lp.restartDue = s.lp.restartDue := by simp [State.enterState]

/-! ## The Condition Unit -/

@[simp] theorem State.mapCond_parts (n : Fin 20) (f : Condition → Condition) (s : State) :
    (s.mapCond n f).cu.stack = s.cu.stack ∧ (s.mapCond n f).cu.rl = s.cu.rl ∧ (s.mapCond n f).cu.mask = s.cu.mask ∧
    (s.mapCond n f).cu.mode = s.cu.mode := by simp [State.mapCond]

@[simp] theorem State.changeCond_parts (n : Fin 20) (f : Condition → Condition) (s : State) :
    (s.changeCond n f).cu.stack = s.cu.stack ∧ (s.changeCond n f).cu.rl = s.cu.rl ∧ (s.changeCond n f).cu.mask = s.cu.mask ∧
    (s.changeCond n f).cu.mode = s.cu.mode := by simp [State.changeCond]

@[simp] theorem State.setSource_parts (n : Fin 20) (b : Bool) (s : State) :
    (s.setSource n b).cu.stack = s.cu.stack ∧ (s.setSource n b).cu.rl = s.cu.rl ∧ (s.setSource n b).cu.mask = s.cu.mask ∧
    (s.setSource n b).cu.mode = s.cu.mode := by simp [State.setSource]

@[simp] theorem State.sourceInstant_parts (n : Fin 20) (s : State) :
    (s.sourceInstant n).cu.stack = s.cu.stack ∧ (s.sourceInstant n).cu.rl = s.cu.rl ∧
    (s.sourceInstant n).cu.mask = s.cu.mask ∧ (s.sourceInstant n).cu.mode = s.cu.mode := by simp [State.sourceInstant]

@[simp] theorem State.interruptUnits_parts (n : Fin 20) (s : State) :
    (s.interruptUnits n).ut.idCounter = s.ut.idCounter ∧ (s.interruptUnits n).ut.transferLine = s.ut.transferLine ∧
    (s.interruptUnits n).ut.transferTimer = s.ut.transferTimer := by simp [State.interruptUnits]

@[simp] theorem State.take_parts (n : Fin 20) (s : State) :
    (s.take n).cu.mask = s.cu.mask ∧ (s.take n).cu.mode = s.cu.mode ∧ (s.take n).cu.conditions = s.cu.conditions ∧
    (s.take n).ut.idCounter = s.ut.idCounter ∧ (s.take n).ut.transferLine = s.ut.transferLine ∧
    (s.take n).ut.transferTimer = s.ut.transferTimer := by simp [State.take]

@[simp] theorem takeAll_parts (fuel : Nat) (s : State) :
    (takeAll fuel s).1.cu.mask = s.cu.mask ∧ (takeAll fuel s).1.cu.mode = s.cu.mode ∧
    (takeAll fuel s).1.cu.conditions = s.cu.conditions ∧ (takeAll fuel s).1.ut.idCounter = s.ut.idCounter ∧
    (takeAll fuel s).1.ut.transferLine = s.ut.transferLine ∧ (takeAll fuel s).1.ut.transferTimer = s.ut.transferTimer := by
  induction fuel generalizing s with
  | zero => simp [takeAll]
  | succ fuel ih =>
    unfold takeAll
    split
    · simp
    · simp [ih]

@[simp] theorem State.condNotice_parts (n : Fin 20) (s : State) :
    (s.condNotice n).lp.receiver = s.lp.receiver ∧ (s.condNotice n).lp.head = s.lp.head ∧
    (s.condNotice n).lp.second = s.lp.second ∧ (s.condNotice n).lp.badFrames = s.lp.badFrames ∧
    (s.condNotice n).lp.overruns = s.lp.overruns ∧ (s.condNotice n).lp.silence = s.lp.silence ∧
    (s.condNotice n).lp.reply = s.lp.reply ∧ (s.condNotice n).lp.sending = s.lp.sending ∧
    (s.condNotice n).lp.restartDue = s.lp.restartDue := by simp [State.condNotice]

@[simp] theorem foldl_condNotice_parts (ns : List (Fin 20)) (s : State) :
    (ns.foldl (fun t n => t.condNotice n) s).lp.receiver = s.lp.receiver ∧
    (ns.foldl (fun t n => t.condNotice n) s).lp.head = s.lp.head ∧
    (ns.foldl (fun t n => t.condNotice n) s).lp.second = s.lp.second ∧
    (ns.foldl (fun t n => t.condNotice n) s).lp.badFrames = s.lp.badFrames ∧
    (ns.foldl (fun t n => t.condNotice n) s).lp.overruns = s.lp.overruns ∧
    (ns.foldl (fun t n => t.condNotice n) s).lp.silence = s.lp.silence ∧
    (ns.foldl (fun t n => t.condNotice n) s).lp.reply = s.lp.reply ∧
    (ns.foldl (fun t n => t.condNotice n) s).lp.sending = s.lp.sending ∧
    (ns.foldl (fun t n => t.condNotice n) s).lp.restartDue = s.lp.restartDue := by
  induction ns generalizing s with
  | nil => simp
  | cons n ns ih => simp [ih]

@[simp] theorem State.takingCheck_parts (first : List (Fin 20)) (s : State) :
    (s.takingCheck first).cu.mask = s.cu.mask ∧ (s.takingCheck first).cu.mode = s.cu.mode ∧
    (s.takingCheck first).cu.conditions = s.cu.conditions ∧ (s.takingCheck first).ut.idCounter = s.ut.idCounter ∧
    (s.takingCheck first).ut.transferLine = s.ut.transferLine ∧ (s.takingCheck first).ut.transferTimer = s.ut.transferTimer ∧
    (s.takingCheck first).lp.receiver = s.lp.receiver ∧ (s.takingCheck first).lp.head = s.lp.head ∧
    (s.takingCheck first).lp.second = s.lp.second ∧ (s.takingCheck first).lp.badFrames = s.lp.badFrames ∧
    (s.takingCheck first).lp.overruns = s.lp.overruns ∧ (s.takingCheck first).lp.silence = s.lp.silence ∧
    (s.takingCheck first).lp.reply = s.lp.reply ∧ (s.takingCheck first).lp.sending = s.lp.sending ∧
    (s.takingCheck first).lp.restartDue = s.lp.restartDue := by simp [State.takingCheck]

@[simp] theorem checkIfActivated_parts (s t : State) :
    (checkIfActivated s t).cu.mask = t.cu.mask ∧ (checkIfActivated s t).cu.mode = t.cu.mode ∧
    (checkIfActivated s t).cu.conditions = t.cu.conditions ∧ (checkIfActivated s t).ut.idCounter = t.ut.idCounter ∧
    (checkIfActivated s t).ut.transferLine = t.ut.transferLine ∧
    (checkIfActivated s t).ut.transferTimer = t.ut.transferTimer ∧ (checkIfActivated s t).lp.receiver = t.lp.receiver ∧
    (checkIfActivated s t).lp.head = t.lp.head ∧ (checkIfActivated s t).lp.second = t.lp.second ∧
    (checkIfActivated s t).lp.badFrames = t.lp.badFrames ∧ (checkIfActivated s t).lp.overruns = t.lp.overruns ∧
    (checkIfActivated s t).lp.silence = t.lp.silence ∧ (checkIfActivated s t).lp.reply = t.lp.reply ∧
    (checkIfActivated s t).lp.sending = t.lp.sending ∧ (checkIfActivated s t).lp.restartDue = t.lp.restartDue := by
  unfold checkIfActivated
  split <;> simp

/-! ## The Capture Store -/

@[simp] theorem State.setStream_parts (st : StreamId) (x : Stream) (s : State) :
    (s.setStream st x).cs.vibDescs = s.cs.vibDescs ∧ (s.setStream st x).cs.slowDescs = s.cs.slowDescs ∧
    (s.setStream st x).cs.leakDescs = s.cs.leakDescs := by
  cases st <;> simp [State.setStream, CaptureStore.setStream]

@[simp] theorem State.streamNotice_parts (st : StreamId) (s : State) :
    (s.streamNotice st).lp.receiver = s.lp.receiver ∧ (s.streamNotice st).lp.head = s.lp.head ∧
    (s.streamNotice st).lp.second = s.lp.second ∧ (s.streamNotice st).lp.badFrames = s.lp.badFrames ∧
    (s.streamNotice st).lp.overruns = s.lp.overruns ∧ (s.streamNotice st).lp.silence = s.lp.silence ∧
    (s.streamNotice st).lp.reply = s.lp.reply ∧ (s.streamNotice st).lp.sending = s.lp.sending ∧
    (s.streamNotice st).lp.restartDue = s.lp.restartDue := by simp [State.streamNotice]

@[simp] theorem State.enterStream_parts (st : StreamId) (x : StreamState) (s : State) :
    (s.enterStream st x).cs.vibDescs = s.cs.vibDescs ∧ (s.enterStream st x).cs.slowDescs = s.cs.slowDescs ∧
    (s.enterStream st x).cs.leakDescs = s.cs.leakDescs ∧ (s.enterStream st x).cu.stack = s.cu.stack ∧
    (s.enterStream st x).cu.rl = s.cu.rl ∧ (s.enterStream st x).cu.mask = s.cu.mask ∧
    (s.enterStream st x).cu.mode = s.cu.mode := by
  unfold State.enterStream
  dsimp only
  repeat' split
  all_goals simp

@[simp] theorem State.syncStream_parts (st : StreamId) (s : State) :
    (s.syncStream st).cs.vibDescs = s.cs.vibDescs ∧ (s.syncStream st).cs.slowDescs = s.cs.slowDescs ∧
    (s.syncStream st).cs.leakDescs = s.cs.leakDescs ∧ (s.syncStream st).cu.stack = s.cu.stack ∧
    (s.syncStream st).cu.rl = s.cu.rl ∧ (s.syncStream st).cu.mask = s.cu.mask ∧ (s.syncStream st).cu.mode = s.cu.mode := by
  unfold State.syncStream
  split <;> simp

@[simp] theorem State.syncStreams_parts (s : State) :
    (s.syncStreams).cs.vibDescs = s.cs.vibDescs ∧ (s.syncStreams).cs.slowDescs = s.cs.slowDescs ∧
    (s.syncStreams).cs.leakDescs = s.cs.leakDescs ∧ (s.syncStreams).cu.stack = s.cu.stack ∧ (s.syncStreams).cu.rl = s.cu.rl ∧
    (s.syncStreams).cu.mask = s.cu.mask ∧ (s.syncStreams).cu.mode = s.cu.mode := by simp [State.syncStreams]

@[simp] theorem State.enterWanted_parts (st : StreamId) (s : State) :
    (s.enterWanted st).cs.vibDescs = s.cs.vibDescs ∧ (s.enterWanted st).cs.slowDescs = s.cs.slowDescs ∧
    (s.enterWanted st).cs.leakDescs = s.cs.leakDescs ∧ (s.enterWanted st).cu.stack = s.cu.stack ∧
    (s.enterWanted st).cu.rl = s.cu.rl ∧ (s.enterWanted st).cu.mask = s.cu.mask ∧ (s.enterWanted st).cu.mode = s.cu.mode ∧
    (s.enterWanted st).lp.receiver = s.lp.receiver ∧ (s.enterWanted st).lp.head = s.lp.head ∧
    (s.enterWanted st).lp.second = s.lp.second ∧ (s.enterWanted st).lp.badFrames = s.lp.badFrames ∧
    (s.enterWanted st).lp.overruns = s.lp.overruns ∧ (s.enterWanted st).lp.silence = s.lp.silence ∧
    (s.enterWanted st).lp.reply = s.lp.reply ∧ (s.enterWanted st).lp.sending = s.lp.sending ∧
    (s.enterWanted st).lp.restartDue = s.lp.restartDue := by
  unfold State.enterWanted
  split <;> simp

@[simp] theorem State.applyPlan_parts (st : StreamId) (p : Plan) (s : State) :
    (s.applyPlan st p).cs.vibDescs = s.cs.vibDescs ∧ (s.applyPlan st p).cs.slowDescs = s.cs.slowDescs ∧
    (s.applyPlan st p).cs.leakDescs = s.cs.leakDescs ∧ (s.applyPlan st p).cu.stack = s.cu.stack ∧
    (s.applyPlan st p).cu.rl = s.cu.rl ∧ (s.applyPlan st p).cu.mask = s.cu.mask ∧ (s.applyPlan st p).cu.mode = s.cu.mode ∧
    (s.applyPlan st p).lp.receiver = s.lp.receiver ∧ (s.applyPlan st p).lp.head = s.lp.head ∧
    (s.applyPlan st p).lp.second = s.lp.second ∧ (s.applyPlan st p).lp.badFrames = s.lp.badFrames ∧
    (s.applyPlan st p).lp.overruns = s.lp.overruns ∧ (s.applyPlan st p).lp.silence = s.lp.silence ∧
    (s.applyPlan st p).lp.reply = s.lp.reply ∧ (s.applyPlan st p).lp.sending = s.lp.sending ∧
    (s.applyPlan st p).lp.restartDue = s.lp.restartDue := by simp [State.applyPlan]

@[simp] theorem State.setTarget_parts (st : StreamId) (p : Plan) (s : State) :
    (s.setTarget st p).cs.vibDescs = s.cs.vibDescs ∧ (s.setTarget st p).cs.slowDescs = s.cs.slowDescs ∧
    (s.setTarget st p).cs.leakDescs = s.cs.leakDescs ∧ (s.setTarget st p).cu.stack = s.cu.stack ∧
    (s.setTarget st p).cu.rl = s.cu.rl ∧ (s.setTarget st p).cu.mask = s.cu.mask ∧ (s.setTarget st p).cu.mode = s.cu.mode ∧
    (s.setTarget st p).lp.receiver = s.lp.receiver ∧ (s.setTarget st p).lp.head = s.lp.head ∧
    (s.setTarget st p).lp.second = s.lp.second ∧ (s.setTarget st p).lp.badFrames = s.lp.badFrames ∧
    (s.setTarget st p).lp.overruns = s.lp.overruns ∧ (s.setTarget st p).lp.silence = s.lp.silence ∧
    (s.setTarget st p).lp.reply = s.lp.reply ∧ (s.setTarget st p).lp.sending = s.lp.sending ∧
    (s.setTarget st p).lp.restartDue = s.lp.restartDue := by
  unfold State.setTarget
  dsimp only
  repeat' split
  all_goals simp

@[simp] theorem State.checkPlan_parts (st : StreamId) (s : State) :
    (s.checkPlan st).cs.vibDescs = s.cs.vibDescs ∧ (s.checkPlan st).cs.slowDescs = s.cs.slowDescs ∧
    (s.checkPlan st).cs.leakDescs = s.cs.leakDescs ∧ (s.checkPlan st).cu.stack = s.cu.stack ∧
    (s.checkPlan st).cu.rl = s.cu.rl ∧ (s.checkPlan st).cu.mask = s.cu.mask ∧ (s.checkPlan st).cu.mode = s.cu.mode ∧
    (s.checkPlan st).lp.receiver = s.lp.receiver ∧ (s.checkPlan st).lp.head = s.lp.head ∧
    (s.checkPlan st).lp.second = s.lp.second ∧ (s.checkPlan st).lp.badFrames = s.lp.badFrames ∧
    (s.checkPlan st).lp.overruns = s.lp.overruns ∧ (s.checkPlan st).lp.silence = s.lp.silence ∧
    (s.checkPlan st).lp.reply = s.lp.reply ∧ (s.checkPlan st).lp.sending = s.lp.sending ∧
    (s.checkPlan st).lp.restartDue = s.lp.restartDue := by
  unfold State.checkPlan
  repeat' split
  all_goals simp

@[simp] theorem State.checkPlans_parts (s : State) :
    (s.checkPlans).cs.vibDescs = s.cs.vibDescs ∧ (s.checkPlans).cs.slowDescs = s.cs.slowDescs ∧
    (s.checkPlans).cs.leakDescs = s.cs.leakDescs ∧ (s.checkPlans).cu.stack = s.cu.stack ∧ (s.checkPlans).cu.rl = s.cu.rl ∧
    (s.checkPlans).cu.mask = s.cu.mask ∧ (s.checkPlans).cu.mode = s.cu.mode ∧ (s.checkPlans).lp.receiver = s.lp.receiver ∧
    (s.checkPlans).lp.head = s.lp.head ∧ (s.checkPlans).lp.second = s.lp.second ∧
    (s.checkPlans).lp.badFrames = s.lp.badFrames ∧ (s.checkPlans).lp.overruns = s.lp.overruns ∧
    (s.checkPlans).lp.silence = s.lp.silence ∧ (s.checkPlans).lp.reply = s.lp.reply ∧
    (s.checkPlans).lp.sending = s.lp.sending ∧ (s.checkPlans).lp.restartDue = s.lp.restartDue := by simp [State.checkPlans]

@[simp] theorem State.releaseVib_parts (d : Fin 32) (s : State) :
    (s.releaseVib d).cs.slowDescs = s.cs.slowDescs ∧ (s.releaseVib d).cs.leakDescs = s.cs.leakDescs ∧
    (s.releaseVib d).cu.stack = s.cu.stack ∧ (s.releaseVib d).cu.rl = s.cu.rl ∧ (s.releaseVib d).cu.mask = s.cu.mask ∧
    (s.releaseVib d).cu.mode = s.cu.mode ∧ (s.releaseVib d).lp.receiver = s.lp.receiver ∧
    (s.releaseVib d).lp.head = s.lp.head ∧ (s.releaseVib d).lp.second = s.lp.second ∧
    (s.releaseVib d).lp.badFrames = s.lp.badFrames ∧ (s.releaseVib d).lp.overruns = s.lp.overruns ∧
    (s.releaseVib d).lp.silence = s.lp.silence ∧ (s.releaseVib d).lp.reply = s.lp.reply ∧
    (s.releaseVib d).lp.sending = s.lp.sending ∧
    (s.releaseVib d).lp.restartDue = s.lp.restartDue := by simp [State.releaseVib]

@[simp] theorem State.releaseSlow_parts (d : Fin 8) (s : State) :
    (s.releaseSlow d).cs.vibDescs = s.cs.vibDescs ∧ (s.releaseSlow d).cs.leakDescs = s.cs.leakDescs ∧
    (s.releaseSlow d).cu.stack = s.cu.stack ∧ (s.releaseSlow d).cu.rl = s.cu.rl ∧ (s.releaseSlow d).cu.mask = s.cu.mask ∧
    (s.releaseSlow d).cu.mode = s.cu.mode ∧ (s.releaseSlow d).lp.receiver = s.lp.receiver ∧
    (s.releaseSlow d).lp.head = s.lp.head ∧ (s.releaseSlow d).lp.second = s.lp.second ∧
    (s.releaseSlow d).lp.badFrames = s.lp.badFrames ∧ (s.releaseSlow d).lp.overruns = s.lp.overruns ∧
    (s.releaseSlow d).lp.silence = s.lp.silence ∧ (s.releaseSlow d).lp.reply = s.lp.reply ∧
    (s.releaseSlow d).lp.sending = s.lp.sending ∧
    (s.releaseSlow d).lp.restartDue = s.lp.restartDue := by simp [State.releaseSlow]

@[simp] theorem State.releaseLeak_parts (d : Fin 8) (s : State) :
    (s.releaseLeak d).cs.vibDescs = s.cs.vibDescs ∧ (s.releaseLeak d).cs.slowDescs = s.cs.slowDescs ∧
    (s.releaseLeak d).cu.stack = s.cu.stack ∧ (s.releaseLeak d).cu.rl = s.cu.rl ∧ (s.releaseLeak d).cu.mask = s.cu.mask ∧
    (s.releaseLeak d).cu.mode = s.cu.mode ∧ (s.releaseLeak d).lp.receiver = s.lp.receiver ∧
    (s.releaseLeak d).lp.head = s.lp.head ∧ (s.releaseLeak d).lp.second = s.lp.second ∧
    (s.releaseLeak d).lp.badFrames = s.lp.badFrames ∧ (s.releaseLeak d).lp.overruns = s.lp.overruns ∧
    (s.releaseLeak d).lp.silence = s.lp.silence ∧ (s.releaseLeak d).lp.reply = s.lp.reply ∧
    (s.releaseLeak d).lp.sending = s.lp.sending ∧
    (s.releaseLeak d).lp.restartDue = s.lp.restartDue := by simp [State.releaseLeak]

@[simp] theorem State.dropRecord_parts (st : StreamId) (starves : Bool) (s : State) :
    (s.dropRecord st starves).cs.vibDescs = s.cs.vibDescs ∧ (s.dropRecord st starves).cs.slowDescs = s.cs.slowDescs ∧
    (s.dropRecord st starves).cs.leakDescs = s.cs.leakDescs ∧ (s.dropRecord st starves).cu.stack = s.cu.stack ∧
    (s.dropRecord st starves).cu.rl = s.cu.rl ∧ (s.dropRecord st starves).cu.mask = s.cu.mask ∧
    (s.dropRecord st starves).cu.mode = s.cu.mode ∧ (s.dropRecord st starves).lp.receiver = s.lp.receiver ∧
    (s.dropRecord st starves).lp.head = s.lp.head ∧ (s.dropRecord st starves).lp.second = s.lp.second ∧
    (s.dropRecord st starves).lp.badFrames = s.lp.badFrames ∧ (s.dropRecord st starves).lp.overruns = s.lp.overruns ∧
    (s.dropRecord st starves).lp.silence = s.lp.silence ∧ (s.dropRecord st starves).lp.reply = s.lp.reply ∧
    (s.dropRecord st starves).lp.sending = s.lp.sending ∧ (s.dropRecord st starves).lp.restartDue = s.lp.restartDue := by
  unfold State.dropRecord
  split <;> simp

@[simp] theorem State.resumeStream_parts (st : StreamId) (resumed : Bool) (s : State) :
    (s.resumeStream st resumed).cs.vibDescs = s.cs.vibDescs ∧ (s.resumeStream st resumed).cs.slowDescs = s.cs.slowDescs ∧
    (s.resumeStream st resumed).cs.leakDescs = s.cs.leakDescs ∧ (s.resumeStream st resumed).cu.stack = s.cu.stack ∧
    (s.resumeStream st resumed).cu.rl = s.cu.rl ∧ (s.resumeStream st resumed).cu.mask = s.cu.mask ∧
    (s.resumeStream st resumed).cu.mode = s.cu.mode ∧ (s.resumeStream st resumed).lp.receiver = s.lp.receiver ∧
    (s.resumeStream st resumed).lp.head = s.lp.head ∧ (s.resumeStream st resumed).lp.second = s.lp.second ∧
    (s.resumeStream st resumed).lp.badFrames = s.lp.badFrames ∧ (s.resumeStream st resumed).lp.overruns = s.lp.overruns ∧
    (s.resumeStream st resumed).lp.silence = s.lp.silence ∧ (s.resumeStream st resumed).lp.reply = s.lp.reply ∧
    (s.resumeStream st resumed).lp.sending = s.lp.sending ∧ (s.resumeStream st resumed).lp.restartDue = s.lp.restartDue := by
  unfold State.resumeStream
  split <;> simp

/-! ## The Order Analyzer -/

@[simp] theorem State.mapWindow_parts (n : Nat) (f : Window → Window) (s : State) :
    (s.mapWindow n f).oa.queue = s.oa.queue ∧ (s.mapWindow n f).oa.current = s.oa.current := by
  simp [State.mapWindow, OrderAnalyzer.mapWindow]

@[simp] theorem State.setUpWindows_parts (r : Recipe) (s : State) :
    (s.setUpWindows r).oa.queue = s.oa.queue ∧ (s.setUpWindows r).oa.current = s.oa.current := by simp [State.setUpWindows]

@[simp] theorem State.mapNoise_parts (f : Noise → Noise) (s : State) :
    (s.mapNoise f).ut.idCounter = s.ut.idCounter ∧ (s.mapNoise f).ut.transferLine = s.ut.transferLine ∧
    (s.mapNoise f).ut.transferTimer = s.ut.transferTimer := by
  unfold State.mapNoise
  split <;> simp

@[simp] theorem State.closeTable_parts (s : State) :
    (s.closeTable).ut.idCounter = s.ut.idCounter ∧ (s.closeTable).ut.transferLine = s.ut.transferLine ∧
    (s.closeTable).ut.transferTimer = s.ut.transferTimer ∧ (s.closeTable).oa.queue = s.oa.queue ∧
    (s.closeTable).oa.current = s.oa.current := by
  unfold State.closeTable
  split <;> simp

@[simp] theorem State.gradeWindow_parts (n : Nat) (s : State) :
    (s.gradeWindow n).ut.idCounter = s.ut.idCounter ∧ (s.gradeWindow n).ut.transferLine = s.ut.transferLine ∧
    (s.gradeWindow n).ut.transferTimer = s.ut.transferTimer ∧ (s.gradeWindow n).oa.queue = s.oa.queue ∧
    (s.gradeWindow n).oa.current = s.oa.current := by
  unfold State.gradeWindow
  split <;> simp

@[simp] theorem State.openWindow_parts (n : Nat) (s : State) :
    (s.openWindow n).oa.queue = s.oa.queue ∧ (s.openWindow n).oa.current = s.oa.current ∧
    (s.openWindow n).cs.vibDescs = s.cs.vibDescs ∧ (s.openWindow n).cs.slowDescs = s.cs.slowDescs ∧
    (s.openWindow n).cs.leakDescs = s.cs.leakDescs ∧ (s.openWindow n).cu.stack = s.cu.stack ∧
    (s.openWindow n).cu.rl = s.cu.rl ∧ (s.openWindow n).cu.mask = s.cu.mask ∧
    (s.openWindow n).cu.mode = s.cu.mode := by simp [State.openWindow]

@[simp] theorem State.pauseWindow_parts (n : Nat) (s : State) :
    (s.pauseWindow n).oa.queue = s.oa.queue ∧ (s.pauseWindow n).oa.current = s.oa.current ∧
    (s.pauseWindow n).cs.vibDescs = s.cs.vibDescs ∧ (s.pauseWindow n).cs.slowDescs = s.cs.slowDescs ∧
    (s.pauseWindow n).cs.leakDescs = s.cs.leakDescs ∧ (s.pauseWindow n).cu.stack = s.cu.stack ∧
    (s.pauseWindow n).cu.rl = s.cu.rl ∧ (s.pauseWindow n).cu.mask = s.cu.mask ∧
    (s.pauseWindow n).cu.mode = s.cu.mode := by simp [State.pauseWindow]

@[simp] theorem State.abandonOpen_parts (s : State) :
    (s.abandonOpen).afe.live = s.afe.live ∧ (s.abandonOpen).afe.faults = s.afe.faults ∧
    (s.abandonOpen).afe.feedback = s.afe.feedback ∧ (s.abandonOpen).afe.pulses = s.afe.pulses ∧
    (s.abandonOpen).afe.revolution = s.afe.revolution ∧ (s.abandonOpen).afe.slowTaken = s.afe.slowTaken ∧
    (s.abandonOpen).afe.leakTaken = s.afe.leakTaken ∧ (s.abandonOpen).afe.slowSlot = s.afe.slowSlot ∧
    (s.abandonOpen).afe.leakSlot = s.afe.leakSlot ∧ (s.abandonOpen).afe.slowEnded = s.afe.slowEnded ∧
    (s.abandonOpen).afe.leakEnded = s.afe.leakEnded ∧ (s.abandonOpen).cs.slowDescs = s.cs.slowDescs ∧
    (s.abandonOpen).cs.leakDescs = s.cs.leakDescs ∧ (s.abandonOpen).cu.stack = s.cu.stack ∧ (s.abandonOpen).cu.rl = s.cu.rl ∧
    (s.abandonOpen).cu.mask = s.cu.mask ∧ (s.abandonOpen).cu.mode = s.cu.mode ∧ (s.abandonOpen).lp.receiver = s.lp.receiver ∧
    (s.abandonOpen).lp.head = s.lp.head ∧ (s.abandonOpen).lp.second = s.lp.second ∧
    (s.abandonOpen).lp.badFrames = s.lp.badFrames ∧ (s.abandonOpen).lp.overruns = s.lp.overruns ∧
    (s.abandonOpen).lp.silence = s.lp.silence ∧ (s.abandonOpen).lp.reply = s.lp.reply ∧
    (s.abandonOpen).lp.sending = s.lp.sending ∧ (s.abandonOpen).lp.restartDue = s.lp.restartDue := by
  unfold State.abandonOpen
  split <;> simp

@[simp] theorem State.abandonFor_parts (n : Nat) (s : State) :
    (s.abandonFor n).afe.live = s.afe.live ∧ (s.abandonFor n).afe.faults = s.afe.faults ∧
    (s.abandonFor n).afe.feedback = s.afe.feedback ∧ (s.abandonFor n).afe.pulses = s.afe.pulses ∧
    (s.abandonFor n).afe.revolution = s.afe.revolution ∧ (s.abandonFor n).afe.slowTaken = s.afe.slowTaken ∧
    (s.abandonFor n).afe.leakTaken = s.afe.leakTaken ∧ (s.abandonFor n).afe.slowSlot = s.afe.slowSlot ∧
    (s.abandonFor n).afe.leakSlot = s.afe.leakSlot ∧ (s.abandonFor n).afe.slowEnded = s.afe.slowEnded ∧
    (s.abandonFor n).afe.leakEnded = s.afe.leakEnded ∧ (s.abandonFor n).cs.slowDescs = s.cs.slowDescs ∧
    (s.abandonFor n).cs.leakDescs = s.cs.leakDescs ∧ (s.abandonFor n).cu.stack = s.cu.stack ∧
    (s.abandonFor n).cu.rl = s.cu.rl ∧ (s.abandonFor n).cu.mask = s.cu.mask ∧ (s.abandonFor n).cu.mode = s.cu.mode ∧
    (s.abandonFor n).lp.receiver = s.lp.receiver ∧ (s.abandonFor n).lp.head = s.lp.head ∧
    (s.abandonFor n).lp.second = s.lp.second ∧ (s.abandonFor n).lp.badFrames = s.lp.badFrames ∧
    (s.abandonFor n).lp.overruns = s.lp.overruns ∧ (s.abandonFor n).lp.silence = s.lp.silence ∧
    (s.abandonFor n).lp.reply = s.lp.reply ∧ (s.abandonFor n).lp.sending = s.lp.sending ∧
    (s.abandonFor n).lp.restartDue = s.lp.restartDue := by
  unfold State.abandonFor
  repeat' split
  all_goals simp

@[simp] theorem State.closeWindow_parts (n : Nat) (s : State) :
    (s.closeWindow n).afe.live = s.afe.live ∧ (s.closeWindow n).afe.faults = s.afe.faults ∧
    (s.closeWindow n).afe.feedback = s.afe.feedback ∧ (s.closeWindow n).afe.pulses = s.afe.pulses ∧
    (s.closeWindow n).afe.revolution = s.afe.revolution ∧ (s.closeWindow n).afe.slowTaken = s.afe.slowTaken ∧
    (s.closeWindow n).afe.leakTaken = s.afe.leakTaken ∧ (s.closeWindow n).afe.slowSlot = s.afe.slowSlot ∧
    (s.closeWindow n).afe.leakSlot = s.afe.leakSlot ∧ (s.closeWindow n).afe.slowEnded = s.afe.slowEnded ∧
    (s.closeWindow n).afe.leakEnded = s.afe.leakEnded ∧ (s.closeWindow n).cs.slowDescs = s.cs.slowDescs ∧
    (s.closeWindow n).cs.leakDescs = s.cs.leakDescs ∧ (s.closeWindow n).cu.stack = s.cu.stack ∧
    (s.closeWindow n).cu.rl = s.cu.rl ∧ (s.closeWindow n).cu.mask = s.cu.mask ∧ (s.closeWindow n).cu.mode = s.cu.mode ∧
    (s.closeWindow n).lp.receiver = s.lp.receiver ∧ (s.closeWindow n).lp.head = s.lp.head ∧
    (s.closeWindow n).lp.second = s.lp.second ∧ (s.closeWindow n).lp.badFrames = s.lp.badFrames ∧
    (s.closeWindow n).lp.overruns = s.lp.overruns ∧ (s.closeWindow n).lp.silence = s.lp.silence ∧
    (s.closeWindow n).lp.reply = s.lp.reply ∧ (s.closeWindow n).lp.sending = s.lp.sending ∧
    (s.closeWindow n).lp.restartDue = s.lp.restartDue ∧ (s.closeWindow n).ut.idCounter = s.ut.idCounter ∧
    (s.closeWindow n).ut.transferLine = s.ut.transferLine ∧ (s.closeWindow n).ut.transferTimer = s.ut.transferTimer ∧
    (s.closeWindow n).oa.queue = s.oa.queue ∧ (s.closeWindow n).oa.current = s.oa.current := by
  unfold State.closeWindow
  repeat' split
  all_goals simp

@[simp] theorem foldl_closeWindow_parts (ns : List Nat) (s : State) :
    (ns.foldl (fun t n => t.closeWindow n) s).afe.live = s.afe.live ∧
    (ns.foldl (fun t n => t.closeWindow n) s).afe.faults = s.afe.faults ∧
    (ns.foldl (fun t n => t.closeWindow n) s).afe.feedback = s.afe.feedback ∧
    (ns.foldl (fun t n => t.closeWindow n) s).afe.pulses = s.afe.pulses ∧
    (ns.foldl (fun t n => t.closeWindow n) s).afe.revolution = s.afe.revolution ∧
    (ns.foldl (fun t n => t.closeWindow n) s).afe.slowTaken = s.afe.slowTaken ∧
    (ns.foldl (fun t n => t.closeWindow n) s).afe.leakTaken = s.afe.leakTaken ∧
    (ns.foldl (fun t n => t.closeWindow n) s).afe.slowSlot = s.afe.slowSlot ∧
    (ns.foldl (fun t n => t.closeWindow n) s).afe.leakSlot = s.afe.leakSlot ∧
    (ns.foldl (fun t n => t.closeWindow n) s).afe.slowEnded = s.afe.slowEnded ∧
    (ns.foldl (fun t n => t.closeWindow n) s).afe.leakEnded = s.afe.leakEnded ∧
    (ns.foldl (fun t n => t.closeWindow n) s).cs.slowDescs = s.cs.slowDescs ∧
    (ns.foldl (fun t n => t.closeWindow n) s).cs.leakDescs = s.cs.leakDescs ∧
    (ns.foldl (fun t n => t.closeWindow n) s).cu.stack = s.cu.stack ∧
    (ns.foldl (fun t n => t.closeWindow n) s).cu.rl = s.cu.rl ∧
    (ns.foldl (fun t n => t.closeWindow n) s).cu.mask = s.cu.mask ∧
    (ns.foldl (fun t n => t.closeWindow n) s).cu.mode = s.cu.mode ∧
    (ns.foldl (fun t n => t.closeWindow n) s).lp.receiver = s.lp.receiver ∧
    (ns.foldl (fun t n => t.closeWindow n) s).lp.head = s.lp.head ∧
    (ns.foldl (fun t n => t.closeWindow n) s).lp.second = s.lp.second ∧
    (ns.foldl (fun t n => t.closeWindow n) s).lp.badFrames = s.lp.badFrames ∧
    (ns.foldl (fun t n => t.closeWindow n) s).lp.overruns = s.lp.overruns ∧
    (ns.foldl (fun t n => t.closeWindow n) s).lp.silence = s.lp.silence ∧
    (ns.foldl (fun t n => t.closeWindow n) s).lp.reply = s.lp.reply ∧
    (ns.foldl (fun t n => t.closeWindow n) s).lp.sending = s.lp.sending ∧
    (ns.foldl (fun t n => t.closeWindow n) s).lp.restartDue = s.lp.restartDue ∧
    (ns.foldl (fun t n => t.closeWindow n) s).ut.idCounter = s.ut.idCounter ∧
    (ns.foldl (fun t n => t.closeWindow n) s).ut.transferLine = s.ut.transferLine ∧
    (ns.foldl (fun t n => t.closeWindow n) s).ut.transferTimer = s.ut.transferTimer ∧
    (ns.foldl (fun t n => t.closeWindow n) s).oa.queue = s.oa.queue ∧
    (ns.foldl (fun t n => t.closeWindow n) s).oa.current = s.oa.current := by
  induction ns generalizing s with
  | nil => simp
  | cons n ns ih => simp [ih]

@[simp] theorem State.closeAll_parts (s : State) :
    (s.closeAll).afe.live = s.afe.live ∧ (s.closeAll).afe.faults = s.afe.faults ∧
    (s.closeAll).afe.feedback = s.afe.feedback ∧ (s.closeAll).afe.pulses = s.afe.pulses ∧
    (s.closeAll).afe.revolution = s.afe.revolution ∧ (s.closeAll).afe.slowTaken = s.afe.slowTaken ∧
    (s.closeAll).afe.leakTaken = s.afe.leakTaken ∧ (s.closeAll).afe.slowSlot = s.afe.slowSlot ∧
    (s.closeAll).afe.leakSlot = s.afe.leakSlot ∧ (s.closeAll).afe.slowEnded = s.afe.slowEnded ∧
    (s.closeAll).afe.leakEnded = s.afe.leakEnded ∧ (s.closeAll).cs.slowDescs = s.cs.slowDescs ∧
    (s.closeAll).cs.leakDescs = s.cs.leakDescs ∧ (s.closeAll).cu.stack = s.cu.stack ∧ (s.closeAll).cu.rl = s.cu.rl ∧
    (s.closeAll).cu.mask = s.cu.mask ∧ (s.closeAll).cu.mode = s.cu.mode ∧ (s.closeAll).lp.receiver = s.lp.receiver ∧
    (s.closeAll).lp.head = s.lp.head ∧ (s.closeAll).lp.second = s.lp.second ∧ (s.closeAll).lp.badFrames = s.lp.badFrames ∧
    (s.closeAll).lp.overruns = s.lp.overruns ∧ (s.closeAll).lp.silence = s.lp.silence ∧ (s.closeAll).lp.reply = s.lp.reply ∧
    (s.closeAll).lp.sending = s.lp.sending ∧ (s.closeAll).lp.restartDue = s.lp.restartDue ∧
    (s.closeAll).ut.idCounter = s.ut.idCounter ∧ (s.closeAll).ut.transferLine = s.ut.transferLine ∧
    (s.closeAll).ut.transferTimer = s.ut.transferTimer ∧ (s.closeAll).oa.queue = s.oa.queue ∧
    (s.closeAll).oa.current = s.oa.current := by simp [State.closeAll]

@[simp] theorem State.closeIfDrained_parts (n : Nat) (s : State) :
    (s.closeIfDrained n).ut.idCounter = s.ut.idCounter ∧ (s.closeIfDrained n).ut.transferLine = s.ut.transferLine ∧
    (s.closeIfDrained n).ut.transferTimer = s.ut.transferTimer ∧ (s.closeIfDrained n).oa.queue = s.oa.queue ∧
    (s.closeIfDrained n).oa.current = s.oa.current := by
  unfold State.closeIfDrained
  repeat' split
  all_goals simp

@[simp] theorem State.rejectRecord_parts (d : Fin 32) (n : Nat) (why : Reject) (s : State) :
    (s.rejectRecord d n why).oa.queue = s.oa.queue ∧ (s.rejectRecord d n why).oa.current = s.oa.current ∧
    (s.rejectRecord d n why).cs.slowDescs = s.cs.slowDescs ∧ (s.rejectRecord d n why).cs.leakDescs = s.cs.leakDescs ∧
    (s.rejectRecord d n why).cu.stack = s.cu.stack ∧ (s.rejectRecord d n why).cu.rl = s.cu.rl ∧
    (s.rejectRecord d n why).cu.mask = s.cu.mask ∧ (s.rejectRecord d n why).cu.mode = s.cu.mode ∧
    (s.rejectRecord d n why).lp.receiver = s.lp.receiver ∧ (s.rejectRecord d n why).lp.head = s.lp.head ∧
    (s.rejectRecord d n why).lp.second = s.lp.second ∧ (s.rejectRecord d n why).lp.badFrames = s.lp.badFrames ∧
    (s.rejectRecord d n why).lp.overruns = s.lp.overruns ∧ (s.rejectRecord d n why).lp.silence = s.lp.silence ∧
    (s.rejectRecord d n why).lp.reply = s.lp.reply ∧ (s.rejectRecord d n why).lp.sending = s.lp.sending ∧
    (s.rejectRecord d n why).lp.restartDue = s.lp.restartDue ∧ (s.rejectRecord d n why).ut.idCounter = s.ut.idCounter ∧
    (s.rejectRecord d n why).ut.transferLine = s.ut.transferLine ∧
    (s.rejectRecord d n why).ut.transferTimer = s.ut.transferTimer := by simp [State.rejectRecord]

@[simp] theorem pump_parts (fuel : Nat) (s : State) :
    (pump fuel s).cs.slowDescs = s.cs.slowDescs ∧ (pump fuel s).cs.leakDescs = s.cs.leakDescs ∧
    (pump fuel s).cu.stack = s.cu.stack ∧ (pump fuel s).cu.rl = s.cu.rl ∧ (pump fuel s).cu.mask = s.cu.mask ∧
    (pump fuel s).cu.mode = s.cu.mode ∧ (pump fuel s).lp.receiver = s.lp.receiver ∧ (pump fuel s).lp.head = s.lp.head ∧
    (pump fuel s).lp.second = s.lp.second ∧ (pump fuel s).lp.badFrames = s.lp.badFrames ∧
    (pump fuel s).lp.overruns = s.lp.overruns ∧ (pump fuel s).lp.silence = s.lp.silence ∧
    (pump fuel s).lp.reply = s.lp.reply ∧ (pump fuel s).lp.sending = s.lp.sending ∧
    (pump fuel s).lp.restartDue = s.lp.restartDue ∧ (pump fuel s).ut.idCounter = s.ut.idCounter ∧
    (pump fuel s).ut.transferLine = s.ut.transferLine ∧ (pump fuel s).ut.transferTimer = s.ut.transferTimer := by
  induction fuel generalizing s with
  | zero => simp [pump]
  | succ fuel ih =>
    unfold pump
    dsimp only
    repeat' split
    all_goals simp [ih]

@[simp] theorem State.takeHeads_parts (s : State) :
    (s.takeHeads).cs.slowDescs = s.cs.slowDescs ∧ (s.takeHeads).cs.leakDescs = s.cs.leakDescs ∧
    (s.takeHeads).cu.stack = s.cu.stack ∧ (s.takeHeads).cu.rl = s.cu.rl ∧ (s.takeHeads).cu.mask = s.cu.mask ∧
    (s.takeHeads).cu.mode = s.cu.mode ∧ (s.takeHeads).lp.receiver = s.lp.receiver ∧ (s.takeHeads).lp.head = s.lp.head ∧
    (s.takeHeads).lp.second = s.lp.second ∧ (s.takeHeads).lp.badFrames = s.lp.badFrames ∧
    (s.takeHeads).lp.overruns = s.lp.overruns ∧ (s.takeHeads).lp.silence = s.lp.silence ∧
    (s.takeHeads).lp.reply = s.lp.reply ∧ (s.takeHeads).lp.sending = s.lp.sending ∧
    (s.takeHeads).lp.restartDue = s.lp.restartDue ∧ (s.takeHeads).ut.idCounter = s.ut.idCounter ∧
    (s.takeHeads).ut.transferLine = s.ut.transferLine ∧
    (s.takeHeads).ut.transferTimer = s.ut.transferTimer := by simp [State.takeHeads]

@[simp] theorem State.deliverVib_parts (d : Fin 32) (s : State) :
    (s.deliverVib d).cs.slowDescs = s.cs.slowDescs ∧ (s.deliverVib d).cs.leakDescs = s.cs.leakDescs ∧
    (s.deliverVib d).cu.stack = s.cu.stack ∧ (s.deliverVib d).cu.rl = s.cu.rl ∧ (s.deliverVib d).cu.mask = s.cu.mask ∧
    (s.deliverVib d).cu.mode = s.cu.mode ∧ (s.deliverVib d).lp.receiver = s.lp.receiver ∧
    (s.deliverVib d).lp.head = s.lp.head ∧ (s.deliverVib d).lp.second = s.lp.second ∧
    (s.deliverVib d).lp.badFrames = s.lp.badFrames ∧ (s.deliverVib d).lp.overruns = s.lp.overruns ∧
    (s.deliverVib d).lp.silence = s.lp.silence ∧ (s.deliverVib d).lp.reply = s.lp.reply ∧
    (s.deliverVib d).lp.sending = s.lp.sending ∧ (s.deliverVib d).lp.restartDue = s.lp.restartDue ∧
    (s.deliverVib d).ut.idCounter = s.ut.idCounter ∧ (s.deliverVib d).ut.transferLine = s.ut.transferLine ∧
    (s.deliverVib d).ut.transferTimer = s.ut.transferTimer := by
  unfold State.deliverVib
  repeat' split
  all_goals simp

@[simp] theorem foldl_releaseVib_parts (ds : List (Fin 32)) (s : State) :
    (ds.foldl (fun t d => t.releaseVib d) s).cs.slowDescs = s.cs.slowDescs ∧
    (ds.foldl (fun t d => t.releaseVib d) s).cs.leakDescs = s.cs.leakDescs ∧
    (ds.foldl (fun t d => t.releaseVib d) s).cu.stack = s.cu.stack ∧
    (ds.foldl (fun t d => t.releaseVib d) s).cu.rl = s.cu.rl ∧ (ds.foldl (fun t d => t.releaseVib d) s).cu.mask = s.cu.mask ∧
    (ds.foldl (fun t d => t.releaseVib d) s).cu.mode = s.cu.mode ∧
    (ds.foldl (fun t d => t.releaseVib d) s).lp.receiver = s.lp.receiver ∧
    (ds.foldl (fun t d => t.releaseVib d) s).lp.head = s.lp.head ∧
    (ds.foldl (fun t d => t.releaseVib d) s).lp.second = s.lp.second ∧
    (ds.foldl (fun t d => t.releaseVib d) s).lp.badFrames = s.lp.badFrames ∧
    (ds.foldl (fun t d => t.releaseVib d) s).lp.overruns = s.lp.overruns ∧
    (ds.foldl (fun t d => t.releaseVib d) s).lp.silence = s.lp.silence ∧
    (ds.foldl (fun t d => t.releaseVib d) s).lp.reply = s.lp.reply ∧
    (ds.foldl (fun t d => t.releaseVib d) s).lp.sending = s.lp.sending ∧
    (ds.foldl (fun t d => t.releaseVib d) s).lp.restartDue = s.lp.restartDue := by
  induction ds generalizing s with
  | nil => simp
  | cons d ds ih => simp [ih]

@[simp] theorem State.releaseSurplus_parts (n : Nat) (s : State) :
    (s.releaseSurplus n).oa.current = s.oa.current ∧ (s.releaseSurplus n).cs.slowDescs = s.cs.slowDescs ∧
    (s.releaseSurplus n).cs.leakDescs = s.cs.leakDescs ∧ (s.releaseSurplus n).cu.stack = s.cu.stack ∧
    (s.releaseSurplus n).cu.rl = s.cu.rl ∧ (s.releaseSurplus n).cu.mask = s.cu.mask ∧
    (s.releaseSurplus n).cu.mode = s.cu.mode ∧ (s.releaseSurplus n).lp.receiver = s.lp.receiver ∧
    (s.releaseSurplus n).lp.head = s.lp.head ∧ (s.releaseSurplus n).lp.second = s.lp.second ∧
    (s.releaseSurplus n).lp.badFrames = s.lp.badFrames ∧ (s.releaseSurplus n).lp.overruns = s.lp.overruns ∧
    (s.releaseSurplus n).lp.silence = s.lp.silence ∧ (s.releaseSurplus n).lp.reply = s.lp.reply ∧
    (s.releaseSurplus n).lp.sending = s.lp.sending ∧
    (s.releaseSurplus n).lp.restartDue = s.lp.restartDue := by simp [State.releaseSurplus]

@[simp] theorem State.afterAccept_parts (n : Nat) (s : State) :
    (s.afterAccept n).oa.current = s.oa.current ∧ (s.afterAccept n).cs.slowDescs = s.cs.slowDescs ∧
    (s.afterAccept n).cs.leakDescs = s.cs.leakDescs ∧ (s.afterAccept n).cu.stack = s.cu.stack ∧
    (s.afterAccept n).cu.rl = s.cu.rl ∧ (s.afterAccept n).cu.mask = s.cu.mask ∧ (s.afterAccept n).cu.mode = s.cu.mode ∧
    (s.afterAccept n).lp.receiver = s.lp.receiver ∧ (s.afterAccept n).lp.head = s.lp.head ∧
    (s.afterAccept n).lp.second = s.lp.second ∧ (s.afterAccept n).lp.badFrames = s.lp.badFrames ∧
    (s.afterAccept n).lp.overruns = s.lp.overruns ∧ (s.afterAccept n).lp.silence = s.lp.silence ∧
    (s.afterAccept n).lp.reply = s.lp.reply ∧ (s.afterAccept n).lp.sending = s.lp.sending ∧
    (s.afterAccept n).lp.restartDue = s.lp.restartDue ∧ (s.afterAccept n).ut.idCounter = s.ut.idCounter ∧
    (s.afterAccept n).ut.transferLine = s.ut.transferLine ∧ (s.afterAccept n).ut.transferTimer = s.ut.transferTimer := by
  unfold State.afterAccept
  repeat' split
  all_goals simp

@[simp] theorem State.completeAnalysis_parts (s : State) :
    (s.completeAnalysis).cs.slowDescs = s.cs.slowDescs ∧ (s.completeAnalysis).cs.leakDescs = s.cs.leakDescs ∧
    (s.completeAnalysis).cu.stack = s.cu.stack ∧ (s.completeAnalysis).cu.rl = s.cu.rl ∧
    (s.completeAnalysis).cu.mask = s.cu.mask ∧ (s.completeAnalysis).cu.mode = s.cu.mode ∧
    (s.completeAnalysis).lp.receiver = s.lp.receiver ∧ (s.completeAnalysis).lp.head = s.lp.head ∧
    (s.completeAnalysis).lp.second = s.lp.second ∧ (s.completeAnalysis).lp.badFrames = s.lp.badFrames ∧
    (s.completeAnalysis).lp.overruns = s.lp.overruns ∧ (s.completeAnalysis).lp.silence = s.lp.silence ∧
    (s.completeAnalysis).lp.reply = s.lp.reply ∧ (s.completeAnalysis).lp.sending = s.lp.sending ∧
    (s.completeAnalysis).lp.restartDue = s.lp.restartDue ∧ (s.completeAnalysis).ut.idCounter = s.ut.idCounter ∧
    (s.completeAnalysis).ut.transferLine = s.ut.transferLine ∧
    (s.completeAnalysis).ut.transferTimer = s.ut.transferTimer := by
  unfold State.completeAnalysis
  dsimp only
  repeat' split
  all_goals simp

@[simp] theorem State.drainClose_parts (s : State) :
    (s.drainClose).ut.idCounter = s.ut.idCounter ∧ (s.drainClose).ut.transferLine = s.ut.transferLine ∧
    (s.drainClose).ut.transferTimer = s.ut.transferTimer ∧ (s.drainClose).oa.queue = s.oa.queue ∧
    (s.drainClose).oa.current = s.oa.current := by
  unfold State.drainClose
  split <;> simp

/-! ## The Report Assembler -/

@[simp] theorem State.reportNotice_parts (s : State) :
    (s.reportNotice).lp.receiver = s.lp.receiver ∧ (s.reportNotice).lp.head = s.lp.head ∧
    (s.reportNotice).lp.second = s.lp.second ∧ (s.reportNotice).lp.badFrames = s.lp.badFrames ∧
    (s.reportNotice).lp.overruns = s.lp.overruns ∧ (s.reportNotice).lp.silence = s.lp.silence ∧
    (s.reportNotice).lp.reply = s.lp.reply ∧ (s.reportNotice).lp.sending = s.lp.sending ∧
    (s.reportNotice).lp.restartDue = s.lp.restartDue := by simp [State.reportNotice]

@[simp] theorem State.assembleReport_parts (i : Fin 8) (s : State) :
    (s.assembleReport i).ut.idCounter = s.ut.idCounter ∧ (s.assembleReport i).ut.transferLine = s.ut.transferLine ∧
    (s.assembleReport i).ut.transferTimer = s.ut.transferTimer ∧ (s.assembleReport i).lp.receiver = s.lp.receiver ∧
    (s.assembleReport i).lp.head = s.lp.head ∧ (s.assembleReport i).lp.second = s.lp.second ∧
    (s.assembleReport i).lp.badFrames = s.lp.badFrames ∧ (s.assembleReport i).lp.overruns = s.lp.overruns ∧
    (s.assembleReport i).lp.silence = s.lp.silence ∧ (s.assembleReport i).lp.reply = s.lp.reply ∧
    (s.assembleReport i).lp.sending = s.lp.sending ∧ (s.assembleReport i).lp.restartDue = s.lp.restartDue := by
  unfold State.assembleReport
  split <;> simp

/-! ## The Leak Controller -/

@[simp] theorem State.setChamber_parts (c : Fin 4) (x : Chamber) (s : State) :
    (s.setChamber c x).lkc.queue = s.lkc.queue ∧
    (s.setChamber c x).lkc.resetVent = s.lkc.resetVent := by simp [State.setChamber]

@[simp] theorem State.checkGrant_parts (s : State) :
    (s.checkGrant).lkc.resetVent = s.lkc.resetVent := by
  unfold State.checkGrant
  repeat' split
  all_goals simp

@[simp] theorem State.joinQueue_parts (c : Fin 4) (s : State) :
    (s.joinQueue c).lkc.resetVent = s.lkc.resetVent := by simp [State.joinQueue]

@[simp] theorem foldl_joinQueue_parts (cs : List (Fin 4)) (s : State) :
    (cs.foldl (fun t c => if (t.chamberPlan c).enabled then t.joinQueue c else t) s).lkc.resetVent = s.lkc.resetVent := by
  induction cs generalizing s with
  | nil => simp
  | cons c cs ih => simp only [List.foldl_cons, ih]; split <;> simp

@[simp] theorem State.startChambers_parts (s : State) :
    (s.startChambers).lkc.resetVent = s.lkc.resetVent := by simp [State.startChambers]

@[simp] theorem State.enterVent_parts (c : Fin 4) (after : AfterVent) (s : State) :
    (s.enterVent c after).lkc.queue = s.lkc.queue ∧
    (s.enterVent c after).lkc.resetVent = s.lkc.resetVent := by simp [State.enterVent]

@[simp] theorem State.enterMeasure_parts (c : Fin 4) (s : State) :
    (s.enterMeasure c).lkc.queue = s.lkc.queue ∧
    (s.enterMeasure c).lkc.resetVent = s.lkc.resetVent := by simp [State.enterMeasure]

@[simp] theorem State.fillReached_parts (c : Fin 4) (s : State) :
    (s.fillReached c).lkc.resetVent = s.lkc.resetVent := by
  unfold State.fillReached
  dsimp only
  split <;> simp

@[simp] theorem State.takeLeakRecord_parts (slot : Word32) (xs : List LeakSample) (s : State) :
    (s.takeLeakRecord slot xs).lkc.queue = s.lkc.queue ∧
    (s.takeLeakRecord slot xs).lkc.resetVent = s.lkc.resetVent := by simp [State.takeLeakRecord]

@[simp] theorem State.senseFault_parts (s : State) :
    (s.senseFault).lkc.queue = s.lkc.queue ∧ (s.senseFault).lkc.resetVent = s.lkc.resetVent := by simp [State.senseFault]

@[simp] theorem State.mapResult_parts (i : Fin 8) (c : Fin 4) (f : ChamberResult → ChamberResult) (s : State) :
    (s.mapResult i c f).ut.idCounter = s.ut.idCounter ∧ (s.mapResult i c f).ut.transferLine = s.ut.transferLine ∧
    (s.mapResult i c f).ut.transferTimer = s.ut.transferTimer := by simp [State.mapResult]

@[simp] theorem State.countAttempt_parts (c : Fin 4) (a : AttemptResult) (s : State) :
    (s.countAttempt c a).lkc.queue = s.lkc.queue ∧ (s.countAttempt c a).lkc.resetVent = s.lkc.resetVent ∧
    (s.countAttempt c a).ut.idCounter = s.ut.idCounter ∧ (s.countAttempt c a).ut.transferLine = s.ut.transferLine ∧
    (s.countAttempt c a).ut.transferTimer = s.ut.transferTimer := by
  unfold State.countAttempt
  split <;> simp

@[simp] theorem State.evaluate_parts (c : Fin 4) (s : State) :
    (s.evaluate c).lkc.queue = s.lkc.queue ∧ (s.evaluate c).lkc.resetVent = s.lkc.resetVent ∧
    (s.evaluate c).ut.idCounter = s.ut.idCounter ∧ (s.evaluate c).ut.transferLine = s.ut.transferLine ∧
    (s.evaluate c).ut.transferTimer = s.ut.transferTimer := by
  unfold State.evaluate
  repeat' split
  all_goals simp

@[simp] theorem foldl_evaluate_parts (cs : List (Fin 4)) (s : State) :
    (cs.foldl (fun t c => t.evaluate c) s).lkc.queue = s.lkc.queue ∧
    (cs.foldl (fun t c => t.evaluate c) s).lkc.resetVent = s.lkc.resetVent ∧
    (cs.foldl (fun t c => t.evaluate c) s).ut.idCounter = s.ut.idCounter ∧
    (cs.foldl (fun t c => t.evaluate c) s).ut.transferLine = s.ut.transferLine ∧
    (cs.foldl (fun t c => t.evaluate c) s).ut.transferTimer = s.ut.transferTimer := by
  induction cs generalizing s with
  | nil => simp
  | cons c cs ih => simp [ih]

@[simp] theorem State.evaluateAll_parts (s : State) :
    (s.evaluateAll).lkc.queue = s.lkc.queue ∧ (s.evaluateAll).lkc.resetVent = s.lkc.resetVent ∧
    (s.evaluateAll).ut.idCounter = s.ut.idCounter ∧ (s.evaluateAll).ut.transferLine = s.ut.transferLine ∧
    (s.evaluateAll).ut.transferTimer = s.ut.transferTimer := by simp [State.evaluateAll]

@[simp] theorem foldl_enterVent_parts (cs : List (Fin 4)) (s : State) :
    (cs.foldl (fun t c => if (t.chamber c).phase.attempting then t.enterVent c .requeue else t) s).lkc.queue = s.lkc.queue ∧
    (cs.foldl (fun t c => if (t.chamber c).phase.attempting then t.enterVent c .requeue else t) s).lkc.resetVent = s.lkc.resetVent := by
  induction cs generalizing s with
  | nil => simp
  | cons c cs ih => simp only [List.foldl_cons, ih]; split <;> simp

@[simp] theorem State.haltChambers_parts (s : State) :
    (s.haltChambers).lkc.queue = s.lkc.queue ∧
    (s.haltChambers).lkc.resetVent = s.lkc.resetVent := by simp [State.haltChambers]

@[simp] theorem State.abortChamber_parts (c : Fin 4) (s : State) :
    (s.abortChamber c).lkc.queue = s.lkc.queue ∧ (s.abortChamber c).lkc.resetVent = s.lkc.resetVent := by
  unfold State.abortChamber
  repeat' split
  all_goals simp

@[simp] theorem foldl_abortChamber_parts (cs : List (Fin 4)) (s : State) :
    (cs.foldl (fun t c => t.abortChamber c) s).lkc.queue = s.lkc.queue ∧
    (cs.foldl (fun t c => t.abortChamber c) s).lkc.resetVent = s.lkc.resetVent := by
  induction cs generalizing s with
  | nil => simp
  | cons c cs ih => simp [ih]

@[simp] theorem State.abortChambers_parts (s : State) :
    (s.abortChambers).lkc.resetVent = s.lkc.resetVent := by simp [State.abortChambers]

@[simp] theorem State.restChambers_parts (s : State) :
    (s.restChambers).lkc.resetVent = s.lkc.resetVent := by simp [State.restChambers]

/-! ## The Unit Table -/

@[simp] theorem State.armSilence_parts (s : State) :
    (s.armSilence).lp.receiver = s.lp.receiver ∧ (s.armSilence).lp.head = s.lp.head ∧
    (s.armSilence).lp.second = s.lp.second ∧ (s.armSilence).lp.badFrames = s.lp.badFrames ∧
    (s.armSilence).lp.overruns = s.lp.overruns ∧ (s.armSilence).lp.reply = s.lp.reply ∧
    (s.armSilence).lp.sending = s.lp.sending ∧ (s.armSilence).lp.restartDue = s.lp.restartDue := by
  unfold State.armSilence
  split <;> simp

@[simp] theorem State.disarmSilence_parts (s : State) :
    (s.disarmSilence).lp.receiver = s.lp.receiver ∧ (s.disarmSilence).lp.head = s.lp.head ∧
    (s.disarmSilence).lp.second = s.lp.second ∧ (s.disarmSilence).lp.badFrames = s.lp.badFrames ∧
    (s.disarmSilence).lp.overruns = s.lp.overruns ∧ (s.disarmSilence).lp.reply = s.lp.reply ∧
    (s.disarmSilence).lp.sending = s.lp.sending ∧ (s.disarmSilence).lp.restartDue = s.lp.restartDue := by
  unfold State.disarmSilence
  split <;> simp

@[simp] theorem State.runConveyor_parts (s : State) :
    (s.runConveyor).ut.idCounter = s.ut.idCounter := by simp [State.runConveyor]

@[simp] theorem State.stopConveyor_parts (s : State) :
    (s.stopConveyor).ut.idCounter = s.ut.idCounter := by simp [State.stopConveyor]

@[simp] theorem State.checkTransfer_parts (s : State) :
    (s.checkTransfer).ut.idCounter = s.ut.idCounter ∧ (s.checkTransfer).lp.receiver = s.lp.receiver ∧
    (s.checkTransfer).lp.head = s.lp.head ∧ (s.checkTransfer).lp.second = s.lp.second ∧
    (s.checkTransfer).lp.badFrames = s.lp.badFrames ∧ (s.checkTransfer).lp.overruns = s.lp.overruns ∧
    (s.checkTransfer).lp.silence = s.lp.silence ∧ (s.checkTransfer).lp.reply = s.lp.reply ∧
    (s.checkTransfer).lp.sending = s.lp.sending ∧ (s.checkTransfer).lp.restartDue = s.lp.restartDue ∧
    (s.checkTransfer).cs.vibDescs = s.cs.vibDescs ∧ (s.checkTransfer).cs.slowDescs = s.cs.slowDescs ∧
    (s.checkTransfer).cs.leakDescs = s.cs.leakDescs ∧ (s.checkTransfer).cu.stack = s.cu.stack ∧
    (s.checkTransfer).cu.rl = s.cu.rl ∧ (s.checkTransfer).cu.mask = s.cu.mask ∧ (s.checkTransfer).cu.mode = s.cu.mode := by
  unfold State.checkTransfer
  dsimp only
  repeat' split
  all_goals simp

@[simp] theorem State.mapLeak_parts (i : Fin 8) (f : LeakSection → LeakSection) (s : State) :
    (s.mapLeak i f).ut.idCounter = s.ut.idCounter ∧ (s.mapLeak i f).ut.transferLine = s.ut.transferLine ∧
    (s.mapLeak i f).ut.transferTimer = s.ut.transferTimer := by simp [State.mapLeak]

@[simp] theorem State.enterDone_parts (i : Fin 8) (s : State) :
    (s.enterDone i).ut.idCounter = s.ut.idCounter ∧ (s.enterDone i).lp.receiver = s.lp.receiver ∧
    (s.enterDone i).lp.head = s.lp.head ∧ (s.enterDone i).lp.second = s.lp.second ∧
    (s.enterDone i).lp.badFrames = s.lp.badFrames ∧ (s.enterDone i).lp.overruns = s.lp.overruns ∧
    (s.enterDone i).lp.reply = s.lp.reply ∧ (s.enterDone i).lp.sending = s.lp.sending ∧
    (s.enterDone i).lp.restartDue = s.lp.restartDue ∧ (s.enterDone i).cs.vibDescs = s.cs.vibDescs ∧
    (s.enterDone i).cs.slowDescs = s.cs.slowDescs ∧ (s.enterDone i).cs.leakDescs = s.cs.leakDescs ∧
    (s.enterDone i).cu.stack = s.cu.stack ∧ (s.enterDone i).cu.rl = s.cu.rl ∧ (s.enterDone i).cu.mask = s.cu.mask ∧
    (s.enterDone i).cu.mode = s.cu.mode ∧ (s.enterDone i).lkc.resetVent = s.lkc.resetVent := by simp [State.enterDone]

@[simp] theorem State.checkLeakEnd_parts (s : State) :
    (s.checkLeakEnd).ut.idCounter = s.ut.idCounter ∧ (s.checkLeakEnd).lp.receiver = s.lp.receiver ∧
    (s.checkLeakEnd).lp.head = s.lp.head ∧ (s.checkLeakEnd).lp.second = s.lp.second ∧
    (s.checkLeakEnd).lp.badFrames = s.lp.badFrames ∧ (s.checkLeakEnd).lp.overruns = s.lp.overruns ∧
    (s.checkLeakEnd).lp.reply = s.lp.reply ∧ (s.checkLeakEnd).lp.sending = s.lp.sending ∧
    (s.checkLeakEnd).lp.restartDue = s.lp.restartDue ∧ (s.checkLeakEnd).cs.vibDescs = s.cs.vibDescs ∧
    (s.checkLeakEnd).cs.slowDescs = s.cs.slowDescs ∧ (s.checkLeakEnd).cs.leakDescs = s.cs.leakDescs ∧
    (s.checkLeakEnd).cu.stack = s.cu.stack ∧ (s.checkLeakEnd).cu.rl = s.cu.rl ∧ (s.checkLeakEnd).cu.mask = s.cu.mask ∧
    (s.checkLeakEnd).cu.mode = s.cu.mode ∧ (s.checkLeakEnd).lkc.resetVent = s.lkc.resetVent := by
  unfold State.checkLeakEnd
  repeat' split
  all_goals simp

@[simp] theorem State.decideLeak_parts (s : State) :
    (s.decideLeak).ut.idCounter = s.ut.idCounter ∧ (s.decideLeak).lp.receiver = s.lp.receiver ∧
    (s.decideLeak).lp.head = s.lp.head ∧ (s.decideLeak).lp.second = s.lp.second ∧
    (s.decideLeak).lp.badFrames = s.lp.badFrames ∧ (s.decideLeak).lp.overruns = s.lp.overruns ∧
    (s.decideLeak).lp.reply = s.lp.reply ∧ (s.decideLeak).lp.sending = s.lp.sending ∧
    (s.decideLeak).lp.restartDue = s.lp.restartDue ∧ (s.decideLeak).cs.vibDescs = s.cs.vibDescs ∧
    (s.decideLeak).cs.slowDescs = s.cs.slowDescs ∧ (s.decideLeak).cs.leakDescs = s.cs.leakDescs ∧
    (s.decideLeak).cu.stack = s.cu.stack ∧ (s.decideLeak).cu.rl = s.cu.rl ∧ (s.decideLeak).cu.mask = s.cu.mask ∧
    (s.decideLeak).cu.mode = s.cu.mode ∧ (s.decideLeak).lkc.resetVent = s.lkc.resetVent := by
  unfold State.decideLeak
  repeat' split
  all_goals simp

@[simp] theorem State.arrive_parts (s : State) :
    (s.arrive).ut.idCounter = s.ut.idCounter ∧ (s.arrive).lp.receiver = s.lp.receiver ∧ (s.arrive).lp.head = s.lp.head ∧
    (s.arrive).lp.second = s.lp.second ∧ (s.arrive).lp.badFrames = s.lp.badFrames ∧ (s.arrive).lp.overruns = s.lp.overruns ∧
    (s.arrive).lp.reply = s.lp.reply ∧ (s.arrive).lp.sending = s.lp.sending ∧ (s.arrive).lp.restartDue = s.lp.restartDue ∧
    (s.arrive).cs.vibDescs = s.cs.vibDescs ∧ (s.arrive).cs.slowDescs = s.cs.slowDescs ∧
    (s.arrive).cs.leakDescs = s.cs.leakDescs ∧ (s.arrive).cu.stack = s.cu.stack ∧ (s.arrive).cu.rl = s.cu.rl ∧
    (s.arrive).cu.mask = s.cu.mask ∧ (s.arrive).cu.mode = s.cu.mode ∧ (s.arrive).lkc.resetVent = s.lkc.resetVent := by
  unfold State.arrive
  split <;> simp

@[simp] theorem State.checkRunDone_parts (s : State) :
    (s.checkRunDone).ut.idCounter = s.ut.idCounter ∧ (s.checkRunDone).lp.receiver = s.lp.receiver ∧
    (s.checkRunDone).lp.head = s.lp.head ∧ (s.checkRunDone).lp.second = s.lp.second ∧
    (s.checkRunDone).lp.badFrames = s.lp.badFrames ∧ (s.checkRunDone).lp.overruns = s.lp.overruns ∧
    (s.checkRunDone).lp.reply = s.lp.reply ∧ (s.checkRunDone).lp.sending = s.lp.sending ∧
    (s.checkRunDone).lp.restartDue = s.lp.restartDue ∧ (s.checkRunDone).cs.vibDescs = s.cs.vibDescs ∧
    (s.checkRunDone).cs.slowDescs = s.cs.slowDescs ∧ (s.checkRunDone).cs.leakDescs = s.cs.leakDescs ∧
    (s.checkRunDone).cu.stack = s.cu.stack ∧ (s.checkRunDone).cu.rl = s.cu.rl ∧ (s.checkRunDone).cu.mask = s.cu.mask ∧
    (s.checkRunDone).cu.mode = s.cu.mode := by
  unfold State.checkRunDone
  repeat' split
  all_goals simp

@[simp] theorem State.mapSlot_parts (k : Fin 16) (f : Slot → Slot) (s : State) :
    (s.mapSlot k f).rs.scanning = s.rs.scanning ∧ (s.mapSlot k f).rs.live = s.rs.live ∧
    (s.mapSlot k f).rs.source = s.rs.source := by simp [State.mapSlot]

@[simp] theorem State.load_parts (i : Fin 8) (serial : List Byte) (slot : Fin 16) (s : State) :
    (s.load i serial slot).rs.scanning = s.rs.scanning ∧ (s.load i serial slot).rs.live = s.rs.live ∧
    (s.load i serial slot).rs.source = s.rs.source ∧ (s.load i serial slot).ut.transferLine = s.ut.transferLine ∧
    (s.load i serial slot).ut.transferTimer = s.ut.transferTimer ∧ (s.load i serial slot).lp.receiver = s.lp.receiver ∧
    (s.load i serial slot).lp.head = s.lp.head ∧ (s.load i serial slot).lp.second = s.lp.second ∧
    (s.load i serial slot).lp.badFrames = s.lp.badFrames ∧ (s.load i serial slot).lp.overruns = s.lp.overruns ∧
    (s.load i serial slot).lp.silence = s.lp.silence ∧ (s.load i serial slot).lp.reply = s.lp.reply ∧
    (s.load i serial slot).lp.sending = s.lp.sending ∧ (s.load i serial slot).lp.restartDue = s.lp.restartDue ∧
    (s.load i serial slot).cs.vibDescs = s.cs.vibDescs ∧ (s.load i serial slot).cs.slowDescs = s.cs.slowDescs ∧
    (s.load i serial slot).cs.leakDescs = s.cs.leakDescs ∧ (s.load i serial slot).cu.stack = s.cu.stack ∧
    (s.load i serial slot).cu.rl = s.cu.rl ∧ (s.load i serial slot).cu.mask = s.cu.mask ∧
    (s.load i serial slot).cu.mode = s.cu.mode := by simp [State.load]

/-! ## The Profile Engine -/

@[simp] theorem State.mapRunIn_parts (f : RunIn → RunIn) (s : State) :
    (s.mapRunIn f).ut.idCounter = s.ut.idCounter ∧ (s.mapRunIn f).ut.transferLine = s.ut.transferLine ∧
    (s.mapRunIn f).ut.transferTimer = s.ut.transferTimer := by
  unfold State.mapRunIn
  split <;> simp

@[simp] theorem State.judgeDrive_parts (s : State) :
    (s.judgeDrive).cu.stack = s.cu.stack ∧ (s.judgeDrive).cu.rl = s.cu.rl ∧ (s.judgeDrive).cu.mask = s.cu.mask ∧
    (s.judgeDrive).cu.mode = s.cu.mode := by simp [State.judgeDrive]

@[simp] theorem State.setEnable_parts (b : Bool) (s : State) :
    (s.setEnable b).pe.phase = s.pe.phase ∧ (s.setEnable b).pe.step = s.pe.step ∧
    (s.setEnable b).pe.counters = s.pe.counters ∧ (s.setEnable b).pe.setpoint = s.pe.setpoint ∧
    (s.setEnable b).pe.brake = s.pe.brake ∧ (s.setEnable b).pe.halt = s.pe.halt ∧ (s.setEnable b).pe.updates = s.pe.updates ∧
    (s.setEnable b).pe.sent = s.pe.sent ∧ (s.setEnable b).cu.stack = s.cu.stack ∧ (s.setEnable b).cu.rl = s.cu.rl ∧
    (s.setEnable b).cu.mask = s.cu.mask ∧ (s.setEnable b).cu.mode = s.cu.mode := by
  unfold State.setEnable
  split <;> simp

@[simp] theorem State.tryOpen_parts (s : State) :
    (s.tryOpen).pe.phase = s.pe.phase ∧ (s.tryOpen).pe.step = s.pe.step ∧ (s.tryOpen).pe.counters = s.pe.counters ∧
    (s.tryOpen).pe.setpoint = s.pe.setpoint ∧ (s.tryOpen).pe.enable = s.pe.enable ∧ (s.tryOpen).pe.brake = s.pe.brake ∧
    (s.tryOpen).pe.halt = s.pe.halt ∧ (s.tryOpen).pe.updates = s.pe.updates ∧ (s.tryOpen).pe.sent = s.pe.sent ∧
    (s.tryOpen).oa.queue = s.oa.queue ∧ (s.tryOpen).oa.current = s.oa.current ∧ (s.tryOpen).cs.vibDescs = s.cs.vibDescs ∧
    (s.tryOpen).cs.slowDescs = s.cs.slowDescs ∧ (s.tryOpen).cs.leakDescs = s.cs.leakDescs ∧
    (s.tryOpen).cu.stack = s.cu.stack ∧ (s.tryOpen).cu.rl = s.cu.rl ∧ (s.tryOpen).cu.mask = s.cu.mask ∧
    (s.tryOpen).cu.mode = s.cu.mode := by
  unfold State.tryOpen
  repeat' split
  all_goals simp

@[simp] theorem State.settle_parts (s : State) :
    (s.settle).pe.phase = s.pe.phase ∧ (s.settle).pe.step = s.pe.step ∧ (s.settle).pe.counters = s.pe.counters ∧
    (s.settle).pe.setpoint = s.pe.setpoint ∧ (s.settle).pe.enable = s.pe.enable ∧ (s.settle).pe.brake = s.pe.brake ∧
    (s.settle).pe.halt = s.pe.halt ∧ (s.settle).pe.updates = s.pe.updates ∧ (s.settle).pe.sent = s.pe.sent ∧
    (s.settle).oa.queue = s.oa.queue ∧ (s.settle).oa.current = s.oa.current ∧ (s.settle).cs.vibDescs = s.cs.vibDescs ∧
    (s.settle).cs.slowDescs = s.cs.slowDescs ∧ (s.settle).cs.leakDescs = s.cs.leakDescs ∧ (s.settle).cu.stack = s.cu.stack ∧
    (s.settle).cu.rl = s.cu.rl ∧ (s.settle).cu.mask = s.cu.mask ∧ (s.settle).cu.mode = s.cu.mode := by simp [State.settle]

@[simp] theorem State.loadSettle_parts (x : Step) (s : State) :
    (s.loadSettle x).pe.phase = s.pe.phase ∧ (s.loadSettle x).pe.step = s.pe.step ∧
    (s.loadSettle x).pe.counters = s.pe.counters ∧ (s.loadSettle x).pe.setpoint = s.pe.setpoint ∧
    (s.loadSettle x).pe.enable = s.pe.enable ∧ (s.loadSettle x).pe.brake = s.pe.brake ∧
    (s.loadSettle x).pe.halt = s.pe.halt ∧ (s.loadSettle x).pe.updates = s.pe.updates ∧
    (s.loadSettle x).pe.sent = s.pe.sent ∧ (s.loadSettle x).oa.queue = s.oa.queue ∧
    (s.loadSettle x).oa.current = s.oa.current ∧ (s.loadSettle x).cs.vibDescs = s.cs.vibDescs ∧
    (s.loadSettle x).cs.slowDescs = s.cs.slowDescs ∧ (s.loadSettle x).cs.leakDescs = s.cs.leakDescs ∧
    (s.loadSettle x).cu.stack = s.cu.stack ∧ (s.loadSettle x).cu.rl = s.cu.rl ∧ (s.loadSettle x).cu.mask = s.cu.mask ∧
    (s.loadSettle x).cu.mode = s.cu.mode := by
  unfold State.loadSettle
  repeat' split
  all_goals simp

@[simp] theorem State.pauseStep_parts (s : State) :
    (s.pauseStep).pe.phase = s.pe.phase ∧ (s.pauseStep).pe.step = s.pe.step ∧ (s.pauseStep).pe.counters = s.pe.counters ∧
    (s.pauseStep).pe.setpoint = s.pe.setpoint ∧ (s.pauseStep).pe.enable = s.pe.enable ∧ (s.pauseStep).pe.brake = s.pe.brake ∧
    (s.pauseStep).pe.halt = s.pe.halt ∧ (s.pauseStep).pe.updates = s.pe.updates ∧ (s.pauseStep).pe.sent = s.pe.sent ∧
    (s.pauseStep).oa.queue = s.oa.queue ∧ (s.pauseStep).oa.current = s.oa.current ∧
    (s.pauseStep).cs.vibDescs = s.cs.vibDescs ∧ (s.pauseStep).cs.slowDescs = s.cs.slowDescs ∧
    (s.pauseStep).cs.leakDescs = s.cs.leakDescs ∧ (s.pauseStep).cu.stack = s.cu.stack ∧ (s.pauseStep).cu.rl = s.cu.rl ∧
    (s.pauseStep).cu.mask = s.cu.mask ∧ (s.pauseStep).cu.mode = s.cu.mode := by
  unfold State.pauseStep
  repeat' split
  all_goals simp

@[simp] theorem State.noisePause_parts (s : State) :
    (s.noisePause).pe.phase = s.pe.phase ∧ (s.noisePause).pe.step = s.pe.step ∧ (s.noisePause).pe.counters = s.pe.counters ∧
    (s.noisePause).pe.setpoint = s.pe.setpoint ∧ (s.noisePause).pe.enable = s.pe.enable ∧
    (s.noisePause).pe.brake = s.pe.brake ∧ (s.noisePause).pe.halt = s.pe.halt ∧ (s.noisePause).pe.updates = s.pe.updates ∧
    (s.noisePause).pe.sent = s.pe.sent ∧ (s.noisePause).oa.queue = s.oa.queue ∧ (s.noisePause).oa.current = s.oa.current ∧
    (s.noisePause).cs.vibDescs = s.cs.vibDescs ∧ (s.noisePause).cs.slowDescs = s.cs.slowDescs ∧
    (s.noisePause).cs.leakDescs = s.cs.leakDescs ∧ (s.noisePause).cu.stack = s.cu.stack ∧ (s.noisePause).cu.rl = s.cu.rl ∧
    (s.noisePause).cu.mask = s.cu.mask ∧ (s.noisePause).cu.mode = s.cu.mode := by
  unfold State.noisePause
  repeat' split
  all_goals simp

@[simp] theorem State.loadStep_parts (x : Step) (s : State) :
    (s.loadStep x).pe.step = s.pe.step ∧ (s.loadStep x).pe.counters = s.pe.counters ∧
    (s.loadStep x).pe.setpoint = s.pe.setpoint ∧ (s.loadStep x).pe.enable = s.pe.enable ∧
    (s.loadStep x).pe.brake = s.pe.brake ∧ (s.loadStep x).pe.halt = s.pe.halt ∧ (s.loadStep x).pe.updates = s.pe.updates ∧
    (s.loadStep x).pe.sent = s.pe.sent ∧ (s.loadStep x).oa.queue = s.oa.queue ∧ (s.loadStep x).oa.current = s.oa.current ∧
    (s.loadStep x).cs.vibDescs = s.cs.vibDescs ∧ (s.loadStep x).cs.slowDescs = s.cs.slowDescs ∧
    (s.loadStep x).cs.leakDescs = s.cs.leakDescs ∧ (s.loadStep x).cu.stack = s.cu.stack ∧ (s.loadStep x).cu.rl = s.cu.rl ∧
    (s.loadStep x).cu.mask = s.cu.mask ∧ (s.loadStep x).cu.mode = s.cu.mode := by simp [State.loadStep]

@[simp] theorem State.enterStep_parts (k : Nat) (x : Step) (s : State) :
    (s.enterStep k x).pe.counters = s.pe.counters ∧ (s.enterStep k x).pe.setpoint = s.pe.setpoint ∧
    (s.enterStep k x).pe.enable = s.pe.enable ∧ (s.enterStep k x).pe.brake = s.pe.brake ∧
    (s.enterStep k x).pe.halt = s.pe.halt ∧ (s.enterStep k x).pe.updates = s.pe.updates ∧
    (s.enterStep k x).pe.sent = s.pe.sent ∧ (s.enterStep k x).oa.queue = s.oa.queue ∧
    (s.enterStep k x).oa.current = s.oa.current ∧ (s.enterStep k x).cs.vibDescs = s.cs.vibDescs ∧
    (s.enterStep k x).cs.slowDescs = s.cs.slowDescs ∧ (s.enterStep k x).cs.leakDescs = s.cs.leakDescs ∧
    (s.enterStep k x).cu.stack = s.cu.stack ∧ (s.enterStep k x).cu.rl = s.cu.rl ∧ (s.enterStep k x).cu.mask = s.cu.mask ∧
    (s.enterStep k x).cu.mode = s.cu.mode ∧ (s.enterStep k x).ut.idCounter = s.ut.idCounter ∧
    (s.enterStep k x).ut.transferLine = s.ut.transferLine ∧
    (s.enterStep k x).ut.transferTimer = s.ut.transferTimer := by simp [State.enterStep]

@[simp] theorem State.restartStep_parts (s : State) :
    (s.restartStep).pe.step = s.pe.step ∧ (s.restartStep).pe.counters = s.pe.counters ∧
    (s.restartStep).pe.setpoint = s.pe.setpoint ∧ (s.restartStep).pe.enable = s.pe.enable ∧
    (s.restartStep).pe.brake = s.pe.brake ∧ (s.restartStep).pe.halt = s.pe.halt ∧ (s.restartStep).pe.updates = s.pe.updates ∧
    (s.restartStep).pe.sent = s.pe.sent ∧ (s.restartStep).oa.queue = s.oa.queue ∧ (s.restartStep).oa.current = s.oa.current ∧
    (s.restartStep).cs.vibDescs = s.cs.vibDescs ∧ (s.restartStep).cs.slowDescs = s.cs.slowDescs ∧
    (s.restartStep).cs.leakDescs = s.cs.leakDescs ∧ (s.restartStep).cu.stack = s.cu.stack ∧ (s.restartStep).cu.rl = s.cu.rl ∧
    (s.restartStep).cu.mask = s.cu.mask ∧ (s.restartStep).cu.mode = s.cu.mode := by
  unfold State.restartStep
  split <;> simp

@[simp] theorem State.evaluateDrag_parts (x : Step) (s : State) :
    (s.evaluateDrag x).ut.idCounter = s.ut.idCounter ∧ (s.evaluateDrag x).ut.transferLine = s.ut.transferLine ∧
    (s.evaluateDrag x).ut.transferTimer = s.ut.transferTimer := by
  unfold State.evaluateDrag
  split <;> simp

@[simp] theorem State.clearDrag_parts (s : State) :
    (s.clearDrag).pe.phase = s.pe.phase ∧ (s.clearDrag).pe.step = s.pe.step ∧ (s.clearDrag).pe.counters = s.pe.counters ∧
    (s.clearDrag).pe.setpoint = s.pe.setpoint ∧ (s.clearDrag).pe.enable = s.pe.enable ∧ (s.clearDrag).pe.brake = s.pe.brake ∧
    (s.clearDrag).pe.halt = s.pe.halt ∧ (s.clearDrag).pe.updates = s.pe.updates ∧
    (s.clearDrag).pe.sent = s.pe.sent := by simp [State.clearDrag]

@[simp] theorem State.closeWindows_parts (s : State) :
    (s.closeWindows).ut.idCounter = s.ut.idCounter ∧ (s.closeWindows).ut.transferLine = s.ut.transferLine ∧
    (s.closeWindows).ut.transferTimer = s.ut.transferTimer ∧ (s.closeWindows).oa.queue = s.oa.queue ∧
    (s.closeWindows).oa.current = s.oa.current ∧ (s.closeWindows).afe.live = s.afe.live ∧
    (s.closeWindows).afe.faults = s.afe.faults ∧ (s.closeWindows).afe.feedback = s.afe.feedback ∧
    (s.closeWindows).afe.pulses = s.afe.pulses ∧ (s.closeWindows).afe.revolution = s.afe.revolution ∧
    (s.closeWindows).afe.slowTaken = s.afe.slowTaken ∧ (s.closeWindows).afe.leakTaken = s.afe.leakTaken ∧
    (s.closeWindows).afe.slowSlot = s.afe.slowSlot ∧ (s.closeWindows).afe.leakSlot = s.afe.leakSlot ∧
    (s.closeWindows).afe.slowEnded = s.afe.slowEnded ∧ (s.closeWindows).afe.leakEnded = s.afe.leakEnded ∧
    (s.closeWindows).cs.slowDescs = s.cs.slowDescs ∧ (s.closeWindows).cs.leakDescs = s.cs.leakDescs ∧
    (s.closeWindows).cu.stack = s.cu.stack ∧ (s.closeWindows).cu.rl = s.cu.rl ∧ (s.closeWindows).cu.mask = s.cu.mask ∧
    (s.closeWindows).cu.mode = s.cu.mode ∧ (s.closeWindows).lp.receiver = s.lp.receiver ∧
    (s.closeWindows).lp.head = s.lp.head ∧ (s.closeWindows).lp.second = s.lp.second ∧
    (s.closeWindows).lp.badFrames = s.lp.badFrames ∧ (s.closeWindows).lp.overruns = s.lp.overruns ∧
    (s.closeWindows).lp.silence = s.lp.silence ∧ (s.closeWindows).lp.reply = s.lp.reply ∧
    (s.closeWindows).lp.sending = s.lp.sending ∧ (s.closeWindows).lp.restartDue = s.lp.restartDue := by
  unfold State.closeWindows
  split <;> simp

@[simp] theorem State.profileEnd_parts (cause : StopCause) (s : State) :
    (s.profileEnd cause).pe.counters = s.pe.counters ∧ (s.profileEnd cause).pe.setpoint = s.pe.setpoint ∧
    (s.profileEnd cause).pe.halt = s.pe.halt ∧ (s.profileEnd cause).pe.updates = s.pe.updates ∧
    (s.profileEnd cause).pe.sent = s.pe.sent ∧ (s.profileEnd cause).ut.idCounter = s.ut.idCounter ∧
    (s.profileEnd cause).oa.queue = s.oa.queue ∧ (s.profileEnd cause).oa.current = s.oa.current ∧
    (s.profileEnd cause).afe.live = s.afe.live ∧ (s.profileEnd cause).afe.faults = s.afe.faults ∧
    (s.profileEnd cause).afe.feedback = s.afe.feedback ∧ (s.profileEnd cause).afe.pulses = s.afe.pulses ∧
    (s.profileEnd cause).afe.revolution = s.afe.revolution ∧ (s.profileEnd cause).afe.slowTaken = s.afe.slowTaken ∧
    (s.profileEnd cause).afe.leakTaken = s.afe.leakTaken ∧ (s.profileEnd cause).afe.slowSlot = s.afe.slowSlot ∧
    (s.profileEnd cause).afe.leakSlot = s.afe.leakSlot ∧ (s.profileEnd cause).afe.slowEnded = s.afe.slowEnded ∧
    (s.profileEnd cause).afe.leakEnded = s.afe.leakEnded ∧ (s.profileEnd cause).cs.slowDescs = s.cs.slowDescs ∧
    (s.profileEnd cause).cs.leakDescs = s.cs.leakDescs ∧ (s.profileEnd cause).cu.stack = s.cu.stack ∧
    (s.profileEnd cause).cu.rl = s.cu.rl ∧ (s.profileEnd cause).cu.mask = s.cu.mask ∧
    (s.profileEnd cause).cu.mode = s.cu.mode ∧ (s.profileEnd cause).lp.receiver = s.lp.receiver ∧
    (s.profileEnd cause).lp.head = s.lp.head ∧ (s.profileEnd cause).lp.second = s.lp.second ∧
    (s.profileEnd cause).lp.badFrames = s.lp.badFrames ∧ (s.profileEnd cause).lp.overruns = s.lp.overruns ∧
    (s.profileEnd cause).lp.reply = s.lp.reply ∧ (s.profileEnd cause).lp.sending = s.lp.sending ∧
    (s.profileEnd cause).lp.restartDue = s.lp.restartDue := by simp [State.profileEnd]

@[simp] theorem State.beginStop_parts (cause : StopCause) (s : State) :
    (s.beginStop cause).pe.counters = s.pe.counters ∧ (s.beginStop cause).pe.setpoint = s.pe.setpoint ∧
    (s.beginStop cause).pe.halt = s.pe.halt ∧ (s.beginStop cause).pe.updates = s.pe.updates ∧
    (s.beginStop cause).pe.sent = s.pe.sent ∧ (s.beginStop cause).ut.idCounter = s.ut.idCounter ∧
    (s.beginStop cause).oa.queue = s.oa.queue ∧ (s.beginStop cause).oa.current = s.oa.current ∧
    (s.beginStop cause).afe.live = s.afe.live ∧ (s.beginStop cause).afe.faults = s.afe.faults ∧
    (s.beginStop cause).afe.feedback = s.afe.feedback ∧ (s.beginStop cause).afe.pulses = s.afe.pulses ∧
    (s.beginStop cause).afe.revolution = s.afe.revolution ∧ (s.beginStop cause).afe.slowTaken = s.afe.slowTaken ∧
    (s.beginStop cause).afe.leakTaken = s.afe.leakTaken ∧ (s.beginStop cause).afe.slowSlot = s.afe.slowSlot ∧
    (s.beginStop cause).afe.leakSlot = s.afe.leakSlot ∧ (s.beginStop cause).afe.slowEnded = s.afe.slowEnded ∧
    (s.beginStop cause).afe.leakEnded = s.afe.leakEnded ∧ (s.beginStop cause).cs.slowDescs = s.cs.slowDescs ∧
    (s.beginStop cause).cs.leakDescs = s.cs.leakDescs ∧ (s.beginStop cause).cu.stack = s.cu.stack ∧
    (s.beginStop cause).cu.rl = s.cu.rl ∧ (s.beginStop cause).cu.mask = s.cu.mask ∧ (s.beginStop cause).cu.mode = s.cu.mode ∧
    (s.beginStop cause).lp.receiver = s.lp.receiver ∧ (s.beginStop cause).lp.head = s.lp.head ∧
    (s.beginStop cause).lp.second = s.lp.second ∧ (s.beginStop cause).lp.badFrames = s.lp.badFrames ∧
    (s.beginStop cause).lp.overruns = s.lp.overruns ∧ (s.beginStop cause).lp.reply = s.lp.reply ∧
    (s.beginStop cause).lp.sending = s.lp.sending ∧ (s.beginStop cause).lp.restartDue = s.lp.restartDue := by
  unfold State.beginStop
  dsimp only
  split <;> simp

@[simp] theorem State.endStep_parts (k : Nat) (x : Step) (s : State) :
    (s.endStep k x).1.pe.phase = s.pe.phase ∧ (s.endStep k x).1.pe.step = s.pe.step ∧
    (s.endStep k x).1.pe.setpoint = s.pe.setpoint ∧ (s.endStep k x).1.pe.enable = s.pe.enable ∧
    (s.endStep k x).1.pe.brake = s.pe.brake ∧ (s.endStep k x).1.pe.halt = s.pe.halt ∧
    (s.endStep k x).1.pe.updates = s.pe.updates ∧ (s.endStep k x).1.pe.sent = s.pe.sent ∧
    (s.endStep k x).1.oa.queue = s.oa.queue ∧ (s.endStep k x).1.oa.current = s.oa.current ∧
    (s.endStep k x).1.cs.vibDescs = s.cs.vibDescs ∧ (s.endStep k x).1.cs.slowDescs = s.cs.slowDescs ∧
    (s.endStep k x).1.cs.leakDescs = s.cs.leakDescs ∧ (s.endStep k x).1.cu.stack = s.cu.stack ∧
    (s.endStep k x).1.cu.rl = s.cu.rl ∧ (s.endStep k x).1.cu.mask = s.cu.mask ∧ (s.endStep k x).1.cu.mode = s.cu.mode ∧
    (s.endStep k x).1.ut.idCounter = s.ut.idCounter ∧ (s.endStep k x).1.ut.transferLine = s.ut.transferLine ∧
    (s.endStep k x).1.ut.transferTimer = s.ut.transferTimer := by
  unfold State.endStep
  split <;> simp

@[simp] theorem State.finishProfile_parts (s : State) :
    (s.finishProfile).pe.counters = s.pe.counters ∧ (s.finishProfile).pe.setpoint = s.pe.setpoint ∧
    (s.finishProfile).pe.halt = s.pe.halt ∧ (s.finishProfile).pe.updates = s.pe.updates ∧
    (s.finishProfile).pe.sent = s.pe.sent ∧ (s.finishProfile).ut.idCounter = s.ut.idCounter ∧
    (s.finishProfile).oa.queue = s.oa.queue ∧ (s.finishProfile).oa.current = s.oa.current ∧
    (s.finishProfile).afe.live = s.afe.live ∧ (s.finishProfile).afe.faults = s.afe.faults ∧
    (s.finishProfile).afe.feedback = s.afe.feedback ∧ (s.finishProfile).afe.pulses = s.afe.pulses ∧
    (s.finishProfile).afe.revolution = s.afe.revolution ∧ (s.finishProfile).afe.slowTaken = s.afe.slowTaken ∧
    (s.finishProfile).afe.leakTaken = s.afe.leakTaken ∧ (s.finishProfile).afe.slowSlot = s.afe.slowSlot ∧
    (s.finishProfile).afe.leakSlot = s.afe.leakSlot ∧ (s.finishProfile).afe.slowEnded = s.afe.slowEnded ∧
    (s.finishProfile).afe.leakEnded = s.afe.leakEnded ∧ (s.finishProfile).cs.slowDescs = s.cs.slowDescs ∧
    (s.finishProfile).cs.leakDescs = s.cs.leakDescs ∧ (s.finishProfile).cu.stack = s.cu.stack ∧
    (s.finishProfile).cu.rl = s.cu.rl ∧ (s.finishProfile).cu.mask = s.cu.mask ∧ (s.finishProfile).cu.mode = s.cu.mode ∧
    (s.finishProfile).lp.receiver = s.lp.receiver ∧ (s.finishProfile).lp.head = s.lp.head ∧
    (s.finishProfile).lp.second = s.lp.second ∧ (s.finishProfile).lp.badFrames = s.lp.badFrames ∧
    (s.finishProfile).lp.overruns = s.lp.overruns ∧ (s.finishProfile).lp.reply = s.lp.reply ∧
    (s.finishProfile).lp.sending = s.lp.sending ∧
    (s.finishProfile).lp.restartDue = s.lp.restartDue := by simp [State.finishProfile]

@[simp] theorem runSteps_parts (fuel k : Nat) (s : State) :
    (runSteps fuel k s).pe.setpoint = s.pe.setpoint ∧ (runSteps fuel k s).pe.halt = s.pe.halt ∧
    (runSteps fuel k s).pe.updates = s.pe.updates ∧ (runSteps fuel k s).pe.sent = s.pe.sent ∧
    (runSteps fuel k s).ut.idCounter = s.ut.idCounter ∧ (runSteps fuel k s).oa.queue = s.oa.queue ∧
    (runSteps fuel k s).oa.current = s.oa.current ∧ (runSteps fuel k s).afe.live = s.afe.live ∧
    (runSteps fuel k s).afe.faults = s.afe.faults ∧ (runSteps fuel k s).afe.feedback = s.afe.feedback ∧
    (runSteps fuel k s).afe.pulses = s.afe.pulses ∧ (runSteps fuel k s).afe.revolution = s.afe.revolution ∧
    (runSteps fuel k s).afe.slowTaken = s.afe.slowTaken ∧ (runSteps fuel k s).afe.leakTaken = s.afe.leakTaken ∧
    (runSteps fuel k s).afe.slowSlot = s.afe.slowSlot ∧ (runSteps fuel k s).afe.leakSlot = s.afe.leakSlot ∧
    (runSteps fuel k s).afe.slowEnded = s.afe.slowEnded ∧ (runSteps fuel k s).afe.leakEnded = s.afe.leakEnded ∧
    (runSteps fuel k s).cs.slowDescs = s.cs.slowDescs ∧ (runSteps fuel k s).cs.leakDescs = s.cs.leakDescs ∧
    (runSteps fuel k s).cu.stack = s.cu.stack ∧ (runSteps fuel k s).cu.rl = s.cu.rl ∧
    (runSteps fuel k s).cu.mask = s.cu.mask ∧ (runSteps fuel k s).cu.mode = s.cu.mode ∧
    (runSteps fuel k s).lp.receiver = s.lp.receiver ∧ (runSteps fuel k s).lp.head = s.lp.head ∧
    (runSteps fuel k s).lp.second = s.lp.second ∧ (runSteps fuel k s).lp.badFrames = s.lp.badFrames ∧
    (runSteps fuel k s).lp.overruns = s.lp.overruns ∧ (runSteps fuel k s).lp.reply = s.lp.reply ∧
    (runSteps fuel k s).lp.sending = s.lp.sending ∧ (runSteps fuel k s).lp.restartDue = s.lp.restartDue := by
  induction fuel generalizing k s with
  | zero => simp [runSteps]
  | succ fuel ih =>
    unfold runSteps
    dsimp only
    repeat' split
    all_goals simp [ih]

@[simp] theorem State.goTo_parts (k : Nat) (s : State) :
    (s.goTo k).pe.setpoint = s.pe.setpoint ∧ (s.goTo k).pe.halt = s.pe.halt ∧ (s.goTo k).pe.updates = s.pe.updates ∧
    (s.goTo k).pe.sent = s.pe.sent ∧ (s.goTo k).ut.idCounter = s.ut.idCounter ∧ (s.goTo k).oa.queue = s.oa.queue ∧
    (s.goTo k).oa.current = s.oa.current ∧ (s.goTo k).afe.live = s.afe.live ∧ (s.goTo k).afe.faults = s.afe.faults ∧
    (s.goTo k).afe.feedback = s.afe.feedback ∧ (s.goTo k).afe.pulses = s.afe.pulses ∧
    (s.goTo k).afe.revolution = s.afe.revolution ∧ (s.goTo k).afe.slowTaken = s.afe.slowTaken ∧
    (s.goTo k).afe.leakTaken = s.afe.leakTaken ∧ (s.goTo k).afe.slowSlot = s.afe.slowSlot ∧
    (s.goTo k).afe.leakSlot = s.afe.leakSlot ∧ (s.goTo k).afe.slowEnded = s.afe.slowEnded ∧
    (s.goTo k).afe.leakEnded = s.afe.leakEnded ∧ (s.goTo k).cs.slowDescs = s.cs.slowDescs ∧
    (s.goTo k).cs.leakDescs = s.cs.leakDescs ∧ (s.goTo k).cu.stack = s.cu.stack ∧ (s.goTo k).cu.rl = s.cu.rl ∧
    (s.goTo k).cu.mask = s.cu.mask ∧ (s.goTo k).cu.mode = s.cu.mode ∧ (s.goTo k).lp.receiver = s.lp.receiver ∧
    (s.goTo k).lp.head = s.lp.head ∧ (s.goTo k).lp.second = s.lp.second ∧ (s.goTo k).lp.badFrames = s.lp.badFrames ∧
    (s.goTo k).lp.overruns = s.lp.overruns ∧ (s.goTo k).lp.reply = s.lp.reply ∧ (s.goTo k).lp.sending = s.lp.sending ∧
    (s.goTo k).lp.restartDue = s.lp.restartDue := by simp [State.goTo]

@[simp] theorem State.endCurrent_parts (s : State) :
    (s.endCurrent).pe.setpoint = s.pe.setpoint ∧ (s.endCurrent).pe.halt = s.pe.halt ∧
    (s.endCurrent).pe.updates = s.pe.updates ∧ (s.endCurrent).pe.sent = s.pe.sent ∧
    (s.endCurrent).ut.idCounter = s.ut.idCounter ∧ (s.endCurrent).oa.queue = s.oa.queue ∧
    (s.endCurrent).oa.current = s.oa.current ∧ (s.endCurrent).afe.live = s.afe.live ∧
    (s.endCurrent).afe.faults = s.afe.faults ∧ (s.endCurrent).afe.feedback = s.afe.feedback ∧
    (s.endCurrent).afe.pulses = s.afe.pulses ∧ (s.endCurrent).afe.revolution = s.afe.revolution ∧
    (s.endCurrent).afe.slowTaken = s.afe.slowTaken ∧ (s.endCurrent).afe.leakTaken = s.afe.leakTaken ∧
    (s.endCurrent).afe.slowSlot = s.afe.slowSlot ∧ (s.endCurrent).afe.leakSlot = s.afe.leakSlot ∧
    (s.endCurrent).afe.slowEnded = s.afe.slowEnded ∧ (s.endCurrent).afe.leakEnded = s.afe.leakEnded ∧
    (s.endCurrent).cs.slowDescs = s.cs.slowDescs ∧ (s.endCurrent).cs.leakDescs = s.cs.leakDescs ∧
    (s.endCurrent).cu.stack = s.cu.stack ∧ (s.endCurrent).cu.rl = s.cu.rl ∧ (s.endCurrent).cu.mask = s.cu.mask ∧
    (s.endCurrent).cu.mode = s.cu.mode ∧ (s.endCurrent).lp.receiver = s.lp.receiver ∧ (s.endCurrent).lp.head = s.lp.head ∧
    (s.endCurrent).lp.second = s.lp.second ∧ (s.endCurrent).lp.badFrames = s.lp.badFrames ∧
    (s.endCurrent).lp.overruns = s.lp.overruns ∧ (s.endCurrent).lp.reply = s.lp.reply ∧
    (s.endCurrent).lp.sending = s.lp.sending ∧ (s.endCurrent).lp.restartDue = s.lp.restartDue := by
  unfold State.endCurrent
  split <;> simp

@[simp] theorem State.failStep_parts (s : State) :
    (s.failStep).pe.counters = s.pe.counters ∧ (s.failStep).pe.setpoint = s.pe.setpoint ∧ (s.failStep).pe.halt = s.pe.halt ∧
    (s.failStep).pe.updates = s.pe.updates ∧ (s.failStep).pe.sent = s.pe.sent ∧ (s.failStep).ut.idCounter = s.ut.idCounter ∧
    (s.failStep).oa.queue = s.oa.queue ∧ (s.failStep).oa.current = s.oa.current ∧ (s.failStep).afe.live = s.afe.live ∧
    (s.failStep).afe.faults = s.afe.faults ∧ (s.failStep).afe.feedback = s.afe.feedback ∧
    (s.failStep).afe.pulses = s.afe.pulses ∧ (s.failStep).afe.revolution = s.afe.revolution ∧
    (s.failStep).afe.slowTaken = s.afe.slowTaken ∧ (s.failStep).afe.leakTaken = s.afe.leakTaken ∧
    (s.failStep).afe.slowSlot = s.afe.slowSlot ∧ (s.failStep).afe.leakSlot = s.afe.leakSlot ∧
    (s.failStep).afe.slowEnded = s.afe.slowEnded ∧ (s.failStep).afe.leakEnded = s.afe.leakEnded ∧
    (s.failStep).cs.slowDescs = s.cs.slowDescs ∧ (s.failStep).cs.leakDescs = s.cs.leakDescs ∧
    (s.failStep).cu.stack = s.cu.stack ∧ (s.failStep).cu.rl = s.cu.rl ∧ (s.failStep).cu.mask = s.cu.mask ∧
    (s.failStep).cu.mode = s.cu.mode ∧ (s.failStep).lp.receiver = s.lp.receiver ∧ (s.failStep).lp.head = s.lp.head ∧
    (s.failStep).lp.second = s.lp.second ∧ (s.failStep).lp.badFrames = s.lp.badFrames ∧
    (s.failStep).lp.overruns = s.lp.overruns ∧ (s.failStep).lp.reply = s.lp.reply ∧ (s.failStep).lp.sending = s.lp.sending ∧
    (s.failStep).lp.restartDue = s.lp.restartDue := by simp [State.failStep]

@[simp] theorem State.beginProfile_parts (s : State) :
    (s.beginProfile).pe.setpoint = s.pe.setpoint ∧ (s.beginProfile).pe.halt = s.pe.halt ∧
    (s.beginProfile).pe.updates = s.pe.updates ∧ (s.beginProfile).pe.sent = s.pe.sent ∧
    (s.beginProfile).ut.idCounter = s.ut.idCounter ∧ (s.beginProfile).oa.queue = s.oa.queue ∧
    (s.beginProfile).oa.current = s.oa.current ∧ (s.beginProfile).afe.live = s.afe.live ∧
    (s.beginProfile).afe.faults = s.afe.faults ∧ (s.beginProfile).afe.feedback = s.afe.feedback ∧
    (s.beginProfile).afe.pulses = s.afe.pulses ∧ (s.beginProfile).afe.revolution = s.afe.revolution ∧
    (s.beginProfile).afe.slowTaken = s.afe.slowTaken ∧ (s.beginProfile).afe.leakTaken = s.afe.leakTaken ∧
    (s.beginProfile).afe.slowSlot = s.afe.slowSlot ∧ (s.beginProfile).afe.leakSlot = s.afe.leakSlot ∧
    (s.beginProfile).afe.slowEnded = s.afe.slowEnded ∧ (s.beginProfile).afe.leakEnded = s.afe.leakEnded ∧
    (s.beginProfile).cs.slowDescs = s.cs.slowDescs ∧ (s.beginProfile).cs.leakDescs = s.cs.leakDescs ∧
    (s.beginProfile).cu.stack = s.cu.stack ∧ (s.beginProfile).cu.rl = s.cu.rl ∧ (s.beginProfile).cu.mask = s.cu.mask ∧
    (s.beginProfile).cu.mode = s.cu.mode ∧ (s.beginProfile).lp.receiver = s.lp.receiver ∧
    (s.beginProfile).lp.head = s.lp.head ∧ (s.beginProfile).lp.second = s.lp.second ∧
    (s.beginProfile).lp.badFrames = s.lp.badFrames ∧ (s.beginProfile).lp.overruns = s.lp.overruns ∧
    (s.beginProfile).lp.reply = s.lp.reply ∧ (s.beginProfile).lp.sending = s.lp.sending ∧
    (s.beginProfile).lp.restartDue = s.lp.restartDue := by simp [State.beginProfile]

@[simp] theorem State.startProfile_parts (r : Recipe) (s : State) :
    (s.startProfile r).pe.setpoint = s.pe.setpoint ∧ (s.startProfile r).pe.updates = s.pe.updates ∧
    (s.startProfile r).pe.sent = s.pe.sent ∧ (s.startProfile r).ut.idCounter = s.ut.idCounter ∧
    (s.startProfile r).oa.queue = s.oa.queue ∧ (s.startProfile r).oa.current = s.oa.current ∧
    (s.startProfile r).afe.live = s.afe.live ∧ (s.startProfile r).afe.faults = s.afe.faults ∧
    (s.startProfile r).afe.feedback = s.afe.feedback ∧ (s.startProfile r).afe.pulses = s.afe.pulses ∧
    (s.startProfile r).afe.revolution = s.afe.revolution ∧ (s.startProfile r).afe.slowTaken = s.afe.slowTaken ∧
    (s.startProfile r).afe.leakTaken = s.afe.leakTaken ∧ (s.startProfile r).afe.slowSlot = s.afe.slowSlot ∧
    (s.startProfile r).afe.leakSlot = s.afe.leakSlot ∧ (s.startProfile r).afe.slowEnded = s.afe.slowEnded ∧
    (s.startProfile r).afe.leakEnded = s.afe.leakEnded ∧ (s.startProfile r).cs.slowDescs = s.cs.slowDescs ∧
    (s.startProfile r).cs.leakDescs = s.cs.leakDescs ∧ (s.startProfile r).cu.stack = s.cu.stack ∧
    (s.startProfile r).cu.rl = s.cu.rl ∧ (s.startProfile r).cu.mask = s.cu.mask ∧ (s.startProfile r).cu.mode = s.cu.mode ∧
    (s.startProfile r).lp.receiver = s.lp.receiver ∧ (s.startProfile r).lp.head = s.lp.head ∧
    (s.startProfile r).lp.second = s.lp.second ∧ (s.startProfile r).lp.badFrames = s.lp.badFrames ∧
    (s.startProfile r).lp.overruns = s.lp.overruns ∧ (s.startProfile r).lp.reply = s.lp.reply ∧
    (s.startProfile r).lp.sending = s.lp.sending ∧ (s.startProfile r).lp.restartDue = s.lp.restartDue := by
  unfold State.startProfile
  split <;> simp

@[simp] theorem State.abortProfile_parts (s : State) :
    (s.abortProfile).pe.counters = s.pe.counters ∧ (s.abortProfile).pe.setpoint = s.pe.setpoint ∧
    (s.abortProfile).pe.halt = s.pe.halt ∧ (s.abortProfile).pe.updates = s.pe.updates ∧
    (s.abortProfile).pe.sent = s.pe.sent ∧ (s.abortProfile).ut.idCounter = s.ut.idCounter ∧
    (s.abortProfile).oa.queue = s.oa.queue ∧ (s.abortProfile).oa.current = s.oa.current ∧
    (s.abortProfile).afe.live = s.afe.live ∧ (s.abortProfile).afe.faults = s.afe.faults ∧
    (s.abortProfile).afe.feedback = s.afe.feedback ∧ (s.abortProfile).afe.pulses = s.afe.pulses ∧
    (s.abortProfile).afe.revolution = s.afe.revolution ∧ (s.abortProfile).afe.slowTaken = s.afe.slowTaken ∧
    (s.abortProfile).afe.leakTaken = s.afe.leakTaken ∧ (s.abortProfile).afe.slowSlot = s.afe.slowSlot ∧
    (s.abortProfile).afe.leakSlot = s.afe.leakSlot ∧ (s.abortProfile).afe.slowEnded = s.afe.slowEnded ∧
    (s.abortProfile).afe.leakEnded = s.afe.leakEnded ∧ (s.abortProfile).cs.slowDescs = s.cs.slowDescs ∧
    (s.abortProfile).cs.leakDescs = s.cs.leakDescs ∧ (s.abortProfile).cu.stack = s.cu.stack ∧
    (s.abortProfile).cu.rl = s.cu.rl ∧ (s.abortProfile).cu.mask = s.cu.mask ∧ (s.abortProfile).cu.mode = s.cu.mode ∧
    (s.abortProfile).lp.receiver = s.lp.receiver ∧ (s.abortProfile).lp.head = s.lp.head ∧
    (s.abortProfile).lp.second = s.lp.second ∧ (s.abortProfile).lp.badFrames = s.lp.badFrames ∧
    (s.abortProfile).lp.overruns = s.lp.overruns ∧ (s.abortProfile).lp.reply = s.lp.reply ∧
    (s.abortProfile).lp.sending = s.lp.sending ∧ (s.abortProfile).lp.restartDue = s.lp.restartDue := by
  unfold State.abortProfile
  split <;> simp

@[simp] theorem State.hardCheck_parts (s : State) :
    (s.hardCheck).pe.counters = s.pe.counters ∧ (s.hardCheck).pe.updates = s.pe.updates ∧ (s.hardCheck).pe.sent = s.pe.sent ∧
    (s.hardCheck).ut.idCounter = s.ut.idCounter ∧ (s.hardCheck).oa.queue = s.oa.queue ∧
    (s.hardCheck).oa.current = s.oa.current ∧ (s.hardCheck).afe.live = s.afe.live ∧ (s.hardCheck).afe.faults = s.afe.faults ∧
    (s.hardCheck).afe.feedback = s.afe.feedback ∧ (s.hardCheck).afe.pulses = s.afe.pulses ∧
    (s.hardCheck).afe.revolution = s.afe.revolution ∧ (s.hardCheck).afe.slowTaken = s.afe.slowTaken ∧
    (s.hardCheck).afe.leakTaken = s.afe.leakTaken ∧ (s.hardCheck).afe.slowSlot = s.afe.slowSlot ∧
    (s.hardCheck).afe.leakSlot = s.afe.leakSlot ∧ (s.hardCheck).afe.slowEnded = s.afe.slowEnded ∧
    (s.hardCheck).afe.leakEnded = s.afe.leakEnded ∧ (s.hardCheck).cs.slowDescs = s.cs.slowDescs ∧
    (s.hardCheck).cs.leakDescs = s.cs.leakDescs ∧ (s.hardCheck).cu.stack = s.cu.stack ∧ (s.hardCheck).cu.rl = s.cu.rl ∧
    (s.hardCheck).cu.mask = s.cu.mask ∧ (s.hardCheck).cu.mode = s.cu.mode ∧ (s.hardCheck).lp.receiver = s.lp.receiver ∧
    (s.hardCheck).lp.head = s.lp.head ∧ (s.hardCheck).lp.second = s.lp.second ∧ (s.hardCheck).lp.badFrames = s.lp.badFrames ∧
    (s.hardCheck).lp.overruns = s.lp.overruns ∧ (s.hardCheck).lp.reply = s.lp.reply ∧
    (s.hardCheck).lp.sending = s.lp.sending ∧ (s.hardCheck).lp.restartDue = s.lp.restartDue := by
  unfold State.hardCheck
  dsimp only
  repeat' split
  all_goals simp

@[simp] theorem State.profileHalted_parts (s : State) :
    (s.profileHalted).pe.counters = s.pe.counters ∧ (s.profileHalted).pe.updates = s.pe.updates ∧
    (s.profileHalted).pe.sent = s.pe.sent ∧ (s.profileHalted).ut.idCounter = s.ut.idCounter ∧
    (s.profileHalted).oa.queue = s.oa.queue ∧ (s.profileHalted).oa.current = s.oa.current ∧
    (s.profileHalted).afe.live = s.afe.live ∧ (s.profileHalted).afe.faults = s.afe.faults ∧
    (s.profileHalted).afe.feedback = s.afe.feedback ∧ (s.profileHalted).afe.pulses = s.afe.pulses ∧
    (s.profileHalted).afe.revolution = s.afe.revolution ∧ (s.profileHalted).afe.slowTaken = s.afe.slowTaken ∧
    (s.profileHalted).afe.leakTaken = s.afe.leakTaken ∧ (s.profileHalted).afe.slowSlot = s.afe.slowSlot ∧
    (s.profileHalted).afe.leakSlot = s.afe.leakSlot ∧ (s.profileHalted).afe.slowEnded = s.afe.slowEnded ∧
    (s.profileHalted).afe.leakEnded = s.afe.leakEnded ∧ (s.profileHalted).cs.slowDescs = s.cs.slowDescs ∧
    (s.profileHalted).cs.leakDescs = s.cs.leakDescs ∧ (s.profileHalted).cu.stack = s.cu.stack ∧
    (s.profileHalted).cu.rl = s.cu.rl ∧ (s.profileHalted).cu.mask = s.cu.mask ∧ (s.profileHalted).cu.mode = s.cu.mode ∧
    (s.profileHalted).lp.receiver = s.lp.receiver ∧ (s.profileHalted).lp.head = s.lp.head ∧
    (s.profileHalted).lp.second = s.lp.second ∧ (s.profileHalted).lp.badFrames = s.lp.badFrames ∧
    (s.profileHalted).lp.overruns = s.lp.overruns ∧ (s.profileHalted).lp.reply = s.lp.reply ∧
    (s.profileHalted).lp.sending = s.lp.sending ∧ (s.profileHalted).lp.restartDue = s.lp.restartDue := by
  unfold State.profileHalted
  dsimp only
  repeat' split
  all_goals simp

@[simp] theorem State.profileReleased_parts (s : State) :
    (s.profileReleased).pe.setpoint = s.pe.setpoint ∧ (s.profileReleased).pe.updates = s.pe.updates ∧
    (s.profileReleased).pe.sent = s.pe.sent ∧ (s.profileReleased).ut.idCounter = s.ut.idCounter ∧
    (s.profileReleased).oa.queue = s.oa.queue ∧ (s.profileReleased).oa.current = s.oa.current ∧
    (s.profileReleased).afe.live = s.afe.live ∧ (s.profileReleased).afe.faults = s.afe.faults ∧
    (s.profileReleased).afe.feedback = s.afe.feedback ∧ (s.profileReleased).afe.pulses = s.afe.pulses ∧
    (s.profileReleased).afe.revolution = s.afe.revolution ∧ (s.profileReleased).afe.slowTaken = s.afe.slowTaken ∧
    (s.profileReleased).afe.leakTaken = s.afe.leakTaken ∧ (s.profileReleased).afe.slowSlot = s.afe.slowSlot ∧
    (s.profileReleased).afe.leakSlot = s.afe.leakSlot ∧ (s.profileReleased).afe.slowEnded = s.afe.slowEnded ∧
    (s.profileReleased).afe.leakEnded = s.afe.leakEnded ∧ (s.profileReleased).cs.slowDescs = s.cs.slowDescs ∧
    (s.profileReleased).cs.leakDescs = s.cs.leakDescs ∧ (s.profileReleased).cu.stack = s.cu.stack ∧
    (s.profileReleased).cu.rl = s.cu.rl ∧ (s.profileReleased).cu.mask = s.cu.mask ∧ (s.profileReleased).cu.mode = s.cu.mode ∧
    (s.profileReleased).lp.receiver = s.lp.receiver ∧ (s.profileReleased).lp.head = s.lp.head ∧
    (s.profileReleased).lp.second = s.lp.second ∧ (s.profileReleased).lp.badFrames = s.lp.badFrames ∧
    (s.profileReleased).lp.overruns = s.lp.overruns ∧ (s.profileReleased).lp.reply = s.lp.reply ∧
    (s.profileReleased).lp.sending = s.lp.sending ∧ (s.profileReleased).lp.restartDue = s.lp.restartDue := by
  unfold State.profileReleased
  dsimp only
  split <;> simp

@[simp] theorem State.updateSetpoint_parts (s : State) :
    (s.updateSetpoint).pe.counters = s.pe.counters ∧ (s.updateSetpoint).pe.halt = s.pe.halt ∧
    (s.updateSetpoint).ut.idCounter = s.ut.idCounter ∧ (s.updateSetpoint).oa.queue = s.oa.queue ∧
    (s.updateSetpoint).oa.current = s.oa.current ∧ (s.updateSetpoint).afe.live = s.afe.live ∧
    (s.updateSetpoint).afe.faults = s.afe.faults ∧ (s.updateSetpoint).afe.feedback = s.afe.feedback ∧
    (s.updateSetpoint).afe.pulses = s.afe.pulses ∧ (s.updateSetpoint).afe.revolution = s.afe.revolution ∧
    (s.updateSetpoint).afe.slowTaken = s.afe.slowTaken ∧ (s.updateSetpoint).afe.leakTaken = s.afe.leakTaken ∧
    (s.updateSetpoint).afe.slowSlot = s.afe.slowSlot ∧ (s.updateSetpoint).afe.leakSlot = s.afe.leakSlot ∧
    (s.updateSetpoint).afe.slowEnded = s.afe.slowEnded ∧ (s.updateSetpoint).afe.leakEnded = s.afe.leakEnded ∧
    (s.updateSetpoint).cs.slowDescs = s.cs.slowDescs ∧ (s.updateSetpoint).cs.leakDescs = s.cs.leakDescs ∧
    (s.updateSetpoint).cu.stack = s.cu.stack ∧ (s.updateSetpoint).cu.rl = s.cu.rl ∧ (s.updateSetpoint).cu.mask = s.cu.mask ∧
    (s.updateSetpoint).cu.mode = s.cu.mode ∧ (s.updateSetpoint).lp.receiver = s.lp.receiver ∧
    (s.updateSetpoint).lp.head = s.lp.head ∧ (s.updateSetpoint).lp.second = s.lp.second ∧
    (s.updateSetpoint).lp.badFrames = s.lp.badFrames ∧ (s.updateSetpoint).lp.overruns = s.lp.overruns ∧
    (s.updateSetpoint).lp.reply = s.lp.reply ∧ (s.updateSetpoint).lp.sending = s.lp.sending ∧
    (s.updateSetpoint).lp.restartDue = s.lp.restartDue := by
  unfold State.updateSetpoint
  dsimp only
  repeat' split
  all_goals simp

@[simp] theorem State.takeSpeed_parts (speed : Int) (s : State) :
    (s.takeSpeed speed).pe.setpoint = s.pe.setpoint ∧ (s.takeSpeed speed).pe.halt = s.pe.halt ∧
    (s.takeSpeed speed).pe.updates = s.pe.updates ∧ (s.takeSpeed speed).pe.sent = s.pe.sent ∧
    (s.takeSpeed speed).ut.idCounter = s.ut.idCounter ∧ (s.takeSpeed speed).oa.queue = s.oa.queue ∧
    (s.takeSpeed speed).oa.current = s.oa.current ∧ (s.takeSpeed speed).afe.live = s.afe.live ∧
    (s.takeSpeed speed).afe.faults = s.afe.faults ∧ (s.takeSpeed speed).afe.feedback = s.afe.feedback ∧
    (s.takeSpeed speed).afe.pulses = s.afe.pulses ∧ (s.takeSpeed speed).afe.revolution = s.afe.revolution ∧
    (s.takeSpeed speed).afe.slowTaken = s.afe.slowTaken ∧ (s.takeSpeed speed).afe.leakTaken = s.afe.leakTaken ∧
    (s.takeSpeed speed).afe.slowSlot = s.afe.slowSlot ∧ (s.takeSpeed speed).afe.leakSlot = s.afe.leakSlot ∧
    (s.takeSpeed speed).afe.slowEnded = s.afe.slowEnded ∧ (s.takeSpeed speed).afe.leakEnded = s.afe.leakEnded ∧
    (s.takeSpeed speed).cs.slowDescs = s.cs.slowDescs ∧ (s.takeSpeed speed).cs.leakDescs = s.cs.leakDescs ∧
    (s.takeSpeed speed).cu.stack = s.cu.stack ∧ (s.takeSpeed speed).cu.rl = s.cu.rl ∧
    (s.takeSpeed speed).cu.mask = s.cu.mask ∧ (s.takeSpeed speed).cu.mode = s.cu.mode ∧
    (s.takeSpeed speed).lp.receiver = s.lp.receiver ∧ (s.takeSpeed speed).lp.head = s.lp.head ∧
    (s.takeSpeed speed).lp.second = s.lp.second ∧ (s.takeSpeed speed).lp.badFrames = s.lp.badFrames ∧
    (s.takeSpeed speed).lp.overruns = s.lp.overruns ∧ (s.takeSpeed speed).lp.reply = s.lp.reply ∧
    (s.takeSpeed speed).lp.sending = s.lp.sending ∧ (s.takeSpeed speed).lp.restartDue = s.lp.restartDue := by
  unfold State.takeSpeed
  repeat' split
  all_goals simp

@[simp] theorem State.takeDrag_parts (seq : Word32) (xs : List SlowSample) (s : State) :
    (s.takeDrag seq xs).pe.phase = s.pe.phase ∧ (s.takeDrag seq xs).pe.step = s.pe.step ∧
    (s.takeDrag seq xs).pe.counters = s.pe.counters ∧ (s.takeDrag seq xs).pe.setpoint = s.pe.setpoint ∧
    (s.takeDrag seq xs).pe.enable = s.pe.enable ∧ (s.takeDrag seq xs).pe.brake = s.pe.brake ∧
    (s.takeDrag seq xs).pe.halt = s.pe.halt ∧ (s.takeDrag seq xs).pe.updates = s.pe.updates ∧
    (s.takeDrag seq xs).pe.sent = s.pe.sent := by
  unfold State.takeDrag
  repeat' split
  all_goals simp

@[simp] theorem State.absorb_parts (seq : Word32) (xs : List SlowSample) (s : State) :
    (s.absorb seq xs).pe.phase = s.pe.phase ∧ (s.absorb seq xs).pe.step = s.pe.step ∧
    (s.absorb seq xs).pe.counters = s.pe.counters ∧ (s.absorb seq xs).pe.setpoint = s.pe.setpoint ∧
    (s.absorb seq xs).pe.enable = s.pe.enable ∧ (s.absorb seq xs).pe.brake = s.pe.brake ∧
    (s.absorb seq xs).pe.halt = s.pe.halt ∧ (s.absorb seq xs).pe.updates = s.pe.updates ∧
    (s.absorb seq xs).pe.sent = s.pe.sent ∧ (s.absorb seq xs).ut.idCounter = s.ut.idCounter ∧
    (s.absorb seq xs).ut.transferLine = s.ut.transferLine ∧ (s.absorb seq xs).ut.transferTimer = s.ut.transferTimer := by
  unfold State.absorb
  split <;> simp

/-! ## Halts -/

@[simp] theorem State.applyProfileHalt_parts (was : StopSet) (s : State) :
    (s.applyProfileHalt was).pe.updates = s.pe.updates ∧ (s.applyProfileHalt was).pe.sent = s.pe.sent ∧
    (s.applyProfileHalt was).ut.idCounter = s.ut.idCounter ∧ (s.applyProfileHalt was).oa.queue = s.oa.queue ∧
    (s.applyProfileHalt was).oa.current = s.oa.current ∧ (s.applyProfileHalt was).afe.live = s.afe.live ∧
    (s.applyProfileHalt was).afe.faults = s.afe.faults ∧ (s.applyProfileHalt was).afe.feedback = s.afe.feedback ∧
    (s.applyProfileHalt was).afe.pulses = s.afe.pulses ∧ (s.applyProfileHalt was).afe.revolution = s.afe.revolution ∧
    (s.applyProfileHalt was).afe.slowTaken = s.afe.slowTaken ∧ (s.applyProfileHalt was).afe.leakTaken = s.afe.leakTaken ∧
    (s.applyProfileHalt was).afe.slowSlot = s.afe.slowSlot ∧ (s.applyProfileHalt was).afe.leakSlot = s.afe.leakSlot ∧
    (s.applyProfileHalt was).afe.slowEnded = s.afe.slowEnded ∧ (s.applyProfileHalt was).afe.leakEnded = s.afe.leakEnded ∧
    (s.applyProfileHalt was).cs.slowDescs = s.cs.slowDescs ∧ (s.applyProfileHalt was).cs.leakDescs = s.cs.leakDescs ∧
    (s.applyProfileHalt was).cu.stack = s.cu.stack ∧ (s.applyProfileHalt was).cu.rl = s.cu.rl ∧
    (s.applyProfileHalt was).cu.mask = s.cu.mask ∧ (s.applyProfileHalt was).cu.mode = s.cu.mode ∧
    (s.applyProfileHalt was).lp.receiver = s.lp.receiver ∧ (s.applyProfileHalt was).lp.head = s.lp.head ∧
    (s.applyProfileHalt was).lp.second = s.lp.second ∧ (s.applyProfileHalt was).lp.badFrames = s.lp.badFrames ∧
    (s.applyProfileHalt was).lp.overruns = s.lp.overruns ∧ (s.applyProfileHalt was).lp.reply = s.lp.reply ∧
    (s.applyProfileHalt was).lp.sending = s.lp.sending ∧ (s.applyProfileHalt was).lp.restartDue = s.lp.restartDue := by
  unfold State.applyProfileHalt
  split <;> simp

@[simp] theorem State.applyNoiseHalt_parts (was : StopSet) (s : State) :
    (s.applyNoiseHalt was).pe.phase = s.pe.phase ∧ (s.applyNoiseHalt was).pe.step = s.pe.step ∧
    (s.applyNoiseHalt was).pe.counters = s.pe.counters ∧ (s.applyNoiseHalt was).pe.setpoint = s.pe.setpoint ∧
    (s.applyNoiseHalt was).pe.enable = s.pe.enable ∧ (s.applyNoiseHalt was).pe.brake = s.pe.brake ∧
    (s.applyNoiseHalt was).pe.halt = s.pe.halt ∧ (s.applyNoiseHalt was).pe.updates = s.pe.updates ∧
    (s.applyNoiseHalt was).pe.sent = s.pe.sent ∧ (s.applyNoiseHalt was).oa.queue = s.oa.queue ∧
    (s.applyNoiseHalt was).oa.current = s.oa.current ∧ (s.applyNoiseHalt was).cs.vibDescs = s.cs.vibDescs ∧
    (s.applyNoiseHalt was).cs.slowDescs = s.cs.slowDescs ∧ (s.applyNoiseHalt was).cs.leakDescs = s.cs.leakDescs ∧
    (s.applyNoiseHalt was).cu.stack = s.cu.stack ∧ (s.applyNoiseHalt was).cu.rl = s.cu.rl ∧
    (s.applyNoiseHalt was).cu.mask = s.cu.mask ∧ (s.applyNoiseHalt was).cu.mode = s.cu.mode := by
  unfold State.applyNoiseHalt
  split <;> simp

@[simp] theorem State.applyLeakHalt_parts (was : StopSet) (s : State) :
    (s.applyLeakHalt was).ut.idCounter = s.ut.idCounter ∧ (s.applyLeakHalt was).lp.receiver = s.lp.receiver ∧
    (s.applyLeakHalt was).lp.head = s.lp.head ∧ (s.applyLeakHalt was).lp.second = s.lp.second ∧
    (s.applyLeakHalt was).lp.badFrames = s.lp.badFrames ∧ (s.applyLeakHalt was).lp.overruns = s.lp.overruns ∧
    (s.applyLeakHalt was).lp.reply = s.lp.reply ∧ (s.applyLeakHalt was).lp.sending = s.lp.sending ∧
    (s.applyLeakHalt was).lp.restartDue = s.lp.restartDue ∧ (s.applyLeakHalt was).cs.vibDescs = s.cs.vibDescs ∧
    (s.applyLeakHalt was).cs.slowDescs = s.cs.slowDescs ∧ (s.applyLeakHalt was).cs.leakDescs = s.cs.leakDescs ∧
    (s.applyLeakHalt was).cu.stack = s.cu.stack ∧ (s.applyLeakHalt was).cu.rl = s.cu.rl ∧
    (s.applyLeakHalt was).cu.mask = s.cu.mask ∧ (s.applyLeakHalt was).cu.mode = s.cu.mode ∧
    (s.applyLeakHalt was).lkc.resetVent = s.lkc.resetVent := by
  unfold State.applyLeakHalt
  split <;> simp

@[simp] theorem State.applyTransferHalt_parts (was : StopSet) (s : State) :
    (s.applyTransferHalt was).ut.idCounter = s.ut.idCounter ∧ (s.applyTransferHalt was).lp.receiver = s.lp.receiver ∧
    (s.applyTransferHalt was).lp.head = s.lp.head ∧ (s.applyTransferHalt was).lp.second = s.lp.second ∧
    (s.applyTransferHalt was).lp.badFrames = s.lp.badFrames ∧ (s.applyTransferHalt was).lp.overruns = s.lp.overruns ∧
    (s.applyTransferHalt was).lp.silence = s.lp.silence ∧ (s.applyTransferHalt was).lp.reply = s.lp.reply ∧
    (s.applyTransferHalt was).lp.sending = s.lp.sending ∧ (s.applyTransferHalt was).lp.restartDue = s.lp.restartDue ∧
    (s.applyTransferHalt was).cs.vibDescs = s.cs.vibDescs ∧ (s.applyTransferHalt was).cs.slowDescs = s.cs.slowDescs ∧
    (s.applyTransferHalt was).cs.leakDescs = s.cs.leakDescs ∧ (s.applyTransferHalt was).cu.stack = s.cu.stack ∧
    (s.applyTransferHalt was).cu.rl = s.cu.rl ∧ (s.applyTransferHalt was).cu.mask = s.cu.mask ∧
    (s.applyTransferHalt was).cu.mode = s.cu.mode := by
  unfold State.applyTransferHalt
  repeat' split
  all_goals simp

@[simp] theorem State.applyHalts_parts (was : StopSet) (s : State) :
    (s.applyHalts was).pe.updates = s.pe.updates ∧ (s.applyHalts was).pe.sent = s.pe.sent ∧
    (s.applyHalts was).ut.idCounter = s.ut.idCounter ∧ (s.applyHalts was).oa.queue = s.oa.queue ∧
    (s.applyHalts was).oa.current = s.oa.current ∧ (s.applyHalts was).afe.live = s.afe.live ∧
    (s.applyHalts was).afe.faults = s.afe.faults ∧ (s.applyHalts was).afe.feedback = s.afe.feedback ∧
    (s.applyHalts was).afe.pulses = s.afe.pulses ∧ (s.applyHalts was).afe.revolution = s.afe.revolution ∧
    (s.applyHalts was).afe.slowTaken = s.afe.slowTaken ∧ (s.applyHalts was).afe.leakTaken = s.afe.leakTaken ∧
    (s.applyHalts was).afe.slowSlot = s.afe.slowSlot ∧ (s.applyHalts was).afe.leakSlot = s.afe.leakSlot ∧
    (s.applyHalts was).afe.slowEnded = s.afe.slowEnded ∧ (s.applyHalts was).afe.leakEnded = s.afe.leakEnded ∧
    (s.applyHalts was).cs.slowDescs = s.cs.slowDescs ∧ (s.applyHalts was).cs.leakDescs = s.cs.leakDescs ∧
    (s.applyHalts was).cu.stack = s.cu.stack ∧ (s.applyHalts was).cu.rl = s.cu.rl ∧ (s.applyHalts was).cu.mask = s.cu.mask ∧
    (s.applyHalts was).cu.mode = s.cu.mode ∧ (s.applyHalts was).lp.receiver = s.lp.receiver ∧
    (s.applyHalts was).lp.head = s.lp.head ∧ (s.applyHalts was).lp.second = s.lp.second ∧
    (s.applyHalts was).lp.badFrames = s.lp.badFrames ∧ (s.applyHalts was).lp.overruns = s.lp.overruns ∧
    (s.applyHalts was).lp.reply = s.lp.reply ∧ (s.applyHalts was).lp.sending = s.lp.sending ∧
    (s.applyHalts was).lp.restartDue = s.lp.restartDue ∧
    (s.applyHalts was).lkc.resetVent = s.lkc.resetVent := by simp [State.applyHalts]

@[simp] theorem react_parts (s t : State) :
    (react s t).pe.updates = t.pe.updates ∧ (react s t).pe.sent = t.pe.sent ∧ (react s t).ut.idCounter = t.ut.idCounter ∧
    (react s t).oa.queue = t.oa.queue ∧ (react s t).oa.current = t.oa.current ∧ (react s t).afe.live = t.afe.live ∧
    (react s t).afe.faults = t.afe.faults ∧ (react s t).afe.feedback = t.afe.feedback ∧
    (react s t).afe.pulses = t.afe.pulses ∧ (react s t).afe.revolution = t.afe.revolution ∧
    (react s t).afe.slowTaken = t.afe.slowTaken ∧ (react s t).afe.leakTaken = t.afe.leakTaken ∧
    (react s t).afe.slowSlot = t.afe.slowSlot ∧ (react s t).afe.leakSlot = t.afe.leakSlot ∧
    (react s t).afe.slowEnded = t.afe.slowEnded ∧ (react s t).afe.leakEnded = t.afe.leakEnded ∧
    (react s t).cs.slowDescs = t.cs.slowDescs ∧ (react s t).cs.leakDescs = t.cs.leakDescs ∧ (react s t).cu.mask = t.cu.mask ∧
    (react s t).cu.mode = t.cu.mode ∧ (react s t).lp.receiver = t.lp.receiver ∧ (react s t).lp.head = t.lp.head ∧
    (react s t).lp.second = t.lp.second ∧ (react s t).lp.badFrames = t.lp.badFrames ∧
    (react s t).lp.overruns = t.lp.overruns ∧ (react s t).lp.reply = t.lp.reply ∧ (react s t).lp.sending = t.lp.sending ∧
    (react s t).lp.restartDue = t.lp.restartDue ∧ (react s t).lkc.resetVent = t.lkc.resetVent := by simp [react]

/-! ## The Acquisition Front End -/

@[simp] theorem State.elapseMs_parts (ms : Nat) (s : State) :
    (s.elapseMs ms).lp.receiver = s.lp.receiver ∧ (s.elapseMs ms).lp.head = s.lp.head ∧
    (s.elapseMs ms).lp.second = s.lp.second ∧ (s.elapseMs ms).lp.badFrames = s.lp.badFrames ∧
    (s.elapseMs ms).lp.overruns = s.lp.overruns ∧ (s.elapseMs ms).lp.reply = s.lp.reply ∧
    (s.elapseMs ms).lp.sending = s.lp.sending ∧ (s.elapseMs ms).lp.restartDue = s.lp.restartDue ∧
    (s.elapseMs ms).ut.idCounter = s.ut.idCounter ∧ (s.elapseMs ms).ut.transferLine = s.ut.transferLine ∧
    (s.elapseMs ms).pe.phase = s.pe.phase ∧ (s.elapseMs ms).pe.step = s.pe.step ∧
    (s.elapseMs ms).pe.counters = s.pe.counters ∧ (s.elapseMs ms).pe.setpoint = s.pe.setpoint ∧
    (s.elapseMs ms).pe.enable = s.pe.enable ∧ (s.elapseMs ms).pe.brake = s.pe.brake ∧ (s.elapseMs ms).pe.halt = s.pe.halt ∧
    (s.elapseMs ms).pe.updates = s.pe.updates ∧ (s.elapseMs ms).pe.sent = s.pe.sent ∧ (s.elapseMs ms).afe.live = s.afe.live ∧
    (s.elapseMs ms).afe.faults = s.afe.faults ∧ (s.elapseMs ms).afe.feedback = s.afe.feedback ∧
    (s.elapseMs ms).afe.pulses = s.afe.pulses ∧ (s.elapseMs ms).afe.revolution = s.afe.revolution ∧
    (s.elapseMs ms).afe.openVib = s.afe.openVib ∧ (s.elapseMs ms).afe.slowTaken = s.afe.slowTaken ∧
    (s.elapseMs ms).afe.leakTaken = s.afe.leakTaken ∧ (s.elapseMs ms).afe.slowSlot = s.afe.slowSlot ∧
    (s.elapseMs ms).afe.leakSlot = s.afe.leakSlot ∧ (s.elapseMs ms).afe.slowEnded = s.afe.slowEnded ∧
    (s.elapseMs ms).afe.leakEnded = s.afe.leakEnded ∧ (s.elapseMs ms).lkc.queue = s.lkc.queue ∧
    (s.elapseMs ms).lkc.resetVent = s.lkc.resetVent := by simp [State.elapseMs]

@[simp] theorem State.elapseTo_parts (ms : Nat) (s : State) :
    (s.elapseTo ms).lp.receiver = s.lp.receiver ∧ (s.elapseTo ms).lp.head = s.lp.head ∧
    (s.elapseTo ms).lp.second = s.lp.second ∧ (s.elapseTo ms).lp.badFrames = s.lp.badFrames ∧
    (s.elapseTo ms).lp.overruns = s.lp.overruns ∧ (s.elapseTo ms).lp.reply = s.lp.reply ∧
    (s.elapseTo ms).lp.sending = s.lp.sending ∧ (s.elapseTo ms).lp.restartDue = s.lp.restartDue ∧
    (s.elapseTo ms).ut.idCounter = s.ut.idCounter ∧ (s.elapseTo ms).ut.transferLine = s.ut.transferLine ∧
    (s.elapseTo ms).pe.phase = s.pe.phase ∧ (s.elapseTo ms).pe.step = s.pe.step ∧
    (s.elapseTo ms).pe.counters = s.pe.counters ∧ (s.elapseTo ms).pe.setpoint = s.pe.setpoint ∧
    (s.elapseTo ms).pe.enable = s.pe.enable ∧ (s.elapseTo ms).pe.brake = s.pe.brake ∧ (s.elapseTo ms).pe.halt = s.pe.halt ∧
    (s.elapseTo ms).pe.updates = s.pe.updates ∧ (s.elapseTo ms).pe.sent = s.pe.sent ∧ (s.elapseTo ms).afe.live = s.afe.live ∧
    (s.elapseTo ms).afe.faults = s.afe.faults ∧ (s.elapseTo ms).afe.feedback = s.afe.feedback ∧
    (s.elapseTo ms).afe.pulses = s.afe.pulses ∧ (s.elapseTo ms).afe.revolution = s.afe.revolution ∧
    (s.elapseTo ms).afe.openVib = s.afe.openVib ∧ (s.elapseTo ms).afe.slowTaken = s.afe.slowTaken ∧
    (s.elapseTo ms).afe.leakTaken = s.afe.leakTaken ∧ (s.elapseTo ms).afe.slowSlot = s.afe.slowSlot ∧
    (s.elapseTo ms).afe.leakSlot = s.afe.leakSlot ∧ (s.elapseTo ms).afe.slowEnded = s.afe.slowEnded ∧
    (s.elapseTo ms).afe.leakEnded = s.afe.leakEnded ∧ (s.elapseTo ms).lkc.queue = s.lkc.queue ∧
    (s.elapseTo ms).lkc.resetVent = s.lkc.resetVent := by simp [State.elapseTo]

@[simp] theorem State.tick_parts (s : State) :
    s.tick.lp.receiver = s.lp.receiver ∧ s.tick.lp.head = s.lp.head ∧ s.tick.lp.second = s.lp.second ∧
    s.tick.lp.badFrames = s.lp.badFrames ∧ s.tick.lp.overruns = s.lp.overruns ∧ s.tick.lp.reply = s.lp.reply ∧
    s.tick.lp.sending = s.lp.sending ∧ s.tick.lp.restartDue = s.lp.restartDue ∧ s.tick.ut.idCounter = s.ut.idCounter ∧
    s.tick.ut.transferLine = s.ut.transferLine ∧ s.tick.pe.phase = s.pe.phase ∧ s.tick.pe.step = s.pe.step ∧
    s.tick.pe.counters = s.pe.counters ∧ s.tick.pe.setpoint = s.pe.setpoint ∧ s.tick.pe.enable = s.pe.enable ∧
    s.tick.pe.brake = s.pe.brake ∧ s.tick.pe.halt = s.pe.halt ∧ s.tick.pe.updates = s.pe.updates ∧
    s.tick.pe.sent = s.pe.sent ∧ s.tick.afe.live = s.afe.live ∧ s.tick.afe.faults = s.afe.faults ∧
    s.tick.afe.feedback = s.afe.feedback ∧ s.tick.afe.pulses = s.afe.pulses ∧ s.tick.afe.revolution = s.afe.revolution ∧
    s.tick.afe.openVib = s.afe.openVib ∧ s.tick.afe.slowTaken = s.afe.slowTaken ∧ s.tick.afe.leakTaken = s.afe.leakTaken ∧
    s.tick.afe.slowSlot = s.afe.slowSlot ∧ s.tick.afe.leakSlot = s.afe.leakSlot ∧ s.tick.afe.slowEnded = s.afe.slowEnded ∧
    s.tick.afe.leakEnded = s.afe.leakEnded ∧ s.tick.lkc.queue = s.lkc.queue ∧ s.tick.lkc.resetVent = s.lkc.resetVent := by
  simp [State.tick]

@[simp] theorem State.takeChannel_parts (i : Fin 10) (x : Int) (s : State) :
    (s.takeChannel i x).afe.feedback = s.afe.feedback ∧ (s.takeChannel i x).afe.pulses = s.afe.pulses ∧
    (s.takeChannel i x).afe.revolution = s.afe.revolution ∧ (s.takeChannel i x).afe.openVib = s.afe.openVib ∧
    (s.takeChannel i x).afe.slowTaken = s.afe.slowTaken ∧ (s.takeChannel i x).afe.leakTaken = s.afe.leakTaken ∧
    (s.takeChannel i x).afe.slowSlot = s.afe.slowSlot ∧ (s.takeChannel i x).afe.leakSlot = s.afe.leakSlot ∧
    (s.takeChannel i x).afe.slowEnded = s.afe.slowEnded ∧
    (s.takeChannel i x).afe.leakEnded = s.afe.leakEnded := by simp [State.takeChannel]

@[simp] theorem State.judgeSensors_parts (s : State) :
    (s.judgeSensors).cu.stack = s.cu.stack ∧ (s.judgeSensors).cu.rl = s.cu.rl ∧ (s.judgeSensors).cu.mask = s.cu.mask ∧
    (s.judgeSensors).cu.mode = s.cu.mode := by simp [State.judgeSensors]

@[simp] theorem State.judgeSlow_parts (s : State) :
    (s.judgeSlow).cu.stack = s.cu.stack ∧ (s.judgeSlow).cu.rl = s.cu.rl ∧ (s.judgeSlow).cu.mask = s.cu.mask ∧
    (s.judgeSlow).cu.mode = s.cu.mode := by simp [State.judgeSlow]

@[simp] theorem State.storeSlow_parts (s : State) :
    (s.storeSlow).cs.vibDescs = s.cs.vibDescs ∧ (s.storeSlow).cs.leakDescs = s.cs.leakDescs := by
  unfold State.storeSlow
  split <;> simp

@[simp] theorem State.storeLeak_parts (s : State) :
    (s.storeLeak).cs.vibDescs = s.cs.vibDescs ∧ (s.storeLeak).cs.slowDescs = s.cs.slowDescs := by
  unfold State.storeLeak
  split <;> simp

@[simp] theorem State.takeSlow_parts (x : SlowSample) (s : State) :
    (s.takeSlow x).lp.receiver = s.lp.receiver ∧ (s.takeSlow x).lp.head = s.lp.head ∧
    (s.takeSlow x).lp.second = s.lp.second ∧ (s.takeSlow x).lp.badFrames = s.lp.badFrames ∧
    (s.takeSlow x).lp.overruns = s.lp.overruns ∧ (s.takeSlow x).lp.reply = s.lp.reply ∧
    (s.takeSlow x).lp.sending = s.lp.sending ∧ (s.takeSlow x).lp.restartDue = s.lp.restartDue ∧
    (s.takeSlow x).ut.idCounter = s.ut.idCounter ∧ (s.takeSlow x).ut.transferLine = s.ut.transferLine ∧
    (s.takeSlow x).pe.phase = s.pe.phase ∧ (s.takeSlow x).pe.step = s.pe.step ∧ (s.takeSlow x).pe.counters = s.pe.counters ∧
    (s.takeSlow x).pe.setpoint = s.pe.setpoint ∧ (s.takeSlow x).pe.enable = s.pe.enable ∧
    (s.takeSlow x).pe.brake = s.pe.brake ∧ (s.takeSlow x).pe.halt = s.pe.halt ∧ (s.takeSlow x).pe.updates = s.pe.updates ∧
    (s.takeSlow x).pe.sent = s.pe.sent ∧ (s.takeSlow x).afe.feedback = s.afe.feedback ∧
    (s.takeSlow x).afe.pulses = s.afe.pulses ∧ (s.takeSlow x).afe.revolution = s.afe.revolution ∧
    (s.takeSlow x).afe.openVib = s.afe.openVib ∧ (s.takeSlow x).afe.leakTaken = s.afe.leakTaken ∧
    (s.takeSlow x).afe.slowSlot = s.afe.slowSlot ∧ (s.takeSlow x).afe.leakSlot = s.afe.leakSlot ∧
    (s.takeSlow x).afe.slowEnded = s.afe.slowEnded ∧ (s.takeSlow x).afe.leakEnded = s.afe.leakEnded ∧
    (s.takeSlow x).lkc.queue = s.lkc.queue ∧ (s.takeSlow x).lkc.resetVent = s.lkc.resetVent ∧
    (s.takeSlow x).cs.vibDescs = s.cs.vibDescs ∧ (s.takeSlow x).cs.leakDescs = s.cs.leakDescs ∧
    (s.takeSlow x).cu.stack = s.cu.stack ∧ (s.takeSlow x).cu.rl = s.cu.rl ∧ (s.takeSlow x).cu.mask = s.cu.mask ∧
    (s.takeSlow x).cu.mode = s.cu.mode := by simp [State.takeSlow]

@[simp] theorem State.checkFill_parts (c : Fin 4) (s : State) :
    (s.checkFill c).lkc.resetVent = s.lkc.resetVent := by
  unfold State.checkFill
  dsimp only
  split <;> simp

@[simp] theorem State.checkFills_parts (s : State) :
    (s.checkFills).lkc.resetVent = s.lkc.resetVent := by
  unfold State.checkFills
  split <;> simp

@[simp] theorem State.takeLeak_parts (x : LeakSample) (s : State) :
    (s.takeLeak x).lp.receiver = s.lp.receiver ∧ (s.takeLeak x).lp.head = s.lp.head ∧
    (s.takeLeak x).lp.second = s.lp.second ∧ (s.takeLeak x).lp.badFrames = s.lp.badFrames ∧
    (s.takeLeak x).lp.overruns = s.lp.overruns ∧ (s.takeLeak x).lp.reply = s.lp.reply ∧
    (s.takeLeak x).lp.sending = s.lp.sending ∧ (s.takeLeak x).lp.restartDue = s.lp.restartDue ∧
    (s.takeLeak x).ut.idCounter = s.ut.idCounter ∧ (s.takeLeak x).ut.transferLine = s.ut.transferLine ∧
    (s.takeLeak x).pe.phase = s.pe.phase ∧ (s.takeLeak x).pe.step = s.pe.step ∧ (s.takeLeak x).pe.counters = s.pe.counters ∧
    (s.takeLeak x).pe.setpoint = s.pe.setpoint ∧ (s.takeLeak x).pe.enable = s.pe.enable ∧
    (s.takeLeak x).pe.brake = s.pe.brake ∧ (s.takeLeak x).pe.halt = s.pe.halt ∧ (s.takeLeak x).pe.updates = s.pe.updates ∧
    (s.takeLeak x).pe.sent = s.pe.sent ∧ (s.takeLeak x).afe.feedback = s.afe.feedback ∧
    (s.takeLeak x).afe.pulses = s.afe.pulses ∧ (s.takeLeak x).afe.revolution = s.afe.revolution ∧
    (s.takeLeak x).afe.openVib = s.afe.openVib ∧ (s.takeLeak x).afe.slowTaken = s.afe.slowTaken ∧
    (s.takeLeak x).afe.slowSlot = s.afe.slowSlot ∧ (s.takeLeak x).afe.leakSlot = s.afe.leakSlot ∧
    (s.takeLeak x).afe.slowEnded = s.afe.slowEnded ∧ (s.takeLeak x).afe.leakEnded = s.afe.leakEnded ∧
    (s.takeLeak x).lkc.resetVent = s.lkc.resetVent ∧ (s.takeLeak x).cs.vibDescs = s.cs.vibDescs ∧
    (s.takeLeak x).cs.slowDescs = s.cs.slowDescs ∧ (s.takeLeak x).cu.stack = s.cu.stack ∧ (s.takeLeak x).cu.rl = s.cu.rl ∧
    (s.takeLeak x).cu.mask = s.cu.mask ∧ (s.takeLeak x).cu.mode = s.cu.mode := by
  unfold State.takeLeak
  dsimp only
  split <;> simp

@[simp] theorem State.storeAngle_parts (x : AngleSample) (s : State) :
    (s.storeAngle x).cs.slowDescs = s.cs.slowDescs ∧ (s.storeAngle x).cs.leakDescs = s.cs.leakDescs := by
  unfold State.storeAngle
  split <;> simp

@[simp] theorem State.pulse_parts (us : Nat) (forward : Bool) (x : AngleSample) (s : State) :
    (s.pulse us forward x).lp.receiver = s.lp.receiver ∧ (s.pulse us forward x).lp.head = s.lp.head ∧
    (s.pulse us forward x).lp.second = s.lp.second ∧ (s.pulse us forward x).lp.badFrames = s.lp.badFrames ∧
    (s.pulse us forward x).lp.overruns = s.lp.overruns ∧ (s.pulse us forward x).lp.reply = s.lp.reply ∧
    (s.pulse us forward x).lp.sending = s.lp.sending ∧ (s.pulse us forward x).lp.restartDue = s.lp.restartDue ∧
    (s.pulse us forward x).ut.idCounter = s.ut.idCounter ∧ (s.pulse us forward x).ut.transferLine = s.ut.transferLine ∧
    (s.pulse us forward x).pe.phase = s.pe.phase ∧ (s.pulse us forward x).pe.step = s.pe.step ∧
    (s.pulse us forward x).pe.counters = s.pe.counters ∧ (s.pulse us forward x).pe.setpoint = s.pe.setpoint ∧
    (s.pulse us forward x).pe.enable = s.pe.enable ∧ (s.pulse us forward x).pe.brake = s.pe.brake ∧
    (s.pulse us forward x).pe.halt = s.pe.halt ∧ (s.pulse us forward x).pe.updates = s.pe.updates ∧
    (s.pulse us forward x).pe.sent = s.pe.sent ∧ (s.pulse us forward x).afe.live = s.afe.live ∧
    (s.pulse us forward x).afe.faults = s.afe.faults ∧ (s.pulse us forward x).afe.feedback = s.afe.feedback ∧
    (s.pulse us forward x).afe.revolution = s.afe.revolution ∧ (s.pulse us forward x).afe.openVib = s.afe.openVib ∧
    (s.pulse us forward x).afe.slowTaken = s.afe.slowTaken ∧ (s.pulse us forward x).afe.leakTaken = s.afe.leakTaken ∧
    (s.pulse us forward x).afe.slowSlot = s.afe.slowSlot ∧ (s.pulse us forward x).afe.leakSlot = s.afe.leakSlot ∧
    (s.pulse us forward x).afe.slowEnded = s.afe.slowEnded ∧ (s.pulse us forward x).afe.leakEnded = s.afe.leakEnded ∧
    (s.pulse us forward x).lkc.queue = s.lkc.queue ∧ (s.pulse us forward x).lkc.resetVent = s.lkc.resetVent ∧
    (s.pulse us forward x).cs.slowDescs = s.cs.slowDescs ∧ (s.pulse us forward x).cs.leakDescs = s.cs.leakDescs := by
  unfold State.pulse
  dsimp only
  split <;> simp

@[simp] theorem State.closeVib_parts (s : State) :
    (s.closeVib).afe.live = s.afe.live ∧ (s.closeVib).afe.faults = s.afe.faults ∧
    (s.closeVib).afe.feedback = s.afe.feedback ∧ (s.closeVib).afe.pulses = s.afe.pulses ∧
    (s.closeVib).afe.revolution = s.afe.revolution ∧ (s.closeVib).afe.slowTaken = s.afe.slowTaken ∧
    (s.closeVib).afe.leakTaken = s.afe.leakTaken ∧ (s.closeVib).afe.slowSlot = s.afe.slowSlot ∧
    (s.closeVib).afe.leakSlot = s.afe.leakSlot ∧ (s.closeVib).afe.slowEnded = s.afe.slowEnded ∧
    (s.closeVib).afe.leakEnded = s.afe.leakEnded ∧ (s.closeVib).cs.slowDescs = s.cs.slowDescs ∧
    (s.closeVib).cs.leakDescs = s.cs.leakDescs ∧ (s.closeVib).cu.stack = s.cu.stack ∧ (s.closeVib).cu.rl = s.cu.rl ∧
    (s.closeVib).cu.mask = s.cu.mask ∧ (s.closeVib).cu.mode = s.cu.mode ∧ (s.closeVib).lp.receiver = s.lp.receiver ∧
    (s.closeVib).lp.head = s.lp.head ∧ (s.closeVib).lp.second = s.lp.second ∧ (s.closeVib).lp.badFrames = s.lp.badFrames ∧
    (s.closeVib).lp.overruns = s.lp.overruns ∧ (s.closeVib).lp.silence = s.lp.silence ∧ (s.closeVib).lp.reply = s.lp.reply ∧
    (s.closeVib).lp.sending = s.lp.sending ∧ (s.closeVib).lp.restartDue = s.lp.restartDue ∧
    (s.closeVib).ut.idCounter = s.ut.idCounter ∧ (s.closeVib).ut.transferLine = s.ut.transferLine ∧
    (s.closeVib).ut.transferTimer = s.ut.transferTimer := by
  unfold State.closeVib
  split <;> simp

@[simp] theorem State.countIndex_parts (s : State) :
    (s.countIndex).afe.live = s.afe.live ∧ (s.countIndex).afe.faults = s.afe.faults ∧
    (s.countIndex).afe.feedback = s.afe.feedback ∧ (s.countIndex).afe.openVib = s.afe.openVib ∧
    (s.countIndex).afe.slowTaken = s.afe.slowTaken ∧ (s.countIndex).afe.leakTaken = s.afe.leakTaken ∧
    (s.countIndex).afe.slowSlot = s.afe.slowSlot ∧ (s.countIndex).afe.leakSlot = s.afe.leakSlot ∧
    (s.countIndex).afe.slowEnded = s.afe.slowEnded ∧
    (s.countIndex).afe.leakEnded = s.afe.leakEnded := by simp [State.countIndex]

@[simp] theorem State.captureVib_parts (w : Window) (resumed : Bool) (x : AngleSample) (s : State) :
    (s.captureVib w resumed x).cs.slowDescs = s.cs.slowDescs ∧ (s.captureVib w resumed x).cs.leakDescs = s.cs.leakDescs ∧
    (s.captureVib w resumed x).afe.live = s.afe.live ∧ (s.captureVib w resumed x).afe.faults = s.afe.faults ∧
    (s.captureVib w resumed x).afe.feedback = s.afe.feedback ∧ (s.captureVib w resumed x).afe.pulses = s.afe.pulses ∧
    (s.captureVib w resumed x).afe.revolution = s.afe.revolution ∧
    (s.captureVib w resumed x).afe.slowTaken = s.afe.slowTaken ∧ (s.captureVib w resumed x).afe.leakTaken = s.afe.leakTaken ∧
    (s.captureVib w resumed x).afe.slowSlot = s.afe.slowSlot ∧ (s.captureVib w resumed x).afe.leakSlot = s.afe.leakSlot ∧
    (s.captureVib w resumed x).afe.slowEnded = s.afe.slowEnded ∧ (s.captureVib w resumed x).afe.leakEnded = s.afe.leakEnded ∧
    (s.captureVib w resumed x).cu.stack = s.cu.stack ∧ (s.captureVib w resumed x).cu.rl = s.cu.rl ∧
    (s.captureVib w resumed x).cu.mask = s.cu.mask ∧ (s.captureVib w resumed x).cu.mode = s.cu.mode ∧
    (s.captureVib w resumed x).lp.receiver = s.lp.receiver ∧ (s.captureVib w resumed x).lp.head = s.lp.head ∧
    (s.captureVib w resumed x).lp.second = s.lp.second ∧ (s.captureVib w resumed x).lp.badFrames = s.lp.badFrames ∧
    (s.captureVib w resumed x).lp.overruns = s.lp.overruns ∧ (s.captureVib w resumed x).lp.silence = s.lp.silence ∧
    (s.captureVib w resumed x).lp.reply = s.lp.reply ∧ (s.captureVib w resumed x).lp.sending = s.lp.sending ∧
    (s.captureVib w resumed x).lp.restartDue = s.lp.restartDue := by
  unfold State.captureVib
  split <;> simp

@[simp] theorem State.boundaryVib_parts (x : AngleSample) (s : State) :
    (s.boundaryVib x).cs.slowDescs = s.cs.slowDescs ∧ (s.boundaryVib x).cs.leakDescs = s.cs.leakDescs ∧
    (s.boundaryVib x).afe.live = s.afe.live ∧ (s.boundaryVib x).afe.faults = s.afe.faults ∧
    (s.boundaryVib x).afe.feedback = s.afe.feedback ∧ (s.boundaryVib x).afe.pulses = s.afe.pulses ∧
    (s.boundaryVib x).afe.revolution = s.afe.revolution ∧ (s.boundaryVib x).afe.slowTaken = s.afe.slowTaken ∧
    (s.boundaryVib x).afe.leakTaken = s.afe.leakTaken ∧ (s.boundaryVib x).afe.slowSlot = s.afe.slowSlot ∧
    (s.boundaryVib x).afe.leakSlot = s.afe.leakSlot ∧ (s.boundaryVib x).afe.slowEnded = s.afe.slowEnded ∧
    (s.boundaryVib x).afe.leakEnded = s.afe.leakEnded ∧ (s.boundaryVib x).cu.stack = s.cu.stack ∧
    (s.boundaryVib x).cu.rl = s.cu.rl ∧ (s.boundaryVib x).cu.mask = s.cu.mask ∧ (s.boundaryVib x).cu.mode = s.cu.mode ∧
    (s.boundaryVib x).lp.receiver = s.lp.receiver ∧ (s.boundaryVib x).lp.head = s.lp.head ∧
    (s.boundaryVib x).lp.second = s.lp.second ∧ (s.boundaryVib x).lp.badFrames = s.lp.badFrames ∧
    (s.boundaryVib x).lp.overruns = s.lp.overruns ∧ (s.boundaryVib x).lp.silence = s.lp.silence ∧
    (s.boundaryVib x).lp.reply = s.lp.reply ∧ (s.boundaryVib x).lp.sending = s.lp.sending ∧
    (s.boundaryVib x).lp.restartDue = s.lp.restartDue ∧ (s.boundaryVib x).oa.queue = s.oa.queue ∧
    (s.boundaryVib x).oa.current = s.oa.current := by
  unfold State.boundaryVib
  repeat' split
  all_goals simp

@[simp] theorem State.index_parts (us : Nat) (x : AngleSample) (s : State) :
    (s.index us x).lp.receiver = s.lp.receiver ∧ (s.index us x).lp.head = s.lp.head ∧
    (s.index us x).lp.second = s.lp.second ∧ (s.index us x).lp.badFrames = s.lp.badFrames ∧
    (s.index us x).lp.overruns = s.lp.overruns ∧ (s.index us x).lp.reply = s.lp.reply ∧
    (s.index us x).lp.sending = s.lp.sending ∧ (s.index us x).lp.restartDue = s.lp.restartDue ∧
    (s.index us x).ut.idCounter = s.ut.idCounter ∧ (s.index us x).pe.phase = s.pe.phase ∧
    (s.index us x).pe.step = s.pe.step ∧ (s.index us x).pe.counters = s.pe.counters ∧
    (s.index us x).pe.setpoint = s.pe.setpoint ∧ (s.index us x).pe.enable = s.pe.enable ∧
    (s.index us x).pe.brake = s.pe.brake ∧ (s.index us x).pe.halt = s.pe.halt ∧ (s.index us x).pe.updates = s.pe.updates ∧
    (s.index us x).pe.sent = s.pe.sent ∧ (s.index us x).afe.live = s.afe.live ∧ (s.index us x).afe.faults = s.afe.faults ∧
    (s.index us x).afe.feedback = s.afe.feedback ∧ (s.index us x).afe.slowTaken = s.afe.slowTaken ∧
    (s.index us x).afe.leakTaken = s.afe.leakTaken ∧ (s.index us x).afe.slowSlot = s.afe.slowSlot ∧
    (s.index us x).afe.leakSlot = s.afe.leakSlot ∧ (s.index us x).afe.slowEnded = s.afe.slowEnded ∧
    (s.index us x).afe.leakEnded = s.afe.leakEnded ∧ (s.index us x).lkc.queue = s.lkc.queue ∧
    (s.index us x).lkc.resetVent = s.lkc.resetVent ∧ (s.index us x).cs.slowDescs = s.cs.slowDescs ∧
    (s.index us x).cs.leakDescs = s.cs.leakDescs ∧ (s.index us x).cu.stack = s.cu.stack ∧ (s.index us x).cu.rl = s.cu.rl ∧
    (s.index us x).cu.mask = s.cu.mask ∧ (s.index us x).cu.mode = s.cu.mode := by simp [State.index]

@[simp] theorem State.revolutionTimeout_parts (s : State) :
    (s.revolutionTimeout).lp.receiver = s.lp.receiver ∧ (s.revolutionTimeout).lp.head = s.lp.head ∧
    (s.revolutionTimeout).lp.second = s.lp.second ∧ (s.revolutionTimeout).lp.badFrames = s.lp.badFrames ∧
    (s.revolutionTimeout).lp.overruns = s.lp.overruns ∧ (s.revolutionTimeout).lp.reply = s.lp.reply ∧
    (s.revolutionTimeout).lp.sending = s.lp.sending ∧ (s.revolutionTimeout).lp.restartDue = s.lp.restartDue ∧
    (s.revolutionTimeout).ut.idCounter = s.ut.idCounter ∧ (s.revolutionTimeout).ut.transferLine = s.ut.transferLine ∧
    (s.revolutionTimeout).pe.phase = s.pe.phase ∧ (s.revolutionTimeout).pe.step = s.pe.step ∧
    (s.revolutionTimeout).pe.counters = s.pe.counters ∧ (s.revolutionTimeout).pe.setpoint = s.pe.setpoint ∧
    (s.revolutionTimeout).pe.enable = s.pe.enable ∧ (s.revolutionTimeout).pe.brake = s.pe.brake ∧
    (s.revolutionTimeout).pe.halt = s.pe.halt ∧ (s.revolutionTimeout).pe.updates = s.pe.updates ∧
    (s.revolutionTimeout).pe.sent = s.pe.sent ∧ (s.revolutionTimeout).afe.live = s.afe.live ∧
    (s.revolutionTimeout).afe.faults = s.afe.faults ∧ (s.revolutionTimeout).afe.feedback = s.afe.feedback ∧
    (s.revolutionTimeout).afe.pulses = s.afe.pulses ∧ (s.revolutionTimeout).afe.revolution = s.afe.revolution ∧
    (s.revolutionTimeout).afe.slowTaken = s.afe.slowTaken ∧ (s.revolutionTimeout).afe.leakTaken = s.afe.leakTaken ∧
    (s.revolutionTimeout).afe.slowSlot = s.afe.slowSlot ∧ (s.revolutionTimeout).afe.leakSlot = s.afe.leakSlot ∧
    (s.revolutionTimeout).afe.slowEnded = s.afe.slowEnded ∧ (s.revolutionTimeout).afe.leakEnded = s.afe.leakEnded ∧
    (s.revolutionTimeout).lkc.queue = s.lkc.queue ∧ (s.revolutionTimeout).lkc.resetVent = s.lkc.resetVent ∧
    (s.revolutionTimeout).cs.slowDescs = s.cs.slowDescs ∧ (s.revolutionTimeout).cs.leakDescs = s.cs.leakDescs ∧
    (s.revolutionTimeout).cu.stack = s.cu.stack ∧ (s.revolutionTimeout).cu.rl = s.cu.rl ∧
    (s.revolutionTimeout).cu.mask = s.cu.mask ∧ (s.revolutionTimeout).cu.mode = s.cu.mode := by
  unfold State.revolutionTimeout
  split <;> simp

@[simp] theorem State.captureSlow_parts (n : Nat) (resumed : Bool) (s : State) :
    (s.captureSlow n resumed).cs.vibDescs = s.cs.vibDescs ∧ (s.captureSlow n resumed).cs.leakDescs = s.cs.leakDescs ∧
    (s.captureSlow n resumed).cu.stack = s.cu.stack ∧ (s.captureSlow n resumed).cu.rl = s.cu.rl ∧
    (s.captureSlow n resumed).cu.mask = s.cu.mask ∧ (s.captureSlow n resumed).cu.mode = s.cu.mode ∧
    (s.captureSlow n resumed).lp.receiver = s.lp.receiver ∧ (s.captureSlow n resumed).lp.head = s.lp.head ∧
    (s.captureSlow n resumed).lp.second = s.lp.second ∧ (s.captureSlow n resumed).lp.badFrames = s.lp.badFrames ∧
    (s.captureSlow n resumed).lp.overruns = s.lp.overruns ∧ (s.captureSlow n resumed).lp.silence = s.lp.silence ∧
    (s.captureSlow n resumed).lp.reply = s.lp.reply ∧ (s.captureSlow n resumed).lp.sending = s.lp.sending ∧
    (s.captureSlow n resumed).lp.restartDue = s.lp.restartDue := by
  unfold State.captureSlow
  split <;> simp

@[simp] theorem State.captureLeak_parts (n : Nat) (resumed : Bool) (s : State) :
    (s.captureLeak n resumed).cs.vibDescs = s.cs.vibDescs ∧ (s.captureLeak n resumed).cs.slowDescs = s.cs.slowDescs ∧
    (s.captureLeak n resumed).cu.stack = s.cu.stack ∧ (s.captureLeak n resumed).cu.rl = s.cu.rl ∧
    (s.captureLeak n resumed).cu.mask = s.cu.mask ∧ (s.captureLeak n resumed).cu.mode = s.cu.mode ∧
    (s.captureLeak n resumed).lp.receiver = s.lp.receiver ∧ (s.captureLeak n resumed).lp.head = s.lp.head ∧
    (s.captureLeak n resumed).lp.second = s.lp.second ∧ (s.captureLeak n resumed).lp.badFrames = s.lp.badFrames ∧
    (s.captureLeak n resumed).lp.overruns = s.lp.overruns ∧ (s.captureLeak n resumed).lp.silence = s.lp.silence ∧
    (s.captureLeak n resumed).lp.reply = s.lp.reply ∧ (s.captureLeak n resumed).lp.sending = s.lp.sending ∧
    (s.captureLeak n resumed).lp.restartDue = s.lp.restartDue := by
  unfold State.captureLeak
  split <;> simp

@[simp] theorem State.boundarySlow_parts (n : Nat) (s : State) :
    (s.boundarySlow n).cs.vibDescs = s.cs.vibDescs ∧ (s.boundarySlow n).cs.leakDescs = s.cs.leakDescs ∧
    (s.boundarySlow n).cu.stack = s.cu.stack ∧ (s.boundarySlow n).cu.rl = s.cu.rl ∧ (s.boundarySlow n).cu.mask = s.cu.mask ∧
    (s.boundarySlow n).cu.mode = s.cu.mode ∧ (s.boundarySlow n).lp.receiver = s.lp.receiver ∧
    (s.boundarySlow n).lp.head = s.lp.head ∧ (s.boundarySlow n).lp.second = s.lp.second ∧
    (s.boundarySlow n).lp.badFrames = s.lp.badFrames ∧ (s.boundarySlow n).lp.overruns = s.lp.overruns ∧
    (s.boundarySlow n).lp.silence = s.lp.silence ∧ (s.boundarySlow n).lp.reply = s.lp.reply ∧
    (s.boundarySlow n).lp.sending = s.lp.sending ∧ (s.boundarySlow n).lp.restartDue = s.lp.restartDue := by
  unfold State.boundarySlow
  split <;> simp

@[simp] theorem State.boundaryLeak_parts (n : Nat) (s : State) :
    (s.boundaryLeak n).cs.vibDescs = s.cs.vibDescs ∧ (s.boundaryLeak n).cs.slowDescs = s.cs.slowDescs ∧
    (s.boundaryLeak n).cu.stack = s.cu.stack ∧ (s.boundaryLeak n).cu.rl = s.cu.rl ∧ (s.boundaryLeak n).cu.mask = s.cu.mask ∧
    (s.boundaryLeak n).cu.mode = s.cu.mode ∧ (s.boundaryLeak n).lp.receiver = s.lp.receiver ∧
    (s.boundaryLeak n).lp.head = s.lp.head ∧ (s.boundaryLeak n).lp.second = s.lp.second ∧
    (s.boundaryLeak n).lp.badFrames = s.lp.badFrames ∧ (s.boundaryLeak n).lp.overruns = s.lp.overruns ∧
    (s.boundaryLeak n).lp.silence = s.lp.silence ∧ (s.boundaryLeak n).lp.reply = s.lp.reply ∧
    (s.boundaryLeak n).lp.sending = s.lp.sending ∧ (s.boundaryLeak n).lp.restartDue = s.lp.restartDue := by
  unfold State.boundaryLeak
  split <;> simp

@[simp] theorem State.startSlow_parts (s : State) :
    (s.startSlow).lp.receiver = s.lp.receiver ∧ (s.startSlow).lp.head = s.lp.head ∧ (s.startSlow).lp.second = s.lp.second ∧
    (s.startSlow).lp.badFrames = s.lp.badFrames ∧ (s.startSlow).lp.overruns = s.lp.overruns ∧
    (s.startSlow).lp.reply = s.lp.reply ∧ (s.startSlow).lp.sending = s.lp.sending ∧
    (s.startSlow).lp.restartDue = s.lp.restartDue ∧ (s.startSlow).ut.idCounter = s.ut.idCounter ∧
    (s.startSlow).ut.transferLine = s.ut.transferLine ∧ (s.startSlow).pe.phase = s.pe.phase ∧
    (s.startSlow).pe.step = s.pe.step ∧ (s.startSlow).pe.counters = s.pe.counters ∧
    (s.startSlow).pe.setpoint = s.pe.setpoint ∧ (s.startSlow).pe.enable = s.pe.enable ∧ (s.startSlow).pe.brake = s.pe.brake ∧
    (s.startSlow).pe.halt = s.pe.halt ∧ (s.startSlow).pe.updates = s.pe.updates ∧ (s.startSlow).pe.sent = s.pe.sent ∧
    (s.startSlow).afe.live = s.afe.live ∧ (s.startSlow).afe.faults = s.afe.faults ∧
    (s.startSlow).afe.feedback = s.afe.feedback ∧ (s.startSlow).afe.pulses = s.afe.pulses ∧
    (s.startSlow).afe.revolution = s.afe.revolution ∧ (s.startSlow).afe.openVib = s.afe.openVib ∧
    (s.startSlow).afe.slowTaken = s.afe.slowTaken ∧ (s.startSlow).afe.leakTaken = s.afe.leakTaken ∧
    (s.startSlow).afe.leakSlot = s.afe.leakSlot ∧ (s.startSlow).afe.slowEnded = s.afe.slowEnded ∧
    (s.startSlow).afe.leakEnded = s.afe.leakEnded ∧ (s.startSlow).lkc.queue = s.lkc.queue ∧
    (s.startSlow).lkc.resetVent = s.lkc.resetVent ∧ (s.startSlow).cs.vibDescs = s.cs.vibDescs ∧
    (s.startSlow).cs.leakDescs = s.cs.leakDescs ∧ (s.startSlow).cu.stack = s.cu.stack ∧ (s.startSlow).cu.rl = s.cu.rl ∧
    (s.startSlow).cu.mask = s.cu.mask ∧ (s.startSlow).cu.mode = s.cu.mode := by
  unfold State.startSlow
  split <;> simp

@[simp] theorem State.startLeak_parts (s : State) :
    (s.startLeak).lp.receiver = s.lp.receiver ∧ (s.startLeak).lp.head = s.lp.head ∧ (s.startLeak).lp.second = s.lp.second ∧
    (s.startLeak).lp.badFrames = s.lp.badFrames ∧ (s.startLeak).lp.overruns = s.lp.overruns ∧
    (s.startLeak).lp.reply = s.lp.reply ∧ (s.startLeak).lp.sending = s.lp.sending ∧
    (s.startLeak).lp.restartDue = s.lp.restartDue ∧ (s.startLeak).ut.idCounter = s.ut.idCounter ∧
    (s.startLeak).ut.transferLine = s.ut.transferLine ∧ (s.startLeak).pe.phase = s.pe.phase ∧
    (s.startLeak).pe.step = s.pe.step ∧ (s.startLeak).pe.counters = s.pe.counters ∧
    (s.startLeak).pe.setpoint = s.pe.setpoint ∧ (s.startLeak).pe.enable = s.pe.enable ∧ (s.startLeak).pe.brake = s.pe.brake ∧
    (s.startLeak).pe.halt = s.pe.halt ∧ (s.startLeak).pe.updates = s.pe.updates ∧ (s.startLeak).pe.sent = s.pe.sent ∧
    (s.startLeak).afe.live = s.afe.live ∧ (s.startLeak).afe.faults = s.afe.faults ∧
    (s.startLeak).afe.feedback = s.afe.feedback ∧ (s.startLeak).afe.pulses = s.afe.pulses ∧
    (s.startLeak).afe.revolution = s.afe.revolution ∧ (s.startLeak).afe.openVib = s.afe.openVib ∧
    (s.startLeak).afe.slowTaken = s.afe.slowTaken ∧ (s.startLeak).afe.leakTaken = s.afe.leakTaken ∧
    (s.startLeak).afe.slowSlot = s.afe.slowSlot ∧ (s.startLeak).afe.slowEnded = s.afe.slowEnded ∧
    (s.startLeak).afe.leakEnded = s.afe.leakEnded ∧ (s.startLeak).lkc.queue = s.lkc.queue ∧
    (s.startLeak).lkc.resetVent = s.lkc.resetVent ∧ (s.startLeak).cs.vibDescs = s.cs.vibDescs ∧
    (s.startLeak).cs.slowDescs = s.cs.slowDescs ∧ (s.startLeak).cu.stack = s.cu.stack ∧ (s.startLeak).cu.rl = s.cu.rl ∧
    (s.startLeak).cu.mask = s.cu.mask ∧ (s.startLeak).cu.mode = s.cu.mode := by
  unfold State.startLeak
  split <;> simp

@[simp] theorem State.endSlow_parts (s : State) :
    (s.endSlow).lp.receiver = s.lp.receiver ∧ (s.endSlow).lp.head = s.lp.head ∧ (s.endSlow).lp.second = s.lp.second ∧
    (s.endSlow).lp.badFrames = s.lp.badFrames ∧ (s.endSlow).lp.overruns = s.lp.overruns ∧ (s.endSlow).lp.reply = s.lp.reply ∧
    (s.endSlow).lp.sending = s.lp.sending ∧ (s.endSlow).lp.restartDue = s.lp.restartDue ∧
    (s.endSlow).ut.idCounter = s.ut.idCounter ∧ (s.endSlow).ut.transferLine = s.ut.transferLine ∧
    (s.endSlow).pe.phase = s.pe.phase ∧ (s.endSlow).pe.step = s.pe.step ∧ (s.endSlow).pe.counters = s.pe.counters ∧
    (s.endSlow).pe.setpoint = s.pe.setpoint ∧ (s.endSlow).pe.enable = s.pe.enable ∧ (s.endSlow).pe.brake = s.pe.brake ∧
    (s.endSlow).pe.halt = s.pe.halt ∧ (s.endSlow).pe.updates = s.pe.updates ∧ (s.endSlow).pe.sent = s.pe.sent ∧
    (s.endSlow).afe.live = s.afe.live ∧ (s.endSlow).afe.faults = s.afe.faults ∧ (s.endSlow).afe.feedback = s.afe.feedback ∧
    (s.endSlow).afe.pulses = s.afe.pulses ∧ (s.endSlow).afe.revolution = s.afe.revolution ∧
    (s.endSlow).afe.openVib = s.afe.openVib ∧ (s.endSlow).afe.slowTaken = s.afe.slowTaken ∧
    (s.endSlow).afe.leakTaken = s.afe.leakTaken ∧ (s.endSlow).afe.slowSlot = s.afe.slowSlot ∧
    (s.endSlow).afe.leakSlot = s.afe.leakSlot ∧ (s.endSlow).afe.leakEnded = s.afe.leakEnded ∧
    (s.endSlow).lkc.queue = s.lkc.queue ∧ (s.endSlow).lkc.resetVent = s.lkc.resetVent ∧
    (s.endSlow).cs.vibDescs = s.cs.vibDescs ∧ (s.endSlow).cs.leakDescs = s.cs.leakDescs ∧ (s.endSlow).cu.stack = s.cu.stack ∧
    (s.endSlow).cu.rl = s.cu.rl ∧ (s.endSlow).cu.mask = s.cu.mask ∧ (s.endSlow).cu.mode = s.cu.mode := by
  unfold State.endSlow
  dsimp only
  repeat' split
  all_goals simp

@[simp] theorem State.endLeak_parts (s : State) :
    (s.endLeak).lp.receiver = s.lp.receiver ∧ (s.endLeak).lp.head = s.lp.head ∧ (s.endLeak).lp.second = s.lp.second ∧
    (s.endLeak).lp.badFrames = s.lp.badFrames ∧ (s.endLeak).lp.overruns = s.lp.overruns ∧ (s.endLeak).lp.reply = s.lp.reply ∧
    (s.endLeak).lp.sending = s.lp.sending ∧ (s.endLeak).lp.restartDue = s.lp.restartDue ∧
    (s.endLeak).ut.idCounter = s.ut.idCounter ∧ (s.endLeak).ut.transferLine = s.ut.transferLine ∧
    (s.endLeak).pe.phase = s.pe.phase ∧ (s.endLeak).pe.step = s.pe.step ∧ (s.endLeak).pe.counters = s.pe.counters ∧
    (s.endLeak).pe.setpoint = s.pe.setpoint ∧ (s.endLeak).pe.enable = s.pe.enable ∧ (s.endLeak).pe.brake = s.pe.brake ∧
    (s.endLeak).pe.halt = s.pe.halt ∧ (s.endLeak).pe.updates = s.pe.updates ∧ (s.endLeak).pe.sent = s.pe.sent ∧
    (s.endLeak).afe.live = s.afe.live ∧ (s.endLeak).afe.faults = s.afe.faults ∧ (s.endLeak).afe.feedback = s.afe.feedback ∧
    (s.endLeak).afe.pulses = s.afe.pulses ∧ (s.endLeak).afe.revolution = s.afe.revolution ∧
    (s.endLeak).afe.openVib = s.afe.openVib ∧ (s.endLeak).afe.slowTaken = s.afe.slowTaken ∧
    (s.endLeak).afe.leakTaken = s.afe.leakTaken ∧ (s.endLeak).afe.slowSlot = s.afe.slowSlot ∧
    (s.endLeak).afe.leakSlot = s.afe.leakSlot ∧ (s.endLeak).afe.slowEnded = s.afe.slowEnded ∧
    (s.endLeak).lkc.queue = s.lkc.queue ∧ (s.endLeak).lkc.resetVent = s.lkc.resetVent ∧
    (s.endLeak).cs.vibDescs = s.cs.vibDescs ∧ (s.endLeak).cs.slowDescs = s.cs.slowDescs ∧ (s.endLeak).cu.stack = s.cu.stack ∧
    (s.endLeak).cu.rl = s.cu.rl ∧ (s.endLeak).cu.mask = s.cu.mask ∧ (s.endLeak).cu.mode = s.cu.mode := by
  unfold State.endLeak
  dsimp only
  repeat' split
  all_goals simp

/-! ## The Recipe Store -/

@[simp] theorem takeSlotErase_parts (b : Byte) (s : State) :
    (takeSlotErase b s).1.rs.scanning = s.rs.scanning ∧ (takeSlotErase b s).1.rs.live = s.rs.live ∧
    (takeSlotErase b s).1.rs.source = s.rs.source := by
  simp only [takeSlotErase, withOwnSlot, withSlot]
  repeat' split
  all_goals simp

@[simp] theorem takeSlotWrite_parts (b : Byte) (offset : Nat) (data : List Byte) (s : State) :
    (takeSlotWrite b offset data s).1.rs.scanning = s.rs.scanning ∧ (takeSlotWrite b offset data s).1.rs.live = s.rs.live ∧
    (takeSlotWrite b offset data s).1.rs.source = s.rs.source := by
  simp only [takeSlotWrite, withOwnSlot, withSlot]
  repeat' split
  all_goals simp

@[simp] theorem takeSlotClose_parts (b : Byte) (s : State) :
    (takeSlotClose b s).1.rs.scanning = s.rs.scanning ∧ (takeSlotClose b s).1.rs.live = s.rs.live ∧
    (takeSlotClose b s).1.rs.source = s.rs.source := by
  simp only [takeSlotClose, withOwnSlot, withSlot]
  repeat' split
  all_goals simp

@[simp] theorem State.storeDone_parts (k : Fin 16) (s : State) :
    (s.storeDone k).lp.receiver = s.lp.receiver ∧ (s.storeDone k).lp.head = s.lp.head ∧
    (s.storeDone k).lp.second = s.lp.second ∧ (s.storeDone k).lp.badFrames = s.lp.badFrames ∧
    (s.storeDone k).lp.overruns = s.lp.overruns ∧ (s.storeDone k).lp.silence = s.lp.silence ∧
    (s.storeDone k).lp.reply = s.lp.reply ∧ (s.storeDone k).lp.sending = s.lp.sending ∧
    (s.storeDone k).lp.restartDue = s.lp.restartDue := by simp [State.storeDone]

@[simp] theorem State.completeErase_parts (k : Fin 16) (s : State) :
    (s.completeErase k).rs.scanning = s.rs.scanning ∧ (s.completeErase k).rs.live = s.rs.live ∧
    (s.completeErase k).rs.source = s.rs.source ∧ (s.completeErase k).lp.receiver = s.lp.receiver ∧
    (s.completeErase k).lp.head = s.lp.head ∧ (s.completeErase k).lp.second = s.lp.second ∧
    (s.completeErase k).lp.badFrames = s.lp.badFrames ∧ (s.completeErase k).lp.overruns = s.lp.overruns ∧
    (s.completeErase k).lp.silence = s.lp.silence ∧ (s.completeErase k).lp.reply = s.lp.reply ∧
    (s.completeErase k).lp.sending = s.lp.sending ∧ (s.completeErase k).lp.restartDue = s.lp.restartDue := by
  unfold State.completeErase
  split <;> simp

@[simp] theorem State.useConfig_parts (cfg : CellConfig) (source : ConfigSource) (s : State) :
    (s.useConfig cfg source).rs.scanning = s.rs.scanning ∧ (s.useConfig cfg source).cu.stack = s.cu.stack ∧
    (s.useConfig cfg source).cu.rl = s.cu.rl ∧ (s.useConfig cfg source).cu.mask = s.cu.mask ∧
    (s.useConfig cfg source).cu.mode = s.cu.mode := by simp [State.useConfig]

@[simp] theorem State.completeClose_parts (k : Fin 16) (s : State) :
    (s.completeClose k).rs.scanning = s.rs.scanning ∧ (s.completeClose k).pe.updates = s.pe.updates ∧
    (s.completeClose k).pe.sent = s.pe.sent ∧ (s.completeClose k).ut.idCounter = s.ut.idCounter ∧
    (s.completeClose k).oa.queue = s.oa.queue ∧ (s.completeClose k).oa.current = s.oa.current ∧
    (s.completeClose k).afe.live = s.afe.live ∧ (s.completeClose k).afe.faults = s.afe.faults ∧
    (s.completeClose k).afe.feedback = s.afe.feedback ∧ (s.completeClose k).afe.pulses = s.afe.pulses ∧
    (s.completeClose k).afe.revolution = s.afe.revolution ∧ (s.completeClose k).afe.slowTaken = s.afe.slowTaken ∧
    (s.completeClose k).afe.leakTaken = s.afe.leakTaken ∧ (s.completeClose k).afe.slowSlot = s.afe.slowSlot ∧
    (s.completeClose k).afe.leakSlot = s.afe.leakSlot ∧ (s.completeClose k).afe.slowEnded = s.afe.slowEnded ∧
    (s.completeClose k).afe.leakEnded = s.afe.leakEnded ∧ (s.completeClose k).cs.slowDescs = s.cs.slowDescs ∧
    (s.completeClose k).cs.leakDescs = s.cs.leakDescs ∧ (s.completeClose k).cu.mask = s.cu.mask ∧
    (s.completeClose k).cu.mode = s.cu.mode ∧ (s.completeClose k).lp.receiver = s.lp.receiver ∧
    (s.completeClose k).lp.head = s.lp.head ∧ (s.completeClose k).lp.second = s.lp.second ∧
    (s.completeClose k).lp.badFrames = s.lp.badFrames ∧ (s.completeClose k).lp.overruns = s.lp.overruns ∧
    (s.completeClose k).lp.reply = s.lp.reply ∧ (s.completeClose k).lp.sending = s.lp.sending ∧
    (s.completeClose k).lp.restartDue = s.lp.restartDue ∧ (s.completeClose k).lkc.resetVent = s.lkc.resetVent := by
  unfold State.completeClose
  dsimp only
  repeat' split
  all_goals simp

@[simp] theorem State.endScan_parts (s : State) :
    (s.endScan).pe.updates = s.pe.updates ∧ (s.endScan).pe.sent = s.pe.sent ∧ (s.endScan).ut.idCounter = s.ut.idCounter ∧
    (s.endScan).oa.queue = s.oa.queue ∧ (s.endScan).oa.current = s.oa.current ∧ (s.endScan).afe.live = s.afe.live ∧
    (s.endScan).afe.faults = s.afe.faults ∧ (s.endScan).afe.feedback = s.afe.feedback ∧
    (s.endScan).afe.pulses = s.afe.pulses ∧ (s.endScan).afe.revolution = s.afe.revolution ∧
    (s.endScan).afe.slowTaken = s.afe.slowTaken ∧ (s.endScan).afe.leakTaken = s.afe.leakTaken ∧
    (s.endScan).afe.slowSlot = s.afe.slowSlot ∧ (s.endScan).afe.leakSlot = s.afe.leakSlot ∧
    (s.endScan).afe.slowEnded = s.afe.slowEnded ∧ (s.endScan).afe.leakEnded = s.afe.leakEnded ∧
    (s.endScan).cs.slowDescs = s.cs.slowDescs ∧ (s.endScan).cs.leakDescs = s.cs.leakDescs ∧ (s.endScan).cu.mask = s.cu.mask ∧
    (s.endScan).cu.mode = s.cu.mode ∧ (s.endScan).lp.receiver = s.lp.receiver ∧ (s.endScan).lp.head = s.lp.head ∧
    (s.endScan).lp.second = s.lp.second ∧ (s.endScan).lp.badFrames = s.lp.badFrames ∧
    (s.endScan).lp.overruns = s.lp.overruns ∧ (s.endScan).lp.reply = s.lp.reply ∧ (s.endScan).lp.sending = s.lp.sending ∧
    (s.endScan).lp.restartDue = s.lp.restartDue := by
  unfold State.endScan
  dsimp only
  repeat' split
  all_goals simp

/-! ## The condition commands and lines -/

@[simp] theorem takeCondAck_parts (b : Byte) (s : State) :
    (takeCondAck b s).1.cu.stack = s.cu.stack ∧ (takeCondAck b s).1.cu.rl = s.cu.rl ∧
    (takeCondAck b s).1.cu.mask = s.cu.mask ∧ (takeCondAck b s).1.cu.mode = s.cu.mode := by
  simp only [takeCondAck, withCondition]
  repeat' split
  all_goals simp

@[simp] theorem State.inject_parts (n : Fin 20) (s : State) :
    (s.inject n).cu.stack = s.cu.stack ∧ (s.inject n).cu.rl = s.cu.rl ∧ (s.inject n).cu.mask = s.cu.mask ∧
    (s.inject n).cu.mode = s.cu.mode := by simp [State.inject]

@[simp] theorem takeCondInject_parts (b : Byte) (s : State) :
    (takeCondInject b s).1.pe.updates = s.pe.updates ∧ (takeCondInject b s).1.pe.sent = s.pe.sent ∧
    (takeCondInject b s).1.ut.idCounter = s.ut.idCounter ∧ (takeCondInject b s).1.oa.queue = s.oa.queue ∧
    (takeCondInject b s).1.oa.current = s.oa.current ∧ (takeCondInject b s).1.afe.live = s.afe.live ∧
    (takeCondInject b s).1.afe.faults = s.afe.faults ∧ (takeCondInject b s).1.afe.feedback = s.afe.feedback ∧
    (takeCondInject b s).1.afe.pulses = s.afe.pulses ∧ (takeCondInject b s).1.afe.revolution = s.afe.revolution ∧
    (takeCondInject b s).1.afe.slowTaken = s.afe.slowTaken ∧ (takeCondInject b s).1.afe.leakTaken = s.afe.leakTaken ∧
    (takeCondInject b s).1.afe.slowSlot = s.afe.slowSlot ∧ (takeCondInject b s).1.afe.leakSlot = s.afe.leakSlot ∧
    (takeCondInject b s).1.afe.slowEnded = s.afe.slowEnded ∧ (takeCondInject b s).1.afe.leakEnded = s.afe.leakEnded ∧
    (takeCondInject b s).1.cs.slowDescs = s.cs.slowDescs ∧ (takeCondInject b s).1.cs.leakDescs = s.cs.leakDescs ∧
    (takeCondInject b s).1.cu.mask = s.cu.mask ∧ (takeCondInject b s).1.cu.mode = s.cu.mode ∧
    (takeCondInject b s).1.lp.receiver = s.lp.receiver ∧ (takeCondInject b s).1.lp.head = s.lp.head ∧
    (takeCondInject b s).1.lp.second = s.lp.second ∧ (takeCondInject b s).1.lp.badFrames = s.lp.badFrames ∧
    (takeCondInject b s).1.lp.overruns = s.lp.overruns ∧ (takeCondInject b s).1.lp.reply = s.lp.reply ∧
    (takeCondInject b s).1.lp.sending = s.lp.sending ∧ (takeCondInject b s).1.lp.restartDue = s.lp.restartDue ∧
    (takeCondInject b s).1.lkc.resetVent = s.lkc.resetVent := by
  simp only [takeCondInject, withCondition]
  repeat' split
  all_goals simp

@[simp] theorem takeCondConfig_parts (b : Byte) (severity vector : Byte) (s : State) :
    (takeCondConfig b severity vector s).1.pe.updates = s.pe.updates ∧
    (takeCondConfig b severity vector s).1.pe.sent = s.pe.sent ∧
    (takeCondConfig b severity vector s).1.ut.idCounter = s.ut.idCounter ∧
    (takeCondConfig b severity vector s).1.oa.queue = s.oa.queue ∧
    (takeCondConfig b severity vector s).1.oa.current = s.oa.current ∧
    (takeCondConfig b severity vector s).1.afe.live = s.afe.live ∧
    (takeCondConfig b severity vector s).1.afe.faults = s.afe.faults ∧
    (takeCondConfig b severity vector s).1.afe.feedback = s.afe.feedback ∧
    (takeCondConfig b severity vector s).1.afe.pulses = s.afe.pulses ∧
    (takeCondConfig b severity vector s).1.afe.revolution = s.afe.revolution ∧
    (takeCondConfig b severity vector s).1.afe.slowTaken = s.afe.slowTaken ∧
    (takeCondConfig b severity vector s).1.afe.leakTaken = s.afe.leakTaken ∧
    (takeCondConfig b severity vector s).1.afe.slowSlot = s.afe.slowSlot ∧
    (takeCondConfig b severity vector s).1.afe.leakSlot = s.afe.leakSlot ∧
    (takeCondConfig b severity vector s).1.afe.slowEnded = s.afe.slowEnded ∧
    (takeCondConfig b severity vector s).1.afe.leakEnded = s.afe.leakEnded ∧
    (takeCondConfig b severity vector s).1.cs.slowDescs = s.cs.slowDescs ∧
    (takeCondConfig b severity vector s).1.cs.leakDescs = s.cs.leakDescs ∧
    (takeCondConfig b severity vector s).1.cu.mask = s.cu.mask ∧ (takeCondConfig b severity vector s).1.cu.mode = s.cu.mode ∧
    (takeCondConfig b severity vector s).1.lp.receiver = s.lp.receiver ∧
    (takeCondConfig b severity vector s).1.lp.head = s.lp.head ∧
    (takeCondConfig b severity vector s).1.lp.second = s.lp.second ∧
    (takeCondConfig b severity vector s).1.lp.badFrames = s.lp.badFrames ∧
    (takeCondConfig b severity vector s).1.lp.overruns = s.lp.overruns ∧
    (takeCondConfig b severity vector s).1.lp.reply = s.lp.reply ∧
    (takeCondConfig b severity vector s).1.lp.sending = s.lp.sending ∧
    (takeCondConfig b severity vector s).1.lp.restartDue = s.lp.restartDue ∧
    (takeCondConfig b severity vector s).1.lkc.resetVent = s.lkc.resetVent := by
  simp only [takeCondConfig, withCondition]
  repeat' split
  all_goals simp

@[simp] theorem takeSetMask_parts (level : Byte) (s : State) :
    (takeSetMask level s).1.pe.updates = s.pe.updates ∧ (takeSetMask level s).1.pe.sent = s.pe.sent ∧
    (takeSetMask level s).1.ut.idCounter = s.ut.idCounter ∧ (takeSetMask level s).1.oa.queue = s.oa.queue ∧
    (takeSetMask level s).1.oa.current = s.oa.current ∧ (takeSetMask level s).1.afe.live = s.afe.live ∧
    (takeSetMask level s).1.afe.faults = s.afe.faults ∧ (takeSetMask level s).1.afe.feedback = s.afe.feedback ∧
    (takeSetMask level s).1.afe.pulses = s.afe.pulses ∧ (takeSetMask level s).1.afe.revolution = s.afe.revolution ∧
    (takeSetMask level s).1.afe.slowTaken = s.afe.slowTaken ∧ (takeSetMask level s).1.afe.leakTaken = s.afe.leakTaken ∧
    (takeSetMask level s).1.afe.slowSlot = s.afe.slowSlot ∧ (takeSetMask level s).1.afe.leakSlot = s.afe.leakSlot ∧
    (takeSetMask level s).1.afe.slowEnded = s.afe.slowEnded ∧ (takeSetMask level s).1.afe.leakEnded = s.afe.leakEnded ∧
    (takeSetMask level s).1.cs.slowDescs = s.cs.slowDescs ∧ (takeSetMask level s).1.cs.leakDescs = s.cs.leakDescs ∧
    (takeSetMask level s).1.cu.mode = s.cu.mode ∧ (takeSetMask level s).1.lp.receiver = s.lp.receiver ∧
    (takeSetMask level s).1.lp.head = s.lp.head ∧ (takeSetMask level s).1.lp.second = s.lp.second ∧
    (takeSetMask level s).1.lp.badFrames = s.lp.badFrames ∧ (takeSetMask level s).1.lp.overruns = s.lp.overruns ∧
    (takeSetMask level s).1.lp.reply = s.lp.reply ∧ (takeSetMask level s).1.lp.sending = s.lp.sending ∧
    (takeSetMask level s).1.lp.restartDue = s.lp.restartDue ∧ (takeSetMask level s).1.lkc.resetVent = s.lkc.resetVent := by
  unfold takeSetMask
  dsimp only
  split <;> simp

@[simp] theorem takeResume_parts (s : State) :
    (takeResume s).1.pe.updates = s.pe.updates ∧ (takeResume s).1.pe.sent = s.pe.sent ∧
    (takeResume s).1.ut.idCounter = s.ut.idCounter ∧ (takeResume s).1.oa.queue = s.oa.queue ∧
    (takeResume s).1.oa.current = s.oa.current ∧ (takeResume s).1.afe.live = s.afe.live ∧
    (takeResume s).1.afe.faults = s.afe.faults ∧ (takeResume s).1.afe.feedback = s.afe.feedback ∧
    (takeResume s).1.afe.pulses = s.afe.pulses ∧ (takeResume s).1.afe.revolution = s.afe.revolution ∧
    (takeResume s).1.afe.slowTaken = s.afe.slowTaken ∧ (takeResume s).1.afe.leakTaken = s.afe.leakTaken ∧
    (takeResume s).1.afe.slowSlot = s.afe.slowSlot ∧ (takeResume s).1.afe.leakSlot = s.afe.leakSlot ∧
    (takeResume s).1.afe.slowEnded = s.afe.slowEnded ∧ (takeResume s).1.afe.leakEnded = s.afe.leakEnded ∧
    (takeResume s).1.cs.slowDescs = s.cs.slowDescs ∧ (takeResume s).1.cs.leakDescs = s.cs.leakDescs ∧
    (takeResume s).1.cu.mask = s.cu.mask ∧ (takeResume s).1.cu.mode = s.cu.mode ∧
    (takeResume s).1.lp.receiver = s.lp.receiver ∧ (takeResume s).1.lp.head = s.lp.head ∧
    (takeResume s).1.lp.second = s.lp.second ∧ (takeResume s).1.lp.badFrames = s.lp.badFrames ∧
    (takeResume s).1.lp.overruns = s.lp.overruns ∧ (takeResume s).1.lp.reply = s.lp.reply ∧
    (takeResume s).1.lp.sending = s.lp.sending ∧ (takeResume s).1.lp.restartDue = s.lp.restartDue ∧
    (takeResume s).1.lkc.resetVent = s.lkc.resetVent := by
  unfold takeResume
  repeat' split
  all_goals simp

@[simp] theorem State.judgeLines_parts (s : State) :
    (s.judgeLines).cu.stack = s.cu.stack ∧ (s.judgeLines).cu.rl = s.cu.rl ∧ (s.judgeLines).cu.mask = s.cu.mask ∧
    (s.judgeLines).cu.mode = s.cu.mode := by simp [State.judgeLines]

@[simp] theorem State.judgeLine_parts (line : CondLine) (s : State) :
    (s.judgeLine line).cu.stack = s.cu.stack ∧ (s.judgeLine line).cu.rl = s.cu.rl ∧ (s.judgeLine line).cu.mask = s.cu.mask ∧
    (s.judgeLine line).cu.mode = s.cu.mode := by
  unfold State.judgeLine
  split <;> simp

@[simp] theorem State.changeLine_parts (line : CondLine) (b : Bool) (s : State) :
    (s.changeLine line b).pe.updates = s.pe.updates ∧ (s.changeLine line b).pe.sent = s.pe.sent ∧
    (s.changeLine line b).ut.idCounter = s.ut.idCounter ∧ (s.changeLine line b).oa.queue = s.oa.queue ∧
    (s.changeLine line b).oa.current = s.oa.current ∧ (s.changeLine line b).afe.live = s.afe.live ∧
    (s.changeLine line b).afe.faults = s.afe.faults ∧ (s.changeLine line b).afe.feedback = s.afe.feedback ∧
    (s.changeLine line b).afe.pulses = s.afe.pulses ∧ (s.changeLine line b).afe.revolution = s.afe.revolution ∧
    (s.changeLine line b).afe.slowTaken = s.afe.slowTaken ∧ (s.changeLine line b).afe.leakTaken = s.afe.leakTaken ∧
    (s.changeLine line b).afe.slowSlot = s.afe.slowSlot ∧ (s.changeLine line b).afe.leakSlot = s.afe.leakSlot ∧
    (s.changeLine line b).afe.slowEnded = s.afe.slowEnded ∧ (s.changeLine line b).afe.leakEnded = s.afe.leakEnded ∧
    (s.changeLine line b).cs.slowDescs = s.cs.slowDescs ∧ (s.changeLine line b).cs.leakDescs = s.cs.leakDescs ∧
    (s.changeLine line b).cu.mask = s.cu.mask ∧ (s.changeLine line b).cu.mode = s.cu.mode ∧
    (s.changeLine line b).lp.receiver = s.lp.receiver ∧ (s.changeLine line b).lp.head = s.lp.head ∧
    (s.changeLine line b).lp.second = s.lp.second ∧ (s.changeLine line b).lp.badFrames = s.lp.badFrames ∧
    (s.changeLine line b).lp.overruns = s.lp.overruns ∧ (s.changeLine line b).lp.reply = s.lp.reply ∧
    (s.changeLine line b).lp.sending = s.lp.sending ∧ (s.changeLine line b).lp.restartDue = s.lp.restartDue ∧
    (s.changeLine line b).lkc.resetVent = s.lkc.resetVent := by simp [State.changeLine]

@[simp] theorem State.changeKey_parts (asserted : Bool) (s : State) :
    (s.changeKey asserted).pe.updates = s.pe.updates ∧ (s.changeKey asserted).pe.sent = s.pe.sent ∧
    (s.changeKey asserted).ut.idCounter = s.ut.idCounter ∧ (s.changeKey asserted).oa.queue = s.oa.queue ∧
    (s.changeKey asserted).oa.current = s.oa.current ∧ (s.changeKey asserted).afe.live = s.afe.live ∧
    (s.changeKey asserted).afe.faults = s.afe.faults ∧ (s.changeKey asserted).afe.feedback = s.afe.feedback ∧
    (s.changeKey asserted).afe.pulses = s.afe.pulses ∧ (s.changeKey asserted).afe.revolution = s.afe.revolution ∧
    (s.changeKey asserted).afe.slowTaken = s.afe.slowTaken ∧ (s.changeKey asserted).afe.leakTaken = s.afe.leakTaken ∧
    (s.changeKey asserted).afe.slowSlot = s.afe.slowSlot ∧ (s.changeKey asserted).afe.leakSlot = s.afe.leakSlot ∧
    (s.changeKey asserted).afe.slowEnded = s.afe.slowEnded ∧ (s.changeKey asserted).afe.leakEnded = s.afe.leakEnded ∧
    (s.changeKey asserted).cs.slowDescs = s.cs.slowDescs ∧ (s.changeKey asserted).cs.leakDescs = s.cs.leakDescs ∧
    (s.changeKey asserted).lp.receiver = s.lp.receiver ∧ (s.changeKey asserted).lp.head = s.lp.head ∧
    (s.changeKey asserted).lp.second = s.lp.second ∧ (s.changeKey asserted).lp.badFrames = s.lp.badFrames ∧
    (s.changeKey asserted).lp.overruns = s.lp.overruns ∧ (s.changeKey asserted).lp.reply = s.lp.reply ∧
    (s.changeKey asserted).lp.sending = s.lp.sending ∧ (s.changeKey asserted).lp.restartDue = s.lp.restartDue ∧
    (s.changeKey asserted).lkc.resetVent = s.lkc.resetVent := by
  unfold State.changeKey
  repeat' split
  all_goals simp

/-! ## Replies and reports -/

@[simp] theorem State.freeUnit_parts (i : Fin 8) (s : State) :
    (s.freeUnit i).ut.idCounter = s.ut.idCounter ∧ (s.freeUnit i).ut.transferLine = s.ut.transferLine ∧
    (s.freeUnit i).ut.transferTimer = s.ut.transferTimer ∧ (s.freeUnit i).rs.scanning = s.rs.scanning ∧
    (s.freeUnit i).rs.live = s.rs.live ∧ (s.freeUnit i).rs.source = s.rs.source ∧
    (s.freeUnit i).lp.receiver = s.lp.receiver ∧ (s.freeUnit i).lp.head = s.lp.head ∧
    (s.freeUnit i).lp.second = s.lp.second ∧ (s.freeUnit i).lp.badFrames = s.lp.badFrames ∧
    (s.freeUnit i).lp.overruns = s.lp.overruns ∧ (s.freeUnit i).lp.silence = s.lp.silence ∧
    (s.freeUnit i).lp.reply = s.lp.reply ∧ (s.freeUnit i).lp.sending = s.lp.sending ∧
    (s.freeUnit i).lp.restartDue = s.lp.restartDue := by
  unfold State.freeUnit
  split <;> simp

@[simp] theorem State.freeId_parts (id : Nat) (s : State) :
    (s.freeId id).ut.idCounter = s.ut.idCounter ∧ (s.freeId id).ut.transferLine = s.ut.transferLine ∧
    (s.freeId id).ut.transferTimer = s.ut.transferTimer ∧ (s.freeId id).rs.scanning = s.rs.scanning ∧
    (s.freeId id).rs.live = s.rs.live ∧ (s.freeId id).rs.source = s.rs.source ∧ (s.freeId id).lp.receiver = s.lp.receiver ∧
    (s.freeId id).lp.head = s.lp.head ∧ (s.freeId id).lp.second = s.lp.second ∧ (s.freeId id).lp.badFrames = s.lp.badFrames ∧
    (s.freeId id).lp.overruns = s.lp.overruns ∧ (s.freeId id).lp.silence = s.lp.silence ∧
    (s.freeId id).lp.reply = s.lp.reply ∧ (s.freeId id).lp.sending = s.lp.sending ∧
    (s.freeId id).lp.restartDue = s.lp.restartDue := by
  unfold State.freeId
  split <;> simp

@[simp] theorem takeReportRelease_parts (id : Nat) (s : State) :
    (takeReportRelease id s).1.ut.idCounter = s.ut.idCounter ∧
    (takeReportRelease id s).1.ut.transferLine = s.ut.transferLine ∧
    (takeReportRelease id s).1.ut.transferTimer = s.ut.transferTimer ∧
    (takeReportRelease id s).1.rs.scanning = s.rs.scanning ∧ (takeReportRelease id s).1.rs.live = s.rs.live ∧
    (takeReportRelease id s).1.rs.source = s.rs.source ∧ (takeReportRelease id s).1.lp.receiver = s.lp.receiver ∧
    (takeReportRelease id s).1.lp.head = s.lp.head ∧ (takeReportRelease id s).1.lp.second = s.lp.second ∧
    (takeReportRelease id s).1.lp.badFrames = s.lp.badFrames ∧ (takeReportRelease id s).1.lp.overruns = s.lp.overruns ∧
    (takeReportRelease id s).1.lp.silence = s.lp.silence ∧ (takeReportRelease id s).1.lp.reply = s.lp.reply ∧
    (takeReportRelease id s).1.lp.sending = s.lp.sending ∧ (takeReportRelease id s).1.lp.restartDue = s.lp.restartDue := by
  unfold takeReportRelease
  repeat' split
  all_goals simp

/-! ## Commands and the host line -/

@[simp] theorem State.startRun_parts (i : Fin 8) (recipe : Recipe) (s : State) :
    (s.startRun i recipe).pe.setpoint = s.pe.setpoint ∧ (s.startRun i recipe).pe.updates = s.pe.updates ∧
    (s.startRun i recipe).pe.sent = s.pe.sent ∧ (s.startRun i recipe).ut.idCounter = s.ut.idCounter ∧
    (s.startRun i recipe).oa.queue = s.oa.queue ∧ (s.startRun i recipe).oa.current = s.oa.current ∧
    (s.startRun i recipe).afe.live = s.afe.live ∧ (s.startRun i recipe).afe.faults = s.afe.faults ∧
    (s.startRun i recipe).afe.feedback = s.afe.feedback ∧ (s.startRun i recipe).afe.pulses = s.afe.pulses ∧
    (s.startRun i recipe).afe.revolution = s.afe.revolution ∧ (s.startRun i recipe).afe.slowTaken = s.afe.slowTaken ∧
    (s.startRun i recipe).afe.leakTaken = s.afe.leakTaken ∧ (s.startRun i recipe).afe.slowSlot = s.afe.slowSlot ∧
    (s.startRun i recipe).afe.leakSlot = s.afe.leakSlot ∧ (s.startRun i recipe).afe.slowEnded = s.afe.slowEnded ∧
    (s.startRun i recipe).afe.leakEnded = s.afe.leakEnded ∧ (s.startRun i recipe).cs.slowDescs = s.cs.slowDescs ∧
    (s.startRun i recipe).cs.leakDescs = s.cs.leakDescs ∧ (s.startRun i recipe).cu.stack = s.cu.stack ∧
    (s.startRun i recipe).cu.rl = s.cu.rl ∧ (s.startRun i recipe).cu.mask = s.cu.mask ∧
    (s.startRun i recipe).cu.mode = s.cu.mode ∧ (s.startRun i recipe).lp.receiver = s.lp.receiver ∧
    (s.startRun i recipe).lp.head = s.lp.head ∧ (s.startRun i recipe).lp.second = s.lp.second ∧
    (s.startRun i recipe).lp.badFrames = s.lp.badFrames ∧ (s.startRun i recipe).lp.overruns = s.lp.overruns ∧
    (s.startRun i recipe).lp.reply = s.lp.reply ∧ (s.startRun i recipe).lp.sending = s.lp.sending ∧
    (s.startRun i recipe).lp.restartDue = s.lp.restartDue := by simp [State.startRun]

@[simp] theorem takeStartRun_parts (id : Nat) (s : State) :
    (takeStartRun id s).1.pe.setpoint = s.pe.setpoint ∧ (takeStartRun id s).1.pe.updates = s.pe.updates ∧
    (takeStartRun id s).1.pe.sent = s.pe.sent ∧ (takeStartRun id s).1.ut.idCounter = s.ut.idCounter ∧
    (takeStartRun id s).1.oa.queue = s.oa.queue ∧ (takeStartRun id s).1.oa.current = s.oa.current ∧
    (takeStartRun id s).1.afe.live = s.afe.live ∧ (takeStartRun id s).1.afe.faults = s.afe.faults ∧
    (takeStartRun id s).1.afe.feedback = s.afe.feedback ∧ (takeStartRun id s).1.afe.pulses = s.afe.pulses ∧
    (takeStartRun id s).1.afe.revolution = s.afe.revolution ∧ (takeStartRun id s).1.afe.slowTaken = s.afe.slowTaken ∧
    (takeStartRun id s).1.afe.leakTaken = s.afe.leakTaken ∧ (takeStartRun id s).1.afe.slowSlot = s.afe.slowSlot ∧
    (takeStartRun id s).1.afe.leakSlot = s.afe.leakSlot ∧ (takeStartRun id s).1.afe.slowEnded = s.afe.slowEnded ∧
    (takeStartRun id s).1.afe.leakEnded = s.afe.leakEnded ∧ (takeStartRun id s).1.cs.slowDescs = s.cs.slowDescs ∧
    (takeStartRun id s).1.cs.leakDescs = s.cs.leakDescs ∧ (takeStartRun id s).1.cu.stack = s.cu.stack ∧
    (takeStartRun id s).1.cu.rl = s.cu.rl ∧ (takeStartRun id s).1.cu.mask = s.cu.mask ∧
    (takeStartRun id s).1.cu.mode = s.cu.mode ∧ (takeStartRun id s).1.lp.receiver = s.lp.receiver ∧
    (takeStartRun id s).1.lp.head = s.lp.head ∧ (takeStartRun id s).1.lp.second = s.lp.second ∧
    (takeStartRun id s).1.lp.badFrames = s.lp.badFrames ∧ (takeStartRun id s).1.lp.overruns = s.lp.overruns ∧
    (takeStartRun id s).1.lp.reply = s.lp.reply ∧ (takeStartRun id s).1.lp.sending = s.lp.sending ∧
    (takeStartRun id s).1.lp.restartDue = s.lp.restartDue := by
  unfold takeStartRun
  repeat' split
  all_goals simp

@[simp] theorem State.abortLoaded_parts (i : Fin 8) (recipe : Recipe) (s : State) :
    (s.abortLoaded i recipe).ut.idCounter = s.ut.idCounter ∧ (s.abortLoaded i recipe).oa.queue = s.oa.queue ∧
    (s.abortLoaded i recipe).oa.current = s.oa.current ∧ (s.abortLoaded i recipe).afe.live = s.afe.live ∧
    (s.abortLoaded i recipe).afe.faults = s.afe.faults ∧ (s.abortLoaded i recipe).afe.feedback = s.afe.feedback ∧
    (s.abortLoaded i recipe).afe.pulses = s.afe.pulses ∧ (s.abortLoaded i recipe).afe.revolution = s.afe.revolution ∧
    (s.abortLoaded i recipe).afe.slowTaken = s.afe.slowTaken ∧ (s.abortLoaded i recipe).afe.leakTaken = s.afe.leakTaken ∧
    (s.abortLoaded i recipe).afe.slowSlot = s.afe.slowSlot ∧ (s.abortLoaded i recipe).afe.leakSlot = s.afe.leakSlot ∧
    (s.abortLoaded i recipe).afe.slowEnded = s.afe.slowEnded ∧ (s.abortLoaded i recipe).afe.leakEnded = s.afe.leakEnded ∧
    (s.abortLoaded i recipe).cs.slowDescs = s.cs.slowDescs ∧ (s.abortLoaded i recipe).cs.leakDescs = s.cs.leakDescs ∧
    (s.abortLoaded i recipe).cu.stack = s.cu.stack ∧ (s.abortLoaded i recipe).cu.rl = s.cu.rl ∧
    (s.abortLoaded i recipe).cu.mask = s.cu.mask ∧ (s.abortLoaded i recipe).cu.mode = s.cu.mode ∧
    (s.abortLoaded i recipe).lp.receiver = s.lp.receiver ∧ (s.abortLoaded i recipe).lp.head = s.lp.head ∧
    (s.abortLoaded i recipe).lp.second = s.lp.second ∧ (s.abortLoaded i recipe).lp.badFrames = s.lp.badFrames ∧
    (s.abortLoaded i recipe).lp.overruns = s.lp.overruns ∧ (s.abortLoaded i recipe).lp.silence = s.lp.silence ∧
    (s.abortLoaded i recipe).lp.reply = s.lp.reply ∧ (s.abortLoaded i recipe).lp.sending = s.lp.sending ∧
    (s.abortLoaded i recipe).lp.restartDue = s.lp.restartDue := by simp [State.abortLoaded]

@[simp] theorem State.abortByState_parts (i : Fin 8) (r : UnitRecord) (s : State) :
    (s.abortByState i r).pe.counters = s.pe.counters ∧ (s.abortByState i r).pe.setpoint = s.pe.setpoint ∧
    (s.abortByState i r).pe.halt = s.pe.halt ∧ (s.abortByState i r).pe.updates = s.pe.updates ∧
    (s.abortByState i r).pe.sent = s.pe.sent ∧ (s.abortByState i r).ut.idCounter = s.ut.idCounter ∧
    (s.abortByState i r).oa.queue = s.oa.queue ∧ (s.abortByState i r).oa.current = s.oa.current ∧
    (s.abortByState i r).afe.live = s.afe.live ∧ (s.abortByState i r).afe.faults = s.afe.faults ∧
    (s.abortByState i r).afe.feedback = s.afe.feedback ∧ (s.abortByState i r).afe.pulses = s.afe.pulses ∧
    (s.abortByState i r).afe.revolution = s.afe.revolution ∧ (s.abortByState i r).afe.slowTaken = s.afe.slowTaken ∧
    (s.abortByState i r).afe.leakTaken = s.afe.leakTaken ∧ (s.abortByState i r).afe.slowSlot = s.afe.slowSlot ∧
    (s.abortByState i r).afe.leakSlot = s.afe.leakSlot ∧ (s.abortByState i r).afe.slowEnded = s.afe.slowEnded ∧
    (s.abortByState i r).afe.leakEnded = s.afe.leakEnded ∧ (s.abortByState i r).cs.slowDescs = s.cs.slowDescs ∧
    (s.abortByState i r).cs.leakDescs = s.cs.leakDescs ∧ (s.abortByState i r).cu.stack = s.cu.stack ∧
    (s.abortByState i r).cu.rl = s.cu.rl ∧ (s.abortByState i r).cu.mask = s.cu.mask ∧
    (s.abortByState i r).cu.mode = s.cu.mode ∧ (s.abortByState i r).lp.receiver = s.lp.receiver ∧
    (s.abortByState i r).lp.head = s.lp.head ∧ (s.abortByState i r).lp.second = s.lp.second ∧
    (s.abortByState i r).lp.badFrames = s.lp.badFrames ∧ (s.abortByState i r).lp.overruns = s.lp.overruns ∧
    (s.abortByState i r).lp.reply = s.lp.reply ∧ (s.abortByState i r).lp.sending = s.lp.sending ∧
    (s.abortByState i r).lp.restartDue = s.lp.restartDue ∧ (s.abortByState i r).lkc.resetVent = s.lkc.resetVent := by
  unfold State.abortByState
  split <;> simp

@[simp] theorem takeAbortUnit_parts (id : Nat) (s : State) :
    (takeAbortUnit id s).1.pe.counters = s.pe.counters ∧ (takeAbortUnit id s).1.pe.setpoint = s.pe.setpoint ∧
    (takeAbortUnit id s).1.pe.halt = s.pe.halt ∧ (takeAbortUnit id s).1.pe.updates = s.pe.updates ∧
    (takeAbortUnit id s).1.pe.sent = s.pe.sent ∧ (takeAbortUnit id s).1.ut.idCounter = s.ut.idCounter ∧
    (takeAbortUnit id s).1.oa.queue = s.oa.queue ∧ (takeAbortUnit id s).1.oa.current = s.oa.current ∧
    (takeAbortUnit id s).1.afe.live = s.afe.live ∧ (takeAbortUnit id s).1.afe.faults = s.afe.faults ∧
    (takeAbortUnit id s).1.afe.feedback = s.afe.feedback ∧ (takeAbortUnit id s).1.afe.pulses = s.afe.pulses ∧
    (takeAbortUnit id s).1.afe.revolution = s.afe.revolution ∧ (takeAbortUnit id s).1.afe.slowTaken = s.afe.slowTaken ∧
    (takeAbortUnit id s).1.afe.leakTaken = s.afe.leakTaken ∧ (takeAbortUnit id s).1.afe.slowSlot = s.afe.slowSlot ∧
    (takeAbortUnit id s).1.afe.leakSlot = s.afe.leakSlot ∧ (takeAbortUnit id s).1.afe.slowEnded = s.afe.slowEnded ∧
    (takeAbortUnit id s).1.afe.leakEnded = s.afe.leakEnded ∧ (takeAbortUnit id s).1.cs.slowDescs = s.cs.slowDescs ∧
    (takeAbortUnit id s).1.cs.leakDescs = s.cs.leakDescs ∧ (takeAbortUnit id s).1.cu.stack = s.cu.stack ∧
    (takeAbortUnit id s).1.cu.rl = s.cu.rl ∧ (takeAbortUnit id s).1.cu.mask = s.cu.mask ∧
    (takeAbortUnit id s).1.cu.mode = s.cu.mode ∧ (takeAbortUnit id s).1.lp.receiver = s.lp.receiver ∧
    (takeAbortUnit id s).1.lp.head = s.lp.head ∧ (takeAbortUnit id s).1.lp.second = s.lp.second ∧
    (takeAbortUnit id s).1.lp.badFrames = s.lp.badFrames ∧ (takeAbortUnit id s).1.lp.overruns = s.lp.overruns ∧
    (takeAbortUnit id s).1.lp.reply = s.lp.reply ∧ (takeAbortUnit id s).1.lp.sending = s.lp.sending ∧
    (takeAbortUnit id s).1.lp.restartDue = s.lp.restartDue ∧ (takeAbortUnit id s).1.lkc.resetVent = s.lkc.resetVent := by
  unfold takeAbortUnit
  repeat' split
  all_goals simp

@[simp] theorem takeAdvanceStep_parts (s : State) :
    (takeAdvanceStep s).1.pe.setpoint = s.pe.setpoint ∧ (takeAdvanceStep s).1.pe.halt = s.pe.halt ∧
    (takeAdvanceStep s).1.pe.updates = s.pe.updates ∧ (takeAdvanceStep s).1.pe.sent = s.pe.sent ∧
    (takeAdvanceStep s).1.ut.idCounter = s.ut.idCounter ∧ (takeAdvanceStep s).1.oa.queue = s.oa.queue ∧
    (takeAdvanceStep s).1.oa.current = s.oa.current ∧ (takeAdvanceStep s).1.afe.live = s.afe.live ∧
    (takeAdvanceStep s).1.afe.faults = s.afe.faults ∧ (takeAdvanceStep s).1.afe.feedback = s.afe.feedback ∧
    (takeAdvanceStep s).1.afe.pulses = s.afe.pulses ∧ (takeAdvanceStep s).1.afe.revolution = s.afe.revolution ∧
    (takeAdvanceStep s).1.afe.slowTaken = s.afe.slowTaken ∧ (takeAdvanceStep s).1.afe.leakTaken = s.afe.leakTaken ∧
    (takeAdvanceStep s).1.afe.slowSlot = s.afe.slowSlot ∧ (takeAdvanceStep s).1.afe.leakSlot = s.afe.leakSlot ∧
    (takeAdvanceStep s).1.afe.slowEnded = s.afe.slowEnded ∧ (takeAdvanceStep s).1.afe.leakEnded = s.afe.leakEnded ∧
    (takeAdvanceStep s).1.cs.slowDescs = s.cs.slowDescs ∧ (takeAdvanceStep s).1.cs.leakDescs = s.cs.leakDescs ∧
    (takeAdvanceStep s).1.cu.stack = s.cu.stack ∧ (takeAdvanceStep s).1.cu.rl = s.cu.rl ∧
    (takeAdvanceStep s).1.cu.mask = s.cu.mask ∧ (takeAdvanceStep s).1.cu.mode = s.cu.mode ∧
    (takeAdvanceStep s).1.lp.receiver = s.lp.receiver ∧ (takeAdvanceStep s).1.lp.head = s.lp.head ∧
    (takeAdvanceStep s).1.lp.second = s.lp.second ∧ (takeAdvanceStep s).1.lp.badFrames = s.lp.badFrames ∧
    (takeAdvanceStep s).1.lp.overruns = s.lp.overruns ∧ (takeAdvanceStep s).1.lp.reply = s.lp.reply ∧
    (takeAdvanceStep s).1.lp.sending = s.lp.sending ∧ (takeAdvanceStep s).1.lp.restartDue = s.lp.restartDue := by
  unfold takeAdvanceStep
  repeat' split
  all_goals simp

@[simp] theorem takeRestart_parts (s : State) :
    (takeRestart s).1.lp.receiver = s.lp.receiver ∧ (takeRestart s).1.lp.head = s.lp.head ∧
    (takeRestart s).1.lp.second = s.lp.second ∧ (takeRestart s).1.lp.badFrames = s.lp.badFrames ∧
    (takeRestart s).1.lp.overruns = s.lp.overruns ∧ (takeRestart s).1.lp.silence = s.lp.silence ∧
    (takeRestart s).1.lp.reply = s.lp.reply ∧ (takeRestart s).1.lp.sending = s.lp.sending := by simp [takeRestart]

@[simp] theorem takeLoadUnit_parts (slot : Byte) (serial : List Byte) (s : State) :
    (takeLoadUnit slot serial s).1.rs.scanning = s.rs.scanning ∧ (takeLoadUnit slot serial s).1.rs.live = s.rs.live ∧
    (takeLoadUnit slot serial s).1.rs.source = s.rs.source ∧
    (takeLoadUnit slot serial s).1.ut.transferLine = s.ut.transferLine ∧
    (takeLoadUnit slot serial s).1.ut.transferTimer = s.ut.transferTimer ∧
    (takeLoadUnit slot serial s).1.lp.receiver = s.lp.receiver ∧ (takeLoadUnit slot serial s).1.lp.head = s.lp.head ∧
    (takeLoadUnit slot serial s).1.lp.second = s.lp.second ∧ (takeLoadUnit slot serial s).1.lp.badFrames = s.lp.badFrames ∧
    (takeLoadUnit slot serial s).1.lp.overruns = s.lp.overruns ∧ (takeLoadUnit slot serial s).1.lp.silence = s.lp.silence ∧
    (takeLoadUnit slot serial s).1.lp.reply = s.lp.reply ∧ (takeLoadUnit slot serial s).1.lp.sending = s.lp.sending ∧
    (takeLoadUnit slot serial s).1.lp.restartDue = s.lp.restartDue ∧
    (takeLoadUnit slot serial s).1.cs.vibDescs = s.cs.vibDescs ∧
    (takeLoadUnit slot serial s).1.cs.slowDescs = s.cs.slowDescs ∧
    (takeLoadUnit slot serial s).1.cs.leakDescs = s.cs.leakDescs ∧ (takeLoadUnit slot serial s).1.cu.stack = s.cu.stack ∧
    (takeLoadUnit slot serial s).1.cu.rl = s.cu.rl ∧ (takeLoadUnit slot serial s).1.cu.mask = s.cu.mask ∧
    (takeLoadUnit slot serial s).1.cu.mode = s.cu.mode := by
  unfold takeLoadUnit
  dsimp only
  repeat' split
  all_goals simp

@[simp] theorem take_parts (c : Command) (s : State) :
    (take c s).1.rs.scanning = s.rs.scanning ∧ (take c s).1.rs.live = s.rs.live ∧ (take c s).1.rs.source = s.rs.source ∧
    (take c s).1.pe.updates = s.pe.updates ∧ (take c s).1.pe.sent = s.pe.sent ∧ (take c s).1.oa.queue = s.oa.queue ∧
    (take c s).1.oa.current = s.oa.current ∧ (take c s).1.afe.live = s.afe.live ∧ (take c s).1.afe.faults = s.afe.faults ∧
    (take c s).1.afe.feedback = s.afe.feedback ∧ (take c s).1.afe.pulses = s.afe.pulses ∧
    (take c s).1.afe.revolution = s.afe.revolution ∧ (take c s).1.afe.slowTaken = s.afe.slowTaken ∧
    (take c s).1.afe.leakTaken = s.afe.leakTaken ∧ (take c s).1.afe.slowSlot = s.afe.slowSlot ∧
    (take c s).1.afe.leakSlot = s.afe.leakSlot ∧ (take c s).1.afe.slowEnded = s.afe.slowEnded ∧
    (take c s).1.afe.leakEnded = s.afe.leakEnded ∧ (take c s).1.cs.slowDescs = s.cs.slowDescs ∧
    (take c s).1.cs.leakDescs = s.cs.leakDescs ∧ (take c s).1.cu.mode = s.cu.mode ∧
    (take c s).1.lp.receiver = s.lp.receiver ∧ (take c s).1.lp.head = s.lp.head ∧ (take c s).1.lp.second = s.lp.second ∧
    (take c s).1.lp.badFrames = s.lp.badFrames ∧ (take c s).1.lp.overruns = s.lp.overruns ∧
    (take c s).1.lp.reply = s.lp.reply ∧ (take c s).1.lp.sending = s.lp.sending ∧
    (take c s).1.lkc.resetVent = s.lkc.resetVent := by
  cases c <;> simp [Machine.take]

@[simp] theorem serve_parts (f : Frame) (s : State) :
    (serve f s).1.rs.scanning = s.rs.scanning ∧ (serve f s).1.rs.live = s.rs.live ∧ (serve f s).1.rs.source = s.rs.source ∧
    (serve f s).1.pe.updates = s.pe.updates ∧ (serve f s).1.pe.sent = s.pe.sent ∧ (serve f s).1.oa.queue = s.oa.queue ∧
    (serve f s).1.oa.current = s.oa.current ∧ (serve f s).1.afe.live = s.afe.live ∧ (serve f s).1.afe.faults = s.afe.faults ∧
    (serve f s).1.afe.feedback = s.afe.feedback ∧ (serve f s).1.afe.pulses = s.afe.pulses ∧
    (serve f s).1.afe.revolution = s.afe.revolution ∧ (serve f s).1.afe.slowTaken = s.afe.slowTaken ∧
    (serve f s).1.afe.leakTaken = s.afe.leakTaken ∧ (serve f s).1.afe.slowSlot = s.afe.slowSlot ∧
    (serve f s).1.afe.leakSlot = s.afe.leakSlot ∧ (serve f s).1.afe.slowEnded = s.afe.slowEnded ∧
    (serve f s).1.afe.leakEnded = s.afe.leakEnded ∧ (serve f s).1.cs.slowDescs = s.cs.slowDescs ∧
    (serve f s).1.cs.leakDescs = s.cs.leakDescs ∧ (serve f s).1.cu.mode = s.cu.mode ∧
    (serve f s).1.lp.receiver = s.lp.receiver ∧ (serve f s).1.lp.head = s.lp.head ∧ (serve f s).1.lp.second = s.lp.second ∧
    (serve f s).1.lp.badFrames = s.lp.badFrames ∧ (serve f s).1.lp.overruns = s.lp.overruns ∧
    (serve f s).1.lp.reply = s.lp.reply ∧ (serve f s).1.lp.sending = s.lp.sending ∧
    (serve f s).1.lkc.resetVent = s.lkc.resetVent := by
  unfold serve
  repeat' split
  all_goals simp

@[simp] theorem State.handle_parts (f : Frame) (s : State) :
    (s.handle f).rs.scanning = s.rs.scanning ∧ (s.handle f).rs.live = s.rs.live ∧ (s.handle f).rs.source = s.rs.source ∧
    (s.handle f).pe.updates = s.pe.updates ∧ (s.handle f).pe.sent = s.pe.sent ∧ (s.handle f).oa.queue = s.oa.queue ∧
    (s.handle f).oa.current = s.oa.current ∧ (s.handle f).afe.live = s.afe.live ∧ (s.handle f).afe.faults = s.afe.faults ∧
    (s.handle f).afe.feedback = s.afe.feedback ∧ (s.handle f).afe.pulses = s.afe.pulses ∧
    (s.handle f).afe.revolution = s.afe.revolution ∧ (s.handle f).afe.slowTaken = s.afe.slowTaken ∧
    (s.handle f).afe.leakTaken = s.afe.leakTaken ∧ (s.handle f).afe.slowSlot = s.afe.slowSlot ∧
    (s.handle f).afe.leakSlot = s.afe.leakSlot ∧ (s.handle f).afe.slowEnded = s.afe.slowEnded ∧
    (s.handle f).afe.leakEnded = s.afe.leakEnded ∧ (s.handle f).cs.slowDescs = s.cs.slowDescs ∧
    (s.handle f).cs.leakDescs = s.cs.leakDescs ∧ (s.handle f).cu.mode = s.cu.mode ∧
    (s.handle f).lp.receiver = s.lp.receiver ∧ (s.handle f).lp.head = s.lp.head ∧ (s.handle f).lp.second = s.lp.second ∧
    (s.handle f).lp.badFrames = s.lp.badFrames ∧ (s.handle f).lp.overruns = s.lp.overruns ∧
    (s.handle f).lp.sending = s.lp.sending ∧ (s.handle f).lkc.resetVent = s.lkc.resetVent := by simp [State.handle]

@[simp] theorem State.restartSilence_parts (s : State) :
    (s.restartSilence).lp.receiver = s.lp.receiver ∧ (s.restartSilence).lp.head = s.lp.head ∧
    (s.restartSilence).lp.second = s.lp.second ∧ (s.restartSilence).lp.badFrames = s.lp.badFrames ∧
    (s.restartSilence).lp.overruns = s.lp.overruns ∧ (s.restartSilence).lp.reply = s.lp.reply ∧
    (s.restartSilence).lp.sending = s.lp.sending ∧ (s.restartSilence).lp.restartDue = s.lp.restartDue := by
  unfold State.restartSilence
  split <;> simp

@[simp] theorem State.badFrame_parts (s : State) :
    (s.badFrame).lp.receiver = s.lp.receiver ∧ (s.badFrame).lp.head = s.lp.head ∧ (s.badFrame).lp.second = s.lp.second ∧
    (s.badFrame).lp.overruns = s.lp.overruns ∧ (s.badFrame).lp.silence = s.lp.silence ∧ (s.badFrame).lp.reply = s.lp.reply ∧
    (s.badFrame).lp.sending = s.lp.sending ∧ (s.badFrame).lp.restartDue = s.lp.restartDue := by simp [State.badFrame]

@[simp] theorem State.offer_parts (f : Frame) (s : State) :
    (s.offer f).rs.scanning = s.rs.scanning ∧ (s.offer f).rs.live = s.rs.live ∧ (s.offer f).rs.source = s.rs.source ∧
    (s.offer f).pe.updates = s.pe.updates ∧ (s.offer f).pe.sent = s.pe.sent ∧ (s.offer f).oa.queue = s.oa.queue ∧
    (s.offer f).oa.current = s.oa.current ∧ (s.offer f).afe.live = s.afe.live ∧ (s.offer f).afe.faults = s.afe.faults ∧
    (s.offer f).afe.feedback = s.afe.feedback ∧ (s.offer f).afe.pulses = s.afe.pulses ∧
    (s.offer f).afe.revolution = s.afe.revolution ∧ (s.offer f).afe.slowTaken = s.afe.slowTaken ∧
    (s.offer f).afe.leakTaken = s.afe.leakTaken ∧ (s.offer f).afe.slowSlot = s.afe.slowSlot ∧
    (s.offer f).afe.leakSlot = s.afe.leakSlot ∧ (s.offer f).afe.slowEnded = s.afe.slowEnded ∧
    (s.offer f).afe.leakEnded = s.afe.leakEnded ∧ (s.offer f).cs.slowDescs = s.cs.slowDescs ∧
    (s.offer f).cs.leakDescs = s.cs.leakDescs ∧ (s.offer f).cu.mode = s.cu.mode ∧ (s.offer f).lp.receiver = s.lp.receiver ∧
    (s.offer f).lp.badFrames = s.lp.badFrames ∧ (s.offer f).lp.sending = s.lp.sending ∧
    (s.offer f).lkc.resetVent = s.lkc.resetVent := by
  unfold State.offer
  split <;> simp

@[simp] theorem State.passFrame_parts (f : Frame) (s : State) :
    (s.passFrame f).rs.scanning = s.rs.scanning ∧ (s.passFrame f).rs.live = s.rs.live ∧
    (s.passFrame f).rs.source = s.rs.source ∧ (s.passFrame f).pe.updates = s.pe.updates ∧
    (s.passFrame f).pe.sent = s.pe.sent ∧ (s.passFrame f).oa.queue = s.oa.queue ∧ (s.passFrame f).oa.current = s.oa.current ∧
    (s.passFrame f).afe.live = s.afe.live ∧ (s.passFrame f).afe.faults = s.afe.faults ∧
    (s.passFrame f).afe.feedback = s.afe.feedback ∧ (s.passFrame f).afe.pulses = s.afe.pulses ∧
    (s.passFrame f).afe.revolution = s.afe.revolution ∧ (s.passFrame f).afe.slowTaken = s.afe.slowTaken ∧
    (s.passFrame f).afe.leakTaken = s.afe.leakTaken ∧ (s.passFrame f).afe.slowSlot = s.afe.slowSlot ∧
    (s.passFrame f).afe.leakSlot = s.afe.leakSlot ∧ (s.passFrame f).afe.slowEnded = s.afe.slowEnded ∧
    (s.passFrame f).afe.leakEnded = s.afe.leakEnded ∧ (s.passFrame f).cs.slowDescs = s.cs.slowDescs ∧
    (s.passFrame f).cs.leakDescs = s.cs.leakDescs ∧ (s.passFrame f).cu.mode = s.cu.mode ∧
    (s.passFrame f).lp.receiver = s.lp.receiver ∧ (s.passFrame f).lp.sending = s.lp.sending ∧
    (s.passFrame f).lkc.resetVent = s.lkc.resetVent := by
  unfold State.passFrame
  split <;> simp

@[simp] theorem State.arriveFrame_parts (f : Frame) (s : State) :
    (s.arriveFrame f).rs.scanning = s.rs.scanning ∧ (s.arriveFrame f).rs.live = s.rs.live ∧
    (s.arriveFrame f).rs.source = s.rs.source ∧ (s.arriveFrame f).pe.updates = s.pe.updates ∧
    (s.arriveFrame f).pe.sent = s.pe.sent ∧ (s.arriveFrame f).oa.queue = s.oa.queue ∧
    (s.arriveFrame f).oa.current = s.oa.current ∧ (s.arriveFrame f).afe.live = s.afe.live ∧
    (s.arriveFrame f).afe.faults = s.afe.faults ∧ (s.arriveFrame f).afe.feedback = s.afe.feedback ∧
    (s.arriveFrame f).afe.pulses = s.afe.pulses ∧ (s.arriveFrame f).afe.revolution = s.afe.revolution ∧
    (s.arriveFrame f).afe.slowTaken = s.afe.slowTaken ∧ (s.arriveFrame f).afe.leakTaken = s.afe.leakTaken ∧
    (s.arriveFrame f).afe.slowSlot = s.afe.slowSlot ∧ (s.arriveFrame f).afe.leakSlot = s.afe.leakSlot ∧
    (s.arriveFrame f).afe.slowEnded = s.afe.slowEnded ∧ (s.arriveFrame f).afe.leakEnded = s.afe.leakEnded ∧
    (s.arriveFrame f).cs.slowDescs = s.cs.slowDescs ∧ (s.arriveFrame f).cs.leakDescs = s.cs.leakDescs ∧
    (s.arriveFrame f).cu.mode = s.cu.mode ∧ (s.arriveFrame f).lp.receiver = s.lp.receiver ∧
    (s.arriveFrame f).lp.sending = s.lp.sending ∧ (s.arriveFrame f).lkc.resetVent = s.lkc.resetVent := by
  unfold State.arriveFrame
  split <;> simp

@[simp] theorem State.setReceiver_parts (r : Receiver) (s : State) :
    (s.setReceiver r).lp.head = s.lp.head ∧ (s.setReceiver r).lp.second = s.lp.second ∧
    (s.setReceiver r).lp.badFrames = s.lp.badFrames ∧ (s.setReceiver r).lp.overruns = s.lp.overruns ∧
    (s.setReceiver r).lp.silence = s.lp.silence ∧ (s.setReceiver r).lp.reply = s.lp.reply ∧
    (s.setReceiver r).lp.sending = s.lp.sending ∧
    (s.setReceiver r).lp.restartDue = s.lp.restartDue := by simp [State.setReceiver]

@[simp] theorem State.takeHeader_parts (kind tag lo hi : Byte) (s : State) :
    (s.takeHeader kind tag lo hi).lp.head = s.lp.head ∧ (s.takeHeader kind tag lo hi).lp.second = s.lp.second ∧
    (s.takeHeader kind tag lo hi).lp.overruns = s.lp.overruns ∧ (s.takeHeader kind tag lo hi).lp.silence = s.lp.silence ∧
    (s.takeHeader kind tag lo hi).lp.reply = s.lp.reply ∧ (s.takeHeader kind tag lo hi).lp.sending = s.lp.sending ∧
    (s.takeHeader kind tag lo hi).lp.restartDue = s.lp.restartDue := by
  unfold State.takeHeader
  dsimp only
  repeat' split
  all_goals simp

@[simp] theorem State.checkFrame_parts (f : Frame) (first second : Byte) (s : State) :
    (s.checkFrame f first second).rs.scanning = s.rs.scanning ∧ (s.checkFrame f first second).rs.live = s.rs.live ∧
    (s.checkFrame f first second).rs.source = s.rs.source ∧ (s.checkFrame f first second).pe.updates = s.pe.updates ∧
    (s.checkFrame f first second).pe.sent = s.pe.sent ∧ (s.checkFrame f first second).oa.queue = s.oa.queue ∧
    (s.checkFrame f first second).oa.current = s.oa.current ∧ (s.checkFrame f first second).afe.live = s.afe.live ∧
    (s.checkFrame f first second).afe.faults = s.afe.faults ∧ (s.checkFrame f first second).afe.feedback = s.afe.feedback ∧
    (s.checkFrame f first second).afe.pulses = s.afe.pulses ∧
    (s.checkFrame f first second).afe.revolution = s.afe.revolution ∧
    (s.checkFrame f first second).afe.slowTaken = s.afe.slowTaken ∧
    (s.checkFrame f first second).afe.leakTaken = s.afe.leakTaken ∧
    (s.checkFrame f first second).afe.slowSlot = s.afe.slowSlot ∧
    (s.checkFrame f first second).afe.leakSlot = s.afe.leakSlot ∧
    (s.checkFrame f first second).afe.slowEnded = s.afe.slowEnded ∧
    (s.checkFrame f first second).afe.leakEnded = s.afe.leakEnded ∧
    (s.checkFrame f first second).cs.slowDescs = s.cs.slowDescs ∧
    (s.checkFrame f first second).cs.leakDescs = s.cs.leakDescs ∧ (s.checkFrame f first second).cu.mode = s.cu.mode ∧
    (s.checkFrame f first second).lp.sending = s.lp.sending ∧
    (s.checkFrame f first second).lkc.resetVent = s.lkc.resetVent := by
  unfold State.checkFrame
  split <;> simp

@[simp] theorem State.takeByte_parts (s : State) (b : Byte) :
    (s.takeByte b).rs.scanning = s.rs.scanning ∧ (s.takeByte b).rs.live = s.rs.live ∧
    (s.takeByte b).rs.source = s.rs.source ∧ (s.takeByte b).pe.updates = s.pe.updates ∧ (s.takeByte b).pe.sent = s.pe.sent ∧
    (s.takeByte b).oa.queue = s.oa.queue ∧ (s.takeByte b).oa.current = s.oa.current ∧ (s.takeByte b).afe.live = s.afe.live ∧
    (s.takeByte b).afe.faults = s.afe.faults ∧ (s.takeByte b).afe.feedback = s.afe.feedback ∧
    (s.takeByte b).afe.pulses = s.afe.pulses ∧ (s.takeByte b).afe.revolution = s.afe.revolution ∧
    (s.takeByte b).afe.slowTaken = s.afe.slowTaken ∧ (s.takeByte b).afe.leakTaken = s.afe.leakTaken ∧
    (s.takeByte b).afe.slowSlot = s.afe.slowSlot ∧ (s.takeByte b).afe.leakSlot = s.afe.leakSlot ∧
    (s.takeByte b).afe.slowEnded = s.afe.slowEnded ∧ (s.takeByte b).afe.leakEnded = s.afe.leakEnded ∧
    (s.takeByte b).cs.slowDescs = s.cs.slowDescs ∧ (s.takeByte b).cs.leakDescs = s.cs.leakDescs ∧
    (s.takeByte b).cu.mode = s.cu.mode ∧ (s.takeByte b).lp.sending = s.lp.sending ∧
    (s.takeByte b).lkc.resetVent = s.lkc.resetVent := by
  unfold State.takeByte
  repeat' split
  all_goals simp

@[simp] theorem State.takeBytes_parts (bytes : List Byte) (s : State) :
    (s.takeBytes bytes).rs.scanning = s.rs.scanning ∧ (s.takeBytes bytes).rs.live = s.rs.live ∧
    (s.takeBytes bytes).rs.source = s.rs.source ∧ (s.takeBytes bytes).pe.updates = s.pe.updates ∧
    (s.takeBytes bytes).pe.sent = s.pe.sent ∧ (s.takeBytes bytes).oa.queue = s.oa.queue ∧
    (s.takeBytes bytes).oa.current = s.oa.current ∧ (s.takeBytes bytes).afe.live = s.afe.live ∧
    (s.takeBytes bytes).afe.faults = s.afe.faults ∧ (s.takeBytes bytes).afe.feedback = s.afe.feedback ∧
    (s.takeBytes bytes).afe.pulses = s.afe.pulses ∧ (s.takeBytes bytes).afe.revolution = s.afe.revolution ∧
    (s.takeBytes bytes).afe.slowTaken = s.afe.slowTaken ∧ (s.takeBytes bytes).afe.leakTaken = s.afe.leakTaken ∧
    (s.takeBytes bytes).afe.slowSlot = s.afe.slowSlot ∧ (s.takeBytes bytes).afe.leakSlot = s.afe.leakSlot ∧
    (s.takeBytes bytes).afe.slowEnded = s.afe.slowEnded ∧ (s.takeBytes bytes).afe.leakEnded = s.afe.leakEnded ∧
    (s.takeBytes bytes).cs.slowDescs = s.cs.slowDescs ∧ (s.takeBytes bytes).cs.leakDescs = s.cs.leakDescs ∧
    (s.takeBytes bytes).cu.mode = s.cu.mode ∧ (s.takeBytes bytes).lp.sending = s.lp.sending ∧
    (s.takeBytes bytes).lkc.resetVent = s.lkc.resetVent := by
  unfold State.takeBytes
  induction bytes generalizing s with
  | nil => simp
  | cons b bs ih => simp [ih]

@[simp] theorem State.gapTimeout_parts (s : State) :
    (s.gapTimeout).lp.head = s.lp.head ∧ (s.gapTimeout).lp.second = s.lp.second ∧
    (s.gapTimeout).lp.overruns = s.lp.overruns ∧ (s.gapTimeout).lp.silence = s.lp.silence ∧
    (s.gapTimeout).lp.reply = s.lp.reply ∧ (s.gapTimeout).lp.sending = s.lp.sending ∧
    (s.gapTimeout).lp.restartDue = s.lp.restartDue := by
  unfold State.gapTimeout
  split <;> simp

@[simp] theorem State.cleared_parts (s : State) :
    (s.cleared).cu.mode = s.cu.mode := by simp [State.cleared]

@[simp] theorem State.doReset_parts (s : State) :
    (s.doReset).cu.mode = s.cu.mode := by simp [State.doReset]

@[simp] theorem State.freeHead_parts (s : State) :
    (s.freeHead).rs.scanning = s.rs.scanning ∧ (s.freeHead).rs.live = s.rs.live ∧ (s.freeHead).rs.source = s.rs.source ∧
    (s.freeHead).pe.updates = s.pe.updates ∧ (s.freeHead).pe.sent = s.pe.sent ∧ (s.freeHead).oa.queue = s.oa.queue ∧
    (s.freeHead).oa.current = s.oa.current ∧ (s.freeHead).afe.live = s.afe.live ∧ (s.freeHead).afe.faults = s.afe.faults ∧
    (s.freeHead).afe.feedback = s.afe.feedback ∧ (s.freeHead).afe.pulses = s.afe.pulses ∧
    (s.freeHead).afe.revolution = s.afe.revolution ∧ (s.freeHead).afe.slowTaken = s.afe.slowTaken ∧
    (s.freeHead).afe.leakTaken = s.afe.leakTaken ∧ (s.freeHead).afe.slowSlot = s.afe.slowSlot ∧
    (s.freeHead).afe.leakSlot = s.afe.leakSlot ∧ (s.freeHead).afe.slowEnded = s.afe.slowEnded ∧
    (s.freeHead).afe.leakEnded = s.afe.leakEnded ∧ (s.freeHead).cs.slowDescs = s.cs.slowDescs ∧
    (s.freeHead).cs.leakDescs = s.cs.leakDescs ∧ (s.freeHead).cu.mode = s.cu.mode ∧
    (s.freeHead).lp.receiver = s.lp.receiver ∧ (s.freeHead).lp.badFrames = s.lp.badFrames ∧
    (s.freeHead).lp.overruns = s.lp.overruns ∧ (s.freeHead).lp.sending = s.lp.sending ∧
    (s.freeHead).lkc.resetVent = s.lkc.resetVent := by
  unfold State.freeHead
  dsimp only
  split <;> simp

@[simp] theorem State.frameSent_parts (s : State) :
    (s.frameSent).cu.mode = s.cu.mode := by
  unfold State.frameSent
  repeat' split
  all_goals simp

@[simp] theorem State.silenceExpiry_parts (s : State) :
    (s.silenceExpiry).pe.updates = s.pe.updates ∧ (s.silenceExpiry).pe.sent = s.pe.sent ∧
    (s.silenceExpiry).ut.idCounter = s.ut.idCounter ∧ (s.silenceExpiry).oa.queue = s.oa.queue ∧
    (s.silenceExpiry).oa.current = s.oa.current ∧ (s.silenceExpiry).afe.live = s.afe.live ∧
    (s.silenceExpiry).afe.faults = s.afe.faults ∧ (s.silenceExpiry).afe.feedback = s.afe.feedback ∧
    (s.silenceExpiry).afe.pulses = s.afe.pulses ∧ (s.silenceExpiry).afe.revolution = s.afe.revolution ∧
    (s.silenceExpiry).afe.slowTaken = s.afe.slowTaken ∧ (s.silenceExpiry).afe.leakTaken = s.afe.leakTaken ∧
    (s.silenceExpiry).afe.slowSlot = s.afe.slowSlot ∧ (s.silenceExpiry).afe.leakSlot = s.afe.leakSlot ∧
    (s.silenceExpiry).afe.slowEnded = s.afe.slowEnded ∧ (s.silenceExpiry).afe.leakEnded = s.afe.leakEnded ∧
    (s.silenceExpiry).cs.slowDescs = s.cs.slowDescs ∧ (s.silenceExpiry).cs.leakDescs = s.cs.leakDescs ∧
    (s.silenceExpiry).cu.mask = s.cu.mask ∧ (s.silenceExpiry).cu.mode = s.cu.mode ∧
    (s.silenceExpiry).lp.receiver = s.lp.receiver ∧ (s.silenceExpiry).lp.head = s.lp.head ∧
    (s.silenceExpiry).lp.second = s.lp.second ∧ (s.silenceExpiry).lp.badFrames = s.lp.badFrames ∧
    (s.silenceExpiry).lp.overruns = s.lp.overruns ∧ (s.silenceExpiry).lp.reply = s.lp.reply ∧
    (s.silenceExpiry).lp.sending = s.lp.sending ∧ (s.silenceExpiry).lp.restartDue = s.lp.restartDue ∧
    (s.silenceExpiry).lkc.resetVent = s.lkc.resetVent := by
  unfold State.silenceExpiry
  split <;> simp

/-! ## Events of the stands -/

@[simp] theorem State.transferExpiry_parts (s : State) :
    (s.transferExpiry).pe.updates = s.pe.updates ∧ (s.transferExpiry).pe.sent = s.pe.sent ∧
    (s.transferExpiry).ut.idCounter = s.ut.idCounter ∧ (s.transferExpiry).oa.queue = s.oa.queue ∧
    (s.transferExpiry).oa.current = s.oa.current ∧ (s.transferExpiry).afe.live = s.afe.live ∧
    (s.transferExpiry).afe.faults = s.afe.faults ∧ (s.transferExpiry).afe.feedback = s.afe.feedback ∧
    (s.transferExpiry).afe.pulses = s.afe.pulses ∧ (s.transferExpiry).afe.revolution = s.afe.revolution ∧
    (s.transferExpiry).afe.slowTaken = s.afe.slowTaken ∧ (s.transferExpiry).afe.leakTaken = s.afe.leakTaken ∧
    (s.transferExpiry).afe.slowSlot = s.afe.slowSlot ∧ (s.transferExpiry).afe.leakSlot = s.afe.leakSlot ∧
    (s.transferExpiry).afe.slowEnded = s.afe.slowEnded ∧ (s.transferExpiry).afe.leakEnded = s.afe.leakEnded ∧
    (s.transferExpiry).cs.slowDescs = s.cs.slowDescs ∧ (s.transferExpiry).cs.leakDescs = s.cs.leakDescs ∧
    (s.transferExpiry).cu.mask = s.cu.mask ∧ (s.transferExpiry).cu.mode = s.cu.mode ∧
    (s.transferExpiry).lp.receiver = s.lp.receiver ∧ (s.transferExpiry).lp.head = s.lp.head ∧
    (s.transferExpiry).lp.second = s.lp.second ∧ (s.transferExpiry).lp.badFrames = s.lp.badFrames ∧
    (s.transferExpiry).lp.overruns = s.lp.overruns ∧ (s.transferExpiry).lp.reply = s.lp.reply ∧
    (s.transferExpiry).lp.sending = s.lp.sending ∧ (s.transferExpiry).lp.restartDue = s.lp.restartDue ∧
    (s.transferExpiry).lkc.resetVent = s.lkc.resetVent := by
  unfold State.transferExpiry
  split <;> simp

@[simp] theorem State.setpointDue_parts (s : State) :
    (s.setpointDue).lkc.queue = s.lkc.queue ∧ (s.setpointDue).lkc.resetVent = s.lkc.resetVent ∧
    (s.setpointDue).pe.counters = s.pe.counters ∧ (s.setpointDue).pe.halt = s.pe.halt ∧
    (s.setpointDue).ut.idCounter = s.ut.idCounter ∧ (s.setpointDue).oa.queue = s.oa.queue ∧
    (s.setpointDue).oa.current = s.oa.current ∧ (s.setpointDue).afe.live = s.afe.live ∧
    (s.setpointDue).afe.faults = s.afe.faults ∧ (s.setpointDue).afe.feedback = s.afe.feedback ∧
    (s.setpointDue).afe.pulses = s.afe.pulses ∧ (s.setpointDue).afe.revolution = s.afe.revolution ∧
    (s.setpointDue).afe.slowTaken = s.afe.slowTaken ∧ (s.setpointDue).afe.leakTaken = s.afe.leakTaken ∧
    (s.setpointDue).afe.slowSlot = s.afe.slowSlot ∧ (s.setpointDue).afe.leakSlot = s.afe.leakSlot ∧
    (s.setpointDue).afe.slowEnded = s.afe.slowEnded ∧ (s.setpointDue).afe.leakEnded = s.afe.leakEnded ∧
    (s.setpointDue).cs.slowDescs = s.cs.slowDescs ∧ (s.setpointDue).cs.leakDescs = s.cs.leakDescs ∧
    (s.setpointDue).cu.stack = s.cu.stack ∧ (s.setpointDue).cu.rl = s.cu.rl ∧ (s.setpointDue).cu.mask = s.cu.mask ∧
    (s.setpointDue).cu.mode = s.cu.mode ∧ (s.setpointDue).lp.receiver = s.lp.receiver ∧ (s.setpointDue).lp.head = s.lp.head ∧
    (s.setpointDue).lp.second = s.lp.second ∧ (s.setpointDue).lp.badFrames = s.lp.badFrames ∧
    (s.setpointDue).lp.overruns = s.lp.overruns ∧ (s.setpointDue).lp.reply = s.lp.reply ∧
    (s.setpointDue).lp.sending = s.lp.sending ∧ (s.setpointDue).lp.restartDue = s.lp.restartDue := by simp [State.setpointDue]

@[simp] theorem State.judgeFeedback_parts (speed : Int) (s : State) :
    (s.judgeFeedback speed).cu.stack = s.cu.stack ∧ (s.judgeFeedback speed).cu.rl = s.cu.rl ∧
    (s.judgeFeedback speed).cu.mask = s.cu.mask ∧ (s.judgeFeedback speed).cu.mode = s.cu.mode := by simp [State.judgeFeedback]

@[simp] theorem State.feedbackArrives_parts (f : Feedback) (s : State) :
    (s.feedbackArrives f).pe.updates = s.pe.updates ∧ (s.feedbackArrives f).pe.sent = s.pe.sent ∧
    (s.feedbackArrives f).ut.idCounter = s.ut.idCounter ∧ (s.feedbackArrives f).oa.queue = s.oa.queue ∧
    (s.feedbackArrives f).oa.current = s.oa.current ∧ (s.feedbackArrives f).afe.live = s.afe.live ∧
    (s.feedbackArrives f).afe.faults = s.afe.faults ∧ (s.feedbackArrives f).afe.pulses = s.afe.pulses ∧
    (s.feedbackArrives f).afe.revolution = s.afe.revolution ∧ (s.feedbackArrives f).afe.slowTaken = s.afe.slowTaken ∧
    (s.feedbackArrives f).afe.leakTaken = s.afe.leakTaken ∧ (s.feedbackArrives f).afe.slowSlot = s.afe.slowSlot ∧
    (s.feedbackArrives f).afe.leakSlot = s.afe.leakSlot ∧ (s.feedbackArrives f).afe.slowEnded = s.afe.slowEnded ∧
    (s.feedbackArrives f).afe.leakEnded = s.afe.leakEnded ∧ (s.feedbackArrives f).cs.slowDescs = s.cs.slowDescs ∧
    (s.feedbackArrives f).cs.leakDescs = s.cs.leakDescs ∧ (s.feedbackArrives f).cu.mask = s.cu.mask ∧
    (s.feedbackArrives f).cu.mode = s.cu.mode ∧ (s.feedbackArrives f).lp.receiver = s.lp.receiver ∧
    (s.feedbackArrives f).lp.head = s.lp.head ∧ (s.feedbackArrives f).lp.second = s.lp.second ∧
    (s.feedbackArrives f).lp.badFrames = s.lp.badFrames ∧ (s.feedbackArrives f).lp.overruns = s.lp.overruns ∧
    (s.feedbackArrives f).lp.reply = s.lp.reply ∧ (s.feedbackArrives f).lp.sending = s.lp.sending ∧
    (s.feedbackArrives f).lp.restartDue = s.lp.restartDue ∧
    (s.feedbackArrives f).lkc.resetVent = s.lkc.resetVent := by simp [State.feedbackArrives]

@[simp] theorem State.stepExpiry_parts (s : State) :
    (s.stepExpiry).lkc.queue = s.lkc.queue ∧ (s.stepExpiry).lkc.resetVent = s.lkc.resetVent ∧
    (s.stepExpiry).pe.setpoint = s.pe.setpoint ∧ (s.stepExpiry).pe.halt = s.pe.halt ∧
    (s.stepExpiry).pe.updates = s.pe.updates ∧ (s.stepExpiry).pe.sent = s.pe.sent ∧
    (s.stepExpiry).ut.idCounter = s.ut.idCounter ∧ (s.stepExpiry).oa.queue = s.oa.queue ∧
    (s.stepExpiry).oa.current = s.oa.current ∧ (s.stepExpiry).afe.live = s.afe.live ∧
    (s.stepExpiry).afe.faults = s.afe.faults ∧ (s.stepExpiry).afe.feedback = s.afe.feedback ∧
    (s.stepExpiry).afe.pulses = s.afe.pulses ∧ (s.stepExpiry).afe.revolution = s.afe.revolution ∧
    (s.stepExpiry).afe.slowTaken = s.afe.slowTaken ∧ (s.stepExpiry).afe.leakTaken = s.afe.leakTaken ∧
    (s.stepExpiry).afe.slowSlot = s.afe.slowSlot ∧ (s.stepExpiry).afe.leakSlot = s.afe.leakSlot ∧
    (s.stepExpiry).afe.slowEnded = s.afe.slowEnded ∧ (s.stepExpiry).afe.leakEnded = s.afe.leakEnded ∧
    (s.stepExpiry).cs.slowDescs = s.cs.slowDescs ∧ (s.stepExpiry).cs.leakDescs = s.cs.leakDescs ∧
    (s.stepExpiry).cu.stack = s.cu.stack ∧ (s.stepExpiry).cu.rl = s.cu.rl ∧ (s.stepExpiry).cu.mask = s.cu.mask ∧
    (s.stepExpiry).cu.mode = s.cu.mode ∧ (s.stepExpiry).lp.receiver = s.lp.receiver ∧ (s.stepExpiry).lp.head = s.lp.head ∧
    (s.stepExpiry).lp.second = s.lp.second ∧ (s.stepExpiry).lp.badFrames = s.lp.badFrames ∧
    (s.stepExpiry).lp.overruns = s.lp.overruns ∧ (s.stepExpiry).lp.reply = s.lp.reply ∧
    (s.stepExpiry).lp.sending = s.lp.sending ∧ (s.stepExpiry).lp.restartDue = s.lp.restartDue := by
  unfold State.stepExpiry
  dsimp only
  repeat' split
  all_goals simp

@[simp] theorem State.settleExpiry_parts (s : State) :
    (s.settleExpiry).lp.receiver = s.lp.receiver ∧ (s.settleExpiry).lp.head = s.lp.head ∧
    (s.settleExpiry).lp.second = s.lp.second ∧ (s.settleExpiry).lp.badFrames = s.lp.badFrames ∧
    (s.settleExpiry).lp.overruns = s.lp.overruns ∧ (s.settleExpiry).lp.reply = s.lp.reply ∧
    (s.settleExpiry).lp.sending = s.lp.sending ∧ (s.settleExpiry).lp.restartDue = s.lp.restartDue ∧
    (s.settleExpiry).ut.idCounter = s.ut.idCounter ∧ (s.settleExpiry).ut.transferLine = s.ut.transferLine ∧
    (s.settleExpiry).pe.phase = s.pe.phase ∧ (s.settleExpiry).pe.step = s.pe.step ∧
    (s.settleExpiry).pe.counters = s.pe.counters ∧ (s.settleExpiry).pe.setpoint = s.pe.setpoint ∧
    (s.settleExpiry).pe.enable = s.pe.enable ∧ (s.settleExpiry).pe.brake = s.pe.brake ∧
    (s.settleExpiry).pe.halt = s.pe.halt ∧ (s.settleExpiry).pe.updates = s.pe.updates ∧
    (s.settleExpiry).pe.sent = s.pe.sent ∧ (s.settleExpiry).afe.live = s.afe.live ∧
    (s.settleExpiry).afe.faults = s.afe.faults ∧ (s.settleExpiry).afe.feedback = s.afe.feedback ∧
    (s.settleExpiry).afe.pulses = s.afe.pulses ∧ (s.settleExpiry).afe.revolution = s.afe.revolution ∧
    (s.settleExpiry).afe.openVib = s.afe.openVib ∧ (s.settleExpiry).afe.slowTaken = s.afe.slowTaken ∧
    (s.settleExpiry).afe.leakTaken = s.afe.leakTaken ∧ (s.settleExpiry).afe.slowSlot = s.afe.slowSlot ∧
    (s.settleExpiry).afe.leakSlot = s.afe.leakSlot ∧ (s.settleExpiry).afe.slowEnded = s.afe.slowEnded ∧
    (s.settleExpiry).afe.leakEnded = s.afe.leakEnded ∧ (s.settleExpiry).lkc.queue = s.lkc.queue ∧
    (s.settleExpiry).lkc.resetVent = s.lkc.resetVent ∧ (s.settleExpiry).oa.queue = s.oa.queue ∧
    (s.settleExpiry).oa.current = s.oa.current ∧ (s.settleExpiry).cs.vibDescs = s.cs.vibDescs ∧
    (s.settleExpiry).cs.slowDescs = s.cs.slowDescs ∧ (s.settleExpiry).cs.leakDescs = s.cs.leakDescs ∧
    (s.settleExpiry).cu.stack = s.cu.stack ∧ (s.settleExpiry).cu.rl = s.cu.rl ∧ (s.settleExpiry).cu.mask = s.cu.mask ∧
    (s.settleExpiry).cu.mode = s.cu.mode := by
  unfold State.settleExpiry
  split <;> simp

@[simp] theorem State.startSlot_parts (stream : SlotStream) (s : State) :
    (s.startSlot stream).lp.receiver = s.lp.receiver ∧ (s.startSlot stream).lp.head = s.lp.head ∧
    (s.startSlot stream).lp.second = s.lp.second ∧ (s.startSlot stream).lp.badFrames = s.lp.badFrames ∧
    (s.startSlot stream).lp.overruns = s.lp.overruns ∧ (s.startSlot stream).lp.reply = s.lp.reply ∧
    (s.startSlot stream).lp.sending = s.lp.sending ∧ (s.startSlot stream).lp.restartDue = s.lp.restartDue ∧
    (s.startSlot stream).ut.idCounter = s.ut.idCounter ∧ (s.startSlot stream).ut.transferLine = s.ut.transferLine ∧
    (s.startSlot stream).pe.phase = s.pe.phase ∧ (s.startSlot stream).pe.step = s.pe.step ∧
    (s.startSlot stream).pe.counters = s.pe.counters ∧ (s.startSlot stream).pe.setpoint = s.pe.setpoint ∧
    (s.startSlot stream).pe.enable = s.pe.enable ∧ (s.startSlot stream).pe.brake = s.pe.brake ∧
    (s.startSlot stream).pe.halt = s.pe.halt ∧ (s.startSlot stream).pe.updates = s.pe.updates ∧
    (s.startSlot stream).pe.sent = s.pe.sent ∧ (s.startSlot stream).afe.live = s.afe.live ∧
    (s.startSlot stream).afe.faults = s.afe.faults ∧ (s.startSlot stream).afe.feedback = s.afe.feedback ∧
    (s.startSlot stream).afe.pulses = s.afe.pulses ∧ (s.startSlot stream).afe.revolution = s.afe.revolution ∧
    (s.startSlot stream).afe.openVib = s.afe.openVib ∧ (s.startSlot stream).afe.slowTaken = s.afe.slowTaken ∧
    (s.startSlot stream).afe.leakTaken = s.afe.leakTaken ∧ (s.startSlot stream).afe.slowEnded = s.afe.slowEnded ∧
    (s.startSlot stream).afe.leakEnded = s.afe.leakEnded ∧ (s.startSlot stream).lkc.queue = s.lkc.queue ∧
    (s.startSlot stream).lkc.resetVent = s.lkc.resetVent ∧ (s.startSlot stream).cs.vibDescs = s.cs.vibDescs ∧
    (s.startSlot stream).cu.stack = s.cu.stack ∧ (s.startSlot stream).cu.rl = s.cu.rl ∧
    (s.startSlot stream).cu.mask = s.cu.mask ∧ (s.startSlot stream).cu.mode = s.cu.mode := by
  unfold State.startSlot
  split <;> simp

@[simp] theorem State.endSlot_parts (stream : SlotStream) (s : State) :
    (s.endSlot stream).lp.receiver = s.lp.receiver ∧ (s.endSlot stream).lp.head = s.lp.head ∧
    (s.endSlot stream).lp.second = s.lp.second ∧ (s.endSlot stream).lp.badFrames = s.lp.badFrames ∧
    (s.endSlot stream).lp.overruns = s.lp.overruns ∧ (s.endSlot stream).lp.reply = s.lp.reply ∧
    (s.endSlot stream).lp.sending = s.lp.sending ∧ (s.endSlot stream).lp.restartDue = s.lp.restartDue ∧
    (s.endSlot stream).ut.idCounter = s.ut.idCounter ∧ (s.endSlot stream).ut.transferLine = s.ut.transferLine ∧
    (s.endSlot stream).pe.phase = s.pe.phase ∧ (s.endSlot stream).pe.step = s.pe.step ∧
    (s.endSlot stream).pe.counters = s.pe.counters ∧ (s.endSlot stream).pe.setpoint = s.pe.setpoint ∧
    (s.endSlot stream).pe.enable = s.pe.enable ∧ (s.endSlot stream).pe.brake = s.pe.brake ∧
    (s.endSlot stream).pe.halt = s.pe.halt ∧ (s.endSlot stream).pe.updates = s.pe.updates ∧
    (s.endSlot stream).pe.sent = s.pe.sent ∧ (s.endSlot stream).afe.live = s.afe.live ∧
    (s.endSlot stream).afe.faults = s.afe.faults ∧ (s.endSlot stream).afe.feedback = s.afe.feedback ∧
    (s.endSlot stream).afe.pulses = s.afe.pulses ∧ (s.endSlot stream).afe.revolution = s.afe.revolution ∧
    (s.endSlot stream).afe.openVib = s.afe.openVib ∧ (s.endSlot stream).afe.slowTaken = s.afe.slowTaken ∧
    (s.endSlot stream).afe.leakTaken = s.afe.leakTaken ∧ (s.endSlot stream).afe.slowSlot = s.afe.slowSlot ∧
    (s.endSlot stream).afe.leakSlot = s.afe.leakSlot ∧ (s.endSlot stream).lkc.queue = s.lkc.queue ∧
    (s.endSlot stream).lkc.resetVent = s.lkc.resetVent ∧ (s.endSlot stream).cs.vibDescs = s.cs.vibDescs ∧
    (s.endSlot stream).cu.stack = s.cu.stack ∧ (s.endSlot stream).cu.rl = s.cu.rl ∧ (s.endSlot stream).cu.mask = s.cu.mask ∧
    (s.endSlot stream).cu.mode = s.cu.mode := by
  unfold State.endSlot
  split <;> simp

@[simp] theorem State.fillTimeout_parts (c : Fin 4) (s : State) :
    (s.fillTimeout c).lp.receiver = s.lp.receiver ∧ (s.fillTimeout c).lp.head = s.lp.head ∧
    (s.fillTimeout c).lp.second = s.lp.second ∧ (s.fillTimeout c).lp.badFrames = s.lp.badFrames ∧
    (s.fillTimeout c).lp.overruns = s.lp.overruns ∧ (s.fillTimeout c).lp.reply = s.lp.reply ∧
    (s.fillTimeout c).lp.sending = s.lp.sending ∧ (s.fillTimeout c).lp.restartDue = s.lp.restartDue ∧
    (s.fillTimeout c).ut.idCounter = s.ut.idCounter ∧ (s.fillTimeout c).ut.transferLine = s.ut.transferLine ∧
    (s.fillTimeout c).pe.phase = s.pe.phase ∧ (s.fillTimeout c).pe.step = s.pe.step ∧
    (s.fillTimeout c).pe.counters = s.pe.counters ∧ (s.fillTimeout c).pe.setpoint = s.pe.setpoint ∧
    (s.fillTimeout c).pe.enable = s.pe.enable ∧ (s.fillTimeout c).pe.brake = s.pe.brake ∧
    (s.fillTimeout c).pe.halt = s.pe.halt ∧ (s.fillTimeout c).pe.updates = s.pe.updates ∧
    (s.fillTimeout c).pe.sent = s.pe.sent ∧ (s.fillTimeout c).afe.live = s.afe.live ∧
    (s.fillTimeout c).afe.faults = s.afe.faults ∧ (s.fillTimeout c).afe.feedback = s.afe.feedback ∧
    (s.fillTimeout c).afe.pulses = s.afe.pulses ∧ (s.fillTimeout c).afe.revolution = s.afe.revolution ∧
    (s.fillTimeout c).afe.openVib = s.afe.openVib ∧ (s.fillTimeout c).afe.slowTaken = s.afe.slowTaken ∧
    (s.fillTimeout c).afe.leakTaken = s.afe.leakTaken ∧ (s.fillTimeout c).afe.slowSlot = s.afe.slowSlot ∧
    (s.fillTimeout c).afe.leakSlot = s.afe.leakSlot ∧ (s.fillTimeout c).afe.slowEnded = s.afe.slowEnded ∧
    (s.fillTimeout c).afe.leakEnded = s.afe.leakEnded ∧ (s.fillTimeout c).lkc.resetVent = s.lkc.resetVent := by
  unfold State.fillTimeout
  split <;> simp

@[simp] theorem State.settleEnd_parts (c : Fin 4) (s : State) :
    (s.settleEnd c).lp.receiver = s.lp.receiver ∧ (s.settleEnd c).lp.head = s.lp.head ∧
    (s.settleEnd c).lp.second = s.lp.second ∧ (s.settleEnd c).lp.badFrames = s.lp.badFrames ∧
    (s.settleEnd c).lp.overruns = s.lp.overruns ∧ (s.settleEnd c).lp.reply = s.lp.reply ∧
    (s.settleEnd c).lp.sending = s.lp.sending ∧ (s.settleEnd c).lp.restartDue = s.lp.restartDue ∧
    (s.settleEnd c).ut.idCounter = s.ut.idCounter ∧ (s.settleEnd c).ut.transferLine = s.ut.transferLine ∧
    (s.settleEnd c).pe.phase = s.pe.phase ∧ (s.settleEnd c).pe.step = s.pe.step ∧
    (s.settleEnd c).pe.counters = s.pe.counters ∧ (s.settleEnd c).pe.setpoint = s.pe.setpoint ∧
    (s.settleEnd c).pe.enable = s.pe.enable ∧ (s.settleEnd c).pe.brake = s.pe.brake ∧ (s.settleEnd c).pe.halt = s.pe.halt ∧
    (s.settleEnd c).pe.updates = s.pe.updates ∧ (s.settleEnd c).pe.sent = s.pe.sent ∧ (s.settleEnd c).afe.live = s.afe.live ∧
    (s.settleEnd c).afe.faults = s.afe.faults ∧ (s.settleEnd c).afe.feedback = s.afe.feedback ∧
    (s.settleEnd c).afe.pulses = s.afe.pulses ∧ (s.settleEnd c).afe.revolution = s.afe.revolution ∧
    (s.settleEnd c).afe.openVib = s.afe.openVib ∧ (s.settleEnd c).afe.slowTaken = s.afe.slowTaken ∧
    (s.settleEnd c).afe.leakTaken = s.afe.leakTaken ∧ (s.settleEnd c).afe.slowSlot = s.afe.slowSlot ∧
    (s.settleEnd c).afe.leakSlot = s.afe.leakSlot ∧ (s.settleEnd c).afe.slowEnded = s.afe.slowEnded ∧
    (s.settleEnd c).afe.leakEnded = s.afe.leakEnded ∧ (s.settleEnd c).lkc.queue = s.lkc.queue ∧
    (s.settleEnd c).lkc.resetVent = s.lkc.resetVent := by
  unfold State.settleEnd
  split <;> simp

@[simp] theorem State.measureEnd_parts (c : Fin 4) (s : State) :
    (s.measureEnd c).lp.receiver = s.lp.receiver ∧ (s.measureEnd c).lp.head = s.lp.head ∧
    (s.measureEnd c).lp.second = s.lp.second ∧ (s.measureEnd c).lp.badFrames = s.lp.badFrames ∧
    (s.measureEnd c).lp.overruns = s.lp.overruns ∧ (s.measureEnd c).lp.reply = s.lp.reply ∧
    (s.measureEnd c).lp.sending = s.lp.sending ∧ (s.measureEnd c).lp.restartDue = s.lp.restartDue ∧
    (s.measureEnd c).ut.idCounter = s.ut.idCounter ∧ (s.measureEnd c).ut.transferLine = s.ut.transferLine ∧
    (s.measureEnd c).pe.phase = s.pe.phase ∧ (s.measureEnd c).pe.step = s.pe.step ∧
    (s.measureEnd c).pe.counters = s.pe.counters ∧ (s.measureEnd c).pe.setpoint = s.pe.setpoint ∧
    (s.measureEnd c).pe.enable = s.pe.enable ∧ (s.measureEnd c).pe.brake = s.pe.brake ∧
    (s.measureEnd c).pe.halt = s.pe.halt ∧ (s.measureEnd c).pe.updates = s.pe.updates ∧
    (s.measureEnd c).pe.sent = s.pe.sent ∧ (s.measureEnd c).afe.live = s.afe.live ∧
    (s.measureEnd c).afe.faults = s.afe.faults ∧ (s.measureEnd c).afe.feedback = s.afe.feedback ∧
    (s.measureEnd c).afe.pulses = s.afe.pulses ∧ (s.measureEnd c).afe.revolution = s.afe.revolution ∧
    (s.measureEnd c).afe.openVib = s.afe.openVib ∧ (s.measureEnd c).afe.slowTaken = s.afe.slowTaken ∧
    (s.measureEnd c).afe.leakTaken = s.afe.leakTaken ∧ (s.measureEnd c).afe.slowSlot = s.afe.slowSlot ∧
    (s.measureEnd c).afe.leakSlot = s.afe.leakSlot ∧ (s.measureEnd c).afe.slowEnded = s.afe.slowEnded ∧
    (s.measureEnd c).afe.leakEnded = s.afe.leakEnded ∧ (s.measureEnd c).lkc.queue = s.lkc.queue ∧
    (s.measureEnd c).lkc.resetVent = s.lkc.resetVent := by
  unfold State.measureEnd
  split <;> simp

@[simp] theorem State.leaveVent_parts (c : Fin 4) (s : State) :
    (s.leaveVent c).lkc.resetVent = s.lkc.resetVent := by
  unfold State.leaveVent
  split <;> simp

@[simp] theorem State.ventExpiry_parts (c : Fin 4) (s : State) :
    (s.ventExpiry c).lp.receiver = s.lp.receiver ∧ (s.ventExpiry c).lp.head = s.lp.head ∧
    (s.ventExpiry c).lp.second = s.lp.second ∧ (s.ventExpiry c).lp.badFrames = s.lp.badFrames ∧
    (s.ventExpiry c).lp.overruns = s.lp.overruns ∧ (s.ventExpiry c).lp.reply = s.lp.reply ∧
    (s.ventExpiry c).lp.sending = s.lp.sending ∧ (s.ventExpiry c).lp.restartDue = s.lp.restartDue ∧
    (s.ventExpiry c).ut.idCounter = s.ut.idCounter ∧ (s.ventExpiry c).pe.phase = s.pe.phase ∧
    (s.ventExpiry c).pe.step = s.pe.step ∧ (s.ventExpiry c).pe.counters = s.pe.counters ∧
    (s.ventExpiry c).pe.setpoint = s.pe.setpoint ∧ (s.ventExpiry c).pe.enable = s.pe.enable ∧
    (s.ventExpiry c).pe.brake = s.pe.brake ∧ (s.ventExpiry c).pe.halt = s.pe.halt ∧
    (s.ventExpiry c).pe.updates = s.pe.updates ∧ (s.ventExpiry c).pe.sent = s.pe.sent ∧
    (s.ventExpiry c).afe.live = s.afe.live ∧ (s.ventExpiry c).afe.faults = s.afe.faults ∧
    (s.ventExpiry c).afe.feedback = s.afe.feedback ∧ (s.ventExpiry c).afe.pulses = s.afe.pulses ∧
    (s.ventExpiry c).afe.revolution = s.afe.revolution ∧ (s.ventExpiry c).afe.openVib = s.afe.openVib ∧
    (s.ventExpiry c).afe.slowTaken = s.afe.slowTaken ∧ (s.ventExpiry c).afe.leakTaken = s.afe.leakTaken ∧
    (s.ventExpiry c).afe.slowSlot = s.afe.slowSlot ∧ (s.ventExpiry c).afe.leakSlot = s.afe.leakSlot ∧
    (s.ventExpiry c).afe.slowEnded = s.afe.slowEnded ∧ (s.ventExpiry c).afe.leakEnded = s.afe.leakEnded ∧
    (s.ventExpiry c).lkc.resetVent = s.lkc.resetVent ∧ (s.ventExpiry c).cs.vibDescs = s.cs.vibDescs ∧
    (s.ventExpiry c).cs.slowDescs = s.cs.slowDescs ∧ (s.ventExpiry c).cs.leakDescs = s.cs.leakDescs ∧
    (s.ventExpiry c).cu.stack = s.cu.stack ∧ (s.ventExpiry c).cu.rl = s.cu.rl ∧ (s.ventExpiry c).cu.mask = s.cu.mask ∧
    (s.ventExpiry c).cu.mode = s.cu.mode := by
  unfold State.ventExpiry
  split <;> simp

@[simp] theorem State.resetVentEnd_parts (s : State) :
    (s.resetVentEnd).lp.receiver = s.lp.receiver ∧ (s.resetVentEnd).lp.head = s.lp.head ∧
    (s.resetVentEnd).lp.second = s.lp.second ∧ (s.resetVentEnd).lp.badFrames = s.lp.badFrames ∧
    (s.resetVentEnd).lp.overruns = s.lp.overruns ∧ (s.resetVentEnd).lp.reply = s.lp.reply ∧
    (s.resetVentEnd).lp.sending = s.lp.sending ∧ (s.resetVentEnd).lp.restartDue = s.lp.restartDue ∧
    (s.resetVentEnd).ut.idCounter = s.ut.idCounter ∧ (s.resetVentEnd).ut.transferLine = s.ut.transferLine ∧
    (s.resetVentEnd).pe.phase = s.pe.phase ∧ (s.resetVentEnd).pe.step = s.pe.step ∧
    (s.resetVentEnd).pe.counters = s.pe.counters ∧ (s.resetVentEnd).pe.setpoint = s.pe.setpoint ∧
    (s.resetVentEnd).pe.enable = s.pe.enable ∧ (s.resetVentEnd).pe.brake = s.pe.brake ∧
    (s.resetVentEnd).pe.halt = s.pe.halt ∧ (s.resetVentEnd).pe.updates = s.pe.updates ∧
    (s.resetVentEnd).pe.sent = s.pe.sent ∧ (s.resetVentEnd).afe.live = s.afe.live ∧
    (s.resetVentEnd).afe.faults = s.afe.faults ∧ (s.resetVentEnd).afe.feedback = s.afe.feedback ∧
    (s.resetVentEnd).afe.pulses = s.afe.pulses ∧ (s.resetVentEnd).afe.revolution = s.afe.revolution ∧
    (s.resetVentEnd).afe.openVib = s.afe.openVib ∧ (s.resetVentEnd).afe.slowTaken = s.afe.slowTaken ∧
    (s.resetVentEnd).afe.leakTaken = s.afe.leakTaken ∧ (s.resetVentEnd).afe.slowSlot = s.afe.slowSlot ∧
    (s.resetVentEnd).afe.leakSlot = s.afe.leakSlot ∧ (s.resetVentEnd).afe.slowEnded = s.afe.slowEnded ∧
    (s.resetVentEnd).afe.leakEnded = s.afe.leakEnded := by
  unfold State.resetVentEnd
  split <;> simp

end Sys2Proof.Machine
end

