-- ==== Sys2Proof/Laws/Taking.lean ====
section
/-! SUPPORT. Conditions: what each change of a condition record leaves, which condition the taking check takes, and that one check takes
one condition at most. -/

namespace Sys2Proof.Machine

/-! ## Condition records -/

@[simp] theorem State.cond_mapCond (n m : Fin 20) (f : Condition → Condition) (s : State) :
    (s.mapCond n f).cond m = if m = n then f (s.cond n) else s.cond m := by
  simp only [State.cond, State.mapCond, State.setCu_cu, Fin.getElem_fin, Vector.getElem_set, Fin.ext_iff]
  by_cases h : m.val = n.val
  · simp [h]
  · simp only [h, if_false]
    rw [if_neg fun e => h e.symm]

@[simp] theorem State.mapCond_rest (n : Fin 20) (f : Condition → Condition) (s : State) :
    (s.mapCond n f).cu.stack = s.cu.stack ∧ (s.mapCond n f).cu.rl = s.cu.rl ∧ (s.mapCond n f).cu.mask = s.cu.mask ∧
    (s.mapCond n f).cu.mode = s.cu.mode := by simp [State.mapCond]

@[simp] theorem State.setCu_cond (m : Fin 20) (x : ConditionUnit) (s : State) : (s.setCu x).cond m = x.conditions[m] := rfl

/-- The clock's reading comes from the clock alone. -/
theorem State.now_congr {s t : State} (h : t.clockUs = s.clockUs) : t.now = s.now := by simp [State.now, State.uptime, h]

/-- A condition record is read from the Condition Unit alone. -/
theorem State.cond_congr {s t : State} (h : t.cu = s.cu) (n : Fin 20) : t.cond n = s.cond n := by simp [State.cond, h]

/-- A record after a change that notes when it became active. -/
theorem State.cond_changeCond (n m : Fin 20) (f : Condition → Condition) (s : State) :
    (s.changeCond n f).cond m = if m = n then
      (if (s.cond n).active (conditionKind n) = false ∧ (f (s.cond n)).active (conditionKind n) = true
        then { f (s.cond n) with lastActive := some s.now } else f (s.cond n)) else s.cond m := by
  simp only [State.changeCond, State.cond_mapCond]
  split
  · rcases h1 : (s.cond n).active (conditionKind n) <;> rcases h2 : (f (s.cond n)).active (conditionKind n) <;> simp
  · rfl

theorem State.cond_changeCond_ne {n m : Fin 20} (h : m ≠ n) (f : Condition → Condition) (s : State) :
    (s.changeCond n f).cond m = s.cond m := by rw [State.cond_changeCond, if_neg h]

@[simp] theorem State.cond_setSource_ne {n m : Fin 20} (h : m ≠ n) (b : Bool) (s : State) :
    (s.setSource n b).cond m = s.cond m := State.cond_changeCond_ne h _ s

@[simp] theorem State.cond_sourceInstant_ne {n m : Fin 20} (h : m ≠ n) (s : State) :
    (s.sourceInstant n).cond m = s.cond m := by simp [State.sourceInstant, h]

/-- A LATCHED record after its source has been judged. -/
theorem State.cond_setSource_latched {n : Fin 20} (h : conditionKind n = .latched) (b : Bool) (s : State) :
    (s.setSource n b).cond n = { s.cond n with
      source := b, latch := (s.cond n).latch || b
      lastActive := if (s.cond n).latch = false ∧ b = true then some s.now else (s.cond n).lastActive } := by
  rw [State.setSource, State.cond_changeCond, if_pos rfl, h]
  rcases h1 : (s.cond n).latch <;> rcases b <;> simp [Condition.active, h1]

/-- A LEVEL record after its source has been judged. -/
theorem State.cond_setSource_level {n : Fin 20} (h : conditionKind n = .level) (b : Bool) (s : State) :
    (s.setSource n b).cond n = { s.cond n with
      source := b
      lastActive := if (s.cond n).source = false ∧ (s.cond n).injected = false ∧ b = true then some s.now
        else (s.cond n).lastActive } := by
  rw [State.setSource, State.cond_changeCond, if_pos rfl, h]
  rcases h1 : (s.cond n).source <;> rcases h2 : (s.cond n).injected <;> rcases b <;> simp [Condition.active, h1, h2]

/-- A LATCHED record after an instant of assertion of its source: the latch is set and the source shows no (R127, R129). -/
theorem State.cond_sourceInstant {n : Fin 20} (h : conditionKind n = .latched) (s : State) :
    (s.sourceInstant n).cond n = { s.cond n with
      source := false, latch := true
      lastActive := if (s.cond n).latch = false then some s.now else (s.cond n).lastActive } := by
  rw [State.sourceInstant, State.cond_setSource_latched h, State.cond_setSource_latched h]
  rcases h1 : (s.cond n).latch <;> simp

/-- The source, severity, vector and injected flag of a judged record. -/
@[simp] theorem State.cond_setSource_same (n : Fin 20) (b : Bool) (s : State) :
    ((s.setSource n b).cond n).source = b ∧ ((s.setSource n b).cond n).severity = (s.cond n).severity ∧
    ((s.setSource n b).cond n).vector = (s.cond n).vector ∧ ((s.setSource n b).cond n).injected = (s.cond n).injected := by
  rcases h : conditionKind n
  · simp [State.cond_setSource_level h]
  · simp [State.cond_setSource_latched h]

/-- Severity, vector and injected flag of every condition stand when a source is judged. -/
@[simp] theorem State.settings_setSource (n m : Fin 20) (b : Bool) (s : State) :
    ((s.setSource n b).cond m).severity = (s.cond m).severity ∧ ((s.setSource n b).cond m).vector = (s.cond m).vector ∧
    ((s.setSource n b).cond m).injected = (s.cond m).injected := by
  by_cases h : m = n
  · subst h; simp
  · simp [h]

/-- A condition whose source is judged the same stays as active as it was. -/
theorem State.active_congr {s t : State} {n : Fin 20} (h : t.cond n = s.cond n) : t.active n = s.active n := by
  simp [State.active, h]

/-- Activity of a LATCHED condition is its latch. -/
theorem State.active_latched {n : Fin 20} (h : conditionKind n = .latched) (s : State) : s.active n = (s.cond n).latch := by
  simp [State.active, h, Condition.active]

/-- Activity of a LEVEL condition is its source or its injected flag. -/
theorem State.active_level {n : Fin 20} (h : conditionKind n = .level) (s : State) :
    s.active n = ((s.cond n).source || (s.cond n).injected) := by
  simp [State.active, h, Condition.active]

/-! ## The condition to take -/

/-- What the fold over the twenty conditions has found among those it has passed. -/
theorem foldl_better (s : State) (ns : List (Fin 20)) (best : Option (Fin 20)) (hs : ns.Pairwise (· < ·))
    (hb : ∀ b, best = some b → s.qualifies b = true ∧ ∀ n ∈ ns, b < n) :
    (ns.foldl s.better best = none ↔ best = none ∧ ∀ n ∈ ns, s.qualifies n = false) ∧
    ∀ r, ns.foldl s.better best = some r → s.qualifies r = true ∧ (best = some r ∨ r ∈ ns) ∧
      (∀ b, best = some b → (s.cond b).severity < (s.cond r).severity ∨ ((s.cond b).severity = (s.cond r).severity ∧ r ≤ b)) ∧
      ∀ n ∈ ns, s.qualifies n = true → (s.cond n).severity < (s.cond r).severity ∨
        ((s.cond n).severity = (s.cond r).severity ∧ r ≤ n) := by
  induction ns generalizing best with
  | nil =>
    refine ⟨by simp, fun r hr => ?_⟩
    simp only [List.foldl_nil] at hr
    subst hr
    exact ⟨(hb r rfl).1, .inl rfl, fun b h => by cases h; exact .inr ⟨rfl, le_refl _⟩, by simp⟩
  | cons n ns ih =>
    simp only [List.pairwise_cons] at hs
    simp only [List.foldl_cons]
    have hbb : ∀ b, best = some b → b < n ∧ ∀ m ∈ ns, b < m := fun b h =>
      ⟨(hb b h).2 n (by simp), fun m hm => (hb b h).2 m (by simp [hm])⟩
    cases hq : s.qualifies n with
    | false =>
      have he : s.better best n = best := by simp [State.better, hq]
      rw [he]
      obtain ⟨h1, h2⟩ := ih best hs.2 (fun b h => ⟨(hb b h).1, (hbb b h).2⟩)
      refine ⟨by simp [h1, hq], fun r hr => ?_⟩
      obtain ⟨a, b, c, d⟩ := h2 r hr
      refine ⟨a, by rcases b with b | b <;> simp [b], c, fun m hm hqm => ?_⟩
      rcases List.mem_cons.1 hm with rfl | hm
      · simp [hq] at hqm
      · exact d m hm hqm
    | true =>
      cases best with
      | none =>
        have he : s.better none n = some n := by simp [State.better, hq]
        rw [he]
        obtain ⟨h1, h2⟩ := ih (some n) hs.2 (fun b h => by cases h; exact ⟨hq, hs.1⟩)
        refine ⟨by simp [h1, hq], fun r hr => ?_⟩
        obtain ⟨a, b, c, d⟩ := h2 r hr
        refine ⟨a, .inr ?_, by simp, fun m hm hqm => ?_⟩
        · rcases b with b | b
          · cases b; simp
          · simp [b]
        · rcases List.mem_cons.1 hm with rfl | hm
          · exact c m rfl
          · exact d m hm hqm
      | some b0 =>
        by_cases hlt : (s.cond b0).severity < (s.cond n).severity
        · have he : s.better (some b0) n = some n := by simp [State.better, hq, hlt]
          rw [he]
          obtain ⟨h1, h2⟩ := ih (some n) hs.2 (fun b h => by cases h; exact ⟨hq, hs.1⟩)
          refine ⟨by simp [h1], fun r hr => ?_⟩
          obtain ⟨a, b, c, d⟩ := h2 r hr
          have hn := c n rfl
          refine ⟨a, .inr ?_, fun b h => ?_, fun m hm hqm => ?_⟩
          · rcases b with b | b
            · cases b; simp
            · simp [b]
          · cases h
            rcases hn with hn | hn
            · exact .inl (by omega)
            · exact .inl (by omega)
          · rcases List.mem_cons.1 hm with rfl | hm
            · exact hn
            · exact d m hm hqm
        · have he : s.better (some b0) n = some b0 := by simp [State.better, hq, hlt]
          rw [he]
          obtain ⟨h1, h2⟩ := ih (some b0) hs.2 (fun b h => by cases h; exact ⟨(hb b0 rfl).1, (hbb b0 rfl).2⟩)
          refine ⟨by simp [h1], fun r hr => ?_⟩
          obtain ⟨a, b, c, d⟩ := h2 r hr
          have hn := c b0 rfl
          refine ⟨a, ?_, c, fun m hm hqm => ?_⟩
          · rcases b with b | b
            · exact .inl b
            · exact .inr (by simp [b])
          · rcases List.mem_cons.1 hm with rfl | hm
            · have := (hbb b0 rfl).1
              rcases hn with hn | hn
              · exact .inl (by omega)
              · by_cases he2 : (s.cond m).severity = (s.cond b0).severity
                · exact .inr ⟨by omega, le_trans hn.2 this.le⟩
                · exact .inl (by omega)
            · exact d m hm hqm

theorem finRange_pairwise (n : Nat) : (List.finRange n).Pairwise (· < ·) := by
  rw [List.pairwise_iff_getElem]
  intro i j hi hj h
  simpa [Fin.lt_def] using h

/-- The check looks for exactly the condition of R133. -/
theorem State.pick_eq_some (s : State) (n : Fin 20) : s.pick = some n ↔ IsTaken n s := by
  have h := foldl_better s (List.finRange 20) none (finRange_pairwise 20) (by simp)
  constructor
  · intro hp
    obtain ⟨a, -, -, d⟩ := h.2 n hp
    exact ⟨a, fun m hm => d m (List.mem_finRange m) hm⟩
  · rintro ⟨hq, hm⟩
    cases hp : s.pick with
    | none => have := (h.1.1 hp).2 n (List.mem_finRange n); simp [hq] at this
    | some r =>
      obtain ⟨a, -, -, d⟩ := h.2 r hp
      rcases d n (List.mem_finRange n) hq with h1 | h1 <;> rcases hm r a with h2 | h2
      · omega
      · omega
      · omega
      · rw [le_antisymm h1.2 h2.2]

/-- The check finds nothing exactly where no condition qualifies (R133). -/
theorem State.pick_eq_none (s : State) : s.pick = none ↔ NoneQualifies s := by
  have h := foldl_better s (List.finRange 20) none (finRange_pairwise 20) (by simp)
  exact ⟨fun hp n => (h.1.1 hp).2 n (List.mem_finRange n), fun hn => h.1.2 ⟨rfl, fun n _ => hn n⟩⟩

/-- Some condition is to be taken, or none qualifies. -/
theorem taken_or_none (s : State) : (∃ n, IsTaken n s) ∨ NoneQualifies s := by
  cases h : s.pick with
  | none => exact .inr ((State.pick_eq_none s).1 h)
  | some n => exact .inl ⟨n, (State.pick_eq_some s n).1 h⟩

/-- A taking leaves every condition record as it was (R134). -/
@[simp] theorem State.cond_take (n m : Fin 20) (s : State) : (s.take n).cond m = s.cond m := by
  simp [State.take, State.cond]

@[simp] theorem State.active_take (n m : Fin 20) (s : State) : (s.take n).active m = s.active m := by
  simp [State.active]

@[simp] theorem State.take_cu (n : Fin 20) (s : State) : (s.take n).cu = { s.cu with
    stack := ⟨n, (s.cond n).severity, (s.cond n).vector, s.cu.rl, s.now⟩ :: s.cu.stack, rl := (s.cond n).severity } := by
  simp [State.take]

/-- Once the condition of R133 is taken, no other qualifies: RL is the highest severity among them. -/
theorem none_after_take {n : Fin 20} {s : State} (h : IsTaken n s) : NoneQualifies (s.take n) := by
  intro m
  by_contra hm
  have hm : (s.take n).qualifies m = true := by simpa using hm
  simp only [State.qualifies, State.active_take, State.cond_take, State.take_cu, State.onStack, List.any_cons,
    Bool.and_eq_true, decide_eq_true_eq, Bool.not_eq_true', Bool.or_eq_false_iff] at hm
  have hq : s.qualifies m = true := by
    have hn := h.1
    simp only [State.qualifies, Bool.and_eq_true, decide_eq_true_eq, Bool.not_eq_true', State.onStack] at hn ⊢
    exact ⟨⟨⟨hm.1.1.1, hm.1.1.2.2⟩, by omega⟩, hm.2⟩
  rcases h.2 m hq with h1 | h1 <;> omega

/-- One check takes nothing where no condition qualifies. -/
theorem takeAll_none {s : State} (h : NoneQualifies s) (fuel : Nat) : takeAll fuel s = (s, []) := by
  cases fuel with
  | zero => rfl
  | succ fuel => simp [takeAll, (State.pick_eq_none s).2 h]

/-- One check takes the condition of R133 and no other. -/
theorem takeAll_one {n : Fin 20} {s : State} (h : IsTaken n s) (fuel : Nat) : takeAll (fuel + 1) s = (s.take n, [n]) := by
  simp [takeAll, (State.pick_eq_some s n).2 h, takeAll_none (none_after_take h)]

/-- The taking check where no condition qualifies raises only the notices it was given (R133). -/
theorem State.takingCheck_none {s : State} (h : NoneQualifies s) (first : List (Fin 20)) :
    s.takingCheck first = first.foldl (fun t n => t.condNotice n) s := by
  simp [State.takingCheck, takeAll_none h]

/-- The taking check where a condition qualifies takes it, and raises its notice last (R133, R134, R143). -/
theorem State.takingCheck_one {n : Fin 20} {s : State} (h : IsTaken n s) (first : List (Fin 20)) :
    s.takingCheck first = (first.foldl (fun t m => t.condNotice m) (s.take n)).condNotice n := by
  simp [State.takingCheck, takeAll_one h]

/-- What a taking check leaves on the stack (R133, R134). -/
theorem takingCheck_made (first : List (Fin 20)) (s : State) : TakingCheckMade s (s.takingCheck first) := by
  constructor
  · intro h; simp [State.takingCheck_none h]
  · intro n h; simp [State.takingCheck_one h]

/-- Where no condition has become active there is no check. -/
theorem checkIfActivated_none {s t : State} (h : ∀ n, t.active n = true → s.active n = true) : checkIfActivated s t = t := by
  have : becameActive s t = false := by
    simp only [becameActive, List.any_eq_false, Bool.and_eq_true, Bool.not_eq_true', not_and, Bool.not_eq_true]
    intro n _ hn
    by_contra hc
    have := h n (by simpa using hc)
    simp [hn] at this
  simp [checkIfActivated, this]

/-- Where a condition has become active there is a check. -/
theorem checkIfActivated_some {s t : State} (n : Fin 20) (hs : s.active n = false) (ht : t.active n = true) :
    checkIfActivated s t = t.takingCheck [] := by
  have : becameActive s t = true := by
    simp only [becameActive, List.any_eq_true, Bool.and_eq_true, Bool.not_eq_true']
    exact ⟨n, List.mem_finRange n, hs, ht⟩
  simp [checkIfActivated, this]

/-! ## Halts -/

/-- The halt set is read from the stack alone. -/
theorem State.halt_congr {s t : State} (h : t.cu.stack = s.cu.stack) : t.halt = s.halt := by simp [State.halt, h]

/-- No member enters or leaves the halt set, and PROFILE is not in it: the blocks are told nothing. -/
theorem State.applyHalts_same {s : State} (h : s.halt.profile = false) : s.applyHalts s.halt = s := by
  have h1 : s.applyProfileHalt s.halt = s := by simp [State.applyProfileHalt, h]
  have h2 : s.applyNoiseHalt s.halt = s := by
    unfold State.applyNoiseHalt; split <;> simp_all
  have h3 : s.applyLeakHalt s.halt = s := by
    unfold State.applyLeakHalt; split <;> simp_all
  have h4 : s.applyTransferHalt s.halt = s := by
    unfold State.applyTransferHalt; split <;> simp_all
  simp [State.applyHalts, h1, h2, h3, h4]

/-- An event that makes no condition active and leaves the stack, with no PROFILE halt, has no more to it (R133, R135). -/
theorem react_quiet {s t : State} (ha : ∀ n, t.active n = true → s.active n = true) (hs : t.cu.stack = s.cu.stack)
    (hp : s.halt.profile = false) : react s t = t := by
  have hh := State.halt_congr hs
  rw [react, checkIfActivated_none ha, ← hh, State.applyHalts_same (by rw [hh]; exact hp)]

end Sys2Proof.Machine
end

