-- ==== Sys2Proof/Laws/Conditions.lean ====
section
/-! SUPPORT. Which condition records an operation of the other blocks leaves alone: all but those of the starvation conditions and, where
it may turn drive enable, of DRIVE_FAULT; and the settings of every condition. -/

namespace Sys2Proof.Machine

/-- A condition whose source no stream follows (R128). -/
def NotStarvation (m : Fin 20) : Prop := m ≠ 13 ∧ m ≠ 14 ∧ m ≠ 15

/-- A block that leaves the Condition Unit leaves every condition record. -/
theorem State.cond_of_cu {s t : State} (h : t.cu = s.cu) (m : Fin 20) : t.cond m = s.cond m := by simp [State.cond, h]

@[simp] theorem State.cond_raise (key : NoticeKey) (content : NoticeContent) (m : Fin 20) (s : State) :
    (s.raise key content).cond m = s.cond m := State.cond_of_cu (by simp) m

@[simp] theorem State.cond_takingCheck (first : List (Fin 20)) (m : Fin 20) (s : State) :
    (s.takingCheck first).cond m = s.cond m := by
  rcases taken_or_none s with ⟨n, h⟩ | h
  · rw [State.takingCheck_one h, State.cond_of_cu (s := s.take n) (by simp), State.cond_take]
  · rw [State.takingCheck_none h, State.cond_of_cu (s := s) (by simp)]

@[simp] theorem cond_checkIfActivated (m : Fin 20) (s t : State) : (checkIfActivated s t).cond m = t.cond m := by
  unfold checkIfActivated
  split <;> simp

@[simp] theorem State.cond_setPending (x : List Instr) (m : Fin 20) (s : State) : (s.setPending x).cond m = s.cond m := rfl

@[simp] theorem State.cond_setFreeCount (x : Nat) (m : Fin 20) (s : State) : (s.setFreeCount x).cond m = s.cond m := rfl

@[simp] theorem State.cond_setLines (x : Lines) (m : Fin 20) (s : State) : (s.setLines x).cond m = s.cond m := rfl

@[simp] theorem State.cond_setLp (x : LinePort) (m : Fin 20) (s : State) : (s.setLp x).cond m = s.cond m := rfl

@[simp] theorem State.cond_setUt (x : UnitTable) (m : Fin 20) (s : State) : (s.setUt x).cond m = s.cond m := rfl

@[simp] theorem State.cond_setRs (x : RecipeStore) (m : Fin 20) (s : State) : (s.setRs x).cond m = s.cond m := rfl

@[simp] theorem State.cond_setPe (x : ProfileEngine) (m : Fin 20) (s : State) : (s.setPe x).cond m = s.cond m := rfl

@[simp] theorem State.cond_setAfe (x : FrontEnd) (m : Fin 20) (s : State) : (s.setAfe x).cond m = s.cond m := rfl

@[simp] theorem State.cond_setCs (x : CaptureStore) (m : Fin 20) (s : State) : (s.setCs x).cond m = s.cond m := rfl

@[simp] theorem State.cond_setOa (x : OrderAnalyzer) (m : Fin 20) (s : State) : (s.setOa x).cond m = s.cond m := rfl

@[simp] theorem State.cond_setLkc (x : LeakController) (m : Fin 20) (s : State) : (s.setLkc x).cond m = s.cond m := rfl

@[simp] theorem State.cond_setReports (x : List Nat) (m : Fin 20) (s : State) : (s.setReports x).cond m = s.cond m := rfl

@[simp] theorem State.cond_elapse (us : Nat) (m : Fin 20) (s : State) : (s.elapse us).cond m = s.cond m := rfl

@[simp] theorem cond_arbitrate (s : State) (m : Fin 20) : (arbitrate s).cond m = s.cond m := State.cond_of_cu (by simp) m

@[simp] theorem State.cond_mapUnit (i : Fin 8) (f : UnitRecord → UnitRecord) (s : State) (m : Fin 20) :
    (s.mapUnit i f).cond m = s.cond m := State.cond_of_cu (by simp) m

@[simp] theorem State.cond_unitNotice (i : Fin 8) (s : State) (m : Fin 20) :
    (s.unitNotice i).cond m = s.cond m := State.cond_of_cu (by simp) m

@[simp] theorem State.cond_enterState (i : Fin 8) (u : UnitState) (s : State) (m : Fin 20) :
    (s.enterState i u).cond m = s.cond m := State.cond_of_cu (by simp) m

@[simp] theorem State.cond_interruptUnits (n : Fin 20) (s : State) (m : Fin 20) :
    (s.interruptUnits n).cond m = s.cond m := State.cond_of_cu (by simp) m

@[simp] theorem State.cond_condNotice (n : Fin 20) (s : State) (m : Fin 20) :
    (s.condNotice n).cond m = s.cond m := State.cond_of_cu (by simp) m

@[simp] theorem cond_foldl_condNotice (ns : List (Fin 20)) (s : State) (m : Fin 20) :
    (ns.foldl (fun t n => t.condNotice n) s).cond m = s.cond m := State.cond_of_cu (by simp) m

@[simp] theorem State.cond_setStream (st : StreamId) (x : Stream) (s : State) (m : Fin 20) :
    (s.setStream st x).cond m = s.cond m := State.cond_of_cu (by simp) m

@[simp] theorem State.cond_streamNotice (st : StreamId) (s : State) (m : Fin 20) :
    (s.streamNotice st).cond m = s.cond m := State.cond_of_cu (by simp) m

@[simp] theorem State.cond_enterStream (st : StreamId) (x : StreamState) (s : State) {m : Fin 20} (hm : NotStarvation m) :
    (s.enterStream st x).cond m = s.cond m := by
  unfold State.enterStream
  obtain ⟨h1, h2, h3⟩ := hm
  have : m ≠ starvedCondition st := by cases st <;> simpa [starvedCondition]
  dsimp only
  repeat' split
  all_goals simp [this]

@[simp] theorem State.settings_enterStream (st : StreamId) (x : StreamState) (s : State) (m : Fin 20) :
    ((s.enterStream st x).cond m).severity = (s.cond m).severity ∧ ((s.enterStream st x).cond m).vector = (s.cond m).vector ∧
    ((s.enterStream st x).cond m).injected = (s.cond m).injected := by
  unfold State.enterStream
  dsimp only
  repeat' split
  all_goals simp

@[simp] theorem State.cond_syncStream (st : StreamId) (s : State) {m : Fin 20} (hm : NotStarvation m) :
    (s.syncStream st).cond m = s.cond m := by
  unfold State.syncStream
  split <;> simp [hm]

@[simp] theorem State.settings_syncStream (st : StreamId) (s : State) (m : Fin 20) :
    ((s.syncStream st).cond m).severity = (s.cond m).severity ∧ ((s.syncStream st).cond m).vector = (s.cond m).vector ∧
    ((s.syncStream st).cond m).injected = (s.cond m).injected := by
  unfold State.syncStream
  split <;> simp

@[simp] theorem State.cond_syncStreams (s : State) {m : Fin 20} (hm : NotStarvation m) :
    (s.syncStreams).cond m = s.cond m := by simp [State.syncStreams, hm]

@[simp] theorem State.settings_syncStreams (s : State) (m : Fin 20) :
    ((s.syncStreams).cond m).severity = (s.cond m).severity ∧ ((s.syncStreams).cond m).vector = (s.cond m).vector ∧
    ((s.syncStreams).cond m).injected = (s.cond m).injected := by simp [State.syncStreams]

@[simp] theorem State.cond_enterWanted (st : StreamId) (s : State) {m : Fin 20} (hm : NotStarvation m) :
    (s.enterWanted st).cond m = s.cond m := by
  unfold State.enterWanted
  split <;> simp [hm]

@[simp] theorem State.settings_enterWanted (st : StreamId) (s : State) (m : Fin 20) :
    ((s.enterWanted st).cond m).severity = (s.cond m).severity ∧ ((s.enterWanted st).cond m).vector = (s.cond m).vector ∧
    ((s.enterWanted st).cond m).injected = (s.cond m).injected := by
  unfold State.enterWanted
  split <;> simp

@[simp] theorem State.cond_applyPlan (st : StreamId) (p : Plan) (s : State) {m : Fin 20} (hm : NotStarvation m) :
    (s.applyPlan st p).cond m = s.cond m := by simp [State.applyPlan, hm]

@[simp] theorem State.settings_applyPlan (st : StreamId) (p : Plan) (s : State) (m : Fin 20) :
    ((s.applyPlan st p).cond m).severity = (s.cond m).severity ∧ ((s.applyPlan st p).cond m).vector = (s.cond m).vector ∧
    ((s.applyPlan st p).cond m).injected = (s.cond m).injected := by simp [State.applyPlan]

@[simp] theorem State.cond_setTarget (st : StreamId) (p : Plan) (s : State) {m : Fin 20} (hm : NotStarvation m) :
    (s.setTarget st p).cond m = s.cond m := by
  unfold State.setTarget
  dsimp only
  repeat' split
  all_goals simp [hm]

@[simp] theorem State.settings_setTarget (st : StreamId) (p : Plan) (s : State) (m : Fin 20) :
    ((s.setTarget st p).cond m).severity = (s.cond m).severity ∧ ((s.setTarget st p).cond m).vector = (s.cond m).vector ∧
    ((s.setTarget st p).cond m).injected = (s.cond m).injected := by
  unfold State.setTarget
  dsimp only
  repeat' split
  all_goals simp

@[simp] theorem State.cond_checkPlan (st : StreamId) (s : State) {m : Fin 20} (hm : NotStarvation m) :
    (s.checkPlan st).cond m = s.cond m := by
  unfold State.checkPlan
  repeat' split
  all_goals simp [hm]

@[simp] theorem State.settings_checkPlan (st : StreamId) (s : State) (m : Fin 20) :
    ((s.checkPlan st).cond m).severity = (s.cond m).severity ∧ ((s.checkPlan st).cond m).vector = (s.cond m).vector ∧
    ((s.checkPlan st).cond m).injected = (s.cond m).injected := by
  unfold State.checkPlan
  repeat' split
  all_goals simp

@[simp] theorem State.cond_checkPlans (s : State) {m : Fin 20} (hm : NotStarvation m) :
    (s.checkPlans).cond m = s.cond m := by simp [State.checkPlans, hm]

@[simp] theorem State.settings_checkPlans (s : State) (m : Fin 20) :
    ((s.checkPlans).cond m).severity = (s.cond m).severity ∧ ((s.checkPlans).cond m).vector = (s.cond m).vector ∧
    ((s.checkPlans).cond m).injected = (s.cond m).injected := by simp [State.checkPlans]

@[simp] theorem State.cond_releaseVib (d : Fin 32) (s : State) {m : Fin 20} (hm : NotStarvation m) :
    (s.releaseVib d).cond m = s.cond m := by simp [State.releaseVib, hm]

@[simp] theorem State.settings_releaseVib (d : Fin 32) (s : State) (m : Fin 20) :
    ((s.releaseVib d).cond m).severity = (s.cond m).severity ∧ ((s.releaseVib d).cond m).vector = (s.cond m).vector ∧
    ((s.releaseVib d).cond m).injected = (s.cond m).injected := by simp [State.releaseVib]

@[simp] theorem State.cond_releaseSlow (d : Fin 8) (s : State) {m : Fin 20} (hm : NotStarvation m) :
    (s.releaseSlow d).cond m = s.cond m := by simp [State.releaseSlow, hm]

@[simp] theorem State.settings_releaseSlow (d : Fin 8) (s : State) (m : Fin 20) :
    ((s.releaseSlow d).cond m).severity = (s.cond m).severity ∧ ((s.releaseSlow d).cond m).vector = (s.cond m).vector ∧
    ((s.releaseSlow d).cond m).injected = (s.cond m).injected := by simp [State.releaseSlow]

@[simp] theorem State.cond_releaseLeak (d : Fin 8) (s : State) {m : Fin 20} (hm : NotStarvation m) :
    (s.releaseLeak d).cond m = s.cond m := by simp [State.releaseLeak, hm]

@[simp] theorem State.settings_releaseLeak (d : Fin 8) (s : State) (m : Fin 20) :
    ((s.releaseLeak d).cond m).severity = (s.cond m).severity ∧ ((s.releaseLeak d).cond m).vector = (s.cond m).vector ∧
    ((s.releaseLeak d).cond m).injected = (s.cond m).injected := by simp [State.releaseLeak]

@[simp] theorem State.cond_dropRecord (st : StreamId) (starves : Bool) (s : State) {m : Fin 20} (hm : NotStarvation m) :
    (s.dropRecord st starves).cond m = s.cond m := by
  unfold State.dropRecord
  split <;> simp [hm]

@[simp] theorem State.settings_dropRecord (st : StreamId) (starves : Bool) (s : State) (m : Fin 20) :
    ((s.dropRecord st starves).cond m).severity = (s.cond m).severity ∧ ((s.dropRecord st starves).cond m).vector = (s.cond m).vector ∧
    ((s.dropRecord st starves).cond m).injected = (s.cond m).injected := by
  unfold State.dropRecord
  split <;> simp

@[simp] theorem State.cond_resumeStream (st : StreamId) (resumed : Bool) (s : State) {m : Fin 20} (hm : NotStarvation m) :
    (s.resumeStream st resumed).cond m = s.cond m := by
  unfold State.resumeStream
  split <;> simp [hm]

@[simp] theorem State.settings_resumeStream (st : StreamId) (resumed : Bool) (s : State) (m : Fin 20) :
    ((s.resumeStream st resumed).cond m).severity = (s.cond m).severity ∧ ((s.resumeStream st resumed).cond m).vector = (s.cond m).vector ∧
    ((s.resumeStream st resumed).cond m).injected = (s.cond m).injected := by
  unfold State.resumeStream
  split <;> simp

@[simp] theorem State.cond_mapWindow (n : Nat) (f : Window → Window) (s : State) (m : Fin 20) :
    (s.mapWindow n f).cond m = s.cond m := State.cond_of_cu (by simp) m

@[simp] theorem State.cond_setUpWindows (r : Recipe) (s : State) (m : Fin 20) :
    (s.setUpWindows r).cond m = s.cond m := State.cond_of_cu (by simp) m

@[simp] theorem State.cond_mapNoise (f : Noise → Noise) (s : State) (m : Fin 20) :
    (s.mapNoise f).cond m = s.cond m := State.cond_of_cu (by simp) m

@[simp] theorem State.cond_closeTable (s : State) (m : Fin 20) :
    (s.closeTable).cond m = s.cond m := State.cond_of_cu (by simp) m

@[simp] theorem State.cond_gradeWindow (n : Nat) (s : State) (m : Fin 20) :
    (s.gradeWindow n).cond m = s.cond m := State.cond_of_cu (by simp) m

@[simp] theorem State.cond_openWindow (n : Nat) (s : State) {m : Fin 20} (hm : NotStarvation m) :
    (s.openWindow n).cond m = s.cond m := by simp [State.openWindow, hm]

@[simp] theorem State.settings_openWindow (n : Nat) (s : State) (m : Fin 20) :
    ((s.openWindow n).cond m).severity = (s.cond m).severity ∧ ((s.openWindow n).cond m).vector = (s.cond m).vector ∧
    ((s.openWindow n).cond m).injected = (s.cond m).injected := by simp [State.openWindow]

@[simp] theorem State.cond_pauseWindow (n : Nat) (s : State) {m : Fin 20} (hm : NotStarvation m) :
    (s.pauseWindow n).cond m = s.cond m := by simp [State.pauseWindow, hm]

@[simp] theorem State.settings_pauseWindow (n : Nat) (s : State) (m : Fin 20) :
    ((s.pauseWindow n).cond m).severity = (s.cond m).severity ∧ ((s.pauseWindow n).cond m).vector = (s.cond m).vector ∧
    ((s.pauseWindow n).cond m).injected = (s.cond m).injected := by simp [State.pauseWindow]

@[simp] theorem State.cond_abandonOpen (s : State) {m : Fin 20} (hm : NotStarvation m) :
    (s.abandonOpen).cond m = s.cond m := by
  unfold State.abandonOpen
  split <;> simp [hm]

@[simp] theorem State.settings_abandonOpen (s : State) (m : Fin 20) :
    ((s.abandonOpen).cond m).severity = (s.cond m).severity ∧ ((s.abandonOpen).cond m).vector = (s.cond m).vector ∧
    ((s.abandonOpen).cond m).injected = (s.cond m).injected := by
  unfold State.abandonOpen
  split <;> simp

@[simp] theorem State.cond_abandonFor (n : Nat) (s : State) {m : Fin 20} (hm : NotStarvation m) :
    (s.abandonFor n).cond m = s.cond m := by
  unfold State.abandonFor
  repeat' split
  all_goals simp [hm]

@[simp] theorem State.settings_abandonFor (n : Nat) (s : State) (m : Fin 20) :
    ((s.abandonFor n).cond m).severity = (s.cond m).severity ∧ ((s.abandonFor n).cond m).vector = (s.cond m).vector ∧
    ((s.abandonFor n).cond m).injected = (s.cond m).injected := by
  unfold State.abandonFor
  repeat' split
  all_goals simp

@[simp] theorem State.cond_closeWindow (n : Nat) (s : State) {m : Fin 20} (hm : NotStarvation m) :
    (s.closeWindow n).cond m = s.cond m := by
  unfold State.closeWindow
  repeat' split
  all_goals simp [hm]

@[simp] theorem State.settings_closeWindow (n : Nat) (s : State) (m : Fin 20) :
    ((s.closeWindow n).cond m).severity = (s.cond m).severity ∧ ((s.closeWindow n).cond m).vector = (s.cond m).vector ∧
    ((s.closeWindow n).cond m).injected = (s.cond m).injected := by
  unfold State.closeWindow
  repeat' split
  all_goals simp

@[simp] theorem cond_foldl_closeWindow (ns : List Nat) (s : State) {m : Fin 20} (hm : NotStarvation m) :
    (ns.foldl (fun t n => t.closeWindow n) s).cond m = s.cond m := by
  induction ns generalizing s with
  | nil => simp
  | cons n ns ih => simp [ih, hm]

@[simp] theorem settings_foldl_closeWindow (ns : List Nat) (s : State) (m : Fin 20) :
    ((ns.foldl (fun t n => t.closeWindow n) s).cond m).severity = (s.cond m).severity ∧ ((ns.foldl (fun t n => t.closeWindow n) s).cond m).vector = (s.cond m).vector ∧
    ((ns.foldl (fun t n => t.closeWindow n) s).cond m).injected = (s.cond m).injected := by
  induction ns generalizing s with
  | nil => simp
  | cons n ns ih => simp [ih]

@[simp] theorem State.cond_closeAll (s : State) {m : Fin 20} (hm : NotStarvation m) :
    (s.closeAll).cond m = s.cond m := by simp [State.closeAll, hm]

@[simp] theorem State.settings_closeAll (s : State) (m : Fin 20) :
    ((s.closeAll).cond m).severity = (s.cond m).severity ∧ ((s.closeAll).cond m).vector = (s.cond m).vector ∧
    ((s.closeAll).cond m).injected = (s.cond m).injected := by simp [State.closeAll]

@[simp] theorem State.cond_closeIfDrained (n : Nat) (s : State) (m : Fin 20) :
    (s.closeIfDrained n).cond m = s.cond m := State.cond_of_cu (by simp) m

@[simp] theorem State.cond_rejectRecord (d : Fin 32) (n : Nat) (why : Reject) (s : State) {m : Fin 20} (hm : NotStarvation m) :
    (s.rejectRecord d n why).cond m = s.cond m := by simp [State.rejectRecord, hm]

@[simp] theorem State.settings_rejectRecord (d : Fin 32) (n : Nat) (why : Reject) (s : State) (m : Fin 20) :
    ((s.rejectRecord d n why).cond m).severity = (s.cond m).severity ∧ ((s.rejectRecord d n why).cond m).vector = (s.cond m).vector ∧
    ((s.rejectRecord d n why).cond m).injected = (s.cond m).injected := by simp [State.rejectRecord]

@[simp] theorem cond_pump (fuel : Nat) (s : State) {m : Fin 20} (hm : NotStarvation m) : (pump fuel s).cond m = s.cond m := by
  induction fuel generalizing s with
  | zero => simp [pump]
  | succ fuel ih =>
    unfold pump
    dsimp only
    repeat' split
    all_goals simp [ih, hm]

@[simp] theorem settings_pump (fuel : Nat) (s : State) (m : Fin 20) :
    ((pump fuel s).cond m).severity = (s.cond m).severity ∧ ((pump fuel s).cond m).vector = (s.cond m).vector ∧
    ((pump fuel s).cond m).injected = (s.cond m).injected := by
  induction fuel generalizing s with
  | zero => simp [pump]
  | succ fuel ih =>
    unfold pump
    dsimp only
    repeat' split
    all_goals simp [ih]

@[simp] theorem State.cond_takeHeads (s : State) {m : Fin 20} (hm : NotStarvation m) :
    (s.takeHeads).cond m = s.cond m := by simp [State.takeHeads, hm]

@[simp] theorem State.settings_takeHeads (s : State) (m : Fin 20) :
    ((s.takeHeads).cond m).severity = (s.cond m).severity ∧ ((s.takeHeads).cond m).vector = (s.cond m).vector ∧
    ((s.takeHeads).cond m).injected = (s.cond m).injected := by simp [State.takeHeads]

@[simp] theorem State.cond_deliverVib (d : Fin 32) (s : State) {m : Fin 20} (hm : NotStarvation m) :
    (s.deliverVib d).cond m = s.cond m := by
  unfold State.deliverVib
  repeat' split
  all_goals simp [hm]

@[simp] theorem State.settings_deliverVib (d : Fin 32) (s : State) (m : Fin 20) :
    ((s.deliverVib d).cond m).severity = (s.cond m).severity ∧ ((s.deliverVib d).cond m).vector = (s.cond m).vector ∧
    ((s.deliverVib d).cond m).injected = (s.cond m).injected := by
  unfold State.deliverVib
  repeat' split
  all_goals simp

@[simp] theorem cond_foldl_releaseVib (ds : List (Fin 32)) (s : State) {m : Fin 20} (hm : NotStarvation m) :
    (ds.foldl (fun t d => t.releaseVib d) s).cond m = s.cond m := by
  induction ds generalizing s with
  | nil => simp
  | cons d ds ih => simp [ih, hm]

@[simp] theorem settings_foldl_releaseVib (ds : List (Fin 32)) (s : State) (m : Fin 20) :
    ((ds.foldl (fun t d => t.releaseVib d) s).cond m).severity = (s.cond m).severity ∧ ((ds.foldl (fun t d => t.releaseVib d) s).cond m).vector = (s.cond m).vector ∧
    ((ds.foldl (fun t d => t.releaseVib d) s).cond m).injected = (s.cond m).injected := by
  induction ds generalizing s with
  | nil => simp
  | cons d ds ih => simp [ih]

@[simp] theorem State.cond_releaseSurplus (n : Nat) (s : State) {m : Fin 20} (hm : NotStarvation m) :
    (s.releaseSurplus n).cond m = s.cond m := by simp [State.releaseSurplus, hm]

@[simp] theorem State.settings_releaseSurplus (n : Nat) (s : State) (m : Fin 20) :
    ((s.releaseSurplus n).cond m).severity = (s.cond m).severity ∧ ((s.releaseSurplus n).cond m).vector = (s.cond m).vector ∧
    ((s.releaseSurplus n).cond m).injected = (s.cond m).injected := by simp [State.releaseSurplus]

@[simp] theorem State.cond_afterAccept (n : Nat) (s : State) {m : Fin 20} (hm : NotStarvation m) :
    (s.afterAccept n).cond m = s.cond m := by
  unfold State.afterAccept
  repeat' split
  all_goals simp [hm]

@[simp] theorem State.settings_afterAccept (n : Nat) (s : State) (m : Fin 20) :
    ((s.afterAccept n).cond m).severity = (s.cond m).severity ∧ ((s.afterAccept n).cond m).vector = (s.cond m).vector ∧
    ((s.afterAccept n).cond m).injected = (s.cond m).injected := by
  unfold State.afterAccept
  repeat' split
  all_goals simp

@[simp] theorem State.cond_completeAnalysis (s : State) {m : Fin 20} (hm : NotStarvation m) :
    (s.completeAnalysis).cond m = s.cond m := by
  unfold State.completeAnalysis
  dsimp only
  repeat' split
  all_goals simp [hm]

@[simp] theorem State.settings_completeAnalysis (s : State) (m : Fin 20) :
    ((s.completeAnalysis).cond m).severity = (s.cond m).severity ∧ ((s.completeAnalysis).cond m).vector = (s.cond m).vector ∧
    ((s.completeAnalysis).cond m).injected = (s.cond m).injected := by
  unfold State.completeAnalysis
  dsimp only
  repeat' split
  all_goals simp

@[simp] theorem State.cond_drainClose (s : State) (m : Fin 20) :
    (s.drainClose).cond m = s.cond m := State.cond_of_cu (by simp) m

@[simp] theorem State.cond_reportNotice (s : State) (m : Fin 20) :
    (s.reportNotice).cond m = s.cond m := State.cond_of_cu (by simp) m

@[simp] theorem State.cond_assembleReport (i : Fin 8) (s : State) (m : Fin 20) :
    (s.assembleReport i).cond m = s.cond m := State.cond_of_cu (by simp) m

@[simp] theorem State.cond_setChamber (c : Fin 4) (x : Chamber) (s : State) (m : Fin 20) :
    (s.setChamber c x).cond m = s.cond m := State.cond_of_cu (by simp) m

@[simp] theorem State.cond_checkGrant (s : State) (m : Fin 20) :
    (s.checkGrant).cond m = s.cond m := State.cond_of_cu (by simp) m

@[simp] theorem State.cond_joinQueue (c : Fin 4) (s : State) (m : Fin 20) :
    (s.joinQueue c).cond m = s.cond m := State.cond_of_cu (by simp) m

@[simp] theorem State.cond_startChambers (s : State) (m : Fin 20) :
    (s.startChambers).cond m = s.cond m := State.cond_of_cu (by simp) m

@[simp] theorem State.cond_enterVent (c : Fin 4) (after : AfterVent) (s : State) (m : Fin 20) :
    (s.enterVent c after).cond m = s.cond m := State.cond_of_cu (by simp) m

@[simp] theorem State.cond_enterMeasure (c : Fin 4) (s : State) (m : Fin 20) :
    (s.enterMeasure c).cond m = s.cond m := State.cond_of_cu (by simp) m

@[simp] theorem State.cond_fillReached (c : Fin 4) (s : State) (m : Fin 20) :
    (s.fillReached c).cond m = s.cond m := State.cond_of_cu (by simp) m

@[simp] theorem State.cond_takeLeakRecord (slot : Word32) (xs : List LeakSample) (s : State) (m : Fin 20) :
    (s.takeLeakRecord slot xs).cond m = s.cond m := State.cond_of_cu (by simp) m

@[simp] theorem State.cond_senseFault (s : State) (m : Fin 20) :
    (s.senseFault).cond m = s.cond m := State.cond_of_cu (by simp) m

@[simp] theorem State.cond_mapResult (i : Fin 8) (c : Fin 4) (f : ChamberResult → ChamberResult) (s : State) (m : Fin 20) :
    (s.mapResult i c f).cond m = s.cond m := State.cond_of_cu (by simp) m

@[simp] theorem State.cond_countAttempt (c : Fin 4) (a : AttemptResult) (s : State) (m : Fin 20) :
    (s.countAttempt c a).cond m = s.cond m := State.cond_of_cu (by simp) m

@[simp] theorem State.cond_evaluate (c : Fin 4) (s : State) (m : Fin 20) :
    (s.evaluate c).cond m = s.cond m := State.cond_of_cu (by simp) m

@[simp] theorem cond_foldl_evaluate (cs : List (Fin 4)) (s : State) (m : Fin 20) :
    (cs.foldl (fun t c => t.evaluate c) s).cond m = s.cond m := State.cond_of_cu (by simp) m

@[simp] theorem State.cond_evaluateAll (s : State) (m : Fin 20) :
    (s.evaluateAll).cond m = s.cond m := State.cond_of_cu (by simp) m

@[simp] theorem cond_foldl_enterVent (cs : List (Fin 4)) (s : State) (m : Fin 20) :
    (cs.foldl (fun t c => if (t.chamber c).phase.attempting then t.enterVent c .requeue else t) s).cond m = s.cond m := State.cond_of_cu (by simp) m

@[simp] theorem State.cond_haltChambers (s : State) (m : Fin 20) :
    (s.haltChambers).cond m = s.cond m := State.cond_of_cu (by simp) m

@[simp] theorem State.cond_abortChamber (c : Fin 4) (s : State) (m : Fin 20) :
    (s.abortChamber c).cond m = s.cond m := State.cond_of_cu (by simp) m

@[simp] theorem cond_foldl_abortChamber (cs : List (Fin 4)) (s : State) (m : Fin 20) :
    (cs.foldl (fun t c => t.abortChamber c) s).cond m = s.cond m := State.cond_of_cu (by simp) m

@[simp] theorem State.cond_abortChambers (s : State) (m : Fin 20) :
    (s.abortChambers).cond m = s.cond m := State.cond_of_cu (by simp) m

@[simp] theorem State.cond_restChambers (s : State) (m : Fin 20) :
    (s.restChambers).cond m = s.cond m := State.cond_of_cu (by simp) m

@[simp] theorem State.cond_armSilence (s : State) (m : Fin 20) :
    (s.armSilence).cond m = s.cond m := State.cond_of_cu (by simp) m

@[simp] theorem State.cond_disarmSilence (s : State) (m : Fin 20) :
    (s.disarmSilence).cond m = s.cond m := State.cond_of_cu (by simp) m

@[simp] theorem State.cond_runConveyor (s : State) (m : Fin 20) :
    (s.runConveyor).cond m = s.cond m := State.cond_of_cu (by simp) m

@[simp] theorem State.cond_stopConveyor (s : State) (m : Fin 20) :
    (s.stopConveyor).cond m = s.cond m := State.cond_of_cu (by simp) m

@[simp] theorem State.cond_checkTransfer (s : State) {m : Fin 20} (hm : NotStarvation m) :
    (s.checkTransfer).cond m = s.cond m := by
  unfold State.checkTransfer
  dsimp only
  repeat' split
  all_goals simp [hm]

@[simp] theorem State.settings_checkTransfer (s : State) (m : Fin 20) :
    ((s.checkTransfer).cond m).severity = (s.cond m).severity ∧ ((s.checkTransfer).cond m).vector = (s.cond m).vector ∧
    ((s.checkTransfer).cond m).injected = (s.cond m).injected := by
  unfold State.checkTransfer
  dsimp only
  repeat' split
  all_goals simp

@[simp] theorem State.cond_mapLeak (i : Fin 8) (f : LeakSection → LeakSection) (s : State) (m : Fin 20) :
    (s.mapLeak i f).cond m = s.cond m := State.cond_of_cu (by simp) m

@[simp] theorem State.cond_enterDone (i : Fin 8) (s : State) {m : Fin 20} (hm : NotStarvation m) :
    (s.enterDone i).cond m = s.cond m := by simp [State.enterDone, hm]

@[simp] theorem State.settings_enterDone (i : Fin 8) (s : State) (m : Fin 20) :
    ((s.enterDone i).cond m).severity = (s.cond m).severity ∧ ((s.enterDone i).cond m).vector = (s.cond m).vector ∧
    ((s.enterDone i).cond m).injected = (s.cond m).injected := by simp [State.enterDone]

@[simp] theorem State.cond_checkLeakEnd (s : State) {m : Fin 20} (hm : NotStarvation m) :
    (s.checkLeakEnd).cond m = s.cond m := by
  unfold State.checkLeakEnd
  repeat' split
  all_goals simp [hm]

@[simp] theorem State.settings_checkLeakEnd (s : State) (m : Fin 20) :
    ((s.checkLeakEnd).cond m).severity = (s.cond m).severity ∧ ((s.checkLeakEnd).cond m).vector = (s.cond m).vector ∧
    ((s.checkLeakEnd).cond m).injected = (s.cond m).injected := by
  unfold State.checkLeakEnd
  repeat' split
  all_goals simp

@[simp] theorem State.cond_decideLeak (s : State) {m : Fin 20} (hm : NotStarvation m) : (s.decideLeak).cond m = s.cond m := by
  unfold State.decideLeak
  repeat' split
  all_goals simp [hm]

@[simp] theorem State.settings_decideLeak (s : State) (m : Fin 20) :
    ((s.decideLeak).cond m).severity = (s.cond m).severity ∧ ((s.decideLeak).cond m).vector = (s.cond m).vector ∧
    ((s.decideLeak).cond m).injected = (s.cond m).injected := by
  unfold State.decideLeak
  repeat' split
  all_goals simp

@[simp] theorem State.cond_arrive (s : State) {m : Fin 20} (hm : NotStarvation m) : (s.arrive).cond m = s.cond m := by
  unfold State.arrive
  split <;> simp [hm]

@[simp] theorem State.settings_arrive (s : State) (m : Fin 20) :
    ((s.arrive).cond m).severity = (s.cond m).severity ∧ ((s.arrive).cond m).vector = (s.cond m).vector ∧
    ((s.arrive).cond m).injected = (s.cond m).injected := by
  unfold State.arrive
  split <;> simp

@[simp] theorem State.cond_checkRunDone (s : State) {m : Fin 20} (hm : NotStarvation m) :
    (s.checkRunDone).cond m = s.cond m := by
  unfold State.checkRunDone
  repeat' split
  all_goals simp [hm]

@[simp] theorem State.settings_checkRunDone (s : State) (m : Fin 20) :
    ((s.checkRunDone).cond m).severity = (s.cond m).severity ∧ ((s.checkRunDone).cond m).vector = (s.cond m).vector ∧
    ((s.checkRunDone).cond m).injected = (s.cond m).injected := by
  unfold State.checkRunDone
  repeat' split
  all_goals simp

@[simp] theorem State.cond_mapSlot (k : Fin 16) (f : Slot → Slot) (s : State) (m : Fin 20) :
    (s.mapSlot k f).cond m = s.cond m := State.cond_of_cu (by simp) m

@[simp] theorem State.cond_load (i : Fin 8) (serial : List Byte) (slot : Fin 16) (s : State) {m : Fin 20} (hm : NotStarvation m) :
    (s.load i serial slot).cond m = s.cond m := by simp [State.load, hm]

@[simp] theorem State.settings_load (i : Fin 8) (serial : List Byte) (slot : Fin 16) (s : State) (m : Fin 20) :
    ((s.load i serial slot).cond m).severity = (s.cond m).severity ∧ ((s.load i serial slot).cond m).vector = (s.cond m).vector ∧
    ((s.load i serial slot).cond m).injected = (s.cond m).injected := by simp [State.load]

@[simp] theorem State.cond_mapRunIn (f : RunIn → RunIn) (s : State) (m : Fin 20) :
    (s.mapRunIn f).cond m = s.cond m := State.cond_of_cu (by simp) m

@[simp] theorem State.cond_judgeDrive (s : State) {m : Fin 20} (hm : NotStarvation m) (h4 : m ≠ 4) :
    (s.judgeDrive).cond m = s.cond m := by simp [State.judgeDrive, h4]

@[simp] theorem State.settings_judgeDrive (s : State) (m : Fin 20) :
    ((s.judgeDrive).cond m).severity = (s.cond m).severity ∧ ((s.judgeDrive).cond m).vector = (s.cond m).vector ∧
    ((s.judgeDrive).cond m).injected = (s.cond m).injected := by simp [State.judgeDrive]

@[simp] theorem State.cond_setEnable (b : Bool) (s : State) {m : Fin 20} (hm : NotStarvation m) (h4 : m ≠ 4) :
    (s.setEnable b).cond m = s.cond m := by
  unfold State.setEnable
  split <;> simp [hm, h4]

@[simp] theorem State.settings_setEnable (b : Bool) (s : State) (m : Fin 20) :
    ((s.setEnable b).cond m).severity = (s.cond m).severity ∧ ((s.setEnable b).cond m).vector = (s.cond m).vector ∧
    ((s.setEnable b).cond m).injected = (s.cond m).injected := by
  unfold State.setEnable
  split <;> simp

@[simp] theorem State.cond_tryOpen (s : State) {m : Fin 20} (hm : NotStarvation m) : (s.tryOpen).cond m = s.cond m := by
  unfold State.tryOpen
  repeat' split
  all_goals simp [hm]

@[simp] theorem State.settings_tryOpen (s : State) (m : Fin 20) :
    ((s.tryOpen).cond m).severity = (s.cond m).severity ∧ ((s.tryOpen).cond m).vector = (s.cond m).vector ∧
    ((s.tryOpen).cond m).injected = (s.cond m).injected := by
  unfold State.tryOpen
  repeat' split
  all_goals simp

@[simp] theorem State.cond_settle (s : State) {m : Fin 20} (hm : NotStarvation m) :
    (s.settle).cond m = s.cond m := by simp [State.settle, hm]

@[simp] theorem State.settings_settle (s : State) (m : Fin 20) :
    ((s.settle).cond m).severity = (s.cond m).severity ∧ ((s.settle).cond m).vector = (s.cond m).vector ∧
    ((s.settle).cond m).injected = (s.cond m).injected := by simp [State.settle]

@[simp] theorem State.cond_loadSettle (x : Step) (s : State) {m : Fin 20} (hm : NotStarvation m) :
    (s.loadSettle x).cond m = s.cond m := by
  unfold State.loadSettle
  repeat' split
  all_goals simp [hm]

@[simp] theorem State.settings_loadSettle (x : Step) (s : State) (m : Fin 20) :
    ((s.loadSettle x).cond m).severity = (s.cond m).severity ∧ ((s.loadSettle x).cond m).vector = (s.cond m).vector ∧
    ((s.loadSettle x).cond m).injected = (s.cond m).injected := by
  unfold State.loadSettle
  repeat' split
  all_goals simp

@[simp] theorem State.cond_pauseStep (s : State) {m : Fin 20} (hm : NotStarvation m) : (s.pauseStep).cond m = s.cond m := by
  unfold State.pauseStep
  repeat' split
  all_goals simp [hm]

@[simp] theorem State.settings_pauseStep (s : State) (m : Fin 20) :
    ((s.pauseStep).cond m).severity = (s.cond m).severity ∧ ((s.pauseStep).cond m).vector = (s.cond m).vector ∧
    ((s.pauseStep).cond m).injected = (s.cond m).injected := by
  unfold State.pauseStep
  repeat' split
  all_goals simp

@[simp] theorem State.cond_noisePause (s : State) {m : Fin 20} (hm : NotStarvation m) : (s.noisePause).cond m = s.cond m := by
  unfold State.noisePause
  repeat' split
  all_goals simp [hm]

@[simp] theorem State.settings_noisePause (s : State) (m : Fin 20) :
    ((s.noisePause).cond m).severity = (s.cond m).severity ∧ ((s.noisePause).cond m).vector = (s.cond m).vector ∧
    ((s.noisePause).cond m).injected = (s.cond m).injected := by
  unfold State.noisePause
  repeat' split
  all_goals simp

@[simp] theorem State.cond_loadStep (x : Step) (s : State) {m : Fin 20} (hm : NotStarvation m) :
    (s.loadStep x).cond m = s.cond m := by simp [State.loadStep, hm]

@[simp] theorem State.settings_loadStep (x : Step) (s : State) (m : Fin 20) :
    ((s.loadStep x).cond m).severity = (s.cond m).severity ∧ ((s.loadStep x).cond m).vector = (s.cond m).vector ∧
    ((s.loadStep x).cond m).injected = (s.cond m).injected := by simp [State.loadStep]

@[simp] theorem State.cond_enterStep (k : Nat) (x : Step) (s : State) {m : Fin 20} (hm : NotStarvation m) :
    (s.enterStep k x).cond m = s.cond m := by simp [State.enterStep, hm]

@[simp] theorem State.settings_enterStep (k : Nat) (x : Step) (s : State) (m : Fin 20) :
    ((s.enterStep k x).cond m).severity = (s.cond m).severity ∧ ((s.enterStep k x).cond m).vector = (s.cond m).vector ∧
    ((s.enterStep k x).cond m).injected = (s.cond m).injected := by simp [State.enterStep]

@[simp] theorem State.cond_restartStep (s : State) {m : Fin 20} (hm : NotStarvation m) :
    (s.restartStep).cond m = s.cond m := by
  unfold State.restartStep
  split <;> simp [hm]

@[simp] theorem State.settings_restartStep (s : State) (m : Fin 20) :
    ((s.restartStep).cond m).severity = (s.cond m).severity ∧ ((s.restartStep).cond m).vector = (s.cond m).vector ∧
    ((s.restartStep).cond m).injected = (s.cond m).injected := by
  unfold State.restartStep
  split <;> simp

@[simp] theorem State.cond_evaluateDrag (x : Step) (s : State) (m : Fin 20) :
    (s.evaluateDrag x).cond m = s.cond m := State.cond_of_cu (by simp) m

@[simp] theorem State.cond_clearDrag (s : State) (m : Fin 20) :
    (s.clearDrag).cond m = s.cond m := State.cond_of_cu (by simp) m

@[simp] theorem State.cond_closeWindows (s : State) {m : Fin 20} (hm : NotStarvation m) :
    (s.closeWindows).cond m = s.cond m := by
  unfold State.closeWindows
  split <;> simp [hm]

@[simp] theorem State.settings_closeWindows (s : State) (m : Fin 20) :
    ((s.closeWindows).cond m).severity = (s.cond m).severity ∧ ((s.closeWindows).cond m).vector = (s.cond m).vector ∧
    ((s.closeWindows).cond m).injected = (s.cond m).injected := by
  unfold State.closeWindows
  split <;> simp

@[simp] theorem State.cond_profileEnd (cause : StopCause) (s : State) {m : Fin 20} (hm : NotStarvation m) (h4 : m ≠ 4) :
    (s.profileEnd cause).cond m = s.cond m := by simp [State.profileEnd, hm, h4]

@[simp] theorem State.settings_profileEnd (cause : StopCause) (s : State) (m : Fin 20) :
    ((s.profileEnd cause).cond m).severity = (s.cond m).severity ∧ ((s.profileEnd cause).cond m).vector = (s.cond m).vector ∧
    ((s.profileEnd cause).cond m).injected = (s.cond m).injected := by simp [State.profileEnd]

@[simp] theorem State.cond_beginStop (cause : StopCause) (s : State) {m : Fin 20} (hm : NotStarvation m) (h4 : m ≠ 4) :
    (s.beginStop cause).cond m = s.cond m := by
  unfold State.beginStop
  dsimp only
  split <;> simp [hm, h4]

@[simp] theorem State.settings_beginStop (cause : StopCause) (s : State) (m : Fin 20) :
    ((s.beginStop cause).cond m).severity = (s.cond m).severity ∧ ((s.beginStop cause).cond m).vector = (s.cond m).vector ∧
    ((s.beginStop cause).cond m).injected = (s.cond m).injected := by
  unfold State.beginStop
  dsimp only
  split <;> simp

@[simp] theorem State.cond_endStep (k : Nat) (x : Step) (s : State) {m : Fin 20} (hm : NotStarvation m) :
    (s.endStep k x).1.cond m = s.cond m := by
  unfold State.endStep
  split <;> simp [hm]

@[simp] theorem State.settings_endStep (k : Nat) (x : Step) (s : State) (m : Fin 20) :
    ((s.endStep k x).1.cond m).severity = (s.cond m).severity ∧ ((s.endStep k x).1.cond m).vector = (s.cond m).vector ∧
    ((s.endStep k x).1.cond m).injected = (s.cond m).injected := by
  unfold State.endStep
  split <;> simp

@[simp] theorem State.cond_finishProfile (s : State) {m : Fin 20} (hm : NotStarvation m) (h4 : m ≠ 4) :
    (s.finishProfile).cond m = s.cond m := by simp [State.finishProfile, hm, h4]

@[simp] theorem State.settings_finishProfile (s : State) (m : Fin 20) :
    ((s.finishProfile).cond m).severity = (s.cond m).severity ∧ ((s.finishProfile).cond m).vector = (s.cond m).vector ∧
    ((s.finishProfile).cond m).injected = (s.cond m).injected := by simp [State.finishProfile]

@[simp] theorem cond_runSteps (fuel k : Nat) (s : State) {m : Fin 20} (hm : NotStarvation m) (h4 : m ≠ 4) :
    (runSteps fuel k s).cond m = s.cond m := by
  induction fuel generalizing k s with
  | zero => simp [runSteps]
  | succ fuel ih =>
    unfold runSteps
    dsimp only
    repeat' split
    all_goals simp [ih, hm, h4]

@[simp] theorem settings_runSteps (fuel k : Nat) (s : State) (m : Fin 20) :
    ((runSteps fuel k s).cond m).severity = (s.cond m).severity ∧ ((runSteps fuel k s).cond m).vector = (s.cond m).vector ∧
    ((runSteps fuel k s).cond m).injected = (s.cond m).injected := by
  induction fuel generalizing k s with
  | zero => simp [runSteps]
  | succ fuel ih =>
    unfold runSteps
    dsimp only
    repeat' split
    all_goals simp [ih]

@[simp] theorem State.cond_goTo (k : Nat) (s : State) {m : Fin 20} (hm : NotStarvation m) (h4 : m ≠ 4) :
    (s.goTo k).cond m = s.cond m := by simp [State.goTo, hm, h4]

@[simp] theorem State.settings_goTo (k : Nat) (s : State) (m : Fin 20) :
    ((s.goTo k).cond m).severity = (s.cond m).severity ∧ ((s.goTo k).cond m).vector = (s.cond m).vector ∧
    ((s.goTo k).cond m).injected = (s.cond m).injected := by simp [State.goTo]

@[simp] theorem State.cond_endCurrent (s : State) {m : Fin 20} (hm : NotStarvation m) (h4 : m ≠ 4) :
    (s.endCurrent).cond m = s.cond m := by
  unfold State.endCurrent
  split <;> simp [hm, h4]

@[simp] theorem State.settings_endCurrent (s : State) (m : Fin 20) :
    ((s.endCurrent).cond m).severity = (s.cond m).severity ∧ ((s.endCurrent).cond m).vector = (s.cond m).vector ∧
    ((s.endCurrent).cond m).injected = (s.cond m).injected := by
  unfold State.endCurrent
  split <;> simp

@[simp] theorem State.cond_failStep (s : State) {m : Fin 20} (hm : NotStarvation m) (h4 : m ≠ 4) :
    (s.failStep).cond m = s.cond m := by simp [State.failStep, hm, h4]

@[simp] theorem State.settings_failStep (s : State) (m : Fin 20) :
    ((s.failStep).cond m).severity = (s.cond m).severity ∧ ((s.failStep).cond m).vector = (s.cond m).vector ∧
    ((s.failStep).cond m).injected = (s.cond m).injected := by simp [State.failStep]

@[simp] theorem State.cond_beginProfile (s : State) {m : Fin 20} (hm : NotStarvation m) (h4 : m ≠ 4) :
    (s.beginProfile).cond m = s.cond m := by simp [State.beginProfile, hm, h4]

@[simp] theorem State.settings_beginProfile (s : State) (m : Fin 20) :
    ((s.beginProfile).cond m).severity = (s.cond m).severity ∧ ((s.beginProfile).cond m).vector = (s.cond m).vector ∧
    ((s.beginProfile).cond m).injected = (s.cond m).injected := by simp [State.beginProfile]

@[simp] theorem State.cond_startProfile (r : Recipe) (s : State) {m : Fin 20} (hm : NotStarvation m) (h4 : m ≠ 4) :
    (s.startProfile r).cond m = s.cond m := by
  unfold State.startProfile
  split <;> simp [hm, h4]

@[simp] theorem State.settings_startProfile (r : Recipe) (s : State) (m : Fin 20) :
    ((s.startProfile r).cond m).severity = (s.cond m).severity ∧ ((s.startProfile r).cond m).vector = (s.cond m).vector ∧
    ((s.startProfile r).cond m).injected = (s.cond m).injected := by
  unfold State.startProfile
  split <;> simp

@[simp] theorem State.cond_abortProfile (s : State) {m : Fin 20} (hm : NotStarvation m) (h4 : m ≠ 4) :
    (s.abortProfile).cond m = s.cond m := by
  unfold State.abortProfile
  split <;> simp [hm, h4]

@[simp] theorem State.settings_abortProfile (s : State) (m : Fin 20) :
    ((s.abortProfile).cond m).severity = (s.cond m).severity ∧ ((s.abortProfile).cond m).vector = (s.cond m).vector ∧
    ((s.abortProfile).cond m).injected = (s.cond m).injected := by
  unfold State.abortProfile
  split <;> simp

@[simp] theorem State.cond_hardCheck (s : State) {m : Fin 20} (hm : NotStarvation m) (h4 : m ≠ 4) :
    (s.hardCheck).cond m = s.cond m := by
  unfold State.hardCheck
  dsimp only
  repeat' split
  all_goals simp [hm, h4]

@[simp] theorem State.settings_hardCheck (s : State) (m : Fin 20) :
    ((s.hardCheck).cond m).severity = (s.cond m).severity ∧ ((s.hardCheck).cond m).vector = (s.cond m).vector ∧
    ((s.hardCheck).cond m).injected = (s.cond m).injected := by
  unfold State.hardCheck
  dsimp only
  repeat' split
  all_goals simp

@[simp] theorem State.cond_profileHalted (s : State) {m : Fin 20} (hm : NotStarvation m) (h4 : m ≠ 4) :
    (s.profileHalted).cond m = s.cond m := by
  unfold State.profileHalted
  dsimp only
  repeat' split
  all_goals simp [hm, h4]

@[simp] theorem State.settings_profileHalted (s : State) (m : Fin 20) :
    ((s.profileHalted).cond m).severity = (s.cond m).severity ∧ ((s.profileHalted).cond m).vector = (s.cond m).vector ∧
    ((s.profileHalted).cond m).injected = (s.cond m).injected := by
  unfold State.profileHalted
  dsimp only
  repeat' split
  all_goals simp

@[simp] theorem State.cond_profileReleased (s : State) {m : Fin 20} (hm : NotStarvation m) (h4 : m ≠ 4) :
    (s.profileReleased).cond m = s.cond m := by
  unfold State.profileReleased
  dsimp only
  split <;> simp [hm, h4]

@[simp] theorem State.settings_profileReleased (s : State) (m : Fin 20) :
    ((s.profileReleased).cond m).severity = (s.cond m).severity ∧ ((s.profileReleased).cond m).vector = (s.cond m).vector ∧
    ((s.profileReleased).cond m).injected = (s.cond m).injected := by
  unfold State.profileReleased
  dsimp only
  split <;> simp

@[simp] theorem State.cond_updateSetpoint (s : State) {m : Fin 20} (hm : NotStarvation m) (h4 : m ≠ 4) :
    (s.updateSetpoint).cond m = s.cond m := by
  unfold State.updateSetpoint
  dsimp only
  repeat' split
  all_goals simp [hm, h4]

@[simp] theorem State.settings_updateSetpoint (s : State) (m : Fin 20) :
    ((s.updateSetpoint).cond m).severity = (s.cond m).severity ∧ ((s.updateSetpoint).cond m).vector = (s.cond m).vector ∧
    ((s.updateSetpoint).cond m).injected = (s.cond m).injected := by
  unfold State.updateSetpoint
  dsimp only
  repeat' split
  all_goals simp

@[simp] theorem State.cond_takeSpeed (speed : Int) (s : State) {m : Fin 20} (hm : NotStarvation m) (h4 : m ≠ 4) :
    (s.takeSpeed speed).cond m = s.cond m := by
  unfold State.takeSpeed
  repeat' split
  all_goals simp [hm, h4]

@[simp] theorem State.settings_takeSpeed (speed : Int) (s : State) (m : Fin 20) :
    ((s.takeSpeed speed).cond m).severity = (s.cond m).severity ∧ ((s.takeSpeed speed).cond m).vector = (s.cond m).vector ∧
    ((s.takeSpeed speed).cond m).injected = (s.cond m).injected := by
  unfold State.takeSpeed
  repeat' split
  all_goals simp

@[simp] theorem State.cond_takeDrag (seq : Word32) (xs : List SlowSample) (s : State) (m : Fin 20) :
    (s.takeDrag seq xs).cond m = s.cond m := State.cond_of_cu (by simp) m

@[simp] theorem State.cond_absorb (seq : Word32) (xs : List SlowSample) (s : State) (m : Fin 20) :
    (s.absorb seq xs).cond m = s.cond m := State.cond_of_cu (by simp) m

@[simp] theorem State.cond_applyProfileHalt (was : StopSet) (s : State) {m : Fin 20} (hm : NotStarvation m) (h4 : m ≠ 4) :
    (s.applyProfileHalt was).cond m = s.cond m := by
  unfold State.applyProfileHalt
  split <;> simp [hm, h4]

@[simp] theorem State.settings_applyProfileHalt (was : StopSet) (s : State) (m : Fin 20) :
    ((s.applyProfileHalt was).cond m).severity = (s.cond m).severity ∧ ((s.applyProfileHalt was).cond m).vector = (s.cond m).vector ∧
    ((s.applyProfileHalt was).cond m).injected = (s.cond m).injected := by
  unfold State.applyProfileHalt
  split <;> simp

@[simp] theorem State.cond_applyNoiseHalt (was : StopSet) (s : State) {m : Fin 20} (hm : NotStarvation m) :
    (s.applyNoiseHalt was).cond m = s.cond m := by
  unfold State.applyNoiseHalt
  split <;> simp [hm]

@[simp] theorem State.settings_applyNoiseHalt (was : StopSet) (s : State) (m : Fin 20) :
    ((s.applyNoiseHalt was).cond m).severity = (s.cond m).severity ∧ ((s.applyNoiseHalt was).cond m).vector = (s.cond m).vector ∧
    ((s.applyNoiseHalt was).cond m).injected = (s.cond m).injected := by
  unfold State.applyNoiseHalt
  split <;> simp

@[simp] theorem State.cond_applyLeakHalt (was : StopSet) (s : State) {m : Fin 20} (hm : NotStarvation m) :
    (s.applyLeakHalt was).cond m = s.cond m := by
  unfold State.applyLeakHalt
  split <;> simp [hm]

@[simp] theorem State.settings_applyLeakHalt (was : StopSet) (s : State) (m : Fin 20) :
    ((s.applyLeakHalt was).cond m).severity = (s.cond m).severity ∧ ((s.applyLeakHalt was).cond m).vector = (s.cond m).vector ∧
    ((s.applyLeakHalt was).cond m).injected = (s.cond m).injected := by
  unfold State.applyLeakHalt
  split <;> simp

@[simp] theorem State.cond_applyTransferHalt (was : StopSet) (s : State) {m : Fin 20} (hm : NotStarvation m) :
    (s.applyTransferHalt was).cond m = s.cond m := by
  unfold State.applyTransferHalt
  repeat' split
  all_goals simp [hm]

@[simp] theorem State.settings_applyTransferHalt (was : StopSet) (s : State) (m : Fin 20) :
    ((s.applyTransferHalt was).cond m).severity = (s.cond m).severity ∧ ((s.applyTransferHalt was).cond m).vector = (s.cond m).vector ∧
    ((s.applyTransferHalt was).cond m).injected = (s.cond m).injected := by
  unfold State.applyTransferHalt
  repeat' split
  all_goals simp

@[simp] theorem State.cond_applyHalts (was : StopSet) (s : State) {m : Fin 20} (hm : NotStarvation m) (h4 : m ≠ 4) :
    (s.applyHalts was).cond m = s.cond m := by simp [State.applyHalts, hm, h4]

@[simp] theorem State.settings_applyHalts (was : StopSet) (s : State) (m : Fin 20) :
    ((s.applyHalts was).cond m).severity = (s.cond m).severity ∧ ((s.applyHalts was).cond m).vector = (s.cond m).vector ∧
    ((s.applyHalts was).cond m).injected = (s.cond m).injected := by simp [State.applyHalts]

@[simp] theorem cond_react (s t : State) {m : Fin 20} (hm : NotStarvation m) (h4 : m ≠ 4) :
    (react s t).cond m = t.cond m := by simp [react, hm, h4]

@[simp] theorem settings_react (s t : State) (m : Fin 20) :
    ((react s t).cond m).severity = (t.cond m).severity ∧ ((react s t).cond m).vector = (t.cond m).vector ∧
    ((react s t).cond m).injected = (t.cond m).injected := by simp [react]

@[simp] theorem State.cond_elapseMs (ms : Nat) (s : State) (m : Fin 20) :
    (s.elapseMs ms).cond m = s.cond m := State.cond_of_cu (by simp) m

@[simp] theorem State.cond_elapseTo (ms : Nat) (s : State) (m : Fin 20) :
    (s.elapseTo ms).cond m = s.cond m := State.cond_of_cu (by simp) m

@[simp] theorem State.cond_tick (s : State) (m : Fin 20) : s.tick.cond m = s.cond m := State.cond_of_cu (by simp) m

@[simp] theorem State.cond_takeChannel (i : Fin 10) (x : Int) (s : State) (m : Fin 20) :
    (s.takeChannel i x).cond m = s.cond m := State.cond_of_cu (by simp) m

@[simp] theorem State.cond_storeSlow (s : State) (m : Fin 20) :
    (s.storeSlow).cond m = s.cond m := State.cond_of_cu (by simp) m

@[simp] theorem State.cond_storeLeak (s : State) (m : Fin 20) :
    (s.storeLeak).cond m = s.cond m := State.cond_of_cu (by simp) m

@[simp] theorem State.cond_checkFill (c : Fin 4) (s : State) (m : Fin 20) :
    (s.checkFill c).cond m = s.cond m := State.cond_of_cu (by simp) m

@[simp] theorem State.cond_checkFills (s : State) (m : Fin 20) :
    (s.checkFills).cond m = s.cond m := State.cond_of_cu (by simp) m

@[simp] theorem State.cond_storeAngle (x : AngleSample) (s : State) (m : Fin 20) :
    (s.storeAngle x).cond m = s.cond m := State.cond_of_cu (by simp) m

@[simp] theorem State.cond_pulse (us : Nat) (forward : Bool) (x : AngleSample) (s : State) (m : Fin 20) :
    (s.pulse us forward x).cond m = s.cond m := State.cond_of_cu (by simp) m

@[simp] theorem State.cond_closeVib (s : State) {m : Fin 20} (hm : NotStarvation m) : (s.closeVib).cond m = s.cond m := by
  unfold State.closeVib
  split <;> simp [hm]

@[simp] theorem State.settings_closeVib (s : State) (m : Fin 20) :
    ((s.closeVib).cond m).severity = (s.cond m).severity ∧ ((s.closeVib).cond m).vector = (s.cond m).vector ∧
    ((s.closeVib).cond m).injected = (s.cond m).injected := by
  unfold State.closeVib
  split <;> simp

@[simp] theorem State.cond_countIndex (s : State) (m : Fin 20) :
    (s.countIndex).cond m = s.cond m := State.cond_of_cu (by simp) m

@[simp] theorem State.cond_captureVib (w : Window) (resumed : Bool) (x : AngleSample) (s : State) {m : Fin 20} (hm : NotStarvation m) :
    (s.captureVib w resumed x).cond m = s.cond m := by
  unfold State.captureVib
  split <;> simp [hm]

@[simp] theorem State.settings_captureVib (w : Window) (resumed : Bool) (x : AngleSample) (s : State) (m : Fin 20) :
    ((s.captureVib w resumed x).cond m).severity = (s.cond m).severity ∧ ((s.captureVib w resumed x).cond m).vector = (s.cond m).vector ∧
    ((s.captureVib w resumed x).cond m).injected = (s.cond m).injected := by
  unfold State.captureVib
  split <;> simp

@[simp] theorem State.cond_boundaryVib (x : AngleSample) (s : State) {m : Fin 20} (hm : NotStarvation m) :
    (s.boundaryVib x).cond m = s.cond m := by
  unfold State.boundaryVib
  repeat' split
  all_goals simp [hm]

@[simp] theorem State.settings_boundaryVib (x : AngleSample) (s : State) (m : Fin 20) :
    ((s.boundaryVib x).cond m).severity = (s.cond m).severity ∧ ((s.boundaryVib x).cond m).vector = (s.cond m).vector ∧
    ((s.boundaryVib x).cond m).injected = (s.cond m).injected := by
  unfold State.boundaryVib
  repeat' split
  all_goals simp

@[simp] theorem State.cond_index (us : Nat) (x : AngleSample) (s : State) {m : Fin 20} (hm : NotStarvation m) :
    (s.index us x).cond m = s.cond m := by simp [State.index, hm]

@[simp] theorem State.settings_index (us : Nat) (x : AngleSample) (s : State) (m : Fin 20) :
    ((s.index us x).cond m).severity = (s.cond m).severity ∧ ((s.index us x).cond m).vector = (s.cond m).vector ∧
    ((s.index us x).cond m).injected = (s.cond m).injected := by simp [State.index]

@[simp] theorem State.cond_revolutionTimeout (s : State) {m : Fin 20} (hm : NotStarvation m) :
    (s.revolutionTimeout).cond m = s.cond m := by
  unfold State.revolutionTimeout
  split <;> simp [hm]

@[simp] theorem State.settings_revolutionTimeout (s : State) (m : Fin 20) :
    ((s.revolutionTimeout).cond m).severity = (s.cond m).severity ∧ ((s.revolutionTimeout).cond m).vector = (s.cond m).vector ∧
    ((s.revolutionTimeout).cond m).injected = (s.cond m).injected := by
  unfold State.revolutionTimeout
  split <;> simp

@[simp] theorem State.cond_captureSlow (n : Nat) (resumed : Bool) (s : State) {m : Fin 20} (hm : NotStarvation m) :
    (s.captureSlow n resumed).cond m = s.cond m := by
  unfold State.captureSlow
  split <;> simp [hm]

@[simp] theorem State.settings_captureSlow (n : Nat) (resumed : Bool) (s : State) (m : Fin 20) :
    ((s.captureSlow n resumed).cond m).severity = (s.cond m).severity ∧ ((s.captureSlow n resumed).cond m).vector = (s.cond m).vector ∧
    ((s.captureSlow n resumed).cond m).injected = (s.cond m).injected := by
  unfold State.captureSlow
  split <;> simp

@[simp] theorem State.cond_captureLeak (n : Nat) (resumed : Bool) (s : State) {m : Fin 20} (hm : NotStarvation m) :
    (s.captureLeak n resumed).cond m = s.cond m := by
  unfold State.captureLeak
  split <;> simp [hm]

@[simp] theorem State.settings_captureLeak (n : Nat) (resumed : Bool) (s : State) (m : Fin 20) :
    ((s.captureLeak n resumed).cond m).severity = (s.cond m).severity ∧ ((s.captureLeak n resumed).cond m).vector = (s.cond m).vector ∧
    ((s.captureLeak n resumed).cond m).injected = (s.cond m).injected := by
  unfold State.captureLeak
  split <;> simp

@[simp] theorem State.cond_boundarySlow (n : Nat) (s : State) {m : Fin 20} (hm : NotStarvation m) :
    (s.boundarySlow n).cond m = s.cond m := by
  unfold State.boundarySlow
  split <;> simp [hm]

@[simp] theorem State.settings_boundarySlow (n : Nat) (s : State) (m : Fin 20) :
    ((s.boundarySlow n).cond m).severity = (s.cond m).severity ∧ ((s.boundarySlow n).cond m).vector = (s.cond m).vector ∧
    ((s.boundarySlow n).cond m).injected = (s.cond m).injected := by
  unfold State.boundarySlow
  split <;> simp

@[simp] theorem State.cond_boundaryLeak (n : Nat) (s : State) {m : Fin 20} (hm : NotStarvation m) :
    (s.boundaryLeak n).cond m = s.cond m := by
  unfold State.boundaryLeak
  split <;> simp [hm]

@[simp] theorem State.settings_boundaryLeak (n : Nat) (s : State) (m : Fin 20) :
    ((s.boundaryLeak n).cond m).severity = (s.cond m).severity ∧ ((s.boundaryLeak n).cond m).vector = (s.cond m).vector ∧
    ((s.boundaryLeak n).cond m).injected = (s.cond m).injected := by
  unfold State.boundaryLeak
  split <;> simp

@[simp] theorem State.cond_startSlow (s : State) {m : Fin 20} (hm : NotStarvation m) : (s.startSlow).cond m = s.cond m := by
  unfold State.startSlow
  split <;> simp [hm]

@[simp] theorem State.settings_startSlow (s : State) (m : Fin 20) :
    ((s.startSlow).cond m).severity = (s.cond m).severity ∧ ((s.startSlow).cond m).vector = (s.cond m).vector ∧
    ((s.startSlow).cond m).injected = (s.cond m).injected := by
  unfold State.startSlow
  split <;> simp

@[simp] theorem State.cond_startLeak (s : State) {m : Fin 20} (hm : NotStarvation m) : (s.startLeak).cond m = s.cond m := by
  unfold State.startLeak
  split <;> simp [hm]

@[simp] theorem State.settings_startLeak (s : State) (m : Fin 20) :
    ((s.startLeak).cond m).severity = (s.cond m).severity ∧ ((s.startLeak).cond m).vector = (s.cond m).vector ∧
    ((s.startLeak).cond m).injected = (s.cond m).injected := by
  unfold State.startLeak
  split <;> simp

@[simp] theorem State.cond_endSlow (s : State) {m : Fin 20} (hm : NotStarvation m) : (s.endSlow).cond m = s.cond m := by
  unfold State.endSlow
  dsimp only
  repeat' split
  all_goals simp [hm]

@[simp] theorem State.settings_endSlow (s : State) (m : Fin 20) :
    ((s.endSlow).cond m).severity = (s.cond m).severity ∧ ((s.endSlow).cond m).vector = (s.cond m).vector ∧
    ((s.endSlow).cond m).injected = (s.cond m).injected := by
  unfold State.endSlow
  dsimp only
  repeat' split
  all_goals simp

@[simp] theorem State.cond_endLeak (s : State) {m : Fin 20} (hm : NotStarvation m) : (s.endLeak).cond m = s.cond m := by
  unfold State.endLeak
  dsimp only
  repeat' split
  all_goals simp [hm]

@[simp] theorem State.settings_endLeak (s : State) (m : Fin 20) :
    ((s.endLeak).cond m).severity = (s.cond m).severity ∧ ((s.endLeak).cond m).vector = (s.cond m).vector ∧
    ((s.endLeak).cond m).injected = (s.cond m).injected := by
  unfold State.endLeak
  dsimp only
  repeat' split
  all_goals simp

@[simp] theorem cond_takeSlotErase (b : Byte) (s : State) (m : Fin 20) :
    (takeSlotErase b s).1.cond m = s.cond m := State.cond_of_cu (by simp) m

@[simp] theorem cond_takeSlotBlank (b : Byte) (s : State) (m : Fin 20) :
    (takeSlotBlank b s).1.cond m = s.cond m := State.cond_of_cu (by simp) m

@[simp] theorem cond_takeSlotWrite (b : Byte) (offset : Nat) (data : List Byte) (s : State) (m : Fin 20) :
    (takeSlotWrite b offset data s).1.cond m = s.cond m := State.cond_of_cu (by simp) m

@[simp] theorem cond_takeSlotClose (b : Byte) (s : State) (m : Fin 20) :
    (takeSlotClose b s).1.cond m = s.cond m := State.cond_of_cu (by simp) m

@[simp] theorem cond_takeSlotVerify (b : Byte) (digest : Word32) (s : State) (m : Fin 20) :
    (takeSlotVerify b digest s).1.cond m = s.cond m := State.cond_of_cu (by simp) m

@[simp] theorem cond_takeSlotRead (b : Byte) (offset length : Nat) (s : State) (m : Fin 20) :
    (takeSlotRead b offset length s).1.cond m = s.cond m := State.cond_of_cu (by simp) m

@[simp] theorem cond_takeSlotInfo (b : Byte) (s : State) (m : Fin 20) :
    (takeSlotInfo b s).1.cond m = s.cond m := State.cond_of_cu (by simp) m

@[simp] theorem State.cond_storeDone (k : Fin 16) (s : State) (m : Fin 20) :
    (s.storeDone k).cond m = s.cond m := State.cond_of_cu (by simp) m

@[simp] theorem State.cond_completeErase (k : Fin 16) (s : State) (m : Fin 20) :
    (s.completeErase k).cond m = s.cond m := State.cond_of_cu (by simp) m

@[simp] theorem cond_takeUnitGet (id : Nat) (s : State) (m : Fin 20) :
    (takeUnitGet id s).1.cond m = s.cond m := State.cond_of_cu (by simp) m

@[simp] theorem cond_takeStreamGet (s : State) (m : Fin 20) :
    (takeStreamGet s).1.cond m = s.cond m := State.cond_of_cu (by simp) m

@[simp] theorem cond_takeCondList (s : State) (m : Fin 20) :
    (takeCondList s).1.cond m = s.cond m := State.cond_of_cu (by simp) m

@[simp] theorem cond_takeCondGet (b : Byte) (s : State) (m : Fin 20) :
    (takeCondGet b s).1.cond m = s.cond m := State.cond_of_cu (by simp) m

@[simp] theorem cond_takeStatus (s : State) (m : Fin 20) : (takeStatus s).1.cond m = s.cond m := State.cond_of_cu (by simp) m

@[simp] theorem cond_takeIdentify (s : State) (m : Fin 20) :
    (takeIdentify s).1.cond m = s.cond m := State.cond_of_cu (by simp) m

@[simp] theorem cond_takeReportGet (s : State) (m : Fin 20) :
    (takeReportGet s).1.cond m = s.cond m := State.cond_of_cu (by simp) m

@[simp] theorem State.cond_freeUnit (i : Fin 8) (s : State) (m : Fin 20) :
    (s.freeUnit i).cond m = s.cond m := State.cond_of_cu (by simp) m

@[simp] theorem State.cond_freeId (id : Nat) (s : State) (m : Fin 20) :
    (s.freeId id).cond m = s.cond m := State.cond_of_cu (by simp) m

@[simp] theorem cond_takeReportRelease (id : Nat) (s : State) (m : Fin 20) :
    (takeReportRelease id s).1.cond m = s.cond m := State.cond_of_cu (by simp) m

@[simp] theorem State.cond_startRun (i : Fin 8) (recipe : Recipe) (s : State) {m : Fin 20} (hm : NotStarvation m) (h4 : m ≠ 4) :
    (s.startRun i recipe).cond m = s.cond m := by simp [State.startRun, hm, h4]

@[simp] theorem State.settings_startRun (i : Fin 8) (recipe : Recipe) (s : State) (m : Fin 20) :
    ((s.startRun i recipe).cond m).severity = (s.cond m).severity ∧ ((s.startRun i recipe).cond m).vector = (s.cond m).vector ∧
    ((s.startRun i recipe).cond m).injected = (s.cond m).injected := by simp [State.startRun]

@[simp] theorem cond_takeStartRun (id : Nat) (s : State) {m : Fin 20} (hm : NotStarvation m) (h4 : m ≠ 4) :
    (takeStartRun id s).1.cond m = s.cond m := by
  unfold takeStartRun
  repeat' split
  all_goals simp [hm, h4]

@[simp] theorem settings_takeStartRun (id : Nat) (s : State) (m : Fin 20) :
    ((takeStartRun id s).1.cond m).severity = (s.cond m).severity ∧ ((takeStartRun id s).1.cond m).vector = (s.cond m).vector ∧
    ((takeStartRun id s).1.cond m).injected = (s.cond m).injected := by
  unfold takeStartRun
  repeat' split
  all_goals simp

@[simp] theorem State.cond_abortLoaded (i : Fin 8) (recipe : Recipe) (s : State) {m : Fin 20} (hm : NotStarvation m) :
    (s.abortLoaded i recipe).cond m = s.cond m := by simp [State.abortLoaded, hm]

@[simp] theorem State.settings_abortLoaded (i : Fin 8) (recipe : Recipe) (s : State) (m : Fin 20) :
    ((s.abortLoaded i recipe).cond m).severity = (s.cond m).severity ∧ ((s.abortLoaded i recipe).cond m).vector = (s.cond m).vector ∧
    ((s.abortLoaded i recipe).cond m).injected = (s.cond m).injected := by simp [State.abortLoaded]

@[simp] theorem State.cond_abortByState (i : Fin 8) (r : UnitRecord) (s : State) {m : Fin 20} (hm : NotStarvation m) (h4 : m ≠ 4) :
    (s.abortByState i r).cond m = s.cond m := by
  unfold State.abortByState
  split <;> simp [hm, h4]

@[simp] theorem State.settings_abortByState (i : Fin 8) (r : UnitRecord) (s : State) (m : Fin 20) :
    ((s.abortByState i r).cond m).severity = (s.cond m).severity ∧ ((s.abortByState i r).cond m).vector = (s.cond m).vector ∧
    ((s.abortByState i r).cond m).injected = (s.cond m).injected := by
  unfold State.abortByState
  split <;> simp

@[simp] theorem cond_takeAbortUnit (id : Nat) (s : State) {m : Fin 20} (hm : NotStarvation m) (h4 : m ≠ 4) :
    (takeAbortUnit id s).1.cond m = s.cond m := by
  unfold takeAbortUnit
  repeat' split
  all_goals simp [hm, h4]

@[simp] theorem settings_takeAbortUnit (id : Nat) (s : State) (m : Fin 20) :
    ((takeAbortUnit id s).1.cond m).severity = (s.cond m).severity ∧ ((takeAbortUnit id s).1.cond m).vector = (s.cond m).vector ∧
    ((takeAbortUnit id s).1.cond m).injected = (s.cond m).injected := by
  unfold takeAbortUnit
  repeat' split
  all_goals simp

@[simp] theorem cond_takeAdvanceStep (s : State) {m : Fin 20} (hm : NotStarvation m) (h4 : m ≠ 4) :
    (takeAdvanceStep s).1.cond m = s.cond m := by
  unfold takeAdvanceStep
  repeat' split
  all_goals simp [hm, h4]

@[simp] theorem settings_takeAdvanceStep (s : State) (m : Fin 20) :
    ((takeAdvanceStep s).1.cond m).severity = (s.cond m).severity ∧ ((takeAdvanceStep s).1.cond m).vector = (s.cond m).vector ∧
    ((takeAdvanceStep s).1.cond m).injected = (s.cond m).injected := by
  unfold takeAdvanceStep
  repeat' split
  all_goals simp

@[simp] theorem cond_takeRestart (s : State) (m : Fin 20) :
    (takeRestart s).1.cond m = s.cond m := State.cond_of_cu (by simp) m

@[simp] theorem cond_takeLoadUnit (slot : Byte) (serial : List Byte) (s : State) {m : Fin 20} (hm : NotStarvation m) :
    (takeLoadUnit slot serial s).1.cond m = s.cond m := by
  unfold takeLoadUnit
  dsimp only
  repeat' split
  all_goals simp [hm]

@[simp] theorem settings_takeLoadUnit (slot : Byte) (serial : List Byte) (s : State) (m : Fin 20) :
    ((takeLoadUnit slot serial s).1.cond m).severity = (s.cond m).severity ∧ ((takeLoadUnit slot serial s).1.cond m).vector = (s.cond m).vector ∧
    ((takeLoadUnit slot serial s).1.cond m).injected = (s.cond m).injected := by
  unfold takeLoadUnit
  dsimp only
  repeat' split
  all_goals simp

@[simp] theorem State.cond_restartSilence (s : State) (m : Fin 20) :
    (s.restartSilence).cond m = s.cond m := State.cond_of_cu (by simp) m

@[simp] theorem State.cond_badFrame (s : State) (m : Fin 20) : (s.badFrame).cond m = s.cond m := State.cond_of_cu (by simp) m

@[simp] theorem State.cond_setReceiver (r : Receiver) (s : State) (m : Fin 20) :
    (s.setReceiver r).cond m = s.cond m := State.cond_of_cu (by simp) m

@[simp] theorem State.cond_takeHeader (kind tag lo hi : Byte) (s : State) (m : Fin 20) :
    (s.takeHeader kind tag lo hi).cond m = s.cond m := State.cond_of_cu (by simp) m

@[simp] theorem State.cond_gapTimeout (s : State) (m : Fin 20) :
    (s.gapTimeout).cond m = s.cond m := State.cond_of_cu (by simp) m

@[simp] theorem State.cond_setpointDue (s : State) {m : Fin 20} (hm : NotStarvation m) (h4 : m ≠ 4) :
    (s.setpointDue).cond m = s.cond m := by simp [State.setpointDue, hm, h4]

@[simp] theorem State.settings_setpointDue (s : State) (m : Fin 20) :
    ((s.setpointDue).cond m).severity = (s.cond m).severity ∧ ((s.setpointDue).cond m).vector = (s.cond m).vector ∧
    ((s.setpointDue).cond m).injected = (s.cond m).injected := by simp [State.setpointDue]

@[simp] theorem State.cond_stepExpiry (s : State) {m : Fin 20} (hm : NotStarvation m) (h4 : m ≠ 4) :
    (s.stepExpiry).cond m = s.cond m := by
  unfold State.stepExpiry
  dsimp only
  repeat' split
  all_goals simp [hm, h4]

@[simp] theorem State.settings_stepExpiry (s : State) (m : Fin 20) :
    ((s.stepExpiry).cond m).severity = (s.cond m).severity ∧ ((s.stepExpiry).cond m).vector = (s.cond m).vector ∧
    ((s.stepExpiry).cond m).injected = (s.cond m).injected := by
  unfold State.stepExpiry
  dsimp only
  repeat' split
  all_goals simp

@[simp] theorem State.cond_settleExpiry (s : State) {m : Fin 20} (hm : NotStarvation m) :
    (s.settleExpiry).cond m = s.cond m := by
  unfold State.settleExpiry
  split <;> simp [hm]

@[simp] theorem State.settings_settleExpiry (s : State) (m : Fin 20) :
    ((s.settleExpiry).cond m).severity = (s.cond m).severity ∧ ((s.settleExpiry).cond m).vector = (s.cond m).vector ∧
    ((s.settleExpiry).cond m).injected = (s.cond m).injected := by
  unfold State.settleExpiry
  split <;> simp

@[simp] theorem State.cond_startSlot (stream : SlotStream) (s : State) {m : Fin 20} (hm : NotStarvation m) :
    (s.startSlot stream).cond m = s.cond m := by
  unfold State.startSlot
  split <;> simp [hm]

@[simp] theorem State.settings_startSlot (stream : SlotStream) (s : State) (m : Fin 20) :
    ((s.startSlot stream).cond m).severity = (s.cond m).severity ∧ ((s.startSlot stream).cond m).vector = (s.cond m).vector ∧
    ((s.startSlot stream).cond m).injected = (s.cond m).injected := by
  unfold State.startSlot
  split <;> simp

@[simp] theorem State.cond_endSlot (stream : SlotStream) (s : State) {m : Fin 20} (hm : NotStarvation m) :
    (s.endSlot stream).cond m = s.cond m := by
  unfold State.endSlot
  split <;> simp [hm]

@[simp] theorem State.settings_endSlot (stream : SlotStream) (s : State) (m : Fin 20) :
    ((s.endSlot stream).cond m).severity = (s.cond m).severity ∧ ((s.endSlot stream).cond m).vector = (s.cond m).vector ∧
    ((s.endSlot stream).cond m).injected = (s.cond m).injected := by
  unfold State.endSlot
  split <;> simp

@[simp] theorem State.cond_fillTimeout (c : Fin 4) (s : State) (m : Fin 20) :
    (s.fillTimeout c).cond m = s.cond m := State.cond_of_cu (by simp) m

@[simp] theorem State.cond_settleEnd (c : Fin 4) (s : State) (m : Fin 20) :
    (s.settleEnd c).cond m = s.cond m := State.cond_of_cu (by simp) m

@[simp] theorem State.cond_measureEnd (c : Fin 4) (s : State) (m : Fin 20) :
    (s.measureEnd c).cond m = s.cond m := State.cond_of_cu (by simp) m

@[simp] theorem State.cond_leaveVent (c : Fin 4) (s : State) (m : Fin 20) :
    (s.leaveVent c).cond m = s.cond m := State.cond_of_cu (by simp) m

@[simp] theorem State.cond_ventExpiry (c : Fin 4) (s : State) {m : Fin 20} (hm : NotStarvation m) :
    (s.ventExpiry c).cond m = s.cond m := by
  unfold State.ventExpiry
  split <;> simp [hm]

@[simp] theorem State.settings_ventExpiry (c : Fin 4) (s : State) (m : Fin 20) :
    ((s.ventExpiry c).cond m).severity = (s.cond m).severity ∧ ((s.ventExpiry c).cond m).vector = (s.cond m).vector ∧
    ((s.ventExpiry c).cond m).injected = (s.cond m).injected := by
  unfold State.ventExpiry
  split <;> simp

@[simp] theorem State.cond_resetVentEnd (s : State) (m : Fin 20) :
    (s.resetVentEnd).cond m = s.cond m := State.cond_of_cu (by simp) m

end Sys2Proof.Machine
end

