-- ==== Sys2Proof/Laws/Encoding.lean ====
section
/-! SUPPORT. Little-endian fields: how long they are, and that reading one gives the number written (R169). -/

namespace Sys2Proof.Machine

@[simp] theorem length_leBytes (n v : Nat) : (leBytes n v).length = n := by
  induction n generalizing v with
  | zero => rfl
  | succ n ih => simp [leBytes, ih]

/-- A field reads back as the number written, within its width (R169). -/
theorem leNat_leBytes (n v : Nat) : leNat (leBytes n v) = v % 256 ^ n := by
  induction n generalizing v with
  | zero => simp [leBytes, leNat, Nat.mod_one]
  | succ n ih =>
    simp only [leBytes, leNat, BitVec.toNat_ofNat, ih]
    rw [show 256 ^ (n + 1) = 256 * 256 ^ n from Nat.pow_succ', Nat.mod_mul]

/-- A field holds the low bytes of a number alone. -/
theorem leBytes_mod (n v : Nat) : leBytes n (v % 256 ^ n) = leBytes n v := by
  induction n generalizing v with
  | zero => rfl
  | succ n ih =>
    have h1 : v % 256 ^ (n + 1) / 256 = v / 256 % 256 ^ n := by
      rw [show 256 ^ (n + 1) = 256 * 256 ^ n from Nat.pow_succ', Nat.mod_mul_right_div_self]
    have h2 : BitVec.ofNat 8 (v % 256 ^ (n + 1)) = BitVec.ofNat 8 v := by
      apply BitVec.eq_of_toNat_eq
      simp only [BitVec.toNat_ofNat]
      exact Nat.mod_mod_of_dvd v (Dvd.intro_left (256 ^ n) rfl)
    simp only [leBytes, h1, h2, ih]

/-- A field of two bytes (R169). -/
theorem leBytes_two (v : Nat) : leBytes 2 v = [BitVec.ofNat 8 v, BitVec.ofNat 8 (v / 256)] := rfl

/-- A two-byte field of a body reads back. -/
theorem leNat_two (v : BitVec 16) : leNat (leBytes 2 v.toNat) = v.toNat := by
  rw [leNat_leBytes, Nat.mod_eq_of_lt (by simpa using v.isLt)]

theorem leNat_four (v : BitVec 32) : leNat (leBytes 4 v.toNat) = v.toNat := by
  rw [leNat_leBytes, Nat.mod_eq_of_lt (by simpa using v.isLt)]

theorem bodyHalf_two (v : BitVec 16) (rest : List Byte) : bodyHalf (leBytes 2 v.toNat ++ rest) 0 = v.toNat :=
  (by rfl : bodyHalf (leBytes 2 v.toNat ++ rest) 0 = leNat (leBytes 2 v.toNat)).trans (leNat_two v)

theorem bodyHalf_one (b : Byte) (v : BitVec 16) (rest : List Byte) :
    bodyHalf (b :: (leBytes 2 v.toNat ++ rest)) 1 = v.toNat :=
  (by rfl : bodyHalf (b :: (leBytes 2 v.toNat ++ rest)) 1 = leNat (leBytes 2 v.toNat)).trans (leNat_two v)

theorem bodyHalf_three (b : Byte) (u v : BitVec 16) :
    bodyHalf (b :: (leBytes 2 u.toNat ++ leBytes 2 v.toNat)) 3 = v.toNat :=
  (by rfl : bodyHalf (b :: (leBytes 2 u.toNat ++ leBytes 2 v.toNat)) 3 = leNat (leBytes 2 v.toNat)).trans (leNat_two v)

end Sys2Proof.Machine
end

