-- ==== Sys2Proof/Laws/PerInstr.lean ====
section
/-! SUPPORT. A statement about every constructor of `Instr`, and its proof for each: a host command's frame is a command frame of a kind
and a length that the Line Port accepts, and its owner reads the command back from it; an event has no frame. -/

namespace Sys2Proof.Laws

open Sys2Proof.Machine

/-- The frame of a well-formed host command fits the line (R157, R158), has a kind of spec/10 section 10.2, and, where its body has the
length that its kind asks for (R160), spells the command; an event spells none. -/
def CommandFrame.Statement (i : Instr) : Prop :=
  (commandFrame i = none ∧ hostCommand i = none) ∨
  ∃ f, commandFrame i = some f ∧ (i.wf = true → f.kind.toNat < 0x40 ∧ f.body.length ≤ 1024 ∧
    ∃ least most, bodyLimits f.kind = some (least, most) ∧
      (within least most f.body.length = true → readCommand f.kind f.body = hostCommand i ∧ (hostCommand i).isSome = true))

theorem CommandFrame.powerOn : CommandFrame.Statement .powerOn := .inl ⟨rfl, rfl⟩

theorem CommandFrame.resetLine : CommandFrame.Statement .resetLine := .inl ⟨rfl, rfl⟩

theorem CommandFrame.startupScanEnd : CommandFrame.Statement .startupScanEnd := .inl ⟨rfl, rfl⟩

theorem CommandFrame.frameReceived (bytes : List Byte) : CommandFrame.Statement (.frameReceived bytes) := .inl ⟨rfl, rfl⟩

theorem CommandFrame.frameGapTimeout : CommandFrame.Statement .frameGapTimeout := .inl ⟨rfl, rfl⟩

theorem CommandFrame.frameSent : CommandFrame.Statement .frameSent := .inl ⟨rfl, rfl⟩

theorem CommandFrame.lineSilenceExpiry : CommandFrame.Statement .lineSilenceExpiry := .inl ⟨rfl, rfl⟩

theorem CommandFrame.status (tag : Byte) : CommandFrame.Statement (.status tag) :=
  .inr ⟨_, rfl, fun _ => ⟨by simp, by simp, _, _, rfl, fun _ => ⟨rfl, rfl⟩⟩⟩

theorem CommandFrame.identify (tag : Byte) : CommandFrame.Statement (.identify tag) :=
  .inr ⟨_, rfl, fun _ => ⟨by simp, by simp, _, _, rfl, fun _ => ⟨rfl, rfl⟩⟩⟩

theorem CommandFrame.restart (tag : Byte) : CommandFrame.Statement (.restart tag) :=
  .inr ⟨_, rfl, fun _ => ⟨by simp, by simp, _, _, rfl, fun _ => ⟨rfl, rfl⟩⟩⟩

theorem CommandFrame.loadUnit (tag : Byte) (slot : Byte) (serial : List Byte) :
    CommandFrame.Statement (.loadUnit tag slot serial) := by
  refine .inr ⟨_, rfl, fun h => ?_⟩
  have h : 1 + serial.length ≤ 1024 := of_decide_eq_true h
  exact ⟨by simp, by simp only [List.length_cons]; omega, _, _, rfl, fun _ => ⟨rfl, rfl⟩⟩

theorem CommandFrame.startRun (tag : Byte) (id : BitVec 16) : CommandFrame.Statement (.startRun tag id) := by
  refine .inr ⟨_, rfl, fun _ => ⟨by simp, by simp, _, _, rfl, fun _ => ⟨?_, rfl⟩⟩⟩
  exact congrArg (fun n => some (Command.startRun n)) (bodyHalf_two id [])

theorem CommandFrame.abortUnit (tag : Byte) (id : BitVec 16) : CommandFrame.Statement (.abortUnit tag id) := by
  refine .inr ⟨_, rfl, fun _ => ⟨by simp, by simp, _, _, rfl, fun _ => ⟨?_, rfl⟩⟩⟩
  exact congrArg (fun n => some (Command.abortUnit n)) (bodyHalf_two id [])

theorem CommandFrame.unitGet (tag : Byte) (id : BitVec 16) : CommandFrame.Statement (.unitGet tag id) := by
  refine .inr ⟨_, rfl, fun _ => ⟨by simp, by simp, _, _, rfl, fun _ => ⟨?_, rfl⟩⟩⟩
  exact congrArg (fun n => some (Command.unitGet n)) (bodyHalf_two id [])

theorem CommandFrame.advanceStep (tag : Byte) : CommandFrame.Statement (.advanceStep tag) :=
  .inr ⟨_, rfl, fun _ => ⟨by simp, by simp, _, _, rfl, fun _ => ⟨rfl, rfl⟩⟩⟩

theorem CommandFrame.streamGet (tag : Byte) : CommandFrame.Statement (.streamGet tag) :=
  .inr ⟨_, rfl, fun _ => ⟨by simp, by simp, _, _, rfl, fun _ => ⟨rfl, rfl⟩⟩⟩

theorem CommandFrame.condList (tag : Byte) : CommandFrame.Statement (.condList tag) :=
  .inr ⟨_, rfl, fun _ => ⟨by simp, by simp, _, _, rfl, fun _ => ⟨rfl, rfl⟩⟩⟩

theorem CommandFrame.condGet (tag : Byte) (number : Byte) : CommandFrame.Statement (.condGet tag number) :=
  .inr ⟨_, rfl, fun _ => ⟨by simp, by simp, _, _, rfl, fun _ => ⟨rfl, rfl⟩⟩⟩

theorem CommandFrame.condAck (tag : Byte) (number : Byte) : CommandFrame.Statement (.condAck tag number) :=
  .inr ⟨_, rfl, fun _ => ⟨by simp, by simp, _, _, rfl, fun _ => ⟨rfl, rfl⟩⟩⟩

theorem CommandFrame.condInject (tag : Byte) (number : Byte) : CommandFrame.Statement (.condInject tag number) :=
  .inr ⟨_, rfl, fun _ => ⟨by simp, by simp, _, _, rfl, fun _ => ⟨rfl, rfl⟩⟩⟩

theorem CommandFrame.condConfig (tag : Byte) (number : Byte) (severity : Byte) (vector : Byte) :
    CommandFrame.Statement (.condConfig tag number severity vector) :=
  .inr ⟨_, rfl, fun _ => ⟨by simp, by simp, _, _, rfl, fun _ => ⟨rfl, rfl⟩⟩⟩

theorem CommandFrame.setMask (tag : Byte) (level : Byte) : CommandFrame.Statement (.setMask tag level) :=
  .inr ⟨_, rfl, fun _ => ⟨by simp, by simp, _, _, rfl, fun _ => ⟨rfl, rfl⟩⟩⟩

theorem CommandFrame.resume (tag : Byte) : CommandFrame.Statement (.resume tag) :=
  .inr ⟨_, rfl, fun _ => ⟨by simp, by simp, _, _, rfl, fun _ => ⟨rfl, rfl⟩⟩⟩

theorem CommandFrame.reportGet (tag : Byte) : CommandFrame.Statement (.reportGet tag) :=
  .inr ⟨_, rfl, fun _ => ⟨by simp, by simp, _, _, rfl, fun _ => ⟨rfl, rfl⟩⟩⟩

theorem CommandFrame.reportRelease (tag : Byte) (id : BitVec 16) : CommandFrame.Statement (.reportRelease tag id) := by
  refine .inr ⟨_, rfl, fun _ => ⟨by simp, by simp, _, _, rfl, fun _ => ⟨?_, rfl⟩⟩⟩
  exact congrArg (fun n => some (Command.reportRelease n)) (bodyHalf_two id [])

theorem CommandFrame.slotErase (tag : Byte) (slot : Byte) : CommandFrame.Statement (.slotErase tag slot) :=
  .inr ⟨_, rfl, fun _ => ⟨by simp, by simp, _, _, rfl, fun _ => ⟨rfl, rfl⟩⟩⟩

theorem CommandFrame.slotBlank (tag : Byte) (slot : Byte) : CommandFrame.Statement (.slotBlank tag slot) :=
  .inr ⟨_, rfl, fun _ => ⟨by simp, by simp, _, _, rfl, fun _ => ⟨rfl, rfl⟩⟩⟩

theorem CommandFrame.slotWrite (tag : Byte) (slot : Byte) (offset : BitVec 16) (data : List Byte) :
    CommandFrame.Statement (.slotWrite tag slot offset data) := by
  refine .inr ⟨_, rfl, fun h => ?_⟩
  have h : 3 + data.length ≤ 1024 := of_decide_eq_true h
  refine ⟨by simp, by simp; omega, _, _, rfl, fun _ => ⟨?_, rfl⟩⟩
  exact congrArg (fun n => some (Command.slotWrite slot n data)) (bodyHalf_one slot offset data)

theorem CommandFrame.slotClose (tag : Byte) (slot : Byte) : CommandFrame.Statement (.slotClose tag slot) :=
  .inr ⟨_, rfl, fun _ => ⟨by simp, by simp, _, _, rfl, fun _ => ⟨rfl, rfl⟩⟩⟩

theorem CommandFrame.slotVerify (tag : Byte) (slot : Byte) (digest : Word32) :
    CommandFrame.Statement (.slotVerify tag slot digest) := by
  refine .inr ⟨_, rfl, fun _ => ⟨by simp, by simp, _, _, rfl, fun _ => ⟨?_, rfl⟩⟩⟩
  exact congrArg (fun n => some (Command.slotVerify slot n))
    ((congrArg (BitVec.ofNat 32) (leNat_four digest)).trans (BitVec.ofNat_toNat 32 digest |>.trans (by simp)))

theorem CommandFrame.slotRead (tag : Byte) (slot : Byte) (offset : BitVec 16) (length : BitVec 16) :
    CommandFrame.Statement (.slotRead tag slot offset length) := by
  refine .inr ⟨_, rfl, fun _ => ⟨by simp, by simp, _, _, rfl, fun _ => ⟨?_, rfl⟩⟩⟩
  exact congrArg₂ (fun n m => some (Command.slotRead slot n m)) (bodyHalf_one slot offset _) (bodyHalf_three slot offset length)

theorem CommandFrame.slotInfo (tag : Byte) (slot : Byte) : CommandFrame.Statement (.slotInfo tag slot) :=
  .inr ⟨_, rfl, fun _ => ⟨by simp, by simp, _, _, rfl, fun _ => ⟨rfl, rfl⟩⟩⟩

theorem CommandFrame.eraseComplete (slot : Fin 16) : CommandFrame.Statement (.eraseComplete slot) := .inl ⟨rfl, rfl⟩

theorem CommandFrame.closeComplete (slot : Fin 16) : CommandFrame.Statement (.closeComplete slot) := .inl ⟨rfl, rfl⟩

theorem CommandFrame.arrive2Rise : CommandFrame.Statement .arrive2Rise := .inl ⟨rfl, rfl⟩

theorem CommandFrame.transferTimerExpiry : CommandFrame.Statement .transferTimerExpiry := .inl ⟨rfl, rfl⟩

theorem CommandFrame.transferStart : CommandFrame.Statement .transferStart := .inl ⟨rfl, rfl⟩

theorem CommandFrame.leakStart : CommandFrame.Statement .leakStart := .inl ⟨rfl, rfl⟩

theorem CommandFrame.enterRunDone : CommandFrame.Statement .enterRunDone := .inl ⟨rfl, rfl⟩

theorem CommandFrame.unitDone : CommandFrame.Statement .unitDone := .inl ⟨rfl, rfl⟩

theorem CommandFrame.setpointUpdate : CommandFrame.Statement .setpointUpdate := .inl ⟨rfl, rfl⟩

theorem CommandFrame.driveFeedback (speed : Int) (ready : Bool) (fault : Bool) :
    CommandFrame.Statement (.driveFeedback speed ready fault) := .inl ⟨rfl, rfl⟩

theorem CommandFrame.stepTimerExpiry : CommandFrame.Statement .stepTimerExpiry := .inl ⟨rfl, rfl⟩

theorem CommandFrame.windowSettleExpiry : CommandFrame.Statement .windowSettleExpiry := .inl ⟨rfl, rfl⟩

theorem CommandFrame.windowDrainClose : CommandFrame.Statement .windowDrainClose := .inl ⟨rfl, rfl⟩

theorem CommandFrame.encoderIndex (us : Nat) (x : AngleSample) : CommandFrame.Statement (.encoderIndex us x) := .inl ⟨rfl, rfl⟩

theorem CommandFrame.revolutionTimeout : CommandFrame.Statement .revolutionTimeout := .inl ⟨rfl, rfl⟩

theorem CommandFrame.analysisComplete : CommandFrame.Statement .analysisComplete := .inl ⟨rfl, rfl⟩

theorem CommandFrame.timeSlotStart (stream : SlotStream) : CommandFrame.Statement (.timeSlotStart stream) := .inl ⟨rfl, rfl⟩

theorem CommandFrame.timeSlotEnd (stream : SlotStream) : CommandFrame.Statement (.timeSlotEnd stream) := .inl ⟨rfl, rfl⟩

theorem CommandFrame.planApply : CommandFrame.Statement .planApply := .inl ⟨rfl, rfl⟩

theorem CommandFrame.slowSample (x : SlowSample) : CommandFrame.Statement (.slowSample x) := .inl ⟨rfl, rfl⟩

theorem CommandFrame.leakSample (x : LeakSample) : CommandFrame.Statement (.leakSample x) := .inl ⟨rfl, rfl⟩

theorem CommandFrame.fillGrant : CommandFrame.Statement .fillGrant := .inl ⟨rfl, rfl⟩

theorem CommandFrame.fillTimeout (c : Fin 4) : CommandFrame.Statement (.fillTimeout c) := .inl ⟨rfl, rfl⟩

theorem CommandFrame.settleExpiry (c : Fin 4) : CommandFrame.Statement (.settleExpiry c) := .inl ⟨rfl, rfl⟩

theorem CommandFrame.measureTimerExpiry (c : Fin 4) : CommandFrame.Statement (.measureTimerExpiry c) := .inl ⟨rfl, rfl⟩

theorem CommandFrame.attemptEvaluation (c : Fin 4) : CommandFrame.Statement (.attemptEvaluation c) := .inl ⟨rfl, rfl⟩

theorem CommandFrame.ventExpiry (c : Fin 4) : CommandFrame.Statement (.ventExpiry c) := .inl ⟨rfl, rfl⟩

theorem CommandFrame.resetVentEnd : CommandFrame.Statement .resetVentEnd := .inl ⟨rfl, rfl⟩

theorem CommandFrame.conditionLineChange (line : CondLine) (b : Bool) :
    CommandFrame.Statement (.conditionLineChange line b) := .inl ⟨rfl, rfl⟩

theorem CommandFrame.keyChange (b : Bool) : CommandFrame.Statement (.keyChange b) := .inl ⟨rfl, rfl⟩

theorem CommandFrame.conditionTake : CommandFrame.Statement .conditionTake := .inl ⟨rfl, rfl⟩

theorem CommandFrame.encoderPulse (us : Nat) (forward : Bool) (x : AngleSample) :
    CommandFrame.Statement (.encoderPulse us forward x) := .inl ⟨rfl, rfl⟩

end Sys2Proof.Laws
end

