-- ==== Sys2Proof/Laws/Units.lean ====
section
/-! SUPPORT. Finding a unit: what the searches of the Unit Table answer where the record they look for is the only one, and which recipe
governs a station then. -/

namespace Sys2Proof.Machine

/-- The search of a table of indices finds the one index that satisfies it. -/
theorem find_finRange_unique {n : Nat} {p : Fin n → Bool} {i : Fin n} (hi : p i = true) (hu : ∀ j, p j = true → j = i) :
    (List.finRange n).find? p = some i := by
  cases h : (List.finRange n).find? p with
  | none => exact absurd hi (by simpa using List.find?_eq_none.1 h i (List.mem_finRange i))
  | some j => rw [hu j (List.find?_some h)]

theorem find_finRange_none {n : Nat} {p : Fin n → Bool} (h : ∀ i, p i = false) : (List.finRange n).find? p = none := by
  simp [List.find?_eq_none, h]

/-- The search of the Unit Table finds the only record that satisfies it. -/
theorem UnitTable.find_unique {ut : UnitTable} {p : UnitState → Bool} {i : Fin 8} {r : UnitRecord}
    (hi : ut.records[i] = some r) (hp : p r.state = true)
    (hu : ∀ j : Fin 8, ∀ r' : UnitRecord, ut.records[j] = some r' → p r'.state = true → j = i) : ut.find p = some i := by
  refine find_finRange_unique (by simp only [hi]; exact hp) fun j hj => ?_
  cases h : ut.records[j] with
  | none => simp [h] at hj
  | some r' => simp only [h] at hj; exact hu j r' h hj

theorem UnitTable.find_none {ut : UnitTable} {p : UnitState → Bool}
    (h : ∀ (j : Fin 8) (r : UnitRecord), ut.records[j] = some r → p r.state = false) : ut.find p = none := by
  refine find_finRange_none fun j => ?_
  cases hj : ut.records[j] with
  | none => rfl
  | some r => exact h j r hj

/-- What the search of the Unit Table finds is in use, and satisfies it. -/
theorem UnitTable.find_some {ut : UnitTable} {p : UnitState → Bool} {i : Fin 8} (h : ut.find p = some i) :
    ∃ r, ut.records[i] = some r ∧ p r.state = true := by
  have := List.find?_some h
  cases hr : ut.records[i] with
  | none => simp [hr] at this
  | some r => exact ⟨r, rfl, by simpa [hr] using this⟩

theorem UnitTable.find_eq_none {ut : UnitTable} {p : UnitState → Bool} (h : ut.find p = none) (j : Fin 8) (r : UnitRecord)
    (hr : ut.records[j] = some r) : p r.state = false := by
  have := List.find?_eq_none.1 h j (List.mem_finRange j)
  simpa [hr] using this

theorem IsUnitIn.find {u : UnitState} {i : Fin 8} {r : UnitRecord} {s : State} (h : IsUnitIn u i r s) :
    s.ut.find (fun v => decide (v = u)) = some i := by
  refine UnitTable.find_unique h.1 (by simp [h.2.1]) fun j r' hj hu => ?_
  by_contra hne
  exact h.2.2 j hne r' hj (by simpa using hu)

theorem NoUnitIn.find {u : UnitState} {s : State} (h : NoUnitIn u s) : s.ut.find (fun v => decide (v = u)) = none :=
  UnitTable.find_none fun j r hj => by simp [h j r hj]

/-- The unit of a state as the blocks ask for it. -/
theorem IsUnitIn.running {i : Fin 8} {r : UnitRecord} {s : State} (h : IsUnitIn .running i r s) : s.runningUnit = some i := h.find

theorem IsUnitIn.leaking {i : Fin 8} {r : UnitRecord} {s : State} (h : IsUnitIn .leaking i r s) : s.leakingUnit = some i := h.find

theorem CarriesId.find {id : Nat} {i : Fin 8} {r : UnitRecord} {s : State} (h : CarriesId id i r s) :
    s.ut.findId id = some i := by
  refine find_finRange_unique (by simp only [h.1]; simp [h.2.1]) fun j hj => ?_
  by_contra hne
  cases hr : s.ut.records[j] with
  | none => simp [hr] at hj
  | some r' => simp only [hr, decide_eq_true_eq] at hj; exact h.2.2 j hne r' hr hj

theorem NoUnitCarries.find {id : Nat} {s : State} (h : NoUnitCarries id s) : s.ut.findId id = none := by
  refine find_finRange_none fun j => ?_
  cases hr : s.ut.records[j] with
  | none => rfl
  | some r => simp [h j r hr]

/-- The unit at station 1 where the law of the stations holds (R5). -/
theorem StationLaw.unit1 {s : State} (h : StationLaw s) {i : Fin 8} {r : UnitRecord} (hi : s.ut.records[i] = some r)
    (hr : r.state.atStation1 = true) : s.unit1 = some i :=
  UnitTable.find_unique hi hr fun j r' hj hr' => ((h i j r r' hi hj).1 hr hr').symm

/-- The unit at station 2 where the law of the stations holds (R5). -/
theorem StationLaw.unit2 {s : State} (h : StationLaw s) {i : Fin 8} {r : UnitRecord} (hi : s.ut.records[i] = some r)
    (hr : r.state.atStation2 = true) : s.unit2 = some i :=
  UnitTable.find_unique hi hr fun j r' hj hr' => ((h i j r r' hi hj).2 hr hr').symm

theorem unit2_eq_none (s : State) : s.unit2 = none ↔ Station2Free s :=
  ⟨fun h j r hr => UnitTable.find_eq_none h j r hr, fun h => UnitTable.find_none h⟩

/-- The recipe of a station's unit governs it (R38). -/
theorem State.recipe1_of {s : State} {i : Fin 8} {r : UnitRecord} (h : s.unit1 = some i) (hi : s.ut.records[i] = some r) :
    s.recipe1 = some (s.recipeOf r) := by simp only [State.recipe1, h, Option.bind_some, hi, Option.map_some]

theorem State.recipe2_of {s : State} {i : Fin 8} {r : UnitRecord} (h : s.unit2 = some i) (hi : s.ut.records[i] = some r) :
    s.recipe2 = some (s.recipeOf r) := by simp only [State.recipe2, h, Option.bind_some, hi, Option.map_some]

/-! ## Records after a change -/

theorem State.records_mapUnit (i j : Fin 8) (f : UnitRecord → UnitRecord) (s : State) :
    (s.mapUnit i f).ut.records[j] = if j = i then (s.ut.records[i]).map f else s.ut.records[j] := by
  simp only [State.mapUnit, State.setUt_ut, Fin.getElem_fin, Vector.getElem_set, Fin.ext_iff]
  by_cases h : j.val = i.val
  · simp [h]
  · rw [if_neg fun e => h e.symm, if_neg h]

@[simp] theorem State.records_mapUnit_self (i : Fin 8) (f : UnitRecord → UnitRecord) (s : State) :
    (s.mapUnit i f).ut.records[i] = (s.ut.records[i]).map f := by rw [State.records_mapUnit, if_pos rfl]

theorem State.records_mapUnit_ne {i j : Fin 8} (h : j ≠ i) (f : UnitRecord → UnitRecord) (s : State) :
    (s.mapUnit i f).ut.records[j] = s.ut.records[j] := by rw [State.records_mapUnit, if_neg h]

@[simp] theorem State.enterState_ut (i : Fin 8) (u : UnitState) (s : State) :
    (s.enterState i u).ut = (s.mapUnit i fun r => { r with state := u }).ut := by simp [State.enterState]

/-- The unit of an index is kept by an operation that leaves the Unit Table. -/
theorem IsUnitIn.congr {u : UnitState} {i : Fin 8} {r : UnitRecord} {s t : State} (h : IsUnitIn u i r s) (ht : t.ut = s.ut) :
    IsUnitIn u i r t := by unfold IsUnitIn at *; rw [ht]; exact h

theorem StationLaw.congr {s t : State} (h : StationLaw s) (ht : t.ut = s.ut) : StationLaw t := by
  unfold StationLaw at *; rw [ht]; exact h

theorem State.recipe1_congr {s t : State} (hu : t.ut = s.ut) (hr : t.rs = s.rs) : t.recipe1 = s.recipe1 := by
  simp [State.recipe1, State.unit1, State.recipeOf, hu, hr]

theorem State.recipe2_congr {s t : State} (hu : t.ut = s.ut) (hr : t.rs = s.rs) : t.recipe2 = s.recipe2 := by
  simp [State.recipe2, State.unit2, State.recipeOf, hu, hr]

theorem State.chamberPlan_congr {s t : State} (hu : t.ut = s.ut) (hr : t.rs = s.rs) (c : Fin 4) :
    t.chamberPlan c = s.chamberPlan c := by
  simp only [State.chamberPlan, State.recipe2_congr hu hr]

/-! ## The same facts of a table, as a search shows them -/

/-- A record that is the only one in its state, by a test of the other seven. -/
theorem isUnitIn_of {u : UnitState} {i : Fin 8} {r : UnitRecord} {s : State} (hi : s.ut.records[i] = some r) (hu : r.state = u)
    (h : ∀ j : Fin 8, j ≠ i → (s.ut.records[j]).any (fun r' => decide (r'.state = u)) = false) : IsUnitIn u i r s :=
  ⟨hi, hu, fun j hj r' hr => by simpa [hr] using h j hj⟩

theorem noUnitIn_of {u : UnitState} {s : State}
    (h : ∀ j : Fin 8, (s.ut.records[j]).any (fun r' => decide (r'.state = u)) = false) : NoUnitIn u s :=
  fun j r hr => by simpa [hr] using h j

/-- A record that is the only one with its id, by a test of the other seven. -/
theorem carriesId_of {id : Nat} {i : Fin 8} {r : UnitRecord} {s : State} (hi : s.ut.records[i] = some r) (hu : r.id = id)
    (h : ∀ j : Fin 8, j ≠ i → (s.ut.records[j]).any (fun r' => decide (r'.id = id)) = false) : CarriesId id i r s :=
  ⟨hi, hu, fun j hj r' hr => by simpa [hr] using h j hj⟩

theorem noUnitCarries_of {id : Nat} {s : State}
    (h : ∀ j : Fin 8, (s.ut.records[j]).any (fun r' => decide (r'.id = id)) = false) : NoUnitCarries id s :=
  fun j r hr => by simpa [hr] using h j

theorem station2Free_of {s : State}
    (h : ∀ j : Fin 8, (s.ut.records[j]).any (fun r => r.state.atStation2) = false) : Station2Free s :=
  fun j r hr => by simpa [hr] using h j

/-- The stations' law, by a test of every two records. -/
theorem stationLaw_of {s : State}
    (h : ∀ i j : Fin 8, i ≠ j →
      ((s.ut.records[i]).any (fun r => r.state.atStation1) && (s.ut.records[j]).any fun r => r.state.atStation1) = false ∧
      ((s.ut.records[i]).any (fun r => r.state.atStation2) && (s.ut.records[j]).any fun r => r.state.atStation2) = false) :
    StationLaw s := by
  intro i j r r' hi hj
  by_cases he : i = j
  · exact ⟨fun _ _ => he, fun _ _ => he⟩
  · have := h i j he
    simp only [hi, hj, Option.any_some] at this
    exact ⟨fun h1 h2 => by simp [h1, h2] at this, fun h1 h2 => by simp [h1, h2] at this⟩

end Sys2Proof.Machine
end

