-- ==== Sys2Proof/Laws/Host.lean ====
section
/-! SUPPORT. The way of a host command: its row is the arrival of its frame, the frame in the free head is handled at once, and what is
answered and what is left of the line follow from what the owner did. -/

namespace Sys2Proof.Machine

/-- Every constructor of `Instr` has its statement of Laws/PerInstr.lean. -/
theorem commandFrame_statement (c : Instr) : Laws.CommandFrame.Statement c := by
  cases c with
  | powerOn => exact Laws.CommandFrame.powerOn
  | resetLine => exact Laws.CommandFrame.resetLine
  | startupScanEnd => exact Laws.CommandFrame.startupScanEnd
  | frameReceived bytes => exact Laws.CommandFrame.frameReceived bytes
  | frameGapTimeout => exact Laws.CommandFrame.frameGapTimeout
  | frameSent => exact Laws.CommandFrame.frameSent
  | lineSilenceExpiry => exact Laws.CommandFrame.lineSilenceExpiry
  | status tag => exact Laws.CommandFrame.status tag
  | identify tag => exact Laws.CommandFrame.identify tag
  | restart tag => exact Laws.CommandFrame.restart tag
  | loadUnit tag slot serial => exact Laws.CommandFrame.loadUnit tag slot serial
  | startRun tag id => exact Laws.CommandFrame.startRun tag id
  | abortUnit tag id => exact Laws.CommandFrame.abortUnit tag id
  | unitGet tag id => exact Laws.CommandFrame.unitGet tag id
  | advanceStep tag => exact Laws.CommandFrame.advanceStep tag
  | streamGet tag => exact Laws.CommandFrame.streamGet tag
  | condList tag => exact Laws.CommandFrame.condList tag
  | condGet tag number => exact Laws.CommandFrame.condGet tag number
  | condAck tag number => exact Laws.CommandFrame.condAck tag number
  | condInject tag number => exact Laws.CommandFrame.condInject tag number
  | condConfig tag number severity vector => exact Laws.CommandFrame.condConfig tag number severity vector
  | setMask tag level => exact Laws.CommandFrame.setMask tag level
  | resume tag => exact Laws.CommandFrame.resume tag
  | reportGet tag => exact Laws.CommandFrame.reportGet tag
  | reportRelease tag id => exact Laws.CommandFrame.reportRelease tag id
  | slotErase tag slot => exact Laws.CommandFrame.slotErase tag slot
  | slotBlank tag slot => exact Laws.CommandFrame.slotBlank tag slot
  | slotWrite tag slot offset data => exact Laws.CommandFrame.slotWrite tag slot offset data
  | slotClose tag slot => exact Laws.CommandFrame.slotClose tag slot
  | slotVerify tag slot digest => exact Laws.CommandFrame.slotVerify tag slot digest
  | slotRead tag slot offset length => exact Laws.CommandFrame.slotRead tag slot offset length
  | slotInfo tag slot => exact Laws.CommandFrame.slotInfo tag slot
  | eraseComplete slot => exact Laws.CommandFrame.eraseComplete slot
  | closeComplete slot => exact Laws.CommandFrame.closeComplete slot
  | arrive2Rise => exact Laws.CommandFrame.arrive2Rise
  | transferTimerExpiry => exact Laws.CommandFrame.transferTimerExpiry
  | transferStart => exact Laws.CommandFrame.transferStart
  | leakStart => exact Laws.CommandFrame.leakStart
  | enterRunDone => exact Laws.CommandFrame.enterRunDone
  | unitDone => exact Laws.CommandFrame.unitDone
  | setpointUpdate => exact Laws.CommandFrame.setpointUpdate
  | driveFeedback speed ready fault => exact Laws.CommandFrame.driveFeedback speed ready fault
  | stepTimerExpiry => exact Laws.CommandFrame.stepTimerExpiry
  | windowSettleExpiry => exact Laws.CommandFrame.windowSettleExpiry
  | windowDrainClose => exact Laws.CommandFrame.windowDrainClose
  | encoderIndex us x => exact Laws.CommandFrame.encoderIndex us x
  | revolutionTimeout => exact Laws.CommandFrame.revolutionTimeout
  | analysisComplete => exact Laws.CommandFrame.analysisComplete
  | timeSlotStart stream => exact Laws.CommandFrame.timeSlotStart stream
  | timeSlotEnd stream => exact Laws.CommandFrame.timeSlotEnd stream
  | planApply => exact Laws.CommandFrame.planApply
  | slowSample x => exact Laws.CommandFrame.slowSample x
  | leakSample x => exact Laws.CommandFrame.leakSample x
  | fillGrant => exact Laws.CommandFrame.fillGrant
  | fillTimeout c => exact Laws.CommandFrame.fillTimeout c
  | settleExpiry c => exact Laws.CommandFrame.settleExpiry c
  | measureTimerExpiry c => exact Laws.CommandFrame.measureTimerExpiry c
  | attemptEvaluation c => exact Laws.CommandFrame.attemptEvaluation c
  | ventExpiry c => exact Laws.CommandFrame.ventExpiry c
  | resetVentEnd => exact Laws.CommandFrame.resetVentEnd
  | conditionLineChange line b => exact Laws.CommandFrame.conditionLineChange line b
  | keyChange b => exact Laws.CommandFrame.keyChange b
  | conditionTake => exact Laws.CommandFrame.conditionTake
  | encoderPulse us forward x => exact Laws.CommandFrame.encoderPulse us forward x

/-- The row of a host command is the arrival of its frame (log 1). -/
theorem exec_of_frame {c : Instr} {f : Frame} (h : commandFrame c = some f) (s : State) : exec c s = finish (s.arriveFrame f) := by
  cases c <;> simp only [commandFrame, Option.some.injEq, reduceCtorEq] at h <;> subst h <;> rfl

/-- The machine as the owner of a command finds it: the frame in the head, the line silence timer restarted (R159, R167). -/
def State.headed (f : Frame) (s : State) : State := s.setLp { s.lp with head := some f, silence := s.silenceAfterFrame }

@[simp] theorem State.headed_frame (f : Frame) (s : State) :
    (s.headed f).pending = s.pending ∧ (s.headed f).clockUs = s.clockUs ∧ (s.headed f).freeCount = s.freeCount ∧
    (s.headed f).lines = s.lines ∧ (s.headed f).ut = s.ut ∧ (s.headed f).rs = s.rs ∧ (s.headed f).pe = s.pe ∧
    (s.headed f).afe = s.afe ∧ (s.headed f).cs = s.cs ∧ (s.headed f).oa = s.oa ∧ (s.headed f).lkc = s.lkc ∧
    (s.headed f).cu = s.cu ∧ (s.headed f).reports = s.reports := by simp [State.headed]

@[simp] theorem State.headed_lp (f : Frame) (s : State) :
    (s.headed f).lp = { s.lp with head := some f, silence := s.silenceAfterFrame } := rfl

@[simp] theorem State.headed_now (f : Frame) (s : State) : (s.headed f).now = s.now := rfl

theorem State.restartSilence_eq (s : State) : s.restartSilence = s.setLp { s.lp with silence := s.silenceAfterFrame } := by
  unfold State.restartSilence State.silenceAfterFrame
  cases h : s.lp.silence with
  | disarmed =>
    have : ({ s.lp with silence := Silence.disarmed } : LinePort) = s.lp := by rw [← h]
    show s = s.setLp { s.lp with silence := Silence.disarmed }
    rw [this, State.setLp_self]
  | running left => rfl
  | expired => rfl

/-- A command frame that finds the head free is handled (R159, R160). -/
theorem arriveFrame_headed {f : Frame} {s : State} (hk : f.kind.toNat < 0x40) (hb : f.body.length ≤ 1024) (hh : s.lp.head = none) :
    s.arriveFrame f = (s.headed f).handle f := by
  unfold State.arriveFrame
  rw [if_neg (by omega)]
  unfold State.passFrame
  rw [State.restartSilence_eq]
  simp only
  rw [if_neg (by omega)]
  unfold State.offer
  simp [hh, State.headed]

/-- After a command is handled, the arbiter has chosen, and the reply is in its place (R161, R166). -/
theorem arbitrate_handled (f : Frame) (u : State) (r : Reply) :
    let t := arbitrate (u.setLp { u.lp with reply := some (replyTo f r) })
    t.lp = if u.lp.sending = none then { u.lp with reply := none, sending := some (.reply (replyTo f r)) }
      else { u.lp with reply := some (replyTo f r) } := by
  intro t
  cases h : u.lp.sending <;> simp [t, arbitrate, h]

/-- The arbiter's choice does not depend on the receiver, the holding, the counts or the silence timer, and leaves them. -/
theorem arbitrate_rest (s : State) (receiver : Receiver) (head second : Option Frame) (bad lost : Nat) (silence : Silence)
    (due : Bool) :
    (arbitrate (s.setLp { s.lp with
      receiver := receiver, head := head, second := second, badFrames := bad, overruns := lost, silence := silence
      restartDue := due })).lp =
    { (arbitrate s).lp with
      receiver := receiver, head := head, second := second, badFrames := bad, overruns := lost, silence := silence
      restartDue := due } := by
  unfold arbitrate
  cases hse : s.lp.sending <;> cases hre : s.lp.reply <;> cases hno : s.lp.notices <;> simp [hse, hre, hno]

/-- What a host command that finds the head free leaves: the outcome of its serving, answered (R159 to R161, R166, R167). -/
theorem exec_served {c : Instr} {f : Frame} {s : State} (hc : commandFrame c = some f) (hw : c.wf = true) (hh : s.lp.head = none) :
    ∃ t, exec c s = .next t ∧ Answered f (serve f (s.headed f)).2 s t ∧
      (t.pending = s.pending) ∧ (∀ b : Part, b ≠ .lp → b.same (serve f (s.headed f)).1 t) ∧
      t.lp.notices = (serve f (s.headed f)).1.lp.notices ∧ t.lp.restartDue = (serve f (s.headed f)).1.lp.restartDue ∧
      t.lp.silence = (serve f (s.headed f)).1.lp.silence := by
  have hs := commandFrame_statement c
  rcases hs with ⟨h, -⟩ | ⟨f', hf, hs⟩
  · rw [h] at hc; cases hc
  rw [hf] at hc; cases hc
  obtain ⟨hk, hb, -⟩ := hs hw
  refine ⟨_, by rw [exec_of_frame hf, arriveFrame_headed hk hb hh]; rfl, ?_⟩
  have hl := arbitrate_handled f (serve f (s.headed f)).1 (serve f (s.headed f)).2
  refine ⟨?_, by simp [State.handle], fun b hb => by cases b <;> simp_all [Part.same, State.handle], ?_⟩
  · simp only [State.handle, Answered, hl]
    cases hsend : s.lp.sending <;> simp [hsend, replyTo]
  · simp only [State.handle, hl]
    split <;> simp

/-- A command whose owner changes nothing is only answered. -/
theorem exec_only_answers {c : Instr} {f : Frame} {s : State} {r : Reply} (hc : commandFrame c = some f) (hw : c.wf = true)
    (hh : s.lp.head = none) (hs : serve f (s.headed f) = (s.headed f, r)) : ∃ t, exec c s = .next t ∧ OnlyAnswers f r s t := by
  obtain ⟨t, ht, ha, hp, hb, hn, hd, hl⟩ := exec_served hc hw hh
  rw [hs] at ha hb hn hd hl
  refine ⟨t, ht, ⟨hp, fun b hb' => ?_⟩, ha, by simpa using hn, by simpa using hd, by simpa using hl⟩
  have := hb b (by simpa using hb')
  cases b <;> simp_all [Part.same]

/-- Once the scan is over a command of the right length reaches its owner (R160). -/
theorem serve_eq_take {c : Instr} {f : Frame} {cmd : Command} {s : State} (hc : commandFrame c = some f) (hw : c.wf = true)
    (hs : s.rs.scanning = false) (hcmd : hostCommand c = some cmd)
    (hb : ∀ lim, bodyLimits f.kind = some lim → within lim.1 lim.2 f.body.length = true) : serve f s = take cmd s := by
  rcases commandFrame_statement c with ⟨h, -⟩ | ⟨f', hf, hst⟩
  · rw [h] at hc; cases hc
  rw [hf] at hc; cases hc
  obtain ⟨-, -, least, most, hl, hr⟩ := hst hw
  have hw' := hb _ hl
  obtain ⟨h1, -⟩ := hr hw'
  simp only at hw'
  unfold serve
  rw [hl]
  simp only [hs, hw', h1, hcmd]
  simp

/-- While the scan runs a command other than STATUS and IDENTIFY is answered STARTING (R34, R160). -/
theorem serve_starting {c : Instr} {f : Frame} {s : State} (hc : commandFrame c = some f) (hw : c.wf = true)
    (hs : s.rs.scanning = true) (h1 : f.kind ≠ 0x01) (h2 : f.kind ≠ 0x02) : serve f s = (s, refuse .starting) := by
  rcases commandFrame_statement c with ⟨h, -⟩ | ⟨f', hf, hst⟩
  · rw [h] at hc; cases hc
  rw [hf] at hc; cases hc
  obtain ⟨-, -, least, most, hl, -⟩ := hst hw
  have h3 : servedInScan f.kind = false := by simp only [servedInScan, decide_eq_false h1, decide_eq_false h2, Bool.or_self]
  unfold serve
  rw [hl]
  simp [hs, h3]

/-- A command whose owner answers `r` and changes nothing is only answered with `r` (R160, R161). -/
theorem exec_answers_of_take {c : Instr} {f : Frame} {cmd : Command} {s : State} {r : Reply} (hc : commandFrame c = some f)
    (hw : c.wf = true) (hl : s.listens) (hcmd : hostCommand c = some cmd)
    (hb : ∀ lim, bodyLimits f.kind = some lim → within lim.1 lim.2 f.body.length = true)
    (ht : take cmd (s.headed f) = (s.headed f, r)) : ∃ t, exec c s = .next t ∧ OnlyAnswers f r s t :=
  exec_only_answers hc hw hl.1 (by rw [serve_eq_take hc hw (by simpa using hl.2) hcmd hb, ht])

/-- The byte of a slot number names the slot (R23). -/
theorem slotIndex_of_slot (k : Fin 16) : slotIndex (BitVec.ofNat 8 k.val) = some k := by
  revert k; decide

/-- A byte above 15 names no slot (R23). -/
theorem slotIndex_of_large (b : Byte) (h : 15 < b.toNat) : slotIndex b = none := by
  simp [slotIndex, Nat.not_le.2 h]

/-- The byte of a condition number names the condition (R136). -/
theorem conditionIndex_of_condition (k : Fin 20) : conditionIndex (BitVec.ofNat 8 k.val) = some k := by
  revert k; decide

/-- A byte above 19 names no condition (R136). -/
theorem conditionIndex_of_large (b : Byte) (h : 19 < b.toNat) : conditionIndex b = none := by
  simp [conditionIndex, Nat.not_le.2 h]

end Sys2Proof.Machine
end

