-- ==== Sys2Proof/Laws/Leak.lean ====
section
/-! SUPPORT. The end of a leak measurement: what a judgement answers, what the evaluation of one chamber does, and what the evaluation of
all of them does, each chamber by itself. -/

namespace Sys2Proof.Machine

/-! ## Waiting plans -/

theorem State.checkPlan_of_not_waiting {st : StreamId} {s : State} (h : (s.stream st).state ≠ .pendingPlan) :
    s.checkPlan st = s := by
  unfold State.checkPlan
  split <;> simp_all

/-- Where no plan waits, the check of the waiting plans changes nothing (R80). -/
theorem State.checkPlans_of_no_plan_waits {s : State} (h : NoPlanWaits s) : s.checkPlans = s := by
  simp only [State.checkPlans, State.checkPlan_of_not_waiting (h _)]

/-! ## Judgement (R115, R118) -/

theorem judgeRate_cases (p : ChamberPlan) (q : Int) :
    (q < -(p.qNeg : Int) → judgeRate p q = .unstable) ∧
    ((p.qLim : Int) < q → -(p.qNeg : Int) ≤ q → judgeRate p q = .fail) ∧
    (-(p.qNeg : Int) ≤ q → q ≤ p.qLim → judgeRate p q = .pass) := by
  refine ⟨fun h => if_pos h, fun h h' => ?_, fun h h' => ?_⟩
  · rw [judgeRate, if_neg (by omega), if_pos h]
  · rw [judgeRate, if_neg (by omega), if_neg (by omega)]

theorem judgeAttempt_isOutcome (p : ChamberPlan) (pAtm : Int) (m : Measure) : IsOutcome p pAtm m (judgeAttempt p pAtm m) := by
  refine ⟨fun h => by simp [judgeAttempt, AttemptResult.bare, h], fun hs h => ?_, fun f l hs hf hl => ⟨fun h => ?_, fun h => ?_⟩⟩
  · rcases h with h | h <;> cases hf : m.first <;> simp_all [judgeAttempt, AttemptResult.bare]
  · simp [judgeAttempt, AttemptResult.bare, hs, hf, hl, h]
  · have hj : judgeAttempt p pAtm m =
        (let tMs := (l.slot.toNat - f.slot.toNat) * 640
        let d := decay p.kind pAtm f.pressure f.temperature l.pressure l.temperature
        ⟨judgeRate p (leakRate p.volume d pAtm tMs), some (leakRate p.volume d pAtm tMs), some d, some tMs⟩) := by
      simp only [judgeAttempt, hs, hf, hl, Nat.not_le.2 h, if_false, Bool.false_eq_true]
    rw [hj]
    unfold decay
    cases p.kind <;> exact ⟨rfl, rfl, rfl, judgeRate_cases p _⟩

/-- A chamber result counted by the model, with the vent that follows, is that of R118 and R119. -/
theorem count_attemptCounted (p : ChamberPlan) (a : AttemptResult) (old : ChamberResult) :
    AttemptCounted p a old (old.count p.retries a)
      ⟨.vent, some p.vent, some (if (old.count p.retries a).verdict.isSome then .done else .requeue), none⟩ := by
  rcases a with ⟨o, q, d, tMs⟩
  unfold AttemptCounted
  by_cases h : old.attempts + 1 ≤ p.retries <;> cases o <;> simp [ChamberResult.count, verdictAfter, h]

/-! ## What does not read a leak section -/

/-- The search of the Unit Table reads the states of the records alone. -/
theorem UnitTable.find_congr {a b : UnitTable} {p : UnitState → Bool}
    (h : ∀ j : Fin 8, (a.records[j]).map UnitRecord.state = (b.records[j]).map UnitRecord.state) : a.find p = b.find p := by
  unfold UnitTable.find
  congr 1
  funext j
  have hj := h j
  cases ha : a.records[j] <;> cases hb : b.records[j] <;> simp_all

/-- The record at `i` replaced by one of the same unit. -/
def State.setRecord (i : Fin 8) (r : UnitRecord) (s : State) : State :=
  s.setUt { s.ut with records := s.ut.records.set i (some r) }

theorem State.setRecord_records (i j : Fin 8) (r : UnitRecord) (s : State) :
    (s.setRecord i r).ut.records[j] = if j = i then some r else s.ut.records[j] := by
  simp only [State.setRecord, State.setUt_ut, Fin.getElem_fin, Vector.getElem_set, Fin.ext_iff, eq_comm]

@[simp] theorem State.setRecord_rest (i : Fin 8) (r : UnitRecord) (s : State) :
    (s.setRecord i r).rs = s.rs ∧ (s.setRecord i r).afe = s.afe ∧ (s.setRecord i r).lkc = s.lkc := by simp [State.setRecord]

/-- The leak plan of a chamber stands while the records keep their states and slots. -/
theorem State.setRecord_chamberPlan {i : Fin 8} {r r' : UnitRecord} {s : State} (hr : s.ut.records[i] = some r)
    (hs : r'.state = r.state) (hk : r'.slot = r.slot) (c : Fin 4) : (s.setRecord i r').chamberPlan c = s.chamberPlan c := by
  have h2 : (s.setRecord i r').unit2 = s.unit2 := by
    refine UnitTable.find_congr fun j => ?_
    rw [State.setRecord_records]
    split
    · rename_i h; subst h; simp [hr, hs]
    · rfl
  have h : (s.setRecord i r').recipe2 = s.recipe2 := by
    simp only [State.recipe2, h2]
    congr 1
    funext j
    rw [State.setRecord_records]
    split
    · rename_i h; subst h; simp [hr, hk, State.recipeOf]
    · simp [State.recipeOf]
  simp only [State.chamberPlan, h]

theorem IsUnitIn.setRecord {u : UnitState} {i : Fin 8} {r r' : UnitRecord} {s : State} (h : IsUnitIn u i r s)
    (hs : r'.state = r.state) : IsUnitIn u i r' (s.setRecord i r') := by
  refine ⟨by rw [State.setRecord_records, if_pos rfl], hs.trans h.2.1, fun j hj x hx => h.2.2 j hj x ?_⟩
  rwa [State.setRecord_records, if_neg hj] at hx

/-! ## Chambers -/

theorem State.chamber_setChamber (c d : Fin 4) (x : Chamber) (s : State) :
    (s.setChamber c x).chamber d = if d = c then x else s.chamber d := by
  simp only [State.chamber, State.setChamber, State.setLkc_lkc, Fin.getElem_fin, Vector.getElem_set, Fin.ext_iff, eq_comm]

theorem State.chamber_takeLeakRecord (slot : Word32) (xs : List LeakSample) (c : Fin 4) (s : State) :
    (s.takeLeakRecord slot xs).chamber c = takeRecordFor slot xs c (s.chamber c) := by
  simp [State.chamber, State.takeLeakRecord]

/-! ## Evaluation (R114, R115, R118, R119) -/

/-- Record `r` with `results` for its chambers. -/
def UnitRecord.withResults (r : UnitRecord) (results : Vector ChamberResult 4) : UnitRecord :=
  { r with leak := { r.leak with chambers := results } }

theorem State.evaluate_of_not {c : Fin 4} {s : State} (h : s.evaluable c = false) : s.evaluate c = s := by
  simp [State.evaluate, h]

theorem State.evaluable_measure {c : Fin 4} {s : State} (h : s.evaluable c = true) : ∃ m, (s.chamber c).measure = some m := by
  unfold State.evaluable at h
  cases hm : (s.chamber c).measure with
  | none => simp [hm] at h
  | some m => exact ⟨m, rfl⟩

theorem State.evaluable_congr {c : Fin 4} {s t : State} (hc : t.chamber c = s.chamber c) (ha : t.afe = s.afe) :
    t.evaluable c = s.evaluable c := by simp only [State.evaluable, hc, ha]

/-- The evaluation of a chamber leaves every other chamber. -/
theorem State.chamber_evaluate_ne {c d : Fin 4} (h : d ≠ c) (s : State) : (s.evaluate c).chamber d = s.chamber d := by
  have hv : ∀ (a : AfterVent) (t : State), (t.enterVent c a).chamber d = t.chamber d := fun a t => by
    rw [State.enterVent, State.chamber_setChamber, if_neg h]
  unfold State.evaluate State.countAttempt
  repeat' split
  all_goals simp only [hv]
  simp [State.chamber]

/-- A chamber whose two events have not both occurred stands through the evaluation of every attempt (R114). -/
theorem State.chamber_evaluateAll_of_not {c : Fin 4} {s : State} (h : s.evaluable c = false) :
    s.evaluateAll.chamber c = s.chamber c := by
  have hfold : ∀ (cs : List (Fin 4)) (t : State), t.evaluable c = false →
      (cs.foldl (fun t c => t.evaluate c) t).chamber c = t.chamber c := by
    intro cs
    induction cs with
    | nil => intro t _; rfl
    | cons d cs ih =>
      intro t ht
      by_cases hd : c = d
      · subst hd; rw [List.foldl_cons, State.evaluate_of_not ht, ih t ht]
      · have hc := State.chamber_evaluate_ne hd t
        rw [List.foldl_cons, ih _ ((State.evaluable_congr hc (by simp)).trans ht), hc]
  exact hfold _ s h

/-- An attempt whose two events have occurred is judged and counted, and its chamber vents. -/
theorem State.evaluate_counts {c : Fin 4} {i : Fin 8} {r : UnitRecord} {m : Measure} {s : State} (hi : IsUnitIn .leaking i r s)
    (he : s.evaluable c = true) (hm : (s.chamber c).measure = some m) :
    ∃ (result : ChamberResult) (y : Chamber),
      s.evaluate c = (s.setRecord i (r.withResults (r.leak.chambers.set c result))).setChamber c y ∧
      AttemptCounted (s.chamberPlan c) (judgeAttempt (s.chamberPlan c) s.rs.live.pAtm m) r.leak.chambers[c] result y := by
  let a := judgeAttempt (s.chamberPlan c) s.rs.live.pAtm m
  let result := (r.leak.chambers[c]).count (s.chamberPlan c).retries a
  have hmap : s.mapResult i c (ChamberResult.count (s.chamberPlan c).retries a) =
      s.setRecord i (r.withResults (r.leak.chambers.set c result)) := by
    simp only [State.mapResult, State.mapUnit, hi.1, Option.map_some, State.setRecord, UnitRecord.withResults, result]
  have hplan := State.setRecord_chamberPlan (r' := r.withResults (r.leak.chambers.set c result)) hi.1 rfl rfl c
  refine ⟨result, ⟨.vent, some (s.chamberPlan c).vent, some (if result.verdict.isSome then .done else .requeue), none⟩, ?_, ?_⟩
  · have hv : (s.setRecord i (r.withResults (r.leak.chambers.set c result))).chamberVerdict i c = result.verdict := by
      rw [State.chamberVerdict, State.setRecord_records, if_pos rfl]
      simp [UnitRecord.withResults]
    simp only [State.evaluate, he, if_true, hm, State.countAttempt, hi.leaking]
    rw [hmap, State.enterVent, hplan, hv]
  · exact count_attemptCounted (s.chamberPlan c) a _

/-- The evaluation of a list of chambers reaches each of them as it stood, and no other. -/
theorem foldl_evaluate_counts {i : Fin 8} (cs : List (Fin 4)) (hn : cs.Nodup) (r : UnitRecord) (s : State)
    (hi : IsUnitIn .leaking i r s) :
    let t := cs.foldl (fun t c => t.evaluate c) s
    ∃ results : Vector ChamberResult 4,
      t.ut = { s.ut with records := s.ut.records.set i (some (r.withResults results)) } ∧
      ∀ c : Fin 4, (c ∉ cs ∨ s.evaluable c = false → t.chamber c = s.chamber c ∧ results[c] = r.leak.chambers[c]) ∧
        ∀ m, c ∈ cs → s.evaluable c = true → (s.chamber c).measure = some m →
          AttemptCounted (s.chamberPlan c) (judgeAttempt (s.chamberPlan c) s.rs.live.pAtm m) r.leak.chambers[c] results[c]
            (t.chamber c) := by
  induction cs generalizing r s with
  | nil =>
    refine ⟨r.leak.chambers, ?_, fun c => ⟨fun _ => ⟨rfl, rfl⟩, fun m h => by simp at h⟩⟩
    have h : s.ut.records.set i (some (r.withResults r.leak.chambers)) = s.ut.records := by
      ext1 j hj
      rw [Vector.getElem_set]
      split
      · rename_i h; subst h; exact hi.1.symm
      · rfl
    simp only [List.foldl_nil, h]
  | cons c cs ih =>
    obtain ⟨hc, hn⟩ := List.nodup_cons.1 hn
    cases he : s.evaluable c with
    | false =>
      obtain ⟨results, hut, hr⟩ := ih hn r s hi
      rw [List.foldl_cons, State.evaluate_of_not he]
      refine ⟨results, hut, fun d => ⟨fun h => (hr d).1 ?_, fun m hd => ?_⟩⟩
      · rcases h with h | h
        · exact .inl fun hd => h (List.mem_cons_of_mem _ hd)
        · exact .inr h
      · intro hed hm
        rcases List.mem_cons.1 hd with rfl | hd
        · rw [he] at hed; cases hed
        · exact (hr d).2 m hd hed hm
    | true =>
      obtain ⟨m, hm⟩ := State.evaluable_measure he
      obtain ⟨result, y, hev, hcount⟩ := State.evaluate_counts hi he hm
      rw [List.foldl_cons, hev]
      generalize hr' : r.withResults (r.leak.chambers.set c result) = r'
      have hst : r'.state = r.state := by rw [← hr']; rfl
      have hsl : r'.slot = r.slot := by rw [← hr']; rfl
      have hi' : IsUnitIn .leaking i r' ((s.setRecord i r').setChamber c y) :=
        (hi.setRecord hst).congr (by simp [State.setChamber])
      obtain ⟨results, hut, hr⟩ := ih hn r' _ hi'
      have hch : ∀ d, d ≠ c → ((s.setRecord i r').setChamber c y).chamber d = s.chamber d := fun d hd => by
        rw [State.chamber_setChamber, if_neg hd]; simp [State.chamber]
      have hres : ∀ d : Fin 4, d ≠ c → r'.leak.chambers[d] = r.leak.chambers[d] := fun d hd => by
        rw [← hr']
        simp only [UnitRecord.withResults, Fin.getElem_fin, Vector.getElem_set]
        rw [if_neg fun h => hd (Fin.ext h.symm)]
      have hrc : r'.leak.chambers[c] = result := by rw [← hr']; simp [UnitRecord.withResults]
      have hevd : ∀ d, d ≠ c → ((s.setRecord i r').setChamber c y).evaluable d = s.evaluable d := fun d hd =>
        State.evaluable_congr (hch d hd) (by simp [State.setChamber])
      have hplan : ∀ d, ((s.setRecord i r').setChamber c y).chamberPlan d = s.chamberPlan d := fun d =>
        (State.chamberPlan_congr (by simp [State.setChamber]) (by simp [State.setChamber]) d).trans
          (State.setRecord_chamberPlan hi.1 hst hsl d)
      refine ⟨results, ?_, fun d => ?_⟩
      · rw [hut]
        simp only [State.setChamber, State.setLkc_ut, State.setRecord, State.setUt_ut, Vector.set_set]
        rw [← hr']
        rfl
      · by_cases hd : d = c
        · subst hd
          obtain ⟨hsame, hres'⟩ := (hr d).1 (.inl hc)
          refine ⟨fun h => ?_, fun m' _ _ hm' => ?_⟩
          · rcases h with h | h
            · exact absurd (List.mem_cons_self ..) h
            · rw [he] at h; cases h
          · rw [hm] at hm'
            cases hm'
            rw [hsame, hres', hrc, State.chamber_setChamber, if_pos rfl]
            exact hcount
        · refine ⟨fun h => ?_, fun m' hmem hed hm' => ?_⟩
          · obtain ⟨h1, h2⟩ := (hr d).1 (by
              rw [hevd d hd]
              exact h.imp_left fun h hd => h (List.mem_cons_of_mem _ hd))
            exact ⟨h1.trans (hch d hd), h2.trans (hres d hd)⟩
          · have hmem' : d ∈ cs := (List.mem_cons.1 hmem).resolve_left hd
            have := (hr d).2 m' hmem' (by rw [hevd d hd]; exact hed) (by rw [hch d hd]; exact hm')
            rw [hplan, hres d hd] at this
            simpa [State.setChamber] using this

/-- The evaluation of every attempt (R114): with one unit LEAKING, each chamber whose two events have occurred is judged as it stood, its
attempt counted in that unit's record, and it vents; the other chambers and results stand. -/
theorem State.evaluateAll_counts {i : Fin 8} {r : UnitRecord} {s : State} (hi : IsUnitIn .leaking i r s) :
    ∃ results : Vector ChamberResult 4,
      s.evaluateAll.ut = { s.ut with records := s.ut.records.set i (some (r.withResults results)) } ∧
      ∀ c : Fin 4, (s.evaluable c = false → s.evaluateAll.chamber c = s.chamber c ∧ results[c] = r.leak.chambers[c]) ∧
        ∀ m, s.evaluable c = true → (s.chamber c).measure = some m →
          AttemptCounted (s.chamberPlan c) (judgeAttempt (s.chamberPlan c) s.rs.live.pAtm m) r.leak.chambers[c] results[c]
            (s.evaluateAll.chamber c) := by
  obtain ⟨results, hut, h⟩ := foldl_evaluate_counts (List.finRange 4) (List.nodup_finRange 4) r s hi
  exact ⟨results, hut, fun c => ⟨fun hc => (h c).1 (.inr hc), fun m => (h c).2 m (List.mem_finRange c)⟩⟩

end Sys2Proof.Machine
end

