-- ==== Sys2Proof/Laws/Memory.lean ====
section
/-! SUPPORT. The slots' memory: every operation keeps the canonical form, a byte reads back as written, and a write leaves every other
byte. -/

namespace Sys2Proof.Machine

/-- A list is in canonical form above `lo` when its offsets rise from above `lo` and no cell holds the erased byte. -/
theorem Memory.wfFrom_cons (lo : Option Nat) (k : Nat) (v : Byte) (m : Memory) :
    Memory.wfFrom lo ((k, v) :: m) = true ↔ (∀ l, lo = some l → l < k) ∧ v ≠ erasedByte ∧ Memory.wfFrom (some k) m = true := by
  cases lo <;> simp [Memory.wfFrom, and_assoc]

theorem Memory.wfFrom_weaken {lo hi : Nat} (h : lo ≤ hi) {m : Memory} (hm : Memory.wfFrom (some hi) m = true) :
    Memory.wfFrom (some lo) m = true := by
  cases m with
  | nil => rfl
  | cons c m =>
    obtain ⟨k, v⟩ := c
    rw [Memory.wfFrom_cons] at hm ⊢
    exact ⟨fun l hl => by cases hl; exact lt_of_le_of_lt h (hm.1 hi rfl), hm.2⟩

theorem Memory.wfFrom_none {lo : Nat} {m : Memory} (hm : Memory.wfFrom (some lo) m = true) : Memory.wfFrom none m = true := by
  cases m with
  | nil => rfl
  | cons c m =>
    obtain ⟨k, v⟩ := c
    rw [Memory.wfFrom_cons] at hm ⊢
    exact ⟨by simp, hm.2⟩

/-- Nothing below the canonical form's floor has been written. -/
theorem Memory.read_below {lo a : Nat} {m : Memory} (hm : Memory.wfFrom (some lo) m = true) (h : a ≤ lo) :
    m.read a = erasedByte := by
  induction m generalizing lo with
  | nil => rfl
  | cons c m ih =>
    obtain ⟨k, v⟩ := c
    rw [Memory.wfFrom_cons] at hm
    have hk := hm.1 lo rfl
    rw [Memory.read, if_neg (by omega)]
    exact ih hm.2.2 (by omega)

/-- A write keeps the canonical form. -/
theorem Memory.wfFrom_write {lo : Option Nat} {m : Memory} (hm : Memory.wfFrom lo m = true) (a : Nat) (v : Byte)
    (ha : ∀ l, lo = some l → l < a) : Memory.wfFrom lo (m.write a v) = true := by
  induction m generalizing lo with
  | nil =>
    unfold Memory.write
    split
    · rfl
    · rw [Memory.wfFrom_cons]; exact ⟨ha, ‹_›, rfl⟩
  | cons c m ih =>
    obtain ⟨k, w⟩ := c
    rw [Memory.wfFrom_cons] at hm
    obtain ⟨h1, h2, h3⟩ := hm
    unfold Memory.write
    split
    · rw [Memory.wfFrom_cons]
      exact ⟨h1, h2, ih h3 fun l hl => by cases hl; assumption⟩
    · split
      · split
        · cases lo with
          | none => exact Memory.wfFrom_none h3
          | some l => exact Memory.wfFrom_weaken (h1 l rfl).le h3
        · rw [Memory.wfFrom_cons]
          exact ⟨ha, ‹_›, by subst_vars; exact h3⟩
      · split
        · rw [Memory.wfFrom_cons]; exact ⟨h1, h2, h3⟩
        · rw [Memory.wfFrom_cons, Memory.wfFrom_cons]
          exact ⟨ha, ‹_›, fun l hl => by cases hl; omega, h2, h3⟩

theorem Memory.wf_write {m : Memory} (hm : m.wf = true) (a : Nat) (v : Byte) : (m.write a v).wf = true :=
  Memory.wfFrom_write hm a v (by simp)

theorem Memory.wf_writeAll {m : Memory} (hm : m.wf = true) (a : Nat) (vs : List Byte) : (m.writeAll a vs).wf = true := by
  induction vs generalizing m a with
  | nil => exact hm
  | cons v vs ih => exact ih (Memory.wf_write hm a v) (a + 1)

/-- A byte reads back as written, and a write leaves every other byte. -/
theorem Memory.read_write_from {lo : Option Nat} {m : Memory} (hm : Memory.wfFrom lo m = true) (a b : Nat) (v : Byte) :
    (m.write a v).read b = if b = a then v else m.read b := by
  induction m generalizing lo with
  | nil =>
    unfold Memory.write
    by_cases hv : v = erasedByte
    · rw [if_pos hv]; split <;> simp [Memory.read, hv]
    · rw [if_neg hv]
      by_cases hb : b = a
      · subst hb; simp [Memory.read]
      · rw [if_neg hb]; simp only [Memory.read]; rw [if_neg fun e => hb e.symm]
  | cons c m ih =>
    obtain ⟨k, w⟩ := c
    rw [Memory.wfFrom_cons] at hm
    obtain ⟨-, -, h3⟩ := hm
    unfold Memory.write
    by_cases h1 : k < a
    · rw [if_pos h1]
      by_cases hb : k = b
      · subst hb; rw [Memory.read, if_pos rfl, if_neg (by omega), Memory.read, if_pos rfl]
      · rw [Memory.read, if_neg hb, ih h3, Memory.read, if_neg hb]
    · rw [if_neg h1]
      by_cases h2 : k = a
      · subst h2
        rw [if_pos rfl]
        by_cases hv : v = erasedByte
        · rw [if_pos hv]
          by_cases hb : b = k
          · subst hb; rw [if_pos rfl, Memory.read_below h3 (le_refl _), hv]
          · rw [if_neg hb, Memory.read, if_neg fun e => hb e.symm]
        · rw [if_neg hv]
          by_cases hb : b = k
          · subst hb; simp [Memory.read]
          · rw [if_neg hb, Memory.read, if_neg fun e => hb e.symm, Memory.read, if_neg fun e => hb e.symm]
      · rw [if_neg h2]
        by_cases hv : v = erasedByte
        · rw [if_pos hv]
          by_cases hb : b = a
          · subst hb; rw [if_pos rfl, Memory.read, if_neg h2, Memory.read_below h3 (by omega), hv]
          · rw [if_neg hb]
        · rw [if_neg hv]
          by_cases hb : b = a
          · subst hb; simp [Memory.read]
          · rw [if_neg hb, Memory.read, if_neg fun e => hb e.symm]

theorem Memory.read_write {m : Memory} (hm : m.wf = true) (a b : Nat) (v : Byte) :
    (m.write a v).read b = if b = a then v else m.read b := Memory.read_write_from hm a b v

/-- Stored bytes read back, and every other byte reads as before. -/
theorem Memory.read_writeAll {m : Memory} (hm : m.wf = true) (a b : Nat) (vs : List Byte) :
    (m.writeAll a vs).read b = if h : a ≤ b ∧ b < a + vs.length then vs[b - a]'(by omega) else m.read b := by
  induction vs generalizing m a with
  | nil => simp [Memory.writeAll, show ¬(a ≤ b ∧ b < a) by omega]
  | cons v vs ih =>
    rw [Memory.writeAll, ih (Memory.wf_write hm a v)]
    by_cases h : a + 1 ≤ b ∧ b < a + 1 + vs.length
    · rw [dif_pos h, dif_pos (by simp only [List.length_cons]; omega)]
      simp [show b - a = (b - (a + 1)) + 1 by omega]
    · rw [dif_neg h, Memory.read_write hm]
      by_cases hb : b = a
      · subst hb; simp
      · rw [if_neg hb, dif_neg (by simp only [List.length_cons]; omega)]

/-- A write stays inside a bound that its offset and the memory's keep. -/
theorem Memory.bounded_write {m : Memory} {n a : Nat} {v : Byte} (hm : ∀ c ∈ m, c.1 < n) (ha : a < n) :
    ∀ c ∈ m.write a v, c.1 < n := by
  induction m with
  | nil =>
    unfold Memory.write
    split
    · simp
    · simpa using ha
  | cons c m ih =>
    obtain ⟨k, w⟩ := c
    have hk : k < n := hm (k, w) (by simp)
    have hm' : ∀ c ∈ m, c.1 < n := fun c hc => hm c (by simp [hc])
    unfold Memory.write
    repeat' split
    all_goals intro c hc
    · rcases List.mem_cons.1 hc with rfl | hc
      exacts [hk, ih hm' c hc]
    · exact hm' c hc
    · rcases List.mem_cons.1 hc with rfl | hc
      exacts [ha, hm' c hc]
    · exact hm c hc
    · rcases List.mem_cons.1 hc with rfl | hc
      exacts [ha, hm c hc]

theorem Memory.bounded_writeAll {m : Memory} {n a : Nat} {vs : List Byte} (hm : ∀ c ∈ m, c.1 < n) (ha : a + vs.length ≤ n) :
    ∀ c ∈ m.writeAll a vs, c.1 < n := by
  induction vs generalizing m a with
  | nil => exact hm
  | cons v vs ih =>
    simp only [List.length_cons] at ha
    exact ih (Memory.bounded_write hm (by omega)) (by omega)

/-- In the canonical form the first cell is the first byte that does not read FFh. -/
theorem Memory.head_first {m : Memory} (hm : m.wf = true) :
    (m = [] → ∀ a, m.read a = erasedByte) ∧
    ∀ k v rest, m = (k, v) :: rest → m.read k ≠ erasedByte ∧ ∀ a, a < k → m.read a = erasedByte := by
  constructor
  · rintro rfl a; rfl
  · rintro k v rest rfl
    unfold Memory.wf at hm
    rw [Memory.wfFrom_cons] at hm
    refine ⟨by rw [Memory.read, if_pos rfl]; exact hm.2.1, fun a ha => ?_⟩
    rw [Memory.read, if_neg (by omega)]
    exact Memory.read_below hm.2.2 (by omega)

/-! ## Slots -/

@[simp] theorem State.slot_mapSlot (k j : Fin 16) (f : Slot → Slot) (s : State) :
    (s.mapSlot k f).slot j = if j = k then f (s.slot k) else s.slot j := by
  simp only [State.slot, State.mapSlot, State.setRs_rs, Fin.getElem_fin, Vector.getElem_set, Fin.ext_iff]
  by_cases h : j.val = k.val
  · simp [h]
  · rw [if_neg fun e => h e.symm, if_neg h]

@[simp] theorem State.mapSlot_rest (k : Fin 16) (f : Slot → Slot) (s : State) :
    (s.mapSlot k f).rs.live = s.rs.live ∧ (s.mapSlot k f).rs.source = s.rs.source ∧
    (s.mapSlot k f).rs.scanning = s.rs.scanning := by simp [State.mapSlot]

theorem State.slot_congr {s t : State} (h : t.rs = s.rs) (k : Fin 16) : t.slot k = s.slot k := by simp [State.slot, h]

theorem otherSlots_iff (k : Fin 16) (s t : State) : OtherSlotsKept k s t ↔ ∀ j, j ≠ k → t.slot j = s.slot j := Iff.rfl

/-- The memory of the reset state is in canonical form. -/
theorem memoryLaw_slots {s t : State} (h : MemoryLaw s) (hs : ∀ k : Fin 16, (t.slot k).bytes = (s.slot k).bytes ∨
    ((t.slot k).bytes.wf = true ∧ ∀ c ∈ (t.slot k).bytes, c.1 < slotSize)) : MemoryLaw t := by
  intro k
  rcases hs k with e | e
  · have := h k
    simp only [State.slot] at e
    rw [e]; exact this
  · exact e

end Sys2Proof.Machine
end

