-- ==== Sys2Proof/Laws/OrderTables.lean ====
section
/-! SUPPORT. The tables of R92 are the cosine and the sine, rounded to the nearest integer: an approximation of both at the multiples of
a 128th of a turn, exact integers of scale 10^18, follows the addition formulas from nested square roots. -/

namespace Sys2Proof.Machine

/-- 10^18 × cos(π/64), rounded down. -/
def cosStep : Int := 998795456205172392

/-- 10^18 × sin(π/64), rounded down. -/
def sinStep : Int := 49067674327418014

/-- Near 10^18 × cos(mπ/64) and 10^18 × sin(mπ/64). -/
def turn : Nat → Int × Int
  | 0 => (1000000000000000000, 0)
  | m + 1 => ((turn m).1 * cosStep / 1000000000000000000 - (turn m).2 * sinStep / 1000000000000000000,
      (turn m).2 * cosStep / 1000000000000000000 + (turn m).1 * sinStep / 1000000000000000000)

/-- Squares bound a root. -/
theorem sqrt_bounds (lo hi x : ℝ) (h2 : 0 ≤ hi) (a : lo ^ 2 ≤ x) (b : x ≤ hi ^ 2) : lo ≤ √x ∧ √x ≤ hi :=
  ⟨Real.le_sqrt_of_sq_le a, (Real.sqrt_le_left h2).2 b⟩

/-- The approximations of a single step are right to 10^-18. -/
theorem cos_step_bounds : |Real.cos (Real.pi / 64) - 0.998795456205172392| ≤ 1 / 10 ^ 18 ∧
    |Real.sin (Real.pi / 64) - 0.049067674327418014| ≤ 1 / 10 ^ 18 := by
  obtain ⟨a, a'⟩ := sqrt_bounds 1.414213562373095048801688 1.414213562373095048801689 2 (by norm_num) (by norm_num) (by norm_num)
  obtain ⟨b, b'⟩ := sqrt_bounds 1.847759065022573512256366 1.847759065022573512256367 (2 + √2)
    (by norm_num) (by linarith) (by linarith)
  obtain ⟨c, c'⟩ := sqrt_bounds 1.96157056080646089825236 1.96157056080646089825237 (2 + √(2 + √2))
    (by norm_num) (by linarith) (by linarith)
  obtain ⟨d, d'⟩ := sqrt_bounds 1.99036945334439377248967 1.99036945334439377248968 (2 + √(2 + √(2 + √2)))
    (by norm_num) (by linarith) (by linarith)
  have e : Real.cos (Real.pi / 32) = √(2 + √(2 + √(2 + √2))) / 2 := Real.cos_pi_div_thirty_two
  have p : 0 < Real.pi := Real.pi_pos
  have f : Real.cos (Real.pi / 64) = √((1 + Real.cos (Real.pi / 32)) / 2) := by
    rw [show Real.pi / 64 = Real.pi / 32 / 2 by ring]
    exact Real.cos_half (by linarith) (by linarith)
  have g : Real.sin (Real.pi / 64) = √((1 - Real.cos (Real.pi / 32)) / 2) := by
    rw [show Real.pi / 64 = Real.pi / 32 / 2 by ring]
    exact Real.sin_half_eq_sqrt (by linarith) (by linarith)
  rw [f, g]
  obtain ⟨u, u'⟩ := sqrt_bounds 0.998795456205172392 0.998795456205172393 ((1 + Real.cos (Real.pi / 32)) / 2)
    (by norm_num) (by rw [e]; linarith) (by rw [e]; linarith)
  obtain ⟨v, v'⟩ := sqrt_bounds 0.049067674327418014 0.049067674327418015 ((1 - Real.cos (Real.pi / 32)) / 2)
    (by norm_num) (by rw [e]; linarith) (by rw [e]; linarith)
  constructor <;> rw [abs_le] <;> constructor <;> linarith

/-- The error of a product of approximations. -/
theorem near_mul {c c1 C C1 e d : ℝ} (h : |c - C| ≤ e) (h1 : |c1 - C1| ≤ d) (hc : |c1| ≤ 1) (hC : |C| ≤ 2) :
    |c * c1 - C * C1| ≤ e + 2 * d := by
  have : c * c1 - C * C1 = (c - C) * c1 + C * (c1 - C1) := by ring
  rw [this]
  refine (abs_add_le _ _).trans ?_
  rw [abs_mul, abs_mul]
  have : |c - C| * |c1| ≤ e * 1 := mul_le_mul h hc (abs_nonneg _) ((abs_nonneg _).trans h)
  have : |C| * |c1 - C1| ≤ 2 * d := mul_le_mul hC h1 (abs_nonneg _) (by norm_num)
  linarith

/-- A product of scaled integers, scaled back and rounded down. -/
theorem floor_near (x y : Int) : |((x : ℝ) / 10 ^ 18) * (y / 10 ^ 18) - ((x * y / 1000000000000000000 : Int) : ℝ) / 10 ^ 18| ≤
    1 / 10 ^ 18 := by
  have h := Int.emod_add_mul_ediv (x * y) 1000000000000000000
  have h0 := Int.emod_nonneg (x * y) (b := 1000000000000000000) (by norm_num)
  have h1 := Int.emod_lt_of_pos (x * y) (b := 1000000000000000000) (by norm_num)
  have hr : ((x * y % 1000000000000000000 : Int) : ℝ) + 1000000000000000000 * ((x * y / 1000000000000000000 : Int) : ℝ) = x * y := by
    exact_mod_cast h
  have h0r : (0 : ℝ) ≤ ((x * y % 1000000000000000000 : Int) : ℝ) := by exact_mod_cast h0
  have h1r : ((x * y % 1000000000000000000 : Int) : ℝ) < 1000000000000000000 := by exact_mod_cast h1
  rw [abs_le]
  constructor <;> (field_simp; norm_num; linarith)

/-- The error of the approximations doubles at each step at most. -/
theorem turn_near (m : Nat) (hm : m ≤ 32) :
    |Real.cos (m * (Real.pi / 64)) - ((turn m).1 : ℝ) / 10 ^ 18| ≤ 10 * (2 ^ m - 1) / 10 ^ 18 ∧
    |Real.sin (m * (Real.pi / 64)) - ((turn m).2 : ℝ) / 10 ^ 18| ≤ 10 * (2 ^ m - 1) / 10 ^ 18 := by
  induction m with
  | zero => simp [turn]; norm_num
  | succ m ih =>
    obtain ⟨a, b⟩ := ih (by omega)
    obtain ⟨c, d⟩ := cos_step_bounds
    have hp : (2 : ℝ) ^ m ≤ 2 ^ 32 := pow_le_pow_right₀ (by norm_num) (by omega)
    have h1 : (1 : ℝ) ≤ 2 ^ m := one_le_pow₀ (by norm_num)
    have e : (10 * (2 ^ m - 1) / 10 ^ 18 : ℝ) ≤ 1 := by rw [div_le_one (by norm_num)]; linarith
    have f : |((turn m).1 : ℝ) / 10 ^ 18| ≤ 2 := by
      have := abs_sub_abs_le_abs_sub (((turn m).1 : ℝ) / 10 ^ 18 : ℝ) (Real.cos (m * (Real.pi / 64)))
      rw [abs_sub_comm] at this
      linarith [Real.abs_cos_le_one (m * (Real.pi / 64))]
    have g : |((turn m).2 : ℝ) / 10 ^ 18| ≤ 2 := by
      have := abs_sub_abs_le_abs_sub (((turn m).2 : ℝ) / 10 ^ 18 : ℝ) (Real.sin (m * (Real.pi / 64)))
      rw [abs_sub_comm] at this
      linarith [Real.abs_sin_le_one (m * (Real.pi / 64))]
    have tcr : (0.998795456205172392 : ℝ) = (cosStep : ℝ) / 10 ^ 18 := by norm_num [cosStep]
    have tsr : (0.049067674327418014 : ℝ) = (sinStep : ℝ) / 10 ^ 18 := by norm_num [sinStep]
    rw [tcr] at c
    rw [tsr] at d
    have cc := near_mul a c (Real.abs_cos_le_one _) f
    have ss := near_mul b d (Real.abs_sin_le_one _) g
    have sc := near_mul b c (Real.abs_cos_le_one _) g
    have cs := near_mul a d (Real.abs_sin_le_one _) f
    have fcc := floor_near (turn m).1 cosStep
    have fss := floor_near (turn m).2 sinStep
    have fsc := floor_near (turn m).2 cosStep
    have fcs := floor_near (turn m).1 sinStep
    obtain ⟨cc, cc'⟩ := abs_le.1 cc
    obtain ⟨ss, ss'⟩ := abs_le.1 ss
    obtain ⟨sc, sc'⟩ := abs_le.1 sc
    obtain ⟨cs, cs'⟩ := abs_le.1 cs
    obtain ⟨fcc, fcc'⟩ := abs_le.1 fcc
    obtain ⟨fss, fss'⟩ := abs_le.1 fss
    obtain ⟨fsc, fsc'⟩ := abs_le.1 fsc
    obtain ⟨fcs, fcs'⟩ := abs_le.1 fcs
    rw [show ((m + 1 : Nat) : ℝ) * (Real.pi / 64) = m * (Real.pi / 64) + Real.pi / 64 by push_cast; ring, Real.cos_add, Real.sin_add,
      pow_succ 2 m]
    simp only [turn, Int.cast_sub, Int.cast_add, sub_div, add_div]
    exact ⟨abs_le.2 ⟨by linarith, by linarith⟩, abs_le.2 ⟨by linarith, by linarith⟩⟩

/-- The quarter table is the approximation, rounded, with more than 0.01 to spare. -/
theorem table_near : (List.range 33).all (fun m => decide
    (((turn m).1 * 16384 - cosQuarter.getD m 0 * 10 ^ 18).natAbs * 1000 < 490 * 10 ^ 18)) = true := by
  decide

/-- The first quarter of Ctab. -/
theorem cosTab_near_quarter (m : Nat) (hm : m ≤ 32) : |(cosTab m : ℝ) - 16384 * Real.cos (m * (Real.pi / 64))| < 1 / 2 := by
  have t := List.all_eq_true.1 table_near m (by simp; omega)
  simp only [decide_eq_true_eq] at t
  obtain ⟨a, -⟩ := turn_near m hm
  have hp : (2 : ℝ) ^ m ≤ 2 ^ 32 := pow_le_pow_right₀ (by norm_num) hm
  have c : cosTab m = cosQuarter.getD m 0 := by simp [cosTab, hm]
  rw [c]
  have u : ((turn m).1 * 16384 - cosQuarter.getD m 0 * 10 ^ 18) * 1000 < 490 * 10 ^ 18 ∧
      -(490 * 10 ^ 18) < ((turn m).1 * 16384 - cosQuarter.getD m 0 * 10 ^ 18) * 1000 := by omega
  have u1 : (((turn m).1 : ℝ) * 16384 - (cosQuarter.getD m 0 : Int) * 10 ^ 18) * 1000 < 490 * 10 ^ 18 := by exact_mod_cast u.1
  have u2 : -(490 * 10 ^ 18) < (((turn m).1 : ℝ) * 16384 - (cosQuarter.getD m 0 : Int) * 10 ^ 18) * 1000 := by exact_mod_cast u.2
  obtain ⟨a, a'⟩ := abs_le.1 a
  exact abs_lt.2 ⟨by linarith, by linarith⟩

/-- Ctab[m] is 16384 × cos(2πm/128) rounded to the nearest integer (R92). -/
theorem cosTab_near (m : Nat) (hm : m < 128) : |(cosTab m : ℝ) - 16384 * Real.cos (2 * Real.pi * m / 128)| < 1 / 2 := by
  have key : ∀ k : Nat, k ≤ 32 → |(cosQuarter.getD k 0 : ℝ) - 16384 * Real.cos (k * (Real.pi / 64))| < 1 / 2 := fun k hk => by
    simpa [cosTab, hk] using cosTab_near_quarter k hk
  unfold cosTab
  split
  · rw [show 2 * Real.pi * m / 128 = m * (Real.pi / 64) by ring]; exact key m (by assumption)
  split
  · have h := key (64 - m) (by omega)
    rw [Nat.cast_sub (by omega), show ((64 : Nat) - (m : ℝ)) * (Real.pi / 64) = Real.pi - 2 * Real.pi * m / 128 by push_cast; ring,
      Real.cos_pi_sub] at h
    obtain ⟨h, h'⟩ := abs_lt.1 h
    push_cast
    exact abs_lt.2 ⟨by linarith, by linarith⟩
  split
  · have h := key (m - 64) (by omega)
    rw [Nat.cast_sub (by omega), show ((m : ℝ) - (64 : Nat)) * (Real.pi / 64) = 2 * Real.pi * m / 128 - Real.pi by push_cast; ring,
      Real.cos_sub_pi] at h
    obtain ⟨h, h'⟩ := abs_lt.1 h
    push_cast
    exact abs_lt.2 ⟨by linarith, by linarith⟩
  · have h := key (128 - m) (by omega)
    rw [Nat.cast_sub (by omega), show ((128 : Nat) - (m : ℝ)) * (Real.pi / 64) = 2 * Real.pi - 2 * Real.pi * m / 128 by push_cast; ring,
      Real.cos_two_pi_sub] at h
    exact h

/-- Stab[m] is 16384 × sin(2πm/128) rounded to the nearest integer (R92). -/
theorem sinTab_near (m : Nat) (hm : m < 128) : |(sinTab m : ℝ) - 16384 * Real.sin (2 * Real.pi * m / 128)| < 1 / 2 := by
  have h := cosTab_near ((m + 96) % 128) (Nat.mod_lt _ (by norm_num))
  rw [sinTab]
  by_cases hk : m < 32
  · rw [Nat.mod_eq_of_lt (by omega)] at *
    rw [show 2 * Real.pi * ((m + 96 : Nat) : ℝ) / 128 = 2 * Real.pi - (Real.pi / 2 - 2 * Real.pi * m / 128) by push_cast; ring,
      Real.cos_two_pi_sub, Real.cos_pi_div_two_sub] at h
    exact h
  · rw [show (m + 96) % 128 = m - 32 by omega] at *
    rw [Nat.cast_sub (by omega), show 2 * Real.pi * ((m : ℝ) - (32 : Nat)) / 128 = 2 * Real.pi * m / 128 - Real.pi / 2 by push_cast; ring,
      Real.cos_sub_pi_div_two] at h
    exact h

end Sys2Proof.Machine
end

