-- ==== Sys2Proof/Tests/Slice0.lean ====
section
/-! SUPPORT. Tests: small concrete cases whose expected results come from the spec, and for each statement that has hypotheses a concrete
state that meets them. -/

namespace Sys2Proof.Tests

set_option Elab.async false

open Sys2Proof.Machine

/-! ## Small machines -/

/-- A machine whose scan is over, with nothing held, the reset vent over and no notice on the line. -/
def idle : State :=
  let s := State.reset.setLp { State.reset.lp with sending := none, notices := [] }
  let s := s.setRs { s.rs with scanning := false }
  let s := s.setCu { s.cu with
    conditions := s.cu.conditions.set 1 { s.cond 1 with latch := false }, stack := [], rl := 0, mode := .maintenance }
  s.setLkc { s.lkc with resetVent := .over }

/-- The cells of bytes that stand from offset `a` on. -/
def cellsFrom : Nat → List Byte → Memory
  | _, [] => []
  | a, b :: bs => if b = 0xFF then cellsFrom (a + 1) bs else (a, b) :: cellsFrom (a + 1) bs

/-- Little-endian words. -/
def words (xs : List Int) : List Byte := xs.flatMap (leInt 4)

/-- A recipe of four steps (a ramp to 20 rpm, a hold with window 1 and a loop to step 1, a ramp to 0, a drag measurement), one STEADY window of the
pairs ACC0 and MIC at order 1, and chambers 0 to 2 enabled, chamber 2 a CIRCUIT. -/
def recipeBytes : List Byte :=
  recipeMark ++ words [imageLength 4 1] ++ List.replicate 16 0x41 ++
  words [7, 0, 3000, 5000, 9000, 5, 2000, 0, 3000, 9, 4, 1] ++
  words [0, 20, 2000, 60000, 100, -200, 0, 1, 0] ++ words [1, 20, 500, 100, 12000, -12000, 1, 1, 2] ++
  words [0, 0, 2000, 60000, 0, 0, 0, 1, 0] ++ words [3, 0, 2000, 5000, 0, 0, 0, 1, 0] ++
  [0, 0] ++ words [1, 3000, 100, 4, 2, 17, 1, 10] ++ [1, 0, 0, 0, 0, 0, 0, 0] ++ words (List.replicate 40 100) ++
  words [1, 0, 1000, 20000, 100, 5000, 4000, 600, 30000, 2000, 100, 50, 1, 500] ++
  words [1, 1, 1000, 20000, 100, 5000, 4000, 600, 30000, 2000, 100, 50, 0, 500] ++
  words [1, 2, 1000, 20000, 100, 5000, 4000, 600, 30000, 2000, 100, 50, 1, 500] ++ words (List.replicate 14 0) ++
  words [8, 10, 10, 0, 1, 1, 50, 25, 100]

/-- A slot that holds `recipeBytes`, closed VALID, with one unit bound. -/
def recipeSlot : Slot := ⟨cellsFrom 0 recipeBytes, none, .valid, none, 678, some 0, 1, false⟩

/-- The recipe of `recipeSlot`. -/
def recipe : Recipe := readRecipe recipeSlot.bytes

/-- A record bound to `recipeSlot`, in state `u`. -/
def unit (u : UnitState) : UnitRecord := { UnitRecord.begun 1 [0x41] 1 0 recipe 0 with state := u }

/-- `idle` with the recipe in slot 1 and `r` in record 0. -/
def withUnit (r : UnitRecord) : State :=
  let s := idle.setRs { idle.rs with slots := idle.rs.slots.set 1 recipeSlot }
  s.setUt { s.ut with records := s.ut.records.set 0 (some r), idCounter := 2 }

/-- The steps of `recipe`. -/
def step1 : Step := ⟨.ramp, 20, 2000, 60000, 100, -200, 0, 1, 0⟩
def step2 : Step := ⟨.hold, 20, 500, 100, 12000, -12000, 1, 1, 2⟩
def step3 : Step := ⟨.ramp, 0, 2000, 60000, 0, 0, 0, 1, 0⟩
def step4 : Step := ⟨.measureDrag, 0, 2000, 5000, 0, 0, 0, 1, 0⟩

/-- A window of `recipe`, fresh. -/
def window1 : Window := Window.fresh 1 ⟨.steady, .fwd, 1, 3000, 100, 4, 2, [.acc0, .mic], 10, [⟨.acc0, 1, 100⟩, ⟨.mic, 1, 100⟩]⟩

/-- A RUNNING unit in step `k`, in phase `p`, with the drive at `v`. -/
def running (p : Phase) (k : Nat) (v : Int) : State :=
  let s := withUnit { unit .running with runIn := { RunIn.begun with state := .inProgress } }
  (s.setPe { s.pe with
    phase := p, step := some k, counters := [0, 2, 0, 0], stepTimer := if p = .stepping then some 50 else none
    setpoint := v, enable := true, brake := false, halt := .none }).setOa { s.oa with windows := [window1] }

/-- A LEAKING unit whose chambers are as given. -/
def leaking (c0 c1 c2 : Chamber) (queue : List (Fin 4)) : State :=
  let s := withUnit { unit .leaking with leak := { LeakSection.begun recipe with state := .inProgress } }
  s.setLkc { s.lkc with chambers := #v[c0, c1, c2, ⟨.idle, none, none, none⟩], queue := queue }

/-- A chamber in a phase without a timer. -/
def rest (p : ChamberPhase) : Chamber := ⟨p, none, none, none⟩

/-- `s` with condition `n` active by its latch and source. -/
def raise (n : Fin 20) (s : State) : State :=
  s.setCu { s.cu with conditions := s.cu.conditions.set n { s.cond n with latch := true, source := true } }

/-- `s` with one frame of condition `n` on the stack. -/
def held (n : Fin 20) (s : State) : State :=
  s.setCu { s.cu with
    stack := [⟨n, (s.cond n).severity, (s.cond n).vector, 0, 0⟩], rl := (s.cond n).severity }

/-- `s` under a HARD halt of PROFILE alone. -/
def profileHeld (s : State) : State :=
  let s := s.setCu { s.cu with stack := [⟨5, 14, ⟨true, false, false, false⟩, 0, 0⟩], rl := 14 }
  s.setPe { s.pe with halt := .hard }

theorem profileHeld_hard (s : State) : (profileHeld s).halt.profile = true ∧ HardWhereSevere (profileHeld s) := ⟨rfl, fun _ _ => rfl⟩

/-- Where PROFILE is not halted the halt style is free. -/
theorem hard_of {s : State} (h : s.halt.profile = false) : HardWhereSevere s := fun h' => by rw [h] at h'; cases h'

/-- `s` with the bytes of slot 1 changed at the offsets given. -/
def patched (ps : List (Nat × Byte)) (s : State) : State :=
  s.setRs { s.rs with slots := s.rs.slots.set 1 { recipeSlot with
    bytes := cellsFrom 0 (ps.foldl (fun bs p => bs.set p.1 p.2) recipeBytes) } }

/-! ## Well-formedness -/

theorem test_wf_refuses_long_serial : (Instr.loadUnit 1 1 (List.replicate 1024 0x41)).wf = false := by decide +kernel
theorem test_wf_accepts_longest_serial : (Instr.loadUnit 1 1 (List.replicate 1023 0x41)).wf = true := by decide +kernel
theorem test_wf_refuses_long_write : (Instr.slotWrite 1 5 0 (List.replicate 1022 0)).wf = false := by decide +kernel
theorem test_wf_accepts_longest_write : (Instr.slotWrite 1 5 0 (List.replicate 1021 0)).wf = true := by decide +kernel

/-! ## Figures the spec gives -/

/-- The nine ASCII digits 1 to 9 have the CRC-16 29B1h (spec/09, R158). -/
theorem test_crc16_of_digits : crc16 [0x31, 0x32, 0x33, 0x34, 0x35, 0x36, 0x37, 0x38, 0x39] = 0x29B1 := by decide +kernel

/-- The nine ASCII digits 1 to 9 have the CRC-32 CBF43926h (R29). -/
theorem test_crc32_of_digits : crc32 [0x31, 0x32, 0x33, 0x34, 0x35, 0x36, 0x37, 0x38, 0x39] = 0xCBF43926 := by decide +kernel

/-- L is 569 for a power of 256,000,000 (R97). -/
theorem test_level_of_R97 : levelOf 256000000 = 569 := by decide +kernel

/-- A power of 1 has the least level, −271 (R97). -/
theorem test_least_level : levelOf 1 = -271 := by decide +kernel

/-- The settle times of R111: 24,100 ms at 58.5 °C, and the maximum of 30,000 ms at 75 °C; a cold axle settles for the base. -/
theorem test_settle_times_of_R111 :
    let p : ChamberPlan := ⟨true, .housing, 1000, 20000, 100, 5000, 4000, 600, 30000, 2000, 100, 50, 1, 500⟩
    settleTime p (some 5850) 2500 = 24100 ∧ settleTime p (some 7500) 2500 = 30000 ∧ settleTime p (some 2000) 2500 = 4000 ∧
    settleTime p none 2500 = 4000 := by decide +kernel

/-- The calibration examples of R65: zero 120 and gain 70,000 give 2,008 for 2,000 and −662 for −500. -/
theorem test_calibration_of_R65 :
    calibrate ⟨120, 70000, -30000, 30000⟩ 2000 = (2008, false) ∧ calibrate ⟨120, 70000, -30000, 30000⟩ (-500) = (-662, false) ∧
    calibrate ⟨120, 70000, -30000, 30000⟩ 40000 = (30000, true) := by decide +kernel

/-- The warm housing of spec/06: a decay of 4 Pa and 296, where a circuit would show 100 Pa and 7,401; and the −74 of R117. -/
theorem test_leak_rates_of_chapter_6 :
    decay .housing 101325 50000 4500 49900 4480 = 4 ∧ decay .circuit 101325 50000 4500 49900 4480 = 100 ∧
    leakRate 12000 4 101325 9600 = 296 ∧ leakRate 12000 100 101325 9600 = 7401 ∧ leakRate 12000 (-1) 101325 9600 = -74 := by
  decide +kernel

/-- Id 65535 is followed by 1 (R8). -/
theorem test_id_wraps : nextId 65535 = 1 ∧ nextId 65534 = 65535 := by decide +kernel

/-- The steps that `recipe` reads back are those its bytes were made of (spec/10 section 10.6). -/
theorem test_recipe_steps : recipe.steps = [step1, step2, step3, step4] := by decide +kernel

/-- So are its windows and its capture plans. -/
theorem test_recipe_windows : recipe.windows = [window1.spec] ∧ recipe.vibPlan = ⟨8, 0, 50⟩ ∧ recipe.leakPlan = ⟨10, 1, 100⟩ := by
  decide +kernel

/-- The header fields that the statements read. -/
theorem recipe_fields : recipe.maxSpeed = 3000 ∧ recipe.tolerance = 5 ∧ recipe.softStop = 2000 ∧ recipe.leakAfterFail = false := by
  decide +kernel

/-- Chambers 0, 1 and 2 of `recipe` are enabled and chamber 3 is not. -/
theorem recipe_enabled : ∀ c : Fin 4, (recipe.chambers[c]).enabled = decide (c.val < 3) := by decide +kernel


/-! ## Witnesses: for each statement with hypotheses, concrete values that meet them, clause by clause -/

theorem witness_StepTakesTheFrontCommand :
    (idle.setPending [.frameSent, .planApply]).pending = .frameSent :: [.planApply] ∧ idle.pending = [] := by decide +kernel

theorem witness_PowerOnAndResetLineResetEveryBlock : Instr.resetLine = .powerOn ∨ Instr.resetLine = .resetLine := by decide

/-- `State.reset` with slot 0 VALID, and with an interrupted slot 5. -/
def scanState (x : SlotState) (mark : Bool) : State :=
  let s := State.reset
  (s.setRs { s.rs with slots := (s.rs.slots.set 0 { s.slot 0 with state := x, mark := mark }).set 5 { s.slot 5 with state := .writing } })

theorem witness_StartupScanEndPutsTheConfigurationInForce :
    (State.reset.rs.scanning = true ∧ ¬((State.reset.slot 0).state = .valid ∧ (State.reset.slot 0).mark = false) ∧
      State.reset.lkc.resetVent = .running none) ∧
    ((scanState .valid false).rs.scanning = true ∧ ((scanState .valid false).slot 0).state = .valid ∧
      ((scanState .valid false).slot 0).mark = false) ∧
    ((scanState .valid true).rs.scanning = true ∧ ¬(((scanState .valid true).slot 0).state = .valid ∧
      ((scanState .valid true).slot 0).mark = false)) ∧
    ((State.reset.setLkc { State.reset.lkc with resetVent := .over }).rs.scanning = true ∧
      (State.reset.setLkc { State.reset.lkc with resetVent := .over }).lkc.resetVent = .over) := by decide +kernel

theorem witness_ReceivedFrameIsItsCommand :
    commandFrame (.loadUnit 7 1 (List.replicate 1023 0x41)) = some ⟨0x08, 7, 1 :: List.replicate 1023 0x41⟩ ∧
    (Instr.loadUnit 7 1 (List.replicate 1023 0x41)).wf = true ∧ startByte ∉ [0x00, 0xC2] ∧ idle.lp.receiver = .hunt := by
  decide +kernel

/-- `s` with the receiver in HEADER. -/
def inHeader (s : State) : State := s.setLp { s.lp with receiver := .header [0x01] }

theorem witness_BrokenFramesAreCountedAndDiscarded :
    (idle.lp.receiver = .hunt ∧ (⟨0x01, 0, []⟩ : Frame).body.length ≤ 1024 ∧ [0, 0] ≠ (⟨0x01, 0, []⟩ : Frame).checkBytes) ∧
    (idle.lp.receiver = .hunt ∧ 1024 < (0x01 : Byte).toNat + 256 * (0x04 : Byte).toNat) ∧
    (idle.lp.receiver = .hunt ∧ (⟨0x40, 0, []⟩ : Frame).body.length ≤ 1024 ∧ 0x40 ≤ (⟨0x40, 0, []⟩ : Frame).kind.toNat) ∧
    (inHeader idle).lp.receiver ≠ .hunt := by decide +kernel

/-- `s` with frames in the holding. -/
def holding (a b : Option Frame) (s : State) : State := s.setLp { s.lp with head := a, second := b }

theorem witness_CommandsWaitOverrunOrFindTheScanRunning :
    (commandFrame (.restart 1) = some ⟨0x03, 1, []⟩ ∧ (Instr.restart 1).wf = true) ∧
    ((holding (some ⟨0x01, 0, []⟩) none idle).lp.head = some ⟨0x01, 0, []⟩ ∧
      (holding (some ⟨0x01, 0, []⟩) none idle).lp.second = none) ∧
    ((holding (some ⟨0x01, 0, []⟩) (some ⟨0x02, 0, []⟩) idle).lp.head = some ⟨0x01, 0, []⟩ ∧
      (holding (some ⟨0x01, 0, []⟩) (some ⟨0x02, 0, []⟩) idle).lp.second = some ⟨0x02, 0, []⟩) ∧
    (State.reset.lp.head = none ∧ State.reset.rs.scanning = true ∧ (0x03 : Byte) ≠ 0x01 ∧ (0x03 : Byte) ≠ 0x02) := by
  decide +kernel

/-- A kind that names no command, the two ends of the lengths of LOAD_UNIT and of the longest body, and RESTART while the scan runs. -/
theorem witness_ReceivedFrameIsRefused :
    (idle.lp.receiver = .hunt ∧ idle.lp.head = none ∧ idle.rs.scanning = false ∧ ∀ e ∈ commandBodies, e.1 ≠ 0x3F) ∧
    ((0x08, 1, 21) ∈ commandBodies ∧ ([] : List Byte).length < 1 ∧ 21 < (List.replicate 22 (0 : Byte)).length) ∧
    ((0x22, 3, 1003) ∈ commandBodies ∧ 1003 < (List.replicate 1024 (0 : Byte)).length ∧
      (List.replicate 1024 (0 : Byte)).length ≤ 1024) ∧
    (State.reset.lp.receiver = .hunt ∧ State.reset.lp.head = none ∧ (0x03, 0, 0) ∈ commandBodies ∧
      ¬(State.reset.rs.scanning = false ∨ (0x03 : Byte) = 0x01 ∨ (0x03 : Byte) = 0x02)) := by decide +kernel

/-- A notice. -/
def someNotice : Notice := ⟨.storeDone, .storeDone 5 .blank none none⟩

/-- `idle` with the transmitter and the line as given. -/
def line (sending : Option Sending) (reply : Option Frame) (notices : List Notice) (due : Bool) (second : Option Frame) : State :=
  idle.setLp { idle.lp with sending := sending, reply := reply, notices := notices, restartDue := due, second := second }

theorem witness_FrameSentFreesItsPlace :
    (idle.lp.head = none ∧ idle.rs.scanning = false) ∧ idle.lp.sending = none ∧
    (let s := line (some (.notice someNotice)) (some ⟨0x81, 0, []⟩) [someNotice] false none;
      s.lp.sending = some (.notice someNotice) ∧ s.lp.reply = some ⟨0x81, 0, []⟩) ∧
    (let s := line (some (.notice someNotice)) none [someNotice] false none;
      s.lp.sending = some (.notice someNotice) ∧ s.lp.reply = none ∧ s.lp.notices = someNotice :: []) ∧
    (let s := line (some (.notice someNotice)) none [] false none;
      s.lp.sending = some (.notice someNotice) ∧ s.lp.reply = none ∧ s.lp.notices = []) ∧
    (let s := line (some (.reply ⟨0x83, 0, [0]⟩)) none [] true none;
      s.lp.sending = some (.reply ⟨0x83, 0, [0]⟩) ∧ s.lp.restartDue = true) ∧
    (let s := line (some (.reply ⟨0x81, 0, [0]⟩)) none [someNotice] false none;
      s.lp.sending = some (.reply ⟨0x81, 0, [0]⟩) ∧ s.lp.restartDue = false ∧ s.lp.second = none ∧ s.lp.reply = none ∧
      s.lp.notices = someNotice :: []) ∧
    (let s := line (some (.reply ⟨0x81, 0, [0]⟩)) none [] false (some ⟨0x02, 1, []⟩);
      s.lp.sending = some (.reply ⟨0x81, 0, [0]⟩) ∧ s.lp.restartDue = false ∧ s.lp.second = some ⟨0x02, 1, []⟩ ∧
      s.silenceAfterFrame = s.lp.silence) ∧
    (commandFrame (.identify 1) = some ⟨0x02, 1, []⟩ ∧ (Instr.identify 1).wf = true) := by
  decide +kernel

theorem witness_PlainQueriesOnlyAnswer : State.reset.lp.head = none ∧ idle.lp.head = none ∧ idle.rs.scanning = false := by
  decide +kernel

theorem idle_listens : idle.listens := by constructor <;> decide +kernel

theorem unit_listens (u : UnitState) : (withUnit (unit u)).listens := by constructor <;> rfl

theorem unit_carries (u : UnitState) : CarriesId (1 : BitVec 16).toNat 0 (unit u) (withUnit (unit u)) :=
  carriesId_of rfl rfl (by cases u <;> decide +kernel)

theorem witness_RecordQueriesReturnTheRecord :
    (withUnit (unit .done)).listens ∧ CarriesId (1 : BitVec 16).toNat 0 (unit .done) (withUnit (unit .done)) ∧
    NoUnitCarries (0 : BitVec 16).toNat idle ∧ idle.reports = [] ∧ ((withUnit (unit .done)).setReports [1]).reports = 1 :: [] ∧
    CarriesId 1 0 (unit .done) ((withUnit (unit .done)).setReports [1]) ∧ 19 < (20 : Byte).toNat :=
  ⟨unit_listens _, unit_carries _, noUnitCarries_of (by decide +kernel), by decide +kernel, by decide +kernel,
    carriesId_of rfl rfl (by decide +kernel), by decide⟩

/-- `idle` with slot 5 as given. -/
def withSlot5 (x : SlotState) (bytes : Memory) : State :=
  idle.setRs { idle.rs with slots := idle.rs.slots.set 5 { idle.slot 5 with state := x, bytes := bytes, written := bytes.length } }

theorem memory_idle : MemoryLaw idle := by intro k; revert k; decide +kernel

theorem memory_slot5 (x : SlotState) : MemoryLaw (withSlot5 x [(0, 1)]) := by
  intro k; revert k; cases x <;> decide +kernel

theorem witness_SlotQueriesAnswerFromTheSlot :
    idle.listens ∧ MemoryLaw idle ∧ 15 < (16 : Byte).toNat ∧
    ((withSlot5 .erasing []).listens ∧ ((withSlot5 .erasing []).slot 5).state = .erasing) ∧
    ((idle.slot 15).state ≠ .erasing ∧ (idle.slot 15).state ≠ .closing ∧ ∀ off, off < 4096 → (idle.slot 15).byteAt off = 0xFF) ∧
    (MemoryLaw (withSlot5 .writing [(0, 1)]) ∧ (withSlot5 .writing [(0, 1)]).listens ∧
      ((withSlot5 .writing [(0, 1)]).slot 5).state ≠ .erasing ∧ ((withSlot5 .writing [(0, 1)]).slot 5).state ≠ .closing ∧ 0 < 4096 ∧
      ((withSlot5 .writing [(0, 1)]).slot 5).byteAt 0 ≠ 0xFF ∧ ∀ o, o < 0 → ((withSlot5 .writing [(0, 1)]).slot 5).byteAt o = 0xFF) :=
  ⟨idle_listens, memory_idle, by decide, ⟨⟨rfl, rfl⟩, rfl⟩, ⟨by decide +kernel, by decide +kernel, fun _ _ => rfl⟩,
    memory_slot5 _, ⟨rfl, rfl⟩, by decide +kernel, by decide +kernel, by decide, by decide +kernel, by simp⟩

theorem witness_SlotEraseAndCloseBeginTheirOperation : idle.listens ∧ 15 < (16 : Byte).toNat := ⟨idle_listens, by decide⟩

theorem witness_SlotWriteStoresInOrder :
    idle.listens ∧ MemoryLaw idle ∧ (List.replicate 1021 (0 : Byte)).length ≤ 1021 ∧ 15 < (16 : Byte).toNat ∧
    (List.replicate 1000 (0 : Byte)).length ≤ 1000 :=
  ⟨idle_listens, memory_idle, by decide +kernel, by decide, by decide +kernel⟩

/-- A configuration image: the defaults of spec/02 section 2.5. -/
def configBytes : List Byte :=
  configMark ++ words [312] ++ words ((List.finRange 10).flatMap fun i => [0, 65536, (quantityRange[i]).1, (quantityRange[i]).2]) ++
  words [0, 0, 0, 0, 0, 101325, 2500, 1000, 30, 3000] ++
  words ((List.finRange 12).flatMap fun j =>
    [((defaultConfig.conditions[j]).severity : Int), ((defaultConfig.conditions[j]).vector.code : Int)]) ++ words [15000, 12000]

/-- Slot `k` of `idle` CLOSING, with `bytes` written. -/
def closingSlot (k : Fin 16) (bytes : List Byte) : State :=
  idle.setRs { idle.rs with slots := idle.rs.slots.set k ⟨cellsFrom 0 bytes, none, .closing, none, bytes.length, none, 0, true⟩ }

/-- The default configuration as an image passes every check of R32. -/
theorem test_config_image : configReason (cellsFrom 0 configBytes) configBytes.length = none := by decide +kernel

theorem witness_StoreOperationsComplete :
    ((withSlot5 .erasing []).rs.scanning = false ∧ ((withSlot5 .erasing []).slot 5).state = .erasing) ∧
    (idle.rs.scanning = false ∧ (idle.slot 5).state ≠ .erasing ∧ (idle.slot 5).state ≠ .closing) ∧
    ((5 : Fin 16) ≠ 0 ∧ ((closingSlot 5 [1]).slot 5).state = .closing ∧ (closingSlot 5 [1]).rs.scanning = false) ∧
    ((closingSlot 0 configBytes).rs.scanning = false ∧ ((closingSlot 0 configBytes).slot 0).state = .closing ∧
      configReason ((closingSlot 0 configBytes).slot 0).bytes ((closingSlot 0 configBytes).slot 0).written = none) ∧
    ((closingSlot 0 [1]).rs.scanning = false ∧ ((closingSlot 0 [1]).slot 0).state = .closing ∧
      configReason ((closingSlot 0 [1]).slot 0).bytes ((closingSlot 0 [1]).slot 0).written = some .badMark) :=
  ⟨⟨rfl, rfl⟩, by decide +kernel, by decide +kernel, ⟨rfl, rfl, test_config_image⟩, by decide +kernel⟩

/-- Record 0 alone is in use. -/
theorem others_free (r : UnitRecord) (j : Fin 8) (hj : j ≠ 0) : (withUnit r).ut.records[j] = none := by
  show (State.reset.ut.records.set 0 (some r))[j.val] = none
  rw [Vector.getElem_set_ne]
  · revert j; decide +kernel
  · exact fun h => hj (Fin.ext h.symm)

theorem withUnit_is (r : UnitRecord) : IsUnitIn r.state 0 r (withUnit r) :=
  isUnitIn_of rfl rfl fun j hj => by rw [others_free r j hj]; rfl

theorem withUnit_carries (r : UnitRecord) : CarriesId r.id 0 r (withUnit r) :=
  carriesId_of rfl rfl fun j hj => by rw [others_free r j hj]; rfl

theorem withUnit_law (r : UnitRecord) : StationLaw (withUnit r) := by
  have only : ∀ (i : Fin 8) (x : UnitRecord), (withUnit r).ut.records[i] = some x → i = 0 := fun i x h => by
    by_contra hi
    rw [others_free r i hi] at h
    cases h
  intro i j x y hi hj
  rw [only i x hi, only j y hj]
  exact ⟨fun _ _ => rfl, fun _ _ => rfl⟩

theorem unit_law (u : UnitState) : StationLaw (withUnit (unit u)) := withUnit_law _

theorem unit_is (u : UnitState) : IsUnitIn u 0 (unit u) (withUnit (unit u)) := withUnit_is _

theorem idle_has_no (u : UnitState) : NoUnitIn u idle := noUnitIn_of (by cases u <;> decide +kernel)

/-- The record is bound to `recipe`. -/
theorem unit_recipe (r : UnitRecord) (h : r.slot = 1) : (withUnit r).recipeOf r = recipe := by simp only [State.recipeOf, h]; rfl

theorem witness_LoadUnitBindsARecipeToAFreeRecord : idle.listens ∧ (List.replicate 1023 (0x41 : Byte)).length ≤ 1023 :=
  ⟨idle_listens, by decide +kernel⟩

theorem witness_StartRunBeginsOrHoldsTheProfile :
    NoUnitCarries (9 : BitVec 16).toNat idle ∧ (withUnit (unit .loaded)).listens ∧
    CarriesId (1 : BitVec 16).toNat 0 (unit .running) (withUnit (unit .running)) ∧ (unit .running).state ≠ .loaded ∧
    CarriesId (1 : BitVec 16).toNat 0 (unit .loaded) (withUnit (unit .loaded)) ∧ (unit .loaded).state = .loaded ∧
    StationLaw (withUnit (unit .loaded)) ∧ (withUnit (unit .loaded)).halt.profile = false ∧
    recipe.steps = step1 :: [step2, step3, step4] ∧ step1.endsAtEntry = false ∧
    ((held 0 (withUnit (unit .loaded))).listens ∧ CarriesId (1 : BitVec 16).toNat 0 (unit .loaded) (held 0 (withUnit (unit .loaded))) ∧
      StationLaw (held 0 (withUnit (unit .loaded))) ∧ (held 0 (withUnit (unit .loaded))).halt.profile = true) :=
  ⟨noUnitCarries_of (by decide +kernel), unit_listens _, unit_carries _, by decide, unit_carries _, rfl, unit_law _, by decide +kernel,
    test_recipe_steps, by decide, ⟨rfl, rfl⟩, unit_carries _, unit_law _, by decide +kernel⟩

/-- A chamber that fills, settles or vents, with `ms` to go. -/
def filling (ms : Nat) : Chamber := ⟨.fill, some ms, none, none⟩
def settling (ms : Nat) : Chamber := ⟨.settle, some ms, none, none⟩
def venting (ms : Nat) (after : AfterVent) : Chamber := ⟨.vent, some ms, some after, none⟩

/-- The record of `leaking`. -/
def leakingUnit : UnitRecord := { unit .leaking with leak := { LeakSection.begun recipe with state := .inProgress } }

theorem leaking_is (a b c : Chamber) (q : List (Fin 4)) : IsUnitIn .leaking 0 leakingUnit (leaking a b c q) :=
  withUnit_is leakingUnit

theorem leaking_law (a b c : Chamber) (q : List (Fin 4)) : StationLaw (leaking a b c q) :=
  withUnit_law leakingUnit

theorem leaking_carries (a b c : Chamber) (q : List (Fin 4)) : CarriesId (1 : BitVec 16).toNat 0 leakingUnit (leaking a b c q) :=
  withUnit_carries leakingUnit

/-- The record of `running`. -/
def runningUnit : UnitRecord := { unit .running with runIn := { RunIn.begun with state := .inProgress } }

theorem running_is (p : Phase) (k : Nat) (v : Int) : IsUnitIn .running 0 runningUnit (running p k v) :=
  withUnit_is runningUnit

theorem running_law (p : Phase) (k : Nat) (v : Int) : StationLaw (running p k v) := withUnit_law runningUnit

theorem running_carries (p : Phase) (k : Nat) (v : Int) : CarriesId (1 : BitVec 16).toNat 0 runningUnit (running p k v) :=
  withUnit_carries runningUnit

theorem running_step {p : Phase} {k : Nat} {v : Int} {x : Step} (h : recipe.steps[k - 1]? = some x) :
    ((running p k v).recipeOf runningUnit).steps[k - 1]? = some x := h

theorem witness_AbortUnitActsByTheRecordsState :
    (NoUnitCarries (9 : BitVec 16).toNat idle ∧ idle.listens) ∧
    (∀ u, CarriesId (1 : BitVec 16).toNat 0 (unit u) (withUnit (unit u)) ∧ StationLaw (withUnit (unit u)) ∧ (unit u).state = u ∧
      (withUnit (unit u)).listens) ∧
    (CarriesId (1 : BitVec 16).toNat 0 runningUnit (running .stepping 1 100) ∧ StationLaw (running .stepping 1 100) ∧
      runningUnit.state = .running ∧ (running .stepping 1 100).pe.phase = .stepping ∧ (running .stepping 1 100).pe.setpoint ≠ 0) ∧
    (CarriesId (1 : BitVec 16).toNat 0 leakingUnit (leaking (filling 5) (rest .waitFill) (rest .waitFill) [1, 2]) ∧
      StationLaw (leaking (filling 5) (rest .waitFill) (rest .waitFill) [1, 2]) ∧ leakingUnit.state = .leaking ∧
      ∃ c, ((leaking (filling 5) (rest .waitFill) (rest .waitFill) [1, 2]).chamber c).phase.attempting = true ∨
        ((leaking (filling 5) (rest .waitFill) (rest .waitFill) [1, 2]).chamber c).phase = .vent) ∧
    (CarriesId (1 : BitVec 16).toNat 0 leakingUnit (leaking (rest .waitFill) (rest .done) (rest .idle) [0]) ∧
      StationLaw (leaking (rest .waitFill) (rest .done) (rest .idle) [0]) ∧
      ∀ c, ((leaking (rest .waitFill) (rest .done) (rest .idle) [0]).chamber c).phase.attempting = false ∧
        ((leaking (rest .waitFill) (rest .done) (rest .idle) [0]).chamber c).phase ≠ .vent) :=
  ⟨⟨noUnitCarries_of (by decide +kernel), idle_listens⟩, fun u => ⟨unit_carries u, unit_law u, rfl, unit_listens u⟩,
    ⟨running_carries _ _ _, running_law _ _ _, rfl, rfl, by decide +kernel⟩,
    ⟨leaking_carries _ _ _ _, leaking_law _ _ _ _, rfl, ⟨0, .inl (by decide +kernel)⟩⟩,
    leaking_carries _ _ _ _, leaking_law _ _ _ _, by decide +kernel⟩

/-- A RUNNING unit in each other phase of its profile, and in STEPPING at setpoint 0. -/
theorem witness_AbortUnitStopsEveryPhase :
    (∀ p v, CarriesId (1 : BitVec 16).toNat 0 runningUnit (running p 1 v) ∧ StationLaw (running p 1 v) ∧
      (running p 1 v).listens ∧ runningUnit.state = .running ∧ (running p 1 v).pe.phase = p) ∧
    (running .suspended 1 100).pe.setpoint ≠ 0 ∧ (running .stepping 1 0).pe.setpoint = 0 :=
  ⟨fun _ _ => ⟨running_carries _ _ _, running_law _ _ _, ⟨rfl, rfl⟩, rfl, rfl⟩, by decide +kernel, rfl⟩

/-- The leak test of a record of `recipe` without an abort mark and a failed run-in is not skipped. -/
theorem not_skipped {r : UnitRecord} {x : Recipe} (hx : x = recipe) (h1 : r.abort = false) (h2 : r.runIn.verdict ≠ some .fail) :
    ¬(r.abort = true ∨ (r.runIn.verdict = some .fail ∧ x.leakAfterFail = false) ∨
      ∀ c : Fin 4, (x.chambers[c]).enabled = false) := by
  rintro (h | h | h)
  · simp [h1] at h
  · exact h2 h.1
  · have := h 0
    rw [hx, recipe_enabled] at this
    exact absurd this (by decide)

theorem witness_ArrivalStopsTheConveyorAndDecidesTheLeakStart :
    (StationLaw idle ∧ NoUnitIn .inTransfer idle) ∧
    (StationLaw (withUnit (unit .inTransfer)) ∧ IsUnitIn .inTransfer 0 (unit .inTransfer) (withUnit (unit .inTransfer)) ∧
      (withUnit (unit .inTransfer)).halt.leak = false ∧
      ¬((unit .inTransfer).abort = true ∨ ((unit .inTransfer).runIn.verdict = some .fail ∧
        ((withUnit (unit .inTransfer)).recipeOf (unit .inTransfer)).leakAfterFail = false) ∨
        ∀ c : Fin 4, (((withUnit (unit .inTransfer)).recipeOf (unit .inTransfer)).chambers[c]).enabled = false)) ∧
    (IsUnitIn .inTransfer 0 (unit .inTransfer) (held 0 (withUnit (unit .inTransfer))) ∧
      StationLaw (held 0 (withUnit (unit .inTransfer))) ∧ (held 0 (withUnit (unit .inTransfer))).halt.leak = true) ∧
    (IsUnitIn .inTransfer 0 { unit .inTransfer with abort := true } (withUnit { unit .inTransfer with abort := true }) ∧
      StationLaw (withUnit { unit .inTransfer with abort := true }) ∧ ({ unit .inTransfer with abort := true }).abort = true) :=
  ⟨⟨stationLaw_of (by decide +kernel), idle_has_no _⟩,
    ⟨unit_law _, unit_is _, by decide +kernel, not_skipped (unit_recipe _ rfl) rfl (by decide)⟩,
    ⟨unit_is _, unit_law _, by decide +kernel⟩,
    withUnit_is _, withUnit_law _, rfl⟩

theorem witness_TransferStartsWhenItsThreeThingsHold :
    NoUnitIn .runDone idle ∧ (held 0 idle).halt.transfer = true ∧
    IsUnitIn .runDone 0 (unit .runDone) (withUnit (unit .runDone)) ∧ (withUnit (unit .runDone)).halt.transfer = false ∧
    Station2Free (withUnit (unit .runDone)) :=
  ⟨idle_has_no _, by decide +kernel, unit_is _, by decide +kernel, station2Free_of (by decide +kernel)⟩

/-- `s` with the line silence timer as given. -/
def withSilence (x : Silence) (s : State) : State := s.setLp { s.lp with silence := x }

/-- `withUnit (unit .inTransfer)` with the conveyor running. -/
def transferring : State :=
  let s := withUnit (unit .inTransfer)
  s.setUt { s.ut with transferLine := true, transferTimer := some 7 }

theorem witness_TimerExpiriesLatchTheirConditions :
    (idle.lp.silence = .disarmed ∧ (withSilence .expired idle).lp.silence = .expired) ∧
    ((withSilence (.running 0) idle).lp.silence = .running 0 ∧ (withSilence (.running 0) idle).active 2 = false) ∧
    ((withSilence (.running 9) (raise 2 idle)).lp.silence = .running 9 ∧ (withSilence (.running 9) (raise 2 idle)).active 2 = true) ∧
    idle.ut.transferTimer = none ∧
    (transferring.ut.transferTimer = some 7 ∧ IsUnitIn .inTransfer 0 (unit .inTransfer) transferring ∧ StationLaw transferring ∧
      transferring.active 9 = false) ∧
    ((raise 9 transferring).ut.transferTimer = some 7 ∧ IsUnitIn .inTransfer 0 (unit .inTransfer) (raise 9 transferring) ∧
      StationLaw (raise 9 transferring) ∧ (raise 9 transferring).active 9 = true) :=
  ⟨by decide +kernel, by decide +kernel, by decide +kernel, by decide +kernel,
    ⟨rfl, unit_is _, unit_law _, by decide +kernel⟩, rfl, unit_is _, unit_law _, by decide +kernel⟩

/-- `s` with the reset vent running. -/
def withVent (s : State) : State := s.setLkc { s.lkc with resetVent := .running (some 9) }

theorem witness_LeakStartSkipsWaitsOrStarts :
    NoUnitIn .atLeak idle ∧
    (IsUnitIn .atLeak 0 { unit .atLeak with abort := true } (withUnit { unit .atLeak with abort := true }) ∧
      ({ unit .atLeak with abort := true }).abort = true) ∧
    (IsUnitIn .atLeak 0 (unit .atLeak) (held 0 (withUnit (unit .atLeak))) ∧
      ¬((unit .atLeak).abort = true ∨ ((unit .atLeak).runIn.verdict = some .fail ∧
        ((held 0 (withUnit (unit .atLeak))).recipeOf (unit .atLeak)).leakAfterFail = false) ∨
        ∀ c : Fin 4, (((held 0 (withUnit (unit .atLeak))).recipeOf (unit .atLeak)).chambers[c]).enabled = false) ∧
      (held 0 (withUnit (unit .atLeak))).halt.leak = true) ∧
    (IsUnitIn .atLeak 0 (unit .atLeak) (withUnit (unit .atLeak)) ∧ (withUnit (unit .atLeak)).halt.leak = false ∧
      StationLaw (withUnit (unit .atLeak)) ∧ (∀ c, (withUnit (unit .atLeak)).chamber c = ⟨.idle, none, none, none⟩) ∧
      (withUnit (unit .atLeak)).lkc.queue = [] ∧ (withUnit (unit .atLeak)).lkc.resetVent = .over ∧
      (List.finRange 4).filter (fun c => (((withUnit (unit .atLeak)).recipeOf (unit .atLeak)).chambers[c]).enabled) = 0 :: [1, 2]) ∧
    (IsUnitIn .atLeak 0 (unit .atLeak) (withVent (withUnit (unit .atLeak))) ∧
      StationLaw (withVent (withUnit (unit .atLeak))) ∧ (withVent (withUnit (unit .atLeak))).lkc.resetVent ≠ .over) := by
  refine ⟨idle_has_no _, ⟨withUnit_is _, rfl⟩,
    ⟨unit_is _, not_skipped (unit_recipe _ rfl) rfl (by decide), by decide +kernel⟩,
    ⟨unit_is _, by decide +kernel, unit_law _, by decide +kernel, rfl, rfl, ?_⟩, unit_is _, unit_law _, by decide +kernel⟩
  rw [unit_recipe _ rfl]
  simp only [recipe_enabled]
  decide

/-- The record of a unit whose profile is over. -/
def finishedUnit : UnitRecord := { unit .running with runIn := { RunIn.begun with state := .finished } }

theorem witness_RunDoneFollowsTheProfileAndTheWindows :
    NoUnitIn .running idle ∧
    (IsUnitIn .running 0 runningUnit (running .stepping 1 0) ∧ ¬((runningUnit.runIn.state = .finished ∨
      runningUnit.runIn.state = .failed ∨ runningUnit.runIn.state = .aborted) ∧ (running .stepping 1 0).oa.windows = [])) ∧
    (IsUnitIn .running 0 finishedUnit (withUnit finishedUnit) ∧ finishedUnit.runIn.state = .finished ∧
      (withUnit finishedUnit).oa.windows = [] ∧ StationLaw (withUnit finishedUnit)) :=
  ⟨idle_has_no _, ⟨running_is _ _ _, by decide +kernel⟩,
    withUnit_is _, rfl, rfl, withUnit_law _⟩

/-- A LEAKING record whose chambers all have a verdict. -/
def judgedUnit : UnitRecord := { unit .leaking with
  leak := ⟨.inProgress, none, Vector.ofFn fun _ => ⟨none, 1, none, none, none, none, some .pass⟩⟩ }

/-- The same record with its abort mark. -/
def abortedUnit : UnitRecord := { judgedUnit with abort := true }

/-- A LEAKING machine with record `r`, every chamber in phase `p`. -/
def allIn (p : ChamberPhase) (r : UnitRecord) : State :=
  let s := withUnit r
  s.setLkc { s.lkc with chambers := Vector.ofFn fun _ => rest p }

theorem allIn_phase (p : ChamberPhase) (r : UnitRecord) (c : Fin 4) : ((allIn p r).chamber c).phase = p := by
  simp [allIn, State.chamber, rest]

theorem witness_UnitDoneAssemblesTheReport :
    NoUnitIn .leaking idle ∧
    (IsUnitIn .leaking 0 abortedUnit (allIn .vent abortedUnit) ∧ abortedUnit.abort = true ∧
      ¬∀ c, ((allIn .vent abortedUnit).chamber c).phase ≠ .vent) ∧
    (IsUnitIn .leaking 0 judgedUnit (allIn .settle judgedUnit) ∧ judgedUnit.abort = false ∧
      ¬∀ c, ((allIn .settle judgedUnit).chamberPlan c).enabled = true → ((allIn .settle judgedUnit).chamber c).phase = .done ∧
        ((judgedUnit.leak.chambers[c]).verdict).isSome = true) ∧
    (IsUnitIn .leaking 0 abortedUnit (allIn .idle abortedUnit) ∧
      (∀ c, ((allIn .idle abortedUnit).chamber c).phase ≠ .vent)) ∧
    (IsUnitIn .leaking 0 judgedUnit (allIn .done judgedUnit) ∧
      ∀ c, ((allIn .done judgedUnit).chamberPlan c).enabled = true → ((allIn .done judgedUnit).chamber c).phase = .done ∧
        ((judgedUnit.leak.chambers[c]).verdict).isSome = true) := by
  refine ⟨idle_has_no _, ⟨withUnit_is _, rfl, fun h => h 0 (allIn_phase _ _ _)⟩,
    ⟨withUnit_is _, rfl, fun h => ?_⟩, ⟨withUnit_is _, fun c => ?_⟩,
    withUnit_is _, fun c _ => ⟨allIn_phase _ _ _, by revert c; decide +kernel⟩⟩
  · have h1 := (h 0 (by decide +kernel)).1
    rw [allIn_phase] at h1
    cases h1
  · rw [allIn_phase]
    decide

theorem witness_ReportReleaseFreesTheHead :
    (idle.listens ∧ (1 : BitVec 16).toNat ∉ idle.reports) ∧
    ((idle.setReports [5, 1]).reports = 5 :: [1] ∧ (1 : BitVec 16).toNat ≠ 5 ∧ (1 : BitVec 16).toNat ∈ [1]) ∧
    (((withUnit (unit .done)).setReports [1]).reports = (1 : BitVec 16).toNat :: [] ∧
      CarriesId (1 : BitVec 16).toNat 0 (unit .done) ((withUnit (unit .done)).setReports [1])) :=
  ⟨⟨idle_listens, by decide +kernel⟩, by decide +kernel, by decide +kernel, unit_carries _⟩

theorem running_recipe (p : Phase) (k : Nat) (v : Int) : (running p k v).recipeOf runningUnit = recipe := rfl

/-- A STOPPING profile. -/
def stopping (cause : StopCause) (v : Int) : State :=
  let s := running .stopping 1 v
  s.setPe { s.pe with cause := some cause }

/-- A profile under a HARD halt. -/
def hardHalted : State :=
  let s := running .suspended 1 0
  s.setPe { s.pe with halt := .hard }

theorem witness_SetpointUpdateMovesByTheRateInForce :
    (∀ p, StationLaw (running p 1 300000) ∧ IsUnitIn .running 0 runningUnit (running p 1 300000) ∧
      (running p 1 300000).pe.setpoint.natAbs ≤ ((running p 1 300000).recipeOf runningUnit).maxSpeed * 100 ∧
      (running p 1 300000).pe.phase = p ∧ (running p 1 300000).pe.step = some 1 ∧
      ((running p 1 300000).recipeOf runningUnit).steps[1 - 1]? = some step1 ∧ (running p 1 300000).pe.halt ≠ .hard) ∧
    (StationLaw hardHalted ∧ IsUnitIn .running 0 runningUnit hardHalted ∧
      hardHalted.pe.setpoint.natAbs ≤ (hardHalted.recipeOf runningUnit).maxSpeed * 100 ∧ hardHalted.pe.phase = .suspended ∧
      hardHalted.pe.halt = .hard) ∧
    (∀ cause v, v = 400 ∨ v = 401 → StationLaw (stopping cause v) ∧ IsUnitIn .running 0 runningUnit (stopping cause v) ∧
      (stopping cause v).pe.setpoint.natAbs ≤ ((stopping cause v).recipeOf runningUnit).maxSpeed * 100 ∧
      (stopping cause v).pe.phase = .stopping ∧ (stopping cause v).pe.cause = some cause) := by
  refine ⟨fun p => ⟨running_law _ _ _, running_is _ _ _, ?_, rfl, rfl, ?_, fun h => nomatch (show HaltStyle.none = .hard from h)⟩, ⟨withUnit_law runningUnit,
    withUnit_is runningUnit, Nat.zero_le _, rfl, rfl⟩, fun c v hv => ⟨withUnit_law runningUnit, withUnit_is runningUnit, ?_, rfl, rfl⟩⟩
  · rw [running_recipe, recipe_fields.1]
    exact Nat.le_refl _
  · rw [running_recipe, test_recipe_steps]
    rfl
  · show v.natAbs ≤ recipe.maxSpeed * 100
    rw [recipe_fields.1]
    omega

/-- Step `k` of `recipe` is current. -/
theorem running_steps {k : Nat} {x : Step} (v : Int) (h1 : 1 ≤ k) (h : [step1, step2, step3, step4][k - 1]? = some x) :
    IsStepping k x 0 runningUnit (running .stepping k v) :=
  ⟨running_law _ _ _, running_is _ _ _, rfl, rfl, h1, by rw [running_recipe, test_recipe_steps]; exact h⟩

theorem witness_StepTimerExpiryEndsOrFailsTheStep :
    idle.pe.stepTimer = none ∧
    (IsStepping 1 step1 0 runningUnit (running .stepping 1 2000) ∧ (running .stepping 1 2000).pe.stepTimer = some 50 ∧
      step1.kind = .ramp ∧ (running .stepping 1 2000).pe.setpoint ≠ 0) ∧
    (IsStepping 1 step1 0 runningUnit (running .stepping 1 0) ∧ (running .stepping 1 0).pe.setpoint = 0) ∧
    (IsStepping 2 step2 0 runningUnit (running .stepping 2 2000) ∧ (running .stepping 2 2000).pe.stepTimer = some 50 ∧
      step2.kind ≠ .ramp ∧ 1 ≤ (nextStep 2 step2 2).1 ∧ recipe.steps[(nextStep 2 step2 2).1 - 1]? = some step1 ∧
      step1.endsAtEntry = false) ∧
    (IsStepping 4 step4 0 runningUnit (running .stepping 4 0) ∧ (running .stepping 4 0).pe.stepTimer = some 50 ∧
      step4.kind ≠ .ramp ∧ (running .stepping 4 0).pe.setpoint = 0 ∧ recipe.steps.length < (nextStep 4 step4 0).1) ∧
    (IsStepping 4 step4 0 runningUnit (running .stepping 4 2000) ∧ (running .stepping 4 2000).pe.stepTimer = some 50 ∧
      (running .stepping 4 2000).pe.setpoint ≠ 0 ∧ step4.kind = .measureDrag ∧ runningUnit.runIn.dragResult = none) := by
  rw [test_recipe_steps]
  exact ⟨rfl, ⟨running_steps _ (by decide) rfl, rfl, rfl, by decide +kernel⟩, ⟨running_steps _ (by decide) rfl, rfl⟩,
    ⟨running_steps _ (by decide) rfl, rfl, by decide, by decide, rfl, by decide⟩,
    ⟨running_steps _ (by decide) rfl, rfl, by decide, rfl, by decide⟩,
    running_steps _ (by decide) rfl, rfl, by decide +kernel, rfl, rfl⟩

/-- `idle` with the KEY line deasserted. -/
def inProduction : State := idle.setCu { idle.cu with mode := .production }

theorem witness_AdvanceStepEndsTheCurrentStep :
    (inProduction.listens ∧ inProduction.cu.mode = .production) ∧
    (idle.listens ∧ idle.cu.mode = .maintenance ∧ idle.pe.phase ≠ .stepping) ∧
    ((running .stepping 1 0).listens ∧ (running .stepping 1 0).cu.mode = .maintenance ∧
      IsStepping 1 step1 0 runningUnit (running .stepping 1 0) ∧ recipe.steps[(nextStep 1 step1 0).1 - 1]? = some step2 ∧
      step2.endsAtEntry = false) := by
  rw [test_recipe_steps]
  exact ⟨⟨⟨rfl, rfl⟩, rfl⟩, ⟨idle_listens, rfl, by decide +kernel⟩, ⟨rfl, rfl⟩, rfl, running_steps _ (by decide) rfl, rfl, by decide⟩

theorem witness_FeedbackOnTargetEndsARampOrAReapproach :
    (∀ p k, StationLaw (running p k 2000) ∧ IsUnitIn .running 0 runningUnit (running p k 2000) ∧
      (running p k 2000).pe.phase = p ∧ (running p k 2000).pe.step = some k) ∧
    (recipe.steps[1 - 1]? = some step1 ∧ recipe.steps[2 - 1]? = some step2) ∧
    ((running .stepping 1 2000).halt.profile = false ∧
      (315000 : Int).natAbs ≤ ((running .stepping 1 2000).recipeOf runningUnit).maxSpeed * 105) ∧
    ((running .stepping 1 2000).pe.setpoint = step1.target * 100 ∧
      ((2500 : Int) - step1.target * 100).natAbs ≤ ((running .stepping 1 2000).recipeOf runningUnit).tolerance * 100 ∧
      step1.kind = .ramp ∧ recipe.steps[(nextStep 1 step1 0).1 - 1]? = some step2 ∧ step2.endsAtEntry = false) ∧
    ¬((2501 : Int) - step1.target * 100).natAbs ≤ recipe.tolerance * 100 ∧ step2.kind ≠ .ramp := by
  rw [running_recipe, recipe_fields.1, recipe_fields.2.1, test_recipe_steps]
  exact ⟨fun p k => ⟨running_law _ _ _, running_is _ _ _, rfl, rfl⟩, ⟨rfl, rfl⟩, ⟨by decide +kernel, by decide⟩,
    ⟨rfl, by decide, rfl, rfl, by decide⟩, by decide, by decide⟩

/-- The last step of `recipe` as a RAMP to `target` rpm. -/
def lastRamp (target : Byte) : State := patched [(180, 0), (184, target)] (running .stepping 4 (100 * target.toNat))

/-- `recipe`'s last step as a RAMP. -/
def rampStep (target : Int) : Step := ⟨.ramp, target, 2000, 5000, 0, 0, 0, 1, 0⟩

/-- The last step ends at setpoint 0 and at another: after its time, at ADVANCE_STEP, and on target. -/
theorem witness_LastStepEnds :
    (∀ v, (running .stepping 4 v).listens ∧ (running .stepping 4 v).cu.mode = .maintenance ∧
      IsStepping 4 step4 0 runningUnit (running .stepping 4 v)) ∧
    (recipe.steps.length < (nextStep 4 step4 0).1 ∧ (running .stepping 4 0).pe.setpoint = 0 ∧
      (running .stepping 4 2000).pe.setpoint ≠ 0) ∧
    (∀ x, StationLaw (lastRamp x) ∧ IsUnitIn .running 0 runningUnit (lastRamp x) ∧ (lastRamp x).pe.phase = .stepping ∧
      (lastRamp x).pe.step = some 4) ∧
    ∀ x ∈ [(0 : Byte), 20], let w := (lastRamp x).recipeOf runningUnit
      w.steps[4 - 1]? = some (rampStep x.toNat) ∧ w.steps.length < (nextStep 4 (rampStep x.toNat) 0).1 ∧
      (lastRamp x).halt.profile = false ∧ (lastRamp x).pe.setpoint = (rampStep x.toNat).target * 100 ∧
      (((2500 : Int) - (rampStep x.toNat).target * 100).natAbs ≤ w.tolerance * 100 ↔ x = 20) ∧
      ((0 : Int) - (rampStep 0).target * 100).natAbs ≤ w.tolerance * 100 ∧ (2500 : Int).natAbs ≤ w.maxSpeed * 105 := by
  refine ⟨fun v => ⟨⟨rfl, rfl⟩, rfl, running_steps _ (by decide) rfl⟩, ?_,
    fun x => ⟨withUnit_law runningUnit, withUnit_is runningUnit, rfl, rfl⟩, by decide +kernel⟩
  rw [test_recipe_steps]
  decide +kernel

/-- `recipe` with settle time 0 for its window. -/
def settlesAtOnce (s : State) : State := patched [(226, 0)] s

/-- The settle time of the next step's window: none for a step without one, 100 ms, and 0. -/
theorem witness_StepLoadsItsSettleTimer :
    (step1.window = 0 ∧ step2.window = 1 ∧ recipe.windows[step2.window - 1]? = some window1.spec ∧ window1.spec.settle = 100) ∧
    (let w := (settlesAtOnce (running .stepping 1 2000)).recipeOf runningUnit;
      (w.windows[step2.window - 1]?).map WindowSpec.settle = some 0 ∧ w.steps[1 - 1]? = some step1 ∧
      w.steps[(nextStep 1 step1 0).1 - 1]? = some step2) := by
  rw [test_recipe_windows.1]
  exact ⟨by decide, by decide +kernel⟩

/-- A RUNNING unit whose drive has been enabled for `ms`. -/
def enabledFor (ms : Nat) : State :=
  let s := (running .stepping 1 100).elapse (1000 * ms)
  s.setPe { s.pe with enabledAt := some 0 }

theorem enabled_law (ms : Nat) : StationLaw (enabledFor ms) := withUnit_law runningUnit

theorem enabled_is (ms : Nat) : IsUnitIn .running 0 runningUnit (enabledFor ms) := withUnit_is runningUnit

theorem witness_FeedbackJudgesOverspeedAndDriveFault :
    (IsSpeedLimit 315000 idle ∧ idle.pe.phase = .idle ∧ idle.pe.enable = false ∧ idle.halt.profile = false) ∧
    (idle.active 3 = false ∧ decide (315000 < (-315001 : Int).natAbs) = true ∧ decide (315000 < (315000 : Int).natAbs) = false) ∧
    ((raise 4 (raise 3 idle)).active 3 = true ∧ (raise 4 (raise 3 idle)).active 4 = true) ∧
    (IsSpeedLimit 315000 (enabledFor 500) ∧ (enabledFor 500).pe.step = some 1 ∧
      ((enabledFor 500).recipeOf runningUnit).steps[1 - 1]? = some step1 ∧
      ((enabledFor 500).recipeOf runningUnit).tolerance * 100 < ((2501 : Int) - step1.target * 100).natAbs) ∧
    StationLaw (enabledFor 500) ∧ IsUnitIn .running 0 runningUnit (enabledFor 500) ∧
    (driveFaultAsserted false false (enabledFor 500) = true ∧ driveFaultAsserted false false (enabledFor 499) = false ∧
      driveFaultAsserted true true idle = true ∧ (enabledFor 500).active 4 = false) := by
  refine ⟨⟨.inl ⟨fun j r h => ?_, rfl⟩, by decide +kernel⟩, by decide +kernel, by decide +kernel,
    ⟨.inr ⟨0, runningUnit, rfl, rfl, enabled_law _, ?_⟩, rfl, ?_, ?_⟩, enabled_law _, enabled_is _, by decide +kernel⟩
  · have hall : ∀ j : Fin 8, idle.ut.records[j] = none := by decide +kernel
    rw [hall j] at h
    cases h
  · show 315000 = recipe.maxSpeed * 105
    rw [recipe_fields.1]
  · show recipe.steps[1 - 1]? = some step1
    rw [test_recipe_steps]
    rfl
  · show recipe.tolerance * 100 < _
    rw [recipe_fields.2.1]
    decide

/-- Step 2 with its window still to settle. -/
def settlingWindow : State :=
  let s := running .stepping 2 2000
  s.setPe { s.pe with settleTimer := some 3 }

theorem witness_WindowSettleExpiryOpensTheWindow :
    idle.pe.settleTimer = none ∧
    (IsStepping 2 step2 0 runningUnit settlingWindow ∧ settlingWindow.pe.settleTimer = some 3 ∧
      settlingWindow.halt.noise = false ∧ step2.window ≠ 0 ∧ settlingWindow.pe.openSent = false ∧
      (∃ w ∈ settlingWindow.oa.windows, w.number = step2.window ∧ (w.state = .idle ∨ w.state = .paused)) ∧
      (settlingWindow.stream .vib).state = .idle) ∧
    (IsStepping 2 step2 0 runningUnit (held 3 settlingWindow) ∧ (held 3 settlingWindow).pe.settleTimer = some 3 ∧
      (held 3 settlingWindow).halt.noise = true) :=
  ⟨rfl, ⟨running_steps 2000 (by decide) rfl, rfl, by decide +kernel, by decide, rfl, ⟨window1, by decide +kernel⟩, rfl⟩,
    running_steps 2000 (by decide) rfl, rfl, by decide +kernel⟩

/-- A VIB record of window 1 that fills, `pulses` pulses after its index. -/
def opened (pulses : Nat) : State :=
  let s := idle.setAfe { idle.afe with openVib := some 0, pulses := pulses, periodUs := some 60000000 }
  s.setCs { s.cs with
    vib := ⟨.running, ⟨8, 0, 50⟩, none, 2, 0, 0, none⟩
    vibDescs := s.cs.vibDescs.set 0 ⟨.filling, 0, 2, 0, 1, .fwd, 0, 0, false, [⟨.acc0, []⟩, ⟨.mic, []⟩]⟩ }

theorem no_plan_waits (s : State) (h : s.cs.vib.state ≠ .pendingPlan ∧ s.cs.slow.state ≠ .pendingPlan ∧
    s.cs.leak.state ≠ .pendingPlan) : NoPlanWaits s := by
  rintro (_ | _ | _)
  · exact h.1
  · exact h.2.1
  · exact h.2.2

theorem witness_PulsesFillTheOpenRecordAndTimeoutAbandonsIt :
    (idle.afe.openVib = none ∧ (idle.afe.pulses + 1) % 8 ≠ 0) ∧ 1024 ≤ (opened 1023).afe.pulses + 1 ∧
    ((opened 1015).afe.openVib = some 0 ∧ ((opened 1015).afe.pulses + 1) % 8 = 0 ∧ (opened 1015).afe.pulses + 1 < 1024) ∧
    ((opened 7).afe.periodUs = some 60000000 ∧ 60000000 ≤ 60000000 ∧ NoPlanWaits (opened 7)) :=
  ⟨by decide +kernel, by decide +kernel, by decide +kernel, rfl, by decide, no_plan_waits _ (by decide +kernel)⟩

/-- A record that closes while the analyzer is busy, its window PAUSED. -/
def closingRecord : State :=
  let s := opened 1024
  s.setOa { s.oa with windows := [{ window1 with state := .paused, held := 1 }], current := some 1 }

/-- Window 1 OPEN, the VIB stream RUNNING with a reservation of `res`, and no record open. -/
def capturing (res : Nat) : State :=
  let s := idle.setOa { idle.oa with windows := [{ window1 with state := .opened, opened := true }] }
  s.setCs { s.cs with vib := ⟨.running, ⟨res, 0, 50⟩, none, 0, 0, 0, none⟩ }

theorem witness_IndexClosesARecordAndMakesTheBoundary :
    (closingRecord.halt.profile = false ∧ closingRecord.afe.openVib = some 0 ∧ closingRecord.oa.openWindow = none ∧
      closingRecord.oa.window (closingRecord.cs.vibDescs[(0 : Fin 32)]).window = some { window1 with state := .paused, held := 1 } ∧
      closingRecord.oa.current = some 1) ∧
    ((capturing 2).afe.openVib = none ∧ (capturing 2).halt.profile = false ∧
      (capturing 2).oa.openWindow = some { window1 with state := .opened, opened := true } ∧
      ((capturing 2).stream .vib).state = .running ∧ ((capturing 2).cs.vibDescs[(0 : Fin 32)]).state = .free ∧
      2 ≤ (capturing 2).cs.obtainable .vib) ∧
    ((capturing 1).cs.obtainable .vib < 2 ∧ (capturing 1).active 13 = false ∧ (raise 13 (capturing 1)).active 13 = true ∧
      (raise 13 (capturing 1)).cs.obtainable .vib < 2) := by decide +kernel

/-- A record of window 1 closing after `pulses` pulses with the analyzer free, the window in state `x`. -/
def delivered (x : WindowState) (pulses : Nat) : State :=
  let s := opened pulses
  s.setOa { s.oa with windows := [{ window1 with state := x, opened := true }] }

/-- The record that `delivered` closes at an index 0 µs later. -/
def closedRecord (pulses : Nat) : VibDescriptor := { (opened pulses).cs.vibDescs[(0 : Fin 32)] with
  state := .held, pulses := pulses, periodUs := 60000000, direction := .fwd }

/-- A record delivered to a free analyzer, at both ends of the checks: 1,024 pulses at the least speed pass, 1,023 do not. -/
theorem witness_IndexDeliversToAFreeAnalyzer :
    (∀ x, (delivered x 1024).halt.profile = false ∧ (delivered x 1024).afe.openVib = some 0 ∧
      (delivered x 1024).afe.periodUs = some 60000000 ∧ (delivered x 1024).oa.current = none ∧ (delivered x 1024).oa.queue = [] ∧
      (delivered x 1024).oa.window ((delivered x 1024).cs.vibDescs[(0 : Fin 32)]).window =
        some { window1 with state := x, opened := true } ∧
      ∀ v ∈ (delivered x 1024).oa.windows, v.number = window1.number → v = { window1 with state := x, opened := true }) ∧
    (∀ x, x = .paused ∨ x = .closing ∨ x = .complete → (delivered x 1024).oa.openWindow = none) ∧
    (Passes (closedRecord 1024) window1.spec ∧ ¬Passes (closedRecord 1023) window1.spec) ∧
    (NoPlanWaits (delivered .paused 1023) ∧ NoPlanWaits (delivered .complete 1024)) ∧
    (raise 13 (delivered .opened 1024)).active 13 = true := by
  refine ⟨fun x => by cases x <;> decide +kernel, ?_, ?_, ⟨no_plan_waits _ (by decide +kernel), no_plan_waits _ (by decide +kernel)⟩,
    by decide +kernel⟩
  · rintro x (rfl | rfl | rfl) <;> decide +kernel
  · unfold Passes SameWay InBand
    decide +kernel

/-- `capturing 8` with the VIB stream in state `x`, holding `n` blocks of its reservation. -/
def starving (x : StreamState) (n : Nat) : State :=
  let s := capturing 8
  s.setCs { s.cs with vib := { s.cs.vib with state := x, heldRes := n } }

/-- A STARVED stream at and below its threshold of four blocks, one whose plan waits, and the boundary under a standing PROFILE halt. -/
theorem witness_IndexFindsTheStreamStarved :
    (∀ n ∈ [4, 5], (starving .starved n).afe.openVib = none ∧ HardWhereSevere (starving .starved n) ∧
      (starving .starved n).oa.openWindow = some { window1 with state := .opened, opened := true } ∧
      ((starving .starved n).stream .vib).state = .starved ∧ ((starving .starved n).cs.vibDescs[(0 : Fin 32)]).state = .free ∧
      (max 2 ((50 * 8 + 99) / 100) ≤ (starving .starved n).cs.obtainable .vib ↔ n = 4)) ∧
    (((starving .pendingPlan 4).stream .vib).state = .pendingPlan ∧ (starving .pendingPlan 4).halt.noise = false ∧
      HardWhereSevere (starving .pendingPlan 4)) ∧
    ∀ s : State, (profileHeld s).afe = s.afe ∧ (profileHeld s).oa = s.oa ∧ (profileHeld s).cs = s.cs ∧
      (profileHeld s).cu.conditions = s.cu.conditions ∧ (profileHeld s).halt.noise = false ∧ (profileHeld s).halt.leak = false := by
  refine ⟨?_, ?_, fun s => ⟨rfl, rfl, rfl, rfl, rfl, rfl⟩⟩ <;> unfold HardWhereSevere <;> decide +kernel

/-- `delivered .opened 1024` with the analyzer at work on record 1. -/
def busyOpened : State :=
  let s := delivered .opened 1024
  (s.setOa { s.oa with current := some 1 }).setCs { s.cs with vibDescs := s.cs.vibDescs.set 1 { s.cs.vibDescs[(1 : Fin 32)] with state := .held } }

/-- The accounts after the record of `delivered` has closed at an index 0 µs later. -/
def closedAccounts (pulses : Nat) : CaptureStore :=
  { (delivered .opened pulses).cs with vibDescs := (delivered .opened pulses).cs.vibDescs.set 0 (closedRecord pulses) }

/-- The accounts after that record has been released. -/
def releasedAccounts : CaptureStore :=
  let c := (delivered .opened 1023).cs
  { c with vib := { c.vib with heldRes := 0 }, vibDescs := c.vibDescs.set 0 ⟨.free, 0, 0, 0, 0, .fwd, 0, 0, false, []⟩ }

/-- The index of an OPEN window with VIB_STARVED not active: the record joins a busy analyzer, or passes or fails the checks of a free one,
and the next record finds a FREE descriptor and its blocks; the same for a record of a COMPLETE window. -/
theorem witness_IndexClosesAndCaptures :
    (∀ s ∈ [delivered .opened 1024, delivered .opened 1023, busyOpened], s.active 13 = false ∧ s.halt.profile = false ∧
      s.afe.openVib = some 0 ∧ s.oa.window (s.cs.vibDescs[(0 : Fin 32)]).window = some { window1 with state := .opened, opened := true } ∧
      s.oa.openWindow = some { window1 with state := .opened, opened := true } ∧ s.cs.vib.state = .running ∧
      s.afe.periodUs = some 60000000 ∧ s.afe.sawReverse = false) ∧
    (busyOpened.oa.current = some 1 ∧ (busyOpened.cs.vibDescs[(2 : Fin 32)]).state = .free ∧
      ∀ d : Fin 32, d < 2 → (({ busyOpened.cs with vibDescs := busyOpened.cs.vibDescs.set 0 (closedRecord 1024) } : CaptureStore).vibDescs[d]).state
        ≠ .free) ∧
    (∀ s ∈ [delivered .opened 1024, delivered .opened 1023], s.oa.current = none ∧ s.oa.queue = []) ∧
    (((closedAccounts 1024).vibDescs[(0 : Fin 32)]).state ≠ .free ∧ ((closedAccounts 1024).vibDescs[(1 : Fin 32)]).state = .free ∧
      2 ≤ (closedAccounts 1024).obtainable .vib) ∧
    ((releasedAccounts.vibDescs[(0 : Fin 32)]).state = .free ∧ 2 ≤ releasedAccounts.obtainable .vib) ∧
    (Passes (closedRecord 1024) window1.spec ∧ ¬Passes (closedRecord 1023) window1.spec) ∧
    (NoPlanWaits (delivered .opened 1023) ∧ NoPlanWaits (delivered .complete 1024)) := by
  refine ⟨by decide +kernel, by decide +kernel, by decide +kernel, by decide +kernel, by decide +kernel, ?_,
    no_plan_waits _ (by decide +kernel), no_plan_waits _ (by decide +kernel)⟩
  unfold Passes SameWay InBand
  decide +kernel

/-- Feedback within tolerance in a HOLD step, and in a RAMP step before the setpoint has reached the target. -/
theorem witness_FeedbackEndsNoStep :
    (IsStepping 2 step2 0 runningUnit (running .stepping 2 2000) ∧ step2.kind ≠ .ramp ∧
      ((2000 : Int) - step2.target * 100).natAbs ≤ recipe.tolerance * 100) ∧
    (IsStepping 1 step1 0 runningUnit (running .stepping 1 1900) ∧ (running .stepping 1 1900).pe.setpoint ≠ step1.target * 100 ∧
      IsSpeedLimit 315000 (running .stepping 1 1900)) := by
  refine ⟨⟨running_steps _ (by decide) rfl, by decide, ?_⟩, running_steps _ (by decide) rfl, by decide +kernel,
    .inr ⟨0, runningUnit, rfl, rfl, running_law _ _ _, ?_⟩⟩
  · rw [recipe_fields.2.1]
    decide
  · rw [running_recipe, recipe_fields.1]

/-- The tables that the profile end closes: none, one that closes at once, and one with a record held; and the open record of its window. -/
theorem witness_ProfileEndClosesTheTable :
    (∀ v, ((running .stepping 4 v).oa.windows.map Window.number).Nodup ∧ ∃ w ∈ (running .stepping 4 v).oa.windows, w.state ≠ .closed) ∧
    ((∀ w ∈ [window1].map Window.afterClose, w.state = .closed) ∧
      (∃ w ∈ [{ window1 with state := .paused, held := 1 }].map Window.afterClose, w.state ≠ .closed)) ∧
    (let s := running .stepping 4 0;
      let s := s.setAfe { s.afe with openVib := some 0 };
      let s := s.setCs { s.cs with vibDescs := (opened 7).cs.vibDescs };
      s.afe.openVib = some 0 ∧ ∃ w ∈ s.oa.windows, w.number = (s.cs.vibDescs[(0 : Fin 32)]).window ∧ w.state ≠ .closing ∧ w.state ≠ .closed) :=
  ⟨fun _ => (by decide : ([window1].map Window.number).Nodup ∧ ∃ w ∈ [window1], w.state ≠ .closed), by decide +kernel, by decide +kernel⟩

/-- `idle` with the SLOW stream as given. -/
def slowStream (x : StreamState) (res : Nat) : State :=
  idle.setCs { idle.cs with slow := ⟨x, ⟨res, 0, 50⟩, none, 0, 0, 0, none⟩ }

/-- A RUNNING unit whose SLOW plan waits. -/
def slowWaits : State :=
  let s := running .stepping 1 0
  s.setCs { s.cs with slow := ⟨.pendingPlan, ⟨0, 0, 100⟩, some ⟨10, 1, 25⟩, 0, 5, 0, none⟩ }

theorem witness_SlotStartMakesTheBoundary :
    (∀ ss, (slotsOf ss idle).1 ≤ (slotsOf ss idle).2) ∧ idle.halt.profile = false ∧ (idle.stream .slow).state = .idle ∧
    (((slowStream .running 5).stream .slow).state = .running ∧ 5 ≤ (slowStream .running 5).cs.obtainable .slow ∧
      ¬(∀ d : Fin 8, ((slowStream .running 5).cs.slowDescs[d]).state ≠ .free)) ∧
    ((slowStream .running 4).cs.obtainable .slow < 5 ∧ (slowStream .running 4).active (starvedCondition .slow) = false ∧
      (raise 14 (slowStream .running 4)).cs.obtainable .slow < 5 ∧
      (raise 14 (slowStream .running 4)).active (starvedCondition .slow) = true) ∧
    (((slowStream .starved 4).stream .slow).state = .starved ∧ (slowStream .starved 4).cs.obtainable .slow < max 5 ((50 * 4 + 99) / 100)) ∧
    (((slowStream .starved 5).stream .slow).state = .starved ∧ max 5 ((50 * 5 + 99) / 100) ≤ (slowStream .starved 5).cs.obtainable .slow) ∧
    ((slowWaits.stream .slow).state = .pendingPlan ∧ slowWaits.wanted .slow = true) := by
  refine ⟨fun ss => by cases ss <;> decide +kernel, ?_⟩
  decide +kernel

/-- A first starvation, with capture wanted: of SLOW, and of VIB where VIB_STARVED is set to halt NOISE, which ends it. -/
theorem witness_FirstStarvation :
    (let s := running .stepping 1 0;
      let s := s.setCs { s.cs with slow := ⟨.running, ⟨4, 0, 50⟩, none, 0, 0, 0, none⟩ };
      (s.stream .slow).state = .running ∧ s.wanted .slow = true ∧ s.active (starvedCondition .slow) = false ∧
      s.cs.obtainable .slow < 5) ∧
    (let s := capturing 1;
      let s := s.setCu { s.cu with conditions := s.cu.conditions.set 13 { s.cond 13 with vector := ⟨false, true, false, false⟩ } };
      s.active 13 = false ∧ s.halt.noise = false ∧ s.pe.phase ≠ .stopping ∧ s.cs.vib.state = .running ∧ s.cs.obtainable .vib < 2 ∧
      s.qualifies 13 = false ∧ (s.setCu { s.cu with conditions := s.cu.conditions.set 13 { s.cond 13 with latch := true } }).qualifies 13 = true)
    := by decide +kernel

/-- A SLOW record of slot 4, which is due, under step 4. -/
def slowRecord (s : State) : State :=
  let s := s.setAfe { s.afe with slowSlot := 4, slowEnded := 4 }
  s.setCs { s.cs with slowDescs := s.cs.slowDescs.set 0 ⟨.filling, 4, 5, 0, List.replicate 128 ⟨1, 2, 3, 4, 5⟩⟩ }

theorem witness_SlowRecordIsAbsorbedAndReleased :
    (idle.afe.slowEnded ≤ idle.afe.slowSlot ∧
      ∀ d : Fin 8, (idle.cs.slowDescs[d]).state = .filling → (idle.cs.slowDescs[d]).seq ≠ BitVec.ofNat 32 0) ∧
    ((slowRecord idle).afe.slowEnded ≤ (slowRecord idle).afe.slowSlot ∧
      ((slowRecord idle).cs.slowDescs[(0 : Fin 8)]).state = .filling ∧
      ((slowRecord idle).cs.slowDescs[(0 : Fin 8)]).seq = BitVec.ofNat 32 4 ∧
      (∀ e : Fin 8, e ≠ 0 → ((slowRecord idle).cs.slowDescs[e]).state = .filling →
        ((slowRecord idle).cs.slowDescs[e]).seq ≠ BitVec.ofNat 32 4) ∧ (slowRecord idle).pe.phase = .idle) ∧
    NoPlanWaits (slowRecord idle) ∧
    (IsUnitIn .running 0 runningUnit (slowRecord (running .stepping 4 0)) ∧
      (slowRecord (running .stepping 4 0)).pe.phase ≠ .idle ∧
      IsStepping 4 step4 0 runningUnit (slowRecord (running .stepping 4 0)) ∧ step4.kind = .measureDrag ∧
      (let start := (BitVec.ofNat 32 4 : CellTime) * 256 - (slowRecord (running .stepping 4 0)).pe.stepStart;
        500 ≤ start.toNat ∧ start.toNat + 256 ≤ (((slowRecord (running .stepping 4 0)).elapseTo (256 * (4 + 1))).now -
          (slowRecord (running .stepping 4 0)).pe.stepStart).toNat)) :=
  ⟨by decide +kernel, by decide +kernel, no_plan_waits _ (by decide +kernel), running_is .stepping 4 0, by decide +kernel,
    running_steps 0 (by decide) rfl, rfl, by decide +kernel⟩

/-- A chamber in MEASURE. -/
def measuring (ms : Option Nat) (m : Measure) : Chamber := ⟨.measure, ms, none, some m⟩

/-- A measurement of 2,000 ms from time 0. -/
def measure0 : Measure := ⟨0, 2000, false, none, none, false⟩

/-- Chamber 0 in MEASURE as slot 1 ends with its LEAK record. -/
def leakRecord : State :=
  let s := leaking (measuring (some 500) measure0) (rest .waitFill) (rest .done) [1]
  let s := s.setAfe { s.afe with leakSlot := 1, leakEnded := 1 }
  s.setCs { s.cs with leakDescs := s.cs.leakDescs.set 0 ⟨.filling, 1, 5, 0, List.replicate 128 ⟨20000, 0, 0, 0, 2500⟩⟩ }

/-- A measurement of 2,000 ms from time 0 whose timer has expired, with slot 1 as its first and latest pair. -/
def expired1 : Measure := ⟨0, 2000, true, some ⟨1, 20000, 2500⟩, some ⟨1, 20000, 2500⟩, false⟩

/-- Chamber 0 after its measure time and chamber 1 within its own, as slot 2 ends, the last that can qualify for chamber 0. -/
def lastSlot : State :=
  let s := leaking (measuring none expired1) (measuring (some 500) { measure0 with stop := 2500 }) (rest .done) []
  s.setAfe { s.afe with leakSlot := 2, leakEnded := 2 }

/-- `lastSlot` with the record of the slot. -/
def lastRecord : State :=
  lastSlot.setCs { lastSlot.cs with
    leakDescs := lastSlot.cs.leakDescs.set 0 ⟨.filling, 2, 5, 0, List.replicate 128 ⟨19990, 20000, 0, 0, 2500⟩⟩ }

theorem witness_LeakRecordGivesItsPairsAndIsReleased :
    (idle.afe.leakEnded ≤ idle.afe.leakSlot ∧ IsLeakRecordOf 0 none idle) ∧
    (leakRecord.afe.leakEnded ≤ leakRecord.afe.leakSlot ∧ IsLeakRecordOf 1 (some 0) leakRecord ∧
      (leakRecord.chamber 0).measure = some measure0 ∧ measure0.first = none ∧
      0 ≤ timeDiff ((BitVec.ofNat 32 1 : CellTime) * 640) measure0.start) ∧ NoPlanWaits leakRecord := by
  unfold IsLeakRecordOf
  exact ⟨by decide +kernel, by decide +kernel, no_plan_waits _ (by decide +kernel)⟩

/-- The end of the last slot of one measurement, with its record and without it, beside a measurement that goes on. -/
theorem witness_SlotEndBringsTheEvaluation :
    (lastSlot.afe.leakEnded = 2 ∧ lastSlot.afe.leakSlot = 2 ∧ IsLeakRecordOf 2 none lastSlot ∧ IsLeakRecordOf 2 (some 0) lastRecord) ∧
    (lastRecord.lkc = lastSlot.lkc ∧ (lastSlot.chamber 0).phase = .measure ∧ (lastSlot.chamber 0).measure = some expired1 ∧
      expired1.expired = true ∧
      timeDiff expired1.stop expired1.start < timeDiff ((BitVec.ofNat 32 (2 + 1) : CellTime) * 640 + 635) expired1.start ∧
      (∀ m, (lastSlot.chamber 1).measure = some m → m.expired = false)) ∧
    NoPlanWaits lastRecord ∧ IsUnitIn .leaking 0 leakingUnit lastSlot ∧ IsUnitIn .leaking 0 leakingUnit lastRecord := by
  unfold IsLeakRecordOf
  refine ⟨by decide +kernel, ⟨rfl, rfl, rfl, rfl, by decide +kernel, fun m hm => ?_⟩, no_plan_waits _ (by decide +kernel),
    withUnit_is leakingUnit, withUnit_is leakingUnit⟩
  have he : (lastSlot.chamber 1).measure = some { measure0 with stop := 2500 } := rfl
  rw [he] at hm
  cases hm
  rfl

/-- `idle` with the SLOW stream waiting for a plan, with `held` blocks of the pool. -/
def planWaits (held : Nat) : State :=
  idle.setCs { idle.cs with slow := ⟨.pendingPlan, ⟨0, 0, 100⟩, some ⟨256, 1, 25⟩, 0, held, 0, none⟩ }

theorem witness_WaitingPlanIsAppliedWhenItFits :
    NoPlanWaits idle ∧
    (((planWaits 0).stream .slow).state = .pendingPlan ∧ ((planWaits 0).stream .slow).target = some ⟨256, 1, 25⟩ ∧
      ((planWaits 0).stream .slow).heldRes + ((planWaits 0).stream .slow).heldPool = 0 ∧
      256 ≤ ((planWaits 0).stream .slow).plan.res + (planWaits 0).cs.poolFree) ∧
    (∀ other, other ≠ .slow → ((planWaits 0).stream other).state ≠ .pendingPlan) ∧
    (((planWaits 5).stream .slow).state = .pendingPlan ∧ ((planWaits 5).stream .slow).target = some ⟨256, 1, 25⟩ ∧
      ((planWaits 5).stream .slow).heldRes + ((planWaits 5).stream .slow).heldPool ≠ 0) := by
  refine ⟨no_plan_waits _ (by decide +kernel), by decide +kernel, fun x hx => ?_, by decide +kernel⟩
  cases x
  · decide +kernel
  · exact absurd rfl hx
  · decide +kernel

theorem witness_SlowSampleBecomesLiveAndIsJudged :
    let s := raise 5 (raise 10 (raise 11 idle))
    s.active 5 = true ∧ s.active 10 = true ∧ s.active 11 = true ∧ s.halt.profile = false := by decide +kernel

/-- Chamber 0 in FILL, chamber 1 next, with SENSOR_FAULT active already. -/
def fillState : State := raise 11 (leaking (filling 900) (rest .waitFill) (rest .done) [1])

/-- Chamber 0 in MEASURE, with SENSOR_FAULT active already. -/
def measureState : State := raise 11 (leaking (measuring (some 500) measure0) (rest .waitFill) (rest .done) [1])

theorem fillState_plan : fillState.chamberPlan 0 =
    ⟨true, .housing, 1000, 20000, 100, 5000, 4000, 600, 30000, 2000, 100, 50, 1, 500⟩ := by decide +kernel

theorem witness_LeakSampleBecomesLiveAndEndsAFill :
    (measureState.active 11 = true ∧ measureState.halt.profile = false ∧ (measureState.chamber 0).phase = .measure ∧
      (measureState.chamber 0).measure = some measure0 ∧ ∀ d, (measureState.chamber d).phase ≠ .fill) ∧
    (fillState.active 11 = true ∧ fillState.halt.profile = false ∧ (fillState.chamber 0).phase = .fill ∧
      (∀ d, (fillState.chamber d).phase = .fill → d = 0) ∧ fillState.lkc.queue.head? ≠ some 0 ∧ fillState.lkc.queue = 1 :: [] ∧
      fillState.halt.leak = false ∧ fillState.lkc.resetVent = .over) ∧
    (0 < settleTime (fillState.chamberPlan 0) fillState.endHousing fillState.rs.live.tRef ∧
      (19899 : Int) < (fillState.chamberPlan 0).target - (fillState.chamberPlan 0).tolerance ∧
      ((fillState.chamberPlan 0).target : Int) - (fillState.chamberPlan 0).tolerance ≤ 19900) := by
  refine ⟨by decide +kernel, by decide +kernel, ?_⟩
  rw [fillState_plan]
  decide +kernel

/-- A chamber whose settle time is 0. -/
def noSettle : State := patched [(442, 0), (443, 0)] fillState

/-- Whether condition `n` has its source after `c` from `s`. -/
def assertsSource (n : Fin 20) (c : Instr) (s : State) : Bool :=
  match exec c s with
  | .next t => (t.cond n).source
  | _ => false

/-- A settle time of 0, samples that raise a condition not active before, and samples under a standing PROFILE halt. -/
theorem witness_SamplesRaiseConditions :
    ((noSettle.chamber 0).phase = .fill ∧ (∀ d, (noSettle.chamber d).phase = .fill → d = 0) ∧ noSettle.lkc.queue = 1 :: [] ∧
      settleTime (noSettle.chamberPlan 0) noSettle.endHousing noSettle.rs.live.tRef = 0 ∧
      (noSettle.chamberPlan 0).measure < 2 ^ 31) ∧
    (idle.active 5 = false ∧ idle.active 10 = false ∧ idle.active 11 = false ∧
      assertsSource 5 (.slowSample ⟨0, 15000, -15001, 0, 0⟩) (running .stepping 1 0) = true ∧
      assertsSource 10 (.slowSample ⟨0, 0, 0, 12001, 0⟩) idle = true ∧
      assertsSource 11 (.slowSample ⟨0, 0, 0, 0, 15001⟩) idle = true ∧ assertsSource 11 (.leakSample ⟨0, 0, 0, 0, 15001⟩) idle = true) ∧
    (HardWhereSevere (profileHeld fillState) ∧ HardWhereSevere fillState ∧ (profileHeld fillState).lkc = fillState.lkc ∧
      (profileHeld fillState).halt.leak = false ∧ (profileHeld fillState).active 11 = true) :=
  ⟨by decide +kernel, by decide +kernel, (profileHeld_hard _).2, hard_of (by decide +kernel), rfl, rfl, by decide +kernel⟩

/-- Chamber 0 in MEASURE while chamber 1 fills. -/
theorem witness_SensorFlagBesideAFill :
    let s := raise 11 (leaking (measuring (some 500) measure0) (filling 900) (rest .done) []);
    s.active 11 = true ∧ s.halt.profile = false ∧ (s.chamber 0).phase = .measure ∧ (s.chamber 0).measure = some measure0 ∧
    (s.chamber 1).phase = .fill ∧ s.lkc.queue.head? ≠ some 0 := by decide +kernel

/-- A window of `recipe` under analysis in record 0, with `n` revolutions accepted. -/
def analysing (n : Nat) (queue : List (Fin 32)) : State :=
  let s := idle.setOa { idle.oa with
    windows := [{ window1 with state := .opened, nAcc := n, acc := [0, 0], held := 1 + queue.length }], current := some 0, queue := queue }
  let d : VibDescriptor := ⟨.held, 1, 2, 0, 1, .fwd, 30000, 1024, false, [⟨.acc0, [5]⟩, ⟨.mic, [6]⟩]⟩
  s.setCs { s.cs with vib := ⟨.running, ⟨8, 0, 50⟩, none, 4, 0, 0, none⟩, vibDescs := (s.cs.vibDescs.set 0 d).set 1 d }

/-- The window of `analysing`. -/
def analysed (n : Nat) (queue : List (Fin 32)) : Window :=
  { window1 with state := .opened, nAcc := n, acc := [0, 0], held := 1 + queue.length }

theorem witness_AnalysisAccumulatesTheRevolution :
    (NoPlanWaits idle ∧ idle.oa.current = none) ∧ NoPlanWaits (analysing 2 []) ∧
    ((analysing 2 []).oa.current = some 0 ∧
      (analysing 2 []).oa.window ((analysing 2 []).cs.vibDescs[(0 : Fin 32)]).window = some (analysed 2 []) ∧
      (analysed 2 []).state = .opened ∧ ¬((analysed 2 []).spec.kind = .steady ∧ (analysed 2 []).nAcc + 1 = (analysed 2 []).spec.nReq) ∧
      (analysing 2 []).oa.queue = []) ∧ NoPlanWaits (analysing 3 [1]) ∧
    ((analysing 3 [1]).oa.current = some 0 ∧
      (analysing 3 [1]).oa.window ((analysing 3 [1]).cs.vibDescs[(0 : Fin 32)]).window = some (analysed 3 [1]) ∧
      (analysed 3 [1]).state = .opened ∧ (analysed 3 [1]).spec.kind = .steady ∧
      (analysed 3 [1]).nAcc + 1 = (analysed 3 [1]).spec.nReq ∧
      (∀ e ∈ (analysing 3 [1]).oa.queue, e ≠ 0 → ((analysing 3 [1]).cs.vibDescs[e]).window = (analysed 3 [1]).number) ∧
      0 ∉ (analysing 3 [1]).oa.queue) :=
  ⟨⟨no_plan_waits _ (by decide +kernel), rfl⟩, no_plan_waits _ (by decide +kernel), by decide +kernel,
    no_plan_waits _ (by decide +kernel), by decide +kernel⟩

/-- The analysis of `analysing` with a queued record that has an overload. -/
def overloaded : State :=
  let s := analysing 2 [1]
  s.setCs { s.cs with vibDescs := s.cs.vibDescs.set 1 { s.cs.vibDescs[(1 : Fin 32)] with overload := true } }

/-- The head of the queue passes the checks, or fails the last of them. -/
theorem witness_AnalysisTakesTheHead :
    (NoPlanWaits (analysing 2 [1]) ∧ NoPlanWaits overloaded) ∧
    (∀ s ∈ [analysing 2 [1], overloaded], s.oa.current = some 0 ∧ s.oa.queue = 1 :: [] ∧ (1 : Fin 32) ≠ 0 ∧
      s.oa.window (s.cs.vibDescs[(0 : Fin 32)]).window = some (analysed 2 [1]) ∧
      s.oa.window (s.cs.vibDescs[(1 : Fin 32)]).window = some (analysed 2 [1]) ∧ (analysed 2 [1]).state = .opened ∧
      (analysed 2 [1]).nAcc + 1 ≠ (analysed 2 [1]).spec.nReq ∧
      ∀ x ∈ s.oa.windows, x.number = (analysed 2 [1]).number → x = analysed 2 [1]) ∧
    (Passes ((analysing 2 [1]).cs.vibDescs[(1 : Fin 32)]) window1.spec ∧ ¬Passes (overloaded.cs.vibDescs[(1 : Fin 32)]) window1.spec) := by
  refine ⟨⟨no_plan_waits _ (by decide +kernel), no_plan_waits _ (by decide +kernel)⟩, by decide +kernel, ?_⟩
  unfold Passes SameWay InBand
  decide +kernel

/-- The analysis of `analysing` with the window CLOSING, in a unit whose profile is over. -/
def lastAnalysis (n : Nat) (queue : List (Fin 32)) : State :=
  let s := (analysing n queue).setUt (withUnit finishedUnit).ut
  s.setOa { s.oa with windows := [{ analysed n queue with state := .closing }] }

/-- A CLOSING window that reaches N_req with a record still queued, and one that holds no more. -/
theorem witness_AnalysisClosesAWindow :
    (∀ n q, n = 3 ∧ q = [1] ∨ n = 2 ∧ q = [] → (let w := { analysed n q with state := .closing };
      (lastAnalysis n q).oa.current = some 0 ∧ (lastAnalysis n q).oa.queue = q ∧
      (lastAnalysis n q).oa.window ((lastAnalysis n q).cs.vibDescs[(0 : Fin 32)]).window = some w ∧
      (∀ v ∈ (lastAnalysis n q).oa.windows, v.number = w.number → v = w) ∧
      (∀ e ∈ q, e ≠ 0 → ((lastAnalysis n q).cs.vibDescs[e]).window = w.number) ∧ 0 ∉ q ∧ w.released ≤ 65535)) ∧
    (∀ n q, NoPlanWaits (lastAnalysis n q) ∧ StationLaw (lastAnalysis n q) ∧
      IsUnitIn .running 0 finishedUnit (lastAnalysis n q)) ∧ finishedUnit.runIn.state = .finished ∧
    ((analysed 3 [1]).spec.kind = .steady ∧ (analysed 3 [1]).nAcc + 1 = (analysed 3 [1]).spec.nReq) ∧
    ((analysed 2 []).nAcc + 1 ≠ (analysed 2 []).spec.nReq ∧ (analysed 2 []).held ≤ 1) := by
  refine ⟨?_, fun n q => ⟨no_plan_waits _ ⟨nofun, nofun, nofun⟩, withUnit_law finishedUnit, withUnit_is finishedUnit⟩, rfl,
    by decide +kernel, by decide +kernel⟩
  rintro n q (⟨rfl, rfl⟩ | ⟨rfl, rfl⟩) <;> decide +kernel

/-- A RUNNING unit with the windows given. -/
def withWindows (ws : List Window) : State := (running .idle 1 0).setOa { idle.oa with windows := ws }

/-- Window 1, drained. -/
def drained : Window := { window1 with state := .closing }

/-- A second window. -/
def other (x : WindowState) : Window := { window1 with number := 2, state := x }

/-- A RUNNING unit whose profile is over, with the windows given. -/
def draining (ws : List Window) : State := (withUnit finishedUnit).setOa { idle.oa with windows := ws }

theorem draining_is (ws : List Window) : IsUnitIn .running 0 finishedUnit (draining ws) := withUnit_is finishedUnit

theorem draining_law (ws : List Window) : StationLaw (draining ws) := withUnit_law finishedUnit

theorem witness_DrainedWindowIsGradedAndWritten :
    ((∀ w ∈ idle.oa.windows, ¬(w.state = .closing ∧ w.held = 0)) ∧ NoUnitIn .running idle) ∧
    ((∀ w ∈ (withWindows [window1]).oa.windows, ¬(w.state = .closing ∧ w.held = 0)) ∧ (withWindows [window1]).oa.windows ≠ []) ∧
    (∀ x, x = .idle ∨ x = .closed → (let ws := [drained, other x];
      drained ∈ (draining ws).oa.windows ∧ drained.state = .closing ∧ drained.held = 0 ∧
      (∀ v ∈ (draining ws).oa.windows, v.number = drained.number → v = drained) ∧
      (∀ v ∈ (draining ws).oa.windows, v.state = .closing → v.held = 0 → v = drained) ∧ StationLaw (draining ws) ∧
      IsUnitIn .running 0 finishedUnit (draining ws) ∧ finishedUnit.runIn.state = .finished)) ∧
    (∀ v ∈ (draining [drained, other .closed]).oa.windows, v.number ≠ drained.number → v.state = .closed) ∧
    (∃ v ∈ (draining [drained, other .idle]).oa.windows, v.number ≠ drained.number ∧ v.state ≠ .closed) := by
  refine ⟨⟨by decide +kernel, idle_has_no _⟩, by decide +kernel, ?_, by decide +kernel, other .idle, by decide +kernel⟩
  rintro x (rfl | rfl)
  · exact ⟨by decide +kernel, rfl, rfl, by decide +kernel, by decide +kernel, draining_law _, draining_is _, rfl⟩
  · exact ⟨by decide +kernel, rfl, rfl, by decide +kernel, by decide +kernel, draining_law _, draining_is _, rfl⟩

theorem witness_ArbiterGrantsTheHeadOfTheQueue :
    idle.lkc.queue = [] ∧ ((leaking (filling 9) (rest .waitFill) (rest .done) [1]).chamber 0).phase = .fill ∧
    (held 0 idle).halt.leak = true ∧ (withVent idle).lkc.resetVent ≠ .over ∧
    (let s := leaking (rest .waitFill) (rest .waitFill) (rest .done) [0, 1];
      s.lkc.queue = 0 :: [1] ∧ (∀ d, (s.chamber d).phase ≠ .fill) ∧ s.halt.leak = false ∧ s.lkc.resetVent = .over) ∧
    (idle.lkc.resetVent = .over ∧ State.reset.lkc.resetVent = .running none) ∧
    ((withVent idle).lkc.resetVent = .running (some 9) ∧ (withVent idle).lkc.queue = []) ∧
    (let s := withVent (leaking (rest .waitFill) (rest .waitFill) (rest .done) [0, 1]);
      s.lkc.resetVent = .running (some 9) ∧ s.lkc.queue = 0 :: [1] ∧ (∀ d, (s.chamber d).phase ≠ .fill) ∧ s.halt.leak = false) := by
  decide +kernel

theorem witness_FillTimeoutCountsAGrossAttempt :
    ((idle.chamber 0).phase ≠ .fill ∧ ((leaking (rest .fill) (rest .waitFill) (rest .done) [1]).chamber 0).timer = none) ∧
    (let s := leaking (filling 0) (rest .waitFill) (rest .done) [1];
      (s.chamber 0).phase = .fill ∧ (s.chamber 0).timer = some 0 ∧ (∀ d, (s.chamber d).phase = .fill → d = 0) ∧ 0 ∉ s.lkc.queue ∧
      s.lkc.queue = 1 :: [] ∧ s.halt.leak = false ∧ s.lkc.resetVent = .over) ∧
    IsUnitIn .leaking 0 leakingUnit (leaking (filling 0) (rest .waitFill) (rest .done) [1]) ∧
    StationLaw (leaking (filling 0) (rest .waitFill) (rest .done) [1]) :=
  ⟨by decide +kernel, by decide +kernel, leaking_is _ _ _ _, leaking_law _ _ _ _⟩

theorem witness_SettlingLeadsToMeasuring :
    ((idle.chamber 0).phase ≠ .settle ∧ (idle.chamber 0).phase ≠ .measure) ∧
    (let s := leaking (settling 0) (rest .waitFill) (rest .done) [1];
      (s.chamber 0).phase = .settle ∧ (s.chamber 0).timer = some 0) ∧
    (let s := leaking (measuring (some 0) measure0) (rest .waitFill) (rest .done) [1];
      let t := s.setAfe { s.afe with leakSlot := 2, leakEnded := 2 };
      (t.chamber 0).phase = .measure ∧ (t.chamber 0).timer = some 0 ∧ (t.chamber 0).measure = some measure0 ∧
      timeDiff ((BitVec.ofNat 32 t.afe.leakEnded : CellTime) * 640 + 635) measure0.start ≤ timeDiff measure0.stop measure0.start) ∧
    (let s := leaking (measuring (some 0) measure0) (rest .waitFill) (rest .done) [1];
      let t := s.setAfe { s.afe with leakSlot := 3, leakEnded := 3 };
      (t.chamber 0).phase = .measure ∧ (t.chamber 0).timer = some 0 ∧ (t.chamber 0).measure = some measure0 ∧
      timeDiff measure0.stop measure0.start < timeDiff ((BitVec.ofNat 32 t.afe.leakEnded : CellTime) * 640 + 635) measure0.start) := by
  decide +kernel

/-- A measurement whose timer has expired. -/
def expired : Measure := ⟨0, 2000, true, some ⟨1, 20000, 2500⟩, some ⟨2, 19990, 2500⟩, false⟩

/-- Chamber 0 with `expired`, after the slot that can qualify last. -/
def evaluating (n : Nat) : State :=
  let s := leaking (measuring none expired) (rest .waitFill) (rest .done) [1]
  s.setAfe { s.afe with leakSlot := n, leakEnded := n }

theorem witness_EvaluatedAttemptIsCounted :
    (idle.chamber 0).phase ≠ .measure ∧
    (∀ m, ((evaluating 2).chamber 0).measure = some m → m.expired = false ∨
      timeDiff ((BitVec.ofNat 32 (evaluating 2).afe.leakEnded : CellTime) * 640 + 635) m.start ≤ timeDiff m.stop m.start) ∧
    (((evaluating 3).chamber 0).phase = .measure ∧ ((evaluating 3).chamber 0).measure = some expired ∧ expired.expired = true ∧
      timeDiff expired.stop expired.start <
        timeDiff ((BitVec.ofNat 32 (evaluating 3).afe.leakEnded : CellTime) * 640 + 635) expired.start) ∧
    IsUnitIn .leaking 0 leakingUnit (evaluating 3) ∧ StationLaw (evaluating 3) := by
  refine ⟨by decide +kernel, fun m hm => .inr ?_, by decide +kernel, withUnit_is leakingUnit, withUnit_law leakingUnit⟩
  have he : ((evaluating 2).chamber 0).measure = some expired := rfl
  rw [he] at hm
  cases hm
  decide +kernel

/-- Two chambers that vent. -/
def ventState (after : AfterVent) : State := leaking (venting 0 after) (venting 400 .done) (rest .idle) []

/-- Whether the test of `r` is over once chamber 0 has vented. -/
def ventEnds (r : UnitRecord) (s : State) : Bool :=
  (!r.abort || (List.finRange 4).all fun d => decide (d = 0) || decide ((s.chamber d).phase ≠ .vent)) &&
  (r.abort || (List.finRange 4).all fun d => !(s.chamberPlan d).enabled ||
    ((if d = 0 then decide ((s.chamber 0).afterVent = some .done) else decide ((s.chamber d).phase = .done)) &&
      ((r.leak.chambers[d]).verdict).isSome))

/-- A LEAKING record `r`, chamber 0 of which vents, with the other chambers in phase `p`. -/
def lastVent (r : UnitRecord) (after : AfterVent) (p : ChamberPhase) : State :=
  let s := withUnit r
  s.setLkc { s.lkc with chambers := #v[venting 0 after, rest p, rest p, rest .idle] }

/-- Chamber 0 vents and is to come back, with chamber 1 first in the queue. -/
def comesBack : State := leaking (venting 0 .requeue) (rest .waitFill) (rest .done) [1]

theorem witness_VentedChamberGoesWhereItsAfterVentPoints :
    (idle.chamber 0).phase ≠ .vent ∧
    (∀ after, ((ventState after).chamber 0).phase = .vent ∧ ((ventState after).chamber 0).timer = some 0 ∧
      IsUnitIn .leaking 0 leakingUnit (ventState after) ∧ StationLaw (ventState after) ∧ (ventState after).lkc.queue = [] ∧
      ventEnds leakingUnit (ventState after) = false ∧ ((ventState after).chamber 0).afterVent = some after) ∧
    ((held 0 (ventState .requeue)).halt.leak = true ∧ ((held 0 (ventState .requeue)).chamber 0).afterVent = some .requeue) ∧
    ((ventState .requeue).halt.leak = false ∧ (ventState .requeue).lkc.resetVent = .over ∧
      ∀ d, ((ventState .requeue).chamber d).phase ≠ .fill) ∧
    ((comesBack.chamber 0).phase = .vent ∧ (comesBack.chamber 0).timer = some 0 ∧ comesBack.lkc.queue = 1 :: [] ∧
      (∀ d ∈ comesBack.lkc.queue, (comesBack.chamber d).phase = .waitFill) ∧ ventEnds leakingUnit comesBack = false ∧
      (comesBack.chamber 0).afterVent = some .requeue ∧ comesBack.halt.leak = false ∧ comesBack.lkc.resetVent = .over ∧
      ∀ d, (comesBack.chamber d).phase ≠ .fill) ∧
    (IsUnitIn .leaking 0 abortedUnit (lastVent abortedUnit .idle .idle) ∧ StationLaw (lastVent abortedUnit .idle .idle) ∧
      ventEnds abortedUnit (lastVent abortedUnit .idle .idle) = true) ∧
    (IsUnitIn .leaking 0 judgedUnit (lastVent judgedUnit .done .done) ∧ StationLaw (lastVent judgedUnit .done .done) ∧
      ventEnds judgedUnit (lastVent judgedUnit .done .done) = true) :=
  ⟨by decide +kernel, fun a => ⟨rfl, rfl, leaking_is _ _ _ _, leaking_law _ _ _ _, rfl, by cases a <;> decide +kernel, rfl⟩,
    by decide +kernel, by decide +kernel, by decide +kernel, ⟨withUnit_is _, withUnit_law _, by decide +kernel⟩,
    withUnit_is _, withUnit_law _, by decide +kernel⟩

/-- The same last vent, with a second unit in RUN_DONE. -/
def oneWaits : State :=
  let s := lastVent judgedUnit .done .done
  s.setUt { s.ut with records := s.ut.records.set 1 (some { unit .runDone with id := 2 }) }

/-- The end of a test with a unit that waits for station 2, and under a TRANSFER halt. -/
theorem witness_TestEnded :
    (IsUnitIn .leaking 0 judgedUnit oneWaits ∧ StationLaw oneWaits ∧ oneWaits.halt.transfer = false ∧
      IsUnitIn .runDone 1 { unit .runDone with id := 2 } oneWaits ∧ ventEnds judgedUnit oneWaits = true) ∧
    (held 0 oneWaits).halt.transfer = true ∧ NoUnitIn .runDone (lastVent judgedUnit .done .done) :=
  ⟨⟨isUnitIn_of rfl rfl (by decide +kernel), stationLaw_of (by decide +kernel), by decide +kernel,
    isUnitIn_of rfl rfl (by decide +kernel), by decide +kernel⟩, by decide +kernel, noUnitIn_of (by decide +kernel)⟩

theorem witness_LineChangeJudgesItsCondition :
    ((raise 6 idle).active 6 = true ∧ (raise 6 idle).halt.profile = false) ∧
    (idle.active 6 = false ∧ (true || (idle.cond 6).injected) = true) ∧ idle.active 0 = false ∧ (raise 0 idle).active 0 = true := by
  decide +kernel

theorem witness_KeyChangeSetsTheModeAndCapsTheMask :
    idle.cu.mode = .maintenance ∧ inProduction.cu.mode ≠ .maintenance ∧ inProduction.anyWorking = false ∧
    ((let s := running .idle 1 0; s.setCu { s.cu with mode := .production }).anyWorking = true ∧
      (let s := running .idle 1 0; s.setCu { s.cu with mode := .production }).active 8 = false) ∧
    ((let s := running .idle 1 0; raise 8 (s.setCu { s.cu with mode := .production })).anyWorking = true ∧
      (let s := running .idle 1 0; raise 8 (s.setCu { s.cu with mode := .production })).active 8 = true) := by decide +kernel

theorem witness_TakingAConditionHaltsItsWork :
    (NoneQualifies idle ∧ idle.halt.profile = false) ∧
    (IsTaken 5 (raise 5 (running .stepping 1 2000)) ∧ (((raise 5 (running .stepping 1 2000)).cond 5).vector).profile = true ∧
      (raise 5 (running .stepping 1 2000)).halt.profile = false ∧ (raise 5 (running .stepping 1 2000)).pe.phase = .stepping ∧
      ((raise 5 (running .stepping 1 2000)).cond 5).severity < 14 ∧ ∀ f ∈ (raise 5 (running .stepping 1 2000)).cu.stack, f.severity < 14) ∧
    (IsTaken 3 (raise 3 (running .stepping 1 2000)) ∧ 14 ≤ ((raise 3 (running .stepping 1 2000)).cond 3).severity) ∧
    (let s := raise 7 (leaking (filling 9) (rest .waitFill) (rest .done) [1]);
      IsTaken 7 s ∧ ((s.cond 7).vector).leak = true ∧ s.halt.leak = false) ∧
    (StationLaw (raise 7 (leaking (filling 9) (rest .waitFill) (rest .done) [1])) ∧
      IsUnitIn .leaking 0 leakingUnit (raise 7 (leaking (filling 9) (rest .waitFill) (rest .done) [1]))) ∧
    (IsTaken 9 (raise 9 transferring) ∧ (((raise 9 transferring).cond 9).vector).transfer = true ∧
      (raise 9 transferring).halt.transfer = false) ∧ IsUnitIn .inTransfer 0 (unit .inTransfer) (raise 9 transferring) := by
  unfold NoneQualifies IsTaken
  exact ⟨by decide +kernel, by decide +kernel, by decide +kernel, by decide +kernel,
    ⟨withUnit_law leakingUnit, withUnit_is leakingUnit⟩, by decide +kernel, unit_is _⟩

/-- Step 2 with its window open. -/
def openWindow : State :=
  let s := running .stepping 2 2000
  (s.setPe { s.pe with settled := true, openSent := true }).setOa { s.oa with windows := [{ window1 with state := .opened, opened := true }] }

/-- `openWindow` with condition 13 active, set to halt NOISE alone. -/
def noiseRaised : State :=
  let s := openWindow
  s.setCu { s.cu with conditions := s.cu.conditions.set 13 { s.cond 13 with latch := true, vector := ⟨false, true, false, false⟩ } }

/-- A suspended profile under a SOFT halt of OIL_HOT. -/
def softHeld : State :=
  let s := held 10 (running .suspended 1 400)
  s.setPe { s.pe with halt := .soft }

/-- A stepping profile under a taking of PROFILE: in a step with its window open, and in a MEASURE_DRAG step. -/
theorem witness_TakingPausesTheWindow :
    (IsTaken 5 (raise 5 openWindow) ∧ IsTaken 5 (raise 5 (running .stepping 4 0)) ∧
      (((raise 5 openWindow).cond 5).vector).profile = true ∧ (raise 5 openWindow).halt.profile = false) ∧
    (IsStepping 2 step2 0 runningUnit (raise 5 openWindow) ∧ step2.window = 1) ∧
    (IsStepping 4 step4 0 runningUnit (raise 5 (running .stepping 4 0)) ∧ step4.kind = .measureDrag) := by
  unfold IsTaken
  exact ⟨by decide +kernel, ⟨running_steps 2000 (by decide) rfl, rfl⟩, running_steps 0 (by decide) rfl, rfl⟩

/-- The entry of NOISE, alone and with PROFILE; a re-approach, and a profile that stops, at a taking of either severity; a SOFT halt that
turns HARD, one that stands, and a HARD one. -/
theorem witness_TakingHaltsEachKindOfWork :
    (IsTaken 13 noiseRaised ∧ ((noiseRaised.cond 13).vector).noise = true ∧ ((noiseRaised.cond 13).vector).profile = false ∧
      noiseRaised.halt.noise = false ∧ noiseRaised.halt.profile = false ∧ noiseRaised.pe.openSent = true) ∧
    (IsStepping 2 step2 0 runningUnit noiseRaised ∧ IsStepping 2 step2 0 runningUnit (raise 3 openWindow) ∧ step2.window ≠ 0) ∧
    (IsTaken 3 (raise 3 openWindow) ∧ (((raise 3 openWindow).cond 3).vector).noise = true ∧ (raise 3 openWindow).halt.noise = false ∧
      (raise 3 openWindow).pe.openSent = true) ∧
    (∀ n ∈ [(3 : Fin 20), 5], ∀ s ∈ [running .reapproach 1 400, stopping .runOut 400],
      IsTaken n (raise n s) ∧ (((raise n s).cond n).vector).profile = true ∧ (raise n s).halt.profile = false ∧
      (raise n s).pe.phase = s.pe.phase ∧ (raise n s).pe.cause = s.pe.cause ∧ (14 ≤ ((raise n s).cond n).severity ↔ n = 3) ∧
      ∀ f ∈ (raise n s).cu.stack, f.severity < 14) ∧
    ((stopping .runOut 400).pe.cause = some .runOut ∧ StationLaw (raise 3 (stopping .runOut 400)) ∧
      IsUnitIn .running 0 runningUnit (raise 3 (stopping .runOut 400))) ∧
    (∀ n ∈ [(3 : Fin 20), 5], IsTaken n (raise n softHeld) ∧ (raise n softHeld).halt.profile = true ∧
      (raise n softHeld).pe.halt ≠ .hard ∧ (raise n softHeld).pe.phase ≠ .stopping ∧ (raise n softHeld).pe.openSent = false ∧
      (14 ≤ ((raise n softHeld).cond n).severity ↔ n = 3) ∧ ∀ f ∈ (raise n softHeld).cu.stack, f.severity < 14) ∧
    (IsTaken 0 (raise 0 (profileHeld idle)) ∧ (raise 0 (profileHeld idle)).pe.halt = .hard) ∧
    (NoneQualifies (profileHeld idle) ∧ HardWhereSevere (profileHeld idle)) := by
  unfold NoneQualifies IsTaken
  exact ⟨by decide +kernel, ⟨running_steps 2000 (by decide) rfl, running_steps 2000 (by decide) rfl, by decide⟩, by decide +kernel,
    by decide +kernel, ⟨rfl, withUnit_law runningUnit, withUnit_is runningUnit⟩, by decide +kernel, by decide +kernel,
    by decide +kernel, (profileHeld_hard _).2⟩

theorem witness_AckClearsLatchAndInjection :
    idle.listens ∧ 19 < (20 : Byte).toNat ∧
    ((raise 5 idle).listens ∧ conditionKind 5 = .latched ∧ ((raise 5 idle).cond 5).source = true) ∧
    ((raise 6 idle).listens ∧ conditionKind 6 = .level) ∧ (idle.cond 19).source = false :=
  ⟨idle_listens, by decide, ⟨⟨rfl, rfl⟩, by decide, by decide +kernel⟩, ⟨⟨rfl, rfl⟩, by decide⟩, by decide +kernel⟩

/-- What an injection makes of condition `n` of `idle`. -/
def injectedState (n : Fin 20) : State :=
  let c := idle.cond n
  raisedAt 0 n { c with
    injected := true, latch := c.latch || decide (conditionKind n = .latched)
    lastActive := if idle.active n then c.lastActive else some idle.now } idle

theorem witness_InjectionActivatesAndChecks :
    idle.listens ∧ 19 < (20 : Byte).toNat ∧ inProduction.listens ∧ ((15 : Fin 20).val < 16 ∧ inProduction.cu.mode = .production) ∧
    (16 ≤ (16 : Fin 20).val ∧ idle.cu.mode = .maintenance) ∧ IsTaken 16 (injectedState 16) ∧
    ¬IsTaken 16 (let s := injectedState 16; s.setCu { s.cu with mask := 1 }) := by
  refine ⟨idle_listens, by decide, ⟨rfl, rfl⟩, ⟨by decide, rfl⟩, ⟨by decide, rfl⟩, ?_, ?_⟩ <;> unfold IsTaken <;> decide +kernel

theorem witness_ConfigAndMaskAreClampedAndChecked :
    idle.listens ∧ 19 < (20 : Byte).toNat ∧ (inProduction.listens ∧ inProduction.cu.mode = .production) ∧
    (idle.cu.mode = .maintenance ∧ ¬((8 : Fin 20) = 5 ∨ 9 ≤ (8 : Fin 20).val) ∧ ((9 : Fin 20) = 5 ∨ 9 ≤ (9 : Fin 20).val) ∧
      15 < (16 : Byte).toNat ∧ (15 : Byte).toNat ≤ 15) ∧
    ((held 9 idle).onStack 9 = true ∧ idle.onStack 9 = false) ∧
    (idle.cu.mask ≤ min (0 : Byte).toNat 14 ∧ min (0 : Byte).toNat 14 < (idle.setCu { idle.cu with mask := 1 }).cu.mask) :=
  ⟨idle_listens, by decide, ⟨⟨rfl, rfl⟩, rfl⟩, by decide +kernel, by decide +kernel, by decide +kernel⟩

/-- `s` with one frame on the stack whose condition is not active, under severity 3's reaction level. -/
theorem witness_ResumePopsTheTopFrame :
    (idle.listens ∧ idle.cu.stack = []) ∧
    ((raise 0 (held 0 idle)).listens ∧ (raise 0 (held 0 idle)).cu.stack = ⟨0, 15, .full, 0, 0⟩ :: [] ∧
      (raise 0 (held 0 idle)).active 0 = true) ∧
    (let s := held 0 (running .suspended 1 100);
      s.cu.stack = ⟨0, 15, .full, 0, 0⟩ :: [] ∧ s.active 0 = false ∧ s.halt.profile = true ∧ s.pe.phase = .suspended ∧
      (let v := s.setCu { s.cu with stack := [], rl := 0 };
        (∀ n, v.qualifies n = false) ∧ v.halt.profile = false)) ∧
    (let s := held 0 (leaking (rest .waitFill) (rest .waitFill) (rest .done) [0, 1]);
      s.halt.leak = true ∧ (s.setCu { s.cu with stack := [], rl := 0 }).halt.leak = false ∧ s.pe.phase ≠ .held ∧
      (∀ c, (s.chamber c).phase ≠ .fill) ∧ s.lkc.resetVent = .over ∧ s.lkc.queue = 0 :: [1]) ∧
    NoUnitIn .atLeak (held 0 (leaking (rest .waitFill) (rest .waitFill) (rest .done) [0, 1])) ∧
    ((held 0 transferring).halt.transfer = true ∧
      ((held 0 transferring).setCu { (held 0 transferring).cu with stack := [], rl := 0 }).halt.transfer = false) ∧
    IsUnitIn .inTransfer 0 (unit .inTransfer) (held 0 transferring) :=
  ⟨⟨idle_listens, rfl⟩, ⟨⟨rfl, rfl⟩, by decide +kernel⟩, by decide +kernel, by decide +kernel, noUnitIn_of (by decide +kernel),
    by decide +kernel, unit_is _⟩

/-- `s` with a frame of condition 13, of severity 5, that halts NOISE and nothing else. -/
def noiseHeld (s : State) : State := s.setCu { s.cu with stack := [⟨13, 5, ⟨false, true, false, false⟩, 0, 0⟩], rl := 5 }

/-- A HELD profile, a window whose open waits, and a unit that waits for its leak test. -/
theorem witness_ResumeStartsWhatWaited :
    (let s := held 0 (running .held 1 0);
      s.listens ∧ s.active 0 = false ∧ s.halt.profile = true ∧ s.pe.phase = .held ∧
      (s.setCu { s.cu with stack := [], rl := 0 }).halt.profile = false ∧
      NoneQualifies (s.setCu { s.cu with stack := [], rl := 0 })) ∧
    (StationLaw (held 0 (running .held 1 0)) ∧ IsUnitIn .running 0 runningUnit (held 0 (running .held 1 0)) ∧
      ((held 0 (running .held 1 0)).recipeOf runningUnit).steps[0]? = some step1 ∧ step1.endsAtEntry = false) ∧
    (let s := noiseHeld settlingWindow;
      let s := s.setPe { s.pe with settleTimer := none, settled := true };
      s.listens ∧ s.active 13 = false ∧ s.halt.noise = true ∧ s.halt.profile = false ∧ s.pe.settled = true ∧
      s.pe.openSent = false ∧ (s.setCu { s.cu with stack := [], rl := 0 }).halt.noise = false ∧
      NoneQualifies (s.setCu { s.cu with stack := [], rl := 0 })) ∧
    (IsStepping 2 step2 0 runningUnit ((noiseHeld settlingWindow).setPe { settlingWindow.pe with settleTimer := none, settled := true }) ∧
      step2.window ≠ 0) ∧
    (let s := held 0 (withUnit (unit .atLeak));
      s.listens ∧ s.active 0 = false ∧ s.halt.leak = true ∧ (s.setCu { s.cu with stack := [], rl := 0 }).halt.leak = false ∧
      s.pe.phase ≠ .held ∧ (∀ c, s.chamber c = ⟨.idle, none, none, none⟩) ∧ s.lkc.queue = [] ∧
      NoneQualifies (s.setCu { s.cu with stack := [], rl := 0 })) ∧
    (StationLaw (held 0 (withUnit (unit .atLeak))) ∧ IsUnitIn .atLeak 0 (unit .atLeak) (held 0 (withUnit (unit .atLeak))) ∧
      (unit .atLeak).abort = false ∧ (unit .atLeak).runIn.verdict ≠ some .fail ∧ (recipe.chambers[(0 : Fin 4)]).enabled = true) := by
  unfold NoneQualifies
  refine ⟨⟨⟨rfl, rfl⟩, by decide +kernel⟩, ⟨withUnit_law runningUnit, withUnit_is runningUnit, ?_, by decide⟩, ⟨⟨rfl, rfl⟩, by decide +kernel⟩,
    ⟨running_steps 2000 (by decide) rfl, by decide⟩, ⟨⟨rfl, rfl⟩, by decide +kernel⟩, unit_law _, unit_is _, rfl, by decide,
    recipe_enabled 0⟩
  show recipe.steps[0]? = some step1
  rw [test_recipe_steps]
  rfl

/-- A unit in RUN_DONE that the TRANSFER halt has kept from a free station 2. -/
theorem witness_ResumeStartsTheTransfer :
    (let s := held 0 (withUnit (unit .runDone));
      s.listens ∧ s.cu.stack = ⟨0, 15, .full, 0, 0⟩ :: [] ∧ s.active 0 = false ∧ s.halt.transfer = true ∧ s.pe.phase ≠ .held ∧
      (s.setCu { s.cu with stack := [], rl := 0 }).halt.transfer = false ∧
      NoneQualifies (s.setCu { s.cu with stack := [], rl := 0 })) ∧
    StationLaw (held 0 (withUnit (unit .runDone))) ∧ Station2Free (held 0 (withUnit (unit .runDone))) ∧
    IsUnitIn .runDone 0 (unit .runDone) (held 0 (withUnit (unit .runDone))) := by
  unfold NoneQualifies
  exact ⟨⟨⟨rfl, rfl⟩, by decide +kernel⟩, unit_law _, station2Free_of (by decide +kernel), unit_is _⟩

theorem witness_LevelIsTheGreatestIntegerBelowThePower : 1 ≤ 2 ^ 41 ∧ 2 ^ 41 ≤ 2 ^ 41 ∧ (-600 : Int) ≤ -600 ∧ (600 : Int) ≤ 600 := by
  decide

theorem witness_GradesFollowTheirTestsInOrder :
    window1.spec.nMin ≤ 2 ∧ ({ window1.spec with warnBand := 0 }).warnBand = 0 ∧ (100 : Int) = 100 ∧
    (90 : Int) = 100 - window1.spec.warnBand ∧ (1 : Nat) ≠ 0 ∧ (90 : Int) ≤ 100 := by decide

theorem witness_OrderPowerIsAtMostTwoToThe41 :
    (List.replicate 128 (-32768 : Int)).length ≤ 128 ∧ ∀ x ∈ List.replicate 128 (-32768 : Int), -32768 ≤ x ∧ x ≤ 32767 := by
  refine ⟨by simp, fun x hx => ?_⟩
  rw [List.eq_of_mem_replicate hx]
  decide

theorem idle_accounts : AccountsLaw idle := by
  refine ⟨?_, by decide +kernel⟩
  rintro (_ | _ | _) <;> decide +kernel

/-- A step from a state that meets every law. -/
theorem witness_EveryStepKeepsTheLaws :
    MemoryLaw idle ∧ AccountsLaw idle ∧ StationLaw idle ∧ StackLaw idle ∧ step idle = .next idle.tick ∧
    (∀ c d, (idle.chamber c).phase = .fill → (idle.chamber d).phase = .fill → c = d) ∧
    (idle.lkc.resetVent ≠ .over → ∀ c, (idle.chamber c).phase ≠ .fill) ∧
    (idle.halt.leak = true → ∀ c, (idle.chamber c).phase.attempting = false) ∧
    (idle.halt.profile = true → idle.pe.phase ≠ .stepping ∧ idle.pe.phase ≠ .reapproach) ∧
    (idle.pe.stepTimer ≠ none → idle.pe.phase = .stepping) ∧ HardWhereSevere idle :=
  ⟨memory_idle, idle_accounts, stationLaw_of (by decide +kernel), ⟨rfl, by decide +kernel⟩, rfl,
    by decide +kernel, by decide +kernel, by decide +kernel, by decide +kernel, by decide +kernel, hard_of (by decide +kernel)⟩
end Sys2Proof.Tests
end

