-- ==== Sys2Proof/Proofs/Kept.lean ====
section
/-! What the run-in engine keeps whatever it does: what the blocks read of each unit record to find the station-1 unit and its recipe,
and, while the drive reports no fault, which conditions are not active. -/

namespace Sys2Proof.Machine

/-! ## The close of one window (R88) -/

/-- A close for a window that is not in the table does nothing. -/
theorem State.closeWindow_absent {n : Nat} {s : State} (h : s.oa.window n = none) : s.closeWindow n = s := by
  simp only [State.closeWindow, h]

/-- What the close of a window of the table does: it is graded, it waits for its records, or it has been closed before (R88). -/
theorem State.closeWindow_found {n : Nat} {s : State} {w : Window} (h : s.oa.window n = some w) :
    (w.afterClose = { w with state := .closed } ∧ (w.state ≠ .closing ∧ w.state ≠ .closed) ∧
      s.closeWindow n = ((s.abandonFor n).gradeWindow n).syncStreams) ∨
    (w.afterClose = { w with state := .closing } ∧ (w.state ≠ .closing ∧ w.state ≠ .closed) ∧
      s.closeWindow n = ((s.abandonFor n).mapWindow n fun w => { w with state := .closing }).syncStreams) ∨
    (w.afterClose = w ∧ (w.state = .closing ∨ w.state = .closed) ∧ s.closeWindow n = s) := by
  unfold State.closeWindow Window.afterClose
  rw [h]
  cases hs : w.state <;> by_cases hh : w.held = 0 <;> simp [hs, hh]

/-! ## What is kept of every unit record -/

/-- What `f` reads of each unit record stands in `t` as it stood in `s`. -/
def RecordsKeep {α : Type} (f : UnitRecord → α) (s t : State) : Prop :=
  ∀ j : Fin 8, (t.ut.records[j]).map f = (s.ut.records[j]).map f

/-- `f` does not read the noise section. -/
def IgnoresNoise {α : Type} (f : UnitRecord → α) : Prop := ∀ (r : UnitRecord) (n : Noise), f { r with noise := n } = f r

/-- `f` does not see a record move from one station-1 state to another. -/
def IgnoresMove {α : Type} (f : UnitRecord → α) : Prop :=
  ∀ (r : UnitRecord) (u : UnitState), r.state.atStation1 = true → u.atStation1 = true → f { r with state := u } = f r

/-- What the blocks read of a record to find the station-1 unit and its recipe (R5, R38). -/
def UnitRecord.station1 (r : UnitRecord) : Fin 16 × Bool := (r.slot, r.state.atStation1)

theorem station1_ignoresNoise : IgnoresNoise UnitRecord.station1 := fun _ _ => rfl

theorem station1_ignoresMove : IgnoresMove UnitRecord.station1 := fun r u hr hu => by simp [UnitRecord.station1, hr, hu]

theorem runIn_ignoresNoise : IgnoresNoise UnitRecord.runIn := fun _ _ => rfl

theorem runIn_ignoresMove : IgnoresMove UnitRecord.runIn := fun _ _ _ _ => rfl

namespace RecordsKeep

variable {α : Type} {f : UnitRecord → α} {s t u : State}

theorem of_ut (h : t.ut = s.ut) : RecordsKeep f s t := fun j => by rw [h]

theorem trans (h : RecordsKeep f s t) (h' : RecordsKeep f t u) : RecordsKeep f s u := fun j => (h' j).trans (h j)

/-- An operation that leaves the Unit Table keeps what the operation before it kept. -/
theorem then_same (h : RecordsKeep f s t) (hu : u.ut = t.ut) : RecordsKeep f s u := h.trans (of_ut hu)

theorem mapUnit (i : Fin 8) {g : UnitRecord → UnitRecord} (hg : ∀ r, s.ut.records[i] = some r → f (g r) = f r) :
    RecordsKeep f s (s.mapUnit i g) := by
  intro j
  rw [State.records_mapUnit]
  split
  · next h =>
    subst h
    cases hr : s.ut.records[j] with
    | none => rfl
    | some r => simp [hg r hr]
  · rfl

theorem mapNoise (hf : IgnoresNoise f) (g : Noise → Noise) (s : State) : RecordsKeep f s (s.mapNoise g) := by
  unfold State.mapNoise
  split
  · exact mapUnit _ fun r _ => hf r _
  · exact of_ut rfl

theorem closeTable (hf : IgnoresNoise f) (s : State) : RecordsKeep f s s.closeTable := by
  unfold State.closeTable
  split
  · exact (mapNoise hf _ s).then_same rfl
  · exact of_ut rfl

theorem gradeWindow (hf : IgnoresNoise f) (n : Nat) (s : State) : RecordsKeep f s (s.gradeWindow n) := by
  unfold State.gradeWindow
  split
  · exact of_ut rfl
  · exact ((of_ut rfl : RecordsKeep f s (s.mapWindow n _)).trans (mapNoise hf _ _)).trans (closeTable hf _)

theorem closeWindow (hf : IgnoresNoise f) (n : Nat) (s : State) : RecordsKeep f s (s.closeWindow n) := by
  have graded : RecordsKeep f s ((s.abandonFor n).gradeWindow n).syncStreams :=
    ((of_ut (by simp) : RecordsKeep f s (s.abandonFor n)).trans (gradeWindow hf n _)).then_same (by simp)
  cases hw : s.oa.window n with
  | none => rw [State.closeWindow_absent hw]; exact of_ut rfl
  | some w =>
    rcases State.closeWindow_found hw with ⟨-, -, h⟩ | ⟨-, -, h⟩ | ⟨-, -, h⟩ <;> rw [h]
    · exact graded
    · exact of_ut (by simp)
    · exact of_ut rfl

theorem closeAll (hf : IgnoresNoise f) (s : State) : RecordsKeep f s s.closeAll := by
  unfold State.closeAll
  generalize s.oa.windows.map Window.number = ns
  induction ns generalizing s with
  | nil => exact of_ut rfl
  | cons n ns ih => exact (closeWindow hf n s).trans (ih _)

theorem closeWindows (hf : IgnoresNoise f) (s : State) : RecordsKeep f s s.closeWindows := by
  unfold State.closeWindows
  split
  · exact closeTable hf s
  · exact closeAll hf s

/-- A record that a search has found moves between station-1 states. -/
theorem enterState (hf : IgnoresMove f) {v w : UnitState} {i : Fin 8} (hi : s.ut.find (fun x => decide (x = v)) = some i)
    (hv : v.atStation1 = true) (hw : w.atStation1 = true) : RecordsKeep f s (s.enterState i w) := by
  obtain ⟨r, hr, hstate⟩ := UnitTable.find_some hi
  have hstate : r.state = v := by simpa using hstate
  refine (mapUnit i (g := fun r => { r with state := w }) fun r' hr' => ?_).then_same (by simp)
  obtain rfl : r = r' := by simpa [hr] using hr'
  exact hf r w (hstate ▸ hv) hw

theorem checkTransfer (hf : IgnoresMove f) (s : State) : RecordsKeep f s s.checkTransfer := by
  unfold State.checkTransfer
  split
  · next i hi =>
    split
    · have conveyed : RecordsKeep f s s.runConveyor := fun _ => rfl
      have moved : RecordsKeep f s (s.runConveyor.enterState i .inTransfer) :=
        conveyed.trans (enterState hf (v := .runDone) hi rfl rfl)
      dsimp only
      split
      · exact moved.then_same (by simp)
      · exact moved
    · exact of_ut rfl
  · exact of_ut rfl

theorem checkRunDone (hf : IgnoresMove f) (s : State) : RecordsKeep f s s.checkRunDone := by
  unfold State.checkRunDone
  split
  · exact of_ut rfl
  · next i hi =>
    split
    · exact of_ut rfl
    · split
      · exact ((enterState hf (w := .runDone) hi rfl rfl).then_same (by simp)).trans (checkTransfer hf _)
      · exact of_ut rfl

theorem mapRunIn (g : RunIn → RunIn) (s : State) : RecordsKeep UnitRecord.station1 s (s.mapRunIn g) := by
  unfold State.mapRunIn
  split
  · exact mapUnit _ fun _ _ => rfl
  · exact of_ut rfl

theorem profileEnd (cause : StopCause) (s : State) : RecordsKeep UnitRecord.station1 s (s.profileEnd cause) := by
  unfold State.profileEnd
  refine RecordsKeep.trans ?_ (checkRunDone station1_ignoresMove _)
  refine then_same (RecordsKeep.trans ?_ (closeWindows station1_ignoresNoise _)) rfl
  exact (of_ut (by simp) : RecordsKeep _ s _).trans (mapRunIn _ _)

theorem beginStop (cause : StopCause) (s : State) : RecordsKeep UnitRecord.station1 s (s.beginStop cause) := by
  unfold State.beginStop
  dsimp only
  split
  · exact (of_ut rfl : RecordsKeep _ s (s.setPe _)).trans (profileEnd cause _)
  · exact of_ut rfl

theorem evaluateDrag (x : Step) (s : State) : RecordsKeep UnitRecord.station1 s (s.evaluateDrag x) := by
  unfold State.evaluateDrag
  split
  · exact mapRunIn _ s
  · exact of_ut rfl

theorem endStep (k : Nat) (x : Step) (s : State) : RecordsKeep UnitRecord.station1 s (s.endStep k x).1 := by
  have paused : RecordsKeep UnitRecord.station1 s s.pauseStep := of_ut (by simp)
  unfold State.endStep
  dsimp only
  split
  · exact (paused.trans (evaluateDrag x _)).then_same rfl
  · exact paused.then_same rfl

theorem enterStep (k : Nat) (x : Step) (s : State) : RecordsKeep UnitRecord.station1 s (s.enterStep k x) := by
  have stepped : RecordsKeep UnitRecord.station1 s (s.setPe { s.pe with step := some k }) := of_ut rfl
  have counted := stepped.trans (mapRunIn (fun r => { r with steps := count32 r.steps }) _)
  exact counted.then_same (by simp [State.enterStep])

theorem runSteps (fuel k : Nat) (s : State) : RecordsKeep UnitRecord.station1 s (runSteps fuel k s) := by
  induction fuel generalizing k s with
  | zero => exact of_ut rfl
  | succ fuel ih =>
    unfold Machine.runSteps
    split
    · exact beginStop _ s
    · next x _ =>
      dsimp only
      split
      · exact ((enterStep k x s).trans (endStep k x _)).trans (ih _ _)
      · exact enterStep k x s

theorem endCurrent (s : State) : RecordsKeep UnitRecord.station1 s s.endCurrent := by
  unfold State.endCurrent
  split
  · exact (endStep _ _ s).trans (runSteps _ _ _)
  · exact of_ut rfl

theorem takeSpeed (speed : Int) (s : State) : RecordsKeep UnitRecord.station1 s (s.takeSpeed speed) := by
  unfold State.takeSpeed
  split
  · split
    · split
      · exact endCurrent s
      · exact of_ut rfl
    · exact of_ut rfl
  · split
    · exact of_ut (by simp)
    · exact of_ut rfl
  all_goals exact of_ut rfl

/-- What is kept, seen through another reading. -/
theorem comp {β : Type} (g : α → β) (h : RecordsKeep f s t) : RecordsKeep (g ∘ f) s t := fun j => by
  rw [← Option.map_map, h j, Option.map_map]

/-- A search by what is kept finds the same record. -/
theorem find {p : UnitState → Bool} (h : RecordsKeep (fun r => p r.state) s t) : t.ut.find p = s.ut.find p := by
  unfold UnitTable.find
  congr 1
  funext j
  have hj := h j
  cases ht : t.ut.records[j] <;> cases hs : s.ut.records[j] <;> simp_all

/-- The station-1 unit is found in the same place (R5). -/
theorem unit1 (h : RecordsKeep UnitRecord.station1 s t) : t.unit1 = s.unit1 := (h.comp Prod.snd).find

/-- The same recipe governs station 1 (R38). -/
theorem recipe1 (h : RecordsKeep UnitRecord.station1 s t) (hr : t.rs = s.rs) : t.recipe1 = s.recipe1 := by
  simp only [State.recipe1, h.unit1]
  congr 1
  funext j
  have hj := h j
  cases ht : t.ut.records[j] <;> cases hs : s.ut.records[j] <;> simp_all [UnitRecord.station1, State.recipeOf]

/-- A record in use is still in use, with what `f` reads of it. -/
theorem some_of_some {i : Fin 8} {r : UnitRecord} (h : RecordsKeep f s t) (hr : s.ut.records[i] = some r) :
    ∃ r', t.ut.records[i] = some r' ∧ f r' = f r := by
  have hi := h i
  cases ht : t.ut.records[i] with
  | none => simp [hr, ht] at hi
  | some r' => exact ⟨r', rfl, by simpa [hr, ht] using hi⟩

end RecordsKeep

/-! ## No condition becomes active -/

/-- The drive last reported ready, and no fault (R45). -/
def State.driveFine (s : State) : Prop := ∀ f, s.afe.feedback = some f → f.ready = true ∧ f.fault = false

/-- Between `s` and `t` no feedback record has come, and where the drive is fine no condition has become active (R129). -/
def NoneActivated (s t : State) : Prop :=
  t.afe.feedback = s.afe.feedback ∧ (s.driveFine → ∀ n, t.active n = true → s.active n = true)

/-- A source judged not asserted makes no condition active (R129). -/
theorem State.active_setSource_false {n m : Fin 20} {s : State} (h : (s.setSource n false).active m = true) :
    s.active m = true := by
  by_cases hm : m = n
  · subst hm
    rcases hk : conditionKind m
    · rw [State.active_level hk, State.cond_setSource_level hk] at h
      rw [State.active_level hk]
      simp at h
      simp [h]
    · rw [State.active_latched hk, State.cond_setSource_latched hk] at h
      rw [State.active_latched hk]
      simpa using h
  · rwa [State.active_congr (State.cond_setSource_ne hm false s)] at h

namespace NoneActivated

variable {s t u : State}

theorem of_cu (hc : t.cu = s.cu) (hf : t.afe.feedback = s.afe.feedback) : NoneActivated s t :=
  ⟨hf, fun _ n h => by rwa [State.active_congr (State.cond_congr hc n)] at h⟩

theorem refl (s : State) : NoneActivated s s := of_cu rfl rfl

theorem trans (h : NoneActivated s t) (h' : NoneActivated t u) : NoneActivated s u := by
  obtain ⟨hf, ha⟩ := h
  obtain ⟨hf', ha'⟩ := h'
  refine ⟨hf'.trans hf, fun hd n hn => ha hd n (ha' ?_ n hn)⟩
  unfold State.driveFine at *
  rwa [hf]

theorem then_same (h : NoneActivated s t) (hc : u.cu = t.cu) (hf : u.afe.feedback = t.afe.feedback) : NoneActivated s u :=
  h.trans (of_cu hc hf)

theorem setSource_false (n : Fin 20) (s : State) : NoneActivated s (s.setSource n false) :=
  ⟨by simp, fun _ _ => State.active_setSource_false⟩

/-- A stream that does not starve activates nothing (R76). -/
theorem enterStream (st : StreamId) {x : StreamState} (hx : x ≠ .starved) (s : State) : NoneActivated s (s.enterStream st x) := by
  have placed : NoneActivated s (s.setStream st { s.stream st with state := x }) := of_cu (by simp) (by simp)
  unfold State.enterStream
  dsimp only
  rw [if_neg hx]
  split
  · exact placed.trans (setSource_false _ _)
  · exact placed

theorem wantedState_ne_starved (st : StreamId) (s : State) : s.wantedState st ≠ .starved := by
  unfold State.wantedState
  split <;> simp

theorem syncStream (st : StreamId) (s : State) : NoneActivated s (s.syncStream st) := by
  unfold State.syncStream
  split
  · exact enterStream st (by simp) s
  · exact enterStream st (by simp) s
  · exact enterStream st (by simp) s
  · exact refl s

theorem syncStreams (s : State) : NoneActivated s s.syncStreams :=
  ((syncStream .vib s).trans (syncStream .slow _)).trans (syncStream .leak _)

theorem enterWanted (st : StreamId) (s : State) : NoneActivated s (s.enterWanted st) := by
  have entered := enterStream st (wantedState_ne_starved st s) s
  unfold State.enterWanted
  dsimp only
  split
  · exact entered.then_same (by simp) (by simp)
  · exact entered

theorem applyPlan (st : StreamId) (p : Plan) (s : State) : NoneActivated s (s.applyPlan st p) :=
  (of_cu (by simp) (by simp) : NoneActivated s (s.setStream st _)).trans (enterWanted st _)

theorem setTarget (st : StreamId) (p : Plan) (s : State) : NoneActivated s (s.setTarget st p) := by
  unfold State.setTarget
  dsimp only
  split
  · split
    · exact (of_cu (by simp) (by simp) : NoneActivated s (s.setStream st _)).trans (enterWanted st _)
    · exact refl s
  · split
    · exact applyPlan st p s
    · exact (of_cu (by simp) (by simp) : NoneActivated s (s.setStream st _)).trans (enterStream st (by simp) _)

theorem checkPlan (st : StreamId) (s : State) : NoneActivated s (s.checkPlan st) := by
  unfold State.checkPlan
  split
  · split
    · exact applyPlan st _ s
    · exact refl s
  · exact refl s

theorem checkPlans (s : State) : NoneActivated s s.checkPlans :=
  ((checkPlan .vib s).trans (checkPlan .slow _)).trans (checkPlan .leak _)

theorem releaseVib (d : Fin 32) (s : State) : NoneActivated s (s.releaseVib d) :=
  (of_cu rfl rfl : NoneActivated s (s.setCs _)).trans (checkPlans _)

theorem abandonFor (n : Nat) (s : State) : NoneActivated s (s.abandonFor n) := by
  unfold State.abandonFor State.abandonOpen
  split
  · next d hd =>
    split
    · exact (of_cu rfl rfl : NoneActivated s (s.setAfe _)).trans (releaseVib d _)
    · exact refl s
  · exact refl s

theorem openWindow (n : Nat) (s : State) : NoneActivated s (s.openWindow n) :=
  (of_cu (by simp) (by simp) : NoneActivated s (s.mapWindow n _)).trans (syncStreams _)

theorem pauseWindow (n : Nat) (s : State) : NoneActivated s (s.pauseWindow n) :=
  (of_cu (by simp) (by simp) : NoneActivated s (s.mapWindow n _)).trans (syncStreams _)

theorem closeWindow (n : Nat) (s : State) : NoneActivated s (s.closeWindow n) := by
  have graded : NoneActivated s ((s.abandonFor n).gradeWindow n).syncStreams :=
    ((abandonFor n s).then_same (by simp) (by simp)).trans (syncStreams _)
  have closing : NoneActivated s ((s.abandonFor n).mapWindow n fun w => { w with state := .closing }).syncStreams :=
    ((abandonFor n s).then_same (by simp) (by simp)).trans (syncStreams _)
  cases hw : s.oa.window n with
  | none => rw [State.closeWindow_absent hw]; exact refl s
  | some w =>
    rcases State.closeWindow_found hw with ⟨-, -, h⟩ | ⟨-, -, h⟩ | ⟨-, -, h⟩ <;> rw [h]
    · exact graded
    · exact closing
    · exact refl s

theorem closeAll (s : State) : NoneActivated s s.closeAll := by
  unfold State.closeAll
  generalize s.oa.windows.map Window.number = ns
  induction ns generalizing s with
  | nil => exact refl s
  | cons n ns ih => exact (closeWindow n s).trans (ih _)

theorem closeWindows (s : State) : NoneActivated s s.closeWindows := by
  unfold State.closeWindows
  split
  · exact of_cu (by simp) (by simp)
  · exact closeAll s

theorem checkTransfer (s : State) : NoneActivated s s.checkTransfer := by
  unfold State.checkTransfer
  split
  · next i _ =>
    split
    · have moved : NoneActivated s (s.runConveyor.enterState i .inTransfer) := of_cu (by simp) (by simp)
      dsimp only
      split
      · exact moved.trans (setTarget .leak _ _)
      · exact moved
    · exact refl s
  · exact refl s

theorem checkRunDone (s : State) : NoneActivated s s.checkRunDone := by
  unfold State.checkRunDone
  split
  · exact refl s
  · next i _ =>
    split
    · exact refl s
    · split
      · have moved : NoneActivated s (s.enterState i .runDone) := of_cu (by simp) (by simp)
        exact ((moved.trans (syncStreams _)).then_same (by simp) (by simp)).trans (checkTransfer _)
      · exact refl s

/-- A drive that is fine asserts nothing of DRIVE_FAULT (R128). -/
theorem driveFaulty_of_fine (h : s.driveFine) : s.driveFaulty = false := by
  unfold State.driveFaulty
  split
  · rfl
  · next f hf => simp [h f hf]

theorem setEnable (b : Bool) (s : State) : NoneActivated s (s.setEnable b) := by
  refine ⟨by simp, fun hd n hn => ?_⟩
  unfold State.setEnable at hn
  split at hn
  · exact hn
  · have hq : ∀ p : ProfileEngine, (s.setPe p).driveFaulty = false := fun _ => driveFaulty_of_fine hd
    rw [State.judgeDrive, hq] at hn
    exact State.active_setSource_false hn

theorem profileEnd (cause : StopCause) (s : State) : NoneActivated s (s.profileEnd cause) := by
  unfold State.profileEnd
  refine NoneActivated.trans ?_ (checkRunDone _)
  refine then_same (NoneActivated.trans ?_ (closeWindows _)) rfl rfl
  exact (setEnable false s).then_same (by simp) (by simp)

theorem beginStop (cause : StopCause) (s : State) : NoneActivated s (s.beginStop cause) := by
  unfold State.beginStop
  dsimp only
  split
  · exact (of_cu rfl rfl : NoneActivated s (s.setPe _)).trans (profileEnd cause _)
  · exact of_cu rfl rfl

theorem tryOpen (s : State) : NoneActivated s s.tryOpen := by
  unfold State.tryOpen
  split
  · exact refl s
  · split
    · exact (of_cu rfl rfl : NoneActivated s (s.setPe _)).trans (openWindow _ _)
    · exact refl s

theorem loadSettle (x : Step) (s : State) : NoneActivated s (s.loadSettle x) := by
  unfold State.loadSettle
  dsimp only
  split
  · exact of_cu rfl rfl
  · split
    · exact (of_cu rfl rfl : NoneActivated s ((s.setPe _).setPe _)).trans (tryOpen _)
    · exact of_cu rfl rfl

theorem loadStep (x : Step) (s : State) : NoneActivated s (s.loadStep x) :=
  (of_cu rfl rfl : NoneActivated s (s.setPe _)).trans (loadSettle x _)

theorem enterStep (k : Nat) (x : Step) (s : State) : NoneActivated s (s.enterStep k x) :=
  (of_cu (by simp) (by simp) : NoneActivated s ((s.setPe _).mapRunIn _)).trans (loadStep x _)

theorem pauseStep (s : State) : NoneActivated s s.pauseStep := by
  unfold State.pauseStep
  dsimp only
  split
  · split
    · exact of_cu rfl rfl
    · exact (of_cu rfl rfl : NoneActivated s (s.setPe _)).trans (pauseWindow _ _)
  · exact of_cu rfl rfl

theorem endStep (k : Nat) (x : Step) (s : State) : NoneActivated s (s.endStep k x).1 := by
  unfold State.endStep
  dsimp only
  split
  · exact (pauseStep s).then_same (by simp) (by simp)
  · exact (pauseStep s).then_same rfl rfl

theorem runSteps (fuel k : Nat) (s : State) : NoneActivated s (runSteps fuel k s) := by
  induction fuel generalizing k s with
  | zero => exact refl s
  | succ fuel ih =>
    unfold Machine.runSteps
    split
    · exact beginStop _ s
    · next x _ =>
      dsimp only
      split
      · exact ((enterStep k x s).trans (endStep k x _)).trans (ih _ _)
      · exact enterStep k x s

theorem takeSpeed (speed : Int) (s : State) : NoneActivated s (s.takeSpeed speed) := by
  unfold State.takeSpeed
  split
  · split
    · split
      · unfold State.endCurrent
        split
        · exact (endStep _ _ s).trans (runSteps _ _ _)
        · exact refl s
      · exact refl s
    · exact refl s
  · split
    · unfold State.restartStep
      split
      · exact loadStep _ s
      · exact refl s
    · exact refl s
  all_goals exact refl s

end NoneActivated

end Sys2Proof.Machine
end

