-- ==== Sys2Proof/Proofs/Steps.lean ====
section
/-! The Profile Engine's own operations, each said once: what a pause, an open and the load of a step leave, how a step ends, and what
the engine goes on with (spec/03). -/

namespace Sys2Proof.Machine

/-! ## The running unit and its recipe -/

theorem IsUnitIn.unit1 {s : State} {i : Fin 8} {r : UnitRecord} (hu : IsUnitIn .running i r s) (hl : StationLaw s) :
    s.unit1 = some i := hl.unit1 hu.1 (by rw [hu.2.1]; rfl)

theorem IsUnitIn.recipe1 {s : State} {i : Fin 8} {r : UnitRecord} (hu : IsUnitIn .running i r s) (hl : StationLaw s) :
    s.recipe1 = some (s.recipeOf r) := State.recipe1_of (hu.unit1 hl) hu.1

theorem State.stepOf_of {s : State} {R : Recipe} {k : Nat} (hR : s.recipe1 = some R) (hk : 1 ≤ k) :
    s.stepOf k = R.steps[k - 1]? := by
  rw [State.stepOf, hR, Option.bind_some, if_neg (by omega)]

theorem State.currentStep_of {s : State} {R : Recipe} {k : Nat} {x : Step} (hR : s.recipe1 = some R) (hs : s.pe.step = some k)
    (hk : 1 ≤ k) (hx : R.steps[k - 1]? = some x) : s.currentStep = some x := by
  rw [State.currentStep, hs, Option.bind_some, State.stepOf_of hR hk, hx]

/-- The current step is read from the engine's step, the units and the slots alone. -/
theorem State.currentStep_congr {s t : State} (hs : t.pe.step = s.pe.step) (hR : t.recipe1 = s.recipe1) :
    t.currentStep = s.currentStep := by
  simp only [State.currentStep, State.stepOf, hs, hR]

theorem IsStepping.currentStep {k : Nat} {x : Step} {i : Fin 8} {r : UnitRecord} {s : State} (h : IsStepping k x i r s) :
    s.currentStep = some x := by
  obtain ⟨hl, hu, -, hs, hk, hx⟩ := h
  exact State.currentStep_of (hu.recipe1 hl) hs hk hx

/-! ## Changes of the running record -/

theorem State.mapUnit_eq_setRecord {s : State} {i : Fin 8} {r : UnitRecord} (hi : s.ut.records[i] = some r)
    (g : UnitRecord → UnitRecord) : s.mapUnit i g = s.setRecord i (g r) := by
  simp only [State.mapUnit, State.setRecord, hi, Option.map_some]

/-- A unit record with another run-in section. -/
def UnitRecord.withRunIn (r : UnitRecord) (x : RunIn) : UnitRecord := { r with runIn := x }

@[simp] theorem UnitRecord.withRunIn_parts (r : UnitRecord) (x : RunIn) :
    (r.withRunIn x).runIn = x ∧ (r.withRunIn x).state = r.state ∧ (r.withRunIn x).slot = r.slot ∧
    (r.withRunIn x).noise = r.noise := ⟨rfl, rfl, rfl, rfl⟩

theorem State.mapRunIn_eq_setRecord {s : State} {i : Fin 8} {r : UnitRecord} (hu : IsUnitIn .running i r s) (g : RunIn → RunIn) :
    s.mapRunIn g = s.setRecord i (r.withRunIn (g r.runIn)) := by
  simp only [State.mapRunIn, hu.running, State.mapUnit_eq_setRecord hu.1]
  rfl

theorem State.setRecord_self_records (i : Fin 8) (r : UnitRecord) (s : State) : (s.setRecord i r).ut.records[i] = some r := by
  rw [State.setRecord_records, if_pos rfl]

theorem State.setRecord_self {s : State} {i : Fin 8} {r : UnitRecord} (hi : s.ut.records[i] = some r) : s.setRecord i r = s := by
  have : s.ut.records.set i (some r) = s.ut.records := by rw [← hi]; exact Vector.set_getElem_self _
  rw [State.setRecord, this, State.setUt_self]

/-- A change of a record leaves every other block. -/
theorem State.setRecord_others (i : Fin 8) (r : UnitRecord) (s : State) :
    (s.setRecord i r).pe = s.pe ∧ (s.setRecord i r).oa = s.oa ∧ (s.setRecord i r).cs = s.cs ∧ (s.setRecord i r).cu = s.cu ∧
    (s.setRecord i r).rs = s.rs ∧ (s.setRecord i r).afe = s.afe := by simp [State.setRecord]

@[simp] theorem State.setRecord_setRecord (i : Fin 8) (r r' : UnitRecord) (s : State) :
    (s.setRecord i r).setRecord i r' = s.setRecord i r' := by
  simp [State.setRecord]

theorem State.setRecord_ut_congr {s t : State} (h : t.ut = s.ut) (i : Fin 8) (r : UnitRecord) :
    (t.setRecord i r).ut = (s.setRecord i r).ut := by simp only [State.setRecord, h, State.setUt_ut]

/-- The stations' law reads the states of the records alone. -/
theorem StationLaw.setRecord {s : State} (hl : StationLaw s) {i : Fin 8} {r r' : UnitRecord} (hi : s.ut.records[i] = some r)
    (hs : r'.state = r.state) : StationLaw (s.setRecord i r') := by
  have back : ∀ (j : Fin 8) (a : UnitRecord), (s.setRecord i r').ut.records[j] = some a →
      ∃ b, s.ut.records[j] = some b ∧ a.state = b.state := by
    intro j a ha
    rw [State.setRecord_records] at ha
    split at ha
    · next hj => subst hj; cases ha; exact ⟨r, hi, hs⟩
    · exact ⟨a, ha, rfl⟩
  intro j j' a a' ha ha'
  obtain ⟨b, hb, hab⟩ := back j a ha
  obtain ⟨b', hb', hab'⟩ := back j' a' ha'
  rw [hab, hab']
  exact hl j j' b b' hb hb'

/-- The search for the station-2 unit reads the states of the records alone. -/
theorem State.unit2_setRecord {s : State} {i : Fin 8} {r r' : UnitRecord} (hi : s.ut.records[i] = some r)
    (hs : r'.state = r.state) : (s.setRecord i r').unit2 = s.unit2 := by
  refine UnitTable.find_congr fun j => ?_
  rw [State.setRecord_records]
  split
  · next h => subst h; simp [hi, hs]
  · rfl

theorem State.unit2_congr {s t : State} (h : t.ut = s.ut) : t.unit2 = s.unit2 := by simp only [State.unit2, h]

/-! ## Window signals (R61, R62, R86, R87) -/

theorem State.openWindow_windows (n : Nat) (s : State) : (s.openWindow n).oa.windows = openedWindow n s.oa.windows := by
  simp only [State.openWindow, State.syncStreams_frame, State.mapWindow, State.setOa_oa, OrderAnalyzer.mapWindow, openedWindow]
  refine List.map_congr_left fun w _ => ?_
  by_cases hn : w.number = n <;> simp [hn]

theorem State.pauseWindow_windows {n : Nat} (hn : n ≠ 0) (s : State) :
    (s.pauseWindow n).oa.windows = pausedWindow n s.oa.windows := by
  simp only [State.pauseWindow, State.syncStreams_frame, State.mapWindow, State.setOa_oa, OrderAnalyzer.mapWindow, pausedWindow]
  refine List.map_congr_left fun w _ => ?_
  by_cases hw : w.number = n <;> simp [hn, hw]

theorem pausedWindow_zero (ws : List Window) : pausedWindow 0 ws = ws := by simp [pausedWindow]

/-- A pause changes no window's number, and closes none. -/
theorem pausedWindow_numbers (n : Nat) (ws : List Window) : (pausedWindow n ws).map Window.number = ws.map Window.number := by
  simp only [pausedWindow, List.map_map]
  refine List.map_congr_left fun w _ => ?_
  simp only [Function.comp_apply]
  split <;> rfl

/-- The settled step's window is sent open (R61). -/
theorem State.tryOpen_opens {s : State} {x : Step} (hx : s.currentStep = some x) (hp : s.pe.phase = .stepping)
    (hw : x.window ≠ 0) (hs : s.pe.settled = true) (ho : s.pe.openSent = false) (hn : s.halt.noise = false) :
    s.tryOpen = (s.setPe { s.pe with openSent := true }).openWindow x.window := by
  simp [State.tryOpen, hx, hp, hw, hs, ho, hn]

/-- Under a NOISE halt the open waits (R61, R62). -/
theorem State.tryOpen_waits {s : State} (hn : s.halt.noise = true) : s.tryOpen = s := by
  unfold State.tryOpen
  split
  · rfl
  · simp [hn]

/-- An open touches nothing of the engine but that it has been sent. -/
theorem State.tryOpen_pe (s : State) : s.tryOpen.pe = { s.pe with openSent := s.tryOpen.pe.openSent } := by
  unfold State.tryOpen
  split
  · rfl
  · split
    · simp
    · rfl

/-- The engine with its window settle timer stopped and no open sent (R43, R47). -/
def State.unsettled (s : State) : State := s.setPe { s.pe with settleTimer := none, settled := false, openSent := false }

/-- The engine with its window settle timer run out (R61). -/
def State.settledNow (s : State) : State := s.setPe { s.pe with settleTimer := none, settled := true }

theorem State.settle_eq (s : State) : s.settle = s.settledNow.tryOpen := rfl

theorem State.pauseStep_without {s : State} {x : Step} (hx : s.currentStep = some x) (hw : x.window = 0) :
    s.pauseStep = s.unsettled := by
  have hx' : s.unsettled.currentStep = some x := hx
  unfold State.pauseStep
  rw [← State.unsettled, hx]
  exact if_pos hw

theorem State.pauseStep_with {s : State} {x : Step} (hx : s.currentStep = some x) (hw : x.window ≠ 0) :
    s.pauseStep = s.unsettled.pauseWindow x.window := by
  unfold State.pauseStep
  rw [← State.unsettled, hx]
  exact if_neg hw

theorem State.pauseStep_pe {s : State} {x : Step} (hx : s.currentStep = some x) : s.pauseStep.pe = s.unsettled.pe := by
  by_cases hw : x.window = 0
  · rw [State.pauseStep_without hx hw]
  · rw [State.pauseStep_with hx hw]; simp

theorem State.pauseStep_windows {s : State} {x : Step} (hx : s.currentStep = some x) :
    s.pauseStep.oa.windows = pausedWindow x.window s.oa.windows := by
  by_cases hw : x.window = 0
  · rw [State.pauseStep_without hx hw, hw, pausedWindow_zero]; rfl
  · rw [State.pauseStep_with hx hw, State.pauseWindow_windows hw]; rfl

/-! ## The load of a step (R43, R59) -/

/-- The settle time of the window of step `x`, if it has a window. -/
def Recipe.settleTime (R : Recipe) (x : Step) : Option Nat :=
  if x.window = 0 then none else (R.windows[x.window - 1]?).map WindowSpec.settle

/-- What the load of the window settle timer comes to, by the settle time of the step's window (R43, R61). -/
theorem State.loadSettle_of {s : State} {R : Recipe} (hR : s.recipe1 = some R) (x : Step) :
    s.loadSettle x = match R.settleTime x with
      | none => s.unsettled
      | some 0 => s.unsettled.settledNow.tryOpen
      | some (ms + 1) => s.unsettled.setPe { s.unsettled.pe with settleTimer := some (ms + 1) } := by
  unfold State.loadSettle Recipe.settleTime
  rw [← State.unsettled, hR, Option.bind_some]
  by_cases hw : x.window = 0
  · simp [hw]
  · simp only [hw, if_false]
    cases R.windows[x.window - 1]? with
    | none => rfl
    | some w =>
      obtain ⟨ms, hms⟩ : ∃ ms, w.settle = ms := ⟨_, rfl⟩
      cases ms with
      | zero => simp [hms, State.settle_eq]
      | succ ms => simp [hms]

/-- A load of the window settle timer touches nothing else of the engine. -/
theorem State.loadSettle_pe (x : Step) (s : State) :
    (s.loadSettle x).pe = { s.pe with
      settleTimer := (s.loadSettle x).pe.settleTimer, settled := (s.loadSettle x).pe.settled
      openSent := (s.loadSettle x).pe.openSent } := by
  unfold State.loadSettle
  dsimp only
  split
  · rfl
  · split
    · rw [State.settle, State.tryOpen_pe]
      rfl
    · rfl

/-- The window settle timer and the window after the entry to the current step `x` (R43, R61). -/
theorem State.loadSettle_settleLoaded {s : State} {R : Recipe} {x : Step} (hR : s.recipe1 = some R) (hx : s.currentStep = some x)
    (hp : s.pe.phase = .stepping) : SettleLoaded R x s.halt.noise s.oa.windows (s.loadSettle x) := by
  unfold SettleLoaded
  rw [State.loadSettle_of hR, ← Recipe.settleTime]
  rcases ht : R.settleTime x with _ | _ | ms
  · exact ⟨fun _ => ⟨rfl, rfl, rfl, rfl⟩, fun _ h => nomatch h⟩
  · refine ⟨fun h => (nomatch h), fun ms hms => ?_⟩
    obtain rfl : 0 = ms := by simpa using hms
    refine ⟨fun h => absurd rfl h, fun _ => ?_⟩
    have hw : x.window ≠ 0 := fun hw => by simp [Recipe.settleTime, hw] at ht
    cases hn : s.halt.noise with
    | true => rw [State.tryOpen_waits (show s.unsettled.settledNow.halt.noise = true from hn)]; exact ⟨rfl, rfl, rfl, rfl⟩
    | false =>
      rw [State.tryOpen_opens (s := s.unsettled.settledNow) hx hp hw rfl rfl hn, State.openWindow_windows]
      simp only [State.openWindow_frame]
      exact ⟨rfl, rfl, rfl, rfl⟩
  · refine ⟨fun h => (nomatch h), fun n hn => ?_⟩
    obtain rfl : ms + 1 = n := by simpa using hn
    exact ⟨fun _ => ⟨rfl, rfl, rfl, rfl⟩, fun h => nomatch h⟩

theorem State.clampTorque_of {s : State} {R : Recipe} (hR : s.recipe1 = some R) (v : Int) :
    s.clampTorque v = clampInt (-(R.torqueLimit : Int)) R.torqueLimit v := by
  simp [State.clampTorque, State.torqueLimit, hR]

/-- The entry to the current step `y`, or its restart, loads it (R43, R59). -/
theorem State.loadStep_stepLoaded {s : State} {R : Recipe} {y : Step} (hR : s.recipe1 = some R) (hy : s.currentStep = some y) :
    StepLoaded R y s.halt.noise s.oa.windows (s.loadStep y) := by
  unfold State.loadStep
  refine ⟨?_, ?_, ?_, ?_, fun hd => ?_, State.loadSettle_settleLoaded (by exact hR) (by exact hy) rfl⟩
  all_goals rw [State.loadSettle_pe]
  · rfl
  · rfl
  · exact State.clampTorque_of hR _
  · exact State.clampTorque_of hR _
  · simp [hd, State.now, State.uptime]

/-! ## Stopping (R51) -/

/-- The engine as it begins to stop with the outcome of `cause` (R51). -/
def State.stoppingFor (cause : StopCause) (s : State) : State :=
  s.setPe { s.pe with phase := .stopping, cause := some cause, stepTimer := none, torqueL := 0, torqueR := 0 }

theorem State.beginStop_moving {s : State} (h : s.pe.setpoint ≠ 0) (cause : StopCause) :
    s.beginStop cause = s.stoppingFor cause := if_neg h

theorem State.beginStop_standing {s : State} (h : s.pe.setpoint = 0) (cause : StopCause) :
    s.beginStop cause = (s.stoppingFor cause).profileEnd cause := if_pos h

/-! ## The normal end of a step (R47, R49, R53) -/

theorem loopNext_eq_nextStep (k : Nat) (x : Step) (counter : Nat) : loopNext k x counter = nextStep k x counter := by
  unfold loopNext nextStep
  by_cases h : 2 ≤ x.loopCount
  · rw [if_pos h, if_neg (show ¬x.loopCount ≤ 1 by omega)]
  · rw [if_neg h, if_pos (show x.loopCount ≤ 1 by omega)]

/-- The run-in section at the normal end of step `x` (R53). -/
def RunIn.stepEnded (recipe : Recipe) (x : Step) (pe : ProfileEngine) (r : RunIn) : RunIn :=
  if x.kind = .measureDrag then r.joinDrag (Machine.dragResult recipe x.duration pe.dragRecords pe.dragSamples pe.dragSum) else r

/-- The end of a step touches the drag result and its mean alone. -/
theorem RunIn.stepEnded_rest (recipe : Recipe) (x : Step) (pe : ProfileEngine) (r : RunIn) :
    (r.stepEnded recipe x pe).state = r.state ∧ (r.stepEnded recipe x pe).steps = r.steps ∧
    (r.stepEnded recipe x pe).failStep = r.failStep := by
  unfold RunIn.stepEnded RunIn.joinDrag
  repeat' split
  all_goals simp

/-- A pass result that joins the section is the result of R53. -/
theorem RunIn.stepEnded_dragEvaluated (recipe : Recipe) (x : Step) (pe : ProfileEngine) (r : RunIn) :
    DragEvaluated recipe x pe r (r.stepEnded recipe x pe) := by
  obtain ⟨pass, hpass⟩ : ∃ pass, pass = Machine.dragResult recipe x.duration pe.dragRecords pe.dragSamples pe.dragSum := ⟨_, rfl⟩
  have hcode : pass.1 = .pass ∨ pass.1 = .incomplete ∨ pass.1 = .fail := by
    rw [hpass]
    unfold Machine.dragResult
    dsimp only
    repeat' split
    all_goals simp
  have hstate : (if pe.dragRecords = 0 ∨ 2 * pe.dragRecords < (x.duration - 500) / 256 then (Verdict.incomplete, none)
      else if recipe.dragMin ≤ pe.dragSum / pe.dragSamples ∧ pe.dragSum / pe.dragSamples ≤ recipe.dragMax
        then (Verdict.pass, some (pe.dragSum / pe.dragSamples)) else (Verdict.fail, some (pe.dragSum / pe.dragSamples))) = pass := by
    rw [hpass]
    unfold Machine.dragResult
    dsimp only
    repeat' split
    all_goals rfl
  unfold DragEvaluated RunIn.stepEnded
  simp only [hstate, ← hpass]
  refine ⟨fun h => by simp [h], fun h hn => by simp [h, RunIn.joinDrag, hn], fun old h ho hold => ?_⟩
  simp only [h, if_true, RunIn.joinDrag, ho]
  rcases hold with rfl | rfl | rfl <;> rcases hcode with hc | hc | hc <;> simp [hc, Verdict.code, ho]

/-- What the normal end of step `k`, which is `x`, leaves (R47, R49, R53, R62). -/
structure StepEnded (k : Nat) (x : Step) (i : Fin 8) (r : UnitRecord) (s t : State) : Prop where
  pe : t.pe = { s.pe with
    settleTimer := none, settled := false, openSent := false, stepTimer := none
    counters := s.pe.counters.set (k - 1) (nextStep k x (s.pe.counters.getD (k - 1) 0)).2 }
  ut : t.ut = (s.setRecord i (r.withRunIn (r.runIn.stepEnded (s.recipeOf r) x s.pe))).ut
  windows : t.oa.windows = pausedWindow x.window s.oa.windows
  rs : t.rs = s.rs
  stack : t.cu.stack = s.cu.stack
  openVib : t.afe.openVib = s.afe.openVib
  vibDescs : t.cs.vibDescs = s.cs.vibDescs

/-- The end of a step takes the drag result in the record of the running unit and touches no other block (R53). -/
theorem State.dragTaken {s : State} {i : Fin 8} {r : UnitRecord} (hl : StationLaw s) (hu : IsUnitIn .running i r s) (x : Step) :
    (if x.kind = .measureDrag then s.evaluateDrag x else s) =
      s.setRecord i (r.withRunIn (r.runIn.stepEnded (s.recipeOf r) x s.pe)) := by
  unfold RunIn.stepEnded
  split
  · unfold State.evaluateDrag
    rw [hu.recipe1 hl]
    exact State.mapRunIn_eq_setRecord hu _
  · exact (State.setRecord_self hu.1).symm

theorem IsStepping.stepEnded {k : Nat} {x : Step} {i : Fin 8} {r : UnitRecord} {s : State} (h : IsStepping k x i r s) :
    StepEnded k x i r s (s.endStep k x).1 ∧ (s.endStep k x).2 = (nextStep k x (s.pe.counters.getD (k - 1) 0)).1 := by
  have hx := h.currentStep
  obtain ⟨hl, hu, -⟩ := h
  have hut : s.pauseStep.ut = s.ut := by simp
  have hpe : s.pauseStep.pe = s.unsettled.pe := State.pauseStep_pe hx
  have hrun : r.runIn.stepEnded (s.pauseStep.recipeOf r) x s.pauseStep.pe = r.runIn.stepEnded (s.recipeOf r) x s.pe := by
    simp only [State.recipeOf, State.pauseStep_frame, hpe]
    rfl
  unfold State.endStep
  simp only [loopNext_eq_nextStep, State.dragTaken (hl.congr hut) (hu.congr hut), hrun]
  have hrest := State.setRecord_others i (r.withRunIn (r.runIn.stepEnded (s.recipeOf r) x s.pe)) s.pauseStep
  refine ⟨⟨?_, ?_, ?_, ?_, ?_, ?_, ?_⟩, ?_⟩ <;> simp only [State.setPe_pe, State.setPe_ut, State.setPe_oa, State.setPe_rs,
    State.setPe_cu, State.setPe_afe, State.setPe_cs, hrest]
  · simp only [hpe]; rfl
  · exact State.setRecord_ut_congr hut i _
  · exact State.pauseStep_windows hx
  · simp
  · simp
  · simp
  · simp
  · simp

/-! ## The step that follows (R43, R47, R51) -/

/-- The engine goes on with a step that lasts by entering it (R43). -/
theorem State.goTo_lasting {s : State} {n : Nat} {y : Step} (hy : s.stepOf n = some y) (he : y.endsAtEntry = false) :
    s.goTo n = s.enterStep n y := by
  obtain ⟨fuel, hfuel⟩ : ∃ fuel, chainFuel = fuel + 1 := Nat.exists_eq_succ_of_ne_zero (by simp [chainFuel])
  rw [State.goTo, hfuel, runSteps, hy]
  exact if_neg (by simp [he])

/-- Past the last step the profile finishes (R51). -/
theorem State.goTo_past {s : State} {n : Nat} (hn : s.stepOf n = none) : s.goTo n = s.finishProfile := by
  obtain ⟨fuel, hfuel⟩ : ∃ fuel, chainFuel = fuel + 1 := Nat.exists_eq_succ_of_ne_zero (by simp [chainFuel])
  rw [State.goTo, hfuel, runSteps, hn]

theorem IsStepping.endCurrent {k : Nat} {x : Step} {i : Fin 8} {r : UnitRecord} {s : State} (h : IsStepping k x i r s) :
    s.endCurrent = (s.endStep k x).1.goTo (nextStep k x (s.pe.counters.getD (k - 1) 0)).1 := by
  obtain ⟨-, hnext⟩ := h.stepEnded
  have hx := h.currentStep
  obtain ⟨-, -, -, hs, -⟩ := h
  simp only [State.endCurrent, hs, hx, hnext]

/-- The engine with step `k` current. -/
def State.atStep (k : Nat) (s : State) : State := s.setPe { s.pe with step := some k }

/-- The entry to step `k` counts it in the running record and loads it (R43). -/
theorem State.enterStep_entered {s : State} {i : Fin 8} {r : UnitRecord} {k : Nat} {y : Step} (hl : StationLaw s)
    (hu : IsUnitIn .running i r s) (hk : 1 ≤ k) (hy : (s.recipeOf r).steps[k - 1]? = some y) :
    StepLoaded (s.recipeOf r) y s.halt.noise s.oa.windows (s.enterStep k y) ∧ (s.enterStep k y).pe.step = some k ∧
      (s.enterStep k y).ut.records[i] = some (r.withRunIn { r.runIn with steps := count32 r.runIn.steps }) := by
  have hR : (s.atStep k).recipe1 = some (s.recipeOf r) := hu.recipe1 hl
  have heq : s.enterStep k y = ((s.atStep k).mapRunIn fun r => { r with steps := count32 r.steps }).loadStep y := rfl
  have hR' : ((s.atStep k).mapRunIn fun r => { r with steps := count32 r.steps }).recipe1 = some (s.recipeOf r) :=
    ((RecordsKeep.mapRunIn _ (s.atStep k)).recipe1 (by simp)).trans hR
  have hload := State.loadStep_stepLoaded hR' (State.currentStep_of hR' (k := k) (by simp [State.atStep]) hk hy)
  rw [heq]
  refine ⟨?_, by simp [State.atStep], ?_⟩
  · simpa [State.halt, State.atStep] using hload
  · simp only [State.loadStep_frame]
    rw [State.mapRunIn_eq_setRecord (s := s.atStep k) hu, State.setRecord_self_records]

/-- Where a step of the running unit has ended, the unit and its recipe are the same but for the drag result. -/
theorem StepEnded.unit {k : Nat} {x : Step} {i : Fin 8} {r : UnitRecord} {s t : State} (h : StepEnded k x i r s t)
    (hl : StationLaw s) (hu : IsUnitIn .running i r s) :
    StationLaw t ∧ IsUnitIn .running i (r.withRunIn (r.runIn.stepEnded (s.recipeOf r) x s.pe)) t ∧
      t.recipe1 = some (s.recipeOf r) := by
  have hl' : StationLaw t := (hl.setRecord hu.1 (r.withRunIn_parts _).2.1).congr h.ut
  have hu' : IsUnitIn .running i (r.withRunIn (r.runIn.stepEnded (s.recipeOf r) x s.pe)) t :=
    (hu.setRecord (r.withRunIn_parts _).2.1).congr h.ut
  refine ⟨hl', hu', (hu'.recipe1 hl').trans ?_⟩
  simp only [State.recipeOf, h.rs, UnitRecord.withRunIn_parts]

/-- The normal end of a step enters the step of R49 where that lasts (R43, R47). -/
theorem IsStepping.endCurrent_enters {k : Nat} {x y : Step} {i : Fin 8} {r : UnitRecord} {s : State} (h : IsStepping k x i r s)
    (hn : 1 ≤ (nextStep k x (s.pe.counters.getD (k - 1) 0)).1)
    (hy : (s.recipeOf r).steps[(nextStep k x (s.pe.counters.getD (k - 1) 0)).1 - 1]? = some y) (he : y.endsAtEntry = false) :
    StepEntered (nextStep k x (s.pe.counters.getD (k - 1) 0)).1 x y i r s s.endCurrent ∧
      s.endCurrent.pe.counters = s.pe.counters.set (k - 1) (nextStep k x (s.pe.counters.getD (k - 1) 0)).2 ∧
      ∃ r', s.endCurrent.ut.records[i] = some r' ∧ DragEvaluated (s.recipeOf r) x s.pe r.runIn r'.runIn := by
  obtain ⟨hend, -⟩ := h.stepEnded
  rw [h.endCurrent]
  obtain ⟨hl, hu, -⟩ := h
  obtain ⟨hl', hu', hR⟩ := hend.unit hl hu
  generalize (nextStep k x (s.pe.counters.getD (k - 1) 0)).1 = n at hn hy ⊢
  generalize (s.endStep k x).1 = e at hend hl' hu' hR ⊢
  obtain ⟨hpe, -, hwindows, hrs, hstack, -, -⟩ := hend
  have hrec : e.recipeOf (r.withRunIn (r.runIn.stepEnded (s.recipeOf r) x s.pe)) = s.recipeOf r := by
    simp [State.recipeOf, hrs]
  have hent := State.enterStep_entered hl' hu' hn (by rw [hrec]; exact hy)
  rw [hrec, State.halt_congr hstack, hwindows] at hent
  rw [State.goTo_lasting ((State.stepOf_of hR hn).trans hy) he]
  obtain ⟨hload, hstep, hrecord⟩ := hent
  obtain ⟨-, hsteps, -⟩ := RunIn.stepEnded_rest (s.recipeOf r) x s.pe r.runIn
  refine ⟨⟨hload, hstep, by simp [hpe], by simp [hpe], by simp [hpe], _, hrecord, hu'.2.1, ?_⟩, by simp [hpe], _, hrecord, ?_⟩
  · simp [hsteps]
  · exact RunIn.stepEnded_dragEvaluated (s.recipeOf r) x s.pe r.runIn

end Sys2Proof.Machine
end

