-- ==== Sys2Proof/Proofs/Closing.lean ====
section
/-! The profile end: close for every window of the table, the grades that join the noise section, and the record's way to RUN_DONE
(R51, R55, R88, R96, R99, R11, R12). -/

namespace Sys2Proof.Machine

/-! ## The close of the table, window by window (R88, R96, R99) -/

/-- Every window of the table is CLOSED. -/
def allClosed (ws : List Window) : Bool := ws.all fun w => decide (w.state = .closed)

/-- A window enters CLOSED at its close. -/
def Window.gradedByClose (w : Window) : Bool := decide (w.state ≠ .closed ∧ w.afterClose.state = .closed)

/-- The noise section with the verdict over all its results (R99). -/
def Noise.concluded (n : Noise) : Noise := { n with verdict := some (worst (n.results.map OrderResult.grade)) }

/-- The noise section with the summary and results of window `w` (R96, R99). -/
def Noise.join (cfg : CellConfig) (n : Noise) (w : Window) : Noise :=
  { n with summaries := n.summaries ++ [w.summary], results := n.results ++ w.results cfg }

/-- The noise section after the close of window `w` (R88, R96). -/
def Noise.afterClose (cfg : CellConfig) (n : Noise) (w : Window) : Noise := if w.gradedByClose then n.join cfg w else n

/-- A unit record with another noise section. -/
def UnitRecord.withNoise (r : UnitRecord) (n : Noise) : UnitRecord := { r with noise := n }

@[simp] theorem UnitRecord.withNoise_parts (r : UnitRecord) (n : Noise) :
    (r.withNoise n).noise = n ∧ (r.withNoise n).state = r.state ∧ (r.withNoise n).runIn = r.runIn := ⟨rfl, rfl, rfl⟩

/-- The noise section after the closes of the windows `ws`, in their order. -/
theorem foldl_noiseAfterClose (cfg : CellConfig) (ws : List Window) (n : Noise) :
    ws.foldl (Noise.afterClose cfg) n = { n with
      summaries := n.summaries ++ (ws.filter Window.gradedByClose).map Window.summary
      results := n.results ++ (ws.filter Window.gradedByClose).flatMap fun w => w.results cfg } := by
  induction ws generalizing n with
  | nil => simp
  | cons w ws ih =>
    rw [List.foldl_cons, ih, Noise.afterClose]
    by_cases hw : w.gradedByClose = true <;> simp [hw, Noise.join]

theorem Window.afterClose_number (w : Window) : w.afterClose.number = w.number := by
  unfold Window.afterClose
  repeat' split
  all_goals rfl

/-- In a table without repeated numbers, the window of a number is the one that has it. -/
theorem find_number {pre post : List Window} {w : Window} (hn : ((pre ++ w :: post).map Window.number).Nodup) :
    (pre ++ w :: post).find? (fun v => decide (v.number = w.number)) = some w := by
  simp only [List.map_append, List.map_cons, List.nodup_append, List.mem_map, List.mem_cons] at hn
  obtain ⟨-, -, hne⟩ := hn
  rw [List.find?_append, List.find?_eq_none.2 (fun v hv => by simpa using hne _ ⟨v, hv, rfl⟩ _ (.inl rfl))]
  simp

/-- In a table without repeated numbers, a change of one window is a change of the one that has its number. -/
theorem map_number {pre post : List Window} {w : Window} (hn : ((pre ++ w :: post).map Window.number).Nodup)
    (f : Window → Window) :
    (pre ++ w :: post).map (fun v => if v.number = w.number then f v else v) = pre ++ f w :: post := by
  simp only [List.map_append, List.map_cons, List.nodup_append, List.nodup_cons, List.mem_map, List.mem_cons] at hn
  obtain ⟨-, ⟨hpost, -⟩, hne⟩ := hn
  have hpre : pre.map (fun v => if v.number = w.number then f v else v) = pre :=
    (List.map_congr_left fun v hv => if_neg (hne _ ⟨v, hv, rfl⟩ _ (.inl rfl))).trans (List.map_id _)
  have hpost : post.map (fun v => if v.number = w.number then f v else v) = post :=
    (List.map_congr_left fun v hv => if_neg fun h => hpost ⟨v, hv, h⟩).trans (List.map_id _)
  simp [hpre, hpost]

/-- The table `ws` with the noise section `noise` of record `r` as the Order Analyzer shows them: once all windows are CLOSED the verdict is
set and the table emptied (R99). -/
structure TableShown (i : Fin 8) (r : UnitRecord) (ws : List Window) (noise : Noise) (s t : State) : Prop where
  windows : t.oa.windows = if allClosed ws then [] else ws
  ut : t.ut = (s.setRecord i (r.withNoise (if allClosed ws then noise.concluded else noise))).ut
  rs : t.rs = s.rs

theorem TableShown.congr {i : Fin 8} {r : UnitRecord} {ws : List Window} {noise : Noise} {s t u : State}
    (h : TableShown i r ws noise s t) (ho : u.oa = t.oa) (hu : u.ut = t.ut) (hr : u.rs = t.rs) : TableShown i r ws noise s u :=
  ⟨by rw [ho, h.windows], by rw [hu, h.ut], by rw [hr, h.rs]⟩

theorem State.mapNoise_eq_setRecord {s : State} {i : Fin 8} {r : UnitRecord} (h1 : s.unit1 = some i)
    (hi : s.ut.records[i] = some r) (g : Noise → Noise) : s.mapNoise g = s.setRecord i (r.withNoise (g r.noise)) := by
  simp only [State.mapNoise, h1, State.mapUnit_eq_setRecord hi]
  rfl

section
variable {i : Fin 8} {r : UnitRecord} {s t : State} {noise : Noise}

/-- The running unit whose noise section has changed is still the station-1 unit. -/
theorem running_of_noise (hl : StationLaw s) (hu : IsUnitIn .running i r s) (ht : t.ut = (s.setRecord i (r.withNoise noise)).ut) :
    t.unit1 = some i ∧ t.ut.records[i] = some (r.withNoise noise) := by
  have hu' : IsUnitIn .running i (r.withNoise noise) t := (hu.setRecord (r.withNoise_parts _).2.1).congr ht
  exact ⟨hu'.unit1 ((hl.setRecord hu.1 (r.withNoise_parts _).2.1).congr ht), hu'.1⟩

theorem State.closeTable_shown {ws : List Window} (hl : StationLaw s) (hu : IsUnitIn .running i r s)
    (ht : t.ut = (s.setRecord i (r.withNoise noise)).ut) (hr : t.rs = s.rs) (hw : t.oa.windows = ws) :
    TableShown i r ws noise s t.closeTable := by
  subst hw
  obtain ⟨h1, hi⟩ := running_of_noise hl hu ht
  unfold State.closeTable
  rw [State.mapNoise_eq_setRecord h1 hi]
  by_cases hc : allClosed t.oa.windows = true
  · rw [if_pos (by exact hc)]
    refine ⟨by rw [hc]; rfl, ?_, by simpa using hr⟩
    rw [hc, State.setOa_ut, State.setRecord_ut_congr ht, State.setRecord_setRecord]
    rfl
  · rw [if_neg (by exact hc)]
    exact ⟨by simp [hc], by simpa [hc] using ht, hr⟩

theorem State.gradeWindow_shown {pre post : List Window} {w : Window} (hl : StationLaw s) (hu : IsUnitIn .running i r s)
    (ht : t.ut = (s.setRecord i (r.withNoise noise)).ut) (hr : t.rs = s.rs) (hw : t.oa.windows = pre ++ w :: post)
    (hn : ((pre ++ w :: post).map Window.number).Nodup) :
    TableShown i r (pre ++ { w with state := .closed } :: post) (noise.join s.rs.live w) s (t.gradeWindow w.number) := by
  have hfind : t.oa.window w.number = some w := by rw [OrderAnalyzer.window, hw, find_number hn]
  obtain ⟨m, hm⟩ : ∃ m, m = t.mapWindow w.number fun v => { v with state := .closed } := ⟨_, rfl⟩
  have hmut : m.ut = (s.setRecord i (r.withNoise noise)).ut := by simp [hm, ht]
  have hmw : m.oa.windows = pre ++ { w with state := .closed } :: post := by
    rw [hm]
    simp only [State.mapWindow, OrderAnalyzer.mapWindow, State.setOa_oa, hw, map_number hn]
  obtain ⟨h1, hi⟩ := running_of_noise hl hu hmut
  have hgrade : t.gradeWindow w.number = (m.setRecord i (r.withNoise (noise.join s.rs.live w))).closeTable := by
    unfold State.gradeWindow
    rw [hfind]
    dsimp only
    rw [← hm, State.mapNoise_eq_setRecord h1 hi, hr]
    rfl
  rw [hgrade]
  refine State.closeTable_shown hl hu ?_ ?_ hmw
  · rw [State.setRecord_ut_congr hmut, State.setRecord_setRecord]
  · simpa [hm] using hr

/-- The close of one window of the table (R88, R96, R99). -/
theorem State.closeWindow_shown {pre post : List Window} {w : Window} (hl : StationLaw s) (hu : IsUnitIn .running i r s)
    (h : TableShown i r (pre ++ w :: post) noise s t) (hn : ((pre ++ w :: post).map Window.number).Nodup) :
    TableShown i r (pre ++ w.afterClose :: post) (noise.afterClose s.rs.live w) s (t.closeWindow w.number) := by
  cases hc : allClosed (pre ++ w :: post) with
  | true =>
    have hclosed : w.state = .closed := by simp [allClosed] at hc; exact hc.2.1
    have hsame : w.afterClose = w := by simp [Window.afterClose, hclosed]
    have hnone : t.oa.window w.number = none := by rw [OrderAnalyzer.window, h.windows, hc]; rfl
    rw [State.closeWindow_absent hnone, hsame, Noise.afterClose, if_neg (by simp [Window.gradedByClose, hclosed])]
    exact h
  | false =>
    have hw : t.oa.windows = pre ++ w :: post := by simp [h.windows, hc]
    have hut : t.ut = (s.setRecord i (r.withNoise noise)).ut := by simp [h.ut, hc]
    have hfind : t.oa.window w.number = some w := by rw [OrderAnalyzer.window, hw, find_number hn]
    rcases State.closeWindow_found hfind with ⟨ha, hs, ht⟩ | ⟨ha, hs, ht⟩ | ⟨ha, hs, ht⟩
    · rw [ht, ha, Noise.afterClose, if_pos (by simp [Window.gradedByClose, ha, hs])]
      have hgrade := State.gradeWindow_shown (t := t.abandonFor w.number) (noise := noise) hl hu (by simpa using hut)
        (by simpa using h.rs) (by simpa using hw) hn
      exact hgrade.congr (by simp) (by simp) (by simp)
    · have hopen : allClosed (pre ++ w.afterClose :: post) = false := by simp [allClosed, ha]
      rw [ht, Noise.afterClose, if_neg (by simp [Window.gradedByClose, ha])]
      refine ⟨?_, by simpa [hopen] using hut, by simpa using h.rs⟩
      rw [hopen, ha]
      simp only [State.syncStreams_frame, State.mapWindow, OrderAnalyzer.mapWindow, State.setOa_oa, State.abandonFor_frame, hw]
      exact map_number hn _
    · rw [ht, ha, Noise.afterClose, if_neg (by rcases hs with hs | hs <;> simp [Window.gradedByClose, ha, hs])]
      exact h

/-- The closes of the windows `todo`, where those of `pre` have come before (R62, R88). -/
theorem foldl_closeWindow_shown {pre todo : List Window} (hl : StationLaw s) (hu : IsUnitIn .running i r s)
    (h : TableShown i r (pre ++ todo) noise s t) (hn : ((pre ++ todo).map Window.number).Nodup) :
    TableShown i r (pre ++ todo.map Window.afterClose) (todo.foldl (Noise.afterClose s.rs.live) noise) s
      ((todo.map Window.number).foldl (fun t n => t.closeWindow n) t) := by
  induction todo generalizing pre noise t with
  | nil => exact h
  | cons w todo ih =>
    have hstep := State.closeWindow_shown hl hu h hn
    rw [List.append_cons] at hstep
    have hn' : ((pre ++ [w.afterClose] ++ todo).map Window.number).Nodup := by
      simpa [Window.afterClose_number] using hn
    simpa using ih hstep hn'

/-- Close has been sent for every window of the table (R51, R62, R88, R99). -/
theorem State.closeWindows_shown (hl : StationLaw s) (hu : IsUnitIn .running i r s)
    (hn : (s.oa.windows.map Window.number).Nodup) (hw : s.oa.windows = [] ∨ ∃ w ∈ s.oa.windows, w.state ≠ .closed) :
    TableShown i r (s.oa.windows.map Window.afterClose) (s.oa.windows.foldl (Noise.afterClose s.rs.live) r.noise) s
      s.closeWindows := by
  have hself : s.ut = (s.setRecord i (r.withNoise r.noise)).ut := by
    rw [show r.withNoise r.noise = r from rfl, State.setRecord_self hu.1]
  unfold State.closeWindows
  by_cases he : s.oa.windows = []
  · rw [if_pos he, he]
    exact State.closeTable_shown hl hu hself rfl he
  · rw [if_neg he]
    obtain ⟨w, hmem, hstate⟩ := hw.resolve_left he
    have hopen : allClosed s.oa.windows = false := by
      simp only [allClosed, List.all_eq_false]
      exact ⟨w, hmem, by simpa using hstate⟩
    refine foldl_closeWindow_shown (pre := []) hl hu ⟨?_, ?_, rfl⟩ hn
    · rw [List.nil_append, hopen]; rfl
    · rw [List.nil_append, hopen]; exact hself

end

/-! ## The open record of a window that closes (R68) -/

theorem State.abandonFor_openVib {n : Nat} {s : State} {d : Fin 32} (hd : s.afe.openVib = some d) :
    (s.abandonFor n).afe.openVib = (if (s.cs.vibDescs[d]).window = n then none else some d) ∧
      ((s.cs.vibDescs[d]).window ≠ n → s.abandonFor n = s) := by
  unfold State.abandonFor State.abandonOpen
  rw [hd]
  dsimp only
  split
  · next h => exact ⟨by simp, fun hn => absurd h hn⟩
  · exact ⟨hd, fun _ => rfl⟩

theorem State.closeWindow_openVib_none {n : Nat} {s : State} (h : s.afe.openVib = none) : (s.closeWindow n).afe.openVib = none := by
  have ha : s.abandonFor n = s := by simp only [State.abandonFor, h]
  cases hw : s.oa.window n with
  | none => rw [State.closeWindow_absent hw]; exact h
  | some w =>
    rcases State.closeWindow_found hw with ⟨-, -, hc⟩ | ⟨-, -, hc⟩ | ⟨-, -, hc⟩ <;> rw [hc] <;> simp [ha, h]

/-- The close of a window takes the open record of that window and leaves that of another (R68, R88). -/
theorem State.closeWindow_openVib {n : Nat} {s : State} {d : Fin 32} (hd : s.afe.openVib = some d) :
    (∀ w, s.oa.window n = some w → w.state ≠ .closing → w.state ≠ .closed → (s.cs.vibDescs[d]).window = n →
      (s.closeWindow n).afe.openVib = none) ∧
    ((s.cs.vibDescs[d]).window ≠ n → (s.closeWindow n).afe.openVib = some d ∧ (s.closeWindow n).cs.vibDescs = s.cs.vibDescs) := by
  obtain ⟨hopen, hother⟩ := State.abandonFor_openVib (n := n) hd
  refine ⟨fun w hw h1 h2 hn => ?_, fun hn => ?_⟩
  · rw [if_pos hn] at hopen
    rcases State.closeWindow_found hw with ⟨-, -, hc⟩ | ⟨-, -, hc⟩ | ⟨-, hs, -⟩
    · rw [hc]; simpa using hopen
    · rw [hc]; simpa using hopen
    · rcases hs with hs | hs <;> contradiction
  · cases hw : s.oa.window n with
    | none => rw [State.closeWindow_absent hw]; exact ⟨hd, rfl⟩
    | some w =>
      rcases State.closeWindow_found hw with ⟨-, -, hc⟩ | ⟨-, -, hc⟩ | ⟨-, -, hc⟩ <;> rw [hc] <;> simp [hother hn, hd]

theorem foldl_closeWindow_openVib_none {ns : List Nat} {s : State} (h : s.afe.openVib = none) :
    (ns.foldl (fun t n => t.closeWindow n) s).afe.openVib = none := by
  induction ns generalizing s with
  | nil => exact h
  | cons n ns ih => exact ih (State.closeWindow_openVib_none h)

/-- The closes of the windows `todo` take the open record of one of them (R68, R88). -/
theorem foldl_closeWindow_openVib {i : Fin 8} {r : UnitRecord} {noise : Noise} {s t : State} {pre todo : List Window} {d : Fin 32}
    (hl : StationLaw s) (hu : IsUnitIn .running i r s) (h : TableShown i r (pre ++ todo) noise s t)
    (hn : ((pre ++ todo).map Window.number).Nodup) (hd : t.afe.openVib = some d)
    (hw : ∃ w ∈ todo, w.number = (t.cs.vibDescs[d]).window ∧ w.state ≠ .closing ∧ w.state ≠ .closed) :
    ((todo.map Window.number).foldl (fun t n => t.closeWindow n) t).afe.openVib = none := by
  induction todo generalizing pre noise t with
  | nil => obtain ⟨w, hw, -⟩ := hw; cases hw
  | cons v todo ih =>
    obtain ⟨w, hmem, hnum, hclosing, hclosed⟩ := hw
    obtain ⟨htake, hleave⟩ := State.closeWindow_openVib (n := v.number) hd
    by_cases hv : (t.cs.vibDescs[d]).window = v.number
    · have hvw : w = v := by
        refine List.inj_on_of_nodup_map hn ?_ ?_ (hnum.trans hv)
        · exact List.mem_append_right _ hmem
        · exact List.mem_append_right _ (List.mem_cons_self ..)
      subst hvw
      have hopen : allClosed (pre ++ w :: todo) = false := by simp [allClosed, hclosed]
      have hfind : t.oa.window w.number = some w := by
        rw [OrderAnalyzer.window, h.windows, hopen]
        exact find_number hn
      rw [List.map_cons, List.foldl_cons]
      exact foldl_closeWindow_openVib_none (htake w hfind hclosing hclosed hv)
    · obtain ⟨hd', hdescs⟩ := hleave hv
      have hstep := State.closeWindow_shown hl hu h hn
      rw [List.append_cons] at hstep
      refine ih hstep (by simpa [Window.afterClose_number] using hn) hd' ⟨w, ?_, by rw [hdescs, hnum], hclosing, hclosed⟩
      refine (List.mem_cons.1 hmem).resolve_left fun he => hv ?_
      rw [← hnum, he]

theorem State.closeWindows_openVib {i : Fin 8} {r : UnitRecord} {s : State} {d : Fin 32} (hl : StationLaw s)
    (hu : IsUnitIn .running i r s) (hn : (s.oa.windows.map Window.number).Nodup) (hd : s.afe.openVib = some d)
    (hw : ∃ w ∈ s.oa.windows, w.number = (s.cs.vibDescs[d]).window ∧ w.state ≠ .closing ∧ w.state ≠ .closed) :
    s.closeWindows.afe.openVib = none := by
  obtain ⟨w, hmem, hnum, hclosing, hclosed⟩ := hw
  have hopen : allClosed s.oa.windows = false := by
    simp only [allClosed, List.all_eq_false]
    exact ⟨w, hmem, by simpa using hclosed⟩
  have hshown : TableShown i r ([] ++ s.oa.windows) r.noise s s := by
    refine ⟨?_, ?_, rfl⟩ <;> rw [List.nil_append, hopen]
    · rfl
    · exact congrArg State.ut (State.setRecord_self hu.1).symm
  rw [State.closeWindows, if_neg (List.ne_nil_of_mem hmem)]
  exact foldl_closeWindow_openVib hl hu hshown hn hd ⟨w, hmem, hnum, hclosing, hclosed⟩

/-! ## The way to RUN_DONE (R11, R12) -/

/-- What `f` reads of a record that is moved, where it does not see the move. -/
theorem IsUnitIn.enterState {u v : UnitState} {i : Fin 8} {r : UnitRecord} {s : State} (hu : IsUnitIn u i r s) :
    (s.enterState i v).ut = (s.setRecord i { r with state := v }).ut ∧
      ∀ p : UnitState → Bool, p v = p u → (s.enterState i v).ut.find p = s.ut.find p := by
  have hut : (s.enterState i v).ut = (s.setRecord i { r with state := v }).ut := by
    rw [State.enterState_ut, State.mapUnit_eq_setRecord hu.1]
  refine ⟨hut, fun p hp => ?_⟩
  refine RecordsKeep.find fun j => ?_
  rw [hut, State.setRecord_records]
  split
  · next h => subst h; simp [hu.1, hu.2.1, hp]
  · rfl

/-- A unit in RUN_DONE starts its transfer where station 2 is free and TRANSFER not halted (R12). -/
theorem State.checkTransfer_runDone {i : Fin 8} {r : UnitRecord} {s : State} (hu : IsUnitIn .runDone i r s) :
    s.checkTransfer.ut.records[i] =
      some { r with state := if s.unit2.isNone ∧ s.halt.transfer = false then .inTransfer else .runDone } := by
  have hrec : (s.runConveyor.enterState i .inTransfer).ut.records[i] = some { r with state := .inTransfer } := by
    rw [(IsUnitIn.enterState (s := s.runConveyor) hu).1, State.setRecord_self_records]
  unfold State.checkTransfer
  rw [hu.find]
  dsimp only
  by_cases hstart : s.unit2.isNone ∧ s.halt.transfer = false
  · rw [if_pos (by simpa using hstart), if_pos hstart]
    split
    · simpa using hrec
    · exact hrec
  · rw [if_neg (by simpa using hstart), if_neg hstart, hu.1]
    obtain ⟨-, hstate, -⟩ := hu
    rw [← hstate]

/-- With a window left the running record stays (R11). -/
theorem State.checkRunDone_windows {s : State} (hw : s.oa.windows ≠ []) : s.checkRunDone = s := by
  unfold State.checkRunDone
  split
  · rfl
  · split
    · rfl
    · exact if_neg fun h => hw h.2

/-- With its profile ended and every window CLOSED the running record is RUN_DONE, or IN_TRANSFER at once (R11, R12). -/
theorem State.checkRunDone_done {i : Fin 8} {r : UnitRecord} {s : State} (hl : StationLaw s) (hu : IsUnitIn .running i r s)
    (he : r.runIn.ended = true) (hw : s.oa.windows = []) :
    s.checkRunDone.ut.records[i] =
      some { r with state := if s.unit2.isNone ∧ s.halt.transfer = false then .inTransfer else .runDone } := by
  obtain ⟨v, hv⟩ : ∃ v, v = (s.enterState i .runDone).syncStreams.disarmSilence := ⟨_, rfl⟩
  obtain ⟨hut, hfind⟩ := hu.enterState (v := .runDone)
  have hvut : v.ut = (s.enterState i .runDone).ut := by rw [hv]; simp
  have hdone : IsUnitIn .runDone i { r with state := .runDone } v := by
    have hrec : ∀ j : Fin 8, v.ut.records[j] = if j = i then some { r with state := .runDone } else s.ut.records[j] := fun j => by
      rw [hvut, hut, State.setRecord_records]
    refine ⟨by rw [hrec, if_pos rfl], rfl, fun j hj r' hr' hstate => hj ?_⟩
    rw [hrec, if_neg hj] at hr'
    exact (hl j i r' r hr' hu.1).1 (by rw [hstate]; rfl) (by rw [hu.2.1]; rfl)
  have h2 : v.unit2 = s.unit2 := (State.unit2_congr hvut).trans (hfind _ rfl)
  have hhalt : v.halt = s.halt := State.halt_congr (by rw [hv]; simp)
  have hcheck : s.checkRunDone = v.checkTransfer := by
    unfold State.checkRunDone
    rw [show s.ut.find (fun u => decide (u = .running)) = some i from hu.find]
    dsimp only
    rw [hu.1]
    dsimp only
    rw [if_pos ⟨he, hw⟩, hv]
  rw [hcheck, State.checkTransfer_runDone hdone, h2, hhalt]

/-! ## The profile end (R51, R55) -/

/-- The engine with its drive off and braked, without a step, as the profile end leaves it (R51). -/
def State.driveOff (s : State) : State :=
  (s.setEnable false).setPe { (s.setEnable false).pe with
    brake := true, stepTimer := none, settleTimer := none, settled := false, openSent := false, step := none }

theorem State.profileEnd_eq (cause : StopCause) (s : State) :
    s.profileEnd cause = (let t := (s.driveOff.mapRunIn (RunIn.complete cause)).closeWindows
      (t.setPe { t.pe with phase := .idle, cause := none }).checkRunDone) := rfl

theorem State.setEnable_enable (b : Bool) (s : State) : (s.setEnable b).pe.enable = b := by
  unfold State.setEnable
  split
  · next h => exact h
  · simp

theorem RunIn.complete_ended (cause : StopCause) (r : RunIn) : (r.complete cause).ended = true := by
  cases cause <;> rfl

/-- The section completed at the profile end is that of R55, with the drag result and the failed step as they were. -/
theorem RunIn.complete_runInEnded (cause : StopCause) (r : RunIn) :
    RunInEnded cause (r.complete cause) ∧ (r.complete cause).failStep = r.failStep ∧
      (r.complete cause).dragResult = r.dragResult ∧ (r.complete cause).dragMean = r.dragMean := by
  refine ⟨⟨by cases cause <;> rfl, ?_⟩, rfl, rfl, rfl⟩
  cases hf : r.failStep <;> simp [RunIn.complete, hf]

/-- The table at the profile end (R88, R96, R99, R11, R12), where `a` is the state in which close is sent. -/
theorem State.tableClosed_of_closeWindows {i : Fin 8} {r r' : UnitRecord} {a t : State} (hl : StationLaw a)
    (hu : IsUnitIn .running i r a) (he : r.runIn.ended = true)
    (ht : t = (a.closeWindows.setPe { a.closeWindows.pe with phase := .idle, cause := none }).checkRunDone)
    (hr' : t.ut.records[i] = some r') : TableClosed a.oa.windows r r' a t := by
  obtain ⟨d, hd⟩ : ∃ d, d = a.closeWindows.setPe { a.closeWindows.pe with phase := .idle, cause := none } := ⟨_, rfl⟩
  rw [← hd] at ht
  intro hn hw
  have hshown := (State.closeWindows_shown hl hu hn hw).congr (u := d) (by simp [hd]) (by simp [hd]) (by simp [hd])
  rw [foldl_noiseAfterClose] at hshown
  obtain ⟨hwindows, hut, -⟩ := hshown
  have hvib : ∀ d : Fin 32, a.afe.openVib = some d →
      (∃ w ∈ a.oa.windows, w.number = (a.cs.vibDescs[d]).window ∧ w.state ≠ .closing ∧ w.state ≠ .closed) →
      t.afe.openVib = none := by
    intro x hx hw
    rw [ht, hd]
    simpa using State.closeWindows_openVib hl hu hn hx hw
  by_cases hc : ∀ w ∈ a.oa.windows.map Window.afterClose, w.state = .closed
  · have hclosed : allClosed (a.oa.windows.map Window.afterClose) = true := by
      simpa only [allClosed, List.all_eq_true, decide_eq_true_eq] using hc
    rw [hclosed, if_pos rfl] at hwindows hut
    have hdone := State.checkRunDone_done ((hl.setRecord hu.1 (r.withNoise_parts _).2.1).congr hut)
      ((hu.setRecord (r.withNoise_parts _).2.1).congr hut) he hwindows
    rw [← ht, hr', Option.some.injEq] at hdone
    have hhalt : t.halt = d.halt := State.halt_congr (by simp [ht])
    have h2 : d.unit2 = a.unit2 := (State.unit2_congr hut).trans (State.unit2_setRecord hu.1 (r.withNoise_parts _).2.1)
    subst hdone
    refine ⟨rfl, rfl, fun ⟨w, hw, hs⟩ => absurd (hc w hw) hs, fun _ => ⟨?_, rfl, ?_⟩, hvib⟩
    · simp [ht, hwindows]
    · simp [hhalt, h2, and_comm]
  · have hopen : allClosed (a.oa.windows.map Window.afterClose) = false := by
      simpa only [allClosed, ← Bool.not_eq_true, List.all_eq_true, decide_eq_true_eq] using hc
    rw [hopen, if_neg (by decide)] at hwindows hut
    have hsame : t = d := by
      refine ht.trans (State.checkRunDone_windows fun hnil => hc ?_)
      rw [← hwindows, hnil]
      simp
    rw [hsame, hut, State.setRecord_self_records, Option.some.injEq] at hr'
    subst hr'
    exact ⟨rfl, rfl, fun _ => ⟨hsame ▸ hwindows, hu.2.1, rfl⟩, fun h => absurd h hc, hvib⟩

/-- What is said of the table reads of the state before only the stations, the settings and the open record. -/
theorem TableClosed.of_same {ws : List Window} {r r₁ r' : UnitRecord} {s a t : State} (h : TableClosed ws r₁ r' a t)
    (hn : r₁.noise = r.noise) (hr : a.rs = s.rs) (h2 : a.unit2 = s.unit2) (hv : a.afe.openVib = s.afe.openVib)
    (hd : a.cs.vibDescs = s.cs.vibDescs) : TableClosed ws r r' s t := by
  unfold TableClosed at *
  simpa only [hn, hr, h2, hv, hd] using h

/-- The profile end leaves the engine at rest, the run-in section completed, and every window of the table sent close (R51, R55, R88). -/
theorem State.profileEnd_ends {i : Fin 8} {r : UnitRecord} {s : State} (hl : StationLaw s) (hu : IsUnitIn .running i r s)
    (cause : StopCause) : EngineAtRest (s.profileEnd cause) ∧ ∃ r', (s.profileEnd cause).ut.records[i] = some r' ∧
      r'.runIn = r.runIn.complete cause ∧ TableClosed s.oa.windows r r' s (s.profileEnd cause) := by
  obtain ⟨a, ha⟩ : ∃ a, a = s.driveOff.mapRunIn (RunIn.complete cause) := ⟨_, rfl⟩
  obtain ⟨d, hd⟩ : ∃ d, d = a.closeWindows.setPe { a.closeWindows.pe with phase := .idle, cause := none } := ⟨_, rfl⟩
  have hend : s.profileEnd cause = d.checkRunDone := by rw [State.profileEnd_eq, hd, ha]
  have hoff : s.driveOff.ut = s.ut := by simp [State.driveOff]
  have haut : a.ut = (s.setRecord i (r.withRunIn (r.runIn.complete cause))).ut := by
    rw [ha, State.mapRunIn_eq_setRecord (hu.congr hoff), State.setRecord_ut_congr hoff]
  have hla : StationLaw a := (hl.setRecord hu.1 (r.withRunIn_parts _).2.1).congr haut
  have hua : IsUnitIn .running i (r.withRunIn (r.runIn.complete cause)) a := (hu.setRecord (r.withRunIn_parts _).2.1).congr haut
  have hrest : EngineAtRest (s.profileEnd cause) := by
    simp [EngineAtRest, hend, hd, ha, State.driveOff, State.setEnable_enable]
  obtain ⟨r', hr', hrun⟩ : ∃ r', (s.profileEnd cause).ut.records[i] = some r' ∧ r'.runIn = r.runIn.complete cause := by
    have hkept : RecordsKeep UnitRecord.runIn a (s.profileEnd cause) := by
      rw [hend, hd]
      exact ((RecordsKeep.closeWindows runIn_ignoresNoise a).then_same rfl).trans (RecordsKeep.checkRunDone runIn_ignoresMove _)
    exact hkept.some_of_some hua.1
  have hclosed := State.tableClosed_of_closeWindows hla hua (RunIn.complete_ended cause r.runIn) (hend.trans (congrArg _ hd)) hr'
  have hoa : a.oa = s.oa := by simp [ha, State.driveOff]
  rw [hoa] at hclosed
  refine ⟨hrest, r', hr', hrun, hclosed.of_same rfl ?_ ?_ ?_ ?_⟩
  · simp [ha, State.driveOff]
  · exact (State.unit2_congr haut).trans (State.unit2_setRecord hu.1 (r.withRunIn_parts _).2.1)
  · simp [ha, State.driveOff]
  · simp [ha, State.driveOff]

end Sys2Proof.Machine
end

