-- ==== Sys2Proof/Proofs/ProfileRun.lean ====
section
/-! The events of the Profile Engine: its settle timer, its step timer, the setpoint updates and the feedback of the drive (spec/03). -/

namespace Sys2Proof.Machine

theorem exec_windowSettleExpiry_eq (s : State) : exec .windowSettleExpiry s = .next (arbitrate s.settleExpiry) := rfl

theorem exec_stepTimerExpiry_eq (s : State) : exec .stepTimerExpiry s = .next (arbitrate s.stepExpiry) := rfl

theorem exec_setpointUpdate_eq (s : State) : exec .setpointUpdate s = .next (arbitrate s.setpointDue) := rfl

theorem exec_driveFeedback_eq (speed : Int) (ready fault : Bool) (s : State) :
    exec (.driveFeedback speed ready fault) s = .next (arbitrate (s.feedbackArrives ⟨speed, ready, fault⟩)) := rfl

/-! ## What an event leaves alone, composed of what its operations leave alone -/

theorem OnlyChanges.trans {bs cs : List Part} {s t u : State} (h : OnlyChanges bs s t) (h' : OnlyChanges cs t u) :
    OnlyChanges (bs ++ cs) s u := by
  obtain ⟨hp, hs⟩ := h
  obtain ⟨hp', hs'⟩ := h'
  refine ⟨hp'.trans hp, fun b hb => ?_⟩
  simp only [List.mem_append, not_or] at hb
  have h1 := hs b hb.1
  have h2 := hs' b hb.2
  cases b <;> exact Eq.trans h2 h1

theorem OnlyChanges.mono {bs cs : List Part} {s t : State} (h : OnlyChanges bs s t) (hsub : ∀ b ∈ bs, b ∈ cs) :
    OnlyChanges cs s t := ⟨h.1, fun b hb => h.2 b fun hc => hb (hsub b hc)⟩

theorem onlyChanges_elapse (us : Nat) (s : State) : OnlyChanges [.clock, .lp, .ut, .pe, .afe, .lkc] s (s.elapse us) :=
  ⟨rfl, fun b hb => by cases b <;> simp [Part.same] at hb ⊢⟩

theorem onlyChanges_arbitrate (s : State) : OnlyChanges [.lp] s (arbitrate s) :=
  ⟨by simp, fun b hb => by cases b <;> simp [Part.same] at hb ⊢⟩

theorem onlyChanges_setPe (p : ProfileEngine) (s : State) : OnlyChanges [.pe] s (s.setPe p) :=
  ⟨rfl, fun b hb => by cases b <;> simp [Part.same] at hb ⊢⟩

theorem onlyChanges_tryOpen (s : State) : OnlyChanges [.pe, .cs, .oa, .cu] s s.tryOpen :=
  ⟨by simp, fun b hb => by cases b <;> simp [Part.same] at hb ⊢⟩

/-- What an operation of the Profile Engine leaves alone, by its frame in Laws/Frames.lean. -/
theorem onlyChanges_engine {s t : State} (h : t.pending = s.pending ∧ t.clockUs = s.clockUs ∧ t.freeCount = s.freeCount ∧
    t.lines = s.lines ∧ t.rs = s.rs ∧ t.lkc = s.lkc ∧ t.reports = s.reports) :
    OnlyChanges [.lp, .ut, .pe, .afe, .cs, .oa, .cu] s t := by
  obtain ⟨hpending, hclock, hfree, hlines, hrs, hlkc, hreports⟩ := h
  exact ⟨hpending, fun b hb => by cases b <;> simp_all [Part.same]⟩

/-! ## WINDOW_SETTLE_EXPIRY (R61) -/

theorem State.stream_enterStream (st st' : StreamId) (x : StreamState) (s : State) :
    (s.enterStream st x).stream st' = if st' = st then { s.stream st with state := x } else s.stream st' := by
  have placed : ∀ y : Stream, (s.setStream st y).stream st' = if st' = st then y else s.stream st' := by
    cases st <;> cases st' <;> exact fun _ => rfl
  unfold State.enterStream
  dsimp only
  split
  · simpa [State.stream] using placed _
  · split
    · simpa [State.stream] using placed _
    · exact placed _

theorem State.stream_syncStream_ne {st st' : StreamId} (h : st' ≠ st) (s : State) : (s.syncStream st).stream st' = s.stream st' := by
  unfold State.syncStream
  split <;> simp [State.stream_enterStream, h]

/-- Capture becomes wanted for an IDLE VIB stream, and it runs (R74). -/
theorem State.syncStreams_vib_runs {s : State} (hw : s.wanted .vib = true) (hi : (s.stream .vib).state = .idle) :
    (s.syncStreams.stream .vib).state = .running := by
  have hrun : s.syncStream .vib = s.enterStream .vib .running := by simp only [State.syncStream, hi, hw]
  simp [State.syncStreams, State.stream_syncStream_ne, hrun, State.stream_enterStream]

/-- An open that opens a window has VIB capture run (R74, R86). -/
theorem State.openWindow_vib_runs {s : State} {n : Nat} (hn : s.halt.noise = false)
    (hw : ∃ w ∈ s.oa.windows, w.number = n ∧ (w.state = .idle ∨ w.state = .paused)) (hi : (s.stream .vib).state = .idle) :
    ((s.openWindow n).stream .vib).state = .running := by
  obtain ⟨w, hmem, hnum, hstate⟩ := hw
  refine State.syncStreams_vib_runs ?_ hi
  have hfound : ((s.mapWindow n fun w => if w.state = .idle ∨ w.state = .paused then { w with state := .opened, opened := true }
      else w).oa.openWindow).isSome = true := by
    simp only [OrderAnalyzer.openWindow, State.mapWindow, OrderAnalyzer.mapWindow, State.setOa_oa, List.find?_isSome, List.mem_map]
    exact ⟨_, ⟨w, hmem, rfl⟩, by simp [hnum, hstate]⟩
  have hhalt : (s.mapWindow n fun w => if w.state = .idle ∨ w.state = .paused then { w with state := .opened, opened := true }
      else w).halt.noise = false := hn
  simp only [State.wanted, hfound, hhalt]
  rfl

/-- Settles O30: the settle timer's expiry is the open of the step's window, and the streams follow. -/
theorem windowSettleExpiryOpensTheWindow : Obligations.WindowSettleExpiryOpensTheWindow := by
  intro s
  refine ⟨fun h => by simp only [exec_windowSettleExpiry_eq, State.settleExpiry, h], ?_⟩
  intro k left x i r hst ht u
  have hx : u.settledNow.currentStep = some x := hst.currentStep
  obtain ⟨-, -, hp, -⟩ := hst
  have hev : s.settleExpiry = u.settledNow.tryOpen := by simp only [State.settleExpiry, ht, State.settle_eq]; rfl
  have hopen : OnlyChanges [.lp, .pe, .cs, .oa, .cu] u (arbitrate u.settledNow.tryOpen) :=
    (((onlyChanges_setPe _ u).trans (onlyChanges_tryOpen _)).trans (onlyChanges_arbitrate _)).mono (by decide)
  rw [exec_windowSettleExpiry_eq, hev]
  refine ⟨_, rfl, ((onlyChanges_elapse _ s).trans hopen).mono (by decide), hopen, ?_, fun hn => ?_, fun hn hw ho => ?_⟩
  · simp [HoldingKept, State.settledNow, u, State.elapseMs]
  · rw [State.tryOpen_waits (s := u.settledNow) hn]
    simp [State.settledNow, u, State.elapseMs]
  · rw [State.tryOpen_opens hx hp hw rfl ho hn]
    refine ⟨by simp [State.settledNow], ?_, by simp [State.settledNow, u, State.elapseMs],
      by simp [State.settledNow, u, State.elapseMs], fun hw hi => ?_⟩
    · simp only [arbitrate_frame, State.openWindow_windows]
      rfl
    · have hrun := State.openWindow_vib_runs (s := u.settledNow.setPe { u.settledNow.pe with openSent := true }) hn hw hi
      simpa [State.stream] using hrun

end Sys2Proof.Machine
end

