-- ==== Sys2Proof/Proofs/StepTimer.lean ====
section
/-! STEP_TIMER_EXPIRY: the failed RAMP, the normal end of a step with the step that follows, and the end past the last step (R47, R48,
R49, R51). -/

namespace Sys2Proof.Machine

/-! ## What the statements read of the state after an event -/

theorem DragEvaluated.congr {recipe : Recipe} {x : Step} {pe : ProfileEngine} {r a b : RunIn} (h : DragEvaluated recipe x pe r a)
    (hr : b.dragResult = a.dragResult) (hm : b.dragMean = a.dragMean) : DragEvaluated recipe x pe r b := by
  unfold DragEvaluated at *
  simpa only [hr, hm] using h

theorem TableClosed.congr {ws : List Window} {r r' : UnitRecord} {s t u : State} (h : TableClosed ws r r' s t) (ho : u.oa = t.oa)
    (hc : u.cu.stack = t.cu.stack) (ha : u.afe = t.afe) : TableClosed ws r r' s u := by
  unfold TableClosed at *
  simpa only [ho, State.halt_congr hc, ha] using h

theorem EngineAtRest.congr {t u : State} (h : EngineAtRest t) (hp : u.pe = t.pe) : EngineAtRest u := by
  unfold EngineAtRest at *
  rwa [hp]

theorem ProfileRunsOut.congr {x : Step} {i : Fin 8} {r : UnitRecord} {s t u : State} (h : ProfileRunsOut x i r s t)
    (hp : u.pe = t.pe) (hu : u.ut = t.ut) (ho : u.oa = t.oa) (hc : u.cu.stack = t.cu.stack) (ha : u.afe = t.afe) :
    ProfileRunsOut x i r s u := by
  obtain ⟨r', hr', hdrag, hfail, hset, hmoving, hstanding⟩ := h
  refine ⟨r', by rw [hu, hr'], hdrag, hfail, by rw [hp, hset], fun h => ?_, fun h => ?_⟩
  · rw [hp, ho]
    exact hmoving h
  · obtain ⟨hrest, hended, hclosed⟩ := hstanding h
    exact ⟨hrest.congr hp, hended, hclosed.congr ho hc ha⟩

theorem StepLoaded.congr {R : Recipe} {y : Step} {noise : Bool} {ws : List Window} {t u : State} (h : StepLoaded R y noise ws t)
    (hp : u.pe = t.pe) (ho : u.oa = t.oa) (hk : u.clockUs = t.clockUs) : StepLoaded R y noise ws u := by
  unfold StepLoaded SettleLoaded at *
  simpa only [hp, ho, State.now_congr hk] using h

theorem StepEntered.congr {k : Nat} {x y : Step} {i : Fin 8} {r : UnitRecord} {s t u : State} (h : StepEntered k x y i r s t)
    (hp : u.pe = t.pe) (hu : u.ut = t.ut) (ho : u.oa = t.oa) (hk : u.clockUs = t.clockUs) : StepEntered k x y i r s u := by
  obtain ⟨hload, hrest⟩ := h
  exact ⟨hload.congr hp ho hk, by rwa [hp, hu]⟩

/-! ## The end of a profile -/

/-- A profile that begins to stop at setpoint 0 ends at once (R51, log 19). -/
theorem State.beginStop_ends {i : Fin 8} {r : UnitRecord} {s : State} (hl : StationLaw s) (hu : IsUnitIn .running i r s)
    (h0 : s.pe.setpoint = 0) (cause : StopCause) :
    EngineAtRest (s.beginStop cause) ∧ ∃ r', (s.beginStop cause).ut.records[i] = some r' ∧
      r'.runIn = r.runIn.complete cause ∧ TableClosed s.oa.windows r r' s (s.beginStop cause) := by
  rw [State.beginStop_standing h0]
  obtain ⟨hrest, r', hr', hrun, hclosed⟩ := State.profileEnd_ends (s := s.stoppingFor cause) hl hu cause
  exact ⟨hrest, r', hr', hrun, hclosed.of_same rfl rfl rfl rfl rfl⟩

/-- The normal end of the last step finishes the profile (R47, R51). -/
theorem IsStepping.endCurrent_runsOut {k : Nat} {x : Step} {i : Fin 8} {r : UnitRecord} {s : State} (h : IsStepping k x i r s)
    (hlast : (s.recipeOf r).steps.length < (nextStep k x (s.pe.counters.getD (k - 1) 0)).1) :
    ProfileRunsOut x i r s s.endCurrent := by
  obtain ⟨hend, -⟩ := h.stepEnded
  rw [h.endCurrent]
  obtain ⟨hl, hu, -⟩ := h
  obtain ⟨hl', hu', hR⟩ := hend.unit hl hu
  generalize (nextStep k x (s.pe.counters.getD (k - 1) 0)).1 = n at hlast ⊢
  generalize (s.endStep k x).1 = e at hend hl' hu' hR ⊢
  obtain ⟨hpe, hut, hwindows, hrs, hstack, hvib, hdescs⟩ := hend
  have hnone : e.stepOf n = none := (State.stepOf_of hR (by omega)).trans (List.getElem?_eq_none (by omega))
  have hset : e.pe.setpoint = s.pe.setpoint := by rw [hpe]
  have hdrag := RunIn.stepEnded_dragEvaluated (s.recipeOf r) x s.pe r.runIn
  obtain ⟨hstate, -, hfail⟩ := RunIn.stepEnded_rest (s.recipeOf r) x s.pe r.runIn
  rw [State.goTo_past hnone, State.finishProfile]
  by_cases h0 : s.pe.setpoint = 0
  · obtain ⟨hrest, r', hr', hrun, hclosed⟩ := State.beginStop_ends hl' hu' (hset.trans h0) .runOut
    obtain ⟨hended, hfail', hdrag', hmean'⟩ := RunIn.complete_runInEnded .runOut (r.runIn.stepEnded (s.recipeOf r) x s.pe)
    rw [(r.withRunIn_parts _).1] at hrun
    rw [hwindows] at hclosed
    refine ⟨r', hr', ?_, by rw [hrun, hfail', hfail], by simp [hset], fun h => absurd h0 h, fun _ => ⟨hrest, hrun ▸ hended, ?_⟩⟩
    · exact hdrag.congr (by rw [hrun, hdrag']) (by rw [hrun, hmean'])
    · refine hclosed.of_same rfl hrs ?_ hvib hdescs
      exact (State.unit2_congr hut).trans (State.unit2_setRecord hu.1 (r.withRunIn_parts _).2.1)
  · rw [State.beginStop_moving (hset.trans_ne h0)]
    refine ⟨_, hu'.1, hdrag, hfail, hset, fun _ => ?_, fun h => absurd h h0⟩
    refine ⟨rfl, rfl, rfl, ?_, rfl, rfl, hu'.2.1, hstate, hwindows⟩
    rw [State.stoppingFor, State.setPe_pe, hpe]

/-- A RAMP step that fails has its window paused and itself noted, and the engine stops (R48). -/
theorem IsStepping.failStep_eq {k : Nat} {x : Step} {i : Fin 8} {r : UnitRecord} {s : State} (h : IsStepping k x i r s) :
    ∃ p : State, s.failStep = p.beginStop .failure ∧ p.pe = s.unsettled.pe ∧
      p.oa.windows = pausedWindow x.window s.oa.windows ∧
      p.ut = (s.setRecord i (r.withRunIn { r.runIn with failStep := some k })).ut ∧ p.rs = s.rs ∧ p.afe = s.afe ∧
      p.cs.vibDescs = s.cs.vibDescs := by
  have hx := h.currentStep
  obtain ⟨-, hu, -, hs, -⟩ := h
  obtain ⟨f, hf⟩ : ∃ f, f = s.mapRunIn fun r => { r with failStep := s.pe.step } := ⟨_, rfl⟩
  have hfx : f.currentStep = some x := by
    refine (State.currentStep_congr (by simp [hf]) ?_).trans hx
    exact hf ▸ (RecordsKeep.mapRunIn _ s).recipe1 (by simp)
  have hpe : f.unsettled.pe = s.unsettled.pe := by simp [State.unsettled, hf]
  refine ⟨f.pauseStep, by rw [State.failStep, hf], (State.pauseStep_pe hfx).trans hpe, ?_, ?_, by simp [hf], by simp [hf], by simp [hf]⟩
  · rw [State.pauseStep_windows hfx]; simp [hf]
  · rw [show f.pauseStep.ut = f.ut by simp, hf, State.mapRunIn_eq_setRecord hu, hs]

/-- A failed RAMP leaves the engine STOPPING where the setpoint is not 0 (R48, R51). -/
theorem IsStepping.failStep_moving {k : Nat} {x : Step} {i : Fin 8} {r : UnitRecord} {s : State} (h : IsStepping k x i r s)
    (h0 : s.pe.setpoint ≠ 0) :
    s.failStep.pe = { s.unsettled.pe with phase := .stopping, cause := some .failure, stepTimer := none, torqueL := 0, torqueR := 0 } ∧
      s.failStep.oa.windows = pausedWindow x.window s.oa.windows ∧
      s.failStep.ut.records[i] = some { r with runIn := { r.runIn with failStep := some k } } := by
  obtain ⟨p, hfail, hpe, hwindows, hut, -⟩ := h.failStep_eq
  rw [hfail, State.beginStop_moving (by rw [hpe]; exact h0), State.stoppingFor, hpe]
  refine ⟨rfl, hwindows, ?_⟩
  rw [State.setPe_ut, hut, State.setRecord_self_records]
  rfl

/-- A failed RAMP ends the profile at once where the setpoint is 0 (R48, R51, log 19). -/
theorem IsStepping.failStep_standing {k : Nat} {x : Step} {i : Fin 8} {r : UnitRecord} {s : State} (h : IsStepping k x i r s)
    (h0 : s.pe.setpoint = 0) : EngineAtRest s.failStep ∧ ∃ r', s.failStep.ut.records[i] = some r' ∧
      r'.runIn = RunIn.complete .failure { r.runIn with failStep := some k } ∧
      TableClosed (pausedWindow x.window s.oa.windows) r r' s s.failStep := by
  obtain ⟨p, hfail, hpe, hwindows, hut, hrs, hafe, hdescs⟩ := h.failStep_eq
  obtain ⟨hl, hu, -⟩ := h
  have hlp : StationLaw p := (hl.setRecord hu.1 (r.withRunIn_parts _).2.1).congr hut
  have hup : IsUnitIn .running i (r.withRunIn { r.runIn with failStep := some k }) p :=
    (hu.setRecord (r.withRunIn_parts _).2.1).congr hut
  obtain ⟨hrest, r', hr', hrun, hclosed⟩ := State.beginStop_ends hlp hup (by rw [hpe]; exact h0) .failure
  have h2 : p.unit2 = s.unit2 := (State.unit2_congr hut).trans (State.unit2_setRecord hu.1 (r.withRunIn_parts _).2.1)
  rw [hfail]
  exact ⟨hrest, r', hr', hrun, hwindows ▸ hclosed.of_same rfl hrs h2 (by rw [hafe]) hdescs⟩

/-- Settles O26: a RAMP fails and any other step ends normally, from the state that the time left makes. -/
theorem stepTimerExpiryEndsOrFailsTheStep : Obligations.StepTimerExpiryEndsOrFailsTheStep := by
  intro s
  refine ⟨fun h => by simp only [exec_stepTimerExpiry_eq, State.stepExpiry, h], ?_⟩
  intro k left x i r hst ht
  have hu : IsStepping k x i r (s.elapseMs left) := hst
  have hev : s.stepExpiry = if x.kind = .ramp then (s.elapseMs left).failStep else (s.elapseMs left).endCurrent := by
    simp only [State.stepExpiry, ht, hu.currentStep, Option.map_some, Option.some.injEq]
  have hclock := onlyChanges_elapse (1000 * left) s
  rw [exec_stepTimerExpiry_eq, hev]
  by_cases hk : x.kind = .ramp
  · rw [if_pos hk]
    have hall := (hclock.trans (onlyChanges_engine (State.failStep_frame (s.elapseMs left)))).trans (onlyChanges_arbitrate _)
    refine ⟨_, rfl, by simp [HoldingKept, State.elapseMs], by simp [State.elapseMs], hall.mono (by decide), fun _ h0 => ?_,
      fun _ h0 => ?_, fun h => absurd hk h, fun h => absurd hk h⟩
    · obtain ⟨hpe, hwindows, hrecord⟩ := hu.failStep_moving h0
      simp only [arbitrate_frame, hpe]
      exact ⟨trivial, trivial, trivial, rfl, trivial, trivial, rfl, rfl, hwindows, hrecord⟩
    · obtain ⟨hrest, r', hr', hrun, hclosed⟩ := hu.failStep_standing h0
      refine ⟨hrest.congr (by simp), r', by simpa using hr', by rw [hrun]; rfl, by rw [hrun]; rfl, by rw [hrun]; rfl, ?_⟩
      exact hclosed.congr (by simp) (by simp) (by simp)
  · rw [if_neg hk]
    have hall := (hclock.trans (onlyChanges_engine (State.endCurrent_frame (s.elapseMs left)))).trans (onlyChanges_arbitrate _)
    refine ⟨_, rfl, by simp [HoldingKept, State.elapseMs], by simp [State.elapseMs], hall.mono (by decide), fun h => absurd h hk,
      fun h => absurd h hk, fun _ => ?_, fun _ hlast => ?_⟩
    · intro n y hn hy he
      obtain ⟨hent, hcounters, r', hr', hdrag⟩ := hu.endCurrent_enters hn hy he
      simp only [arbitrate_frame]
      exact ⟨hent.congr (by simp) (by simp) (by simp) (by simp), hcounters, r', hr', hdrag⟩
    · exact (hu.endCurrent_runsOut hlast).congr (by simp) (by simp) (by simp) (by simp) (by simp)

end Sys2Proof.Machine
end

