-- ==== Sys2Proof/Proofs/Setpoints.lean ====
section
/-! SETPOINT_UPDATE: the movement of the setpoint, the record sent, and the end of a profile that was stopping (R44, R45, R51). -/

namespace Sys2Proof.Machine

/-! ## The movement (R44) -/

theorem clampInt_eq {lo hi : Int} (h : lo ≤ hi) (x : Int) : clampInt lo hi x = max lo (min hi x) := by
  unfold clampInt
  split
  · omega
  · split <;> omega

theorem clampInt_of_natAbs_le {top : Nat} {x : Int} (h : x.natAbs ≤ top) : clampInt (-(top : Int)) top x = x := by
  rw [clampInt_eq (by omega)]
  omega

theorem moveToward_eq (goal x : Int) (rate : Nat) :
    moveToward goal (rate / 5) x = if x ≤ goal then min goal (x + (rate : Int) / 5) else max goal (x - (rate : Int) / 5) := by
  unfold moveToward
  rw [Int.natCast_ediv]
  rfl

/-- A movement toward 0 stays within any bound. -/
theorem moveToward_zero_natAbs_le {top : Nat} {x : Int} (step : Nat) (h : x.natAbs ≤ top) : (moveToward 0 step x).natAbs ≤ top := by
  unfold moveToward
  split <;> omega

theorem State.clampSpeed_of {s : State} {R : Recipe} (hR : s.recipe1 = some R) (x : Int) :
    s.clampSpeed x = clampInt (-((R.maxSpeed * 100 : Nat) : Int)) (R.maxSpeed * 100 : Nat) x := by
  simp only [State.clampSpeed, hR]

section
variable {s : State} {R : Recipe}

/-- With no goal the setpoint rests (R44). -/
theorem State.movedSetpoint_resting (hR : s.recipe1 = some R) (hb : s.pe.setpoint.natAbs ≤ R.maxSpeed * 100)
    (hg : s.goal = none) : s.movedSetpoint = s.pe.setpoint := by
  simp only [State.movedSetpoint, hg, State.clampSpeed_of hR, clampInt_of_natAbs_le hb]

/-- Toward the target of the step the setpoint moves by the step's rate, within the maximum speed (R44). -/
theorem State.movedSetpoint_toward (hR : s.recipe1 = some R) {goal : Int} {rate : Nat} (hg : s.goal = some (goal, rate)) :
    s.movedSetpoint =
      max (-((R.maxSpeed * 100 : Nat) : Int)) (min (R.maxSpeed * 100 : Nat) (moveToward goal (rate / 5) s.pe.setpoint)) := by
  simp only [State.movedSetpoint, hg, State.clampSpeed_of hR]
  exact clampInt_eq (by omega) _

/-- Toward 0 the maximum speed does not come in (R44). -/
theorem State.movedSetpoint_down (hR : s.recipe1 = some R) (hb : s.pe.setpoint.natAbs ≤ R.maxSpeed * 100) {rate : Nat}
    (hg : s.goal = some (0, rate)) : s.movedSetpoint = moveToward 0 (rate / 5) s.pe.setpoint := by
  simp only [State.movedSetpoint, hg, State.clampSpeed_of hR]
  exact clampInt_of_natAbs_le (moveToward_zero_natAbs_le _ hb)

end

/-! ## The update (R44, R45, R51) -/

theorem State.setpointRecord_off {s : State} (h : s.pe.phase = .idle ∨ s.pe.phase = .held) :
    s.setpointRecord = ⟨0, false, 0, 0⟩ := by
  rcases h with h | h <;> simp [State.setpointRecord, h]

theorem State.setpointRecord_stepping {s : State} (h : s.pe.phase = .stepping) :
    s.setpointRecord = ⟨s.pe.setpoint, s.pe.enable, s.pe.torqueL, s.pe.torqueR⟩ := by
  simp [State.setpointRecord, h]

theorem State.setpointRecord_untorqued {s : State}
    (h : s.pe.phase = .suspended ∨ s.pe.phase = .reapproach ∨ s.pe.phase = .stopping) :
    s.setpointRecord = ⟨s.pe.setpoint, s.pe.enable, 0, 0⟩ := by
  rcases h with h | h | h <;> simp [State.setpointRecord, h]

/-- The record that an update sends, with the moved setpoint (R45). -/
def State.updateRecord (s : State) : SetpointRecord := (s.setPe { s.pe with setpoint := s.movedSetpoint }).setpointRecord

/-- An update before the profile may end: the setpoint moved and the record sent (R44, R45). -/
def State.updated (s : State) : State :=
  s.setPe { s.pe with setpoint := s.movedSetpoint, updates := s.pe.updates + 1, sent := some s.updateRecord }

theorem State.updateSetpoint_going {s : State} (h : s.pe.phase ≠ .stopping) : s.updateSetpoint = s.updated := by
  unfold State.updateSetpoint
  dsimp only
  split
  · next hp _ => exact absurd hp h
  · rfl

theorem State.updateSetpoint_stopping {s : State} {cause : StopCause} (h : s.pe.phase = .stopping) (hc : s.pe.cause = some cause) :
    s.updateSetpoint = if s.movedSetpoint = 0 then s.updated.profileEnd cause else s.updated := by
  have hp : s.updated.pe.phase = .stopping := h
  have hc' : s.updated.pe.cause = some cause := hc
  have heq : s.updateSetpoint = match s.updated.pe.phase, s.updated.pe.cause with
    | .stopping, some cause => if s.updated.pe.setpoint = 0 then s.updated.profileEnd cause else s.updated
    | _, _ => s.updated := rfl
  rw [heq, hp, hc']
  rfl

theorem State.updateSetpoint_updates (s : State) : s.updateSetpoint.pe.updates = s.pe.updates + 1 := by
  unfold State.updateSetpoint
  dsimp only
  split
  · split
    · simp only [State.profileEnd_parts]; rfl
    · rfl
  · rfl

/-- The engine after an update that ends nothing, by where the setpoint has moved and by the record of the phase (R44, R45). -/
theorem State.updated_pe {s : State} {v : Int} {x : SetpointRecord} (hv : s.movedSetpoint = v)
    (hx : (s.setPe { s.pe with setpoint := v }).setpointRecord = x) :
    s.updated.pe = { s.pe with setpoint := v, updates := s.pe.updates + 1, sent := some x } := by
  rw [State.updated, State.updateRecord, hv, hx]
  rfl

/-- An update in a phase that does not stop moves the setpoint and sends the record, and changes nothing else. -/
theorem State.setpointDue_going {s u : State} {v : Int} {x : SetpointRecord} (hu : u = s.elapseTo (2 * (s.pe.updates + 1)))
    (hp : u.pe.phase ≠ .stopping) (hv : u.movedSetpoint = v) (hx : (u.setPe { u.pe with setpoint := v }).setpointRecord = x) :
    (arbitrate s.setpointDue).pe = { u.pe with updates := u.pe.updates + 1, setpoint := v, sent := some x } ∧
      OnlyChanges [.pe, .lp] u (arbitrate s.setpointDue) := by
  have hdue : s.setpointDue = u.updated := by rw [State.setpointDue, ← hu, State.updateSetpoint_going hp]
  rw [hdue]
  refine ⟨?_, ((onlyChanges_setPe _ _).trans (onlyChanges_arbitrate _)).mono (by decide)⟩
  rw [show (arbitrate u.updated).pe = u.updated.pe by simp, State.updated_pe hv hx]

/-- An update in STOPPING that moves the setpoint to 0 ends the profile (R51, R55, R88). -/
theorem State.updateSetpoint_ends {i : Fin 8} {r : UnitRecord} {s : State} {cause : StopCause} (hl : StationLaw s)
    (hu : IsUnitIn .running i r s) (hp : s.pe.phase = .stopping) (hc : s.pe.cause = some cause) (h0 : s.movedSetpoint = 0) :
    EngineAtRest s.updateSetpoint ∧ ∃ r', s.updateSetpoint.ut.records[i] = some r' ∧
      r'.runIn = r.runIn.complete cause ∧ TableClosed s.oa.windows r r' s s.updateSetpoint := by
  obtain ⟨hrest, r', hr', hrun, hclosed⟩ := State.profileEnd_ends (s := s.updated) hl hu cause
  rw [State.updateSetpoint_stopping hp hc, if_pos h0]
  exact ⟨hrest, r', hr', hrun, hclosed.of_same rfl rfl rfl rfl rfl⟩

/-- An update in STOPPING moves the setpoint and sends the record, whether the profile ends with it or not (R44, R45, log 10). -/
theorem State.updateSetpoint_sends {s : State} {cause : StopCause} (hp : s.pe.phase = .stopping) (hc : s.pe.cause = some cause) :
    s.updateSetpoint.pe.setpoint = s.movedSetpoint ∧ s.updateSetpoint.pe.sent = some ⟨s.movedSetpoint, s.pe.enable, 0, 0⟩ := by
  have hpe := State.updated_pe rfl (State.setpointRecord_untorqued (s := s.setPe _) (.inr (.inr hp)))
  rw [State.updateSetpoint_stopping hp hc]
  split
  · simp [hpe]
  · simp [hpe]

/-- Settles O25: the goal and the rate of each phase give the movement, and the record follows. -/
theorem setpointUpdateMovesByTheRateInForce : Obligations.SetpointUpdateMovesByTheRateInForce := by
  intro s i r hl hu hb u moved top clamped
  have hR : u.recipe1 = some (s.recipeOf r) := hu.recipe1 hl
  have hmoved : ∀ goal rate, moveToward goal (rate / 5) u.pe.setpoint = moved goal rate := fun _ _ => moveToward_eq _ _ _
  have hdown : u.goal = some (0, (s.recipeOf r).softStop) → u.movedSetpoint = moved 0 (s.recipeOf r).softStop :=
    fun hg => (State.movedSetpoint_down hR hb hg).trans (hmoved _ _)
  have hall := ((onlyChanges_elapse _ s).trans (onlyChanges_engine (State.updateSetpoint_frame u))).trans (onlyChanges_arbitrate _)
  rw [exec_setpointUpdate_eq]
  refine ⟨_, rfl, ?_, ?_, hall.mono (by decide), ?_, fun hp => ?_, fun k x hk h1 hx => ?_, fun hp hh => ?_, fun hp hh => ?_,
    fun cause hp hc => ?_⟩
  · simp [HoldingKept, State.setpointDue, State.elapseTo]
  · simp [State.setpointDue, u]
  · simp [State.setpointDue, State.updateSetpoint_updates, State.elapseTo]
  · have hup : u.pe.phase = .idle ∨ u.pe.phase = .held := hp
    have hg : u.goal = none := by rcases hup with hup | hup <;> simp [State.goal, hup]
    exact State.setpointDue_going rfl (by rcases hup with hup | hup <;> simp [hup]) (State.movedSetpoint_resting hR hb hg)
      (State.setpointRecord_off hup)
  · have hcur : u.currentStep = some x := State.currentStep_of hR hk h1 hx
    have hv : u.goal = some (x.target * 100, x.rate) → u.movedSetpoint = clamped (moved (x.target * 100) x.rate) :=
      fun hg => (State.movedSetpoint_toward hR hg).trans (by rw [hmoved])
    refine ⟨fun hp => ?_, fun hp => ?_⟩ <;> have hup : u.pe.phase = _ := hp
    · exact State.setpointDue_going rfl (by simp [hup]) (hv (by simp [State.goal, hup, hcur])) (State.setpointRecord_stepping hup)
    · exact State.setpointDue_going rfl (by simp [hup]) (hv (by simp [State.goal, hup, hcur]))
        (State.setpointRecord_untorqued (.inr (.inl hup)))
  · have hup : u.pe.phase = .suspended := hp
    have huh : u.pe.halt ≠ .hard := hh
    exact State.setpointDue_going rfl (by simp [hup]) (hdown (by simp [State.goal, hup, huh, hR]))
      (State.setpointRecord_untorqued (.inl hup))
  · have hup : u.pe.phase = .suspended := hp
    have huh : u.pe.halt = .hard := hh
    exact State.setpointDue_going rfl (by simp [hup]) (State.movedSetpoint_resting hR hb (by simp [State.goal, hup, huh]))
      (State.setpointRecord_untorqued (.inl hup))
  · have hup : u.pe.phase = .stopping := hp
    have huc : u.pe.cause = some cause := hc
    have hv := hdown (by simp [State.goal, hup, hR])
    obtain ⟨hset, hsent⟩ := State.updateSetpoint_sends hup huc
    rw [hv] at hset hsent
    have hdue : s.setpointDue = u.updateSetpoint := rfl
    rw [hdue]
    refine ⟨by simpa using hset, by simp only [arbitrate_frame]; exact hsent, fun hne => ?_, fun h0 => ?_⟩
    · rw [State.updateSetpoint_stopping hup huc, hv, if_neg hne]
      exact ⟨by simp only [arbitrate_frame]; exact hp, ((onlyChanges_setPe _ _).trans (onlyChanges_arbitrate _)).mono (by decide)⟩
    · obtain ⟨hrest, r', hr', hrun, hclosed⟩ := State.updateSetpoint_ends (s := u) hl hu hup huc (hv.trans h0)
      obtain ⟨hended, hfail, hdrag, -⟩ := RunIn.complete_runInEnded cause r.runIn
      refine ⟨hrest.congr (by simp), r', by simpa using hr', hrun ▸ hended, by rw [hrun, hfail], by rw [hrun, hdrag], ?_⟩
      exact TableClosed.congr (hclosed.of_same rfl rfl rfl rfl rfl) (by simp) (by simp) (by simp)

end Sys2Proof.Machine
end

