-- ==== Sys2Proof/Proofs/Feedback.lean ====
section
/-! DRIVE_FEEDBACK: a record of a drive that is fine raises no condition, and the measured speed ends a RAMP or a re-approach (R45, R46,
R59, R128). -/

namespace Sys2Proof.Machine

/-! ## A record that raises nothing (R128, R133) -/

/-- The record of a ready drive without fault, as it is taken before the blocks read it (R45). -/
def State.fineFeedback (speed : Int) (s : State) : State := s.setAfe { s.afe with feedback := some ⟨speed, true, false⟩ }

theorem State.fineFeedback_driveFine (speed : Int) (s : State) : (s.fineFeedback speed).driveFine := by
  intro f hf
  cases hf
  exact ⟨rfl, rfl⟩

/-- A drive that is fine, at a speed within the limit, has OVERSPEED and DRIVE_FAULT judged not asserted (R128). -/
theorem State.judgeFeedback_fine {speed : Int} {s : State} (hd : s.driveFine) (hs : speed.natAbs ≤ s.speedLimit) :
    s.judgeFeedback speed = (s.setSource 3 false).setSource 4 false := by
  have hd' : (s.setSource 3 false).driveFine := by simpa [State.driveFine] using hd
  rw [State.judgeFeedback, decide_eq_false (by omega), State.judgeDrive, NoneActivated.driveFaulty_of_fine hd']

/-- Where the drive is fine and the speed within the limit, the record is taken without any condition becoming active (R128, R133). -/
theorem State.feedbackArrives_fine {speed : Int} {s : State} {R : Recipe} (hR : s.recipe1 = some R)
    (hh : s.halt.profile = false) (hs : speed.natAbs ≤ R.maxSpeed * 105) :
    s.feedbackArrives ⟨speed, true, false⟩ = (((s.fineFeedback speed).takeSpeed speed).setSource 3 false).setSource 4 false := by
  obtain ⟨t, ht⟩ : ∃ t, t = (s.fineFeedback speed).takeSpeed speed := ⟨_, rfl⟩
  obtain ⟨hfeedback, hactive⟩ : NoneActivated (s.fineFeedback speed) t := ht ▸ NoneActivated.takeSpeed speed _
  have hfine : t.driveFine := by
    unfold State.driveFine
    rw [hfeedback]
    exact State.fineFeedback_driveFine speed s
  have hlimit : t.speedLimit = R.maxSpeed * 105 := by
    have hrecipe : t.recipe1 = (s.fineFeedback speed).recipe1 := ht ▸ (RecordsKeep.takeSpeed speed _).recipe1 (by simp)
    rw [State.speedLimit, hrecipe, show (s.fineFeedback speed).recipe1 = some R from hR]
    rfl
  have hjudged : t.judgeFeedback speed = (t.setSource 3 false).setSource 4 false :=
    State.judgeFeedback_fine hfine (hlimit ▸ hs)
  have harrives : s.feedbackArrives ⟨speed, true, false⟩ = react s (t.judgeFeedback speed) := by rw [ht]; rfl
  rw [harrives, hjudged, ← ht]
  refine react_quiet (fun n hn => ?_) ?_ hh
  · exact hactive (State.fineFeedback_driveFine speed s) n (State.active_setSource_false (State.active_setSource_false hn))
  · simp [ht, State.fineFeedback]

/-! ## What the Profile Engine does with the speed (R46, R59) -/

section
variable {speed : Int} {s : State} {R : Recipe} {x : Step}

theorem State.onTarget_iff (hR : s.recipe1 = some R) (hx : s.currentStep = some x) :
    s.onTarget speed = true ↔ s.pe.setpoint = x.target * 100 ∧ (speed - x.target * 100).natAbs ≤ R.tolerance * 100 := by
  simp [State.onTarget, hR, hx]

theorem State.takeSpeed_ramp (hx : s.currentStep = some x) (hp : s.pe.phase = .stepping) (hk : x.kind = .ramp)
    (ht : s.onTarget speed = true) : s.takeSpeed speed = s.endCurrent := by
  simp [State.takeSpeed, hx, hp, hk, ht]

theorem State.takeSpeed_reapproach (hx : s.currentStep = some x) (hp : s.pe.phase = .reapproach) (ht : s.onTarget speed = true) :
    s.takeSpeed speed = s.loadStep x := by
  simp [State.takeSpeed, State.restartStep, hx, hp, ht]

/-- A record that ends no RAMP and no re-approach is not for the Profile Engine (R46, R59). -/
theorem State.takeSpeed_self (hx : s.currentStep = some x) (h : (s.pe.phase = .stepping ∧ x.kind ≠ .ramp) ∨
    (s.pe.phase ≠ .stepping ∧ s.pe.phase ≠ .reapproach) ∨ ¬s.onTarget speed = true) : s.takeSpeed speed = s := by
  unfold State.takeSpeed
  split
  · next hp =>
    rw [hx]
    refine if_neg fun ⟨hk, ht⟩ => ?_
    rcases h with ⟨-, hk'⟩ | ⟨hp', -⟩ | ht'
    · exact hk' hk
    · exact hp' hp
    · exact ht' ht
  · next hp =>
    refine if_neg fun ht => ?_
    rcases h with ⟨hp', -⟩ | ⟨-, hp'⟩ | ht'
    · exact absurd (hp.symm.trans hp') (by decide)
    · exact hp' hp
    · exact ht' ht
  all_goals rfl

end

/-- Settles O28: the record raises nothing, and what it does is what the Profile Engine does with the speed. -/
theorem feedbackOnTargetEndsARampOrAReapproach : Obligations.FeedbackOnTargetEndsARampOrAReapproach := by
  intro speed s k x i r hl hu hk h1 hx hh hs onTarget
  have hR : s.recipe1 = some (s.recipeOf r) := hu.recipe1 hl
  have hcur : (s.fineFeedback speed).currentStep = some x := State.currentStep_of hR hk h1 hx
  have htarget : (s.fineFeedback speed).onTarget speed = true ↔ onTarget := State.onTarget_iff hR hcur
  rw [exec_driveFeedback_eq, State.feedbackArrives_fine hR hh hs]
  have hengine : OnlyChanges [.lp, .ut, .pe, .afe, .cs, .oa, .cu] s
      (arbitrate ((((s.fineFeedback speed).takeSpeed speed).setSource 3 false).setSource 4 false)) :=
    onlyChanges_engine (by simp [State.fineFeedback])
  refine ⟨_, rfl, by simp [HoldingKept, State.fineFeedback], hengine, by simp [State.fineFeedback], ?_, ?_,
    by simp [State.fineFeedback], fun hp hkind ht => ?_, fun hp ht => ?_, fun h => ?_⟩
  · simp
  · simp
  · rw [State.takeSpeed_ramp hcur hp hkind (htarget.2 ht)]
    have hst : IsStepping k x i r (s.fineFeedback speed) := ⟨hl, hu, hp, hk, h1, hx⟩
    refine ⟨fun y hn hy he => ?_, fun hlast => ?_⟩
    · obtain ⟨hent, hcounters, -⟩ := hst.endCurrent_enters hn hy he
      refine ⟨StepEntered.congr hent (by simp) (by simp) (by simp) (by simp), ?_⟩
      simp only [arbitrate_frame, State.setSource_frame]
      exact hcounters
    · exact ProfileRunsOut.congr (hst.endCurrent_runsOut hlast) (by simp) (by simp) (by simp) (by simp) (by simp)
  · rw [State.takeSpeed_reapproach hcur hp (htarget.2 ht)]
    have hload := State.loadStep_stepLoaded (s := s.fineFeedback speed) hR hcur
    refine ⟨StepLoaded.congr hload (by simp) (by simp) (by simp), ?_, ?_, ?_, ?_⟩ <;> simp [State.fineFeedback, hk]
  · rw [State.takeSpeed_self hcur (by rw [htarget]; exact h)]
    simp [State.fineFeedback]

end Sys2Proof.Machine
end

