-- ==== Sys2Proof/Proofs/Reaction.lean ====
section
/-! What the end of an event adds to it: nothing where no condition has become active and the halts stand, and else the taking check
(R129, R133, R135). -/

namespace Sys2Proof.Machine

/-! ## An event that activates nothing -/

/-- Where a severe frame finds the halt HARD already, there is no change to HARD (R57). -/
theorem State.hardCheck_self {s : State} (h : s.severeFrame = true → s.pe.halt = .hard) : s.hardCheck = s :=
  if_neg fun ⟨hne, hs⟩ => hne (h hs)

/-- The law of R57 reads the hold stack and the halt style alone. -/
theorem HardWhereSevere.congr {s t : State} (h : HardWhereSevere s) (hs : t.cu.stack = s.cu.stack) (hp : t.pe.halt = s.pe.halt) :
    HardWhereSevere t := by
  unfold HardWhereSevere at *
  rwa [State.halt_congr hs, hs, hp]

theorem HardWhereSevere.hardCheck {s : State} (h : HardWhereSevere s) (hp : s.halt.profile = true) : s.hardCheck = s := by
  refine State.hardCheck_self fun hs => h hp ?_
  simpa [State.severeFrame] using hs

/-- No member enters or leaves the halt set, and a severe PROFILE halt is HARD already: the blocks are told nothing (R57, R135). -/
theorem State.applyHalts_standing {s : State} (h : HardWhereSevere s) : s.applyHalts s.halt = s := by
  cases hp : s.halt.profile with
  | false => exact State.applyHalts_same hp
  | true =>
    have h1 : s.applyProfileHalt s.halt = s := by simp [State.applyProfileHalt, hp, h.hardCheck hp]
    have h2 : s.applyNoiseHalt s.halt = s := by unfold State.applyNoiseHalt; split <;> simp_all
    have h3 : s.applyLeakHalt s.halt = s := by unfold State.applyLeakHalt; split <;> simp_all
    have h4 : s.applyTransferHalt s.halt = s := by unfold State.applyTransferHalt; split <;> simp_all
    simp only [State.applyHalts, h1, h2, h3, h4]

/-- An event that makes no condition active, and leaves the stack and the halt style, has no more to it, also under a standing PROFILE
halt (R133, R135, R57). -/
theorem react_standing {s t : State} (ha : ∀ n, t.active n = true → s.active n = true) (hs : t.cu.stack = s.cu.stack)
    (hp : t.pe.halt = s.pe.halt) (hh : HardWhereSevere s) : react s t = t := by
  rw [react, checkIfActivated_none ha, ← State.halt_congr hs, State.applyHalts_standing (hh.congr hs hp)]

/-! ## An event that activates a condition -/

/-- An event that makes a condition active has the taking check, and then the halts (R133, R135). -/
theorem react_activated {s t : State} (n : Fin 20) (hs : s.active n = false) (ht : t.active n = true) :
    react s t = (t.takingCheck []).applyHalts s.halt := by rw [react, checkIfActivated_some n hs ht]

/-- What a taking check looks at is the Condition Unit and the clock, and what it leaves is the stack and RL. -/
theorem TakingCheckMade.congr {u u' t t' : State} (h : TakingCheckMade u t) (hcu : u'.cu = u.cu) (hk : u'.clockUs = u.clockUs)
    (hs : t'.cu.stack = t.cu.stack) (hr : t'.cu.rl = t.cu.rl) : TakingCheckMade u' t' := by
  have hq : ∀ n, u'.qualifies n = u.qualifies n := fun n => by
    simp only [State.qualifies, State.active, State.onStack, State.cond_congr hcu, hcu]
  have htaken : ∀ n, IsTaken n u' ↔ IsTaken n u := fun n => by simp only [IsTaken, hq, State.cond_congr hcu]
  have hnone : NoneQualifies u' ↔ NoneQualifies u := by simp only [NoneQualifies, hq]
  obtain ⟨hleft, hpushed⟩ := h
  refine ⟨fun hn => ?_, fun n hn => ?_⟩
  · rw [hs, hr, hcu]
    exact hleft (hnone.1 hn)
  · rw [hs, hr, hcu, State.cond_congr hcu, State.now_congr hk]
    exact hpushed n ((htaken n).1 hn)

/-- The taking check stands at the end of an event that makes a condition active: the halts leave the stack and RL. -/
theorem takingCheckMade_react {s t : State} (n : Fin 20) (hs : s.active n = false) (ht : t.active n = true) :
    TakingCheckMade t (react s t) := by
  rw [react_activated n hs ht]
  exact (takingCheck_made [] t).congr rfl rfl (by simp) (by simp)

/-! ## The judgement of one source (R127 to R129) -/

/-- A judgement touches the record of its condition alone. -/
theorem State.setSource_cu (n : Fin 20) (b : Bool) (s : State) :
    (s.setSource n b).cu = { s.cu with conditions := s.cu.conditions.set n ((s.setSource n b).cond n) } := by
  simp [State.setSource, State.changeCond, State.mapCond]

theorem State.cond_setSource_judged (n : Fin 20) (b : Bool) (s : State) :
    (s.setSource n b).cond n = judged (decide (conditionKind n = .latched)) b (s.active n) s.now (s.cond n) := by
  cases hk : conditionKind n
  · rw [State.cond_setSource_level hk, State.active_level hk]
    cases b <;> cases (s.cond n).source <;> cases hi : (s.cond n).injected <;> simp [judged, hi]
  · rw [State.cond_setSource_latched hk, State.active_latched hk]
    cases b <;> cases hl : (s.cond n).latch <;> simp [judged, hl]

/-- A judgement can make no condition active but its own (R129). -/
theorem State.active_setSource_ne {n m : Fin 20} (h : m ≠ n) (b : Bool) (s : State) : (s.setSource n b).active m = s.active m :=
  State.active_congr (State.cond_setSource_ne h b s)

/-- A judgement of a condition that is active already, or that is not asserted, makes no condition active (R129). -/
theorem State.active_of_setSource {n m : Fin 20} {b : Bool} {s : State} (h : s.active n = true ∨ b = false)
    (ha : (s.setSource n b).active m = true) : s.active m = true := by
  rcases h with h | rfl
  · by_cases hm : m = n
    · rwa [hm]
    · rwa [State.active_setSource_ne hm] at ha
  · exact State.active_setSource_false ha

end Sys2Proof.Machine
end

