-- ==== Sys2Proof/Proofs/LeakSamples.lean ====
section
/-! LEAK_SAMPLE: the five values that become live, the chamber whose fill ends, the grant that follows, and the sensor flags (R64 to R66,
R108, R109, R111, R112, R114, R128). -/

namespace Sys2Proof.Machine

theorem exec_leakSample_eq (x : LeakSample) (s : State) : exec (.leakSample x) s = .next (arbitrate (react s (s.takeLeak x))) := rfl

/-! ## The settle time (R111) -/

/-- A chamber of the kind CIRCUIT settles for its base time. -/
theorem settleTime_circuit {p : ChamberPlan} (h : p.kind = .circuit) (housing : Option Int) (tRef : Int) :
    settleTime p housing tRef = p.settleBase := by simp [settleTime, h]

/-- Any other chamber settles longer by the excess of the end housing temperature, up to the maximum. -/
theorem settleTime_excess {p : ChamberPlan} (h : p.kind ≠ .circuit) (housing : Option Int) (tRef : Int) :
    settleTime p housing tRef =
      min p.settleMax (p.settleBase + p.settleGain * (housing.getD tRef - tRef).toNat / 100) := by
  cases hk : p.kind with
  | circuit => exact absurd hk h
  | housing | hub => simp [settleTime, hk]

/-! ## Live values (R64 to R66) -/

theorem calibrate_isLiveValue (c : Calibration) (x : Int) : IsLiveValue c x (calibrate c x).1 (calibrate c x).2 := by
  refine ⟨fun h => ?_, fun h => ?_, fun h h' => ?_⟩
  · have hraw : rawCount x = 32767 := by unfold rawCount clampInt; split <;> omega
    simp [calibrate, hraw]
  · have hraw : rawCount x = -32768 := by unfold rawCount clampInt; split <;> omega
    simp [calibrate, hraw]
  · have hraw : rawCount x = x := by unfold rawCount clampInt; rw [if_neg (by omega), if_neg (by omega)]
    simp only [calibrate, hraw, if_neg (show ¬x = 32767 by omega), if_neg (show ¬x = -32768 by omega)]
    refine ⟨fun hlow => ?_, fun hlow hhigh => ?_, fun hlow hhigh => ?_⟩
    · rw [if_pos hlow]; exact ⟨rfl, rfl⟩
    · rw [if_neg (by omega), if_pos hhigh]; exact ⟨rfl, rfl⟩
    · rw [if_neg (by omega), if_neg (by omega)]; exact ⟨rfl, rfl⟩

/-- A sample of one channel makes its value and range fault live, and leaves those of the other channels. -/
theorem State.takeChannel_live (i c : Fin 10) (x : Int) (s : State) :
    (s.takeChannel i x).afe.live[c] = (if c = i then (calibrate s.rs.live.channels[i] x).1 else s.afe.live[c]) ∧
    (s.takeChannel i x).afe.faults[c] = if c = i then (calibrate s.rs.live.channels[i] x).2 else s.afe.faults[c] := by
  simp only [State.takeChannel, State.setAfe_afe, Fin.getElem_fin, Vector.getElem_set, Fin.ext_iff, eq_comm, and_self]

/-- The state after a LEAK sample has been taken and stored, before the Leak Controller reads it (R64 to R66, R69). -/
def State.sampledLeak (x : LeakSample) (s : State) : State :=
  let t := s.elapseTo (5 * s.afe.leakTaken)
  let t := ((((t.takeChannel 5 x.prs0).takeChannel 6 x.prs1).takeChannel 7 x.prs2).takeChannel 8 x.prs3).takeChannel 9 x.tlk
  let t := t.storeLeak
  t.setAfe { t.afe with leakTaken := t.afe.leakTaken + 1 }

/-- The range fault of TLK marks the measurements, where the sample has one (R114). -/
def State.sensed (s : State) : State := if s.afe.faults[9] then s.senseFault else s

theorem State.takeLeak_eq (x : LeakSample) (s : State) : s.takeLeak x = (s.sampledLeak x).checkFills.sensed.judgeSensors := rfl

@[simp] theorem State.sensed_frame (s : State) :
    s.sensed.pending = s.pending ∧ s.sensed.clockUs = s.clockUs ∧ s.sensed.freeCount = s.freeCount ∧ s.sensed.lines = s.lines ∧
    s.sensed.lp = s.lp ∧ s.sensed.ut = s.ut ∧ s.sensed.rs = s.rs ∧ s.sensed.pe = s.pe ∧ s.sensed.afe = s.afe ∧
    s.sensed.cs = s.cs ∧ s.sensed.oa = s.oa ∧ s.sensed.cu = s.cu ∧ s.sensed.reports = s.reports ∧
    s.sensed.lkc.queue = s.lkc.queue := by
  unfold State.sensed
  split <;> simp

theorem State.sampledLeak_channels (x : LeakSample) (s : State) (c : Fin 10) :
    (5 ≤ c.val → IsLiveValue s.rs.live.channels[c] ([x.prs0, x.prs1, x.prs2, x.prs3, x.tlk].getD (c.val - 5) 0)
      (s.sampledLeak x).afe.live[c] (s.sampledLeak x).afe.faults[c]) ∧
    (c.val < 5 → (s.sampledLeak x).afe.live[c] = s.afe.live[c] ∧ (s.sampledLeak x).afe.faults[c] = s.afe.faults[c]) := by
  simp only [State.sampledLeak, State.setAfe_afe, State.storeLeak_frame, State.takeChannel_live]
  fin_cases c <;> simp <;> exact calibrate_isLiveValue _ _

theorem State.sampledLeak_frame (x : LeakSample) (s : State) :
    OnlyChanges [.afe, .cs] (s.elapseTo (5 * s.afe.leakTaken)) (s.sampledLeak x) ∧
    (s.sampledLeak x).afe.leakTaken = s.afe.leakTaken + 1 := by
  refine ⟨⟨by simp [State.sampledLeak], fun b hb => ?_⟩, by simp [State.sampledLeak]⟩
  cases b <;> simp [Part.same, State.sampledLeak] at hb ⊢

/-! ## The Leak Controller at a sample (R108, R109, R111, R112, R114) -/

theorem State.chamber_congr {s t : State} (h : t.lkc = s.lkc) (c : Fin 4) : t.chamber c = s.chamber c := by simp [State.chamber, h]

/-- A grant is made to the head of the queue alone (R108). -/
theorem State.chamber_checkGrant_ne {c : Fin 4} {s : State} (h : s.lkc.queue.head? ≠ some c) :
    s.checkGrant.chamber c = s.chamber c := by
  unfold State.checkGrant
  split
  · rfl
  · next d rest hq =>
    split
    · rw [State.chamber_setChamber, if_neg fun hc => h (by simp [hq, hc])]
      rfl
    · rfl

/-- With the supply free, LEAK not halted and the reset vent over, the head of the queue fills (R108). -/
theorem State.checkGrant_grants {d : Fin 4} {rest : List (Fin 4)} {s : State} (hq : s.lkc.queue = d :: rest)
    (hf : ∀ c, (s.chamber c).phase ≠ .fill) (hl : s.halt.leak = false) (hv : s.lkc.resetVent = .over) :
    s.checkGrant.chamber d = ⟨.fill, some (s.chamberPlan d).fillTimeout, none, none⟩ ∧ s.checkGrant.lkc.queue = rest := by
  have hfree : s.supplyFree = true := by simpa [State.supplyFree] using hf
  unfold State.checkGrant
  rw [hq]
  dsimp only
  rw [if_pos ⟨hfree, by simp [hl], hv⟩]
  exact ⟨by rw [State.chamber_setChamber, if_pos rfl], by simp⟩

/-- What a chamber that has reached its target becomes (R109, R111, R112). -/
def State.filledChamber (c : Fin 4) (s : State) : Chamber :=
  let p := s.chamberPlan c
  let settle := settleTime p s.endHousing s.rs.live.tRef
  if settle = 0 then ⟨.measure, some p.measure, none, some ⟨s.now, s.now + BitVec.ofNat 32 p.measure, false, none, none, false⟩⟩
  else ⟨.settle, some settle, none, none⟩

theorem State.filledChamber_not_fill (c : Fin 4) (s : State) : (s.filledChamber c).phase ≠ .fill := by
  unfold State.filledChamber
  dsimp only
  split <;> simp

theorem State.fillReached_eq (c : Fin 4) (s : State) : s.fillReached c = (s.setChamber c (s.filledChamber c)).checkGrant := by
  unfold State.fillReached State.filledChamber State.enterMeasure
  dsimp only
  split <;> rfl

/-- The end of a fill leaves every chamber but the filled one and the head of the queue (R108, R109). -/
theorem State.chamber_fillReached {c d : Fin 4} {s : State} (h : s.lkc.queue.head? ≠ some d) :
    (s.fillReached c).chamber d = if d = c then s.filledChamber c else s.chamber d := by
  rw [State.fillReached_eq, State.chamber_checkGrant_ne (by simpa using h), State.chamber_setChamber]

/-- The end of the only fill frees the supply for the head of the queue (R108, R109). -/
theorem State.fillReached_grants {c d : Fin 4} {rest : List (Fin 4)} {s : State} (hu : ∀ d, (s.chamber d).phase = .fill → d = c)
    (hq : s.lkc.queue = d :: rest) (hl : s.halt.leak = false) (hv : s.lkc.resetVent = .over) :
    (s.fillReached c).chamber d = ⟨.fill, some (s.chamberPlan d).fillTimeout, none, none⟩ ∧
      (s.fillReached c).lkc.queue = rest := by
  have hfree : ∀ e, ((s.setChamber c (s.filledChamber c)).chamber e).phase ≠ .fill := fun e => by
    rw [State.chamber_setChamber]
    split
    · exact s.filledChamber_not_fill c
    · next he => exact fun hf => he (hu e hf)
  rw [State.fillReached_eq]
  exact State.checkGrant_grants (s := s.setChamber c (s.filledChamber c)) (by simpa using hq) hfree hl (by simpa using hv)

/-- Without a chamber in FILL the Leak Controller has no fill to end (R109). -/
theorem State.checkFills_none {s : State} (h : ∀ d, (s.chamber d).phase ≠ .fill) : s.checkFills = s := by
  unfold State.checkFills
  rw [find_finRange_none fun d => decide_eq_false (h d)]

/-- The chamber in FILL is the one that is tested (R109). -/
theorem State.checkFills_one {c : Fin 4} {s : State} (h : (s.chamber c).phase = .fill) (hu : ∀ d, (s.chamber d).phase = .fill → d = c) :
    s.checkFills = s.checkFill c := by
  unfold State.checkFills
  rw [find_finRange_unique (decide_eq_true h) fun d hd => hu d (of_decide_eq_true hd)]

theorem State.checkFill_below {c : Fin 4} {s : State}
    (h : pressureOf c s.afe.leakRow < (s.chamberPlan c).target - (s.chamberPlan c).tolerance) : s.checkFill c = s :=
  if_neg fun ⟨_, hp⟩ => absurd hp (by omega)

theorem State.checkFill_reached {c : Fin 4} {s : State} (hf : (s.chamber c).phase = .fill)
    (h : ((s.chamberPlan c).target : Int) - (s.chamberPlan c).tolerance ≤ pressureOf c s.afe.leakRow) :
    s.checkFill c = s.fillReached c := if_pos ⟨hf, h⟩

/-- The test of a fill leaves a chamber that is not in FILL, unless it is granted the supply (R108, R109). -/
theorem State.chamber_checkFills {c : Fin 4} {s : State} (hc : (s.chamber c).phase ≠ .fill)
    (h : (∀ d, (s.chamber d).phase ≠ .fill) ∨ s.lkc.queue.head? ≠ some c) : s.checkFills.chamber c = s.chamber c := by
  rcases h with h | h
  · rw [State.checkFills_none h]
  · unfold State.checkFills
    split
    · next d hd =>
      have hdc : c ≠ d := fun e => hc (by subst e; simpa using List.find?_some hd)
      unfold State.checkFill
      dsimp only
      split
      · rw [State.chamber_fillReached h, if_neg hdc]
      · rfl
    · rfl

/-- A range fault of TLK sets the sensor flag of a measurement that the sample lies in, and touches nothing else of it (R114). -/
theorem Measure.senseFault_eq (now : CellTime) (m : Measure) : m.senseFault now = { m with
    sensor := m.sensor || (decide (0 ≤ timeDiff now m.start) && decide (timeDiff now m.start ≤ timeDiff m.stop m.start)) } := by
  unfold Measure.senseFault Measure.length
  split
  · next h => simp [h]
  · next h => simp [show (decide (0 ≤ timeDiff now m.start) && decide (timeDiff now m.start ≤ timeDiff m.stop m.start)) = false by
      simpa using h]

/-- The sensor flags are all that a range fault of TLK touches of a chamber (R114). -/
theorem State.chamber_sensed (c : Fin 4) (s : State) :
    s.sensed.chamber c = { s.chamber c with measure := (s.chamber c).measure.map fun m => { m with
      sensor := m.sensor || (s.afe.faults[9] && decide (0 ≤ timeDiff s.now m.start) &&
        decide (timeDiff s.now m.start ≤ timeDiff m.stop m.start)) } } := by
  unfold State.sensed
  cases hf : s.afe.faults[9] with
  | false => cases hm : (s.chamber c).measure <;> simp [← hm]
  | true => simp [State.chamber, State.senseFault, funext (Measure.senseFault_eq s.now)]

/-- A chamber without a measurement stands through a range fault of TLK (R114). -/
theorem State.chamber_sensed_of_none {c : Fin 4} {s : State} (h : (s.chamber c).measure = none) :
    s.sensed.chamber c = s.chamber c := by
  rw [State.chamber_sensed, h, Option.map_none, ← h]

/-- The start of a measurement lies in it (R112, R114). -/
theorem timeDiff_measure {t : CellTime} {n : Nat} (h : n < 2 ^ 31) :
    0 ≤ timeDiff t t ∧ timeDiff t t ≤ timeDiff (t + BitVec.ofNat 32 n) t := by
  have hn : (BitVec.ofNat 32 n).toInt = n := by
    rw [BitVec.toInt_eq_toNat_of_lt] <;> rw [BitVec.toNat_ofNat, Nat.mod_eq_of_lt (by omega)]
    omega
  rw [timeDiff, timeDiff, add_sub_cancel_left, sub_self, hn]
  simp

/-! ## The Leak Controller's part of the event -/

/-- A measurement that no grant ends takes the sensor flag of the sample (R114, log 28). -/
theorem State.measuring_sensed {c : Fin 4} {m : Measure} {s : State} (hc : (s.chamber c).phase = .measure)
    (hm : (s.chamber c).measure = some m) (h : (∀ d, (s.chamber d).phase ≠ .fill) ∨ s.lkc.queue.head? ≠ some c) :
    (s.checkFills.sensed.chamber c).measure = some { m with
      sensor := m.sensor || (s.afe.faults[9] && decide (0 ≤ timeDiff s.now m.start) &&
        decide (timeDiff s.now m.start ≤ timeDiff m.stop m.start)) } := by
  have hnow : s.checkFills.now = s.now := State.now_congr (by simp)
  rw [State.chamber_sensed, State.chamber_checkFills (by simp [hc]) h, hm, hnow]
  simp

/-- A fill below its target goes on (R109). -/
theorem State.filling_below {c : Fin 4} {s : State} (hc : (s.chamber c).phase = .fill)
    (hu : ∀ d, (s.chamber d).phase = .fill → d = c)
    (h : pressureOf c s.afe.leakRow < (s.chamberPlan c).target - (s.chamberPlan c).tolerance) :
    (s.checkFills.sensed.chamber c).phase = .fill ∧ (s.checkFills.sensed.chamber c).timer = (s.chamber c).timer ∧
      s.checkFills.sensed.lkc.queue = s.lkc.queue := by
  rw [State.checkFills_one hc hu, State.checkFill_below h, State.chamber_sensed]
  exact ⟨hc, rfl, by simp⟩

section
variable {c : Fin 4} {s : State} (hc : (s.chamber c).phase = .fill) (hu : ∀ d, (s.chamber d).phase = .fill → d = c)
  (hq : s.lkc.queue.head? ≠ some c)
  (h : ((s.chamberPlan c).target : Int) - (s.chamberPlan c).tolerance ≤ pressureOf c s.afe.leakRow)
include hc hu hq h

/-- A fill that has reached its target settles for its settle time (R109, R111). -/
theorem State.filling_settles (hs : 0 < settleTime (s.chamberPlan c) s.endHousing s.rs.live.tRef) :
    s.checkFills.sensed.chamber c =
      ⟨.settle, some (settleTime (s.chamberPlan c) s.endHousing s.rs.live.tRef), none, none⟩ := by
  have hfilled : (s.fillReached c).chamber c =
      ⟨.settle, some (settleTime (s.chamberPlan c) s.endHousing s.rs.live.tRef), none, none⟩ := by
    rw [State.chamber_fillReached hq, if_pos rfl, State.filledChamber]
    exact if_neg (by omega)
  rw [State.checkFills_one hc hu, State.checkFill_reached hc h, State.chamber_sensed_of_none (by rw [hfilled]), hfilled]

/-- A fill that has reached its target measures at once where its settle time is 0, and the sample is the first that can mark the
measurement (R109, R112, R114, log 28). -/
theorem State.filling_measures (hs : settleTime (s.chamberPlan c) s.endHousing s.rs.live.tRef = 0)
    (hm : (s.chamberPlan c).measure < 2 ^ 31) :
    s.checkFills.sensed.chamber c = ⟨.measure, some (s.chamberPlan c).measure, none,
      some ⟨s.now, s.now + BitVec.ofNat 32 (s.chamberPlan c).measure, false, none, none, s.afe.faults[9]⟩⟩ := by
  have hfilled : (s.fillReached c).chamber c = ⟨.measure, some (s.chamberPlan c).measure, none,
      some ⟨s.now, s.now + BitVec.ofNat 32 (s.chamberPlan c).measure, false, none, none, false⟩⟩ := by
    rw [State.chamber_fillReached hq, if_pos rfl, State.filledChamber]
    exact if_pos hs
  have hnow : (s.fillReached c).now = s.now := State.now_congr (by simp)
  obtain ⟨hstart, hstop⟩ := timeDiff_measure (t := s.now) hm
  rw [State.checkFills_one hc hu, State.checkFill_reached hc h, State.chamber_sensed, hfilled, hnow]
  simp [hstart, hstop]

omit hq in
/-- The next of the queue begins to fill when the fill before it ends (R108). -/
theorem State.filling_grants {d : Fin 4} {rest : List (Fin 4)} (hd : s.lkc.queue = d :: rest) (hl : s.halt.leak = false)
    (hv : s.lkc.resetVent = .over) :
    s.checkFills.sensed.chamber d = ⟨.fill, some (s.chamberPlan d).fillTimeout, none, none⟩ ∧
      s.checkFills.sensed.lkc.queue = rest := by
  obtain ⟨hfills, hrest⟩ := State.fillReached_grants hu hd hl hv
  rw [State.checkFills_one hc hu, State.checkFill_reached hc h, State.chamber_sensed_of_none (by rw [hfills]), hfills]
  exact ⟨rfl, by simp [hrest]⟩

end

/-! ## The event -/

theorem pressureOf_leakRow (c : Fin 4) (a : FrontEnd) :
    [a.live[5], a.live[6], a.live[7], a.live[8]].getD c.val 0 = pressureOf c a.leakRow := by fin_cases c <;> rfl

/-- Time moves the timer of a chamber, and not its phase or its measurement. -/
theorem State.chamber_elapseTo (ms : Nat) (c : Fin 4) (s : State) :
    ((s.elapseTo ms).chamber c).phase = (s.chamber c).phase ∧ ((s.elapseTo ms).chamber c).measure = (s.chamber c).measure := by
  rw [State.chamber, State.elapseTo, State.elapse_chamber]
  exact ⟨rfl, rfl⟩

/-- What the Leak Controller reads of the state is not changed by the taking of the sample, but for the time that has passed. -/
theorem State.sampledLeak_reads (x : LeakSample) (s : State) :
    let u := s.elapseTo (5 * s.afe.leakTaken)
    (s.sampledLeak x).now = u.now ∧ (s.sampledLeak x).halt = s.halt ∧ (s.sampledLeak x).rs = s.rs ∧
    (s.sampledLeak x).endHousing = s.endHousing ∧ (∀ c, (s.sampledLeak x).chamberPlan c = s.chamberPlan c) ∧
    (s.sampledLeak x).lkc.queue = s.lkc.queue ∧ (s.sampledLeak x).lkc.resetVent = s.lkc.resetVent ∧
    ∀ c, ((s.sampledLeak x).chamber c).phase = (s.chamber c).phase ∧ ((s.sampledLeak x).chamber c).measure = (s.chamber c).measure ∧
      ((s.sampledLeak x).chamber c).timer = (u.chamber c).timer := by
  intro u
  have hut : (s.sampledLeak x).ut = u.ut := by simp [State.sampledLeak, u]
  have hrs : (s.sampledLeak x).rs = u.rs := by simp [State.sampledLeak, u]
  have hlkc : (s.sampledLeak x).lkc = u.lkc := by simp [State.sampledLeak, u]
  refine ⟨State.now_congr (by simp [State.sampledLeak, u]), State.halt_congr (by simp [State.sampledLeak]), hrs, ?_,
    fun c => State.chamberPlan_congr hut hrs c, by rw [hlkc]; rfl, by rw [hlkc]; rfl, fun c => ?_⟩
  · simp only [State.endHousing, State.unit2_congr hut, hut]
    rfl
  · rw [State.chamber_congr hlkc]
    exact ⟨(s.chamber_elapseTo _ c).1, (s.chamber_elapseTo _ c).2, rfl⟩

/-- The event keeps the holding and touches no more than a taking and its halts can. -/
theorem react_takeLeak_frame (x : LeakSample) (s : State) :
    HoldingKept s (arbitrate (react s (s.takeLeak x))) ∧
    OnlyChanges [.clock, .lp, .ut, .pe, .afe, .cs, .oa, .lkc, .cu, .reports] s (arbitrate (react s (s.takeLeak x))) := by
  refine ⟨by simp [HoldingKept], by simp, fun b hb => ?_⟩
  cases b <;> simp [Part.same] at hb ⊢

/-- The live values, the range faults and the count of samples are those of the sample, whatever follows in the event. -/
theorem react_takeLeak_afe (x : LeakSample) (s : State) :
    (react s (s.takeLeak x)).afe.live = (s.sampledLeak x).afe.live ∧
    (react s (s.takeLeak x)).afe.faults = (s.sampledLeak x).afe.faults ∧
    (react s (s.takeLeak x)).afe.leakTaken = (s.sampledLeak x).afe.leakTaken := by simp [State.takeLeak_eq]

/-- SENSOR_FAULT after the sample (R128, R129). -/
theorem State.takeLeak_judges (x : LeakSample) (s : State) :
    s.takeLeak x = (s.sampledLeak x).checkFills.sensed.setSource 11 (s.sampledLeak x).afe.sensorFaulty ∧
    (s.takeLeak x).cond 11 = judged false (s.sampledLeak x).afe.sensorFaulty (s.active 11)
      (s.elapseTo (5 * s.afe.leakTaken)).now (s.cond 11) ∧
    (s.takeLeak x).cu = { s.cu with conditions := s.cu.conditions.set 11 ((s.takeLeak x).cond 11) } := by
  obtain ⟨w, hw⟩ : ∃ w, w = (s.sampledLeak x).checkFills.sensed := ⟨_, rfl⟩
  have hcu : w.cu = s.cu := by simp [hw, State.sampledLeak]
  have hnow : w.now = (s.elapseTo (5 * s.afe.leakTaken)).now := State.now_congr (by simp [hw, State.sampledLeak])
  have heq : s.takeLeak x = w.setSource 11 (s.sampledLeak x).afe.sensorFaulty := by
    rw [State.takeLeak_eq, ← hw, State.judgeSensors, show w.afe = (s.sampledLeak x).afe by simp [hw]]
  refine ⟨hw ▸ heq, ?_, ?_⟩
  · rw [heq, State.cond_setSource_judged, State.active_congr (State.cond_congr hcu 11), State.cond_congr hcu, hnow]
    rfl
  · rw [heq, State.setSource_cu, hcu]
    rfl

/-- The Leak Controller and the judgement of SENSOR_FAULT touch no other block. -/
theorem onlyChanges_leakController (b : Bool) (s : State) :
    OnlyChanges [.lp, .lkc, .cu] s (arbitrate (s.checkFills.sensed.setSource 11 b)) := by
  refine ⟨by simp, fun b hb => ?_⟩
  cases b <;> simp [Part.same] at hb ⊢

/-- Where SENSOR_FAULT has not become active, the event has no more to it than the sample, also under a standing PROFILE halt. -/
theorem react_takeLeak_quiet {x : LeakSample} {s : State} (h : s.active 11 = true ∨ (s.sampledLeak x).afe.sensorFaulty = false)
    (hh : HardWhereSevere s) : react s (s.takeLeak x) = s.takeLeak x := by
  have hactive : ∀ m, (s.sampledLeak x).checkFills.sensed.active m = s.active m :=
    fun m => State.active_congr (State.cond_congr (by simp [State.sampledLeak]) m)
  refine react_standing (fun n hn => ?_) (by simp) (by simp) hh
  rw [(s.takeLeak_judges x).1] at hn
  rw [← hactive n]
  exact State.active_of_setSource (by rwa [hactive]) hn

/-- Settles O38: the sample is taken, the Leak Controller reads it, and SENSOR_FAULT is judged, with the taking check where it became
active. -/
theorem leakSampleBecomesLiveAndEndsAFill : Obligations.LeakSampleBecomesLiveAndEndsAFill := by
  refine ⟨fun p tRef => ⟨fun hk housing => settleTime_circuit hk housing tRef, fun hk => ⟨fun hle => ?_, fun e => ?_⟩⟩, ?_⟩
  · simp [settleTime_excess hk, hle]
  · rw [settleTime_excess hk]
    push_cast
    simp [max_comm]
  intro x s i u
  obtain ⟨hholding, hchanges⟩ := react_takeLeak_frame x s
  obtain ⟨hlive, hfaults, htaken⟩ := react_takeLeak_afe x s
  obtain ⟨htake, hcond, hcu⟩ := s.takeLeak_judges x
  obtain ⟨hsampled, hcount⟩ := s.sampledLeak_frame x
  have hclock : (s.takeLeak x).clockUs = u.clockUs := by simp [State.takeLeak_eq, State.sampledLeak, u, i]
  have hcond' : (arbitrate (react s (s.takeLeak x))).cond 11 = (s.takeLeak x).cond 11 := by
    rw [cond_arbitrate, cond_react _ _ (by unfold NotStarvation; decide) (by decide)]
  have hsource : ((s.takeLeak x).cond 11).source = (s.sampledLeak x).afe.sensorFaulty := by rw [hcond]; rfl
  rw [exec_leakSample_eq]
  refine ⟨_, rfl, hholding, by simpa using hclock, hchanges, ?_, fun c hc => ?_, fun c hc => ?_, ?_, ⟨?_, fun hs hv => ?_⟩,
    fun hquiet hh => ?_⟩
  · simp only [arbitrate_frame, htaken, hcount]; rfl
  · simp only [arbitrate_frame, hlive, hfaults]
    exact (s.sampledLeak_channels x c).1 hc
  · simp only [arbitrate_frame, hlive, hfaults]
    exact (s.sampledLeak_channels x c).2 hc
  · simp only [hcond', hsource, arbitrate_frame, hfaults]
    rfl
  · rw [hcond', hsource]
    exact hcond
  · have hrecord : judged false ((arbitrate (react s (s.takeLeak x))).cond 11).source (s.active 11) u.now (s.cond 11) =
        (s.takeLeak x).cond 11 := by rw [hcond', hsource]; exact hcond.symm
    have hcuv : (u.setCu { s.cu with conditions := s.cu.conditions.set 11 ((s.takeLeak x).cond 11) }).cu = (s.takeLeak x).cu :=
      hcu.symm
    rw [hrecord] at hv ⊢
    have hactive : (s.takeLeak x).active 11 = true := (State.active_congr (State.cond_congr hcuv 11)).symm.trans hv
    exact (takingCheckMade_react 11 hs hactive).congr hcuv hclock.symm (by simp) (by simp)
  · rw [hcond', hsource] at hquiet
    rw [react_takeLeak_quiet hquiet hh, htake]
    obtain ⟨hnow, hhalt, hrs, hhousing, hplan, hqueue, hvent, hchamber⟩ := s.sampledLeak_reads x
    have hparts := onlyChanges_leakController (s.sampledLeak x).afe.sensorFaulty (s.sampledLeak x)
    generalize s.sampledLeak x = v at *
    have hcs : ∀ c, (arbitrate (v.checkFills.sensed.setSource 11 v.afe.sensorFaulty)).chamber c = v.checkFills.sensed.chamber c :=
      fun c => State.chamber_congr (by simp) c
    have hqueue' : (arbitrate (v.checkFills.sensed.setSource 11 v.afe.sensorFaulty)).lkc.queue = v.checkFills.sensed.lkc.queue := by
      simp
    have hafe : (arbitrate (v.checkFills.sensed.setSource 11 v.afe.sensorFaulty)).afe = v.afe := by simp
    have hfill : ∀ d, (v.chamber d).phase = (s.chamber d).phase := fun d => (hchamber d).1
    have hstack : (arbitrate (v.checkFills.sensed.setSource 11 v.afe.sensorFaulty)).cu.stack = s.cu.stack := by
      have := hsampled.2 .cu (by decide)
      simp [show v.cu = u.cu from this, u]
    simp only [hcs, hqueue', hafe, hstack, pressureOf_leakRow]
    simp only [← hfill, ← hqueue, ← hvent, ← hhalt, ← hplan, ← hhousing, ← hrs, ← (hchamber _).2.1, show u.now = v.now from hnow.symm]
    refine ⟨trivial, (hsampled.trans hparts).mono (by decide), fun c hc m hm hfree => State.measuring_sensed hc hm hfree,
      fun c hc hu hq => ⟨fun hlow => ?_, fun hhigh => ⟨fun hs => State.filling_settles hc hu hq hhigh hs,
      fun hs hm => State.filling_measures hc hu hq hhigh hs hm, fun d rest hd hl hv => State.filling_grants hc hu hhigh hd hl hv⟩⟩⟩
    obtain ⟨hphase, htimer, hrest⟩ := State.filling_below hc hu hlow
    exact ⟨hphase, htimer.trans (hchamber c).2.2, hrest⟩

end Sys2Proof.Machine
end

