-- ==== Sys2Proof/Proofs/Starvation.lean ====
section
/-! What stands of a starvation through the end of its event: the latch, the STREAM notice, and the stream itself, until a halt ends
capture (R74, R76, R82, R129, R135). -/

namespace Sys2Proof.Machine

/-! ## Notices (R165) -/

theorem mem_putNotice_self (m : Notice) (ns : List Notice) : m ∈ putNotice m ns := by
  induction ns with
  | nil => simp [putNotice]
  | cons n ns ih =>
    unfold putNotice
    split
    · exact List.mem_cons_self ..
    · exact List.mem_cons_of_mem _ ih

/-- A pending notice stands when another key is raised. -/
theorem mem_putNotice_of_ne {m n : Notice} {ns : List Notice} (hn : n ∈ ns) (hk : n.key ≠ m.key) : n ∈ putNotice m ns := by
  induction ns with
  | nil => cases hn
  | cons k ns ih =>
    unfold putNotice
    rcases List.mem_cons.1 hn with rfl | hn
    · rw [if_neg hk]
      exact List.mem_cons_self ..
    · split
      · exact List.mem_cons_of_mem _ hn
      · exact List.mem_cons_of_mem _ (ih hn)

/-- The arbiter leaves a pending notice or sends it (R166). -/
theorem announced_arbitrate {n : Notice} {s : State} (h : n ∈ s.lp.notices) : Announced n (arbitrate s) := by
  unfold arbitrate
  split
  · exact .inl h
  · next m ns _ _ hns =>
    rw [hns] at h
    rcases List.mem_cons.1 h with rfl | h
    · exact .inr rfl
    · exact .inl h
  · exact .inl h

/-- The arbiter takes at most one notice from the pending set (R166). -/
theorem arbitrate_notices_length (s : State) : (arbitrate s).lp.notices.length ≤ s.lp.notices.length := by
  unfold arbitrate
  split
  · exact le_refl _
  · next hns => simp [hns]
  · exact le_refl _

/-! ## The streams that an operation does not speak of -/

theorem State.stream_setStream (st st' : StreamId) (x : Stream) (s : State) :
    (s.setStream st x).stream st' = if st' = st then x else s.stream st' := by cases st <;> cases st' <;> rfl

theorem State.stream_congr {s t : State} (h : t.cs = s.cs) (st : StreamId) : t.stream st = s.stream st := by simp [State.stream, h]

theorem State.stream_enterWanted_ne {st st' : StreamId} (h : st' ≠ st) (s : State) : (s.enterWanted st).stream st' = s.stream st' := by
  have entered : ∀ x, (s.enterStream st x).stream st' = s.stream st' := fun x => by rw [State.stream_enterStream, if_neg h]
  unfold State.enterWanted
  dsimp only
  split
  · exact (State.stream_congr (s := s.enterStream st (s.wantedState st)) (by simp) st').trans (entered _)
  · exact entered _

theorem State.stream_applyPlan_ne {st st' : StreamId} (h : st' ≠ st) (p : Plan) (s : State) :
    (s.applyPlan st p).stream st' = s.stream st' := by
  rw [State.applyPlan, State.stream_enterWanted_ne h, State.stream_setStream, if_neg h]

theorem State.stream_setTarget_ne {st st' : StreamId} (h : st' ≠ st) (p : Plan) (s : State) :
    (s.setTarget st p).stream st' = s.stream st' := by
  unfold State.setTarget
  dsimp only
  split
  · split
    · rw [State.stream_enterWanted_ne h, State.stream_setStream, if_neg h]
    · rfl
  · split
    · exact State.stream_applyPlan_ne h p s
    · rw [State.stream_enterStream, if_neg h, State.stream_setStream, if_neg h]

theorem State.stream_checkPlan_ne {st st' : StreamId} (h : st' ≠ st) (s : State) : (s.checkPlan st).stream st' = s.stream st' := by
  unfold State.checkPlan
  split
  · split
    · exact State.stream_applyPlan_ne h _ s
    · rfl
  · rfl

/-- A stream whose plan does not wait stands through the check of the waiting plans (R80). -/
theorem State.stream_checkPlan_of_not_waiting {st : StreamId} (st' : StreamId) {s : State} (h : (s.stream st).state ≠ .pendingPlan) :
    (s.checkPlan st').stream st = s.stream st := by
  by_cases he : st = st'
  · rw [← he, State.checkPlan_of_not_waiting h]
  · exact State.stream_checkPlan_ne he s

theorem State.stream_checkPlans_of_not_waiting {st : StreamId} {s : State} (h : (s.stream st).state ≠ .pendingPlan) :
    s.checkPlans.stream st = s.stream st := by
  have h1 := State.stream_checkPlan_of_not_waiting .vib h
  have h2 := State.stream_checkPlan_of_not_waiting .slow (h1.symm ▸ h)
  have h3 := State.stream_checkPlan_of_not_waiting .leak ((h2.trans h1).symm ▸ h)
  exact h3.trans (h2.trans h1)

/-! ## When capture of a time-slot stream is wanted (R74) -/

/-- Some unit is in a state: by what the records show of their states. -/
theorem State.anyUnit_congr {u : UnitState} {s t : State} (h : RecordsKeep (fun r => decide (r.state = u)) s t) :
    t.anyUnit u = s.anyUnit u := congrArg Option.isSome h.find

/-- Capture of a time-slot stream is wanted by the states of the units alone. -/
theorem State.wanted_congr {st : StreamId} {s t : State} (hst : st ≠ .vib) (h : RecordsKeep UnitRecord.state s t) :
    t.wanted st = s.wanted st := by
  cases st with
  | vib => exact absurd rfl hst
  | slow => exact State.anyUnit_congr (h.comp fun u => decide (u = UnitState.running))
  | leak => exact State.anyUnit_congr (h.comp fun u => decide (u = UnitState.leaking))

/-- A record that a search has found moves between two states, neither of which is `u`. -/
theorem State.anyUnit_enterState {u v w : UnitState} {i : Fin 8} {s : State} (hi : s.ut.find (fun x => decide (x = v)) = some i)
    (hv : v ≠ u) (hw : w ≠ u) : (s.enterState i w).anyUnit u = s.anyUnit u := by
  obtain ⟨r, hr, hstate⟩ := UnitTable.find_some hi
  have hstate : r.state = v := by simpa using hstate
  refine State.anyUnit_congr ((RecordsKeep.mapUnit i (g := fun r => { r with state := w }) fun r' hr' => ?_).then_same (by simp))
  obtain rfl : r = r' := by simpa [hr] using hr'
  simp [hstate, hv, hw]

/-- With station 2 free no unit is LEAKING (R5). -/
theorem State.noneLeaking_of_unit2 {s : State} (h : s.unit2 = none) : s.anyUnit .leaking = false := by
  have hfind : s.ut.find (fun v => decide (v = UnitState.leaking)) = none := by
    refine UnitTable.find_none fun j r hj => ?_
    have := UnitTable.find_eq_none h j r hj
    cases hs : r.state <;> simp_all [UnitState.atStation2]
  simp [State.anyUnit, hfind]

/-- A unit that leaves RUNNING can only end the wish for SLOW capture (R74). -/
theorem State.anyUnit_of_enterState {u w : UnitState} {i : Fin 8} {s : State} (hw : w ≠ u)
    (h : (s.enterState i w).anyUnit u = true) : s.anyUnit u = true := by
  obtain ⟨j, hj⟩ := Option.isSome_iff_exists.1 h
  obtain ⟨r, hr, hstate⟩ := UnitTable.find_some hj
  rw [State.enterState_ut, State.records_mapUnit] at hr
  split at hr
  · next he =>
    obtain ⟨r', -, rfl⟩ := Option.map_eq_some_iff.1 hr
    exact absurd (by simpa using hstate) hw
  · cases hf : s.ut.find (fun v => decide (v = u)) with
    | none => exact absurd (UnitTable.find_eq_none hf j r hr) (by simpa using hstate)
    | some k => simp [State.anyUnit, hf]

/-! ## A starving stream -/

/-- Stream `st`, which starved as `y`, is STARVED while capture is wanted for it and IDLE once it is not (R74, R76); for LEAK capture is
still wanted. -/
def Starving (st : StreamId) (y : Stream) (s : State) : Prop :=
  s.stream st = { y with state := if s.wanted st then .starved else .idle } ∧ (st = .leak → s.wanted .leak = true)

theorem Starving.not_waiting {st : StreamId} {y : Stream} {s : State} (h : Starving st y s) :
    (s.stream st).state ≠ .pendingPlan := by
  rw [h.1]
  dsimp only
  split <;> simp

theorem Starving.congr {st : StreamId} {y : Stream} {s t : State} (h : Starving st y s) (hs : t.stream st = s.stream st)
    (hw : t.wanted st = s.wanted st) : Starving st y t := by
  refine ⟨by rw [hs, hw]; exact h.1, fun hl => ?_⟩
  subst hl
  exact hw.trans (h.2 rfl)

/-- A STARVED stream, after the check of what is wanted (R74, R76). -/
theorem State.syncStreams_starved {st : StreamId} {y : Stream} {s : State} (hst : st ≠ .vib)
    (h : s.stream st = { y with state := .starved }) (hl : st = .leak → s.wanted .leak = true) : Starving st y s.syncStreams := by
  have hw : ∀ st' : StreamId, ∀ t : State, (t.syncStream st').wanted st = t.wanted st := fun _ _ =>
    State.wanted_congr hst (RecordsKeep.of_ut (by simp))
  have hself : ∀ t : State, t.stream st = { y with state := .starved } →
      (t.syncStream st).stream st = { y with state := if t.wanted st then .starved else .idle } := fun t ht => by
    unfold State.syncStream
    cases hwt : t.wanted st <;> simp [ht, State.stream_enterStream]
  have hvib : (s.syncStream .vib).stream st = { y with state := .starved } := (State.stream_syncStream_ne hst s).trans h
  have hsync : s.syncStreams = (((s.syncStream .vib).syncStream .slow).syncStream .leak) := rfl
  refine ⟨?_, fun he => ?_⟩
  · cases st with
    | vib => exact absurd rfl hst
    | slow => rw [hsync, hw, hw, State.stream_syncStream_ne (by simp), hself _ hvib, hw]
    | leak => rw [hsync, hself _ ((State.stream_syncStream_ne (by simp) _).trans hvib), hw, hw, hw, hw, hw]
  · subst he
    rw [hsync, hw, hw, hw]
    exact hl rfl

/-- Every member of `a` is one of `b` (R135). -/
def StopSet.Within (a b : StopSet) : Prop :=
  (a.profile = true → b.profile = true) ∧ (a.noise = true → b.noise = true) ∧ (a.leak = true → b.leak = true) ∧
  (a.transfer = true → b.transfer = true)

theorem StopSet.within_refl (a : StopSet) : a.Within a := ⟨id, id, id, id⟩

theorem StopSet.within_union (a b : StopSet) : b.Within (a.union b) := by
  simp +contextual [StopSet.Within, StopSet.union]

/-- Between `s` and `t` no notice has been raised, and no latch or last active time has moved but that of DRIVE_FAULT. -/
def Unannounced (s t : State) : Prop :=
  t.lp = s.lp ∧ ∀ n, n ≠ 4 → (t.cond n).latch = (s.cond n).latch ∧ (t.cond n).lastActive = (s.cond n).lastActive

namespace Unannounced

variable {s t u : State}

theorem of_cu (hl : t.lp = s.lp) (hc : t.cu = s.cu) : Unannounced s t :=
  ⟨hl, fun n _ => by rw [State.cond_congr hc]; exact ⟨rfl, rfl⟩⟩

theorem refl (s : State) : Unannounced s s := of_cu rfl rfl

theorem trans (h : Unannounced s t) (h' : Unannounced t u) : Unannounced s u :=
  ⟨h'.1.trans h.1, fun n hn => ⟨(h'.2 n hn).1.trans (h.2 n hn).1, (h'.2 n hn).2.trans (h.2 n hn).2⟩⟩

/-- A source that is judged not asserted leaves every latch (R129). -/
theorem setSource_false (n : Fin 20) (s : State) : Unannounced s (s.setSource n false) := by
  refine ⟨by simp, fun m _ => ?_⟩
  by_cases h : m = n
  · subst h
    rw [State.cond_setSource_judged]
    simp [judged]
  · simp [h]

/-- A judgement of DRIVE_FAULT (R128). -/
theorem setSource_drive (b : Bool) (s : State) : Unannounced s (s.setSource 4 b) := ⟨by simp, fun m hm => by simp [hm]⟩

/-- A stream that does not starve (R74, R79). -/
theorem enterStream (st : StreamId) {x : StreamState} (hx : x ≠ .starved) (s : State) : Unannounced s (s.enterStream st x) := by
  have placed : Unannounced s (s.setStream st { s.stream st with state := x }) := of_cu (by simp) (by simp)
  unfold State.enterStream
  dsimp only
  rw [if_neg hx]
  split
  · exact placed.trans (setSource_false _ _)
  · exact placed

theorem syncStream (st : StreamId) (s : State) : Unannounced s (s.syncStream st) := by
  unfold State.syncStream
  split
  · exact enterStream st (by simp) s
  · exact enterStream st (by simp) s
  · exact enterStream st (by simp) s
  · exact refl s

/-- Only a stream that leaves STARVED for RUNNING announces that it is as capture is wanted (R79, R82). -/
theorem enterWanted {st : StreamId} {s : State} (h : (s.stream st).state ≠ .starved ∨ s.wanted st = false) :
    Unannounced s (s.enterWanted st) := by
  unfold State.enterWanted
  dsimp only
  rw [if_neg fun ⟨hs, hw⟩ => h.elim (fun h => h hs) fun h => by simp [h] at hw]
  exact enterStream st (NoneActivated.wantedState_ne_starved st s) s

theorem applyPlan {st : StreamId} {s : State} (p : Plan) (h : (s.stream st).state ≠ .starved ∨ s.wanted st = false) :
    Unannounced s (s.applyPlan st p) := by
  refine (of_cu (by simp) (by simp) : Unannounced s (s.setStream st _)).trans (enterWanted ?_)
  rw [State.stream_setStream, if_pos rfl]
  exact h.imp_right fun hw => by cases st <;> exact hw

/-- A waiting plan that is applied starts or ends no starvation (R80). -/
theorem checkPlan (st : StreamId) (s : State) : Unannounced s (s.checkPlan st) := by
  unfold State.checkPlan
  split
  · next hs _ =>
    split
    · exact applyPlan _ (.inl (by simp [hs]))
    · exact refl s
  · exact refl s

theorem checkPlans (s : State) : Unannounced s s.checkPlans :=
  ((checkPlan .vib s).trans (checkPlan .slow _)).trans (checkPlan .leak _)

/-- A new target for a stream for which no capture is wanted (R79). -/
theorem setTarget {st : StreamId} {s : State} (p : Plan) (h : s.wanted st = false) : Unannounced s (s.setTarget st p) := by
  unfold State.setTarget
  dsimp only
  split
  · split
    · refine (of_cu (by simp) (by simp) : Unannounced s (s.setStream st _)).trans (enterWanted (.inr ?_))
      cases st <;> exact h
    · exact refl s
  · split
    · exact applyPlan p (.inr h)
    · exact (of_cu (by simp) (by simp) : Unannounced s (s.setStream st _)).trans (enterStream st (by simp) _)

end Unannounced

/-- What the end of an event keeps of a starvation: the latch and the last active time of every condition but DRIVE_FAULT, the STREAM
notices, and each starving stream. -/
structure StarvationKept (s t : State) : Prop where
  latch : ∀ n, n ≠ 4 → (t.cond n).latch = (s.cond n).latch ∧ (t.cond n).lastActive = (s.cond n).lastActive
  notices : ∀ (st : StreamId) (n : Notice), n.key = .stream st → n ∈ s.lp.notices → n ∈ t.lp.notices
  streams : ∀ (st : StreamId) (y : Stream), st ≠ .vib → Starving st y s → Starving st y t

theorem Unannounced.starvationKept {s t : State} (h : Unannounced s t)
    (hs : ∀ (st : StreamId) (y : Stream), st ≠ .vib → Starving st y s → Starving st y t) : StarvationKept s t :=
  ⟨h.2, fun _ _ _ hn => by rwa [h.1], hs⟩

namespace StarvationKept

variable {s t u : State}

theorem refl (s : State) : StarvationKept s s := ⟨fun _ _ => ⟨rfl, rfl⟩, fun _ _ _ h => h, fun _ _ _ h => h⟩

theorem trans (h : StarvationKept s t) (h' : StarvationKept t u) : StarvationKept s u where
  latch n hn := ⟨(h'.latch n hn).1.trans (h.latch n hn).1, (h'.latch n hn).2.trans (h.latch n hn).2⟩
  notices st n hk hn := h'.notices st n hk (h.notices st n hk hn)
  streams st y hst hy := h'.streams st y hst (h.streams st y hst hy)

/-- An operation that leaves the Condition Unit, the Capture Store, the notices and the states of the units. -/
theorem of_states (hc : t.cu = s.cu) (hs : t.cs = s.cs) (hl : t.lp.notices = s.lp.notices)
    (hu : RecordsKeep UnitRecord.state s t) : StarvationKept s t where
  latch n _ := by rw [State.cond_congr hc]; exact ⟨rfl, rfl⟩
  notices _ _ _ h := by rwa [hl]
  streams st y hst hy := hy.congr (State.stream_congr hs st) (State.wanted_congr hst hu)

/-- An operation that leaves the Unit Table as well. -/
theorem of_same (hc : t.cu = s.cu) (hs : t.cs = s.cs) (hl : t.lp.notices = s.lp.notices) (hu : t.ut = s.ut) : StarvationKept s t :=
  of_states hc hs hl (RecordsKeep.of_ut hu)

/-- An operation that announces nothing and leaves the time-slot streams and the Unit Table. -/
theorem of_unannounced (h : Unannounced s t) (hs : ∀ st, st ≠ .vib → t.stream st = s.stream st) (hu : t.ut = s.ut) :
    StarvationKept s t :=
  h.starvationKept fun st _ hst hy => hy.congr (hs st hst) (State.wanted_congr hst (RecordsKeep.of_ut hu))

/-- A notice of another key leaves the STREAM notices (R165). -/
theorem raise {key : NoticeKey} (hk : ∀ st, key ≠ .stream st) (content : NoticeContent) (s : State) :
    StarvationKept s (s.raise key content) where
  latch n _ := by simp
  notices st n hn hmem := mem_putNotice_of_ne hmem (by rw [hn]; exact fun h => hk st h.symm)
  streams st y hst hy := hy.congr (State.stream_congr (by simp) st) (State.wanted_congr hst (RecordsKeep.of_ut (by simp)))

theorem unitNotice (i : Fin 8) (s : State) : StarvationKept s (s.unitNotice i) := by
  unfold State.unitNotice
  split
  · exact raise (by simp) _ s
  · exact refl s

theorem condNotice (n : Fin 20) (s : State) : StarvationKept s (s.condNotice n) := raise (by simp) _ s

/-! ### Streams and plans (R74, R80) -/

/-- A starving stream stands as capture is wanted for it, so the check of what is wanted leaves it (R74). -/
theorem syncStream (st : StreamId) (s : State) : StarvationKept s (s.syncStream st) := by
  refine (Unannounced.syncStream st s).starvationKept fun st' y hst hy => ?_
  by_cases he : st' = st
  · subst he
    have hself : s.syncStream st' = s := by
      unfold State.syncStream
      rw [hy.1]
      cases s.wanted st' <;> rfl
    rwa [hself]
  · exact hy.congr (State.stream_syncStream_ne he s) (State.wanted_congr hst (RecordsKeep.of_ut (by simp)))

theorem syncStreams (s : State) : StarvationKept s s.syncStreams :=
  ((syncStream .vib s).trans (syncStream .slow _)).trans (syncStream .leak _)

/-- A starving stream has no plan that waits (R80). -/
theorem checkPlans (s : State) : StarvationKept s s.checkPlans :=
  (Unannounced.checkPlans s).starvationKept fun _ _ hst hy =>
    hy.congr (State.stream_checkPlans_of_not_waiting hy.not_waiting) (State.wanted_congr hst (RecordsKeep.of_ut (by simp)))

theorem releaseVib (d : Fin 32) (s : State) : StarvationKept s (s.releaseVib d) := by
  have freed : StarvationKept s (s.setCs { s.cs with
      vib := s.cs.vib.returnBlocks (s.cs.vibDescs[d]).fromRes (s.cs.vibDescs[d]).fromPool
      vibDescs := s.cs.vibDescs.set d .vacant }) := by
    refine of_unannounced (Unannounced.of_cu rfl rfl) (fun st hst => ?_) rfl
    cases st with
    | vib => exact absurd rfl hst
    | slow | leak => rfl
  exact freed.trans (checkPlans _)

theorem abandonFor (n : Nat) (s : State) : StarvationKept s (s.abandonFor n) := by
  unfold State.abandonFor State.abandonOpen
  split
  · next d hd =>
    split
    · exact (of_same rfl rfl rfl rfl : StarvationKept s (s.setAfe { s.afe with openVib := none })).trans (releaseVib d _)
    · exact refl s
  · exact refl s

/-! ### Windows (R62, R87, R88, R99) -/

theorem pauseWindow (n : Nat) (s : State) : StarvationKept s (s.pauseWindow n) :=
  (of_same (by simp) (by simp) (by simp) (by simp) : StarvationKept s (s.mapWindow n _)).trans (syncStreams _)

theorem closeTable (s : State) : StarvationKept s s.closeTable :=
  of_states (by simp) (by simp) (by simp) (RecordsKeep.closeTable (fun _ _ => rfl) s)

theorem gradeWindow (n : Nat) (s : State) : StarvationKept s (s.gradeWindow n) :=
  of_states (by simp) (by simp) (by simp) (RecordsKeep.gradeWindow (fun _ _ => rfl) n s)

theorem closeWindow (n : Nat) (s : State) : StarvationKept s (s.closeWindow n) := by
  have graded : StarvationKept s ((s.abandonFor n).gradeWindow n).syncStreams :=
    ((abandonFor n s).trans (gradeWindow n _)).trans (syncStreams _)
  have closing : StarvationKept s ((s.abandonFor n).mapWindow n fun w => { w with state := .closing }).syncStreams :=
    ((abandonFor n s).trans (of_same (by simp) (by simp) (by simp) (by simp))).trans (syncStreams _)
  cases hw : s.oa.window n with
  | none => rw [State.closeWindow_absent hw]; exact refl s
  | some w =>
    rcases State.closeWindow_found hw with ⟨-, -, h⟩ | ⟨-, -, h⟩ | ⟨-, -, h⟩ <;> rw [h]
    · exact graded
    · exact closing
    · exact refl s

theorem closeAll (s : State) : StarvationKept s s.closeAll := by
  unfold State.closeAll
  generalize s.oa.windows.map Window.number = ns
  induction ns generalizing s with
  | nil => exact refl s
  | cons n ns ih => exact (closeWindow n s).trans (ih _)

theorem closeWindows (s : State) : StarvationKept s s.closeWindows := by
  unfold State.closeWindows
  split
  · exact closeTable s
  · exact closeAll s

/-! ### Units (R11, R12) -/

/-- A transfer starts only with station 2 free, when no capture is wanted for LEAK (R5, R12, R74). -/
theorem checkTransfer (s : State) : StarvationKept s s.checkTransfer := by
  unfold State.checkTransfer
  split
  · next i hi =>
    split
    · next hstart =>
      obtain ⟨m, hm⟩ : ∃ m, m = s.runConveyor.enterState i .inTransfer := ⟨_, rfl⟩
      have hany : ∀ u, UnitState.runDone ≠ u → UnitState.inTransfer ≠ u → m.anyUnit u = s.anyUnit u := fun u hv hw =>
        hm ▸ State.anyUnit_enterState (s := s.runConveyor) hi hv hw
      have hnone : s.anyUnit .leaking = false := State.noneLeaking_of_unit2 (by simpa using hstart.1)
      have hleak : m.wanted .leak = false := (hany .leaking (by simp) (by simp)).trans hnone
      have hslow : m.wanted .slow = s.wanted .slow := hany .running (by simp) (by simp)
      have hmoved : StarvationKept s m := by
        have hshown := (unitNotice i (s.runConveyor.mapUnit i fun r => { r with state := .inTransfer }))
        refine ⟨fun n hn => ?_, fun st n hk hmem => ?_, fun st y hst hy => ?_⟩
        · rw [hm]; simp
        · rw [hm]; exact hshown.notices st n hk (by simpa using hmem)
        · cases st with
          | vib => exact absurd rfl hst
          | slow => exact hy.congr (State.stream_congr (by simp [hm]) _) hslow
          | leak => exact absurd (hnone.symm.trans (hy.2 rfl)) (by simp)
      rw [← hm]
      dsimp only
      split
      · next r _ =>
        refine hmoved.trans ((Unannounced.setTarget _ hleak).starvationKept fun st y hst hy => ?_)
        cases st with
        | vib => exact absurd rfl hst
        | slow => exact hy.congr (State.stream_setTarget_ne (by simp) _ _) (State.wanted_congr hst (RecordsKeep.of_ut (by simp)))
        | leak => exact absurd (hleak.symm.trans (hy.2 rfl)) (by simp)
      · exact hmoved
    · exact refl s
  · exact refl s

/-- A unit ends its run-in: its SLOW stream, which starved, is IDLE once no unit runs (R74, R99). -/
theorem endRun {i : Fin 8} (hi : s.ut.find (fun u => decide (u = UnitState.running)) = some i) :
    StarvationKept s (s.enterState i .runDone).syncStreams := by
  obtain ⟨m, hm⟩ : ∃ m, m = s.enterState i .runDone := ⟨_, rfl⟩
  have hlatch : ∀ n, m.cond n = s.cond n := fun n => State.cond_congr (by rw [hm]; simp) n
  have hnotices : ∀ (st : StreamId) (n : Notice), n.key = .stream st → n ∈ s.lp.notices → n ∈ m.lp.notices := fun st n hk hmem =>
    hm ▸ (unitNotice i (s.mapUnit i fun r => { r with state := .runDone })).notices st n hk (by simpa using hmem)
  have hstream : ∀ st, m.stream st = s.stream st := fun st => State.stream_congr (by simp [hm]) st
  have hleak : m.wanted .leak = s.wanted .leak :=
    hm ▸ State.anyUnit_enterState (u := UnitState.leaking) hi (by simp) (by simp)
  have hran : s.wanted .slow = true := by simp [State.wanted, State.anyUnit, hi]
  have synced := syncStreams m
  rw [← hm]
  refine ⟨fun n hn => ?_, fun st n hk hmem => synced.notices st n hk (hnotices st n hk hmem), fun st y hst hy => ?_⟩
  · rw [← hlatch n]
    exact synced.latch n hn
  · cases st with
    | vib => exact absurd rfl hst
    | slow =>
      refine State.syncStreams_starved hst ?_ (by simp)
      rw [hstream, hy.1, hran]
      rfl
    | leak => exact synced.streams .leak y hst (hy.congr (hstream _) hleak)

theorem disarmSilence (s : State) : StarvationKept s s.disarmSilence := by
  unfold State.disarmSilence
  split
  · exact refl s
  · exact of_same rfl rfl rfl rfl

theorem checkRunDone (s : State) : StarvationKept s s.checkRunDone := by
  unfold State.checkRunDone
  split
  · exact refl s
  · next i hi =>
    split
    · exact refl s
    · split
      · exact ((endRun hi).trans (disarmSilence _)).trans (checkTransfer _)
      · exact refl s

/-! ### The Profile Engine under a halt (R56, R57, R62) -/

/-- The judgement of the drive that goes with the enable is of DRIVE_FAULT alone (R45, R128). -/
theorem setEnable (b : Bool) (s : State) : StarvationKept s (s.setEnable b) := by
  unfold State.setEnable
  split
  · exact refl s
  · exact (of_same rfl rfl rfl rfl : StarvationKept s (s.setPe _)).trans
      (of_unannounced (Unannounced.setSource_drive _ _) (fun st _ => State.stream_congr (by simp) st) (by simp))

theorem setPe (p : ProfileEngine) (s : State) : StarvationKept s (s.setPe p) := of_same rfl rfl rfl rfl

theorem mapRunIn (g : RunIn → RunIn) (s : State) : StarvationKept s (s.mapRunIn g) := by
  refine of_states (by simp) (by simp) (by simp) ?_
  unfold State.mapRunIn
  split
  · exact RecordsKeep.mapUnit _ fun _ _ => rfl
  · exact RecordsKeep.of_ut rfl

theorem profileEnd (cause : StopCause) (s : State) : StarvationKept s (s.profileEnd cause) :=
  (((((setEnable false s).trans (setPe _ _)).trans (mapRunIn _ _)).trans (closeWindows _)).trans (setPe _ _)).trans (checkRunDone _)

theorem hardCheck (s : State) : StarvationKept s s.hardCheck := by
  unfold State.hardCheck
  split
  · have stopped : ∀ p, StarvationKept s ((s.setEnable false).setPe p) := fun p => (setEnable false s).trans (setPe p _)
    dsimp only
    split
    · exact (stopped _).trans (profileEnd _ _)
    · exact stopped _
  · exact refl s

theorem pauseStep (s : State) : StarvationKept s s.pauseStep := by
  unfold State.pauseStep
  dsimp only
  split
  · split
    · exact setPe _ s
    · exact (setPe _ s).trans (pauseWindow _ _)
  · exact setPe _ s

theorem profileHalted (s : State) : StarvationKept s s.profileHalted := by
  refine StarvationKept.trans (StarvationKept.trans ?_ (setPe _ _)) (hardCheck _)
  split
  · refine StarvationKept.trans ((pauseStep s).trans ?_) (setPe _ _)
    split
    · exact setPe _ _
    · exact refl _
  · exact setPe _ s
  all_goals exact refl s

theorem noisePause (s : State) : StarvationKept s s.noisePause := by
  unfold State.noisePause
  split
  · split
    · exact (setPe _ s).trans (pauseWindow _ _)
    · exact refl s
  · exact refl s

/-! ### The end of the event (R133, R135) -/

/-- Where members only enter the halt set, the blocks keep a starvation as they are told of it (R135). -/
theorem applyHalts {was : StopSet} {s : State} (h : was.Within s.halt) : StarvationKept s (s.applyHalts was) := by
  obtain ⟨hp, hn, hl, ht⟩ := h
  have profile : StarvationKept s (s.applyProfileHalt was) := by
    unfold State.applyProfileHalt
    split
    · exact profileHalted s
    · exact hardCheck s
    · simp_all
    · exact refl s
  have noise : ∀ {t : State}, t.halt = s.halt → StarvationKept t (t.applyNoiseHalt was) := fun {t} hh => by
    unfold State.applyNoiseHalt
    split
    · exact (noisePause t).trans (syncStreams _)
    · simp_all
    · exact refl t
  have leak : ∀ {t : State}, t.halt = s.halt → StarvationKept t (t.applyLeakHalt was) := fun {t} hh => by
    unfold State.applyLeakHalt
    split
    · exact of_same (by simp) (by simp) (by simp) (by simp)
    · simp_all
    · exact refl t
  have transfer : ∀ {t : State}, t.halt = s.halt → StarvationKept t (t.applyTransferHalt was) := fun {t} hh => by
    unfold State.applyTransferHalt
    split
    · split
      · exact of_states rfl rfl rfl fun _ => rfl
      · exact refl t
    · simp_all
    · exact refl t
  have kept : ∀ {t : State}, t.cu.stack = s.cu.stack → t.halt = s.halt := State.halt_congr
  exact ((profile.trans (noise (kept (by simp)))).trans (leak (kept (by simp)))).trans (transfer (kept (by simp)))

theorem take (n : Fin 20) (s : State) : StarvationKept s (s.take n) where
  latch m _ := by simp
  notices _ _ _ hn := hn
  streams st y hst hy := by
    refine hy.congr rfl (State.wanted_congr hst fun j => ?_)
    have hj : (s.take n).ut.records[j] = (s.ut.records[j]).map fun r => if r.state.working then r.interrupt n else r := by
      simp [State.take, State.interruptUnits]
    rw [hj]
    cases s.ut.records[j] with
    | none => rfl
    | some r =>
      have : (if r.state.working then r.interrupt n else r).state = r.state := by
        unfold UnitRecord.interrupt
        split
        · split <;> rfl
        · rfl
      simp [this]

theorem takingCheck (s : State) : StarvationKept s (s.takingCheck []) := by
  rcases taken_or_none s with ⟨n, hn⟩ | hn
  · rw [State.takingCheck_one hn]
    exact (take n s).trans (condNotice n _)
  · rw [State.takingCheck_none hn]
    exact refl s

theorem checkIfActivated (s t : State) : StarvationKept t (checkIfActivated s t) := by
  unfold Machine.checkIfActivated
  split
  · exact takingCheck t
  · exact refl t

end StarvationKept

/-- A taking adds its frame's members to the halt set (R134, R135). -/
theorem State.halt_within_takingCheck (s : State) : s.halt.Within (s.takingCheck []).halt := by
  rcases taken_or_none s with ⟨n, hn⟩ | hn
  · have pushed : (s.takingCheck []).halt = (s.take n).halt := State.halt_congr (by simp [State.takingCheck_one hn])
    rw [pushed]
    simp only [State.halt, State.take_cu, haltOf, List.foldr_cons]
    exact StopSet.within_union _ _
  · rw [State.takingCheck_none hn]
    exact StopSet.within_refl _

theorem halt_within_checkIfActivated (s t : State) : t.halt.Within (checkIfActivated s t).halt := by
  unfold checkIfActivated
  split
  · exact State.halt_within_takingCheck t
  · exact StopSet.within_refl _

/-- An event that leaves the hold stack keeps its starvations to its end (R133, R135). -/
theorem starvationKept_react {s t : State} (hs : t.cu.stack = s.cu.stack) : StarvationKept t (react s t) := by
  refine (StarvationKept.checkIfActivated s t).trans (StarvationKept.applyHalts ?_)
  rw [← State.halt_congr hs]
  exact halt_within_checkIfActivated s t

end Sys2Proof.Machine
end

