-- ==== Sys2Proof/Proofs/SlotStarts.lean ====
section
/-! The start of a time slot: its time, its number, and the record boundary it makes, which captures, drops, starves or resumes by the
accounts of the Capture Store (R69, R75, R76, R78, R80). -/

namespace Sys2Proof.Machine

/-! ## Descriptors of the time-slot streams (log 15) -/

/-- Descriptor `d` of a time-slot stream is FREE. -/
def CaptureStore.slotFree (ss : SlotStream) (c : CaptureStore) (d : Fin 8) : Bool :=
  match ss with
  | .slow => decide ((c.slowDescs[d]).state = .free)
  | .leak => decide ((c.leakDescs[d]).state = .free)

/-- The FREE descriptor of lowest index of a time-slot stream: `freeSlow` or `freeLeak`. -/
def CaptureStore.freeSlot (ss : SlotStream) (c : CaptureStore) : Option (Fin 8) := (List.finRange 8).find? (c.slotFree ss)

theorem CaptureStore.freeSlot_eq_none {ss : SlotStream} {c : CaptureStore} :
    c.freeSlot ss = none ↔ ∀ d, c.slotFree ss d = false := by
  simp [CaptureStore.freeSlot, List.mem_finRange]

theorem CaptureStore.freeSlot_of_first {ss : SlotStream} {c : CaptureStore} {d : Fin 8} (hd : c.slotFree ss d = true)
    (hfirst : ∀ e, e < d → c.slotFree ss e = false) : c.freeSlot ss = some d := by
  refine List.find?_eq_some_iff_getElem.2 ⟨hd, d.val, by simp, by simp, fun j hj => ?_⟩
  simpa using hfirst ⟨j, by omega⟩ hj

/-! ## The record boundary -/

/-- The record boundary at the start of slot `n` of a time-slot stream: `boundarySlow` or `boundaryLeak`. -/
def State.boundarySlot (ss : SlotStream) (n : Nat) (s : State) : State :=
  match ss with
  | .slow => s.boundarySlow n
  | .leak => s.boundaryLeak n

/-- A record of slot `n` takes descriptor `d` and its five blocks, reservation first (R69, R75). -/
def State.captureInto (ss : SlotStream) (n : Nat) (d : Fin 8) (s : State) : State :=
  match ss with
  | .slow => s.setCs { s.cs with
      slow := s.cs.slow.takeBlocks 5 (slotNumber n)
      slowDescs := s.cs.slowDescs.set d ⟨.filling, slotNumber n, s.cs.slow.resShare 5, 5 - s.cs.slow.resShare 5,
        if s.afe.slowTaken = 128 * n + 1 then [s.afe.slowRow] else []⟩ }
  | .leak => s.setCs { s.cs with
      leak := s.cs.leak.takeBlocks 5 (slotNumber n)
      leakDescs := s.cs.leakDescs.set d ⟨.filling, slotNumber n, s.cs.leak.resShare 5, 5 - s.cs.leak.resShare 5,
        if s.afe.leakTaken = 128 * n + 1 then [s.afe.leakRow] else []⟩ }

theorem State.boundary_idle {st : StreamId} {k : Nat} {free : Bool} {s : State} (h : (s.stream st).state = .idle) :
    s.boundary st k free = .nothing := by simp only [State.boundary, h]

theorem State.boundary_running {st : StreamId} {k : Nat} {free : Bool} {s : State} (h : (s.stream st).state = .running) :
    s.boundary st k free = if free = true ∧ k ≤ s.cs.obtainable st then .capture false else .drop true := by
  simp only [State.boundary, h]

theorem State.boundary_starved {st : StreamId} {k : Nat} {free : Bool} {s : State} (h : (s.stream st).state = .starved) :
    s.boundary st k free =
      if free = true ∧ (s.stream st).plan.resumeNeed k ≤ s.cs.obtainable st then .capture true else .drop false := by
  simp only [State.boundary, h]

theorem State.boundary_waiting {st : StreamId} {k : Nat} {free : Bool} {s : State} (h : (s.stream st).state = .pendingPlan)
    (hw : s.wanted st = true) : s.boundary st k free = .drop false := by simp only [State.boundary, h, hw, if_true]

section
variable {ss : SlotStream} {n : Nat} {s : State}

theorem State.boundarySlot_skips (h : s.boundary (slotStreamId ss) 5 (s.cs.freeSlot ss).isSome = .nothing) :
    s.boundarySlot ss n = s := by
  cases ss with
  | slow =>
    have h : s.boundary .slow 5 s.cs.freeSlow.isSome = .nothing := h
    simp only [State.boundarySlot, State.boundarySlow, h]
  | leak =>
    have h : s.boundary .leak 5 s.cs.freeLeak.isSome = .nothing := h
    simp only [State.boundarySlot, State.boundaryLeak, h]

theorem State.boundarySlot_drops {starves : Bool}
    (h : s.boundary (slotStreamId ss) 5 (s.cs.freeSlot ss).isSome = .drop starves) :
    s.boundarySlot ss n = s.dropRecord (slotStreamId ss) starves := by
  cases ss with
  | slow =>
    have h : s.boundary .slow 5 s.cs.freeSlow.isSome = .drop starves := h
    simp only [State.boundarySlot, State.boundarySlow, h, slotStreamId]
  | leak =>
    have h : s.boundary .leak 5 s.cs.freeLeak.isSome = .drop starves := h
    simp only [State.boundarySlot, State.boundaryLeak, h, slotStreamId]

theorem State.boundarySlot_captures {resumed : Bool} {d : Fin 8} (hd : s.cs.freeSlot ss = some d)
    (h : s.boundary (slotStreamId ss) 5 (s.cs.freeSlot ss).isSome = .capture resumed) :
    s.boundarySlot ss n = (s.captureInto ss n d).resumeStream (slotStreamId ss) resumed := by
  cases ss with
  | slow =>
    have h : s.boundary .slow 5 s.cs.freeSlow.isSome = .capture resumed := h
    have hd : s.cs.freeSlow = some d := hd
    simp only [State.boundarySlot, State.boundarySlow, h]
    simp only [State.captureSlow, hd, State.captureInto, slotStreamId]
  | leak =>
    have h : s.boundary .leak 5 s.cs.freeLeak.isSome = .capture resumed := h
    have hd : s.cs.freeLeak = some d := hd
    simp only [State.boundarySlot, State.boundaryLeak, h]
    simp only [State.captureLeak, hd, State.captureInto, slotStreamId]

end

section
variable {ss : SlotStream} {n : Nat} {s : State}

theorem State.boundarySlot_idle (h : (s.stream (slotStreamId ss)).state = .idle) : s.boundarySlot ss n = s :=
  State.boundarySlot_skips (State.boundary_idle h)

/-- A RUNNING stream captures where it can (R75). -/
theorem State.boundarySlot_running {d : Fin 8} (h : (s.stream (slotStreamId ss)).state = .running) (hd : s.cs.freeSlot ss = some d)
    (hk : 5 ≤ s.cs.obtainable (slotStreamId ss)) : s.boundarySlot ss n = s.captureInto ss n d :=
  State.boundarySlot_captures (resumed := false) hd (by rw [State.boundary_running h, hd, if_pos ⟨rfl, hk⟩])

/-- A RUNNING stream starves where it cannot capture (R76). -/
theorem State.boundarySlot_starves (h : (s.stream (slotStreamId ss)).state = .running)
    (hk : s.cs.freeSlot ss = none ∨ s.cs.obtainable (slotStreamId ss) < 5) :
    s.boundarySlot ss n = s.dropRecord (slotStreamId ss) true := by
  refine State.boundarySlot_drops ?_
  rw [State.boundary_running h, if_neg]
  rintro ⟨hfree, hroom⟩
  rcases hk with hk | hk
  · simp [hk] at hfree
  · omega

/-- A STARVED stream resumes where it can obtain its threshold (R78). -/
theorem State.boundarySlot_resumes {d : Fin 8} (h : (s.stream (slotStreamId ss)).state = .starved) (hd : s.cs.freeSlot ss = some d)
    (hk : (s.stream (slotStreamId ss)).plan.resumeNeed 5 ≤ s.cs.obtainable (slotStreamId ss)) :
    s.boundarySlot ss n = (s.captureInto ss n d).resumeStream (slotStreamId ss) true :=
  State.boundarySlot_captures hd (by rw [State.boundary_starved h, hd, if_pos ⟨rfl, hk⟩])

/-- A STARVED stream that cannot resume drops the record (R78). -/
theorem State.boundarySlot_starved (h : (s.stream (slotStreamId ss)).state = .starved)
    (hk : s.cs.freeSlot ss = none ∨ s.cs.obtainable (slotStreamId ss) < (s.stream (slotStreamId ss)).plan.resumeNeed 5) :
    s.boundarySlot ss n = s.dropRecord (slotStreamId ss) false := by
  refine State.boundarySlot_drops ?_
  rw [State.boundary_starved h, if_neg]
  rintro ⟨hfree, hroom⟩
  rcases hk with hk | hk
  · simp [hk] at hfree
  · omega

/-- A stream whose plan waits drops the record (R80). -/
theorem State.boundarySlot_waiting (h : (s.stream (slotStreamId ss)).state = .pendingPlan)
    (hw : s.wanted (slotStreamId ss) = true) : s.boundarySlot ss n = s.dropRecord (slotStreamId ss) false :=
  State.boundarySlot_drops (State.boundary_waiting h hw)

end

/-- The blocks of a record come from the reservation and the pool (R75). -/
theorem Stream.held_takeBlocks (x : Stream) (k : Nat) (q : Word32) :
    (x.takeBlocks k q).heldRes + (x.takeBlocks k q).heldPool = x.heldRes + x.heldPool + k := by
  simp only [Stream.takeBlocks, Stream.resShare]
  omega

/-! ### What a capture leaves (R75, R78) -/

theorem onlyChanges_captureInto (ss : SlotStream) (n : Nat) (d : Fin 8) (s : State) : OnlyChanges [.cs] s (s.captureInto ss n d) := by
  cases ss <;> exact ⟨rfl, fun b hb => by cases b <;> simp [Part.same, State.captureInto] at hb ⊢⟩

theorem State.stream_captureInto (ss : SlotStream) (n : Nat) (d : Fin 8) (s : State) :
    (s.captureInto ss n d).stream (slotStreamId ss) = (s.stream (slotStreamId ss)).takeBlocks 5 (slotNumber n) := by
  cases ss <;> rfl

/-- The descriptor of a SLOW record that is captured, and the others (R69, R75). -/
theorem State.slowDescs_captureInto (n : Nat) (d : Fin 8) (s : State) :
    let y := (s.captureInto .slow n d).cs.slowDescs[d]
    y.state = .filling ∧ y.seq = slotNumber n ∧ y.fromRes = s.cs.slow.resShare 5 ∧ y.fromPool = 5 - s.cs.slow.resShare 5 ∧
    ∀ e : Fin 8, e ≠ d → (s.captureInto .slow n d).cs.slowDescs[e] = s.cs.slowDescs[e] := by
  refine ⟨by simp [State.captureInto], by simp [State.captureInto], by simp [State.captureInto], by simp [State.captureInto],
    fun e he => ?_⟩
  have : d.val ≠ e.val := fun h => he (Fin.ext h.symm)
  simp [State.captureInto, this]

/-- The descriptor of a LEAK record that is captured, and the others (R69, R75). -/
theorem State.leakDescs_captureInto (n : Nat) (d : Fin 8) (s : State) :
    let y := (s.captureInto .leak n d).cs.leakDescs[d]
    y.state = .filling ∧ y.seq = slotNumber n ∧ y.fromRes = s.cs.leak.resShare 5 ∧ y.fromPool = 5 - s.cs.leak.resShare 5 ∧
    ∀ e : Fin 8, e ≠ d → (s.captureInto .leak n d).cs.leakDescs[e] = s.cs.leakDescs[e] := by
  refine ⟨by simp [State.captureInto], by simp [State.captureInto], by simp [State.captureInto], by simp [State.captureInto],
    fun e he => ?_⟩
  have : d.val ≠ e.val := fun h => he (Fin.ext h.symm)
  simp [State.captureInto, this]

/-- A stream that resumes is RUNNING, its starvation's source is not asserted, and its notice is raised (R78, R82, R128). -/
theorem State.resumeStream_starved {st : StreamId} {s : State} (h : (s.stream st).state = .starved) :
    s.resumeStream st true =
      ((s.setSource (starvedCondition st) false).setStream st { s.stream st with state := .running }).streamNotice st := by
  rw [State.resumeStream, if_pos rfl, State.enterStream, h]
  cases st <;> rfl

/-! ### What a drop leaves (R76, R80) -/

theorem onlyChanges_dropRecord (st : StreamId) (s : State) : OnlyChanges [.cs] s (s.dropRecord st false) :=
  ⟨rfl, fun b hb => by cases b <;> simp [Part.same, State.dropRecord, State.setStream] at hb ⊢⟩

theorem State.stream_dropRecord (st : StreamId) (s : State) :
    (s.dropRecord st false).stream st = { s.stream st with dropped := count32 (s.stream st).dropped } := by
  cases st <;> rfl

/-- A stream that starves stands in the store as STARVED with the drop counted, its source is asserted, and its notice is raised (R76,
R82, R128). -/
theorem State.dropRecord_starves (st : StreamId) (s : State) :
    s.dropRecord st true =
      ((s.setSource (starvedCondition st) true).setStream st (starvedStream st s.cs).1).streamNotice st := by cases st <;> rfl

/-- The Capture Store and the Condition Unit after a starvation, and what else it leaves (R76, R128). -/
theorem State.dropRecord_starves_parts (st : StreamId) (s : State) :
    (s.dropRecord st true).cs = s.cs.setStream st (starvedStream st s.cs).1 ∧
    (s.dropRecord st true).cu = (s.setSource (starvedCondition st) true).cu ∧
    OnlyChanges [.lp, .cs, .cu] s (s.dropRecord st true) := by
  rw [State.dropRecord_starves]
  refine ⟨by simp [State.setStream], by simp [State.setStream], by simp, fun b hb => ?_⟩
  cases b <;> simp [Part.same] at hb ⊢

/-- The record of its condition after a starvation: the source is asserted, the latch is set, and the last active time where the
condition becomes active (R128, R129). -/
theorem State.cond_dropRecord_starves (st : StreamId) (s : State) :
    (s.dropRecord st true).cond (starvedCondition st) =
      judged true true (s.active (starvedCondition st)) s.now (s.cond (starvedCondition st)) := by
  rw [State.cond_congr (s.dropRecord_starves_parts st).2.1, State.cond_setSource_judged]
  cases st <;> rfl

/-- A starvation is announced with the blocks that can then be obtained (R82). -/
theorem State.dropRecord_announces (st : StreamId) (s : State) :
    (⟨.stream st, .stream .starved (count32 (s.stream st).dropped) (starvedStream st s.cs).2 s.now⟩ : Notice) ∈
      (s.dropRecord st true).lp.notices := by
  rw [State.dropRecord_starves]
  cases st <;> exact mem_putNotice_self _ _

/-! ## The start of a slot (R69) -/

/-- The next slot of a time-slot stream has begun at its time, and its boundary is still to come. -/
def State.slotBegun (ss : SlotStream) (s : State) : State :=
  let u := s.elapseTo (slotMs ss * ((slotsOf ss s).1 + 1))
  match ss with
  | .slow => u.setAfe { u.afe with slowSlot := (slotsOf ss s).1 + 1 }
  | .leak => u.setAfe { u.afe with leakSlot := (slotsOf ss s).1 + 1 }

theorem State.startSlot_eq {ss : SlotStream} {s : State} (h : (slotsOf ss s).1 ≤ (slotsOf ss s).2) :
    s.startSlot ss = (s.slotBegun ss).boundarySlot ss ((slotsOf ss s).1 + 1) := by
  cases ss <;> exact if_pos h

theorem onlyChanges_slotBegun (ss : SlotStream) (s : State) :
    OnlyChanges [.afe] (s.elapseTo (slotMs ss * ((slotsOf ss s).1 + 1))) (s.slotBegun ss) := by
  cases ss <;> exact ⟨rfl, fun b hb => by cases b <;> simp [Part.same, State.slotBegun] at hb ⊢⟩

theorem State.slotBegun_slots (ss : SlotStream) (s : State) :
    slotsOf ss (s.slotBegun ss) = ((slotsOf ss s).1 + 1, (slotsOf ss s).2) := by cases ss <;> rfl

/-- The event keeps the holding and touches no more than a taking and its halts can. -/
theorem react_startSlot_frame (ss : SlotStream) (s : State) :
    HoldingKept s (arbitrate (react s (s.startSlot ss))) ∧
    OnlyChanges [.clock, .lp, .ut, .pe, .afe, .cs, .oa, .lkc, .cu, .reports] s (arbitrate (react s (s.startSlot ss))) := by
  refine ⟨by simp [HoldingKept], by simp, fun b hb => ?_⟩
  cases b <;> simp [Part.same] at hb ⊢

/-- The event leaves the time and the number of the slot as its start has set them. -/
theorem react_startSlot_slots {ss : SlotStream} {s : State} (h : (slotsOf ss s).1 ≤ (slotsOf ss s).2) :
    (arbitrate (react s (s.startSlot ss))).clockUs = (s.elapseTo (slotMs ss * ((slotsOf ss s).1 + 1))).clockUs ∧
    slotsOf ss (arbitrate (react s (s.startSlot ss))) = ((slotsOf ss s).1 + 1, (slotsOf ss s).2) := by
  have hclock : (s.slotBegun ss).clockUs = _ := (onlyChanges_slotBegun ss s).2 .clock (by decide)
  rw [State.startSlot_eq h, ← State.slotBegun_slots]
  cases ss <;> simp [slotsOf, State.boundarySlot, hclock]

/-- `v` is `s` with the clock moved to `ms` and a slot begun: nothing that a boundary reads has moved but the time. -/
structure SlotBegun (ms : Nat) (s v : State) : Prop where
  changes : OnlyChanges [.afe] (s.elapseTo ms) v
  cs : v.cs = s.cs
  cu : v.cu = s.cu
  notices : v.lp.notices = s.lp.notices
  now : v.now = (s.elapseTo ms).now
  halt : v.pe.halt = s.pe.halt
  wanted : ∀ st, v.wanted st = s.wanted st

theorem State.slotBegun_begun (ss : SlotStream) (s : State) : SlotBegun (slotMs ss * ((slotsOf ss s).1 + 1)) s (s.slotBegun ss) := by
  have hchanges := onlyChanges_slotBegun ss s
  cases ss <;> exact ⟨hchanges, rfl, rfl, rfl, rfl, rfl, fun st => by cases st <;> rfl⟩

namespace SlotBegun

variable {ms : Nat} {s v : State} (h : SlotBegun ms s v)
include h

theorem active (m : Fin 20) : v.active m = s.active m := State.active_congr (State.cond_congr h.cu m)

theorem stream (st : StreamId) : v.stream st = s.stream st := State.stream_congr h.cs st

/-- A boundary that activates nothing and leaves the stack has no more to it (R133, R135). -/
theorem quiet {w : State} {bs : List Part} (hh : HardWhereSevere s) (hw : OnlyChanges bs v w) (hpe : Part.pe ∉ bs)
    (hs : w.cu.stack = v.cu.stack) (ha : ∀ m, w.active m = true → v.active m = true) :
    react s w = w ∧ OnlyChanges ([.lp, .afe] ++ bs) (s.elapseTo ms) (arbitrate w) := by
  have hpe : w.pe = v.pe := hw.2 .pe hpe
  refine ⟨react_standing (fun m hm => h.active m ▸ ha m hm) (hs.trans (by rw [h.cu])) (by rw [hpe, h.halt]) hh, ?_⟩
  exact ((h.changes.trans hw).trans (onlyChanges_arbitrate w)).mono (by simp; tauto)

/-- A boundary that touches the Capture Store alone. -/
theorem stored {w : State} (hh : HardWhereSevere s) (hw : OnlyChanges [.cs] v w) :
    react s w = w ∧ OnlyChanges [.lp, .afe, .cs] (s.elapseTo ms) (arbitrate w) := by
  have hcu : w.cu = v.cu := hw.2 .cu (by decide)
  exact h.quiet hh hw (by decide) (by rw [hcu]) fun m hm => by rwa [State.active_congr (State.cond_congr hcu m)] at hm

/-- A drop that starves nothing is counted, and no more (R78, R80). -/
theorem drops (hh : HardWhereSevere s) (st : StreamId) :
    let t := arbitrate (react s (v.dropRecord st false))
    OnlyChanges [.lp, .afe, .cs] (s.elapseTo ms) t ∧
      t.stream st = { s.stream st with dropped := count32 (s.stream st).dropped } ∧
      t.lp.notices.length ≤ s.lp.notices.length := by
  obtain ⟨hreact, hchanges⟩ := h.stored hh (onlyChanges_dropRecord st v)
  rw [hreact]
  refine ⟨hchanges, ?_, h.notices ▸ arbitrate_notices_length _⟩
  rw [State.stream_congr (s := v.dropRecord st false) (by simp), State.stream_dropRecord, h.stream]

/-- A RUNNING stream captures its record, and no more happens (R75). -/
theorem captures (hh : HardWhereSevere s) (ss : SlotStream) (n : Nat) (d : Fin 8) :
    let t := arbitrate (react s (v.captureInto ss n d))
    OnlyChanges [.lp, .afe, .cs] (s.elapseTo ms) t ∧ t.cs = (v.captureInto ss n d).cs ∧
      t.stream (slotStreamId ss) = (s.stream (slotStreamId ss)).takeBlocks 5 (slotNumber n) := by
  obtain ⟨hreact, hchanges⟩ := h.stored hh (onlyChanges_captureInto ss n d v)
  rw [hreact]
  refine ⟨hchanges, by simp, ?_⟩
  rw [State.stream_congr (s := v.captureInto ss n d) (by simp), State.stream_captureInto, h.stream]

/-- A STARVED stream resumes with its record, and its starvation's source is no longer asserted (R78, R128). -/
theorem resumes (hh : HardWhereSevere s) {ss : SlotStream} (n : Nat) (d : Fin 8)
    (hs : (s.stream (slotStreamId ss)).state = .starved) :
    let t := arbitrate (react s ((v.captureInto ss n d).resumeStream (slotStreamId ss) true))
    t.stream (slotStreamId ss) = { (s.stream (slotStreamId ss)).takeBlocks 5 (slotNumber n) with state := .running } ∧
      (t.cond (starvedCondition (slotStreamId ss))).source = false ∧ t.cu.stack = s.cu.stack := by
  obtain ⟨m, hm⟩ : ∃ m, m = v.captureInto ss n d := ⟨_, rfl⟩
  have hcapture := hm ▸ onlyChanges_captureInto ss n d v
  have hcu : m.cu = v.cu := hcapture.2 .cu (by decide)
  have hstream : m.stream (slotStreamId ss) = (s.stream (slotStreamId ss)).takeBlocks 5 (slotNumber n) := by
    rw [hm, State.stream_captureInto, h.stream]
  have hstarved : (m.stream (slotStreamId ss)).state = .starved := by rw [hstream]; exact hs
  rw [← hm]
  generalize slotStreamId ss = st at *
  have hresume := State.resumeStream_starved hstarved
  have hchanges : OnlyChanges [.lp, .cs, .cu] m (m.resumeStream st true) :=
    ⟨by simp, fun b hb => by cases b <;> simp [Part.same] at hb ⊢⟩
  have hrunning : (m.resumeStream st true).stream st = { m.stream st with state := .running } := by
    rw [hresume]
    cases st <;> rfl
  generalize m.resumeStream st true = w at *
  have hwcu : w.cu = (m.setSource (starvedCondition st) false).cu := by simp [hresume, State.setStream]
  have hstack : w.cu.stack = v.cu.stack := by simp [hwcu, hcu]
  obtain ⟨hreact, -⟩ := h.quiet hh (hcapture.trans hchanges) (by decide) hstack fun k hk => by
    rw [State.active_congr (State.cond_congr hwcu k)] at hk
    rw [← State.active_congr (State.cond_congr hcu k)]
    exact State.active_setSource_false hk
  rw [hreact]
  refine ⟨?_, ?_, by simp [hstack, h.cu]⟩
  · rw [State.stream_congr (s := w) (by simp), hrunning, hstream]
  · rw [cond_arbitrate, State.cond_congr hwcu, State.cond_setSource_judged]
    rfl

/-! ### A RUNNING stream starves (R76) -/

/-- The record of its condition after a starvation (R128, R129). -/
theorem starved_cond (st : StreamId) : (v.dropRecord st true).cond (starvedCondition st) =
    judged true true (s.active (starvedCondition st)) (s.elapseTo ms).now (s.cond (starvedCondition st)) := by
  rw [State.cond_dropRecord_starves, h.active, State.cond_congr h.cu, h.now]

theorem starved_kept (st : StreamId) : StarvationKept (v.dropRecord st true) (react s (v.dropRecord st true)) :=
  starvationKept_react (by rw [(v.dropRecord_starves_parts st).2.1, ← h.cu]; simp)

/-- The starvation is announced, whatever follows in the event (R82). -/
theorem starves_announced (st : StreamId) :
    Announced ⟨.stream st, .stream .starved (count32 (s.stream st).dropped) (starvedStream st s.cs).2 (s.elapseTo ms).now⟩
      (arbitrate (react s (v.dropRecord st true))) := by
  have hnotice := v.dropRecord_announces st
  rw [h.stream, h.cs, h.now] at hnotice
  exact announced_arbitrate ((h.starved_kept st).notices st _ rfl hnotice)

/-- Where its condition was active already, a starvation has no more to it (R133). -/
theorem starves_again (hh : HardWhereSevere s) {st : StreamId} (ha : s.active (starvedCondition st) = true) :
    let t := arbitrate (react s (v.dropRecord st true))
    t.cs = s.cs.setStream st (starvedStream st s.cs).1 ∧ OnlyChanges [.lp, .afe, .cs, .cu] (s.elapseTo ms) t ∧
      t.cu.stack = s.cu.stack ∧ (t.cond (starvedCondition st)).source = true := by
  obtain ⟨hcs, hcu, hchanges⟩ := v.dropRecord_starves_parts st
  have hstack : (v.dropRecord st true).cu.stack = v.cu.stack := by simp [hcu]
  obtain ⟨hreact, hall⟩ := h.quiet hh hchanges (by decide) hstack fun k hk => by
    rw [State.active_congr (State.cond_congr hcu k)] at hk
    exact State.active_of_setSource (.inl ((h.active _).trans ha)) hk
  rw [hreact]
  refine ⟨by simp [hcs, h.cs], hall.mono (by decide), by simp [hcu, h.cu], ?_⟩
  rw [cond_arbitrate, h.starved_cond]
  rfl

/-- Where its condition becomes active, a time-slot stream that is wanted is STARVED until a halt ends capture (R74, R76). -/
theorem starves_stream {st : StreamId} (hst : st ≠ .vib) (hw : s.wanted st = true) :
    let t := arbitrate (react s (v.dropRecord st true))
    t.stream st =
      { s.stream st with state := if t.wanted st then .starved else .idle, dropped := count32 (s.stream st).dropped } := by
  obtain ⟨hcs, -, hchanges⟩ := v.dropRecord_starves_parts st
  have hwanted : (v.dropRecord st true).wanted st = true :=
    (State.wanted_congr hst (RecordsKeep.of_ut (hchanges.2 .ut (by decide)))).trans ((h.wanted st).trans hw)
  have hstarving : Starving st { s.stream st with dropped := count32 (s.stream st).dropped } (v.dropRecord st true) := by
    refine ⟨?_, fun hl => hl ▸ hwanted⟩
    rw [hwanted, State.stream, hcs, h.cs]
    cases st <;> rfl
  have hstands := (h.starved_kept st).streams st _ hst hstarving
  exact (hstands.congr (State.stream_congr (by simp) st) (State.wanted_congr hst (RecordsKeep.of_ut (by simp)))).1

/-- Where its condition becomes active, a starvation latches it and has the taking check (R129, R133). -/
theorem starves_first {st : StreamId} (ha : s.active (starvedCondition st) = false) :
    let t := arbitrate (react s (v.dropRecord st true))
    (t.cond (starvedCondition st)).latch = true ∧ (t.cond (starvedCondition st)).lastActive = some (s.elapseTo ms).now ∧
      TakingCheckMade (raisedAt (1000 * ms - s.clockUs) (starvedCondition st)
        { s.cond (starvedCondition st) with source := true, latch := true, lastActive := some (s.elapseTo ms).now } s) t := by
  obtain ⟨-, hcu, hchanges⟩ := v.dropRecord_starves_parts st
  have hcond := h.starved_cond st
  rw [ha] at hcond
  have hjudged : judged true true false (s.elapseTo ms).now (s.cond (starvedCondition st)) =
      { s.cond (starvedCondition st) with source := true, latch := true, lastActive := some (s.elapseTo ms).now } := by
    simp [judged]
  obtain ⟨hlatch, hlast⟩ := (h.starved_kept st).latch (starvedCondition st) (by cases st <;> decide)
  rw [hcond, hjudged] at hlatch hlast
  have hactive : (v.dropRecord st true).active (starvedCondition st) = true := by
    rw [State.active_latched (by cases st <;> rfl), hcond, hjudged]
  refine ⟨by rw [cond_arbitrate, hlatch], by rw [cond_arbitrate, hlast],
    (takingCheckMade_react _ ha hactive).congr ?_ ?_ (by simp) (by simp)⟩
  · rw [hcu, State.setSource_cu, ← State.cond_congr hcu, hcond, hjudged, h.cu]
    rfl
  · have hdrop : (v.dropRecord st true).clockUs = v.clockUs := hchanges.2 .clock (by decide)
    exact (hdrop.trans (h.changes.2 .clock (by decide))).symm

end SlotBegun

/-- Settles O33: by the state of the stream as the slot begins, and by what it can obtain. -/
theorem slotStartMakesTheBoundary : Obligations.SlotStartMakesTheBoundary := by
  intro ss s n st x hslots hh u noneFree
  have hfree : noneFree ↔ s.cs.freeSlot ss = none := by
    rw [CaptureStore.freeSlot_eq_none]
    cases ss <;> simp [noneFree, CaptureStore.slotFree]
  obtain ⟨hholding, hchanges⟩ := react_startSlot_frame ss s
  obtain ⟨hclock, hnumbers⟩ := react_startSlot_slots hslots
  refine ⟨arbitrate (react s (s.startSlot ss)), rfl, hholding, hchanges, hclock, by rw [hnumbers], by rw [hnumbers], ?_⟩
  rw [State.startSlot_eq hslots]
  have hbegun := s.slotBegun_begun ss
  generalize s.slotBegun ss = v at hbegun ⊢
  have hx : v.stream st = x := hbegun.stream st
  have starves : x.state = .running → noneFree ∨ s.cs.obtainable st < 5 → v.boundarySlot ss n = v.dropRecord st true := fun hs hk =>
    State.boundarySlot_starves (hx ▸ hs) (by rw [hbegun.cs]; exact hk.imp_left hfree.1)
  refine ⟨fun hs => ?_, fun hs hroom hk => ?_, fun hs hk => ?_, fun hs hk ha => ?_, fun hs hk ha => ?_, fun hs hk => ?_,
    fun hs hroom hk => ?_, fun hs hw => ?_⟩
  · -- IDLE
    rw [State.boundarySlot_idle (hx ▸ hs)]
    obtain ⟨hreact, hall⟩ := hbegun.quiet hh (bs := []) ⟨rfl, fun b _ => by cases b <;> rfl⟩ (by simp) rfl fun _ => id
    rw [hreact]
    exact hall
  · -- RUNNING, with a descriptor and five blocks
    obtain ⟨d, hd⟩ := Option.ne_none_iff_exists'.1 (mt hfree.2 hroom)
    rw [State.boundarySlot_running (hx ▸ hs) (by rw [hbegun.cs, hd]) (by rw [hbegun.cs]; exact hk)]
    obtain ⟨hall, hcs, hstream⟩ := hbegun.captures hh ss n d
    have first : ∀ d', s.cs.slotFree ss d' = true → (∀ e, e < d' → s.cs.slotFree ss e = false) → d' = d := fun d' hd' hbefore =>
      Option.some_injective _ ((CaptureStore.freeSlot_of_first hd' hbefore).symm.trans hd)
    refine ⟨hall, hstream, fun d' hss hd' hbefore => ?_, fun d' hss hd' hbefore => ?_⟩
    · subst hss
      obtain rfl := first d' (decide_eq_true hd') fun e he => decide_eq_false (hbefore e he)
      have hdescs := v.slowDescs_captureInto n d'
      rw [hbegun.cs] at hdescs
      rw [hcs]
      exact hdescs
    · subst hss
      obtain rfl := first d' (decide_eq_true hd') fun e he => decide_eq_false (hbefore e he)
      have hdescs := v.leakDescs_captureInto n d'
      rw [hbegun.cs] at hdescs
      rw [hcs]
      exact hdescs
  · -- RUNNING without them: the notice
    rw [starves hs hk]
    exact hbegun.starves_announced st
  · -- the condition was active already
    rw [starves hs hk]
    exact hbegun.starves_again hh ha
  · -- the condition becomes active
    rw [starves hs hk]
    exact ⟨fun hw => hbegun.starves_stream (by cases ss <;> simp [st, slotStreamId]) hw, hbegun.starves_first ha⟩
  · -- STARVED below the threshold
    rw [State.boundarySlot_starved (hx ▸ hs) (by rw [hbegun.cs, hbegun.stream]; exact hk.imp_left hfree.1)]
    exact hbegun.drops hh st
  · -- STARVED, and the threshold can be obtained
    obtain ⟨d, hd⟩ := Option.ne_none_iff_exists'.1 (mt hfree.2 hroom)
    rw [State.boundarySlot_resumes (hx ▸ hs) (by rw [hbegun.cs, hd]) (by rw [hbegun.cs, hbegun.stream]; exact hk)]
    obtain ⟨hstream, hsource, hstack⟩ := hbegun.resumes hh n d hs
    refine ⟨by rw [hstream], hsource, hstack, ?_⟩
    rw [hstream]
    exact x.held_takeBlocks 5 (slotNumber n)
  · -- a plan waits
    rw [State.boundarySlot_waiting (hx ▸ hs) ((hbegun.wanted st).trans hw)]
    obtain ⟨hall, hstream, -⟩ := hbegun.drops hh st
    exact ⟨hall, hstream⟩

end Sys2Proof.Machine
end

