-- ==== Sys2Proof/Proofs/LevelsAndGrades.lean ====
section
/-! The level of a power, in whole numbers and in the real numbers, and the grade of a pair by its tests (R97, R98). -/

namespace Sys2Proof.Machine

/-! ## The test of a level (R97) -/

/-- The hundredth power of both sides takes the root away, and ten to the −l goes to the other side where l is negative. -/
theorem levelAtMost_iff_real {l : Int} {p : Nat} : levelAtMost l p = true ↔ 512 * (10 : ℝ) ^ ((l : ℝ) / 100) ≤ p := by
  have hroot : ((10 : ℝ) ^ ((l : ℝ) / 100)) ^ 100 = 10 ^ l.toNat / 10 ^ (-l).toNat := by
    calc ((10 : ℝ) ^ ((l : ℝ) / 100)) ^ 100
        = 10 ^ ((l : ℝ) / 100 * (100 : ℕ)) := (Real.rpow_mul_natCast (by norm_num) _ 100).symm
      _ = (10 : ℝ) ^ (l : ℝ) := by congr 1; norm_num
      _ = (10 : ℝ) ^ ((l.toNat : ℤ) - ((-l).toNat : ℤ)) := by rw [Real.rpow_intCast, Int.toNat_sub_toNat_neg]
      _ = 10 ^ l.toNat / 10 ^ (-l).toNat := by rw [zpow_sub₀ (by norm_num), zpow_natCast, zpow_natCast]
  have hpos : (0 : ℝ) < 10 ^ (-l).toNat := by positivity
  calc levelAtMost l p = true
      ↔ (512 : ℝ) ^ 100 * 10 ^ l.toNat ≤ (p : ℝ) ^ 100 * 10 ^ (-l).toNat := by
        rw [levelAtMost, decide_eq_true_iff]; exact_mod_cast Iff.rfl
    _ ↔ (512 * (10 : ℝ) ^ ((l : ℝ) / 100)) ^ 100 ≤ (p : ℝ) ^ 100 := by
        rw [mul_pow, hroot, ← mul_div_assoc, div_le_iff₀ hpos]
    _ ↔ 512 * (10 : ℝ) ^ ((l : ℝ) / 100) ≤ p :=
        pow_le_pow_iff_left₀ (by positivity) (Nat.cast_nonneg p) (by norm_num)

theorem lt_of_levelAtMost {l : Int} {p n : Nat} (h : levelAtMost l p = true) (hn : p ^ 100 < 512 ^ 100 * 10 ^ n) : l < n := by
  by_contra hle
  have hneg : (-l).toNat = 0 := by omega
  rw [levelAtMost, decide_eq_true_iff, hneg, pow_zero, mul_one] at h
  have hpow : 10 ^ n ≤ 10 ^ l.toNat := Nat.pow_le_pow_right (by norm_num) (by omega)
  exact absurd (hn.trans_le (Nat.mul_le_mul_left _ hpow)) h.not_gt

/-- A power of 1 has −271, and so has every greater one. -/
theorem levelAtMost_least {p : Nat} (hp : 1 ≤ p) : levelAtMost (-271) p = true := by
  rw [levelAtMost, decide_eq_true_iff]
  calc 512 ^ 100 * 10 ^ (-271 : Int).toNat ≤ 1 * 10 ^ (- -271 : Int).toNat := by decide +kernel
    _ ≤ p ^ 100 * 10 ^ (- -271 : Int).toNat := Nat.mul_le_mul_right _ (Nat.one_le_pow _ _ hp)

/-- The search starts high enough: ten to the 31 exceeds two to the 100. -/
theorem le_top_of_levelAtMost {l : Int} {p : Nat} (h : levelAtMost l p = true) : l ≤ ((31 * (p.log2 + 1) : Nat) : Int) := by
  refine (lt_of_levelAtMost h ?_).le
  calc p ^ 100 < (2 ^ (p.log2 + 1)) ^ 100 := Nat.pow_lt_pow_left Nat.lt_log2_self (by norm_num)
    _ = (2 ^ 100) ^ (p.log2 + 1) := by rw [← pow_mul, mul_comm, pow_mul]
    _ ≤ (10 ^ 31) ^ (p.log2 + 1) := Nat.pow_le_pow_left (by norm_num) _
    _ = 10 ^ (31 * (p.log2 + 1)) := (pow_mul 10 31 _).symm
    _ ≤ 512 ^ 100 * 10 ^ (31 * (p.log2 + 1)) := Nat.le_mul_of_pos_left _ (by norm_num)

/-! ## The search for the level -/

theorem levelAtMost_levelFrom {p : Nat} : ∀ {fuel : Nat} {l : Int}, levelAtMost (l - fuel) p = true →
    levelAtMost (levelFrom p fuel l) p = true
  | 0, l, h => by simpa [levelFrom] using h
  | fuel + 1, l, h => by
    rw [levelFrom]
    split
    · assumption
    · refine levelAtMost_levelFrom ?_
      rwa [show l - 1 - (fuel : Int) = l - (fuel + 1 : Nat) by push_cast; ring]

theorem le_levelFrom {p : Nat} {m : Int} (hm : levelAtMost m p = true) : ∀ {fuel : Nat} {l : Int}, m ≤ l → m ≤ levelFrom p fuel l
  | 0, _, hl => hl
  | fuel + 1, l, hl => by
    rw [levelFrom]
    split
    · exact hl
    next hfails =>
      have hne : m ≠ l := by rintro rfl; exact hfails hm
      exact le_levelFrom hm (by omega)

/-- Between the top and −271 the search meets the greatest integer that passes the test. -/
theorem levelOf_isGreatest {p : Nat} (hp : 1 ≤ p) : IsGreatest {l : Int | levelAtMost l p = true} (levelOf p) := by
  refine ⟨levelAtMost_levelFrom ?_, fun m hm => le_levelFrom hm (le_top_of_levelAtMost hm)⟩
  simpa using levelAtMost_least hp

theorem levelOf_ge {p : Nat} (hp : 1 ≤ p) : -271 ≤ levelOf p := (levelOf_isGreatest hp).2 (levelAtMost_least hp)

/-- Two to the 41 is the greatest power that order sums give (R92). -/
theorem levelOf_le {p : Nat} (hp : 1 ≤ p) (hmax : p ≤ 2 ^ 41) : levelOf p ≤ 963 := by
  have hlt : levelOf p < (964 : Nat) := by
    refine lt_of_levelAtMost (levelOf_isGreatest hp).1 ?_
    calc p ^ 100 ≤ (2 ^ 41) ^ 100 := Nat.pow_le_pow_left hmax 100
      _ < 512 ^ 100 * 10 ^ 964 := by decide +kernel
  omega

/-- The figure of R97: 512 × 10^5.69 ≤ 256,000,000 < 512 × 10^5.70. -/
theorem levelOf_256000000 : levelOf 256000000 = 569 := by
  have hgreatest := levelOf_isGreatest (p := 256000000) (by norm_num)
  have hle : 569 ≤ levelOf 256000000 := hgreatest.2 (show levelAtMost 569 256000000 = true by decide +kernel)
  have hlt : levelOf 256000000 < (570 : Nat) := lt_of_levelAtMost hgreatest.1 (by decide +kernel)
  omega

/-! ## The reported level and the results of a window (R97, R99) -/

@[simp] theorem reportedLevel_zero (offset : Int) : reportedLevel offset 0 = -2000 := rfl

theorem reportedLevel_of_pos {p : Nat} (hp : 1 ≤ p) (offset : Int) : reportedLevel offset p = levelOf p + offset :=
  if_neg (by omega)

theorem CellConfig.offset_eq (cfg : CellConfig) (c : Channel) : cfg.offset c = cfg.sensitivity[c.code]?.getD 0 := by
  cases c <;> rfl

theorem Window.exists_of_mem_results {cfg : CellConfig} {w : Window} {x : OrderResult} (hx : x ∈ w.results cfg) :
    ∃ p acc, x = w.result cfg p acc := by
  rw [Window.results, ← List.map_uncurry_zip_eq_zipWith] at hx
  obtain ⟨⟨p, acc⟩, -, rfl⟩ := List.mem_map.1 hx
  exact ⟨p, acc, rfl⟩

theorem Window.level_of_mem_results {cfg : CellConfig} {w : Window} {x : OrderResult} (hx : x ∈ w.results cfg) :
    x.level = reportedLevel (cfg.sensitivity[x.channel.code]?.getD 0) x.power := by
  obtain ⟨p, acc, rfl⟩ := Window.exists_of_mem_results hx
  rw [← CellConfig.offset_eq]
  rfl

theorem Window.grade_of_mem_results {cfg : CellConfig} {w : Window} {x : OrderResult} (hx : x ∈ w.results cfg) :
    x.grade = gradePair w.spec w.nAcc x.power x.level x.limit := by
  obtain ⟨p, acc, rfl⟩ := Window.exists_of_mem_results hx
  rfl

/-- Settles O53: the search finds the greatest integer that passes the test, and the test is that of the real numbers. -/
theorem levelIsTheGreatestIntegerBelowThePower : Obligations.LevelIsTheGreatestIntegerBelowThePower := by
  refine ⟨reportedLevel_zero, levelOf_256000000, fun offset p hp => ?_, fun _ _ _ hx => Window.level_of_mem_results hx⟩
  obtain ⟨hpasses, hgreatest⟩ := levelOf_isGreatest hp
  have hreported := reportedLevel_of_pos hp offset
  refine ⟨hreported, levelAtMost_iff_real.1 hpasses, fun l hl => hgreatest (levelAtMost_iff_real.2 hl), fun hmax => ?_⟩
  have hge := levelOf_ge hp
  have hle := levelOf_le hp hmax
  exact ⟨hge, hle, fun _ _ => by omega⟩

/-! ## The grade of a pair (R98) -/

/-- The five outcomes, each with the tests that led to it. -/
theorem gradePair_cases (w : WindowSpec) (nAcc p : Nat) (level limit : Int) :
    (gradePair w nAcc p level limit = .incomplete ∧ nAcc < w.nMin) ∨
    (gradePair w nAcc p level limit = .pass ∧ w.nMin ≤ nAcc ∧ p = 0) ∨
    (gradePair w nAcc p level limit = .fail ∧ w.nMin ≤ nAcc ∧ p ≠ 0 ∧ limit < level) ∨
    (gradePair w nAcc p level limit = .warn ∧ w.nMin ≤ nAcc ∧ p ≠ 0 ∧ level ≤ limit ∧ limit - w.warnBand < level) ∨
    (gradePair w nAcc p level limit = .pass ∧ w.nMin ≤ nAcc ∧ p ≠ 0 ∧ level ≤ limit ∧ level ≤ limit - w.warnBand) := by
  by_cases hn : nAcc < w.nMin
  · simp [gradePair, hn]
  by_cases hp : p = 0
  · simp [gradePair, hn, hp, not_lt.1 hn]
  by_cases hfail : limit < level
  · simp [gradePair, hn, hp, hfail, not_lt.1 hn]
  by_cases hwarn : limit - w.warnBand < level
  · simp [gradePair, hn, hp, hfail, hwarn, not_lt.1 hn, not_lt.1 hfail]
  · simp [gradePair, hn, hp, hfail, hwarn, not_lt.1 hn, not_lt.1 hfail, not_lt.1 hwarn]

theorem gradePair_eq_incomplete_iff {w : WindowSpec} {nAcc p : Nat} {level limit : Int} :
    gradePair w nAcc p level limit = .incomplete ↔ nAcc < w.nMin := by
  rcases gradePair_cases w nAcc p level limit with ⟨hg, h⟩ | ⟨hg, h⟩ | ⟨hg, h⟩ | ⟨hg, h⟩ | ⟨hg, h⟩ <;> simp [hg] <;> omega

theorem gradePair_eq_fail_iff {w : WindowSpec} {nAcc p : Nat} {level limit : Int} :
    gradePair w nAcc p level limit = .fail ↔ w.nMin ≤ nAcc ∧ p ≠ 0 ∧ limit < level := by
  rcases gradePair_cases w nAcc p level limit with ⟨hg, h⟩ | ⟨hg, h⟩ | ⟨hg, h⟩ | ⟨hg, h⟩ | ⟨hg, h⟩ <;> simp [hg] <;> omega

theorem gradePair_eq_warn_iff {w : WindowSpec} {nAcc p : Nat} {level limit : Int} :
    gradePair w nAcc p level limit = .warn ↔ w.nMin ≤ nAcc ∧ p ≠ 0 ∧ level ≤ limit ∧ limit - w.warnBand < level := by
  rcases gradePair_cases w nAcc p level limit with ⟨hg, h⟩ | ⟨hg, h⟩ | ⟨hg, h⟩ | ⟨hg, h⟩ | ⟨hg, h⟩ <;> simp [hg] <;> omega

theorem gradePair_eq_pass_iff {w : WindowSpec} {nAcc p : Nat} {level limit : Int} :
    gradePair w nAcc p level limit = .pass ↔ w.nMin ≤ nAcc ∧ (p = 0 ∨ level ≤ limit ∧ level ≤ limit - w.warnBand) := by
  rcases gradePair_cases w nAcc p level limit with ⟨hg, h⟩ | ⟨hg, h⟩ | ⟨hg, h⟩ | ⟨hg, h⟩ | ⟨hg, h⟩ <;> simp [hg] <;> omega

/-- Every pair of a window is graded on the same count of accepted revolutions. -/
theorem Window.results_incomplete_together (cfg : CellConfig) (v : Window) :
    (∀ x ∈ v.results cfg, x.grade = .incomplete) ∨ ∀ x ∈ v.results cfg, x.grade ≠ .incomplete := by
  by_cases hn : v.nAcc < v.spec.nMin
  · refine .inl fun x hx => ?_
    rw [Window.grade_of_mem_results hx]
    exact gradePair_eq_incomplete_iff.2 hn
  · refine .inr fun x hx => ?_
    rw [Window.grade_of_mem_results hx]
    exact mt gradePair_eq_incomplete_iff.1 hn

/-- Settles O54: the tests of each grade, and what they say at the limit, at the limit less the band, and of a whole window. -/
theorem gradesFollowTheirTestsInOrder : Obligations.GradesFollowTheirTestsInOrder := by
  intro w nAcc p level limit
  have not_warn (h : level ≤ limit → level ≤ limit - w.warnBand) : gradePair w nAcc p level limit ≠ .warn := fun hg => by
    obtain ⟨-, -, hlimit, hband⟩ := gradePair_eq_warn_iff.1 hg
    exact (h hlimit).not_gt hband
  refine ⟨gradePair_eq_incomplete_iff, fun hn hp => gradePair_eq_pass_iff.2 ⟨hn, .inl hp⟩, gradePair_eq_fail_iff,
    gradePair_eq_warn_iff, gradePair_eq_pass_iff, fun _ hband => not_warn (by omega), fun heq hg => ?_,
    fun heq => not_warn fun _ => heq.le, fun cfg v =>
      ⟨fun _ hx => Window.grade_of_mem_results hx, v.results_incomplete_together cfg⟩⟩
  obtain ⟨-, -, hlt⟩ := gradePair_eq_fail_iff.1 hg
  exact hlt.ne heq

end Sys2Proof.Machine
end

