-- ==== Sys2Proof/Proofs/Attempts.lean ====
section
/-! ATTEMPT_EVALUATION: when the two events of R114 have both occurred, and what the counting of the attempt leaves of the machine (R114,
R115, R118, R119). -/

namespace Sys2Proof.Machine

theorem exec_attemptEvaluation_eq (c : Fin 4) (s : State) :
    exec (.attemptEvaluation c) s = .next (arbitrate (s.evaluate c)) := rfl

/-! ## The two events of R114 -/

theorem Measure.slotsEnded_iff (n : Nat) (m : Measure) : m.slotsEnded n = true ↔
    timeDiff m.stop m.start < timeDiff ((BitVec.ofNat 32 n : CellTime) * 640 + 635) m.start := decide_eq_true_iff

/-- The timer of the measurement has expired, and the last slot that can qualify has ended (R114, log 13). -/
theorem State.evaluable_of_measure {c : Fin 4} {m : Measure} {s : State} (hc : (s.chamber c).phase = .measure)
    (hm : (s.chamber c).measure = some m) : s.evaluable c = true ↔ m.expired = true ∧
      timeDiff m.stop m.start < timeDiff ((BitVec.ofNat 32 s.afe.leakEnded : CellTime) * 640 + 635) m.start := by
  simp only [State.evaluable, hc, hm, decide_true, Bool.true_and, Bool.and_eq_true, Measure.slotsEnded_iff]

theorem State.evaluable_eq_false {c : Fin 4} {s : State}
    (h : (s.chamber c).phase ≠ .measure ∨ ∀ m, (s.chamber c).measure = some m → m.expired = false ∨
      timeDiff ((BitVec.ofNat 32 s.afe.leakEnded : CellTime) * 640 + 635) m.start ≤ timeDiff m.stop m.start) :
    s.evaluable c = false := by
  by_contra he
  rw [Bool.not_eq_false] at he
  have hc : (s.chamber c).phase = .measure := by
    by_contra hc
    simp [State.evaluable, hc] at he
  obtain ⟨m, hm⟩ := State.evaluable_measure he
  obtain ⟨hexp, hended⟩ := (State.evaluable_of_measure hc hm).1 he
  rcases h.resolve_left (not_not.2 hc) m hm with hnot | hle
  · simp [hexp] at hnot
  · exact hle.not_gt hended

/-! ## What the counting of an attempt leaves alone -/

/-- The arbiter reads the Link Processor alone (R166). -/
theorem lineLeftToArbiter_of_lp {s t : State} (h : t.lp = s.lp) : LineLeftToArbiter s (arbitrate t) := by
  unfold LineLeftToArbiter arbitrate
  rw [h]
  split <;> simp [h]

/-- A counted attempt reaches the Unit Table and the Leak Controller alone. -/
theorem onlyChanges_setRecord_setChamber (i : Fin 8) (r : UnitRecord) (c : Fin 4) (y : Chamber) (s : State) :
    OnlyChanges [.ut, .lkc] s ((s.setRecord i r).setChamber c y) :=
  ⟨rfl, fun b hb => by cases b <;> simp [Part.same, State.setRecord] at hb ⊢⟩

theorem State.chamber_arbitrate (c : Fin 4) (s : State) : (arbitrate s).chamber c = s.chamber c := State.chamber_congr (by simp) c

/-- Settles O44: the evaluation waits for both events of R114; then the judgement of R115 and R118 is counted, and the chamber vents. -/
theorem evaluatedAttemptIsCounted : Obligations.EvaluatedAttemptIsCounted := by
  refine fun c s => ⟨fun h => ?_, fun m i r hc hm hexp hended hi _ => ?_⟩
  · rw [exec_attemptEvaluation_eq, State.evaluate_of_not (State.evaluable_eq_false h)]
  have he : s.evaluable c = true := (State.evaluable_of_measure hc hm).2 ⟨hexp, hended⟩
  obtain ⟨result, y, hev, hcount⟩ := State.evaluate_counts hi he hm
  rw [exec_attemptEvaluation_eq, hev]
  refine ⟨_, _, result, rfl, ((onlyChanges_setRecord_setChamber i _ c y s).trans (onlyChanges_arbitrate _)).mono (by decide),
    lineLeftToArbiter_of_lp (by simp [State.setRecord]), fun j hj => ?_, fun d hd => ?_, by simp,
    judgeAttempt_isOutcome _ _ m, ?_, ?_⟩
  · simp only [arbitrate_frame, State.setChamber_frame, State.setRecord_records, if_neg hj]
  · have hother := State.chamber_setChamber c d y (s.setRecord i (r.withResults (r.leak.chambers.set c result)))
    simpa [hd, State.chamber] using hother
  · simp only [arbitrate_frame, State.setChamber_frame, State.setRecord_records, if_true]
    rfl
  · rwa [State.chamber_arbitrate, State.chamber_setChamber, if_pos rfl]

end Sys2Proof.Machine
end

