-- ==== Sys2Proof/Proofs/HaltsKeep.lean ====
section
/-! What the four functional blocks keep as members enter the halt set: a relation that each of their operations has holds over the whole
answer; and what stands of an injected DRIVE_FAULT (R57, R128, R135). -/

namespace Sys2Proof.Machine

/-- A relation of states that every operation has by which a functional block answers the entry of a member into the halt set, or the
change to HARD (R135): so it holds from before such an answer to after it. -/
structure KeptByHalts (R : State → State → Prop) : Prop where
  refl : ∀ s, R s s
  trans : ∀ {s t u}, R s t → R t u → R s u
  setPe : ∀ p s, R s (s.setPe p)
  setEnable : ∀ s, R s (s.setEnable false)
  complete : ∀ cause s, R s (s.mapRunIn (RunIn.complete cause))
  closeWindows : ∀ s, R s s.closeWindows
  checkRunDone : ∀ s, R s s.checkRunDone
  pauseWindow : ∀ n s, R s (s.pauseWindow n)
  syncStreams : ∀ s, R s s.syncStreams
  haltChambers : ∀ s, R s s.haltChambers
  stopConveyor : ∀ s, R s s.stopConveyor

namespace KeptByHalts

variable {R : State → State → Prop} (h : KeptByHalts R)
include h

theorem profileEnd (cause : StopCause) (s : State) : R s (s.profileEnd cause) :=
  h.trans (h.trans (h.trans (h.trans (h.trans (h.setEnable s) (h.setPe _ _)) (h.complete cause _)) (h.closeWindows _)) (h.setPe _ _))
    (h.checkRunDone _)

theorem hardCheck (s : State) : R s s.hardCheck := by
  unfold State.hardCheck
  split
  · have stopped : ∀ p, R s ((s.setEnable false).setPe p) := fun p => h.trans (h.setEnable s) (h.setPe p _)
    dsimp only
    split
    · exact h.trans (stopped _) (h.profileEnd _ _)
    · exact stopped _
  · exact h.refl s

theorem pauseStep (s : State) : R s s.pauseStep := by
  unfold State.pauseStep
  dsimp only
  split
  · split
    · exact h.setPe _ s
    · exact h.trans (h.setPe _ s) (h.pauseWindow _ _)
  · exact h.setPe _ s

theorem profileHalted (s : State) : R s s.profileHalted := by
  refine h.trans (h.trans ?_ (h.setPe _ _)) (h.hardCheck _)
  split
  · refine h.trans (h.trans (h.pauseStep s) ?_) (h.setPe _ _)
    split
    · exact h.setPe _ _
    · exact h.refl _
  · exact h.setPe _ s
  all_goals exact h.refl s

theorem noisePause (s : State) : R s s.noisePause := by
  unfold State.noisePause
  split
  · split
    · exact h.trans (h.setPe _ s) (h.pauseWindow _ _)
    · exact h.refl s
  · exact h.refl s

theorem applyProfileHalt {was : StopSet} {s : State} (hw : was.Within s.halt) : R s (s.applyProfileHalt was) := by
  obtain ⟨hp, -⟩ := hw
  unfold State.applyProfileHalt
  split
  · exact h.profileHalted s
  · exact h.hardCheck s
  · simp_all
  · exact h.refl s

theorem applyNoiseHalt {was : StopSet} {s : State} (hw : was.Within s.halt) : R s (s.applyNoiseHalt was) := by
  obtain ⟨-, hn, -⟩ := hw
  unfold State.applyNoiseHalt
  split
  · exact h.trans (h.noisePause s) (h.syncStreams _)
  · simp_all
  · exact h.refl s

theorem applyLeakHalt {was : StopSet} {s : State} (hw : was.Within s.halt) : R s (s.applyLeakHalt was) := by
  obtain ⟨-, -, hl, -⟩ := hw
  unfold State.applyLeakHalt
  split
  · exact h.haltChambers s
  · simp_all
  · exact h.refl s

theorem applyTransferHalt {was : StopSet} {s : State} (hw : was.Within s.halt) : R s (s.applyTransferHalt was) := by
  obtain ⟨-, -, -, ht⟩ := hw
  unfold State.applyTransferHalt
  split
  · split
    · exact h.stopConveyor s
    · exact h.refl s
  · simp_all
  · exact h.refl s

/-- Where members only enter the halt set, all four blocks keep such a relation as they are told of it (R135). -/
theorem applyHalts {was : StopSet} {s : State} (hw : was.Within s.halt) : R s (s.applyHalts was) := by
  have within : ∀ {t : State}, t.cu.stack = s.cu.stack → was.Within t.halt := fun ht => by rwa [State.halt_congr ht]
  have noise := h.trans (h.applyProfileHalt hw) (h.applyNoiseHalt (within (t := s.applyProfileHalt was) (by simp)))
  have leak := h.trans noise (h.applyLeakHalt (within (by simp)))
  exact h.trans leak (h.applyTransferHalt (within (by simp)))

end KeptByHalts

/-! ## An injected DRIVE_FAULT (R128, R129, R138) -/

/-- While its injected flag is set, the judgements of DRIVE_FAULT leave its latch and last active time. -/
def InjectedDriveFaultKept (s t : State) : Prop :=
  (s.cond 4).injected = true →
    (t.cond 4).injected = true ∧ (t.cond 4).latch = (s.cond 4).latch ∧ (t.cond 4).lastActive = (s.cond 4).lastActive

theorem InjectedDriveFaultKept.of_cond {s t : State} (h : t.cond 4 = s.cond 4) : InjectedDriveFaultKept s t := fun hi => by
  rw [h]
  exact ⟨hi, rfl, rfl⟩

theorem injectedDriveFaultKept_setEnable (s : State) : InjectedDriveFaultKept s (s.setEnable false) := by
  unfold State.setEnable
  split
  · exact .of_cond rfl
  · intro hi
    simp [State.judgeDrive, State.cond_setSource_level (show conditionKind 4 = .level from rfl), hi]

theorem keptByHalts_injectedDriveFault : KeptByHalts InjectedDriveFaultKept := by
  have hm : NotStarvation 4 := ⟨by decide, by decide, by decide⟩
  exact {
    refl := fun _ => .of_cond rfl
    trans := fun h h' hi => by
      obtain ⟨hi1, hlatch, htime⟩ := h hi
      obtain ⟨hi2, hlatch', htime'⟩ := h' hi1
      exact ⟨hi2, hlatch'.trans hlatch, htime'.trans htime⟩
    setPe := fun _ _ => .of_cond rfl
    setEnable := injectedDriveFaultKept_setEnable
    complete := fun _ _ => .of_cond (by simp)
    closeWindows := fun _ => .of_cond (by simp [hm])
    checkRunDone := fun _ => .of_cond (by simp [hm])
    pauseWindow := fun _ _ => .of_cond (by simp [hm])
    syncStreams := fun _ => .of_cond (by simp [hm])
    haltChambers := fun _ => .of_cond (by simp)
    stopConveyor := fun _ => .of_cond (by simp) }

end Sys2Proof.Machine
end

