-- ==== Sys2Proof/Proofs/ConditionCommands.lean ====
section
/-! COND_ACK and COND_INJECT: the refusals, the acknowledged and the injected record, and the taking check that an injection brings (R136 to
R138). -/

namespace Sys2Proof.Machine

/-! ## COND_ACK (R137) -/

/-- A COND_ACK whose owner changes nothing is only answered. -/
theorem exec_condAck_answers {tag b : Byte} {s : State} {r : Reply} (hl : s.listens)
    (h : takeCondAck b (s.headed ⟨0x12, tag, [b]⟩) = (s.headed ⟨0x12, tag, [b]⟩, r)) :
    ∃ t, exec (.condAck tag b) s = .next t ∧ OnlyAnswers ⟨0x12, tag, [b]⟩ r s t :=
  exec_answers_of_take (cmd := .condAck b) rfl rfl hl rfl (by simp [bodyLimits, within]) h

/-- The record of a condition after its acknowledgement: no injected flag, and no latch where it is LATCHED (R137). -/
def Condition.acknowledged (kind : ConditionKind) (c : Condition) : Condition :=
  { c with injected := false, latch := if kind = .latched then false else c.latch }

theorem takeCondAck_stillActive {n : Fin 20} {s : State} (hk : conditionKind n = .latched) (ha : (s.cond n).source = true) :
    takeCondAck (BitVec.ofNat 8 n.val) s = (s, refuse .stillActive) := by
  simp [takeCondAck, withCondition, conditionIndex_of_condition, hk, ha]

theorem takeCondAck_clears {n : Fin 20} {s : State} (h : conditionKind n = .level ∨ (s.cond n).source = false) :
    takeCondAck (BitVec.ofNat 8 n.val) s = (s.mapCond n (Condition.acknowledged (conditionKind n)), refuse .ok) := by
  cases hk : conditionKind n with
  | level =>
    simp only [takeCondAck, withCondition, conditionIndex_of_condition, hk]
    rfl
  | latched =>
    have hsource : (s.cond n).source = false := h.resolve_left (by simp [hk])
    simp only [takeCondAck, withCondition, conditionIndex_of_condition, hk, hsource]
    rfl

/-- Settles O49: the three refusals leave the machine to the answer; the acknowledgement changes one condition record. -/
theorem ackClearsLatchAndInjection : Obligations.AckClearsLatchAndInjection := by
  refine fun tag s hl => ⟨fun b hb => ?_, fun n => ⟨fun hk ha => ?_, fun h => ?_⟩⟩
  · exact exec_condAck_answers hl (by simp only [takeCondAck, withCondition, conditionIndex_of_large b hb]; rfl)
  · exact exec_condAck_answers hl (takeCondAck_stillActive hk (by simpa [State.cond] using ha))
  obtain ⟨t, ht, hanswered, hpending, hsame, hnotices, -, -⟩ :=
    exec_served (c := .condAck tag (BitVec.ofNat 8 n.val)) rfl rfl hl.1
  rw [serve_eq_take (c := .condAck tag (BitVec.ofNat 8 n.val)) rfl rfl (by simpa using hl.2) rfl (by simp [bodyLimits, within]),
    show take (.condAck (BitVec.ofNat 8 n.val)) _ = _ from
      takeCondAck_clears (by simpa [State.cond] using h)] at hanswered hsame hnotices
  have hcu := hsame .cu (by decide)
  have hcond : ∀ m, t.cond m = if m = n then Condition.acknowledged (conditionKind n) (s.cond n) else s.cond m := fun m => by
    rw [State.cond_congr hcu, State.cond_mapCond, State.cond_congr (t := s.headed _) (s := s) (by simp),
      State.cond_congr (t := s.headed _) (s := s) (by simp)]
  refine ⟨t, ht, ⟨hpending, fun b hb => ?_⟩, hanswered, by simpa using hnotices, ?_, fun m hm => by rw [hcond, if_neg hm], ?_⟩
  · simp only [List.mem_cons, List.not_mem_nil, or_false, not_or] at hb
    have := hsame b hb.1
    cases b <;> simp_all [Part.same]
  · rw [hcond, if_pos rfl]
    rfl
  · simp only [Part.same] at hcu
    simp [hcu]

/-! ## COND_INJECT (R138) -/

/-- A COND_INJECT whose owner changes nothing is only answered. -/
theorem exec_condInject_answers {tag b : Byte} {s : State} {r : Reply} (hl : s.listens)
    (h : takeCondInject b (s.headed ⟨0x13, tag, [b]⟩) = (s.headed ⟨0x13, tag, [b]⟩, r)) :
    ∃ t, exec (.condInject tag b) s = .next t ∧ OnlyAnswers ⟨0x13, tag, [b]⟩ r s t :=
  exec_answers_of_take (cmd := .condInject b) rfl rfl hl rfl (by simp [bodyLimits, within]) h

/-- The record of condition `n` once it is injected (R138). -/
def State.injectedRecord (n : Fin 20) (s : State) : Condition :=
  { s.cond n with
    injected := true, latch := (s.cond n).latch || decide (conditionKind n = .latched)
    lastActive := if s.active n then (s.cond n).lastActive else some s.now }

theorem State.inject_cu (n : Fin 20) (s : State) : (s.inject n).cu = (raisedAt 0 n (s.injectedRecord n) s).cu := by
  have hrecord : (s.inject n).cond n = s.injectedRecord n := by
    rw [State.inject, State.cond_changeCond, if_pos rfl]
    have hafter : Condition.active (conditionKind n) { s.cond n with
        injected := true, latch := (s.cond n).latch || decide (conditionKind n = .latched) } = true := by
      cases conditionKind n <;> simp [Condition.active]
    rw [hafter, show (s.cond n).active (conditionKind n) = s.active n from rfl, State.injectedRecord]
    cases s.active n <;> simp
  rw [raisedAt, ← hrecord]
  simp [State.inject, State.changeCond, State.mapCond]

theorem State.cond_inject (n : Fin 20) (s : State) : (s.inject n).cond n = s.injectedRecord n := by
  simp [State.cond, State.inject_cu, raisedAt]

/-- What COND_INJECT makes of the machine where it is not refused (R138, R133, R135). -/
def State.injectAndCheck (n : Fin 20) (s : State) : State := ((s.inject n).takingCheck []).applyHalts s.halt

theorem takeCondInject_protected {n : Fin 20} {s : State} (hn : n.val < 16) (hm : s.cu.mode = .production) :
    takeCondInject (BitVec.ofNat 8 n.val) s = (s, refuse .protected_) := by
  simp [takeCondInject, withCondition, conditionIndex_of_condition, hn, hm]

theorem takeCondInject_injects {n : Fin 20} {s : State} (h : 16 ≤ n.val ∨ s.cu.mode = .maintenance) :
    takeCondInject (BitVec.ofNat 8 n.val) s =
      (s.injectAndCheck n, answer .ok [flagByte (!s.onStack n && (s.injectAndCheck n).onStack n)]) := by
  have hnot : ¬(n.val < 16 ∧ s.cu.mode = .production) := fun ⟨hn, hm⟩ => by
    rcases h with h | h
    · omega
    · simp [hm] at h
  simp only [takeCondInject, withCondition, conditionIndex_of_condition, if_neg hnot, State.injectAndCheck]

theorem State.halt_within_injectAndCheck (n : Fin 20) (s : State) : s.halt.Within ((s.inject n).takingCheck []).halt := by
  have := State.halt_within_takingCheck (s.inject n)
  rwa [State.halt_congr (s := s) (t := s.inject n) (by simp [State.inject_cu, raisedAt])] at this

/-- The injected record stands through the taking check and the halts but for its source: that of a starvation condition or of DRIVE_FAULT
may move with the halts (R128). -/
theorem State.cond_injectAndCheck (n : Fin 20) (s : State) :
    ((s.injectAndCheck n).cond n).injected = true ∧ ((s.injectAndCheck n).cond n).latch = (s.injectedRecord n).latch ∧
    ((s.injectAndCheck n).cond n).lastActive = (s.injectedRecord n).lastActive := by
  have hchecked : ((s.inject n).takingCheck []).cond n = s.injectedRecord n := by rw [State.cond_takingCheck, State.cond_inject]
  have hwithin := State.halt_within_injectAndCheck n s
  by_cases hn : n = 4
  · subst hn
    have := keptByHalts_injectedDriveFault.applyHalts hwithin (by rw [hchecked]; rfl)
    rwa [hchecked] at this
  · obtain ⟨hlatch, htime⟩ := (StarvationKept.applyHalts hwithin).latch n hn
    rw [hchecked] at hlatch htime
    refine ⟨?_, hlatch, htime⟩
    simp [State.injectAndCheck, State.cond_inject, State.injectedRecord]

theorem State.active_injectAndCheck (n : Fin 20) (s : State) : (s.injectAndCheck n).active n = true := by
  obtain ⟨hinjected, hlatch, -⟩ := State.cond_injectAndCheck n s
  cases hk : conditionKind n with
  | level => rw [State.active_level hk, hinjected, Bool.or_true]
  | latched => simp [State.active_latched hk, hlatch, State.injectedRecord, hk]

theorem takingCheckMade_injectAndCheck (n : Fin 20) (s : State) :
    TakingCheckMade (raisedAt 0 n (s.injectedRecord n) s) (s.injectAndCheck n) :=
  (takingCheck_made [] (s.inject n)).congr (State.inject_cu n s).symm
    (by simp [raisedAt, State.inject, State.changeCond, State.mapCond]) (by simp [State.injectAndCheck])
    (by simp [State.injectAndCheck])

/-- One taking check takes one condition at most (R133). -/
theorem IsTaken.unique {n m : Fin 20} {s : State} (hn : IsTaken n s) (hm : IsTaken m s) : n = m :=
  Option.some.inj (((State.pick_eq_some s n).2 hn).symm.trans ((State.pick_eq_some s m).2 hm))

theorem IsTaken.not_onStack {n : Fin 20} {s : State} (h : IsTaken n s) : s.onStack n = false := by
  obtain ⟨hq, -⟩ := h
  simp only [State.qualifies, Bool.and_eq_true, Bool.not_eq_true'] at hq
  obtain ⟨⟨⟨-, hoff⟩, -⟩, -⟩ := hq
  exact hoff

/-- The condition whose frame is new after a taking check is that of R133, and no other is (R133, R134). -/
theorem TakingCheckMade.newFrame_iff {u t : State} (h : TakingCheckMade u t) (n : Fin 20) :
    (!u.onStack n && t.onStack n) = true ↔ IsTaken n u := by
  obtain ⟨hleft, hpushed⟩ := h
  rcases taken_or_none u with ⟨m, hm⟩ | hnone
  · obtain ⟨hstack, -⟩ := hpushed m hm
    have hnew : t.onStack n = (decide (m = n) || u.onStack n) := by simp [State.onStack, hstack]
    constructor
    · intro hframe
      rw [hnew] at hframe
      obtain rfl : m = n := by
        by_contra hne
        simp [hne] at hframe
      exact hm
    · intro hn
      simp [hnew, hm.unique hn, hn.not_onStack]
  · have hsame : t.onStack n = u.onStack n := by simp [State.onStack, (hleft hnone).1]
    constructor
    · intro hframe
      simp [hsame] at hframe
    · intro hn
      exact absurd hn.1 (by simp [hnone n])

/-- Settles O50: the injected record stands through the taking check and the halts, and the new frame is that of the taken condition. -/
theorem injectionActivatesAndChecks : Obligations.InjectionActivatesAndChecks := by
  refine fun tag s hl => ⟨fun b hb => ?_, fun n => ⟨fun hn hm => ?_, fun h => ?_⟩⟩
  · exact exec_condInject_answers hl (by simp only [takeCondInject, withCondition, conditionIndex_of_large b hb]; rfl)
  · exact exec_condInject_answers hl (takeCondInject_protected hn (by simpa using hm))
  obtain ⟨t, ht, hanswered, hpending, hsame, -⟩ := exec_served (c := .condInject tag (BitVec.ofNat 8 n.val)) rfl rfl hl.1
  rw [serve_eq_take (c := .condInject tag (BitVec.ofNat 8 n.val)) rfl rfl (by simpa using hl.2) rfl (by simp [bodyLimits, within]),
    show take (.condInject (BitVec.ofNat 8 n.val)) _ = _ from takeCondInject_injects (by simpa using h)] at hanswered hsame
  set u := s.headed ⟨0x13, tag, [BitVec.ofNat 8 n.val]⟩ with hu
  have hucu : u.cu = s.cu := by simp [hu]
  have hrecord : u.injectedRecord n = s.injectedRecord n := rfl
  have hcu : t.cu = (u.injectAndCheck n).cu := hsame .cu (by decide)
  obtain ⟨hinjected, hlatch, htime⟩ := State.cond_injectAndCheck n u
  have hmade : TakingCheckMade (raisedAt 0 n (s.injectedRecord n) s) t :=
    (takingCheckMade_injectAndCheck n u).congr (by simp [raisedAt, hucu, hrecord]) (by simp [raisedAt, hu]) (by rw [hcu]) (by rw [hcu])
  have hframe := hmade.newFrame_iff n
  rw [show (raisedAt 0 n (s.injectedRecord n) s).onStack n = u.onStack n by simp [State.onStack, raisedAt, hucu],
    show t.onStack n = (u.injectAndCheck n).onStack n by simp [State.onStack, hcu]] at hframe
  refine ⟨t, ht, ⟨hpending, fun b hb => ?_⟩, ?_, ?_, ?_, ?_, hmade, fun htaken => ?_, fun htaken => ?_⟩
  · have hpart := hsame b fun he => hb (by simp [he])
    cases b <;> simp_all [Part.same, State.injectAndCheck, State.inject, State.changeCond, State.mapCond]
  · rw [State.active_congr (State.cond_congr hcu n)]
    exact State.active_injectAndCheck n u
  · rw [State.cond_congr hcu]
    exact hinjected
  · rw [State.cond_congr hcu, hlatch, hrecord]
    rfl
  · rw [State.cond_congr hcu, htime, hrecord]
    rfl
  · rw [hframe.2 htaken] at hanswered
    exact hanswered
  · rw [Bool.eq_false_iff.2 fun hnew => htaken (hframe.1 hnew)] at hanswered
    exact hanswered

end Sys2Proof.Machine
end

