-- ==== Sys2Proof/Proofs/Resume.lean ====
section
/-! RESUME: the state without the law of R57 in which the unit that leaves station 1 brings its own plan to the chamber that fills (R57, R108,
R139). -/

namespace Sys2Proof.Machine

/-! ## RESUME (R139) -/

/-- The image of a recipe without steps and without windows, all else of it as erased (R22). -/
def emptyImage : Memory := (List.range 8).map fun k => (64 + k, 0)

/-- A running unit with that recipe. -/
def unitOfEmptyImage : UnitRecord := { UnitRecord.begun 1 [] 1 0 (readRecipe emptyImage) 0 with state := .running }

/-- A profile that is STOPPING under a SOFT halt although a frame of severity 14 halts PROFILE, so without the law of R57, and with one
chamber in the queue. The top frame halts LEAK alone, and no condition is active. -/
def softUnderSevereFrame : State :=
  let s := State.reset.setRs { State.reset.rs with
    scanning := false, slots := State.reset.rs.slots.set 1 { State.reset.rs.slots[1] with bytes := emptyImage, state := .valid, inUse := 1 } }
  let s := s.setUt { s.ut with records := s.ut.records.set 0 (some unitOfEmptyImage) }
  let s := s.setPe { s.pe with phase := .stopping, cause := some .runOut, setpoint := 400, enable := true, brake := false, halt := .soft }
  let s := s.setLkc { s.lkc with queue := [0], resetVent := .over }
  s.setCu { s.cu with
    conditions := s.cu.conditions.map fun c => { c with latch := false, source := false }
    stack := [⟨19, 4, ⟨false, false, true, false⟩, 14, 0⟩, ⟨5, 14, ⟨true, false, false, false⟩, 0, 0⟩], rl := 4 }

theorem softUnderSevereFrame_not_hardWhereSevere : ¬HardWhereSevere softUnderSevereFrame := fun h => by
  have hhalt : softUnderSevereFrame.pe.halt = .hard := h (by decide +kernel) (by decide +kernel)
  exact absurd hhalt (by decide +kernel)

/-- No unit is at station 2, so no plan is in force for chamber 0 before the command. -/
theorem softUnderSevereFrame_plan : (softUnderSevereFrame.chamberPlan 0).fillTimeout = 0 := by decide +kernel

/-- What the RESUME leaves of chamber 0: the check of R57 ends the profile and moves the unit on to station 2, and the fill that then
begins has the fill timeout of the unit's recipe. -/
theorem softUnderSevereFrame_resumed {t : State} (h : exec (.resume 7) softUnderSevereFrame = .next t) :
    (t.chamber 0).timer = some 0xFFFFFFFF := by
  rw [exec_of_frame (f := ⟨0x16, 7, []⟩) rfl] at h
  obtain rfl := Host.Outcome.next.inj h
  decide +kernel

/-- Refutes O52: the clause of the chamber queue names the fill timeout of the plan in force before the command and asks for no law, but
where PROFILE stays halted SOFT under a severe frame (against R57, so in no reachable state) the halts end a STOPPING profile, whose unit
takes the free station 2 before the queue's head fills. -/
theorem not_resumePopsTheTopFrame : ¬ Obligations.ResumePopsTheTopFrame := by
  intro h
  obtain ⟨t, ht, -, -, -, hreleased⟩ := ((h 7 softUnderSevereFrame ⟨rfl, rfl⟩).2 _ _ rfl).2 (by decide +kernel)
  obtain ⟨-, -, -, hfill, -⟩ := hreleased (by unfold NoneQualifies; decide +kernel)
  obtain ⟨hchamber, -⟩ := hfill (by decide +kernel) (by decide +kernel) (by decide +kernel) (by decide +kernel) (by decide +kernel)
    (noUnitIn_of (by decide +kernel)) 0 [] rfl
  have htimer := softUnderSevereFrame_resumed ht
  rw [hchamber, softUnderSevereFrame_plan] at htimer
  exact absurd htimer (by decide)

end Sys2Proof.Machine
end

