-- ==== Sys2Proof/Proofs/TakingKept.lean ====
section
/-! What the halts keep of a taking: the interruptions, the pending CONDITION notices, and an occupied station 2 (R4, R5, R143). -/

namespace Sys2Proof.Machine

/-! ## What the halts keep of a taking (R4, R143) -/

/-- What a record shows of the conditions taken while its unit worked (R4). -/
def UnitRecord.interrupted (r : UnitRecord) : List (Fin 20) × Bool := (r.interruptions, r.overflow)

theorem RecordsKeep.mapRunIn_of {α : Type} {f : UnitRecord → α} (hf : ∀ r x, f { r with runIn := x } = f r) (g : RunIn → RunIn)
    (s : State) : RecordsKeep f s (s.mapRunIn g) := by
  unfold State.mapRunIn
  split
  · exact mapUnit _ fun r _ => hf r _
  · exact of_ut rfl

/-- What is read of the records, but for their run-in and noise sections and their moves at station 1, stands through the halts. -/
theorem keptByHalts_records {α : Type} {f : UnitRecord → α} (hrun : ∀ r x, f { r with runIn := x } = f r) (hnoise : IgnoresNoise f)
    (hdone : ∀ s : State, RecordsKeep f s s.checkRunDone) : KeptByHalts (RecordsKeep f) where
  refl _ := .of_ut rfl
  trans h h' := h.trans h'
  setPe _ _ := .of_ut rfl
  setEnable _ := .of_ut (by simp)
  complete _ s := .mapRunIn_of hrun _ s
  closeWindows s := .closeWindows hnoise s
  checkRunDone s := hdone s
  pauseWindow _ _ := .of_ut (by simp)
  syncStreams _ := .of_ut (by simp)
  haltChambers _ := .of_ut (by simp)
  stopConveyor _ := fun _ => rfl

theorem keptByHalts_interrupted : KeptByHalts (RecordsKeep UnitRecord.interrupted) :=
  keptByHalts_records (fun _ _ => rfl) (fun _ _ => rfl) (RecordsKeep.checkRunDone fun _ _ _ _ => rfl)

/-- The pending CONDITION notices of `s` stand in `t` (R165). -/
def ConditionNoticesKept (s t : State) : Prop :=
  ∀ (k : Fin 20) (n : Notice), n.key = .condition k → n ∈ s.lp.notices → n ∈ t.lp.notices

namespace ConditionNoticesKept

variable {s t u : State}

theorem of_notices (h : t.lp.notices = s.lp.notices) : ConditionNoticesKept s t := fun _ _ _ hn => by rwa [h]

theorem trans (h : ConditionNoticesKept s t) (h' : ConditionNoticesKept t u) : ConditionNoticesKept s u :=
  fun k n hk hn => h' k n hk (h k n hk hn)

theorem raise {key : NoticeKey} (hk : ∀ k, key ≠ .condition k) (content : NoticeContent) (s : State) :
    ConditionNoticesKept s (s.raise key content) :=
  fun k _ hn hmem => mem_putNotice_of_ne hmem (by rw [hn]; exact fun h => hk k h.symm)

theorem enterState (i : Fin 8) (v : UnitState) (s : State) : ConditionNoticesKept s (s.enterState i v) := by
  have changed : ConditionNoticesKept s (s.mapUnit i fun r => { r with state := v }) := of_notices rfl
  refine changed.trans ?_
  unfold State.enterState State.unitNotice
  split
  · exact raise (by simp) _ _
  · exact of_notices rfl

theorem enterWanted (st : StreamId) (s : State) : ConditionNoticesKept s (s.enterWanted st) := by
  have entered : ConditionNoticesKept s (s.enterStream st (s.wantedState st)) := of_notices (by simp)
  unfold State.enterWanted
  dsimp only
  split
  · exact entered.trans (raise (by simp) _ _)
  · exact entered

theorem setTarget (st : StreamId) (p : Plan) (s : State) : ConditionNoticesKept s (s.setTarget st p) := by
  have placed : ∀ x, ConditionNoticesKept s (s.setStream st x) := fun _ => of_notices (by simp)
  unfold State.setTarget
  dsimp only
  split
  · split
    · exact (placed _).trans (enterWanted st _)
    · exact of_notices rfl
  · split
    · exact (placed _).trans (enterWanted st _)
    · exact of_notices (by simp)

theorem checkPlan (st : StreamId) (s : State) : ConditionNoticesKept s (s.checkPlan st) := by
  unfold State.checkPlan
  split
  · split
    · exact (of_notices (by simp) : ConditionNoticesKept s (s.setStream st _)).trans (enterWanted st _)
    · exact of_notices rfl
  · exact of_notices rfl

theorem checkPlans (s : State) : ConditionNoticesKept s s.checkPlans :=
  ((checkPlan .vib s).trans (checkPlan .slow _)).trans (checkPlan .leak _)

theorem releaseVib (d : Fin 32) (s : State) : ConditionNoticesKept s (s.releaseVib d) := by
  have freed : ∀ x, ConditionNoticesKept s (s.setCs x) := fun _ => of_notices rfl
  exact (freed _).trans (checkPlans _)

theorem abandonFor (n : Nat) (s : State) : ConditionNoticesKept s (s.abandonFor n) := by
  unfold State.abandonFor State.abandonOpen
  split
  · split
    · next d _ _ =>
      exact (of_notices rfl : ConditionNoticesKept s (s.setAfe { s.afe with openVib := none })).trans (releaseVib d _)
    · exact of_notices rfl
  · exact of_notices rfl

theorem closeWindow (n : Nat) (s : State) : ConditionNoticesKept s (s.closeWindow n) := by
  cases hw : s.oa.window n with
  | none => rw [State.closeWindow_absent hw]; exact of_notices rfl
  | some w =>
    rcases State.closeWindow_found hw with ⟨-, -, h⟩ | ⟨-, -, h⟩ | ⟨-, -, h⟩ <;> rw [h]
    · exact (abandonFor n s).trans (of_notices (by simp))
    · exact (abandonFor n s).trans (of_notices (by simp))
    · exact of_notices rfl

theorem closeAll (s : State) : ConditionNoticesKept s s.closeAll := by
  unfold State.closeAll
  generalize s.oa.windows.map Window.number = ns
  induction ns generalizing s with
  | nil => exact of_notices rfl
  | cons n ns ih => exact (closeWindow n s).trans (ih _)

theorem closeWindows (s : State) : ConditionNoticesKept s s.closeWindows := by
  unfold State.closeWindows
  split
  · exact of_notices (by simp)
  · exact closeAll s

theorem checkTransfer (s : State) : ConditionNoticesKept s s.checkTransfer := by
  unfold State.checkTransfer
  split
  · next i _ =>
    split
    · dsimp only
      have moved := (of_notices rfl : ConditionNoticesKept s s.runConveyor).trans (enterState i .inTransfer _)
      split
      · exact moved.trans (setTarget _ _ _)
      · exact moved
    · exact of_notices rfl
  · exact of_notices rfl

theorem disarmSilence (s : State) : ConditionNoticesKept s s.disarmSilence := by
  unfold State.disarmSilence
  split <;> exact of_notices rfl

theorem checkRunDone (s : State) : ConditionNoticesKept s s.checkRunDone := by
  unfold State.checkRunDone
  split
  · exact of_notices rfl
  · next i _ =>
    split
    · exact of_notices rfl
    · split
      · have moved : ConditionNoticesKept s (s.enterState i .runDone).syncStreams :=
          (enterState i .runDone s).trans (of_notices (by simp))
        exact (moved.trans (disarmSilence _)).trans (checkTransfer _)
      · exact of_notices rfl

end ConditionNoticesKept

theorem keptByHalts_conditionNotices : KeptByHalts ConditionNoticesKept where
  refl _ := .of_notices rfl
  trans h h' := h.trans h'
  setPe _ _ := .of_notices rfl
  setEnable _ := .of_notices (by simp)
  complete _ _ := .of_notices (by simp)
  closeWindows := ConditionNoticesKept.closeWindows
  checkRunDone := ConditionNoticesKept.checkRunDone
  pauseWindow _ _ := .of_notices (by simp)
  syncStreams _ := .of_notices (by simp)
  haltChambers _ := .of_notices (by simp)
  stopConveyor _ := .of_notices rfl

/-! ## What the halts keep of an occupied station 2 (R5, R12) -/

/-- What the blocks read of a record to find the station-2 unit, its recipe, and whether it is on the conveyor. -/
def UnitRecord.station2 (r : UnitRecord) : Fin 16 × Bool × Bool := (r.slot, r.state.atStation2, decide (r.state = .inTransfer))

theorem RecordsKeep.unit2 {s t : State} (h : RecordsKeep UnitRecord.station2 s t) : t.unit2 = s.unit2 :=
  (h.comp fun x => x.2.1).find

theorem RecordsKeep.anyTransfer {s t : State} (h : RecordsKeep UnitRecord.station2 s t) : t.anyTransfer = s.anyTransfer :=
  State.anyUnit_congr (h.comp fun x : Fin 16 × Bool × Bool => x.2.2)

theorem RecordsKeep.recipe2 {s t : State} (h : RecordsKeep UnitRecord.station2 s t) (hr : t.rs = s.rs) : t.recipe2 = s.recipe2 := by
  simp only [State.recipe2, h.unit2]
  congr 1
  funext j
  have hj := h j
  cases ht : t.ut.records[j] <;> cases hs : s.ut.records[j] <;> simp_all [UnitRecord.station2, State.recipeOf]

/-- With station 2 occupied no transfer starts (R12). -/
theorem State.checkTransfer_occupied {s : State} (h : s.unit2.isSome = true) : s.checkTransfer = s := by
  unfold State.checkTransfer
  split
  · refine if_neg fun ⟨hnone, _⟩ => ?_
    simp [Option.isNone_iff_eq_none.1 hnone] at h
  · rfl

/-- With station 2 occupied the records show the same of it in `t` as in `s`. -/
def Station2Kept (s t : State) : Prop := s.unit2.isSome = true → RecordsKeep UnitRecord.station2 s t

theorem station2Kept_checkRunDone (s : State) : Station2Kept s s.checkRunDone := by
  intro h
  unfold State.checkRunDone
  split
  · exact .of_ut rfl
  · next i hi =>
    split
    · exact .of_ut rfl
    · split
      · obtain ⟨r, hr, hstate⟩ := UnitTable.find_some hi
        have moved : RecordsKeep UnitRecord.station2 s ((s.enterState i .runDone).syncStreams.disarmSilence) := by
          refine (RecordsKeep.mapUnit i (g := fun r => { r with state := .runDone }) fun r' hr' => ?_).then_same (by simp)
          obtain rfl : r = r' := by simpa [hr] using hr'
          simp only [decide_eq_true_eq] at hstate
          simp [UnitRecord.station2, hstate, UnitState.atStation2]
        rw [State.checkTransfer_occupied (by rwa [moved.unit2])]
        exact moved
      · exact .of_ut rfl

theorem keptByHalts_station2 : KeptByHalts Station2Kept where
  refl _ := fun _ => .of_ut rfl
  trans h h' := fun hs => (h hs).trans (h' (by rwa [(h hs).unit2]))
  setPe _ _ := fun _ => .of_ut rfl
  setEnable _ := fun _ => .of_ut (by simp)
  complete _ s := fun _ => .mapRunIn_of (fun _ _ => rfl) _ s
  closeWindows s := fun _ => .closeWindows (fun _ _ => rfl) s
  checkRunDone := station2Kept_checkRunDone
  pauseWindow _ _ := fun _ => .of_ut (by simp)
  syncStreams _ := fun _ => .of_ut (by simp)
  haltChambers _ := fun _ => .of_ut (by simp)
  stopConveyor _ := fun _ _ => rfl

end Sys2Proof.Machine
end

