-- ==== Sys2Proof/Proofs/HaltedWork.lean ====
section
/-! What each member stops as it enters the halt set: the Profile Engine and its change to HARD, the open window, the chambers and the conveyor
(R15, R56, R57, R62, R74, R121). -/

namespace Sys2Proof.Machine

/-! ## The Profile Engine under a halt (R56, R57) -/

theorem State.setEnable_false_pe (s : State) : (s.setEnable false).pe = { s.pe with enable := false } := by
  unfold State.setEnable
  split
  · next h => rw [← h]
  · simp [State.judgeDrive]

/-- The engine with its drive cut, as the change to HARD leaves it (R57). -/
def State.cutDrive (s : State) : State :=
  (s.setEnable false).setPe { (s.setEnable false).pe with
    halt := .hard, setpoint := 0, torqueL := 0, torqueR := 0, brake := true }

theorem State.cutDrive_pe (s : State) :
    s.cutDrive.pe = { s.pe with halt := .hard, setpoint := 0, torqueL := 0, torqueR := 0, enable := false, brake := true } := by
  rw [State.cutDrive, State.setPe_pe, State.setEnable_false_pe]

@[simp] theorem State.cutDrive_frame (s : State) :
    s.cutDrive.ut = s.ut ∧ s.cutDrive.rs = s.rs ∧ s.cutDrive.afe = s.afe ∧ s.cutDrive.cs = s.cs ∧ s.cutDrive.oa = s.oa ∧
    s.cutDrive.cu.stack = s.cu.stack := by simp [State.cutDrive]

/-- Drive enable off, setpoint and torques 0, the brake applied, under a HARD halt (R57). -/
def DriveCut (t : State) : Prop :=
  t.pe.halt = .hard ∧ t.pe.setpoint = 0 ∧ t.pe.torqueL = 0 ∧ t.pe.torqueR = 0 ∧ t.pe.enable = false ∧ t.pe.brake = true

theorem State.profileEnd_pe (cause : StopCause) (s : State) :
    (s.profileEnd cause).pe = { s.driveOff.pe with phase := .idle, cause := none } := by
  simp [State.profileEnd_eq]

theorem State.hardCheck_of_mild {s : State} (h : s.severeFrame = false) : s.hardCheck = s :=
  State.hardCheck_self fun hs => by simp [h] at hs

/-- A change to HARD ends a profile that is STOPPING (R57). -/
theorem State.hardCheck_ends {s : State} {cause : StopCause} (hne : s.pe.halt ≠ .hard) (hs : s.severeFrame = true)
    (hp : s.pe.phase = .stopping) (hc : s.pe.cause = some cause) : s.hardCheck = s.cutDrive.profileEnd cause := by
  have hphase : s.cutDrive.pe.phase = .stopping := by rw [State.cutDrive_pe]; exact hp
  have hcause : s.cutDrive.pe.cause = some cause := by rw [State.cutDrive_pe]; exact hc
  unfold State.hardCheck
  rw [if_pos ⟨hne, hs⟩]
  dsimp only
  rw [← State.cutDrive, hphase, hcause]

/-- Any other change to HARD cuts the drive and no more (R57). -/
theorem State.hardCheck_cuts {s : State} (hne : s.pe.halt ≠ .hard) (hs : s.severeFrame = true)
    (h : s.pe.phase ≠ .stopping ∨ s.pe.cause = none) : s.hardCheck = s.cutDrive := by
  unfold State.hardCheck
  rw [if_pos ⟨hne, hs⟩]
  dsimp only
  rw [← State.cutDrive]
  split
  · next hp hc =>
    rw [State.cutDrive_pe] at hp hc
    rcases h with h | h
    · exact absurd hp h
    · simp [h] at hc
  · rfl

theorem State.hardCheck_driveCut {s : State} (hne : s.pe.halt ≠ .hard) (hs : s.severeFrame = true) : DriveCut s.hardCheck := by
  by_cases h : s.pe.phase ≠ .stopping ∨ s.pe.cause = none
  · rw [State.hardCheck_cuts hne hs h, DriveCut, State.cutDrive_pe]
    simp
  · simp only [not_or, not_not, Option.ne_none_iff_exists'] at h
    obtain ⟨hp, cause, hc⟩ := h
    rw [State.hardCheck_ends hne hs hp hc, DriveCut, State.profileEnd_pe, State.driveOff, State.setPe_pe,
      State.setEnable_false_pe, State.cutDrive_pe]
    simp

/-- A profile that is STOPPING when its halt turns HARD has ended, and every window has been sent close (R51, R57). -/
theorem State.hardCheck_ended {s : State} {cause : StopCause} (hne : s.pe.halt ≠ .hard) (hs : s.severeFrame = true)
    (hp : s.pe.phase = .stopping) (hc : s.pe.cause = some cause) : EngineAtRest s.hardCheck ∧
      (StationLaw s → ∀ (i : Fin 8) (r : UnitRecord), IsUnitIn .running i r s →
        ∃ r', s.hardCheck.ut.records[i] = some r' ∧ RunInEnded cause r'.runIn ∧ r'.runIn.dragResult = r.runIn.dragResult ∧
          r'.runIn.failStep = r.runIn.failStep ∧ TableClosed s.oa.windows r r' s s.hardCheck) := by
  rw [State.hardCheck_ends hne hs hp hc]
  refine ⟨?_, fun hl i r hu => ?_⟩
  · simp [EngineAtRest, State.profileEnd_pe, State.driveOff, State.setEnable_enable]
  · obtain ⟨-, r', hr', hrun, hclosed⟩ :=
      State.profileEnd_ends (hl.congr (t := s.cutDrive) (by simp)) (hu.congr (t := s.cutDrive) (by simp)) cause
    obtain ⟨hended, hfail, hdrag, -⟩ := RunIn.complete_runInEnded cause r.runIn
    have hoa : s.cutDrive.oa = s.oa := by simp
    rw [hoa] at hclosed
    exact ⟨r', hr', hrun ▸ hended, hrun ▸ hdrag, hrun ▸ hfail,
      hclosed.of_same rfl (by simp) (State.unit2_congr (by simp)) (by simp) (by simp)⟩

/-! ## The work that PROFILE stops (R56) -/

theorem State.pauseStep_engine (s : State) : s.pauseStep.pe = s.unsettled.pe := by
  unfold State.pauseStep
  dsimp only
  split
  · split
    · rfl
    · simp [State.unsettled]
  · rfl

theorem State.pauseStep_oa {x : Step} {s : State} (hx : s.currentStep = some x) :
    s.pauseStep.oa = { s.oa with windows := pausedWindow x.window s.oa.windows } := by
  have hw := State.pauseStep_windows hx
  have hqueue : s.pauseStep.oa.queue = s.oa.queue := by simp
  have hcurrent : s.pauseStep.oa.current = s.oa.current := by simp
  rw [← hw]
  dsimp only
  rw [← hqueue, ← hcurrent]

/-- The current step is a MEASURE_DRAG step (R53). -/
def State.measuresDrag (s : State) : Bool := decide (s.currentStep.map Step.kind = some StepKind.measureDrag)

/-- The engine after PROFILE has stopped its work: SUSPENDED from STEPPING, with its window settle timer stopped and a drag pass
discarded, or from REAPPROACH, and in any other phase as it was (R56). -/
def ProfileEngine.stopped (drag : Bool) (e : ProfileEngine) : ProfileEngine :=
  match e.phase with
  | .stepping =>
    { e with
      phase := .suspended, settleTimer := none, settled := false, openSent := false, stepTimer := none, torqueL := 0, torqueR := 0
      dragRecords := if drag then 0 else e.dragRecords, dragSamples := if drag then 0 else e.dragSamples
      dragSum := if drag then 0 else e.dragSum }
  | .reapproach => { e with phase := .suspended }
  | .held | .stopping | .idle | .suspended => e

/-- What PROFILE's entry does before the check of R57: the work stops, and the halt is SOFT (R56). -/
theorem State.profileHalted_eq (s : State) : ∃ q : State, s.profileHalted = q.hardCheck ∧
    q.pe = { s.pe.stopped s.measuresDrag with halt := .soft } ∧
    q.oa = (if s.pe.phase = .stepping then s.pauseStep.oa else s.oa) ∧ q.ut = s.ut ∧ q.rs = s.rs ∧ q.afe = s.afe ∧
    q.cu.stack = s.cu.stack ∧ q.cs.vibDescs = s.cs.vibDescs := by
  refine ⟨_, rfl, ?_⟩
  cases hp : s.pe.phase with
  | stepping =>
    have hx : s.pauseStep.currentStep = s.currentStep :=
      State.currentStep_congr (by simp) (State.recipe1_congr (by simp) (by simp))
    by_cases hd : s.currentStep.map Step.kind = some StepKind.measureDrag
    · simp [ProfileEngine.stopped, hp, hx, hd, State.measuresDrag, State.clearDrag, State.pauseStep_engine, State.unsettled]
    · simp [ProfileEngine.stopped, hp, hx, hd, State.measuresDrag, State.pauseStep_engine, State.unsettled]
  | reapproach => simp [ProfileEngine.stopped, hp]
  | held => simp [ProfileEngine.stopped, hp]
  | stopping => simp [ProfileEngine.stopped, hp]
  | idle => simp [ProfileEngine.stopped, hp]
  | suspended => simp [ProfileEngine.stopped, hp]

/-! ## What the other members stop as they enter (R62, R74, R121, R15) -/

theorem State.applyNoiseHalt_entering {was : StopSet} {s : State} (hw : was.Within s.halt) :
    s.applyNoiseHalt was = if was.noise = false ∧ s.halt.noise = true then s.noisePause.syncStreams else s := by
  obtain ⟨-, hn, -⟩ := hw
  unfold State.applyNoiseHalt
  split <;> simp_all

theorem State.applyLeakHalt_entering {was : StopSet} {s : State} (hw : was.Within s.halt) :
    s.applyLeakHalt was = if was.leak = false ∧ s.halt.leak = true then s.haltChambers else s := by
  obtain ⟨-, -, hl, -⟩ := hw
  unfold State.applyLeakHalt
  split <;> simp_all

theorem State.applyTransferHalt_entering {was : StopSet} {s : State} (hw : was.Within s.halt) :
    s.applyTransferHalt was =
      if was.transfer = false ∧ s.halt.transfer = true ∧ s.anyTransfer = true then s.stopConveyor else s := by
  obtain ⟨-, -, -, ht⟩ := hw
  unfold State.applyTransferHalt
  split <;> simp_all

/-- Without an open that has been sent NOISE pauses nothing (R62). -/
theorem State.noisePause_of_not_sent {s : State} (h : s.pe.openSent = false) : s.noisePause = s := by
  unfold State.noisePause
  split
  · simp [h]
  · rfl

theorem State.noisePause_pe (s : State) : s.noisePause.pe = { s.pe with openSent := s.noisePause.pe.openSent } := by
  unfold State.noisePause
  split
  · split
    · simp
    · rfl
  · rfl

/-- The window that has been sent open is sent pause (R62, R87). -/
theorem State.noisePause_pauses {s : State} {x : Step} (hx : s.currentStep = some x) (ho : s.pe.openSent = true) (hw : x.window ≠ 0) :
    s.noisePause.pe = { s.pe with openSent := false } ∧
    s.noisePause.oa = { s.oa with windows := pausedWindow x.window s.oa.windows } := by
  have hpause : s.noisePause = (s.setPe { s.pe with openSent := false }).pauseWindow x.window := by
    simp [State.noisePause, hx, ho]
  have hwindows := State.pauseWindow_windows hw (s.setPe { s.pe with openSent := false })
  rw [State.setPe_oa] at hwindows
  rw [hpause]
  refine ⟨by simp, ?_⟩
  rw [← hwindows]
  simp [State.pauseWindow, State.mapWindow, OrderAnalyzer.mapWindow]

/-- Under a NOISE halt no VIB capture is wanted: the stream neither runs nor starves (R74). -/
theorem State.syncStreams_vib_halted {s : State} (h : s.halt.noise = true) :
    (s.syncStreams.stream .vib).state ≠ .running ∧ (s.syncStreams.stream .vib).state ≠ .starved := by
  have hwanted : s.wanted .vib = false := by simp [State.wanted, h]
  have hvib : s.syncStreams.stream .vib = (s.syncStream .vib).stream .vib := by
    rw [State.syncStreams, State.stream_syncStream_ne (by simp), State.stream_syncStream_ne (by simp)]
  rw [hvib]
  unfold State.syncStream
  rw [hwanted]
  cases hs : (s.stream .vib).state <;> simp [hs, State.stream_enterStream]

theorem State.enterVent_chamber (c d : Fin 4) (after : AfterVent) (s : State) :
    (s.enterVent c after).chamber d =
      if d = c then ⟨.vent, some (s.chamberPlan c).vent, some after, none⟩ else s.chamber d :=
  State.chamber_setChamber c d _ s

/-- Chamber `d` after LEAK has entered the halt set (R121). -/
def State.haltedChamber (d : Fin 4) (s : State) : Chamber :=
  if (s.chamber d).phase.attempting then ⟨.vent, some (s.chamberPlan d).vent, some .requeue, none⟩ else s.chamber d

/-- Chamber `c` stops its attempt (R121). -/
def State.haltChamber (c : Fin 4) (s : State) : State :=
  if (s.chamber c).phase.attempting then s.enterVent c .requeue else s

theorem State.haltChamber_spec (c : Fin 4) (s : State) :
    (∀ d, (s.haltChamber c).chamber d = if d = c then s.haltedChamber c else s.chamber d) ∧
    ∀ d, (s.haltChamber c).chamberPlan d = s.chamberPlan d := by
  unfold State.haltChamber State.haltedChamber
  split
  · exact ⟨fun d => State.enterVent_chamber c d _ s, fun d => State.chamberPlan_congr rfl rfl d⟩
  · refine ⟨fun d => ?_, fun _ => rfl⟩
    split
    · next h => rw [h]
    · rfl

/-- Each chamber that has an attempt in progress vents for the time of its plan, to come back (R121). -/
theorem foldl_haltChamber (cs : List (Fin 4)) (s : State) (hcs : cs.Nodup) (d : Fin 4) :
    (cs.foldl (fun t c => t.haltChamber c) s).chamber d = if d ∈ cs then s.haltedChamber d else s.chamber d := by
  induction cs generalizing s with
  | nil => simp
  | cons c cs ih =>
    obtain ⟨hc, hrest⟩ := List.nodup_cons.1 hcs
    obtain ⟨hchamber, hplan⟩ := State.haltChamber_spec c s
    rw [List.foldl_cons, ih _ hrest]
    by_cases hd : d = c
    · subst hd
      simp [hc, hchamber]
    · simp [State.haltedChamber, hchamber, hplan, hd]

theorem State.haltChambers_chamber (d : Fin 4) (s : State) : s.haltChambers.chamber d = s.haltedChamber d := by
  have h := foldl_haltChamber (List.finRange 4) s (List.nodup_finRange 4) d
  rw [if_pos (List.mem_finRange d)] at h
  exact h

/-! ## The four members together -/

/-- Where members only enter the halt set, what stands of the run stand and of the records after the four members is what PROFILE and NOISE
leave of them. -/
theorem State.applyHalts_runStand {was : StopSet} {s : State} (hw : was.Within s.halt) :
    let m := (s.applyProfileHalt was).applyNoiseHalt was
    (s.applyHalts was).pe = m.pe ∧ (s.applyHalts was).oa = m.oa ∧ (s.applyHalts was).afe = m.afe ∧ (s.applyHalts was).cs = m.cs ∧
    (s.applyHalts was).ut.records = m.ut.records := by
  intro m
  have hm : was.Within m.halt := by rwa [State.halt_congr (s := s) (t := m) (by simp [m])]
  have hl : was.Within (m.applyLeakHalt was).halt := by rwa [State.halt_congr (s := m) (t := m.applyLeakHalt was) (by simp)]
  have leak : (m.applyLeakHalt was).cs = m.cs ∧ (m.applyLeakHalt was).ut = m.ut := by
    rw [State.applyLeakHalt_entering hm]
    split <;> simp
  have transfer : ∀ v : State, was.Within v.halt → (v.applyTransferHalt was).cs = v.cs ∧
      (v.applyTransferHalt was).ut.records = v.ut.records := fun v hv => by
    rw [State.applyTransferHalt_entering hv]
    split <;> simp [State.stopConveyor]
  obtain ⟨hcs, hut⟩ := transfer _ hl
  refine ⟨?_, ?_, ?_, hcs.trans leak.1, hut.trans (congrArg _ leak.2)⟩ <;> simp [State.applyHalts, m]

end Sys2Proof.Machine
end

