-- ==== Sys2Proof/Proofs/ConditionTake.lean ====
section
/-! CONDITION_TAKE: what is recorded of the taking, and what it leaves of the run stand, the leak stand and the conveyor (R133 to R135). -/

namespace Sys2Proof.Machine

/-! ## The machine with condition `n` taken (R134) -/

/-- What the taking check leaves where condition `n` is to be taken: its frame, RL, the interruptions and the notice. -/
def State.taken (n : Fin 20) (s : State) : State := (s.take n).condNotice n

theorem State.takingCheck_taken {n : Fin 20} {s : State} (h : IsTaken n s) : s.takingCheck [] = s.taken n :=
  State.takingCheck_one h []

@[simp] theorem State.taken_frame (n : Fin 20) (s : State) :
    (s.taken n).pending = s.pending ∧ (s.taken n).clockUs = s.clockUs ∧ (s.taken n).freeCount = s.freeCount ∧
    (s.taken n).lines = s.lines ∧ (s.taken n).rs = s.rs ∧ (s.taken n).pe = s.pe ∧ (s.taken n).afe = s.afe ∧
    (s.taken n).cs = s.cs ∧ (s.taken n).oa = s.oa ∧ (s.taken n).lkc = s.lkc ∧ (s.taken n).cu = (s.take n).cu := by simp [State.taken]

theorem State.taken_halt (n : Fin 20) (s : State) : (s.taken n).halt = (s.cond n).vector.union s.halt := by
  simp [State.halt, haltOf]

theorem State.taken_within (n : Fin 20) (s : State) : s.halt.Within (s.taken n).halt := by
  rw [State.taken_halt]
  exact StopSet.within_union _ _

theorem State.taken_severe {n : Fin 20} {s : State} (h : 14 ≤ (s.cond n).severity) : (s.taken n).severeFrame = true := by
  simp [State.severeFrame, h]

theorem State.taken_mild {n : Fin 20} {s : State} (h : (s.cond n).severity < 14) (hs : ∀ f ∈ s.cu.stack, f.severity < 14) :
    (s.taken n).severeFrame = false := by
  simpa [State.severeFrame, h] using hs

/-- A record of a unit that works has the taking among its interruptions (R4). -/
theorem State.taken_records (n : Fin 20) (j : Fin 8) (s : State) :
    (s.taken n).ut.records[j] = (s.ut.records[j]).map fun r => if r.state.working then r.interrupt n else r := by
  simp [State.taken, State.take, State.interruptUnits]

/-- The taking leaves of a record all but its interruptions. -/
theorem State.taken_keeps {α : Type} {f : UnitRecord → α} (hf : ∀ r x y, f { r with interruptions := x, overflow := y } = f r)
    (n : Fin 20) (s : State) : RecordsKeep f s (s.taken n) := fun j => by
  have hinterrupt : ∀ r : UnitRecord, f (if r.state.working then r.interrupt n else r) = f r := fun r => by
    split
    · unfold UnitRecord.interrupt
      split
      · exact hf r _ r.overflow
      · exact hf r r.interruptions true
    · rfl
  rw [State.taken_records, Option.map_map]
  exact congrArg (fun g => Option.map g s.ut.records[j]) (funext hinterrupt)

theorem State.taken_currentStep (n : Fin 20) (s : State) : (s.taken n).currentStep = s.currentStep :=
  State.currentStep_congr (by simp) ((State.taken_keeps (fun _ _ _ => rfl) n s).recipe1 (by simp))

/-- The laws of the stations read the states of the records alone. -/
theorem RecordsKeep.stationLaw {s t : State} (h : RecordsKeep UnitRecord.state s t) (hl : StationLaw s) : StationLaw t := by
  have back : ∀ (j : Fin 8) (a : UnitRecord), t.ut.records[j] = some a → ∃ b, s.ut.records[j] = some b ∧ a.state = b.state :=
    fun j a ha => by
      have hj := h j
      rw [ha] at hj
      cases hb : s.ut.records[j] with
      | none => simp [hb] at hj
      | some b => exact ⟨b, rfl, by simpa [hb] using hj⟩
  intro i j r r' hr hr'
  obtain ⟨b, hb, hrb⟩ := back i r hr
  obtain ⟨b', hb', hrb'⟩ := back j r' hr'
  rw [hrb, hrb']
  exact hl i j b b' hb hb'

/-- The unit of a state is still the only one in it, with what is kept of its record. -/
theorem RecordsKeep.isUnitIn {α : Type} {f : UnitRecord → UnitState × α} {u : UnitState} {i : Fin 8} {r : UnitRecord} {s t : State}
    (h : RecordsKeep f s t) (hf : ∀ r, (f r).1 = r.state) (hu : IsUnitIn u i r s) : ∃ r', IsUnitIn u i r' t ∧ f r' = f r := by
  obtain ⟨hi, hstate, hother⟩ := hu
  obtain ⟨r', hr', hkept⟩ := h.some_of_some hi
  refine ⟨r', ⟨hr', by rw [← hf, hkept, hf, hstate], fun j hj a ha => ?_⟩, hkept⟩
  have hj' := h j
  rw [ha] at hj'
  cases hb : s.ut.records[j] with
  | none => simp [hb] at hj'
  | some b =>
    have hab : f a = f b := by simpa [hb] using hj'
    rw [← hf, hab, hf]
    exact hother j hj b hb

/-! ## The run stand through a taking -/

/-- The machine once PROFILE and NOISE have been told of the taking (R135). -/
def State.runStandHalted (n : Fin 20) (s : State) : State := ((s.taken n).applyProfileHalt s.halt).applyNoiseHalt s.halt

/-- A state that stands, for the change to HARD, as the taking of `n` found the machine `s`. -/
structure StandsForHard (n : Fin 20) (s q : State) : Prop where
  ut : q.ut = (s.taken n).ut
  rs : q.rs = s.rs
  afe : q.afe = s.afe
  stack : q.cu.stack = (s.taken n).cu.stack
  vibDescs : q.cs.vibDescs = s.cs.vibDescs
  stopping : s.pe.phase = .stopping → q.pe.phase = .stopping ∧ q.pe.cause = s.pe.cause ∧ q.oa = s.oa

theorem standsForHard_taken (n : Fin 20) (s : State) : StandsForHard n s (s.taken n) where
  ut := rfl
  rs := by simp
  afe := by simp
  stack := rfl
  vibDescs := by simp
  stopping h := by simpa using h

/-- Where PROFILE enters, the check of R57 follows the stop of its work (R56). -/
theorem State.runStandHalted_entry {n : Fin 20} {s : State} (hv : (s.cond n).vector.profile = true) (hs : s.halt.profile = false) :
    ∃ q : State, s.runStandHalted n = q.hardCheck.applyNoiseHalt s.halt ∧ StandsForHard n s q ∧
      q.pe = { s.pe.stopped s.measuresDrag with halt := .soft } ∧ (s.pe.phase ≠ .stepping → q.oa = s.oa) ∧
      ∀ x, s.pe.phase = .stepping → s.currentStep = some x → q.oa = { s.oa with windows := pausedWindow x.window s.oa.windows } := by
  obtain ⟨q, hq, hpe, hoa, hut, hrs, hafe, hstack, hdescs⟩ := State.profileHalted_eq (s.taken n)
  have henter : (s.taken n).applyProfileHalt s.halt = q.hardCheck := by
    simp [State.applyProfileHalt, State.taken_halt, StopSet.union, hv, hs, hq]
  have hdrag : (s.taken n).measuresDrag = s.measuresDrag := by rw [State.measuresDrag, State.taken_currentStep]; rfl
  have hstay : s.pe.phase ≠ .stepping → q.oa = s.oa := fun h => by simpa [h] using hoa
  refine ⟨q, congrArg (fun p => p.applyNoiseHalt s.halt) henter, ⟨hut, by simpa using hrs, by simpa using hafe, hstack,
    by simpa using hdescs, fun h => ?_⟩, by simpa [hdrag] using hpe, hstay, fun x hp hx => ?_⟩
  · refine ⟨?_, ?_, hstay (by simp [h])⟩ <;> simp [hpe, ProfileEngine.stopped, h]
  · rw [hoa, if_pos (by simpa using hp), State.pauseStep_oa ((State.taken_currentStep n s).trans hx)]
    simp

theorem StandsForHard.within {n : Fin 20} {s q t : State} (h : StandsForHard n s q) (ht : t.cu.stack = q.cu.stack) :
    s.halt.Within t.halt := by
  rw [State.halt_congr (ht.trans h.stack)]
  exact State.taken_within n s

/-- NOISE, told after PROFILE, touches nothing of the engine but the open that has been sent (R62). -/
theorem State.applyNoiseHalt_pe {was : StopSet} {s : State} (hw : was.Within s.halt) :
    (s.applyNoiseHalt was).pe = { s.pe with openSent := (s.applyNoiseHalt was).pe.openSent } := by
  rw [State.applyNoiseHalt_entering hw]
  split
  · have hsync : s.noisePause.syncStreams.pe = s.noisePause.pe := by simp
    rw [hsync]
    exact State.noisePause_pe s
  · rfl

/-- Where no open has been sent, or no step is in progress, NOISE leaves the engine and the windows (R62). -/
theorem State.applyNoiseHalt_idle {was : StopSet} {s : State} (hw : was.Within s.halt)
    (h : s.pe.openSent = false ∨ s.pe.step = none) :
    (s.applyNoiseHalt was).pe = s.pe ∧ (s.applyNoiseHalt was).oa = s.oa := by
  have hpause : s.noisePause = s := by
    rcases h with h | h
    · exact State.noisePause_of_not_sent h
    · simp [State.noisePause, State.currentStep, h]
  rw [State.applyNoiseHalt_entering hw]
  split <;> simp [hpause]

/-- A check of R57 that does not end a profile leaves the engine as it was or cuts its drive. -/
theorem State.hardCheck_cases {q : State} (h : q.pe.phase ≠ .stopping) : q.hardCheck = q ∨ q.hardCheck = q.cutDrive := by
  by_cases hc : q.pe.halt ≠ .hard ∧ q.severeFrame = true
  · exact .inr (State.hardCheck_cuts hc.1 hc.2 (.inl h))
  · exact .inl (if_neg hc)

/-- The change to HARD at a taking (R57). -/
theorem StandsForHard.haltedHard {n : Fin 20} {s q : State} (h : StandsForHard n s q) (hne : q.pe.halt ≠ .hard)
    (hs : q.severeFrame = true) : HaltedHard s (q.hardCheck.applyNoiseHalt s.halt) := by
  have hw : s.halt.Within q.hardCheck.halt := h.within (by simp)
  obtain ⟨hhalt, hsetpoint, hl, hr, henable, hbrake⟩ := State.hardCheck_driveCut hne hs
  refine ⟨by simpa, by simpa, ?_, ?_, by simpa, by simpa, fun cause hp hc => ?_⟩
  · rw [State.applyNoiseHalt_pe hw]; exact hl
  · rw [State.applyNoiseHalt_pe hw]; exact hr
  obtain ⟨hqp, hqc, hqo⟩ := h.stopping hp
  obtain ⟨hrest, hended⟩ := State.hardCheck_ended hne hs hqp (hqc.trans hc)
  have hstep : q.hardCheck.pe.step = none := by
    obtain ⟨-, -, hstep, -⟩ := hrest
    exact hstep
  obtain ⟨hpe, hoa⟩ := State.applyNoiseHalt_idle hw (.inr hstep)
  refine ⟨hrest.congr hpe, fun hlaw i r hu => ?_⟩
  have hkept : RecordsKeep (fun r => (r.state, r.runIn, r.noise)) s q :=
    (State.taken_keeps (fun _ _ _ => rfl) n s).then_same h.ut
  obtain ⟨r₁, hu₁, hr₁⟩ := hkept.isUnitIn (fun _ => rfl) hu
  simp only [Prod.mk.injEq] at hr₁
  obtain ⟨-, hrun, hnoise⟩ := hr₁
  obtain ⟨r', hr', hout, hdrag, hfail, hclosed⟩ := hended ((hkept.comp Prod.fst).stationLaw hlaw) i r₁ hu₁
  rw [hqo] at hclosed
  have hunit2 : q.unit2 = s.unit2 := ((hkept.comp Prod.fst).comp UnitState.atStation2).find
  exact ⟨r', by simpa using hr', hout, hdrag.trans (by rw [hrun]), hfail.trans (by rw [hrun]),
    (hclosed.of_same hnoise h.rs hunit2 (by rw [h.afe]) h.vibDescs).congr hoa (by simp) (by simp)⟩

/-! ## What PROFILE stops at a taking (R56, R57) -/

/-- The engine and the windows stand as the stop of the work left them, or with the drive cut, where no open stands. -/
theorem StandsForHard.cases {n : Fin 20} {s q : State} (h : StandsForHard n s q) (hp : q.pe.phase ≠ .stopping)
    (ho : q.pe.openSent = false) :
    let m := q.hardCheck.applyNoiseHalt s.halt
    (m.pe = q.pe ∨ m.pe = q.cutDrive.pe) ∧ m.oa = q.oa := by
  intro m
  have hsent : q.hardCheck.pe.openSent = false := by
    rcases State.hardCheck_cases hp with h | h <;> rw [h]
    · exact ho
    · rw [State.cutDrive_pe]
      exact ho
  obtain ⟨hpe, hoa⟩ := State.applyNoiseHalt_idle (h.within (t := q.hardCheck) (by simp)) (.inl hsent)
  rcases State.hardCheck_cases hp with h | h
  · exact ⟨.inl (hpe.trans (by rw [h])), hoa.trans (by rw [h])⟩
  · exact ⟨.inr (hpe.trans (by rw [h])), hoa.trans (by rw [h]; simp)⟩

section Entry

variable {n : Fin 20} {s : State}

/-- A stepping profile is suspended (R56). -/
theorem taking_suspends_step (hv : (s.cond n).vector.profile = true) (hs : s.halt.profile = false) (hp : s.pe.phase = .stepping) :
    let t := s.runStandHalted n
    t.pe.phase = .suspended ∧ t.pe.step = s.pe.step ∧ t.pe.stepTimer = none ∧ t.pe.settleTimer = none ∧
    t.pe.torqueL = 0 ∧ t.pe.torqueR = 0 ∧ t.pe.counters = s.pe.counters ∧ t.pe.settled = false ∧ t.pe.openSent = false ∧
    (s.measuresDrag = true → t.pe.dragRecords = 0 ∧ t.pe.dragSamples = 0 ∧ t.pe.dragSum = 0) := by
  obtain ⟨q, hq, hstands, hpe, -⟩ := State.runStandHalted_entry hv hs
  obtain ⟨hcases, -⟩ := hstands.cases (by simp [hpe, ProfileEngine.stopped, hp]) (by simp [hpe, ProfileEngine.stopped, hp])
  rw [hq]
  rcases hcases with h | h
  · simp +contextual [h, hpe, ProfileEngine.stopped, hp]
  · simp +contextual [h, State.cutDrive_pe, hpe, ProfileEngine.stopped, hp]

/-- The window of a suspended step is PAUSED (R56, R87). -/
theorem taking_pauses_step {x : Step} (hv : (s.cond n).vector.profile = true) (hs : s.halt.profile = false)
    (hp : s.pe.phase = .stepping) (hx : s.currentStep = some x) :
    (s.runStandHalted n).oa = { s.oa with windows := pausedWindow x.window s.oa.windows } := by
  obtain ⟨q, hq, hstands, hpe, -, hoa⟩ := State.runStandHalted_entry hv hs
  obtain ⟨-, hwindows⟩ := hstands.cases (by simp [hpe, ProfileEngine.stopped, hp]) (by simp [hpe, ProfileEngine.stopped, hp])
  rw [hq]
  exact hwindows.trans (hoa x hp hx)

/-- A re-approach is suspended (R56). -/
theorem taking_suspends_reapproach (hv : (s.cond n).vector.profile = true) (hs : s.halt.profile = false)
    (hp : s.pe.phase = .reapproach) :
    let t := s.runStandHalted n
    (s.pe.openSent = false → t.oa = s.oa) ∧ t.pe.phase = .suspended ∧ t.pe.step = s.pe.step ∧ t.pe.counters = s.pe.counters := by
  obtain ⟨q, hq, hstands, hpe, hoa, -⟩ := State.runStandHalted_entry hv hs
  have hphase : q.pe.phase = .suspended := by simp [hpe, ProfileEngine.stopped, hp]
  rw [hq]
  refine ⟨fun ho => ?_, ?_⟩
  · have hsent : q.pe.openSent = false := by simpa [hpe, ProfileEngine.stopped, hp] using ho
    obtain ⟨-, hwindows⟩ := hstands.cases (by simp [hphase]) hsent
    exact hwindows.trans (hoa (by simp [hp]))
  · rcases State.hardCheck_cases (q := q) (by simp [hphase]) with h | h <;>
      simp [h, State.cutDrive_pe, hpe, ProfileEngine.stopped, hp]

/-- A HELD profile and an idle engine keep their phase (R56). -/
theorem taking_keeps_rest (hv : (s.cond n).vector.profile = true) (hs : s.halt.profile = false)
    (hp : s.pe.phase = .held ∨ s.pe.phase = .idle) : (s.runStandHalted n).pe.phase = s.pe.phase := by
  obtain ⟨q, hq, -, hpe, -⟩ := State.runStandHalted_entry hv hs
  have hphase : q.pe.phase = s.pe.phase := by rcases hp with hp | hp <;> simp [hpe, ProfileEngine.stopped, hp]
  rw [hq]
  rcases State.hardCheck_cases (q := q) (by rcases hp with hp | hp <;> simp [hphase, hp]) with h | h <;>
    simp [h, State.cutDrive_pe, hphase]

/-- A taking below severity 14, with no severe frame on the stack, holds the drive (R57). -/
theorem taking_holds_drive (hv : (s.cond n).vector.profile = true) (hs : s.halt.profile = false)
    (hm : (s.taken n).severeFrame = false) :
    let t := s.runStandHalted n
    t.pe.halt = .soft ∧ t.pe.setpoint = s.pe.setpoint ∧ t.pe.enable = s.pe.enable ∧ t.pe.brake = s.pe.brake ∧
    (s.pe.phase = .stopping → t.pe.phase = .stopping ∧ t.pe.cause = s.pe.cause) := by
  obtain ⟨q, hq, hstands, hpe, -⟩ := State.runStandHalted_entry hv hs
  have hmild : q.hardCheck = q := State.hardCheck_of_mild (by simpa [State.severeFrame, hstands.stack] using hm)
  have hengine := State.applyNoiseHalt_pe (hstands.within (t := q) rfl)
  rw [hq, hmild]
  dsimp only
  rw [hengine, hpe]
  refine ⟨rfl, ?_, ?_, ?_, fun hp => ?_⟩ <;> simp only [ProfileEngine.stopped]
  · cases s.pe.phase <;> rfl
  · cases s.pe.phase <;> rfl
  · cases s.pe.phase <;> rfl
  · rw [hp]
    exact ⟨hp, rfl⟩

/-- A taking of severity 14 and above cuts the drive (R57). -/
theorem taking_cuts_drive (hv : (s.cond n).vector.profile = true) (hs : s.halt.profile = false) (hsev : 14 ≤ (s.cond n).severity) :
    HaltedHard s (s.runStandHalted n) := by
  obtain ⟨q, hq, hstands, hpe, -⟩ := State.runStandHalted_entry hv hs
  rw [hq]
  refine hstands.haltedHard (by simp [hpe]) ?_
  have := State.taken_severe hsev
  simpa [State.severeFrame, hstands.stack] using this

end Entry

section Standing

variable {n : Fin 20} {s : State}

/-- Where PROFILE is halted already there is the check of R57 alone. -/
theorem State.runStandHalted_standing (hs : s.halt.profile = true) :
    s.runStandHalted n = (s.taken n).hardCheck.applyNoiseHalt s.halt := by
  refine congrArg (State.applyNoiseHalt s.halt) ?_
  simp [State.applyProfileHalt, State.taken_halt, StopSet.union, hs]

/-- A standing SOFT halt turns HARD at a taking of severity 14 and above (R57). -/
theorem taking_turns_hard (hs : s.halt.profile = true) (hne : s.pe.halt ≠ .hard) (hsev : 14 ≤ (s.cond n).severity) :
    HaltedHard s (s.runStandHalted n) ∧
    (s.pe.phase ≠ .stopping → (s.runStandHalted n).pe.phase = s.pe.phase ∧ (s.runStandHalted n).pe.step = s.pe.step) := by
  have hsevere := State.taken_severe hsev
  rw [State.runStandHalted_standing hs]
  refine ⟨(standsForHard_taken n s).haltedHard (by simpa using hne) hsevere, fun hp => ?_⟩
  rw [State.hardCheck_cuts (by simpa using hne) hsevere (.inl (by simpa using hp))]
  simp [State.cutDrive_pe]

/-- A HARD halt stands, and a SOFT one does at a taking below severity 14 (R57). -/
theorem taking_leaves_engine (hs : s.halt.profile = true) (h : s.pe.halt = .hard ∨ (s.taken n).severeFrame = false)
    (ho : s.pe.openSent = false) : (s.runStandHalted n).pe = s.pe := by
  have hself : (s.taken n).hardCheck = s.taken n := by
    refine State.hardCheck_self fun hsev => ?_
    rcases h with h | h
    · simpa using h
    · simp [h] at hsev
  rw [State.runStandHalted_standing hs, hself]
  simpa using (State.applyNoiseHalt_idle (State.taken_within n s) (.inl (by simpa using ho))).1

end Standing

/-! ## What NOISE stops at a taking (R62, R74) -/

/-- The state in which NOISE is told of a taking, where the profile engine has not paused the window itself: PROFILE was halted already,
or stays released. -/
theorem State.applyProfileHalt_leaves_window {n : Fin 20} {s : State} (h : s.halt.profile = true ∨ (s.cond n).vector.profile = false)
    (hp : s.pe.phase ≠ .stopping) :
    let p := (s.taken n).applyProfileHalt s.halt
    p.oa = s.oa ∧ p.pe.openSent = s.pe.openSent ∧ p.currentStep = s.currentStep ∧ (s.halt.profile = false → p.pe = s.pe) := by
  intro p
  have hcases : p = s.taken n ∨ (s.halt.profile = true ∧ p = (s.taken n).cutDrive) := by
    cases hs : s.halt.profile with
    | true =>
      have hcheck : p = (s.taken n).hardCheck := by simp [p, State.applyProfileHalt, State.taken_halt, StopSet.union, hs]
      rcases State.hardCheck_cases (q := s.taken n) (by simpa using hp) with h | h
      · exact .inl (hcheck.trans h)
      · exact .inr ⟨rfl, hcheck.trans h⟩
    | false =>
      have hv : (s.cond n).vector.profile = false := h.resolve_left (by simp [hs])
      exact .inl (by simp [p, State.applyProfileHalt, State.taken_halt, StopSet.union, hs, hv])
  rcases hcases with h | ⟨hs, h⟩
  · rw [h]
    exact ⟨by simp, by simp, State.taken_currentStep n s, fun _ => by simp⟩
  · rw [h]
    refine ⟨by simp, by simp [State.cutDrive_pe], ?_, fun hn => by simp [hs] at hn⟩
    refine (State.currentStep_congr ?_ (State.recipe1_congr (by simp) (by simp))).trans (State.taken_currentStep n s)
    rw [State.cutDrive_pe]

/-- NOISE that enters finds what PROFILE has left (R135, log 11). -/
theorem State.runStandHalted_noise {n : Fin 20} {s p : State} (hv : (s.cond n).vector.noise = true) (hn : s.halt.noise = false)
    (hp : p = (s.taken n).applyProfileHalt s.halt) : s.runStandHalted n = p.noisePause.syncStreams ∧ p.halt.noise = true := by
  have hhalt : p.halt = (s.cond n).vector.union s.halt := by
    rw [← State.taken_halt]
    exact State.halt_congr (by rw [hp]; simp)
  have hnoise : p.halt.noise = true := by simp [hhalt, StopSet.union, hv]
  refine ⟨?_, hnoise⟩
  rw [State.runStandHalted, ← hp, State.applyNoiseHalt_entering (by rw [hhalt]; exact StopSet.within_union _ _)]
  exact if_pos ⟨hn, hnoise⟩

/-- The window that is open is PAUSED, by PROFILE or by NOISE (R62, R56, R87). -/
theorem taking_pauses_window {n : Fin 20} {s : State} {x : Step} (hv : (s.cond n).vector.noise = true) (hn : s.halt.noise = false)
    (hp : s.pe.phase = .stepping) (hx : s.currentStep = some x) (hw : x.window ≠ 0) (ho : s.pe.openSent = true) :
    let t := s.runStandHalted n
    t.pe.openSent = false ∧ t.oa = { s.oa with windows := pausedWindow x.window s.oa.windows } ∧
    ((s.cond n).vector.profile = false → s.halt.profile = false → t.pe = { s.pe with openSent := false }) := by
  by_cases hentry : s.halt.profile = true ∨ (s.cond n).vector.profile = false
  · obtain ⟨p, hpdef⟩ : ∃ p, p = (s.taken n).applyProfileHalt s.halt := ⟨_, rfl⟩
    obtain ⟨hoa, hsent, hstep, hpe⟩ := State.applyProfileHalt_leaves_window hentry (by simp [hp])
    rw [← hpdef] at hoa hsent hstep hpe
    obtain ⟨hm, -⟩ := State.runStandHalted_noise hv hn hpdef
    obtain ⟨hengine, hwindows⟩ := State.noisePause_pauses (hstep.trans hx) (hsent.trans ho) hw
    rw [hm]
    refine ⟨by simp [hengine], by simp [hwindows, hoa], fun _ hs => by simp [hengine, hpe hs]⟩
  · simp only [not_or, Bool.not_eq_true, Bool.not_eq_false] at hentry
    obtain ⟨hs, hvp⟩ := hentry
    obtain ⟨-, -, -, -, -, -, -, -, hsent, -⟩ := taking_suspends_step hvp hs hp
    exact ⟨hsent, taking_pauses_step hvp hs hp hx, fun h => by simp [hvp] at h⟩

/-- VIB capture is no longer wanted once NOISE is halted (R74). -/
theorem taking_ends_vib {n : Fin 20} {s : State} (hv : (s.cond n).vector.noise = true) (hn : s.halt.noise = false) :
    ((s.runStandHalted n).stream .vib).state ≠ .running ∧ ((s.runStandHalted n).stream .vib).state ≠ .starved := by
  obtain ⟨hm, hnoise⟩ := State.runStandHalted_noise hv hn rfl
  rw [hm]
  exact State.syncStreams_vib_halted ((congrArg StopSet.noise (State.halt_congr (by simp))).trans hnoise)

/-! ## What is recorded of a taking (R134, R4, R143) -/

/-- The machine at the end of the taking check and the halts, where condition `n` is to be taken (R133 to R135). -/
def State.takenAndHalted (n : Fin 20) (s : State) : State := (s.taken n).applyHalts s.halt

theorem exec_conditionTake_eq (s : State) : exec .conditionTake s = .next (arbitrate ((s.takingCheck []).applyHalts s.halt)) := rfl

/-- The interruptions of a record after a taking: eight at most, and then the overflow flag (R4). -/
theorem taking_interrupts {n : Fin 20} {s t : State} (h : RecordsKeep UnitRecord.interrupted (s.taken n) t) {i : Fin 8} {r : UnitRecord}
    (hi : s.ut.records[i] = some r) : ∃ r', t.ut.records[i] = some r' ∧
      (r.state.working = true →
        (r.interruptions.length < 8 → r'.interruptions = r.interruptions ++ [n] ∧ r'.overflow = r.overflow) ∧
        (8 ≤ r.interruptions.length → r'.interruptions = r.interruptions ∧ r'.overflow = true)) ∧
      (r.state.working = false → r'.interruptions = r.interruptions ∧ r'.overflow = r.overflow) := by
  have htaken := State.taken_records n i s
  rw [hi, Option.map_some] at htaken
  obtain ⟨r', hr', hkept⟩ := h.some_of_some htaken
  simp only [UnitRecord.interrupted, Prod.mk.injEq] at hkept
  obtain ⟨hlist, hflag⟩ := hkept
  refine ⟨r', hr', fun hw => ⟨fun hlen => ?_, fun hlen => ?_⟩, fun hw => ?_⟩
  · simp [hlist, hflag, hw, UnitRecord.interrupt, hlen]
  · simp [hlist, hflag, hw, UnitRecord.interrupt, Nat.not_lt.2 hlen]
  · simp [hlist, hflag, hw]

/-- The code of a condition is read from its record and the stack alone (spec/10 section 10.5). -/
theorem State.condCode_congr {n : Fin 20} {s t : State} (hc : t.cond n = s.cond n) (hs : t.cu.stack = s.cu.stack) :
    t.condCode n = s.condCode n := by
  unfold State.condCode State.active State.onStack
  rw [hc, hs]

/-- The CONDITION notice of a taking is raised with RL, depth and halt set as they stand after it (R143). -/
theorem State.taken_announces (n : Fin 20) (s : State) :
    (⟨.condition n, .condition ((s.taken n).condCode n) ((s.taken n).cond n).lastActive (s.taken n).cu.rl (s.taken n).cu.stack.length
      (s.taken n).halt s.now⟩ : Notice) ∈ (s.taken n).lp.notices := by
  have hcu : (s.taken n).cu = (s.take n).cu := by simp
  have hcode : (s.taken n).condCode n = (s.take n).condCode n := State.condCode_congr (State.cond_congr hcu n) (by rw [hcu])
  rw [hcode, State.cond_congr hcu, State.halt_congr (congrArg ConditionUnit.stack hcu), hcu,
    ← State.now_congr (s := s) (t := s.take n) (by simp)]
  exact mem_putNotice_self _ _

theorem takingRecorded_of_taken (n : Fin 20) (s : State) : TakingRecorded n s (arbitrate (s.takenAndHalted n)) := by
  have hwithin := State.taken_within n s
  refine ⟨fun i r hi => ?_, fun h4 hn => ?_⟩
  · exact taking_interrupts ((keptByHalts_interrupted.applyHalts hwithin).then_same (by simp [State.takenAndHalted])) hi
  · have hstarve : NotStarvation n := by
      refine ⟨?_, ?_, ?_⟩ <;> rintro rfl <;> simp at hn
    have hcu : (arbitrate (s.takenAndHalted n)).cu = (s.takenAndHalted n).cu := by simp
    have hcond : (arbitrate (s.takenAndHalted n)).cond n = (s.taken n).cond n :=
      (State.cond_congr hcu n).trans (State.cond_applyHalts _ _ hstarve h4)
    have hstack : (arbitrate (s.takenAndHalted n)).cu.stack = (s.taken n).cu.stack := by simp [State.takenAndHalted]
    have hrl : (arbitrate (s.takenAndHalted n)).cu.rl = (s.taken n).cu.rl := by simp [State.takenAndHalted]
    rw [State.condCode_congr hcond hstack, hcond, hrl, hstack, State.halt_congr hstack]
    exact announced_arbitrate (keptByHalts_conditionNotices.applyHalts hwithin n _ rfl (State.taken_announces n s))

/-! ## What LEAK and TRANSFER stop at a taking (R121, R15) -/

/-- A unit at station 2 is found by the search for it. -/
theorem IsUnitIn.unit2_isSome {u : UnitState} {i : Fin 8} {r : UnitRecord} {s : State} (h : IsUnitIn u i r s)
    (hu : u.atStation2 = true) : s.unit2.isSome = true := by
  obtain ⟨hi, hstate, -⟩ := h
  by_contra hnone
  have := UnitTable.find_eq_none (p := UnitState.atStation2) (by simpa [State.unit2] using hnone) i r hi
  simp [hstate, hu] at this

section Station2

variable {n : Fin 20} {s : State}

/-- The records show of an occupied station 2 what they showed, when LEAK is told and when TRANSFER is (R135). -/
theorem taking_keeps_station2 (h : s.unit2.isSome = true) :
    RecordsKeep UnitRecord.station2 s (s.runStandHalted n) ∧
    RecordsKeep UnitRecord.station2 s ((s.runStandHalted n).applyLeakHalt s.halt) := by
  have hwithin := State.taken_within n s
  have within : ∀ {t : State}, t.cu.stack = (s.taken n).cu.stack → s.halt.Within t.halt := fun ht => by
    rwa [State.halt_congr ht]
  have htaken : RecordsKeep UnitRecord.station2 s (s.taken n) := State.taken_keeps (fun _ _ _ => rfl) n s
  have hprofile := keptByHalts_station2.applyProfileHalt hwithin
  have hnoise := keptByHalts_station2.applyNoiseHalt (within (t := (s.taken n).applyProfileHalt s.halt) (by simp))
  have hleak := keptByHalts_station2.applyLeakHalt (within (t := s.runStandHalted n) (by simp [State.runStandHalted]))
  have hrun := keptByHalts_station2.trans hprofile hnoise
  have hocc : (s.taken n).unit2.isSome = true := by rwa [htaken.unit2]
  exact ⟨htaken.trans (hrun hocc), htaken.trans (keptByHalts_station2.trans hrun hleak hocc)⟩

/-- Attempts in progress vent, to come back (R121). -/
theorem taking_halts_chambers (hv : (s.cond n).vector.leak = true) (hs : s.halt.leak = false) (h : s.unit2.isSome = true) :
    (s.takenAndHalted n).lkc.queue = s.lkc.queue ∧ ∀ c, (s.takenAndHalted n).chamber c = s.haltedChamber c := by
  have hhalt : (s.runStandHalted n).halt = (s.cond n).vector.union s.halt := by
    rw [← State.taken_halt]
    exact State.halt_congr (by simp [State.runStandHalted])
  have hlkc : (s.runStandHalted n).lkc = s.lkc := by simp [State.runStandHalted]
  have hrs : (s.runStandHalted n).rs = s.rs := by simp [State.runStandHalted]
  have hleak : (s.runStandHalted n).applyLeakHalt s.halt = (s.runStandHalted n).haltChambers := by
    rw [State.applyLeakHalt_entering (by rw [hhalt]; exact StopSet.within_union _ _)]
    exact if_pos ⟨hs, by simp [hhalt, StopSet.union, hv]⟩
  have hend : (s.takenAndHalted n).lkc = (s.runStandHalted n).haltChambers.lkc := by
    rw [← hleak, State.takenAndHalted, State.applyHalts, ← State.runStandHalted]
    simp
  refine ⟨by simp [hend, hlkc], fun c => ?_⟩
  obtain ⟨hkept, -⟩ := taking_keeps_station2 (n := n) h
  have hplan : (s.runStandHalted n).chamberPlan c = s.chamberPlan c := by simp only [State.chamberPlan, hkept.recipe2 hrs]
  have hchamber : (s.runStandHalted n).chamber c = s.chamber c := by simp only [State.chamber, hlkc]
  rw [State.chamber_congr hend, State.haltChambers_chamber]
  simp only [State.haltedChamber, hplan, hchamber]

/-- The conveyor stops (R15). -/
theorem taking_stops_conveyor (hv : (s.cond n).vector.transfer = true) (hs : s.halt.transfer = false) {i : Fin 8} {r : UnitRecord}
    (hu : IsUnitIn .inTransfer i r s) :
    (s.takenAndHalted n).ut.transferLine = false ∧ (s.takenAndHalted n).ut.transferTimer = none := by
  obtain ⟨l, hl⟩ : ∃ l, l = (s.runStandHalted n).applyLeakHalt s.halt := ⟨_, rfl⟩
  have hhalt : l.halt = (s.cond n).vector.union s.halt := by
    rw [← State.taken_halt]
    exact State.halt_congr (by simp [hl, State.runStandHalted])
  have hmoving : l.anyTransfer = true := by
    obtain ⟨-, hkept⟩ := taking_keeps_station2 (n := n) (hu.unit2_isSome rfl)
    rw [hl, hkept.anyTransfer, State.anyTransfer, hu.find]
    rfl
  have hend : s.takenAndHalted n = l.stopConveyor := by
    rw [State.takenAndHalted, State.applyHalts, ← State.runStandHalted, ← hl,
      State.applyTransferHalt_entering (by rw [hhalt]; exact StopSet.within_union _ _)]
    exact if_pos ⟨hs, by simp [hhalt, StopSet.union, hv], hmoving⟩
  rw [hend]
  exact ⟨rfl, rfl⟩

end Station2

/-! ## CONDITION_TAKE -/

/-- What is said of a change to HARD reads of the state after it only the engine, the windows, the open record, the records and the
halts. -/
theorem HaltedHard.congr {s t u : State} (h : HaltedHard s t) (hp : u.pe = t.pe) (ho : u.oa = t.oa) (ha : u.afe = t.afe)
    (hr : u.ut.records = t.ut.records) (hc : u.cu.stack = t.cu.stack) : HaltedHard s u := by
  obtain ⟨hhalt, hsetpoint, hleft, hright, henable, hbrake, hended⟩ := h
  refine ⟨by rwa [hp], by rwa [hp], by rwa [hp], by rwa [hp], by rwa [hp], by rwa [hp], fun cause hphase hcause => ?_⟩
  obtain ⟨hrest, hrecord⟩ := hended cause hphase hcause
  refine ⟨hrest.congr hp, fun hl i r hu => ?_⟩
  obtain ⟨r', hr', hout, hdrag, hfail, hclosed⟩ := hrecord hl i r hu
  exact ⟨r', by rw [hr, hr'], hout, hdrag, hfail, hclosed.congr ho hc ha⟩

/-- The machine at the end of a CONDITION_TAKE shows of the run stand what PROFILE and NOISE left of it. -/
theorem takenAndHalted_runStand (n : Fin 20) (s : State) :
    let t := arbitrate (s.takenAndHalted n)
    let m := s.runStandHalted n
    t.pe = m.pe ∧ t.oa = m.oa ∧ t.afe = m.afe ∧ t.cs = m.cs ∧ t.ut.records = m.ut.records ∧ t.cu.stack = m.cu.stack := by
  intro t m
  obtain ⟨hpe, hoa, hafe, hcs, hrecords⟩ := State.applyHalts_runStand (State.taken_within n s)
  refine ⟨?_, ?_, ?_, ?_, ?_, by simp [t, m, State.takenAndHalted, State.runStandHalted]⟩
  · rw [show t.pe = (s.takenAndHalted n).pe by simp [t]]; exact hpe
  · rw [show t.oa = (s.takenAndHalted n).oa by simp [t]]; exact hoa
  · rw [show t.afe = (s.takenAndHalted n).afe by simp [t]]; exact hafe
  · rw [show t.cs = (s.takenAndHalted n).cs by simp [t]]; exact hcs
  · rw [show t.ut = (s.takenAndHalted n).ut by simp [t]]; exact hrecords

theorem onlyChanges_takenAndHalted (n : Fin 20) (s : State) :
    OnlyChanges [.lp, .ut, .pe, .afe, .cs, .oa, .lkc, .cu, .reports] s (arbitrate (s.takenAndHalted n)) :=
  ⟨by simp [State.takenAndHalted], fun b hb => by cases b <;> simp [Part.same, State.takenAndHalted] at hb ⊢⟩

/-- Settles O48: the taking check, and then what each member that enters the halt set stops, member by member. -/
theorem takingAConditionHaltsItsWork : Obligations.TakingAConditionHaltsItsWork := by
  refine fun s => ⟨fun hnone hhard => ?_, fun n hn => ?_⟩
  · rw [exec_conditionTake_eq, State.takingCheck_none hnone, List.foldl_nil, State.applyHalts_standing hhard]
  obtain ⟨hpe, hoa, hafe, hcs, hrecords, hstack⟩ := takenAndHalted_runStand n s
  have hexec : exec .conditionTake s = .next (arbitrate (s.takenAndHalted n)) := by
    rw [exec_conditionTake_eq, State.takingCheck_taken hn]
    rfl
  have hstackTaken : (arbitrate (s.takenAndHalted n)).cu.stack = (s.taken n).cu.stack := by simp [State.takenAndHalted]
  have hmade : TakingCheckMade s (arbitrate (s.takenAndHalted n)) := by
    have := takingCheck_made [] s
    rw [State.takingCheck_taken hn] at this
    exact this.congr rfl rfl hstackTaken (by simp [State.takenAndHalted])
  have hard : HaltedHard s (s.runStandHalted n) → HaltedHard s (arbitrate (s.takenAndHalted n)) := fun h =>
    h.congr hpe hoa hafe hrecords hstack
  have mild : (s.cond n).severity < 14 ∧ (∀ f ∈ s.cu.stack, f.severity < 14) → (s.taken n).severeFrame = false := fun ⟨h, hs⟩ =>
    State.taken_mild h hs
  refine ⟨_, hexec, ?_, ?_, hmade, ?_, ?_, ?_, takingRecorded_of_taken n s, fun hv hs => ?_, fun hs => ?_, fun hv hs => ?_,
    fun hv hs _ i r hu => ?_, fun hv hs i r hu => ?_⟩
  · simp [HoldingKept, State.takenAndHalted, State.taken, State.condNotice]
  · exact onlyChanges_takenAndHalted n s
  · rw [State.halt_congr hstackTaken, State.taken_halt]
  · simp [State.takenAndHalted]
  · simp [State.takenAndHalted]
  · rw [hpe, hoa]
    refine ⟨fun hp => ?_, fun hp => (taking_suspends_reapproach hv hs hp).1, fun hp => (taking_suspends_reapproach hv hs hp).2,
      taking_keeps_rest hv hs, fun hm => taking_holds_drive hv hs (mild hm), fun hsev => hard (taking_cuts_drive hv hs hsev)⟩
    obtain ⟨hphase, hstep, htimer, hsettle, hleft, hright, hcounters, hsettled, hsent, hdrag⟩ := taking_suspends_step hv hs hp
    refine ⟨hphase, hstep, htimer, hsettle, hleft, hright, hcounters, fun k x i r hx =>
      ⟨hsettled, hsent, taking_pauses_step hv hs hp hx.currentStep, fun hkind => hdrag ?_⟩⟩
    simp [State.measuresDrag, hx.currentStep, hkind]
  · rw [hpe]
    refine ⟨fun hne hsev => ?_, fun h ho => taking_leaves_engine hs (h.imp_right mild) ho⟩
    obtain ⟨hhard, hkept⟩ := taking_turns_hard hs hne hsev
    exact ⟨hard hhard, hkept⟩
  · rw [hpe, hoa, State.stream_congr hcs]
    obtain ⟨hrunning, hstarved⟩ := taking_ends_vib hv hs
    refine ⟨hrunning, hstarved, fun k x i r hx hw ho => ?_⟩
    have hphase : s.pe.phase = .stepping := by
      obtain ⟨-, -, hphase, -⟩ := hx
      exact hphase
    obtain ⟨hsent, hwindows, hengine⟩ := taking_pauses_window hv hs hphase hx.currentStep hw ho
    refine ⟨hsent, ?_, hengine⟩
    simpa [pausedWindow, hw] using hwindows
  · obtain ⟨hqueue, hchamber⟩ := taking_halts_chambers hv hs (hu.unit2_isSome rfl)
    have hlkc : (arbitrate (s.takenAndHalted n)).lkc = (s.takenAndHalted n).lkc := by simp
    exact ⟨by rw [hlkc, hqueue], fun c => (State.chamber_congr hlkc c).trans (hchamber c)⟩
  · have hut : (arbitrate (s.takenAndHalted n)).ut = (s.takenAndHalted n).ut := by simp
    rw [hut]
    exact taking_stops_conveyor hv hs hu

end Sys2Proof.Machine
end

