-- ==== Sys2Proof/Proofs/PlainQueries.lean ====
section
/-! STATUS, IDENTIFY, STREAM_GET and COND_LIST: the data of their replies in the layouts of spec/10, and the accounts, the capture and the
descriptors that a stream block tells of (R72 to R75, R81, R142, R162, R163). -/

namespace Sys2Proof.Machine

/-! ## The accounts (R72, R73, R75) -/

theorem State.poolSize_eq (s : State) : s.cs.poolSize = poolOf s := rfl

theorem State.poolFree_eq (s : State) : s.cs.poolFree = poolLeft s := rfl

theorem Stream.enabledWeight_eq (x : Stream) : x.enabledWeight = weightIn x := by
  simp [Stream.enabledWeight, Stream.enabled, weightIn]

/-- The division by a sum of weights of 0 gives the cap of 0 that R73 asks for. -/
theorem State.cap_eq (st : StreamId) (s : State) : s.cs.cap st = capOf (s.stream st) s := by
  unfold CaptureStore.cap CaptureStore.weightSum capOf
  simp only [Stream.enabledWeight_eq, State.poolSize_eq]
  split
  case isTrue hzero => rw [hzero, Nat.div_zero]
  case isFalse => rfl

theorem State.obtainable_eq (st : StreamId) (s : State) : s.cs.obtainable st = roomOf (s.stream st) s := by
  unfold CaptureStore.obtainable roomOf
  rw [State.cap_eq, State.poolFree_eq]
  rfl

/-! ## When capture is wanted (R74) -/

/-- The entries of a table, each read at its index. -/
theorem toList_eq_map_finRange {α : Type} {n : Nat} (v : Vector α n) : v.toList = (List.finRange n).map fun i => v[i] :=
  List.ext_getElem (by simp) (by simp)

theorem State.anyUnit_eq_any (u : UnitState) (s : State) :
    s.anyUnit u = s.ut.records.toList.any fun o => o.any fun r => decide (r.state = u) := by
  rw [toList_eq_map_finRange, List.any_map, State.anyUnit, UnitTable.find, List.isSome_find?]
  congr 1
  funext i
  simp only [Function.comp_apply]
  cases s.ut.records[i] <;> rfl

theorem OrderAnalyzer.openWindow_isSome (oa : OrderAnalyzer) :
    oa.openWindow.isSome = oa.windows.any fun w => decide (w.state = .opened) :=
  List.isSome_find?

/-! ## Stream blocks (R81) -/

/-- The entries of a table that satisfy `p` are as many as their indices. -/
theorem length_filter_toList {α : Type} {n : Nat} (v : Vector α n) (p : α → Bool) :
    (v.toList.filter p).length = ((List.finRange n).filter fun i => p v[i]).length := by
  rw [toList_eq_map_finRange, List.filter_map, List.length_map]
  rfl

/-- The field of the last captured record is all ones where there is none. -/
theorem lastSeqField_eq (x : Option Word32) :
    leBytes 4 (x.getD 0xFFFFFFFF).toNat = match x with
      | some n => leBytes 4 n.toNat
      | none => [0xFF, 0xFF, 0xFF, 0xFF] := by
  cases x <;> rfl

/-- The block of a stream has the layout of spec/10, with the cap of R73 and the blocks of R75. -/
theorem State.streamData_eq (st : StreamId) (s : State) :
    s.streamData st = streamBlock (s.stream st) (s.wanted st) (s.cs.busyDescriptors st) s := by
  simp only [State.streamData, streamBlock, State.cap_eq, State.obtainable_eq, lastSeqField_eq]
  -- Where a plan waits the target fields are its own, and 0 in every other case.
  cases (s.stream st).target <;> cases (s.stream st).state <;> rfl

theorem State.streamData_vib (s : State) : s.streamData .vib =
    streamBlock s.cs.vib ((s.oa.windows.any fun w => decide (w.state = .opened)) && !s.halt.noise)
      ((List.finRange 32).filter fun d => decide ((s.cs.vibDescs[d]).state ≠ .free)).length s := by
  rw [State.streamData_eq, State.wanted, OrderAnalyzer.openWindow_isSome, CaptureStore.busyDescriptors, length_filter_toList]
  rfl

theorem State.streamData_slow (s : State) : s.streamData .slow =
    streamBlock s.cs.slow (s.ut.records.toList.any fun o => o.any fun r => decide (r.state = .running))
      ((List.finRange 8).filter fun d => decide ((s.cs.slowDescs[d]).state ≠ .free)).length s := by
  rw [State.streamData_eq, State.wanted, State.anyUnit_eq_any, CaptureStore.busyDescriptors, length_filter_toList]
  rfl

theorem State.streamData_leak (s : State) : s.streamData .leak =
    streamBlock s.cs.leak (s.ut.records.toList.any fun o => o.any fun r => decide (r.state = .leaking))
      ((List.finRange 8).filter fun d => decide ((s.cs.leakDescs[d]).state ≠ .free)).length s := by
  rw [State.streamData_eq, State.wanted, State.anyUnit_eq_any, CaptureStore.busyDescriptors, length_filter_toList]
  rfl

/-- A slot number is sent with its low 32 bits (R69). -/
theorem leBytes_slotNumber (n : Nat) : leBytes 4 (slotNumber n).toNat = leBytes 4 n := by
  rw [slotNumber, BitVec.toNat_ofNat]
  exact leBytes_mod 4 n

/-! ## The figures do not depend on the head or the silence timer -/

theorem State.headed_statusData (f : Frame) (s : State) : (s.headed f).statusData = s.statusData := rfl

theorem State.headed_streamGetData (f : Frame) (s : State) : (s.headed f).streamGetData = s.streamGetData := rfl

theorem State.headed_condListData (f : Frame) (s : State) : (s.headed f).condListData = s.condListData := rfl

/-! ## The four queries -/

/-- STATUS is served also while the start-up scan runs (R34, R160). -/
theorem serve_status (tag : Byte) (s : State) : serve ⟨0x01, tag, []⟩ s = (s, answer .ok s.statusData) := by
  simp [serve, bodyLimits, servedInScan, within, readCommand, take, takeStatus]

/-- IDENTIFY is served also while the start-up scan runs (R34, R160). -/
theorem serve_identify (tag : Byte) (s : State) : serve ⟨0x02, tag, []⟩ s = (s, answer .ok identityData) := by
  simp [serve, bodyLimits, servedInScan, within, readCommand, take, takeIdentify]

theorem exec_status_answers {tag : Byte} {s : State} (hh : s.lp.head = none) :
    ∃ t, exec (.status tag) s = .next t ∧ OnlyAnswers ⟨0x01, tag, []⟩ (answer .ok s.statusData) s t :=
  exec_only_answers rfl rfl hh (by rw [serve_status, State.headed_statusData])

theorem exec_identify_answers {tag : Byte} {s : State} (hh : s.lp.head = none) :
    ∃ t, exec (.identify tag) s = .next t ∧ OnlyAnswers ⟨0x02, tag, []⟩ (answer .ok identityData) s t :=
  exec_only_answers rfl rfl hh (serve_identify tag _)

theorem exec_streamGet_answers {tag : Byte} {s : State} (hl : s.listens) :
    ∃ t, exec (.streamGet tag) s = .next t ∧ OnlyAnswers ⟨0x0D, tag, []⟩ (answer .ok s.streamGetData) s t :=
  exec_answers_of_take (cmd := .streamGet) rfl rfl hl rfl (by simp [bodyLimits, within])
    (by rw [take, takeStreamGet, State.headed_streamGetData])

theorem exec_condList_answers {tag : Byte} {s : State} (hl : s.listens) :
    ∃ t, exec (.condList tag) s = .next t ∧ OnlyAnswers ⟨0x10, tag, []⟩ (answer .ok s.condListData) s t :=
  exec_answers_of_take (cmd := .condList) rfl rfl hl rfl (by simp [bodyLimits, within])
    (by rw [take, takeCondList, State.headed_condListData])

/-- Settles O9: the owner of each query changes nothing and answers with its figures, and those of STREAM_GET are rewritten stream block by
stream block to the layout of spec/10. -/
theorem plainQueriesOnlyAnswer : Obligations.PlainQueriesOnlyAnswer := by
  refine fun tag s hh => ⟨?_, ?_, fun hs => ?_, fun hs => ?_⟩
  · exact exec_status_answers hh
  · exact exec_identify_answers hh
  · have h := exec_streamGet_answers (tag := tag) ⟨hh, hs⟩
    rw [State.streamGetData, State.streamData_vib, State.streamData_slow, State.streamData_leak, leBytes_slotNumber,
      leBytes_slotNumber] at h
    exact h
  · exact exec_condList_answers ⟨hh, hs⟩

end Sys2Proof.Machine
end

