-- ==== Sys2Proof/Proofs/EveryStep.lean ====
section
/-! What one step does, said once for every law: the effect of each row before the arbiter chooses, and what a predicate of states needs so
that every step keeps it. -/

namespace Sys2Proof.Machine

/-- What an event does before the transmit arbiter chooses; nothing for a host command, whose frame arrives. -/
def eventEffect (e : Instr) (s : State) : State :=
  match e with
  | .startupScanEnd => s.endScan
  | .lineSilenceExpiry => s.silenceExpiry
  | .eraseComplete k => s.completeErase k
  | .closeComplete k => s.completeClose k
  | .arrive2Rise => s.arrive
  | .transferTimerExpiry => s.transferExpiry
  | .transferStart => s.checkTransfer
  | .leakStart => s.decideLeak
  | .enterRunDone => s.checkRunDone
  | .unitDone => s.checkLeakEnd
  | .setpointUpdate => s.setpointDue
  | .driveFeedback speed ready fault => s.feedbackArrives ⟨speed, ready, fault⟩
  | .stepTimerExpiry => s.stepExpiry
  | .windowSettleExpiry => s.settleExpiry
  | .windowDrainClose => s.drainClose.checkRunDone
  | .encoderIndex us x => react s (s.index us x)
  | .revolutionTimeout => s.revolutionTimeout
  | .analysisComplete => s.completeAnalysis.checkRunDone
  | .timeSlotStart stream => react s (s.startSlot stream)
  | .timeSlotEnd stream => s.endSlot stream
  | .planApply => s.checkPlans
  | .slowSample x => react s (s.takeSlow x)
  | .leakSample x => react s (s.takeLeak x)
  | .fillGrant => s.checkGrant
  | .fillTimeout c => s.fillTimeout c
  | .settleExpiry c => s.settleEnd c
  | .measureTimerExpiry c => s.measureEnd c
  | .attemptEvaluation c => s.evaluate c
  | .ventExpiry c => s.ventExpiry c
  | .resetVentEnd => s.resetVentEnd
  | .conditionLineChange line b => s.changeLine line b
  | .keyChange b => s.changeKey b
  | .conditionTake => (s.takingCheck []).applyHalts s.halt
  | .encoderPulse us forward x => s.pulse us forward x
  | _ => s

/-- The rows of the host line and the resets, and the host commands, against the events of the blocks. -/
theorem exec_cases (e : Instr) (s : State) :
    exec e s = .next (arbitrate (eventEffect e s)) ∨ exec e s = .next (arbitrate s.doReset) ∨
    (∃ bytes, exec e s = .next (arbitrate (s.takeBytes bytes))) ∨ exec e s = .next (arbitrate s.gapTimeout) ∨
    exec e s = .next (arbitrate s.frameSent) ∨ ∃ f, exec e s = .next (arbitrate (s.arriveFrame f)) := by
  rcases hf : commandFrame e with - | f
  · cases e with
    | powerOn | resetLine => exact .inr (.inl rfl)
    | frameReceived bytes => exact .inr (.inr (.inl ⟨bytes, rfl⟩))
    | frameGapTimeout => exact .inr (.inr (.inr (.inl rfl)))
    | frameSent => exact .inr (.inr (.inr (.inr (.inl rfl))))
    | _ => first | exact .inl rfl | exact absurd hf (by simp [commandFrame])
  · exact .inr (.inr (.inr (.inr (.inr ⟨f, exec_of_frame hf s⟩))))

/-- What a predicate of states needs so that every step keeps it: the Line Port and the queue do not matter to it, and time, a reset, the
taking of every command and every event keep it. -/
structure KeptBySteps (P : State → Prop) : Prop where
  setLp : ∀ {s} x, P s → P (s.setLp x)
  setPending : ∀ {s} x, P s → P (s.setPending x)
  elapse : ∀ {s} us, P s → P (s.elapse us)
  doReset : ∀ {s}, P s → P s.doReset
  take : ∀ {s} c, P s → P (take c s).1
  event : ∀ {s} e, P s → P (eventEffect e s)

namespace KeptBySteps

variable {P : State → Prop} (h : KeptBySteps P) {s : State}
include h

theorem arbitrate (hs : P s) : P (arbitrate s) := by
  unfold Machine.arbitrate
  split
  · exact h.setLp _ hs
  · exact h.setLp _ hs
  · exact hs

theorem serve (f : Frame) (hs : P s) : P (serve f s).1 := by
  unfold Machine.serve
  split
  · exact hs
  · split
    · exact hs
    · split
      · exact hs
      · split
        · exact hs
        · exact h.take _ hs

theorem handle (f : Frame) (hs : P s) : P (s.handle f) := h.setLp _ (h.serve f hs)

theorem restartSilence (hs : P s) : P s.restartSilence := by
  rw [State.restartSilence_eq]
  exact h.setLp _ hs

theorem offer (f : Frame) (hs : P s) : P (s.offer f) := by
  unfold State.offer
  split
  · exact h.handle f (h.setLp _ hs)
  · exact h.setLp _ hs
  · exact h.setLp _ hs

theorem passFrame (f : Frame) (hs : P s) : P (s.passFrame f) := by
  unfold State.passFrame
  dsimp only
  split
  · exact h.setLp _ (h.restartSilence hs)
  · exact h.offer f (h.restartSilence hs)

theorem arriveFrame (f : Frame) (hs : P s) : P (s.arriveFrame f) := by
  unfold State.arriveFrame
  split
  · exact h.setLp _ hs
  · exact h.passFrame f hs

theorem takeHeader (kind tag lo hi : Byte) (hs : P s) : P (s.takeHeader kind tag lo hi) := by
  unfold State.takeHeader
  dsimp only
  split
  · exact h.setLp _ (h.setLp _ hs)
  · split <;> exact h.setLp _ hs

theorem checkFrame (f : Frame) (a b : Byte) (hs : P s) : P (s.checkFrame f a b) := by
  unfold State.checkFrame
  dsimp only
  split
  · exact h.passFrame f (h.setLp _ hs)
  · exact h.setLp _ (h.setLp _ hs)

theorem takeByte (b : Byte) (hs : P s) : P (s.takeByte b) := by
  unfold State.takeByte
  split
  · split
    · exact h.setLp _ hs
    · exact hs
  · exact h.takeHeader _ _ _ _ hs
  · exact h.setLp _ hs
  · split <;> exact h.setLp _ hs
  · exact h.setLp _ hs
  · exact h.checkFrame _ _ _ hs

theorem takeBytes (bytes : List Byte) (hs : P s) : P (s.takeBytes bytes) := by
  unfold State.takeBytes
  induction bytes generalizing s with
  | nil => exact hs
  | cons b bs ih => exact ih (h.takeByte b hs)

theorem gapTimeout (hs : P s) : P s.gapTimeout := by
  unfold State.gapTimeout
  split
  · exact hs
  · exact h.setLp _ (h.setLp _ hs)

theorem frameSent (hs : P s) : P s.frameSent := by
  unfold State.frameSent
  split
  · exact hs
  · exact h.setLp _ hs
  · split
    · exact h.doReset hs
    · unfold State.freeHead
      dsimp only
      split
      · exact h.handle _ (h.setLp _ (h.setLp _ hs))
      · exact h.setLp _ (h.setLp _ hs)

theorem exec (e : Instr) {t : State} (hs : P s) (ht : Machine.exec e s = .next t) : P t := by
  have chosen : ∀ {u : State}, Machine.exec e s = .next (Machine.arbitrate u) → P u → P t := fun he hu => by
    obtain rfl := Host.Outcome.next.inj (he.symm.trans ht)
    exact h.arbitrate hu
  rcases exec_cases e s with he | he | ⟨bytes, he⟩ | he | he | ⟨f, he⟩
  · exact chosen he (h.event e hs)
  · exact chosen he (h.doReset hs)
  · exact chosen he (h.takeBytes bytes hs)
  · exact chosen he (h.gapTimeout hs)
  · exact chosen he (h.frameSent hs)
  · exact chosen he (h.arriveFrame f hs)

/-- Every step keeps such a predicate. -/
theorem step {t : State} (hs : P s) (ht : step s = .next t) : P t := by
  unfold Machine.step at ht
  split at ht
  · obtain rfl := Host.Outcome.next.inj ht
    exact h.elapse _ hs
  · exact h.exec _ (h.setPending _ hs) ht

end KeptBySteps

end Sys2Proof.Machine
end

