-- ==== Sys2Proof/Proofs/SlotsMove.lean ====
section
/-! What one event can do to a slot (R21 to R36), and that every step keeps the slots' bytes in canonical form, inside the slots. -/

namespace Sys2Proof.Machine

/-- What an event makes of slot `k`: its bytes stand, and it is VALID only where it was or where no check of its close fails; or it is not
VALID, and is empty or has taken data inside the slot. -/
def SlotMoved (k : Fin 16) (x y : Slot) : Prop :=
  (y.bytes = x.bytes ∧ (y.state = .valid → x.state = .valid ∨ imageReason k x = none)) ∨
  (y.state ≠ .valid ∧ (y.bytes = [] ∨ ∃ off data, off + data.length ≤ slotSize ∧ y.bytes = x.bytes.writeAll off data))

/-- What an event makes of the slots. -/
def SlotsMoved (s t : State) : Prop := ∀ k : Fin 16, SlotMoved k (s.slot k) (t.slot k)

theorem SlotMoved.of_image {k : Fin 16} {x y : Slot} (hb : y.bytes = x.bytes) (hs : y.state = .valid → x.state = .valid) :
    SlotMoved k x y := .inl ⟨hb, fun h => .inl (hs h)⟩

theorem SlotMoved.refl (k : Fin 16) (x : Slot) : SlotMoved k x x := .of_image rfl id

/-- A close that ends VALID has passed the checks of R30 or R32. -/
theorem SlotMoved.closed (k : Fin 16) (x : Slot) : SlotMoved k x (x.closed k) := by
  refine .inl ⟨rfl, fun h => .inr ?_⟩
  unfold Slot.closed at h
  dsimp only at h
  split at h
  · next hn => exact Option.isNone_iff_eq_none.1 hn
  · cases h

namespace SlotsMoved

variable {s t u : State}

theorem of_rs (h : t.rs = s.rs) : SlotsMoved s t := fun k => by
  rw [State.slot_congr h]
  exact .refl k _

theorem then_rs (h : SlotsMoved s t) (hu : u.rs = t.rs) : SlotsMoved s u := fun k => by
  rw [State.slot_congr hu]
  exact h k

theorem then_slots (h : SlotsMoved s t) (hu : ∀ k, u.slot k = t.slot k) : SlotsMoved s u := fun k => by
  rw [hu]
  exact h k

theorem mapSlot {k : Fin 16} {f : Slot → Slot} (h : SlotMoved k (s.slot k) (f (s.slot k))) : SlotsMoved s (s.mapSlot k f) := fun j => by
  rw [State.slot_mapSlot]
  split
  · next hj => subst hj; exact h
  · exact .refl j _

theorem then_mapSlot {k : Fin 16} {f : Slot → Slot} (h : ∀ j, t.slot j = s.slot j) (hf : ∀ x, SlotMoved k x (f x)) :
    SlotsMoved s (t.mapSlot k f) := fun j => by
  rw [← h j]
  exact mapSlot (hf _) j

/-- A command that would change a slot changes nothing or acts on the slot it names (R23). -/
theorem withOwnSlot {b : Byte} {f : Fin 16 → State → State × Reply} (h : ∀ k, SlotsMoved s (f k s).1) :
    SlotsMoved s (withOwnSlot b f s).1 := by
  unfold Machine.withOwnSlot withSlot
  split
  · exact of_rs rfl
  · dsimp only
    split
    · exact of_rs rfl
    · exact h _

theorem takeSlotErase (b : Byte) : SlotsMoved s (takeSlotErase b s).1 := withOwnSlot fun k => by
  dsimp only
  split
  · exact of_rs rfl
  · split
    · exact of_rs rfl
    · exact mapSlot (.of_image rfl (by simp))

theorem takeSlotWrite (b : Byte) (offset : Nat) (data : List Byte) : SlotsMoved s (takeSlotWrite b offset data s).1 :=
  withOwnSlot fun k => by
    dsimp only
    split
    · exact of_rs rfl
    split
    · exact of_rs rfl
    split
    · exact of_rs rfl
    split
    · exact of_rs rfl
    split
    · exact of_rs rfl
    · next hfits => exact mapSlot (.inr ⟨by simp, .inr ⟨offset, data, by omega, rfl⟩⟩)

theorem takeSlotClose (b : Byte) : SlotsMoved s (takeSlotClose b s).1 := withOwnSlot fun k => by
  split
  · exact mapSlot (.of_image rfl (by simp))
  · exact of_rs rfl

theorem takeLoadUnit (slot : Byte) (serial : List Byte) : SlotsMoved s (takeLoadUnit slot serial s).1 := by
  unfold Machine.takeLoadUnit
  split
  · exact of_rs rfl
  split
  · exact of_rs rfl
  split
  · exact of_rs rfl
  split
  · exact of_rs rfl
  dsimp only
  split
  · exact of_rs rfl
  · exact (mapSlot (k := Fin.ofNat 16 slot.toNat) (f := fun x => { x with inUse := x.inUse + 1 }) (.of_image rfl id)).then_rs
      (by simp [State.load])

theorem freeId (id : Nat) : SlotsMoved s (s.freeId id) := by
  unfold State.freeId State.freeUnit
  split
  · split
    · exact of_rs rfl
    · next i _ _ r _ =>
      have released : SlotsMoved s ((s.setUt { s.ut with records := s.ut.records.set i none }).mapSlot r.slot fun x =>
          { x with inUse := x.inUse - 1 }) :=
        then_mapSlot (fun _ => rfl) fun _ => .of_image rfl fun h => h
      exact released.then_rs (by simp)
  · exact of_rs rfl

theorem takeReportRelease (id : Nat) : SlotsMoved s (takeReportRelease id s).1 := by
  unfold Machine.takeReportRelease
  split
  · exact of_rs rfl
  · next head rest _ =>
    split
    · exact (freeId (s := s.setReports rest) id).then_rs (by simp)
    · exact of_rs rfl

theorem take (c : Command) : SlotsMoved s (take c s).1 := by
  cases c with
  | slotErase b => exact takeSlotErase b
  | slotWrite b offset data => exact takeSlotWrite b offset data
  | slotClose b => exact takeSlotClose b
  | loadUnit slot serial => exact takeLoadUnit slot serial
  | reportRelease id => exact takeReportRelease id
  | _ => exact of_rs (by simp [Machine.take])

theorem completeErase (k : Fin 16) : SlotsMoved s (s.completeErase k) := by
  unfold State.completeErase
  split
  · have erased : SlotsMoved s (s.mapSlot k fun x => { x with
        bytes := [], garbled := none, state := .blank, reason := none, written := 0, digest := none, mark := false }) :=
      mapSlot (.inr ⟨by simp, .inl rfl⟩)
    exact erased.then_rs (by simp)
  · exact of_rs rfl

theorem useConfig (cfg : CellConfig) (source : ConfigSource) (s : State) (k : Fin 16) : (s.useConfig cfg source).slot k = s.slot k := rfl

theorem completeClose (k : Fin 16) : SlotsMoved s (s.completeClose k) := by
  unfold State.completeClose
  split
  · have hclosed : SlotsMoved s ((s.mapSlot k (Slot.closed k)).storeDone k) :=
      (mapSlot (SlotMoved.closed k _)).then_rs (by simp)
    dsimp only
    split
    · exact (hclosed.then_slots fun j => useConfig _ _ _ j).then_rs (u := State.applyHalts _ _) (by simp; rfl)
    · exact hclosed
  · exact of_rs rfl

theorem scanned (n : Nat) (k : Fin 16) (x : Slot) : SlotMoved k x (x.scanned n) := by
  unfold Slot.scanned
  split
  · exact .of_image rfl (by simp)
  · exact .refl k x

theorem endScan : SlotsMoved s s.endScan := by
  unfold State.endScan
  split
  · exact of_rs rfl
  · obtain ⟨m, hm⟩ : ∃ m, m = (s.setRs { s.rs with
        slots := Vector.ofFn fun k => (s.rs.slots[k]).scanned (s.freeCount + k.val), scanning := false }).setFreeCount
          (s.freeCount + 16) := ⟨_, rfl⟩
    have hscanned : SlotsMoved s m := fun k => by
      rw [hm]
      simpa [State.slot] using scanned (s.freeCount + k.val) k (s.slot k)
    have hused : ∀ cfg source, SlotsMoved s (((m.useConfig cfg source).takingCheck []).applyHalts s.halt) := fun cfg source =>
      (hscanned.then_slots fun j => useConfig cfg source m j).then_rs (by simp)
    dsimp only
    rw [← hm]
    split <;> split <;> exact hused _ _

theorem event (e : Instr) : SlotsMoved s (eventEffect e s) := by
  cases e with
  | startupScanEnd => exact endScan
  | eraseComplete k => exact completeErase k
  | closeComplete k => exact completeClose k
  | _ => exact of_rs (by simp [eventEffect])

theorem doReset : SlotsMoved s s.doReset := fun k => by
  have : s.doReset.slot k = { s.slot k with inUse := 0 } := by simp [State.doReset, State.slot, State.cleared]
  rw [this]
  exact .of_image rfl id

end SlotsMoved

/-- A slot that moves keeps its bytes in canonical form, inside the slot (R27). -/
theorem SlotsMoved.memoryLaw {s t : State} (h : SlotsMoved s t) (hs : MemoryLaw s) : MemoryLaw t :=
  memoryLaw_slots hs fun k => by
    rcases h k with ⟨hb, -⟩ | ⟨-, hb | ⟨off, data, hfits, hb⟩⟩
    · exact .inl hb
    · exact .inr (by rw [hb]; exact ⟨rfl, by simp⟩)
    · rw [hb]
      exact .inr ⟨Memory.wf_writeAll (hs k).1 _ _, Memory.bounded_writeAll (hs k).2 hfits⟩

/-- Settles O57: what a step does to a slot keeps the canonical form. -/
theorem everyStepKeepsTheMemoryLaw : Obligations.EveryStepKeepsTheMemoryLaw := fun _ _ hs ht =>
  KeptBySteps.step {
    setLp := fun _ h => h
    setPending := fun _ h => h
    elapse := fun _ h => h
    doReset := fun h => SlotsMoved.doReset.memoryLaw h
    take := fun c h => (SlotsMoved.take c).memoryLaw h
    event := fun e h => (SlotsMoved.event e).memoryLaw h } hs ht

end Sys2Proof.Machine
end

