-- ==== Sys2Proof/Proofs/StackSteps.lean ====
section
/-! Every step keeps the law of the hold stack (R126, R131, R132): the Condition Unit's own part, and what a VALID slot 0 holds for the next
reset. -/

namespace Sys2Proof.Machine

/-! ## The two parts of the law -/

/-- The Condition Unit's part of the law of the hold stack (R131, R132). -/
structure StackHolds (s : State) : Prop where
  linked : FramesLinked s.cu.rl s.cu.stack
  nodup : (s.cu.stack.map HoldFrame.number).Nodup
  mask : s.cu.mask ≤ s.cu.mode.cap
  rl : s.cu.rl ≤ 15
  severities : ∀ n, (s.cond n).severity ≤ 15

/-- The settings that a VALID slot 0 holds for the next reset are of severity 15 at most (R32). -/
def Slot0Mild (s : State) : Prop :=
  (s.slot 0).state = .valid → ∀ k : Fin 12, ((readConfig (s.slot 0).bytes).conditions[k]).severity ≤ 15

/-- Frames that rise strictly in severity are no more than the reaction level above them (R132). -/
theorem FramesLinked.length_le {rl : Nat} {fs : List HoldFrame} (h : FramesLinked rl fs) : fs.length ≤ rl := by
  induction fs generalizing rl with
  | nil => simp
  | cons f fs ih =>
    obtain ⟨hrl, hlt, hrest⟩ := h
    have := ih hrest
    simp only [List.length_cons]
    omega

theorem stackLaw_iff (s : State) : StackLaw s ↔ StackHolds s ∧ Slot0Mild s := by
  constructor
  · rintro ⟨hlinked, hnodup, hmask, hrl, -, hsev, hslot⟩
    exact ⟨⟨hlinked, hnodup, hmask, hrl, hsev⟩, hslot⟩
  · rintro ⟨h, hslot⟩
    exact ⟨h.linked, h.nodup, h.mask, h.rl, h.linked.length_le.trans h.rl, h.severities, hslot⟩

/-! ## Slot 0 (R32) -/

/-- A configuration image that fails no check holds severities of 15 at most (R32, R141). -/
theorem readConfig_mild {m : Memory} {written : Nat} (h : configReason m written = none) (k : Fin 12) :
    ((readConfig m).conditions[k]).severity ≤ 15 := by
  have hok : configOk m = true := by
    unfold configReason at h
    split at h
    · cases h
    · split at h
      · cases h
      · split at h
        · cases h
        · next hc => simpa using hc
  have hset : settingOk m k = true := by
    simp only [configOk, Bool.and_eq_true] at hok
    obtain ⟨⟨⟨-, hset⟩, -⟩, -⟩ := hok
    exact List.all_eq_true.1 hset k (List.mem_finRange k)
  have hrange : ∀ n : Fin 20, (severityRange n).2 ≤ 14 := by decide
  have := hrange configurable[k]
  simp only [settingOk, within, Bool.and_eq_true, decide_eq_true_eq] at hset
  obtain ⟨⟨⟨-, hw⟩, -⟩, -⟩ := hset
  simp only [readConfig, Fin.getElem_fin, Vector.getElem_ofFn, readSetting]
  omega

theorem SlotsMoved.slot0Mild {s t : State} (h : SlotsMoved s t) (hs : Slot0Mild s) : Slot0Mild t := fun hv k => by
  rcases h 0 with ⟨hb, hw⟩ | ⟨hn, -⟩
  · rw [hb]
    rcases hw hv with hv | hr
    · exact hs hv k
    · exact readConfig_mild (by simpa [imageReason] using hr) k
  · exact absurd hv hn

/-! ## The Condition Unit -/

theorem State.cond_useConfig (cfg : CellConfig) (source : ConfigSource) (s : State) (n : Fin 20) :
    (s.useConfig cfg source).cond n = (loadSettings cfg s.cu.conditions)[n] := by simp [State.useConfig, State.cond]

/-- The severity of a condition after a configuration has come into force is one of the configuration's, or as it was (R140). -/
theorem loadSettings_severity (cfg : CellConfig) (v : Vector Condition 20) (n : Fin 20) :
    (∃ k : Fin 12, ((loadSettings cfg v)[n]).severity = (cfg.conditions[k]).severity) ∨
    ((loadSettings cfg v)[n]).severity = (v[n]).severity := by
  simp only [loadSettings, Fin.getElem_fin, Vector.getElem_ofFn]
  generalize configIndex n = place
  cases place with
  | none => exact .inr rfl
  | some k => exact .inl ⟨k, rfl⟩

namespace StackHolds

variable {s t : State}

/-- The stack, RL, the mask, the mode and the live severities are all that the law speaks of. -/
theorem kept (h : StackHolds s)
    (hp : t.cu.stack = s.cu.stack ∧ t.cu.rl = s.cu.rl ∧ t.cu.mask = s.cu.mask ∧ t.cu.mode = s.cu.mode)
    (hs : ∀ n, (t.cond n).severity = (s.cond n).severity) : StackHolds t := by
  obtain ⟨hstack, hrl, hmask, hmode⟩ := hp
  exact {
    linked := by rw [hrl, hstack]; exact h.linked
    nodup := by rw [hstack]; exact h.nodup
    mask := by rw [hmask, hmode]; exact h.mask
    rl := by rw [hrl]; exact h.rl
    severities := fun n => by rw [hs]; exact h.severities n }

/-- A taking pushes a frame above the others, of a condition that has none (R133, R134). -/
theorem take {n : Fin 20} (h : StackHolds s) (hn : s.onStack n = false) (hrl : s.cu.rl < (s.cond n).severity) :
    StackHolds (s.take n) where
  linked := by
    rw [State.take_cu]
    exact ⟨rfl, hrl, h.linked⟩
  nodup := by
    rw [State.take_cu]
    simp only [List.map_cons, List.nodup_cons, List.mem_map, not_exists, not_and]
    refine ⟨fun f hf he => ?_, h.nodup⟩
    simp only [State.onStack, List.any_eq_false, decide_eq_true_eq] at hn
    exact hn f hf he
  mask := by
    rw [State.take_cu]
    exact h.mask
  rl := by
    rw [State.take_cu]
    exact h.severities n
  severities := fun m => by
    rw [State.cond_take]
    exact h.severities m

theorem takingCheck (h : StackHolds s) (first : List (Fin 20)) : StackHolds (s.takingCheck first) := by
  rcases taken_or_none s with ⟨n, hn⟩ | hn
  · have hq := hn.1
    simp only [State.qualifies, Bool.and_eq_true, Bool.not_eq_true', decide_eq_true_eq] at hq
    obtain ⟨⟨⟨-, hoff⟩, hrl⟩, -⟩ := hq
    rw [State.takingCheck_one hn]
    exact (h.take hoff hrl).kept (by simp) (by simp)
  · rw [State.takingCheck_none hn]
    exact h.kept (by simp) (by simp)

theorem applyHalts (h : StackHolds s) (was : StopSet) : StackHolds (s.applyHalts was) := h.kept (by simp) (by simp)

theorem checked (h : StackHolds s) (first : List (Fin 20)) (was : StopSet) : StackHolds ((s.takingCheck first).applyHalts was) :=
  (h.takingCheck first).applyHalts was

theorem react (h : StackHolds t) (s : State) : StackHolds (react s t) := by
  unfold Machine.react checkIfActivated
  split
  · exact h.checked [] _
  · exact h.applyHalts _

/-- The settings of a configuration come into force (R140). -/
theorem useConfig (h : StackHolds s) {cfg : CellConfig} (hc : ∀ k : Fin 12, (cfg.conditions[k]).severity ≤ 15) (source : ConfigSource) :
    StackHolds (s.useConfig cfg source) where
  linked := by simpa [State.useConfig] using h.linked
  nodup := by simpa [State.useConfig] using h.nodup
  mask := by simpa [State.useConfig] using h.mask
  rl := by simpa [State.useConfig] using h.rl
  severities := fun n => by
    rw [State.cond_useConfig]
    rcases loadSettings_severity cfg s.cu.conditions n with ⟨k, hk⟩ | hk <;> rw [hk]
    · exact hc k
    · exact h.severities n

/-- A condition record whose severity stays, or is at most 15. -/
theorem mapCond (h : StackHolds s) (n : Fin 20) {f : Condition → Condition} (hf : (f (s.cond n)).severity ≤ 15) :
    StackHolds (s.mapCond n f) where
  linked := h.linked
  nodup := h.nodup
  mask := h.mask
  rl := h.rl
  severities := fun m => by
    rw [State.cond_mapCond]
    split
    · exact hf
    · exact h.severities m

theorem setMask (h : StackHolds s) {m : Nat} (hm : m ≤ s.cu.mode.cap) : StackHolds (s.setCu { s.cu with mask := m }) where
  linked := h.linked
  nodup := h.nodup
  mask := hm
  rl := h.rl
  severities := h.severities

/-! ### The condition commands -/

theorem withCondition {b : Byte} {f : Fin 20 → State → State × Reply} (hs : StackHolds s) (h : ∀ n, StackHolds (f n s).1) :
    StackHolds (withCondition b f s).1 := by
  unfold Machine.withCondition
  split
  · exact hs
  · exact h _

theorem takeCondAck (h : StackHolds s) (b : Byte) : StackHolds (takeCondAck b s).1 := h.withCondition fun n => by
  split
  · split
    · exact h
    · exact h.mapCond n (f := fun c => { c with latch := false, injected := false }) (h.severities n)
  · exact h.mapCond n (f := fun c => { c with injected := false }) (h.severities n)

theorem takeCondInject (h : StackHolds s) (b : Byte) : StackHolds (takeCondInject b s).1 := h.withCondition fun n => by
  dsimp only
  split
  · exact h
  · refine StackHolds.checked (h.kept (by simp [State.inject]) fun m => ?_) [] _
    by_cases hm : m = n
    · subst hm
      rw [State.inject, State.cond_changeCond, if_pos rfl]
      dsimp only
      split <;> rfl
    · rw [State.inject, State.cond_changeCond_ne hm]

theorem clampSeverity_le (n : Fin 20) (sev : Nat) : clampSeverity n sev ≤ 15 := by
  have hrange : ∀ n : Fin 20, (severityRange n).2 ≤ 14 := by decide
  exact (Nat.min_le_left _ _).trans ((hrange n).trans (by decide))

theorem takeCondConfig (h : StackHolds s) (b sev vec : Byte) : StackHolds (takeCondConfig b sev vec s).1 := h.withCondition fun n => by
  dsimp only
  split
  · exact h
  split
  · exact h
  split
  · exact h
  have hset : StackHolds (s.mapCond n fun c =>
      { c with severity := clampSeverity n sev.toNat, vector := completeVector n (.ofCode vec.toNat) }) :=
    h.mapCond n (clampSeverity_le n _)
  split
  · exact hset
  · exact hset.checked [] _

theorem takeSetMask (h : StackHolds s) (level : Byte) : StackHolds (takeSetMask level s).1 := by
  have hset : StackHolds (s.setCu { s.cu with mask := min level.toNat s.cu.mode.cap }) := h.setMask (Nat.min_le_right _ _)
  unfold Machine.takeSetMask
  dsimp only
  split
  · exact hset.checked [] _
  · exact hset

/-- The top frame is popped, and RL is what it saved (R139). -/
theorem takeResume (h : StackHolds s) : StackHolds (takeResume s).1 := by
  unfold Machine.takeResume
  split
  · exact h
  · next f rest hstack =>
    split
    · exact h
    · have hlinked := h.linked
      have hnodup := h.nodup
      have hrl := h.rl
      rw [hstack] at hlinked hnodup
      obtain ⟨htop, hlt, hrest⟩ := hlinked
      refine StackHolds.checked (s := s.setCu { s.cu with stack := rest, rl := f.savedRl }) ⟨hrest, ?_, h.mask, ?_, h.severities⟩ _ _
      · exact (List.nodup_cons.1 hnodup).2
      · show f.savedRl ≤ 15
        omega

theorem take_command (h : StackHolds s) (c : Command) : StackHolds (Machine.take c s).1 := by
  cases c with
  | condAck b => exact h.takeCondAck b
  | condInject b => exact h.takeCondInject b
  | condConfig b sev vec => exact h.takeCondConfig b sev vec
  | setMask level => exact h.takeSetMask level
  | resume => exact h.takeResume
  | _ => exact h.kept (by simp [Machine.take]) (by simp [Machine.take])

/-! ### The events -/

theorem judgeLine (h : StackHolds s) (line : CondLine) : StackHolds (s.judgeLine line) := by
  unfold State.judgeLine
  split <;> exact h.kept (by simp) (by simp)

theorem changeLine (h : StackHolds s) (line : CondLine) (b : Bool) : StackHolds (s.changeLine line b) :=
  StackHolds.react (StackHolds.judgeLine (s := s.setLines (s.lines.put line b)) ⟨h.linked, h.nodup, h.mask, h.rl, h.severities⟩ line) s

theorem sourceInstant (h : StackHolds s) (n : Fin 20) : StackHolds (s.sourceInstant n) :=
  h.kept (by simp) (by simp [State.sourceInstant])

/-- The mask is within the cap of the mode that the key gives (R130, R131). -/
theorem changeKey (h : StackHolds s) (b : Bool) : StackHolds (s.changeKey b) := by
  have hmask : (if b then s.cu.mask else min 10 s.cu.mask) ≤ (keyMode b).cap := by
    have h14 : s.cu.mask ≤ 14 := h.mask.trans (by cases s.cu.mode <;> decide)
    cases b
    · exact Nat.min_le_left _ _
    · exact h14
  have hkey : StackHolds (s.setCu { s.cu with mode := keyMode b, mask := if b then s.cu.mask else min 10 s.cu.mask }) :=
    ⟨h.linked, h.nodup, hmask, h.rl, h.severities⟩
  unfold State.changeKey
  split
  · exact h
  · have hjudged : ∀ {p : Prop} [Decidable p] {t : State}, StackHolds t → StackHolds (if p then t.sourceInstant 8 else t) := fun ht => by
      split
      · exact ht.sourceInstant 8
      · exact ht
    cases b with
    | true => exact (hjudged hkey).react s
    | false => exact (hjudged hkey).checked [] _

theorem completeClose (h : StackHolds s) (k : Fin 16) : StackHolds (s.completeClose k) := by
  unfold State.completeClose
  split
  · have hclosed : StackHolds ((s.mapSlot k (Slot.closed k)).storeDone k) := h.kept (by simp) (by simp)
    dsimp only
    split
    · next hv =>
      obtain ⟨rfl, hvalid⟩ := hv
      refine (hclosed.useConfig (fun j => ?_) .slot0).checked [] _
      have hslot : ((s.mapSlot 0 (Slot.closed 0)).storeDone 0).slot 0 = (s.slot 0).closed 0 := by
        rw [State.slot_congr (s := s.mapSlot 0 (Slot.closed 0)) (by simp), State.slot_mapSlot, if_pos rfl]
      rw [hslot] at hvalid ⊢
      have hnone : imageReason 0 (s.slot 0) = none := by
        unfold Slot.closed at hvalid
        dsimp only at hvalid
        split at hvalid
        · next hn => exact Option.isNone_iff_eq_none.1 hn
        · cases hvalid
      exact readConfig_mild (m := (s.slot 0).bytes) (by simpa [imageReason] using hnone) j
    · exact hclosed
  · exact h

theorem defaultConfig_mild (k : Fin 12) : (defaultConfig.conditions[k]).severity ≤ 15 := by revert k; decide

theorem endScan (h : StackHolds s) (hslot : Slot0Mild s) : StackHolds s.endScan := by
  unfold State.endScan
  split
  · exact h
  · obtain ⟨m, hm⟩ : ∃ m, m = (s.setRs { s.rs with
        slots := Vector.ofFn fun k => (s.rs.slots[k]).scanned (s.freeCount + k.val), scanning := false }).setFreeCount
          (s.freeCount + 16) := ⟨_, rfl⟩
    have hmild : Slot0Mild m := SlotsMoved.slot0Mild (fun k => by
      rw [hm]
      simpa [State.slot] using SlotsMoved.scanned (s.freeCount + k.val) k (s.slot k)) hslot
    have hscanned : StackHolds m := hm ▸ ⟨h.linked, h.nodup, h.mask, h.rl, h.severities⟩
    have hused : StackHolds (((if (m.slot 0).state = .valid then m.useConfig (readConfig (m.slot 0).bytes) .slot0
        else m.useConfig defaultConfig .defaults).takingCheck []).applyHalts s.halt) := by
      split
      · next hv => exact (hscanned.useConfig (hmild hv) .slot0).checked [] _
      · exact (hscanned.useConfig defaultConfig_mild .defaults).checked [] _
    dsimp only
    rw [← hm]
    split
    · exact hused.kept (by simp) (by simp)
    · exact hused

theorem resetSettings (n : Fin 20) : (conditionTable[n]).severity ≤ 15 := by revert n; decide

theorem cleared (s : State) : StackHolds s.cleared where
  linked := rfl
  nodup := List.nodup_nil
  mask := Nat.zero_le _
  rl := Nat.zero_le _
  severities := fun n => by
    have : (s.cleared.cond n).severity = (conditionTable[n]).severity := by simp [State.cond, State.cleared, Condition.atReset]
    rw [this]
    exact resetSettings n

theorem doReset (s : State) : StackHolds s.doReset := by
  have hjudged : StackHolds (s.cleared.judgeLines.sourceInstant 1) := by
    refine sourceInstant ((cleared s).kept ?_ ?_) 1 <;> simp [State.judgeLines]
  refine checked (hjudged.take ?_ ?_) [1] _
  · simp [State.onStack, State.judgeLines, State.cleared]
  · have hrl : (s.cleared.judgeLines.sourceInstant 1).cu.rl = 0 := by simp [State.judgeLines, State.cleared]
    have hsev : ((s.cleared.judgeLines.sourceInstant 1).cond 1).severity = 13 := by
      simp [State.judgeLines, State.sourceInstant]
      rfl
    rw [hrl, hsev]
    decide

theorem event (h : StackHolds s) (hslot : Slot0Mild s) (e : Instr) : StackHolds (eventEffect e s) := by
  cases e with
  | startupScanEnd => exact h.endScan hslot
  | closeComplete k => exact h.completeClose k
  | conditionLineChange line b => exact h.changeLine line b
  | keyChange b => exact h.changeKey b
  | conditionTake => exact h.checked [] _
  | lineSilenceExpiry =>
    show StackHolds s.silenceExpiry
    unfold State.silenceExpiry
    split
    · exact (sourceInstant (h.kept (by simp) (by simp)) 2).react s
    · exact h
  | transferTimerExpiry =>
    show StackHolds s.transferExpiry
    unfold State.transferExpiry
    split
    · exact h
    · exact (sourceInstant (h.kept (by simp) (by simp)) 9).react s
  | driveFeedback speed ready fault =>
    exact react (h.kept (by simp [State.judgeFeedback]) (by simp [State.judgeFeedback])) s
  | encoderIndex us x => exact react (h.kept (by simp) (by simp)) s
  | timeSlotStart stream => exact react (h.kept (by simp) (by simp)) s
  | slowSample x => exact react (h.kept (by simp) (by simp [State.takeSlow, State.judgeSlow, State.judgeSensors])) s
  | leakSample x =>
    refine react (h.kept (by simp) fun n => ?_) s
    unfold State.takeLeak
    dsimp only
    split <;> simp [State.judgeSensors]
  | _ => exact h.kept (by simp [eventEffect]) (by simp [eventEffect])

end StackHolds

/-- Settles O58: the Condition Unit's part by what pushes and pops a frame, and slot 0 by what a close has checked. -/
theorem everyStepKeepsTheStackLaw : Obligations.EveryStepKeepsTheStackLaw := fun s t hs ht => by
  have hkept : KeptBySteps fun s => StackHolds s ∧ Slot0Mild s := {
    setLp := fun _ h => ⟨h.1.kept (by simp) (by simp), h.2⟩
    setPending := fun _ h => ⟨h.1.kept (by simp) (by simp), h.2⟩
    elapse := fun _ h => ⟨h.1.kept (by simp) (by simp), h.2⟩
    doReset := fun h => ⟨StackHolds.doReset _, SlotsMoved.doReset.slot0Mild h.2⟩
    take := fun c h => ⟨h.1.take_command c, (SlotsMoved.take c).slot0Mild h.2⟩
    event := fun e h => ⟨h.1.event h.2 e, (SlotsMoved.event e).slot0Mild h.2⟩ }
  exact (stackLaw_iff t).2 (hkept.step ((stackLaw_iff s).1 hs) ht)

end Sys2Proof.Machine
end

