-- ==== Sys2Proof/Proofs/StandsKept.lean ====
section
/-! What every operation of the blocks keeps: the accounts of the Capture Store (R72) and at most one record at each station (R5). -/

namespace Sys2Proof.Machine

/-! ## Accounts (R72) -/

/-- The accounts of the store are in order (R72). -/
structure CaptureStore.Sound (c : CaptureStore) : Prop where
  reserved : ∀ st, (c.stream st).heldRes ≤ (c.stream st).plan.res
  fits : c.vib.plan.res + c.slow.plan.res + c.leak.plan.res + (c.vib.heldPool + c.slow.heldPool + c.leak.heldPool) ≤ allBlocks

theorem accountsLaw_iff (s : State) : AccountsLaw s ↔ s.cs.Sound :=
  ⟨fun ⟨hr, hf⟩ => ⟨hr, hf⟩, fun ⟨hr, hf⟩ => ⟨hr, hf⟩⟩

namespace CaptureStore.Sound

variable {c : CaptureStore}

/-- In sound accounts the pool's free blocks are those that nothing reserves and nothing holds. -/
theorem poolFree_eq (h : c.Sound) : c.poolFree +
    (c.vib.plan.res + c.slow.plan.res + c.leak.plan.res + (c.vib.heldPool + c.slow.heldPool + c.leak.heldPool)) = allBlocks := by
  have := h.fits
  unfold CaptureStore.poolFree CaptureStore.poolSize
  omega

/-- The accounts stay sound where a stream's reservation covers what it holds of it, and the pool covers what the stream adds. -/
theorem setStream (h : c.Sound) (st : StreamId) {x : Stream} (hr : x.heldRes ≤ x.plan.res)
    (hp : x.plan.res + x.heldPool ≤ (c.stream st).plan.res + (c.stream st).heldPool + c.poolFree) : (c.setStream st x).Sound := by
  have hfree := h.poolFree_eq
  refine ⟨fun st' => ?_, ?_⟩
  · have := h.reserved st'
    cases st <;> cases st' <;> first | exact hr | exact this
  · cases st <;> simp only [CaptureStore.setStream, CaptureStore.stream] at hp ⊢ <;> omega

theorem congr (h : c.Sound) {d : CaptureStore} (hs : ∀ st, d.stream st = c.stream st) : d.Sound := by
  have hvib : d.vib = c.vib := hs .vib
  have hslow : d.slow = c.slow := hs .slow
  have hleak : d.leak = c.leak := hs .leak
  refine ⟨fun st => by rw [hs]; exact h.reserved st, ?_⟩
  rw [hvib, hslow, hleak]
  exact h.fits

/-- What a stream gives back leaves the accounts sound. -/
theorem returned (h : c.Sound) (st : StreamId) (r p : Nat) :
    (c.setStream st ((c.stream st).returnBlocks r p)).Sound := by
  have := h.reserved st
  refine h.setStream st ?_ ?_ <;> simp only [Stream.returnBlocks] <;> omega

/-- What a stream can obtain it can take (R75). -/
theorem taken (h : c.Sound) (st : StreamId) {k : Nat}
    (hk : k ≤ c.obtainable st) (seq : Word32) : (c.setStream st ((c.stream st).takeBlocks k seq)).Sound := by
  have := h.reserved st
  simp only [CaptureStore.obtainable] at hk
  refine h.setStream st ?_ ?_ <;> simp only [Stream.takeBlocks, Stream.resShare] <;> omega

end CaptureStore.Sound

/-- A boundary that captures needs no more than the stream can obtain (R75, R78). -/
theorem State.obtainable_of_capture {s : State} {st : StreamId} {k : Nat} {free resumed : Bool}
    (h : s.boundary st k free = .capture resumed) : k ≤ s.cs.obtainable st := by
  unfold State.boundary at h
  split at h
  · cases h
  · split at h
    · next hc => exact hc.2
    · cases h
  · split at h
    · next hc => exact (Nat.le_max_left _ _).trans hc.2
    · cases h
  · split at h <;> cases h


/-! ## Stations (R5) -/

theorem records_set (i j : Fin 8) (o : Option UnitRecord) (v : Vector (Option UnitRecord) 8) :
    (v.set i o)[j] = if j = i then o else v[j] := by
  simp only [Fin.getElem_fin, Vector.getElem_set, Fin.ext_iff]
  by_cases e : j.val = i.val
  · simp [e]
  · rw [if_neg fun x => e x.symm, if_neg e]

/-- The law of the stations, where record `i` becomes `o` and the others stand: at the station that it then occupies there was no other. -/
theorem StationLaw.replaced {s t : State} (h : StationLaw s) (i : Fin 8) {o : Option UnitRecord}
    (ht : ∀ j : Fin 8, t.ut.records[j] = if j = i then o else s.ut.records[j])
    (ho : ∀ r, o = some r → ∀ (j : Fin 8) (q : UnitRecord), j ≠ i → s.ut.records[j] = some q →
      (r.state.atStation1 = true → q.state.atStation1 = false) ∧ (r.state.atStation2 = true → q.state.atStation2 = false)) :
    StationLaw t := by
  have other : ∀ (r : UnitRecord), o = some r → ∀ (j : Fin 8) (q : UnitRecord), j ≠ i → s.ut.records[j] = some q →
      ¬(r.state.atStation1 = true ∧ q.state.atStation1 = true) ∧ ¬(r.state.atStation2 = true ∧ q.state.atStation2 = true) :=
    fun r hr j q hj hq => by
      obtain ⟨h1, h2⟩ := ho r hr j q hj hq
      exact ⟨fun ⟨a, b⟩ => by simp [h1 a] at b, fun ⟨a, b⟩ => by simp [h2 a] at b⟩
  intro a b r q hr hq
  rw [ht] at hr hq
  by_cases ha : a = i <;> by_cases hb : b = i
  · exact ⟨fun _ _ => ha.trans hb.symm, fun _ _ => ha.trans hb.symm⟩
  · rw [if_pos ha] at hr
    rw [if_neg hb] at hq
    obtain ⟨h1, h2⟩ := other r hr b q hb hq
    exact ⟨fun x y => absurd ⟨x, y⟩ h1, fun x y => absurd ⟨x, y⟩ h2⟩
  · rw [if_neg ha] at hr
    rw [if_pos hb] at hq
    obtain ⟨h1, h2⟩ := other q hq a r ha hr
    exact ⟨fun x y => absurd ⟨y, x⟩ h1, fun x y => absurd ⟨y, x⟩ h2⟩
  · rw [if_neg ha] at hr
    rw [if_neg hb] at hq
    exact h a b r q hr hq

/-- No other record is at the station of a record (R5). -/
theorem StationLaw.others {s : State} (h : StationLaw s) {i : Fin 8} {r : UnitRecord} (hi : s.ut.records[i] = some r) (j : Fin 8)
    (q : UnitRecord) (hj : j ≠ i) (hq : s.ut.records[j] = some q) :
    (r.state.atStation1 = true → q.state.atStation1 = false) ∧ (r.state.atStation2 = true → q.state.atStation2 = false) := by
  obtain ⟨h1, h2⟩ := h i j r q hi hq
  exact ⟨fun a => by by_contra hc; exact hj (h1 a (by simpa using hc)).symm,
    fun a => by by_contra hc; exact hj (h2 a (by simpa using hc)).symm⟩

/-! ## What an operation keeps -/

/-- An operation keeps the accounts in order and at most one record at each station. -/
structure StandsKept (s t : State) : Prop where
  accounts : AccountsLaw s → AccountsLaw t
  stations : StationLaw s → StationLaw t

namespace StandsKept

variable {s t u : State}

theorem refl (s : State) : StandsKept s s := ⟨id, id⟩

theorem trans (h : StandsKept s t) (h' : StandsKept t u) : StandsKept s u := ⟨h'.accounts ∘ h.accounts, h'.stations ∘ h.stations⟩

/-- An operation that leaves the accounts of the streams and the states of the units. -/
theorem of_states (hu : RecordsKeep UnitRecord.state s t) (hs : ∀ st, t.stream st = s.stream st) : StandsKept s t :=
  ⟨fun h => (accountsLaw_iff t).2 (((accountsLaw_iff s).1 h).congr hs), hu.stationLaw⟩

theorem of_records (hu : RecordsKeep UnitRecord.state s t) (hc : t.cs = s.cs) : StandsKept s t :=
  of_states hu (State.stream_congr hc)

/-- An operation that leaves the Capture Store and the Unit Table. -/
theorem of_same (hu : t.ut = s.ut) (hc : t.cs = s.cs) : StandsKept s t := of_records (RecordsKeep.of_ut hu) hc

theorem then_same (h : StandsKept s t) (hu : u.ut = t.ut) (hc : u.cs = t.cs) : StandsKept s u := h.trans (of_same hu hc)

/-- An operation that leaves the Unit Table, and the accounts sound. -/
theorem of_sound (hu : t.ut = s.ut) (hc : s.cs.Sound → t.cs.Sound) : StandsKept s t :=
  ⟨fun h => (accountsLaw_iff t).2 (hc ((accountsLaw_iff s).1 h)), fun h => h.congr hu⟩

theorem setCs {c : CaptureStore} (h : s.cs.Sound → c.Sound) : StandsKept s (s.setCs c) := of_sound rfl h

theorem setPe (p : ProfileEngine) (s : State) : StandsKept s (s.setPe p) := of_same rfl rfl

theorem setOa (o : OrderAnalyzer) (s : State) : StandsKept s (s.setOa o) := of_same rfl rfl

theorem setAfe (a : FrontEnd) (s : State) : StandsKept s (s.setAfe a) := of_same rfl rfl

theorem elapse (us : Nat) (s : State) : StandsKept s (s.elapse us) := of_states (fun _ => rfl) fun _ => rfl

theorem setSource (n : Fin 20) (b : Bool) (s : State) : StandsKept s (s.setSource n b) := of_same (by simp) (by simp)

/-! ### Streams and plans (R74, R79, R80) -/

/-- A stream changes but for its plan and what it holds. -/
theorem setStream (st : StreamId) {x : Stream} (hp : x.plan = (s.stream st).plan) (hr : x.heldRes = (s.stream st).heldRes)
    (hh : x.heldPool = (s.stream st).heldPool) : StandsKept s (s.setStream st x) :=
  of_sound (by simp) fun h => h.setStream st (by rw [hp, hr]; exact h.reserved st) (by
    rw [hp, hh]
    exact Nat.le_add_right _ _)

theorem enterStream (st : StreamId) (x : StreamState) (s : State) : StandsKept s (s.enterStream st x) := by
  have entered : StandsKept s (s.setStream st { s.stream st with state := x }) := setStream st rfl rfl rfl
  unfold State.enterStream
  dsimp only
  split
  · exact entered.trans (setSource _ _ _)
  · split
    · exact entered.trans (setSource _ _ _)
    · exact entered

theorem syncStream (st : StreamId) (s : State) : StandsKept s (s.syncStream st) := by
  unfold State.syncStream
  split
  · exact enterStream st _ s
  · exact enterStream st _ s
  · exact enterStream st _ s
  · exact refl s

theorem syncStreams (s : State) : StandsKept s s.syncStreams :=
  ((syncStream .vib s).trans (syncStream .slow _)).trans (syncStream .leak _)

theorem enterWanted (st : StreamId) (s : State) : StandsKept s (s.enterWanted st) := by
  unfold State.enterWanted
  dsimp only
  split
  · exact (enterStream st (s.wantedState st) s).then_same (by simp) (by simp)
  · exact enterStream st _ s

/-- A plan that fits, applied (R79). -/
theorem applyPlan {st : StreamId} {p : Plan} (h : s.cs.canApply st p = true) : StandsKept s (s.applyPlan st p) := by
  simp only [CaptureStore.canApply, Stream.held, Bool.and_eq_true, decide_eq_true_eq] at h
  obtain ⟨hheld, hfits⟩ := h
  have hheld := of_decide_eq_true hheld
  refine trans (of_sound (by simp) fun hs => hs.setStream st ?_ ?_) (enterWanted st _)
  · show (s.cs.stream st).heldRes ≤ p.res
    omega
  · show p.res + (s.cs.stream st).heldPool ≤ _
    omega

theorem setTarget (st : StreamId) (p : Plan) (s : State) : StandsKept s (s.setTarget st p) := by
  unfold State.setTarget
  dsimp only
  split
  · split
    · exact (setStream st (x := { s.stream st with target := none }) rfl rfl rfl).trans (enterWanted st _)
    · exact refl s
  · split
    · next hfits => exact applyPlan hfits
    · exact (setStream st (x := { s.stream st with target := some p }) rfl rfl rfl).trans (enterStream st _ _)

theorem checkPlan (st : StreamId) (s : State) : StandsKept s (s.checkPlan st) := by
  unfold State.checkPlan
  split
  · split
    · next hfits => exact applyPlan hfits
    · exact refl s
  · exact refl s

theorem checkPlans (s : State) : StandsKept s s.checkPlans := ((checkPlan .vib s).trans (checkPlan .slow _)).trans (checkPlan .leak _)

/-! ### Allocation and release (R75, R77) -/

theorem releaseVib (d : Fin 32) (s : State) : StandsKept s (s.releaseVib d) := by
  refine trans (setCs fun h => ?_) (checkPlans _)
  exact (h.returned .vib (s.cs.vibDescs[d]).fromRes (s.cs.vibDescs[d]).fromPool).congr fun st => by cases st <;> rfl

theorem releaseSlow (d : Fin 8) (s : State) : StandsKept s (s.releaseSlow d) := by
  refine trans (setCs fun h => ?_) (checkPlans _)
  exact (h.returned .slow (s.cs.slowDescs[d]).fromRes (s.cs.slowDescs[d]).fromPool).congr fun st => by cases st <;> rfl

theorem releaseLeak (d : Fin 8) (s : State) : StandsKept s (s.releaseLeak d) := by
  refine trans (setCs fun h => ?_) (checkPlans _)
  exact (h.returned .leak (s.cs.leakDescs[d]).fromRes (s.cs.leakDescs[d]).fromPool).congr fun st => by cases st <;> rfl

theorem dropRecord (st : StreamId) (starves : Bool) (s : State) : StandsKept s (s.dropRecord st starves) := by
  have counted : StandsKept s (s.setStream st { s.stream st with dropped := count32 (s.stream st).dropped }) :=
    setStream st rfl rfl rfl
  unfold State.dropRecord
  dsimp only
  split
  · exact (counted.trans (enterStream st .starved _)).then_same (by simp) (by simp)
  · exact counted

theorem resumeStream (st : StreamId) (resumed : Bool) (s : State) : StandsKept s (s.resumeStream st resumed) := by
  unfold State.resumeStream
  split
  · exact (enterStream st .running s).then_same (by simp) (by simp)
  · exact refl s

theorem captureVib {w : Window} {resumed : Bool} (x : AngleSample) (h : w.spec.channels.length ≤ s.cs.obtainable .vib) :
    StandsKept s (s.captureVib w resumed x) := by
  unfold State.captureVib
  split
  · exact refl s
  · dsimp only
    refine trans (trans (setCs fun hs => ?_) (setAfe _ _)) (resumeStream _ _ _)
    exact (hs.taken .vib h s.afe.revolution).congr fun st => by cases st <;> rfl

theorem captureSlow {n : Nat} {resumed : Bool} (h : 5 ≤ s.cs.obtainable .slow) : StandsKept s (s.captureSlow n resumed) := by
  unfold State.captureSlow
  split
  · exact refl s
  · dsimp only
    refine trans (setCs fun hs => ?_) (resumeStream _ _ _)
    exact (hs.taken .slow h (slotNumber n)).congr fun st => by cases st <;> rfl

theorem captureLeak {n : Nat} {resumed : Bool} (h : 5 ≤ s.cs.obtainable .leak) : StandsKept s (s.captureLeak n resumed) := by
  unfold State.captureLeak
  split
  · exact refl s
  · dsimp only
    refine trans (setCs fun hs => ?_) (resumeStream _ _ _)
    exact (hs.taken .leak h (slotNumber n)).congr fun st => by cases st <;> rfl

/-! ### The Order Analyzer -/

theorem mapWindow (n : Nat) (f : Window → Window) (s : State) : StandsKept s (s.mapWindow n f) := of_same (by simp) (by simp)

theorem gradeWindow (n : Nat) (s : State) : StandsKept s (s.gradeWindow n) :=
  of_records (RecordsKeep.gradeWindow (fun _ _ => rfl) n s) (by simp)

theorem openWindow (n : Nat) (s : State) : StandsKept s (s.openWindow n) := (mapWindow n _ s).trans (syncStreams _)

theorem pauseWindow (n : Nat) (s : State) : StandsKept s (s.pauseWindow n) := (mapWindow n _ s).trans (syncStreams _)

theorem abandonOpen (s : State) : StandsKept s s.abandonOpen := by
  unfold State.abandonOpen
  split
  · exact (setAfe _ s).trans (releaseVib _ _)
  · exact refl s

theorem abandonFor (n : Nat) (s : State) : StandsKept s (s.abandonFor n) := by
  unfold State.abandonFor
  split
  · split
    · exact abandonOpen s
    · exact refl s
  · exact refl s

theorem closeWindow (n : Nat) (s : State) : StandsKept s (s.closeWindow n) := by
  cases hw : s.oa.window n with
  | none => rw [State.closeWindow_absent hw]; exact refl s
  | some w =>
    rcases State.closeWindow_found hw with ⟨-, -, h⟩ | ⟨-, -, h⟩ | ⟨-, -, h⟩ <;> rw [h]
    · exact ((abandonFor n s).trans (gradeWindow n _)).trans (syncStreams _)
    · exact ((abandonFor n s).trans (mapWindow n _ _)).trans (syncStreams _)
    · exact refl s

theorem closeWindows (s : State) : StandsKept s s.closeWindows := by
  unfold State.closeWindows
  split
  · exact of_records (RecordsKeep.closeTable (fun _ _ => rfl) s) (by simp)
  · unfold State.closeAll
    generalize s.oa.windows.map Window.number = ns
    clear *-
    induction ns generalizing s with
    | nil => exact refl s
    | cons n ns ih => exact (closeWindow n s).trans (ih _)

theorem closeIfDrained (n : Nat) (s : State) : StandsKept s (s.closeIfDrained n) := by
  unfold State.closeIfDrained
  split
  · split
    · exact gradeWindow n s
    · exact refl s
  · exact refl s

theorem rejectRecord (d : Fin 32) (n : Nat) (why : Reject) (s : State) : StandsKept s (s.rejectRecord d n why) :=
  ((mapWindow n _ s).trans (releaseVib d _)).trans (closeIfDrained n _)

theorem pump (fuel : Nat) (s : State) : StandsKept s (pump fuel s) := by
  induction fuel generalizing s with
  | zero => exact refl s
  | succ fuel ih =>
    unfold Machine.pump
    split
    · dsimp only
      split
      · exact ((setOa _ s).trans (releaseVib _ _)).trans (ih _)
      · split
        · exact ((setOa _ s).trans (rejectRecord _ _ _ _)).trans (ih _)
        · exact setOa _ s
    · exact refl s

theorem takeHeads (s : State) : StandsKept s s.takeHeads := pump _ s

theorem deliverVib (d : Fin 32) (s : State) : StandsKept s (s.deliverVib d) := by
  unfold State.deliverVib
  split
  · exact releaseVib d s
  · split
    · exact (mapWindow _ _ s).trans (releaseVib d _)
    · exact (setOa _ s).trans (takeHeads _)
    · exact (setOa _ s).trans (takeHeads _)
    · exact (setOa _ s).trans (takeHeads _)
    · exact releaseVib d s
    · exact releaseVib d s

theorem releaseAll (ds : List (Fin 32)) (s : State) : StandsKept s (ds.foldl (fun t d => t.releaseVib d) s) := by
  induction ds generalizing s with
  | nil => exact refl s
  | cons d ds ih => exact (releaseVib d s).trans (ih _)

theorem releaseSurplus (n : Nat) (s : State) : StandsKept s (s.releaseSurplus n) :=
  trans (trans (setOa _ s) (mapWindow n _ _)) (releaseAll _ _)

theorem afterAccept (n : Nat) (s : State) : StandsKept s (s.afterAccept n) := by
  unfold State.afterAccept
  split
  · exact refl s
  · split
    · dsimp only
      split
      · exact (releaseSurplus n s).trans (gradeWindow n _)
      · exact ((releaseSurplus n s).trans (mapWindow n _ _)).trans (syncStreams _)
    · exact closeIfDrained n s

theorem completeAnalysis (s : State) : StandsKept s s.completeAnalysis := by
  unfold State.completeAnalysis
  split
  · exact refl s
  · dsimp only
    split
    · exact ((setOa _ s).trans (releaseVib _ _)).trans (takeHeads _)
    · exact ((((setOa _ s).trans (mapWindow _ _ _)).trans (releaseVib _ _)).trans (afterAccept _ _)).trans (takeHeads _)

theorem drainClose (s : State) : StandsKept s s.drainClose := by
  unfold State.drainClose
  split
  · exact gradeWindow _ s
  · exact refl s

/-! ### Units and stations (R5, R11 to R13, R16, R17) -/

theorem unitNotice (i : Fin 8) (s : State) : StandsKept s (s.unitNotice i) := of_same (by simp) (by simp)

/-- A record moves to a state that keeps it at its station, or takes it to a station that is free. -/
theorem mapUnit_move {i : Fin 8} {r : UnitRecord} {f : UnitRecord → UnitRecord} (hi : s.ut.records[i] = some r)
    (h1 : (f r).state.atStation1 = true → r.state.atStation1 = true ∨ s.unit1 = none)
    (h2 : (f r).state.atStation2 = true → r.state.atStation2 = true ∨ s.unit2 = none) : StandsKept s (s.mapUnit i f) := by
  refine ⟨fun h => h, fun h => h.replaced i (o := some (f r)) (fun j => ?_) fun r' hr' j q hj hq => ?_⟩
  · rw [State.records_mapUnit, hi]
    rfl
  · cases hr'
    obtain ⟨o1, o2⟩ := h.others hi j q hj hq
    refine ⟨fun h' => ?_, fun h' => ?_⟩
    · rcases h1 h' with h' | h'
      · exact o1 h'
      · exact UnitTable.find_eq_none h' j q hq
    · rcases h2 h' with h' | h'
      · exact o2 h'
      · exact UnitTable.find_eq_none h' j q hq

theorem enterState_move {i : Fin 8} {r : UnitRecord} {v : UnitState} (hi : s.ut.records[i] = some r)
    (h1 : v.atStation1 = true → r.state.atStation1 = true ∨ s.unit1 = none)
    (h2 : v.atStation2 = true → r.state.atStation2 = true ∨ s.unit2 = none) : StandsKept s (s.enterState i v) :=
  (mapUnit_move (f := fun r => { r with state := v }) hi h1 h2).trans (unitNotice i _)

/-- A change of a record that leaves its state. -/
theorem mapUnit_state (i : Fin 8) {f : UnitRecord → UnitRecord} (hf : ∀ r, (f r).state = r.state) (s : State) :
    StandsKept s (s.mapUnit i f) := of_records (RecordsKeep.mapUnit i fun r _ => hf r) (by simp)

theorem runConveyor (s : State) : StandsKept s s.runConveyor := of_states (fun _ => rfl) fun _ => rfl

theorem stopConveyor (s : State) : StandsKept s s.stopConveyor := of_states (fun _ => rfl) fun _ => rfl

theorem checkTransfer (s : State) : StandsKept s s.checkTransfer := by
  unfold State.checkTransfer
  split
  · next i hi =>
    split
    · next hfree =>
      obtain ⟨r, hr, hstate⟩ := UnitTable.find_some hi
      have hstate : r.state = .runDone := by simpa using hstate
      have moved : StandsKept s (s.runConveyor.enterState i .inTransfer) :=
        (runConveyor s).trans (enterState_move (s := s.runConveyor) hr (fun _ => .inl (by rw [hstate]; rfl))
          fun _ => .inr (Option.isNone_iff_eq_none.1 hfree.1))
      dsimp only
      split
      · exact moved.trans (setTarget _ _ _)
      · exact moved
    · exact refl s
  · exact refl s

theorem disarmSilence (s : State) : StandsKept s s.disarmSilence := of_same (by simp) (by simp)

theorem armSilence (s : State) : StandsKept s s.armSilence := of_same (by simp) (by simp)

theorem restChambers (s : State) : StandsKept s s.restChambers := of_same (by simp) (by simp)

theorem startChambers (s : State) : StandsKept s s.startChambers := of_same (by simp) (by simp)

/-- A record that leaves both stations. -/
theorem enterDone (i : Fin 8) (s : State) : StandsKept s (s.enterDone i) := by
  have left : StandsKept s (s.mapUnit i fun r => { r with state := .done, doneTime := some s.now }) := by
    cases hr : s.ut.records[i] with
    | none => exact of_records (RecordsKeep.mapUnit i fun r hr' => by simp [hr] at hr') (by simp)
    | some r => exact mapUnit_move hr (fun h => by cases h) fun h => by cases h
  have reported : ∀ q, StandsKept s q → StandsKept s (q.assembleReport i) := fun q hq => by
    refine hq.trans ?_
    unfold State.assembleReport
    split
    · exact refl q
    · next r _ =>
      exact (mapUnit_state i (f := fun x => { x with report := some (assemble (q.recipeOf r) r) }) (fun _ => rfl) q).then_same
        (by simp) (by simp)
  exact ((((reported _ ((left.trans (syncStreams _)).trans (restChambers _))).trans (unitNotice i _)).trans (setTarget _ _ _)).trans (disarmSilence _)).trans (checkTransfer _)

theorem mapLeak (i : Fin 8) (f : LeakSection → LeakSection) (s : State) : StandsKept s (s.mapLeak i f) :=
  mapUnit_state i (f := fun r => { r with leak := f r.leak }) (fun _ => rfl) s

theorem checkLeakEnd (s : State) : StandsKept s s.checkLeakEnd := by
  unfold State.checkLeakEnd
  split
  · exact refl s
  · split
    · exact refl s
    · split
      · split
        · exact refl s
        · exact (mapLeak _ _ s).trans (enterDone _ _)
      · split
        · exact (mapLeak _ _ s).trans (enterDone _ _)
        · exact refl s

theorem decideLeak (s : State) : StandsKept s s.decideLeak := by
  unfold State.decideLeak
  split
  · exact refl s
  · next i hi =>
    split
    · exact refl s
    · next r hr =>
      split
      · exact (mapLeak _ _ s).trans (enterDone _ _)
      · split
        · exact refl s
        · obtain ⟨r', hr', hstate⟩ := UnitTable.find_some hi
          obtain rfl : r = r' := by simpa [hr] using hr'
          have hstate : r.state = .atLeak := by simpa using hstate
          have started : (s.mapLeak i fun x => { x with state := .inProgress }).ut.records[i] =
              some { r with leak := { r.leak with state := .inProgress } } := by
            rw [State.mapLeak, State.records_mapUnit_self, hr]
            rfl
          have moved := (mapLeak i _ s).trans (enterState_move (v := .leaking) started (fun h => by cases h) fun _ => .inl (by
            simp [hstate, UnitState.atStation2]))
          exact ((moved.trans (syncStreams _)).trans (armSilence _)).trans (startChambers _)

theorem arrive (s : State) : StandsKept s s.arrive := by
  unfold State.arrive
  split
  · exact refl s
  · next i hi =>
    obtain ⟨r, hr, hstate⟩ := UnitTable.find_some hi
    have hstate : r.state = .inTransfer := by simpa using hstate
    have moved : StandsKept s (s.stopConveyor.enterState i .atLeak) :=
      (stopConveyor s).trans (enterState_move (s := s.stopConveyor) hr (fun h => by cases h) fun _ => .inl (by rw [hstate]; rfl))
    exact ((moved.trans (setTarget _ _ _)).trans (setTarget _ _ _)).trans (decideLeak _)

theorem checkRunDone (s : State) : StandsKept s s.checkRunDone := by
  unfold State.checkRunDone
  split
  · exact refl s
  · next i hi =>
    split
    · exact refl s
    · split
      · obtain ⟨r, hr, hstate⟩ := UnitTable.find_some hi
        have hstate : r.state = .running := by simpa using hstate
        have moved : StandsKept s (s.enterState i .runDone) :=
          enterState_move hr (fun _ => .inl (by rw [hstate]; rfl)) fun h => by cases h
        exact ((moved.trans (syncStreams _)).trans (disarmSilence _)).trans (checkTransfer _)
      · exact refl s

/-- A load makes a record while station 1 is free (R7, R8). -/
theorem load {i : Fin 8} {serial : List Byte} {slot : Fin 16} (h1 : s.unit1 = none) :
    StandsKept s (s.load i serial slot) := by
  have bound : ∀ (q : State) (r : UnitRecord) (n : Nat), r.state = .loaded → q.ut = s.ut → q.cs = s.cs →
      StandsKept s (q.setUt { q.ut with records := q.ut.records.set i (some r), idCounter := n }) := fun q r n hr hu hc => by
    refine ⟨fun h => (accountsLaw_iff _).2 (by rw [State.setUt_cs, hc]; exact (accountsLaw_iff s).1 h),
      fun h => h.replaced i (o := some r) (fun j => ?_) fun r' hr' j q' hj hq' => ?_⟩
    · rw [State.setUt_ut, records_set, hu]
    · cases hr'
      exact ⟨fun _ => UnitTable.find_eq_none h1 j q' hq', fun h => by rw [hr] at h; cases h⟩
  exact (((bound (s.mapSlot slot _) _ _ rfl (by simp) (by simp)).trans (unitNotice i _)).trans (setTarget _ _ _)).trans (setTarget _ _ _)

theorem freeUnit (i : Fin 8) (s : State) : StandsKept s (s.freeUnit i) := by
  unfold State.freeUnit
  split
  · exact refl s
  · refine trans (t := s.setUt { s.ut with records := s.ut.records.set i none }) ⟨fun h => h,
      fun h => h.replaced i (o := none) (fun j => records_set i j none _) fun _ hr => by cases hr⟩ (of_same (by simp) (by simp))

end StandsKept

end Sys2Proof.Machine
end

