-- ==== Sys2Proof/Proofs/StandsSteps.lean ====
section
/-! The accounts of the Capture Store and the stations through the Profile Engine, the halts, the front end and the commands: every step keeps
both laws (R5, R72). -/

namespace Sys2Proof.Machine

namespace StandsKept

variable {s t u : State}

/-! ### The Profile Engine -/

theorem mapRunIn (g : RunIn → RunIn) (s : State) : StandsKept s (s.mapRunIn g) := by
  unfold State.mapRunIn
  split
  · next i _ => exact mapUnit_state i (f := fun r => { r with runIn := g r.runIn }) (fun _ => rfl) s
  · exact refl s

theorem setEnable (b : Bool) (s : State) : StandsKept s (s.setEnable b) := of_same (by simp) (by simp)

theorem tryOpen (s : State) : StandsKept s s.tryOpen := by
  unfold State.tryOpen
  split
  · exact refl s
  · split
    · exact (setPe _ s).trans (openWindow _ _)
    · exact refl s

theorem loadSettle (x : Step) (s : State) : StandsKept s (s.loadSettle x) := by
  have unsettled := setPe { s.pe with settleTimer := none, settled := false, openSent := false } s
  unfold State.loadSettle State.settle
  dsimp only
  split
  · exact unsettled
  · split
    · exact (unsettled.trans (setPe _ _)).trans (tryOpen _)
    · exact unsettled.trans (setPe _ _)

theorem pauseStep (s : State) : StandsKept s s.pauseStep := by
  unfold State.pauseStep
  dsimp only
  split
  · split
    · exact setPe _ s
    · exact (setPe _ s).trans (pauseWindow _ _)
  · exact setPe _ s

theorem noisePause (s : State) : StandsKept s s.noisePause := by
  unfold State.noisePause
  split
  · split
    · exact (setPe _ s).trans (pauseWindow _ _)
    · exact refl s
  · exact refl s

theorem loadStep (x : Step) (s : State) : StandsKept s (s.loadStep x) := (setPe _ s).trans (loadSettle x _)

theorem enterStep (k : Nat) (x : Step) (s : State) : StandsKept s (s.enterStep k x) :=
  ((setPe _ s).trans (mapRunIn _ _)).trans (loadStep x _)

theorem profileEnd (cause : StopCause) (s : State) : StandsKept s (s.profileEnd cause) :=
  (((((setEnable false s).trans (setPe _ _)).trans (mapRunIn _ _)).trans (closeWindows _)).trans (setPe _ _)).trans (checkRunDone _)

theorem beginStop (cause : StopCause) (s : State) : StandsKept s (s.beginStop cause) := by
  unfold State.beginStop
  dsimp only
  split
  · exact (setPe _ s).trans (profileEnd cause _)
  · exact setPe _ s

theorem endStep (k : Nat) (x : Step) (s : State) : StandsKept s (s.endStep k x).1 := by
  unfold State.endStep State.evaluateDrag
  dsimp only
  split
  · split
    · exact ((pauseStep s).trans (mapRunIn _ _)).trans (setPe _ _)
    · exact (pauseStep s).trans (setPe _ _)
  · exact (pauseStep s).trans (setPe _ _)

theorem runSteps (fuel k : Nat) (s : State) : StandsKept s (runSteps fuel k s) := by
  induction fuel generalizing k s with
  | zero => exact refl s
  | succ fuel ih =>
    unfold Machine.runSteps
    split
    · exact beginStop .runOut s
    · dsimp only
      split
      · exact ((enterStep _ _ s).trans (endStep _ _ _)).trans (ih _ _)
      · exact enterStep _ _ s

theorem endCurrent (s : State) : StandsKept s s.endCurrent := by
  unfold State.endCurrent
  split
  · exact (endStep _ _ s).trans (runSteps _ _ _)
  · exact refl s

theorem failStep (s : State) : StandsKept s s.failStep := ((mapRunIn _ s).trans (pauseStep _)).trans (beginStop _ _)

theorem beginProfile (s : State) : StandsKept s s.beginProfile :=
  ((setEnable true s).trans (setPe _ _)).trans (runSteps _ _ _)

theorem startProfile (r : Recipe) (s : State) : StandsKept s (s.startProfile r) := by
  unfold State.startProfile
  dsimp only
  split
  · exact trans (setPe _ s) (setPe _ _)
  · exact trans (setPe _ s) (beginProfile _)

theorem abortProfile (s : State) : StandsKept s s.abortProfile := by
  unfold State.abortProfile
  split
  · exact ((pauseStep s).trans (setPe _ _)).trans (beginStop _ _)
  · exact beginStop _ s
  · exact beginStop _ s
  · exact beginStop _ s
  · exact profileEnd _ s
  · exact refl s

theorem takeSpeed (speed : Int) (s : State) : StandsKept s (s.takeSpeed speed) := by
  unfold State.takeSpeed State.restartStep
  split
  · split
    · split
      · exact endCurrent s
      · exact refl s
    · exact refl s
  · split
    · split
      · exact loadStep _ s
      · exact refl s
    · exact refl s
  all_goals exact refl s

theorem updateSetpoint (s : State) : StandsKept s s.updateSetpoint := by
  unfold State.updateSetpoint
  dsimp only
  split
  · split
    · exact trans (setPe _ s) (profileEnd _ _)
    · exact setPe _ s
  · exact setPe _ s

theorem takeDrag (seq : Word32) (xs : List SlowSample) (s : State) : StandsKept s (s.takeDrag seq xs) := by
  unfold State.takeDrag
  split
  · split
    · exact setPe _ _
    · exact refl _
  · exact refl _

theorem absorb (seq : Word32) (xs : List SlowSample) (s : State) : StandsKept s (s.absorb seq xs) := by
  unfold State.absorb
  split
  · exact refl s
  · exact trans (mapRunIn _ s) (takeDrag seq xs _)

/-! ### Halts (R133 to R135) -/

theorem hardCheck (s : State) : StandsKept s s.hardCheck := by
  unfold State.hardCheck
  split
  · have stopped : ∀ p, StandsKept s ((s.setEnable false).setPe p) := fun p => (setEnable false s).trans (setPe p _)
    dsimp only
    split
    · exact (stopped _).trans (profileEnd _ _)
    · exact stopped _
  · exact refl s

theorem profileHalted (s : State) : StandsKept s s.profileHalted := by
  refine trans (trans ?_ (setPe _ _)) (hardCheck _)
  split
  · refine trans ((pauseStep s).trans ?_) (setPe _ _)
    split
    · exact setPe _ _
    · exact refl _
  · exact setPe _ s
  all_goals exact refl s

theorem profileReleased (s : State) : StandsKept s s.profileReleased := by
  unfold State.profileReleased
  dsimp only
  split
  · exact ((setPe _ s).trans (setEnable true _)).trans (setPe _ _)
  · exact (setPe _ s).trans (beginProfile _)
  all_goals exact setPe _ s

theorem applyHalts (was : StopSet) (s : State) : StandsKept s (s.applyHalts was) := by
  have profile : StandsKept s (s.applyProfileHalt was) := by
    unfold State.applyProfileHalt
    split
    · exact profileHalted s
    · exact hardCheck s
    · exact profileReleased s
    · exact refl s
  have noise : ∀ q, StandsKept q (q.applyNoiseHalt was) := fun q => by
    unfold State.applyNoiseHalt
    split
    · exact (noisePause q).trans (syncStreams _)
    · exact (tryOpen q).trans (syncStreams _)
    · exact refl q
  have leak : ∀ q, StandsKept q (q.applyLeakHalt was) := fun q => by
    unfold State.applyLeakHalt
    split
    · exact of_same (by simp) (by simp)
    · exact (of_same (by simp) (by simp) : StandsKept q q.checkGrant).trans (decideLeak _)
    · exact refl q
  have transfer : ∀ q, StandsKept q (q.applyTransferHalt was) := fun q => by
    unfold State.applyTransferHalt
    split
    · split
      · exact stopConveyor q
      · exact refl q
    · split
      · exact (runConveyor q).trans (checkTransfer _)
      · exact checkTransfer q
    · exact refl q
  exact ((profile.trans (noise _)).trans (leak _)).trans (transfer _)

theorem takeCondition (n : Fin 20) (s : State) : StandsKept s (s.take n) :=
  of_records (State.taken_keeps (f := UnitRecord.state) (fun _ _ _ => rfl) n s) rfl

theorem setCu (c : ConditionUnit) (s : State) : StandsKept s (s.setCu c) := of_same rfl rfl

theorem useConfig (cfg : CellConfig) (src : ConfigSource) (s : State) : StandsKept s (s.useConfig cfg src) := of_same rfl rfl

theorem setRs (r : RecipeStore) (s : State) : StandsKept s (s.setRs r) := of_same rfl rfl

theorem setLkc (l : LeakController) (s : State) : StandsKept s (s.setLkc l) := of_same rfl rfl

theorem setFreeCount (n : Nat) (s : State) : StandsKept s (s.setFreeCount n) := of_same rfl rfl

theorem setLp (l : LinePort) (s : State) : StandsKept s (s.setLp l) := of_same rfl rfl

theorem sourceInstant (n : Fin 20) (s : State) : StandsKept s (s.sourceInstant n) := of_same (by simp) (by simp)

theorem checkGrant (s : State) : StandsKept s s.checkGrant := of_same (by simp) (by simp)

theorem setReports (ids : List Nat) (s : State) : StandsKept s (s.setReports ids) := of_states (fun _ => rfl) fun _ => rfl

theorem reportNotice (s : State) : StandsKept s s.reportNotice := of_same (by simp) (by simp)

theorem takingCheck (first : List (Fin 20)) (s : State) : StandsKept s (s.takingCheck first) := by
  have noticed : ∀ (ns : List (Fin 20)) (q : State), StandsKept q (ns.foldl (fun t n => t.condNotice n) q) := fun ns q =>
    of_same (by simp) (by simp)
  rcases taken_or_none s with ⟨n, hn⟩ | hn
  · rw [State.takingCheck_one hn]
    exact trans (takeCondition n s) (trans (noticed first _) (noticed [n] _))
  · rw [State.takingCheck_none hn]
    exact noticed first s

theorem checked (first : List (Fin 20)) (was : StopSet) (s : State) : StandsKept s ((s.takingCheck first).applyHalts was) :=
  (takingCheck first s).trans (applyHalts was _)

theorem react (h : StandsKept s t) : StandsKept s (react s t) := by
  unfold Machine.react checkIfActivated
  split
  · exact h.trans (checked [] _ t)
  · exact h.trans (applyHalts _ t)

/-! ### The front end -/

theorem storeSlow (s : State) : StandsKept s s.storeSlow := by
  unfold State.storeSlow
  split
  · exact refl s
  · exact of_states (fun _ => rfl) fun st => by cases st <;> rfl

theorem storeLeak (s : State) : StandsKept s s.storeLeak := by
  unfold State.storeLeak
  split
  · exact refl s
  · exact of_states (fun _ => rfl) fun st => by cases st <;> rfl

theorem takeChannel (i : Fin 10) (x : Int) (s : State) : StandsKept s (s.takeChannel i x) := setAfe _ s

theorem judgeSensors (s : State) : StandsKept s s.judgeSensors := setSource 11 _ s

theorem judgeSlow (s : State) : StandsKept s s.judgeSlow := of_same (by simp) (by simp)

theorem checkFills (s : State) : StandsKept s s.checkFills := of_same (by simp) (by simp)

theorem senseFault (s : State) : StandsKept s s.senseFault := of_same (by simp) (by simp)

theorem takeSlow (x : SlowSample) (s : State) : StandsKept s (s.takeSlow x) :=
  ((((((((elapse _ s).trans (takeChannel 0 _ _)).trans (takeChannel 1 _ _)).trans (takeChannel 2 _ _)).trans (takeChannel 3 _ _)).trans
    (takeChannel 4 _ _)).trans (storeSlow _)).trans (setAfe _ _)).trans (judgeSlow _)

theorem takeLeak (x : LeakSample) (s : State) : StandsKept s (s.takeLeak x) := by
  unfold State.takeLeak
  dsimp only
  split
  · exact ((((((((((elapse _ s).trans (takeChannel 5 _ _)).trans (takeChannel 6 _ _)).trans (takeChannel 7 _ _)).trans
      (takeChannel 8 _ _)).trans (takeChannel 9 _ _)).trans (storeLeak _)).trans (setAfe _ _)).trans (checkFills _)).trans
      (senseFault _)).trans (judgeSensors _)
  · exact (((((((((elapse _ s).trans (takeChannel 5 _ _)).trans (takeChannel 6 _ _)).trans (takeChannel 7 _ _)).trans
      (takeChannel 8 _ _)).trans (takeChannel 9 _ _)).trans (storeLeak _)).trans (setAfe _ _)).trans (checkFills _)).trans
      (judgeSensors _)

theorem storeAngle (x : AngleSample) (s : State) : StandsKept s (s.storeAngle x) := by
  unfold State.storeAngle
  split
  · exact refl s
  · exact of_states (fun _ => rfl) fun st => by cases st <;> rfl

theorem pulse (us : Nat) (forward : Bool) (x : AngleSample) (s : State) : StandsKept s (s.pulse us forward x) := by
  unfold State.pulse
  dsimp only
  split
  · exact ((elapse us s).trans (setAfe _ _)).trans (storeAngle x _)
  · exact (elapse us s).trans (setAfe _ _)

theorem closeVib (s : State) : StandsKept s s.closeVib := by
  unfold State.closeVib
  split
  · exact refl s
  · refine trans (of_states (fun _ => ?_) fun st => ?_) (deliverVib _ _)
    · rfl
    · cases st <;> rfl

theorem boundaryVib (x : AngleSample) (s : State) : StandsKept s (s.boundaryVib x) := by
  unfold State.boundaryVib
  split
  · exact refl s
  · split
    · exact refl s
    · next hb => exact captureVib x (State.obtainable_of_capture hb)
    · exact (mapWindow _ _ s).trans (dropRecord _ _ _)

theorem index (us : Nat) (x : AngleSample) (s : State) : StandsKept s (s.index us x) :=
  ((((elapse us s).trans (closeVib _)).trans (checkRunDone _)).trans (setAfe _ _)).trans (boundaryVib x _)

theorem revolutionTimeout (s : State) : StandsKept s s.revolutionTimeout := by
  unfold State.revolutionTimeout
  split
  · exact (elapse _ s).trans (abandonOpen _)
  · exact refl s

theorem boundarySlow (n : Nat) (s : State) : StandsKept s (s.boundarySlow n) := by
  unfold State.boundarySlow
  split
  · exact refl _
  · next hb => exact captureSlow (State.obtainable_of_capture hb)
  · exact dropRecord _ _ _

theorem boundaryLeak (n : Nat) (s : State) : StandsKept s (s.boundaryLeak n) := by
  unfold State.boundaryLeak
  split
  · exact refl _
  · next hb => exact captureLeak (State.obtainable_of_capture hb)
  · exact dropRecord _ _ _

theorem startSlot (st : SlotStream) (s : State) : StandsKept s (s.startSlot st) := by
  cases st with
  | slow =>
    show StandsKept s s.startSlow
    unfold State.startSlow
    dsimp only
    split
    · exact ((elapse _ s).trans (setAfe _ _)).trans (boundarySlow _ _)
    · exact refl s
  | leak =>
    show StandsKept s s.startLeak
    unfold State.startLeak
    dsimp only
    split
    · exact ((elapse _ s).trans (setAfe _ _)).trans (boundaryLeak _ _)
    · exact refl s

/-! ### The leak stand -/

theorem countAttempt (c : Fin 4) (a : AttemptResult) (s : State) : StandsKept s (s.countAttempt c a) := by
  unfold State.countAttempt
  split
  · exact of_same (by simp) (by simp)
  · exact StandsKept.then_same (mapUnit_state _ (f := fun r => { r with leak := { r.leak with
      chambers := r.leak.chambers.set c (ChamberResult.count _ a r.leak.chambers[c]) } }) (fun _ => rfl) s) (by simp; rfl) (by simp)

theorem evaluate (c : Fin 4) (s : State) : StandsKept s (s.evaluate c) := by
  unfold State.evaluate
  split
  · split
    · exact countAttempt _ _ s
    · exact refl s
  · exact refl s

theorem evaluateAll (s : State) : StandsKept s s.evaluateAll := by
  unfold State.evaluateAll
  generalize List.finRange 4 = cs
  induction cs generalizing s with
  | nil => exact refl s
  | cons c cs ih => exact (evaluate c s).trans (ih _)

theorem takeLeakRecord (seq : Word32) (xs : List LeakSample) (s : State) : StandsKept s (s.takeLeakRecord seq xs) :=
  of_same (by simp) (by simp)

theorem endSlot (st : SlotStream) (s : State) : StandsKept s (s.endSlot st) := by
  cases st with
  | slow =>
    show StandsKept s s.endSlow
    unfold State.endSlow
    dsimp only
    split
    · split
      · exact (elapse _ s).trans (setAfe _ _)
      · exact (((elapse _ s).trans (setAfe _ _)).trans (absorb _ _ _)).trans (releaseSlow _ _)
    · exact refl s
  | leak =>
    show StandsKept s s.endLeak
    unfold State.endLeak
    dsimp only
    split
    · split
      · exact ((elapse _ s).trans (setAfe _ _)).trans (evaluateAll _)
      · exact ((((elapse _ s).trans (setAfe _ _)).trans (takeLeakRecord _ _ _)).trans (releaseLeak _ _)).trans (evaluateAll _)
    · exact refl s

theorem leaveVent (c : Fin 4) (s : State) : StandsKept s (s.leaveVent c) := of_same (by simp) (by simp)

/-! ### Events -/

theorem event (e : Instr) (s : State) : StandsKept s (eventEffect e s) := by
  cases e with
  | startupScanEnd =>
    show StandsKept s s.endScan
    unfold State.endScan
    dsimp only
    split
    · exact refl s
    · have scanned : ∀ r n cfg b, StandsKept s (((((s.setRs r).setFreeCount n).useConfig cfg b).takingCheck []).applyHalts s.halt) :=
        fun r n cfg b => trans (trans (trans (setRs r s) (setFreeCount n _)) (useConfig cfg b _)) (checked [] _ _)
      split
      · split
        · exact trans (scanned _ _ _ _) (setLkc _ _)
        · exact trans (scanned _ _ _ _) (setLkc _ _)
      · split
        · exact scanned _ _ _ _
        · exact scanned _ _ _ _
  | lineSilenceExpiry =>
    show StandsKept s s.silenceExpiry
    unfold State.silenceExpiry
    split
    · exact react (((elapse _ s).trans (setLp _ _)).trans (sourceInstant 2 _))
    · exact refl s
  | closeComplete k =>
    show StandsKept s (s.completeClose k)
    unfold State.completeClose
    dsimp only
    split
    · split
      · exact (of_same (by simp) (by simp) : StandsKept s (State.useConfig _ _ _)).trans (checked _ _ _)
      · exact of_same (by simp) (by simp)
    · exact refl s
  | arrive2Rise => exact arrive s
  | transferTimerExpiry =>
    show StandsKept s s.transferExpiry
    unfold State.transferExpiry
    split
    · exact refl s
    · exact react (of_states (fun _ => by simp; rfl) fun st => by simp [State.stream])
  | transferStart => exact checkTransfer s
  | leakStart => exact decideLeak s
  | enterRunDone => exact checkRunDone s
  | unitDone => exact checkLeakEnd s
  | setpointUpdate => exact (elapse _ s).trans (updateSetpoint _)
  | driveFeedback speed ready fault =>
    have judged : ∀ t : State, StandsKept t (t.judgeFeedback speed) := fun t =>
      of_same (by simp [State.judgeFeedback]) (by simp [State.judgeFeedback])
    exact react (((setAfe _ s).trans (takeSpeed speed _)).trans (judged _))
  | stepTimerExpiry =>
    show StandsKept s s.stepExpiry
    unfold State.stepExpiry
    split
    · exact refl s
    · dsimp only
      split
      · exact (elapse _ s).trans (failStep _)
      · exact (elapse _ s).trans (endCurrent _)
  | windowSettleExpiry =>
    show StandsKept s s.settleExpiry
    unfold State.settleExpiry
    split
    · exact refl s
    · exact ((elapse _ s).trans (setPe _ _)).trans (tryOpen _)
  | windowDrainClose => exact (drainClose s).trans (checkRunDone _)
  | encoderIndex us x => exact react (index us x s)
  | revolutionTimeout => exact revolutionTimeout s
  | analysisComplete => exact (completeAnalysis s).trans (checkRunDone _)
  | timeSlotStart st => exact react (startSlot st s)
  | timeSlotEnd st => exact endSlot st s
  | planApply => exact checkPlans s
  | slowSample x => exact react (takeSlow x s)
  | leakSample x => exact react (takeLeak x s)
  | fillTimeout c =>
    show StandsKept s (s.fillTimeout c)
    unfold State.fillTimeout
    split
    · exact refl s
    · exact ((elapse _ s).trans (countAttempt c _ _)).trans (checkGrant _)
  | settleExpiry c =>
    show StandsKept s (s.settleEnd c)
    unfold State.settleEnd
    split
    · exact refl s
    · exact trans (elapse _ s) (setLkc _ _)
  | measureTimerExpiry c =>
    show StandsKept s (s.measureEnd c)
    unfold State.measureEnd
    split
    · exact refl s
    · exact ((elapse _ s).trans (setLkc _ _)).trans (evaluate c _)
  | attemptEvaluation c => exact evaluate c s
  | ventExpiry c =>
    show StandsKept s (s.ventExpiry c)
    unfold State.ventExpiry
    split
    · exact refl s
    · exact ((elapse _ s).trans (leaveVent c _)).trans (checkLeakEnd _)
  | resetVentEnd =>
    show StandsKept s s.resetVentEnd
    unfold State.resetVentEnd
    split
    · exact ((elapse _ s).trans (setLkc _ _)).trans (checkGrant _)
    · exact refl s
  | conditionLineChange line b => exact react (of_same (by simp) (by simp))
  | keyChange b =>
    show StandsKept s (s.changeKey b)
    have keyed : ∀ m : Nat, StandsKept s (if s.anyWorking then (s.setCu { s.cu with mode := keyMode b, mask := m }).sourceInstant 8
        else s.setCu { s.cu with mode := keyMode b, mask := m }) := fun m => by
      split <;> exact of_same (by simp) (by simp)
    unfold State.changeKey
    split
    · exact refl s
    · cases b with
      | true => exact react (keyed _)
      | false => exact (keyed _).trans (checked _ _ _)
  | conditionTake => exact checked _ _ s
  | encoderPulse us forward x => exact pulse us forward x s
  | _ => exact of_same (by simp [eventEffect]) (by simp [eventEffect])

/-! ### Commands -/

theorem takeLoadUnit (slot : Byte) (serial : List Byte) (s : State) : StandsKept s (takeLoadUnit slot serial s).1 := by
  unfold Machine.takeLoadUnit
  split
  · exact refl s
  split
  · exact refl s
  split
  · exact refl s
  next hfree =>
    split
    · exact refl s
    dsimp only
    split
    · exact refl s
    · exact load (by simpa using hfree)

theorem takeStartRun (id : Nat) (s : State) : StandsKept s (takeStartRun id s).1 := by
  unfold Machine.takeStartRun
  split
  · exact refl s
  · next i _ =>
    split
    · exact refl s
    · next r hr =>
      split
      · next hloaded =>
        have timed := mapUnit_state i (f := fun r => { r with startTime := some s.now, runIn := { r.runIn with state := .inProgress } })
          (fun _ => rfl) s
        have hi : (s.mapUnit i fun r => { r with startTime := some s.now, runIn := { r.runIn with state := .inProgress } }).ut.records[i] =
            some { r with startTime := some s.now, runIn := { r.runIn with state := .inProgress } } := by
          rw [State.records_mapUnit_self, hr]
          rfl
        have entered := timed.trans (enterState_move (v := .running) hi (fun _ => .inl (by simp [hloaded, UnitState.atStation1]))
          fun h => by cases h)
        exact (((entered.trans (setOa _ _)).trans (syncStreams _)).trans (armSilence _)).trans (startProfile _ _)
      · exact refl s

/-- The record of an abort stays at station 1 through the close of its windows. -/
theorem abortLoaded {i : Fin 8} {r : UnitRecord} (recipe : Recipe) (hr : s.ut.records[i] = some r) (hs : r.state = .loaded) :
    StandsKept s (s.abortLoaded i recipe) := by
  unfold State.abortLoaded
  dsimp only
  obtain ⟨m, hm⟩ : ∃ m, m = ((s.mapUnit i fun r =>
      { r with runIn := { r.runIn with state := .aborted, verdict := some .aborted, steps := 0 } }).setUpWindows recipe).closeWindows :=
    ⟨_, rfl⟩
  have closed : StandsKept s m := hm ▸ ((mapUnit_state i (f := fun r =>
    { r with runIn := { r.runIn with state := .aborted, verdict := some .aborted, steps := 0 } }) (fun _ => rfl) s).trans
    (setOa _ _)).trans (closeWindows _)
  have kept : RecordsKeep UnitRecord.state s m := by
    rw [hm]
    exact RecordsKeep.trans (RecordsKeep.then_same (RecordsKeep.mapUnit i (g := fun r =>
      { r with runIn := { r.runIn with state := .aborted, verdict := some .aborted, steps := 0 } }) fun _ _ => rfl) rfl)
      (RecordsKeep.closeWindows (fun _ _ => rfl) _)
  obtain ⟨q, hq, hqs⟩ := kept.some_of_some hr
  rw [← hm]
  exact (closed.trans (enterState_move (v := .runDone) hq (fun _ => .inl (by rw [hqs, hs]; rfl)) fun h => by cases h)).trans
    (checkTransfer _)

theorem takeAbortUnit (id : Nat) (s : State) : StandsKept s (takeAbortUnit id s).1 := by
  unfold Machine.takeAbortUnit
  split
  · exact refl s
  · next i _ =>
    split
    · exact refl s
    · next r hr =>
      split
      · exact refl s
      · dsimp only
        have marked : StandsKept s ((s.mapUnit i fun r => { r with abort := true }).unitNotice i) :=
          (mapUnit_state i (f := fun r => { r with abort := true }) (fun _ => rfl) s).trans (unitNotice i _)
        refine marked.trans ?_
        unfold State.abortByState
        split
        · next hloaded =>
          refine abortLoaded (r := { r with abort := true }) _ ?_ hloaded
          rw [(State.unitNotice_frame i _).2.2.2.2.1, State.records_mapUnit_self, hr]
          rfl
        · exact abortProfile _
        · exact refl _
        · exact refl _
        · exact refl _
        · exact decideLeak _
        · exact (of_same (by simp) (by simp) : StandsKept _ (State.abortChambers _)).trans (checkLeakEnd _)

theorem freeId (id : Nat) (s : State) : StandsKept s (s.freeId id) := by
  unfold State.freeId
  split
  · exact freeUnit _ _
  · exact refl _

theorem takeReportRelease (id : Nat) (s : State) : StandsKept s (takeReportRelease id s).1 := by
  unfold Machine.takeReportRelease
  split
  · exact refl s
  · split
    · exact trans (trans (setReports _ s) (freeId id _)) (reportNotice _)
    · exact refl s

theorem withCondition {b : Byte} {f : Fin 20 → State → State × Reply} (h : ∀ n, StandsKept s (f n s).1) :
    StandsKept s (withCondition b f s).1 := by
  unfold Machine.withCondition
  split
  · exact refl s
  · exact h _

theorem take (c : Command) (s : State) : StandsKept s (take c s).1 := by
  cases c with
  | loadUnit slot serial => exact takeLoadUnit slot serial s
  | startRun id => exact takeStartRun id s
  | abortUnit id => exact takeAbortUnit id s
  | reportRelease id => exact takeReportRelease id s
  | advanceStep =>
    show StandsKept s (takeAdvanceStep s).1
    unfold takeAdvanceStep
    split
    · exact refl s
    · split
      · exact endCurrent s
      · exact refl s
  | condInject b =>
    refine withCondition fun n => ?_
    dsimp only
    split
    · exact refl s
    · exact (of_same (by simp) (by simp) : StandsKept s (s.inject n)).trans (checked _ _ _)
  | condConfig b sev vec =>
    refine withCondition fun n => ?_
    dsimp only
    split
    · exact refl s
    split
    · exact refl s
    split
    · exact refl s
    · split
      · exact of_same (by simp) (by simp)
      · exact (of_same (by simp) (by simp) : StandsKept s (s.mapCond n _)).trans (checked _ _ _)
  | setMask level =>
    show StandsKept s (takeSetMask level s).1
    unfold takeSetMask
    dsimp only
    split
    · exact trans (setCu _ s) (checked _ _ _)
    · exact setCu _ s
  | resume =>
    show StandsKept s (takeResume s).1
    unfold takeResume
    split
    · exact refl s
    · split
      · exact refl s
      · exact trans (setCu _ s) (checked _ _ _)
  | _ => exact of_same (by simp [Machine.take]) (by simp [Machine.take])

theorem doReset (s : State) : StandsKept s s.doReset := by
  have cleared : StandsKept s s.cleared := by
    refine ⟨fun _ => ⟨fun st => ?_, Nat.zero_le _⟩, fun _ i _ r _ hr => ?_⟩
    · cases st <;> exact Nat.le_refl 0
    · exact absurd hr (by simp [State.cleared, UnitTable.atReset])
  have judged : StandsKept s ((s.cleared.judgeLines.sourceInstant 1)) := cleared.then_same (by simp) (by simp)
  exact trans (trans judged (takeCondition 1 _)) (checked [1] _ _)

end StandsKept

/-- Settles O59: every operation keeps the accounts, as it takes no more than the stream can obtain and applies no plan that does not fit. -/
theorem everyStepKeepsTheAccountsLaw : Obligations.EveryStepKeepsTheAccountsLaw := fun _ _ hs ht =>
  KeptBySteps.step {
    setLp := fun _ h => h
    setPending := fun _ h => h
    elapse := fun _ h => h
    doReset := fun h => (StandsKept.doReset _).accounts h
    take := fun c h => (StandsKept.take c _).accounts h
    event := fun e h => (StandsKept.event e _).accounts h } hs ht

/-- Every step keeps at most one record at each station (R5). -/
theorem stationLaw_keptBySteps : KeptBySteps StationLaw where
  setLp _ h := h
  setPending _ h := h
  elapse _ h := h
  doReset h := (StandsKept.doReset _).stations h
  take c h := (StandsKept.take c _).stations h
  event e h := (StandsKept.event e _).stations h

end Sys2Proof.Machine
end

