-- ==== Sys2Proof/Proofs/SupplyKept.lean ====
section
/-! The compressed-air supply through every operation of the leak stand: one chamber fills at a time, none while the reset vent runs, and no
attempt lasts under a LEAK halt (R108, R120, R121, R125). -/

namespace Sys2Proof.Machine

/-! ### The end of the start-up scan (R34, R125) -/

/-- The slots as the start-up scan leaves them. -/
def State.scannedSlots (s : State) : State :=
  (s.setRs { s.rs with slots := Vector.ofFn fun k => (s.rs.slots[k]).scanned (s.freeCount + k.val), scanning := false }).setFreeCount
    (s.freeCount + 16)

/-- The configuration that the start-up scan puts in force. -/
def State.scanConfig (s : State) : State :=
  if (s.scannedSlots.slot 0).state = .valid then s.scannedSlots.useConfig (readConfig (s.scannedSlots.slot 0).bytes) .slot0
  else s.scannedSlots.useConfig defaultConfig .defaults

/-- A reset vent that runs takes its end from the live configuration. -/
def State.giveVent (s : State) : State :=
  match s.lkc.resetVent with
  | .running _ => s.setLkc { s.lkc with resetVent := .running (some s.rs.live.resetVent) }
  | .over => s

theorem State.endScan_idle {s : State} (h : s.rs.scanning = false) : s.endScan = s := by simp [State.endScan, h]

theorem State.endScan_scanning {s : State} (h : s.rs.scanning = true) :
    s.endScan = ((s.scanConfig.takingCheck []).applyHalts s.halt).giveVent := by
  unfold State.endScan
  rw [if_neg (by simp [h])]
  rfl

@[simp] theorem State.scannedSlots_frame (s : State) :
    s.scannedSlots.pending = s.pending ∧ s.scannedSlots.clockUs = s.clockUs ∧ s.scannedSlots.lines = s.lines ∧ s.scannedSlots.lp = s.lp ∧
    s.scannedSlots.ut = s.ut ∧ s.scannedSlots.pe = s.pe ∧ s.scannedSlots.afe = s.afe ∧ s.scannedSlots.cs = s.cs ∧
    s.scannedSlots.oa = s.oa ∧ s.scannedSlots.lkc = s.lkc ∧ s.scannedSlots.cu = s.cu ∧ s.scannedSlots.reports = s.reports := by
  simp [State.scannedSlots]

/-! ### The law of the supply, in two parts -/

/-- At most one chamber fills, and none while the reset vent runs (R108, R125). -/
def FillsAlone (s : State) : Prop :=
  (∀ c d, (s.chamber c).phase = .fill → (s.chamber d).phase = .fill → c = d) ∧
  (s.lkc.resetVent ≠ .over → ∀ c, (s.chamber c).phase ≠ .fill)

/-- No attempt is in progress. -/
def NoneAttempting (s : State) : Prop := ∀ c, (s.chamber c).phase.attempting = false

theorem supplyLaw_iff (s : State) : SupplyLaw s ↔ FillsAlone s ∧ (s.halt.leak = true → NoneAttempting s) :=
  ⟨fun ⟨hone, hvent, hhalt⟩ => ⟨⟨hone, hvent⟩, hhalt⟩, fun ⟨⟨hone, hvent⟩, hhalt⟩ => ⟨hone, hvent, hhalt⟩⟩

theorem NoneAttempting.congr {s t : State} (h : NoneAttempting s) (hl : t.lkc = s.lkc) : NoneAttempting t := fun c => by
  rw [State.chamber_congr hl]
  exact h c

/-- The members of the halt set stand, and no chamber begins to fill or to attempt. -/
structure Calmer (s t : State) : Prop where
  vent : t.lkc.resetVent = s.lkc.resetVent
  halt : t.halt = s.halt
  fills : ∀ c, (t.chamber c).phase = .fill → (s.chamber c).phase = .fill
  attempts : ∀ c, (t.chamber c).phase.attempting = true → (s.chamber c).phase.attempting = true

namespace Calmer

variable {s t u : State}

theorem of_chambers (hv : t.lkc.resetVent = s.lkc.resetVent) (hh : t.cu = s.cu)
    (hp : ∀ c, (t.chamber c).phase = (s.chamber c).phase ∨ (t.chamber c).phase.attempting = false) : Calmer s t where
  vent := hv
  halt := State.halt_congr (by rw [hh])
  fills c h := by
    rcases hp c with hc | hc
    · rwa [hc] at h
    · rw [h] at hc
      cases hc
  attempts c h := by
    rcases hp c with hc | hc
    · rwa [hc] at h
    · rw [h] at hc
      cases hc

theorem of_same (hl : t.lkc = s.lkc) (hh : t.halt = s.halt) : Calmer s t :=
  ⟨by rw [hl], hh, fun c h => by rwa [State.chamber_congr hl] at h, fun c h => by rwa [State.chamber_congr hl] at h⟩

theorem refl (s : State) : Calmer s s := of_same rfl rfl

theorem trans (h : Calmer s t) (h' : Calmer t u) : Calmer s u :=
  ⟨h'.vent.trans h.vent, h'.halt.trans h.halt, fun c hc => h.fills c (h'.fills c hc), fun c hc => h.attempts c (h'.attempts c hc)⟩

theorem foldl {f : State → Fin 4 → State} (hf : ∀ q c, Calmer q (f q c)) (cs : List (Fin 4)) (s : State) : Calmer s (cs.foldl f s) := by
  induction cs generalizing s with
  | nil => exact refl s
  | cons c cs ih => exact (hf s c).trans (ih _)

theorem elapse (us : Nat) (s : State) : Calmer s (s.elapse us) :=
  of_chambers rfl rfl fun c => .inl (by simp [State.chamber, State.elapse, Chamber.after])

/-- A chamber that leaves its phase for one that is no attempt. -/
theorem setChamber {c : Fin 4} {x : Chamber} (hx : x.phase = (s.chamber c).phase ∨ x.phase.attempting = false) :
    Calmer s (s.setChamber c x) :=
  of_chambers rfl rfl fun d => by
    rw [State.chamber_setChamber]
    split
    · next hd => exact hd ▸ hx
    · exact .inl rfl

/-- An attempt that goes on in another phase than FILL. -/
theorem attempt_goes_on {c : Fin 4} {x : Chamber} (hs : (s.chamber c).phase.attempting = true) (hx : x.phase ≠ .fill) :
    Calmer s (s.setChamber c x) where
  vent := rfl
  halt := rfl
  fills d h := by
    rw [State.chamber_setChamber] at h
    split at h
    · exact absurd h hx
    · exact h
  attempts d h := by
    rw [State.chamber_setChamber] at h
    split at h
    · next hd => exact hd ▸ hs
    · exact h

theorem enterVent (c : Fin 4) (after : AfterVent) (s : State) : Calmer s (s.enterVent c after) := setChamber (.inr rfl)

theorem joinQueue (c : Fin 4) (s : State) : Calmer s (s.joinQueue c) :=
  of_chambers rfl rfl fun d => by
    have : (s.joinQueue c).chamber d = (s.setChamber c ⟨.waitFill, none, none, none⟩).chamber d := rfl
    rw [this, State.chamber_setChamber]
    split
    · exact .inr rfl
    · exact .inl rfl

theorem restChambers (s : State) : Calmer s s.restChambers :=
  of_chambers rfl rfl fun c => .inr (by simp [State.chamber, State.restChambers, Chamber.atRest, ChamberPhase.attempting])

theorem takeLeakRecord (n : Word32) (xs : List LeakSample) (s : State) : Calmer s (s.takeLeakRecord n xs) :=
  of_chambers rfl rfl fun c => .inl (by rw [State.chamber_takeLeakRecord]; rfl)

theorem senseFault (s : State) : Calmer s s.senseFault :=
  of_chambers rfl rfl fun c => .inl (by simp [State.chamber, State.senseFault])

theorem countAttempt (c : Fin 4) (a : AttemptResult) (s : State) : Calmer s (s.countAttempt c a) := by
  unfold State.countAttempt
  split
  · exact enterVent c _ s
  · exact trans (of_same (by simp) (State.halt_congr (by simp))) (enterVent c _ _)

theorem evaluate (c : Fin 4) (s : State) : Calmer s (s.evaluate c) := by
  unfold State.evaluate
  split
  · split
    · exact countAttempt c _ s
    · exact refl s
  · exact refl s

theorem evaluateAll (s : State) : Calmer s s.evaluateAll := foldl (fun q c => evaluate c q) _ s

theorem haltChambers (s : State) : Calmer s s.haltChambers :=
  foldl (fun q c => by
    split
    · exact enterVent c _ q
    · exact refl q) _ s

theorem abortChamber (c : Fin 4) (s : State) : Calmer s (s.abortChamber c) := by
  unfold State.abortChamber
  split
  · exact setChamber (.inr rfl)
  · exact enterVent c _ s
  · exact enterVent c _ s
  · exact enterVent c _ s
  · split
    · exact setChamber (.inl rfl)
    · exact refl s
  · exact refl s
  · exact refl s

theorem emptyQueue (s : State) : Calmer s (s.setLkc { s.lkc with queue := [] }) := of_chambers rfl rfl fun _ => .inl rfl

theorem abortChambers (s : State) : Calmer s s.abortChambers := by
  unfold State.abortChambers
  exact trans (foldl (fun q c => abortChamber c q) (List.finRange 4) s) (emptyQueue _)

end Calmer

/-! ### What keeps the law -/

/-- An operation under which the halt set stands and the supply keeps its law. -/
structure SupplyKept (s t : State) : Prop where
  halt : t.halt = s.halt
  fills : FillsAlone s → FillsAlone t
  rests : (s.halt.leak = true → NoneAttempting s) → t.halt.leak = true → NoneAttempting t

theorem Calmer.kept {s t : State} (h : Calmer s t) : SupplyKept s t where
  halt := h.halt
  fills hs := ⟨fun c d hc hd => hs.1 c d (h.fills c hc) (h.fills d hd), fun hv c hc => hs.2 (h.vent ▸ hv) c (h.fills c hc)⟩
  rests hs ht c := by
    have hc := hs (h.halt ▸ ht) c
    exact Bool.eq_false_iff.mpr fun ha => by simp [h.attempts c ha] at hc

namespace SupplyKept

variable {s t u : State}

theorem refl (s : State) : SupplyKept s s := ⟨rfl, id, id⟩

theorem trans (h : SupplyKept s t) (h' : SupplyKept t u) : SupplyKept s u :=
  ⟨h'.halt.trans h.halt, h'.fills ∘ h.fills, fun hs => h'.rests (h.rests hs)⟩

theorem of_same (hl : t.lkc = s.lkc) (hc : t.cu.stack = s.cu.stack) : SupplyKept s t := (Calmer.of_same hl (State.halt_congr hc)).kept

theorem law (h : SupplyKept s t) (hs : SupplyLaw s) : SupplyLaw t := by
  rw [supplyLaw_iff] at hs ⊢
  exact ⟨h.fills hs.1, h.rests hs.2⟩

/-- A grant is made with the supply free, LEAK not halted and the reset vent over (R108). -/
theorem checkGrant (s : State) : SupplyKept s s.checkGrant := by
  unfold State.checkGrant
  split
  · exact refl s
  · next c rest _ =>
    split
    · next hgrant =>
      obtain ⟨hfree, hleak, hover⟩ := hgrant
      have hfree : ∀ d, (s.chamber d).phase ≠ .fill := by simpa [State.supplyFree] using hfree
      have other : ∀ d, d ≠ c → (((s.setLkc { s.lkc with queue := rest }).setChamber c
          ⟨.fill, some (s.chamberPlan c).fillTimeout, none, none⟩).chamber d).phase ≠ .fill := fun d hd => by
        rw [State.chamber_setChamber, if_neg hd]
        exact hfree d
      exact {
        halt := rfl
        fills := fun _ => ⟨fun d e hd he => by
          rw [Decidable.byContradiction fun h => other d h hd, Decidable.byContradiction fun h => other e h he],
          fun hv => absurd hover hv⟩
        rests := fun _ ht => absurd ht hleak }
    · exact refl s

theorem startChambers (s : State) : SupplyKept s s.startChambers :=
  (Calmer.foldl (fun q c => by
    split
    · exact Calmer.joinQueue c q
    · exact Calmer.refl q) _ s).kept.trans (checkGrant _)

theorem enterDone (i : Fin 8) (s : State) : SupplyKept s (s.enterDone i) :=
  (Calmer.restChambers s).kept.trans (of_same (by simp [State.enterDone, State.restChambers]) (by simp))

theorem checkLeakEnd (s : State) : SupplyKept s s.checkLeakEnd := by
  have ended : ∀ i f, SupplyKept s ((s.mapLeak i f).enterDone i) := fun i f =>
    (of_same (by simp [State.mapLeak]) (by simp [State.mapLeak]) : SupplyKept s (s.mapLeak i f)).trans (enterDone i _)
  unfold State.checkLeakEnd
  split
  · exact refl s
  · split
    · exact refl s
    · split
      · split
        · exact refl s
        · exact ended _ _
      · split
        · exact ended _ _
        · exact refl s

theorem decideLeak (s : State) : SupplyKept s s.decideLeak := by
  have mapped : ∀ i f, SupplyKept s (s.mapLeak i f) := fun i f => of_same (by simp [State.mapLeak]) (by simp [State.mapLeak])
  unfold State.decideLeak
  split
  · exact refl s
  · split
    · exact refl s
    · split
      · exact (mapped _ _).trans (enterDone _ _)
      · split
        · exact refl s
        · exact trans (of_same (by simp) (by simp)) (startChambers _)

theorem arrive (s : State) : SupplyKept s s.arrive := by
  unfold State.arrive
  split
  · exact refl s
  · exact trans (of_same (by simp) (by simp)) (decideLeak _)

theorem fillReached {c : Fin 4} (hc : (s.chamber c).phase = .fill) : SupplyKept s (s.fillReached c) := by
  rw [State.fillReached_eq]
  exact (Calmer.attempt_goes_on (by rw [hc]; rfl) (State.filledChamber_not_fill c s)).kept.trans (checkGrant _)

theorem checkFills (s : State) : SupplyKept s s.checkFills := by
  unfold State.checkFills State.checkFill
  split
  · dsimp only
    split
    · next h => exact fillReached h.1
    · exact refl s
  · exact refl s

theorem leaveVent (c : Fin 4) (s : State) : SupplyKept s (s.leaveVent c) := by
  unfold State.leaveVent
  split
  · exact (Calmer.setChamber (.inr rfl)).kept
  · exact (Calmer.joinQueue c s).kept.trans (checkGrant _)
  · exact (Calmer.setChamber (.inr rfl)).kept
  · exact (Calmer.setChamber (.inr rfl)).kept

theorem elapse (us : Nat) (s : State) : SupplyKept s (s.elapse us) := (Calmer.elapse us s).kept

end SupplyKept

/-- What follows the passing of `us` microseconds leaves the Leak Controller and the stack alone. -/
theorem SupplyKept.elapsed {s t : State} (us : Nat) (hl : t.lkc = (s.elapse us).lkc) (hc : t.cu.stack = s.cu.stack) : SupplyKept s t :=
  (elapse us s).trans (of_same hl hc)

/-! ### Halts (R121, R122) -/

theorem State.haltChambers_rest (s : State) : NoneAttempting s.haltChambers := fun c => by
  rw [State.haltChambers_chamber]
  unfold State.haltedChamber
  split
  · rfl
  · next h => exact Bool.eq_false_iff.mpr h

/-- A chain of changes of the halts leaves the fills alone, and no attempt in progress under the LEAK halt that then stands (R121). -/
theorem SupplyKept.halted {was : StopSet} {s : State} (hs : was.leak = true → NoneAttempting s) (hf : FillsAlone s) :
    SupplyLaw (s.applyHalts was) := by
  unfold State.applyHalts
  have before : ((s.applyProfileHalt was).applyNoiseHalt was).lkc = s.lkc := by simp
  generalize (s.applyProfileHalt was).applyNoiseHalt was = t at before
  have hfills : FillsAlone t := (Calmer.of_same (s := { s with cu := t.cu }) before rfl).kept.fills hf
  suffices SupplyLaw (t.applyLeakHalt was) from
    (of_same (by simp) (by simp) : SupplyKept _ ((t.applyLeakHalt was).applyTransferHalt was)).law this
  rw [supplyLaw_iff]
  unfold State.applyLeakHalt
  split
  · exact ⟨(Calmer.haltChambers t).kept.fills hfills, fun _ => State.haltChambers_rest t⟩
  · next hfree =>
    have kept := (checkGrant t).trans (decideLeak _)
    exact ⟨kept.fills hfills, fun h => absurd h (by rw [kept.halt, hfree]; simp)⟩
  · next h1 h2 =>
    refine ⟨hfills, fun h => NoneAttempting.congr (hs ?_) before⟩
    cases hw : was.leak
    · exact absurd h (h1 hw)
    · rfl

/-- The check for a taking and its halts, after an event that began under the halt set `was` (R133, R135). -/
theorem SupplyKept.checked {was : StopSet} {s : State} (first : List (Fin 20)) (hs : was.leak = true → NoneAttempting s)
    (hf : FillsAlone s) : SupplyLaw ((s.takingCheck first).applyHalts was) := by
  have taken : (s.takingCheck first).lkc = s.lkc := by simp
  refine halted (fun h => (hs h).congr taken) ?_
  exact ⟨fun c d hc hd => hf.1 c d (by rwa [State.chamber_congr taken] at hc) (by rwa [State.chamber_congr taken] at hd),
    fun hv c => by rw [State.chamber_congr taken]; exact hf.2 (by rwa [taken] at hv) c⟩

/-- An event whose block leaves the law to the taking check. -/
theorem SupplyKept.then_checked {s t : State} (h : SupplyKept s t) (hs : SupplyLaw s) :
    SupplyLaw ((t.takingCheck []).applyHalts s.halt) := by
  have ht := (supplyLaw_iff t).mp (h.law hs)
  exact checked [] (fun hw => ht.2 (by rw [h.halt]; exact hw)) ht.1

theorem SupplyKept.react {s t : State} (h : SupplyKept s t) (hs : SupplyLaw s) : SupplyLaw (react s t) := by
  unfold Machine.react checkIfActivated
  split
  · exact h.then_checked hs
  · have ht := (supplyLaw_iff t).mp (h.law hs)
    exact halted (fun hw => ht.2 (by rw [h.halt]; exact hw)) ht.1

theorem SupplyKept.setCu_stack {s : State} (c : ConditionUnit) (h : c.stack = s.cu.stack) : SupplyKept s (s.setCu c) := of_same rfl h

theorem SupplyKept.scanConfig (s : State) : SupplyKept s s.scanConfig := by
  unfold State.scanConfig
  split <;> exact of_same (by simp) (by simp)

/-- The reset vent takes its end (R125). -/
theorem SupplyKept.giveVent (s : State) : SupplyKept s s.giveVent := by
  unfold State.giveVent
  split
  · next hv => exact ⟨rfl, fun hs => ⟨hs.1, fun _ => hs.2 (by simp [hv])⟩, id⟩
  · exact refl s

/-! ### Every step -/

theorem SupplyKept.elapseMs (ms : Nat) (s : State) : SupplyKept s (s.elapseMs ms) := elapse (1000 * ms) s

theorem SupplyKept.elapseTo (ms : Nat) (s : State) : SupplyKept s (s.elapseTo ms) := elapse (1000 * ms - s.clockUs) s

theorem SupplyKept.setAfe (a : FrontEnd) (s : State) : SupplyKept s (s.setAfe a) := of_same rfl rfl

theorem SupplyKept.releaseSlow (d : Fin 8) (s : State) : SupplyKept s (s.releaseSlow d) := of_same (by simp) (by simp)

theorem SupplyKept.absorb (n : Word32) (xs : List SlowSample) (s : State) : SupplyKept s (s.absorb n xs) := of_same (by simp) (by simp)

theorem SupplyKept.boundarySlow (n : Nat) (s : State) : SupplyKept s (s.boundarySlow n) := of_same (by simp) (by simp)

theorem SupplyKept.boundaryLeak (n : Nat) (s : State) : SupplyKept s (s.boundaryLeak n) := of_same (by simp) (by simp)

theorem SupplyKept.releaseLeak (d : Fin 8) (s : State) : SupplyKept s (s.releaseLeak d) := of_same (by simp) (by simp)

/-- The end of a slot begins no attempt (R71, R113, R114). -/
theorem SupplyKept.endSlot (st : SlotStream) (s : State) : SupplyKept s (s.endSlot st) := by
  cases st with
  | slow =>
    show SupplyKept s s.endSlow
    unfold State.endSlow
    dsimp only
    split
    · split
      · exact (elapseTo _ s).trans (setAfe _ _)
      · exact (((elapseTo _ s).trans (setAfe _ _)).trans (absorb _ _ _)).trans (releaseSlow _ _)
    · exact refl s
  | leak =>
    show SupplyKept s s.endLeak
    unfold State.endLeak
    dsimp only
    split
    · split
      · exact ((elapseTo _ s).trans (setAfe _ _)).trans (Calmer.evaluateAll _).kept
      · exact ((((elapseTo _ s).trans (setAfe _ _)).trans (Calmer.takeLeakRecord _ _ _).kept).trans (releaseLeak _ _)).trans
          (Calmer.evaluateAll _).kept
    · exact refl s

theorem SupplyKept.startSlot (st : SlotStream) (s : State) : SupplyKept s (s.startSlot st) := by
  cases st with
  | slow =>
    show SupplyKept s s.startSlow
    unfold State.startSlow
    dsimp only
    split
    · exact ((elapseTo _ s).trans (setAfe _ _)).trans (boundarySlow _ _)
    · exact refl s
  | leak =>
    show SupplyKept s s.startLeak
    unfold State.startLeak
    dsimp only
    split
    · exact ((elapseTo _ s).trans (setAfe _ _)).trans (boundaryLeak _ _)
    · exact refl s

theorem SupplyKept.takeChannel (i : Fin 10) (x : Int) (s : State) : SupplyKept s (s.takeChannel i x) := of_same rfl rfl

theorem SupplyKept.storeSlow (s : State) : SupplyKept s s.storeSlow := of_same (by simp) (by simp)

theorem SupplyKept.storeLeak (s : State) : SupplyKept s s.storeLeak := of_same (by simp) (by simp)

theorem SupplyKept.judgeSlow (s : State) : SupplyKept s s.judgeSlow := of_same (by simp) (by simp)

theorem SupplyKept.takeSlow (x : SlowSample) (s : State) : SupplyKept s (s.takeSlow x) :=
  ((((((((elapseTo _ s).trans (takeChannel 0 _ _)).trans (takeChannel 1 _ _)).trans (takeChannel 2 _ _)).trans (takeChannel 3 _ _)).trans
    (takeChannel 4 _ _)).trans (storeSlow _)).trans (setAfe _ _)).trans (judgeSlow _)

/-- The samples of the leak stand (R65, R109, R114). -/
theorem SupplyKept.takeLeak (x : LeakSample) (s : State) : SupplyKept s (s.takeLeak x) := by
  have sampled : SupplyKept s (s.sampledLeak x) := (((((((elapseTo _ s).trans (takeChannel 5 _ _)).trans (takeChannel 6 _ _)).trans
    (takeChannel 7 _ _)).trans (takeChannel 8 _ _)).trans (takeChannel 9 _ _)).trans (storeLeak _)).trans (setAfe _ _)
  have sensed : ∀ q : State, SupplyKept q q.sensed := fun q => by
    unfold State.sensed
    split
    · exact (Calmer.senseFault q).kept
    · exact refl q
  rw [State.takeLeak_eq]
  exact ((sampled.trans (checkFills _)).trans (sensed _)).trans (of_same (by simp) (by simp))

theorem SupplyKept.updateSetpoint (s : State) : SupplyKept s s.updateSetpoint := of_same (by simp) (by simp)

theorem SupplyKept.abandonOpen (s : State) : SupplyKept s s.abandonOpen := of_same (by simp) (by simp)

theorem SupplyKept.pulse (us : Nat) (forward : Bool) (x : AngleSample) (s : State) : SupplyKept s (s.pulse us forward x) := by
  unfold State.pulse
  dsimp only
  split
  · exact elapsed us (by simp) (by simp)
  · exact elapsed us (by simp) (by simp)

theorem State.chamber_elapseMs (ms : Nat) (c : Fin 4) (s : State) : ((s.elapseMs ms).chamber c).phase = (s.chamber c).phase := by
  simp [State.chamber, State.elapseMs, State.elapse, Chamber.after]

theorem SupplyKept.settleEnd (c : Fin 4) (s : State) : SupplyKept s (s.settleEnd c) := by
  unfold State.settleEnd State.phaseTimer
  split
  · exact refl s
  · next left hleft =>
    split at hleft
    · next hc =>
      have settling : ((s.elapseMs left).chamber c).phase.attempting = true := by
        rw [State.chamber_elapseMs, hc]
        rfl
      exact (elapseMs left s).trans (Calmer.attempt_goes_on settling (by simp)).kept
    · cases hleft

theorem SupplyKept.measureEnd (c : Fin 4) (s : State) : SupplyKept s (s.measureEnd c) := by
  unfold State.measureEnd
  split
  · exact refl s
  · next left _ =>
    generalize ht : s.elapseMs left = t
    dsimp only
    refine trans (trans (ht ▸ elapseMs left s) (Calmer.setChamber (.inl ?_)).kept) (Calmer.evaluate c _).kept
    rfl

theorem supplyLaw_event (e : Instr) {s : State} (hs : SupplyLaw s) : SupplyLaw (eventEffect e s) := by
  have ht := (supplyLaw_iff s).mp hs
  cases e with
  | startupScanEnd =>
    show SupplyLaw s.endScan
    by_cases hscan : s.rs.scanning = true
    · rw [State.endScan_scanning hscan]
      exact (SupplyKept.giveVent _).law ((SupplyKept.scanConfig s).then_checked hs)
    · rwa [State.endScan_idle (by simpa using hscan)]
  | lineSilenceExpiry =>
    show SupplyLaw s.silenceExpiry
    unfold State.silenceExpiry
    split
    · next left _ => exact (SupplyKept.elapsed (1000 * left) (by simp [State.elapseMs]) (by simp [State.elapseMs])).react hs
    · exact hs
  | closeComplete k =>
    show SupplyLaw (s.completeClose k)
    unfold State.completeClose
    dsimp only
    split
    · split
      · exact (SupplyKept.of_same (by simp) (by simp)).then_checked hs
      · exact (SupplyKept.of_same (by simp) (by simp)).law hs
    · exact hs
  | arrive2Rise => exact (SupplyKept.arrive s).law hs
  | transferTimerExpiry =>
    show SupplyLaw s.transferExpiry
    unfold State.transferExpiry
    split
    · exact hs
    · next left _ => exact (SupplyKept.elapsed (1000 * left) (by simp [State.elapseMs]) (by simp [State.elapseMs])).react hs
  | leakStart => exact (SupplyKept.decideLeak s).law hs
  | unitDone => exact (SupplyKept.checkLeakEnd s).law hs
  | driveFeedback speed ready fault => exact (SupplyKept.of_same (by simp) (by simp)).react hs
  | encoderIndex us x => exact (SupplyKept.elapsed us (by simp [State.index]) (by simp [State.index])).react hs
  | encoderPulse us forward x => exact (SupplyKept.pulse us forward x s).law hs
  | timeSlotStart st => exact (SupplyKept.startSlot st s).react hs
  | timeSlotEnd st => exact (SupplyKept.endSlot st s).law hs
  | slowSample x =>
    exact (SupplyKept.takeSlow x s).react hs
  | leakSample x => exact (SupplyKept.takeLeak x s).react hs
  | fillGrant => exact (SupplyKept.checkGrant s).law hs
  | fillTimeout c =>
    show SupplyLaw (s.fillTimeout c)
    unfold State.fillTimeout
    split
    · exact hs
    · exact (((SupplyKept.elapse _ s).trans (Calmer.countAttempt c _ _).kept).trans (.checkGrant _)).law hs
  | settleExpiry c => exact (SupplyKept.settleEnd c s).law hs
  | measureTimerExpiry c => exact (SupplyKept.measureEnd c s).law hs
  | attemptEvaluation c => exact (Calmer.evaluate c s).kept.law hs
  | ventExpiry c =>
    show SupplyLaw (s.ventExpiry c)
    unfold State.ventExpiry
    split
    · exact hs
    · exact (((SupplyKept.elapse _ s).trans (.leaveVent c _)).trans (.checkLeakEnd _)).law hs
  | resetVentEnd =>
    show SupplyLaw s.resetVentEnd
    unfold State.resetVentEnd
    split
    · next stop _ =>
      obtain ⟨hone, -, hhalt⟩ := (SupplyKept.elapseTo stop s).law hs
      exact (SupplyKept.checkGrant _).law ⟨hone, fun hv => absurd rfl hv, hhalt⟩
    · exact hs
  | conditionLineChange line b => exact (SupplyKept.of_same (by simp) (by simp)).react hs
  | keyChange b =>
    show SupplyLaw (s.changeKey b)
    have keyed : ∀ m : Nat, SupplyKept s (if s.anyWorking then (s.setCu { s.cu with mode := keyMode b, mask := m }).sourceInstant 8
        else s.setCu { s.cu with mode := keyMode b, mask := m }) := fun m => by
      split <;> exact .of_same (by simp) (by simp)
    unfold State.changeKey
    split
    · exact hs
    · cases b with
      | true => exact (keyed _).react hs
      | false => exact (keyed _).then_checked hs
  | conditionTake => exact (SupplyKept.refl s).then_checked hs
  | setpointUpdate =>
    exact ((SupplyKept.elapseTo (2 * (s.pe.updates + 1)) s).trans (.updateSetpoint _)).law hs
  | stepTimerExpiry =>
    show SupplyLaw s.stepExpiry
    unfold State.stepExpiry
    split
    · exact hs
    · next left _ =>
      dsimp only
      split
      · exact (SupplyKept.elapsed (1000 * left) (by simp [State.elapseMs]) (by simp [State.elapseMs])).law hs
      · exact (SupplyKept.elapsed (1000 * left) (by simp [State.elapseMs]) (by simp [State.elapseMs])).law hs
  | windowSettleExpiry =>
    show SupplyLaw s.settleExpiry
    unfold State.settleExpiry
    split
    · exact hs
    · next left _ => exact (SupplyKept.elapsed (1000 * left) (by simp [State.elapseMs]) (by simp [State.elapseMs])).law hs
  | revolutionTimeout =>
    show SupplyLaw s.revolutionTimeout
    unfold State.revolutionTimeout
    split
    · exact ((SupplyKept.elapse _ s).trans (.abandonOpen _)).law hs
    · exact hs
  | eraseComplete k => exact (SupplyKept.of_same (by simp) (by simp) : SupplyKept s (s.completeErase k)).law hs
  | transferStart => exact (SupplyKept.of_same (by simp) (by simp) : SupplyKept s s.checkTransfer).law hs
  | enterRunDone => exact (SupplyKept.of_same (by simp) (by simp) : SupplyKept s s.checkRunDone).law hs
  | windowDrainClose => exact (SupplyKept.of_same (by simp) (by simp) : SupplyKept s s.drainClose.checkRunDone).law hs
  | analysisComplete => exact (SupplyKept.of_same (by simp) (by simp) : SupplyKept s s.completeAnalysis.checkRunDone).law hs
  | planApply => exact (SupplyKept.of_same (by simp) (by simp) : SupplyKept s s.checkPlans).law hs
  | _ => exact hs

theorem supplyLaw_take (c : Command) {s : State} (hs : SupplyLaw s) : SupplyLaw (take c s).1 := by
  cases c with
  | abortUnit id =>
    show SupplyLaw (takeAbortUnit id s).1
    unfold takeAbortUnit State.abortByState
    split
    · exact hs
    · split
      · exact hs
      · split
        · exact hs
        · dsimp only
          split
          · exact (SupplyKept.of_same (by simp [State.abortLoaded]) (by simp [State.abortLoaded])).law hs
          · exact (SupplyKept.of_same (by simp) (by simp)).law hs
          · exact (SupplyKept.of_same (by simp) (by simp)).law hs
          · exact (SupplyKept.of_same (by simp) (by simp)).law hs
          · exact (SupplyKept.of_same (by simp) (by simp)).law hs
          · exact (SupplyKept.trans (.of_same (by simp) (by simp)) (.decideLeak _)).law hs
          · exact (SupplyKept.trans (.trans (.of_same (by simp) (by simp)) (Calmer.abortChambers _).kept) (.checkLeakEnd _)).law hs
  | condInject b =>
    show SupplyLaw (withCondition b _ s).1
    unfold withCondition
    split
    · exact hs
    · dsimp only
      split
      · exact hs
      · exact (SupplyKept.of_same (by simp) (by simp)).then_checked hs
  | condConfig b sev vec =>
    show SupplyLaw (withCondition b _ s).1
    unfold withCondition
    split
    · exact hs
    · dsimp only
      split
      · exact hs
      split
      · exact hs
      split
      · exact hs
      · split
        · exact (SupplyKept.of_same (by simp) (by simp)).law hs
        · exact (SupplyKept.of_same (by simp) (by simp)).then_checked hs
  | setMask level =>
    show SupplyLaw (takeSetMask level s).1
    unfold takeSetMask
    dsimp only
    split
    · exact SupplyKept.then_checked (.setCu_stack _ rfl) hs
    · exact SupplyKept.law (.setCu_stack _ rfl) hs
  | resume =>
    show SupplyLaw (takeResume s).1
    unfold takeResume
    split
    · exact hs
    · split
      · exact hs
      · have ht := (supplyLaw_iff s).mp hs
        exact SupplyKept.checked _ ht.2 ht.1
  | _ => exact (SupplyKept.of_same (by simp [Machine.take]) (by simp [Machine.take])).law hs

/-- After a reset every chamber rests (R125). -/
theorem supplyLaw_doReset (s : State) : SupplyLaw s.doReset := by
  have rest : ∀ c, ((((s.cleared.judgeLines).sourceInstant 1).take 1).chamber c) = .atRest := fun c => by
    simp [State.chamber, State.cleared, LeakController.atReset]
  have none : ∀ c, ((((s.cleared.judgeLines).sourceInstant 1).take 1).chamber c).phase ≠ .fill := fun c => by
    rw [rest]
    exact ChamberPhase.noConfusion
  exact SupplyKept.checked _ (fun h => by cases h) ⟨fun c _ hc => absurd hc (none c), fun _ => none⟩

/-- Every step keeps the law of the compressed-air supply (R108, R121, R125). -/
theorem supplyLaw_keptBySteps : KeptBySteps SupplyLaw where
  setLp _ h := h
  setPending _ h := h
  elapse us h := (SupplyKept.elapse us _).law h
  doReset _ := supplyLaw_doReset _
  take c h := supplyLaw_take c h
  event e h := supplyLaw_event e h

end Sys2Proof.Machine
end

