-- ==== Sys2Proof/Proofs/DriveKept.lean ====
section
/-! The halted run stand: while PROFILE is in the halt set no step is in progress, the step timer runs in STEPPING alone, and the halt is HARD
over a severe frame; through every operation of the Profile Engine and through the halts (R43, R56 to R58). -/

namespace Sys2Proof.Machine

/-- What DriveLaw says of the engine, where PROFILE is halted or not and a severe frame is on the stack or not. -/
structure ProfileEngine.Lawful (halted severe : Bool) (p : ProfileEngine) : Prop where
  rests : halted = true → p.phase ≠ .stepping ∧ p.phase ≠ .reapproach
  timed : p.stepTimer ≠ none → p.phase = .stepping
  hard : halted = true → severe = true → p.halt = .hard

theorem driveLaw_iff (s : State) : DriveLaw s ↔ s.pe.Lawful s.halt.profile s.severeFrame := by
  have severe : s.severeFrame = true ↔ ∃ f ∈ s.cu.stack, 14 ≤ f.severity := by simp [State.severeFrame]
  exact ⟨fun ⟨hrest, htimer, hhard⟩ => ⟨hrest, htimer, fun h hs => hhard h (severe.mp hs)⟩,
    fun ⟨hrest, htimer, hhard⟩ => ⟨hrest, htimer, fun h hs => hhard h (severe.mpr hs)⟩⟩

/-- What the law reads of the engine. -/
def ProfileEngine.drive (p : ProfileEngine) : Phase × Timer × HaltStyle := (p.phase, p.stepTimer, p.halt)

/-- The engine does not come to move under a halt, its step timer runs in STEPPING alone, and a HARD halt stays. -/
def EngineKept (halted severe : Bool) (s t : State) : Prop := s.pe.Lawful halted severe → t.pe.Lawful halted severe

namespace EngineKept

variable {h v : Bool} {s t u : State}

theorem refl (s : State) : EngineKept h v s s := id

theorem trans (hs : EngineKept h v s t) (ht : EngineKept h v t u) : EngineKept h v s u := ht ∘ hs

theorem of_drive (hd : t.pe.drive = s.pe.drive) : EngineKept h v s t := by
  simp only [ProfileEngine.drive, Prod.mk.injEq] at hd
  obtain ⟨hphase, htimer, hhalt⟩ := hd
  exact fun ⟨hrest, htimed, hhard⟩ => ⟨by rwa [hphase], by rwa [hphase, htimer], by rwa [hhalt]⟩

theorem of_pe (hp : t.pe = s.pe) : EngineKept h v s t := of_drive (by rw [hp])

/-- An engine that stops keeps the law. -/
theorem of_stopped (hp : t.pe.phase = .stopping ∨ t.pe.phase = .idle ∨ t.pe.phase = .suspended ∨ t.pe.phase = .held)
    (ht : t.pe.stepTimer = none) (hh : t.pe.halt = s.pe.halt) : EngineKept h v s t := fun ⟨_, _, hhard⟩ =>
  { rests := fun _ => by rcases hp with hp | hp | hp | hp <;> simp [hp]
    timed := fun h => absurd ht h
    hard := by rwa [hh] }

/-- A step in progress shows that PROFILE is not halted. -/
theorem of_moving (hm : s.pe.phase = .stepping ∨ s.pe.phase = .reapproach) (hk : EngineKept false v s t) : EngineKept h v s t := fun hs => by
  cases h with
  | false => exact hk hs
  | true =>
    obtain ⟨h1, h2⟩ := hs.rests rfl
    rcases hm with hm | hm
    · exact absurd hm h1
    · exact absurd hm h2

/-- With PROFILE out of the halt set only the step timer is bound. -/
theorem of_stepping (ht : t.pe.phase = .stepping ∨ t.pe.stepTimer = none) : EngineKept false v s t := fun _ =>
  ⟨fun h => (nomatch h), fun h => ht.resolve_right h, fun h => nomatch h⟩

end EngineKept

/-! ### What the engine's operations leave of it -/

theorem State.setEnable_drive (b : Bool) (s : State) : (s.setEnable b).pe.drive = s.pe.drive := by
  unfold State.setEnable
  split
  · rfl
  · simp [ProfileEngine.drive]

theorem State.tryOpen_drive (s : State) : s.tryOpen.pe.drive = s.pe.drive := by
  rw [State.tryOpen_pe]
  rfl

theorem State.noisePause_drive (s : State) : s.noisePause.pe.drive = s.pe.drive := by
  rw [State.noisePause_pe]
  rfl

theorem State.pauseStep_drive (s : State) : s.pauseStep.pe.drive = s.pe.drive := by
  rw [State.pauseStep_engine]
  rfl

theorem State.loadSettle_drive (x : Step) (s : State) : (s.loadSettle x).pe.drive = s.pe.drive := by
  rw [State.loadSettle_pe]
  rfl

theorem ProfileEngine.drive_eq {p q : ProfileEngine} (h : p.drive = q.drive) :
    p.phase = q.phase ∧ p.stepTimer = q.stepTimer ∧ p.halt = q.halt := by
  simpa [ProfileEngine.drive] using h

theorem State.profileEnd_drive (cause : StopCause) (s : State) : (s.profileEnd cause).pe.drive = (.idle, none, s.pe.halt) := by
  obtain ⟨-, -, hhalt⟩ := ProfileEngine.drive_eq (State.setEnable_drive false s)
  rw [State.profileEnd_pe]
  simp [ProfileEngine.drive, State.driveOff]

theorem State.loadStep_phase (x : Step) (s : State) : (s.loadStep x).pe.phase = .stepping :=
  (ProfileEngine.drive_eq (State.loadSettle_drive x _)).1

/-! ### Every operation of the engine -/

namespace EngineKept

variable {h v : Bool} {s t u : State}

theorem profileEnd (cause : StopCause) (s : State) : EngineKept h v s (s.profileEnd cause) := by
  have hd := State.profileEnd_drive cause s
  simp only [ProfileEngine.drive, Prod.mk.injEq] at hd
  obtain ⟨hphase, htimer, hhalt⟩ := hd
  exact of_stopped (.inr (.inl hphase)) htimer hhalt

theorem beginStop (cause : StopCause) (s : State) : EngineKept h v s (s.beginStop cause) := by
  have stopping : EngineKept h v s (s.stoppingFor cause) := of_stopped (.inl rfl) rfl rfl
  by_cases hz : s.pe.setpoint = 0
  · rw [State.beginStop_standing hz]
    exact stopping.trans (profileEnd cause _)
  · rw [State.beginStop_moving hz]
    exact stopping

theorem endStep (k : Nat) (x : Step) (s : State) : EngineKept false v s (s.endStep k x).1 := of_stepping (.inr rfl)

theorem enterStep (k : Nat) (x : Step) (s : State) : EngineKept false v s (s.enterStep k x) :=
  of_stepping (.inl (State.loadStep_phase x _))

theorem runSteps (fuel k : Nat) (s : State) : EngineKept false v s (runSteps fuel k s) := by
  induction fuel generalizing k s with
  | zero => exact refl s
  | succ fuel ih =>
    unfold Machine.runSteps
    split
    · exact beginStop .runOut s
    · dsimp only
      split
      · exact ((enterStep _ _ s).trans (endStep _ _ _)).trans (ih _ _)
      · exact enterStep _ _ s

theorem endCurrent (hp : s.pe.phase = .stepping) : EngineKept h v s s.endCurrent := by
  refine of_moving (.inl hp) ?_
  unfold State.endCurrent
  split
  · exact (endStep _ _ s).trans (runSteps _ _ _)
  · exact refl s

theorem failStep (s : State) : EngineKept h v s s.failStep :=
  ((of_pe (by simp) : EngineKept h v s (s.mapRunIn fun r => { r with failStep := s.pe.step })).trans
    (of_drive (State.pauseStep_drive _))).trans (beginStop _ _)

theorem beginProfile (s : State) : EngineKept false v s s.beginProfile :=
  trans (of_stepping (.inl rfl) : EngineKept false v s ((s.setEnable true).setPe
    { (s.setEnable true).pe with brake := false, phase := .stepping })) (runSteps _ _ _)

/-- START_RUN under a halt holds the profile (R42). -/
theorem startProfile (r : Recipe) (s : State) : EngineKept s.halt.profile s.severeFrame s (s.startProfile r) := by
  unfold State.startProfile
  dsimp only
  split
  · exact fun _ => { rests := fun _ => by simp, timed := fun h => absurd rfl h, hard := fun _ hs => by simp [hs] }
  · next hp =>
    rw [show s.halt.profile = false by simpa using hp]
    exact fun hs => beginProfile _ ⟨fun h => (nomatch h), hs.timed, fun h => nomatch h⟩

theorem abortProfile (s : State) : EngineKept h v s s.abortProfile := by
  unfold State.abortProfile
  split
  · exact trans (of_drive (t := s.pauseStep.clearDrag) (State.pauseStep_drive s)) (beginStop .abort _)
  · exact beginStop _ s
  · exact beginStop _ s
  · exact beginStop _ s
  · exact profileEnd _ s
  · exact refl s

theorem takeSpeed (speed : Int) (s : State) : EngineKept h v s (s.takeSpeed speed) := by
  unfold State.takeSpeed State.restartStep
  split
  · next hp =>
    split
    · split
      · exact endCurrent hp
      · exact refl s
    · exact refl s
  · next hp =>
    split
    · split
      · exact of_moving (.inr hp) (of_stepping (.inl (State.loadStep_phase _ s)))
      · exact refl s
    · exact refl s
  all_goals exact refl s

theorem updateSetpoint (s : State) : EngineKept h v s s.updateSetpoint := by
  unfold State.updateSetpoint
  dsimp only
  split
  · split
    · exact fun hs => profileEnd _ _ (of_drive (s := s) rfl hs)
    · exact of_drive rfl
  · exact of_drive rfl

theorem takeDrag (n : Word32) (xs : List SlowSample) (s : State) : EngineKept h v s (s.takeDrag n xs) := by
  unfold State.takeDrag
  split
  · split
    · exact of_drive rfl
    · exact refl s
  · exact refl s

theorem absorb (n : Word32) (xs : List SlowSample) (s : State) : EngineKept h v s (s.absorb n xs) := by
  unfold State.absorb
  split
  · exact refl s
  · exact trans (of_pe (State.mapRunIn_frame _ s).2.2.2.2.2.2.1) (takeDrag n xs _)

theorem elapse (us : Nat) (s : State) : EngineKept h v s (s.elapse us) := fun ⟨hrest, htimed, hhard⟩ =>
  ⟨hrest, fun ht => htimed fun hn => ht (by simp [State.elapse, Timer.after, hn]), hhard⟩

end EngineKept

end Sys2Proof.Machine
end

