-- ==== Sys2Proof/Proofs/DriveSteps.lean ====
section
/-! Every step keeps the law of the halted run stand, and with it the laws of the stands (R5, R56, R57, R108). -/

namespace Sys2Proof.Machine

theorem ProfileEngine.Lawful.mild {h v : Bool} {p : ProfileEngine} (hp : p.Lawful h v) : p.Lawful h false :=
  ⟨hp.rests, hp.timed, fun _ hv => nomatch hv⟩

/-! ### Halts (R56 to R58) -/

/-- The change to HARD where a severe frame is on the stack (R57). -/
theorem State.hardCheck_lawful {s : State} (hs : s.pe.Lawful true false) : s.hardCheck.pe.Lawful true s.severeFrame := by
  have cut : ∀ p : ProfileEngine, p.drive = (s.pe.phase, s.pe.stepTimer, .hard) → p.Lawful true s.severeFrame := fun p hp => by
    simp only [ProfileEngine.drive, Prod.mk.injEq] at hp
    obtain ⟨hphase, htimer, hhalt⟩ := hp
    exact ⟨by rw [hphase]; exact hs.rests, by rw [hphase, htimer]; exact hs.timed, fun _ _ => hhalt⟩
  by_cases hc : s.pe.halt ≠ .hard ∧ s.severeFrame = true
  · obtain ⟨hne, hsevere⟩ := hc
    have hcut : s.cutDrive.pe.Lawful true s.severeFrame := cut _ (by rw [State.cutDrive_pe]; rfl)
    by_cases hstop : s.pe.phase ≠ .stopping ∨ s.pe.cause = none
    · rw [State.hardCheck_cuts hne hsevere hstop]
      exact hcut
    · simp only [not_or, not_not, Option.ne_none_iff_exists'] at hstop
      obtain ⟨hp, cause, hcause⟩ := hstop
      rw [State.hardCheck_ends hne hsevere hp hcause]
      exact EngineKept.profileEnd cause _ hcut
  · rw [State.hardCheck, if_neg hc]
    exact ⟨hs.rests, hs.timed, fun _ hv => by simpa [hv] using hc⟩

/-- A step in progress is suspended as PROFILE enters the halt set (R56). -/
theorem State.profileHalted_lawful {h : Bool} {s : State} (hs : s.pe.Lawful h false) : s.profileHalted.pe.Lawful true s.severeFrame := by
  have soft : ∀ t : State, t.cu.stack = s.cu.stack → t.pe.Lawful true false →
      ((t.setPe { t.pe with halt := .soft }).hardCheck).pe.Lawful true s.severeFrame := fun t hc ht => by
    have := State.hardCheck_lawful (s := t.setPe { t.pe with halt := .soft }) ⟨ht.rests, ht.timed, fun _ hv => nomatch hv⟩
    rwa [show (t.setPe { t.pe with halt := .soft }).severeFrame = s.severeFrame by simp [State.severeFrame, hc]] at this
  unfold State.profileHalted
  dsimp only
  split
  · refine soft _ ?_ ⟨fun _ => by simp, fun h => absurd rfl h, fun _ hv => nomatch hv⟩
    split <;> simp
  · next hp =>
    refine soft _ rfl ⟨fun _ => by simp, fun h => ?_, fun _ hv => nomatch hv⟩
    exact absurd (hs.timed h) (by simp [hp])
  all_goals
    next hp => exact soft s rfl ⟨fun _ => by simp [hp], hs.timed, fun _ hv => nomatch hv⟩

theorem EngineKept.profileReleased {v : Bool} (s : State) : EngineKept false v s s.profileReleased := by
  have free : ∀ hs : s.pe.Lawful false v, (s.setPe { s.pe with halt := .none }).pe.Lawful false v := fun hs =>
    ⟨fun h => (nomatch h), hs.timed, fun h => nomatch h⟩
  unfold State.profileReleased
  dsimp only
  split
  · next hp =>
    intro hs
    refine ⟨fun h => (nomatch h), fun ht => ?_, fun h => nomatch h⟩
    obtain ⟨-, htimer, -⟩ := ProfileEngine.drive_eq (State.setEnable_drive true (s.setPe { s.pe with halt := .none }))
    have hstepping := hs.timed fun h => ht (htimer.trans h)
    exact absurd (hp.symm.trans hstepping) Phase.noConfusion
  · exact fun hs => beginProfile _ (free hs)
  all_goals exact free

/-- The halts that follow an event leave the law, whatever the taking has done to the stack. -/
theorem driveLaw_applyHalts {was : StopSet} {s : State} (hs : s.pe.Lawful was.profile false) : DriveLaw (s.applyHalts was) := by
  have profile : (s.applyProfileHalt was).pe.Lawful s.halt.profile s.severeFrame := by
    unfold State.applyProfileHalt
    split
    · next hh => rw [hh]; exact State.profileHalted_lawful hs
    · next hw hh => rw [hh]; exact State.hardCheck_lawful (hw ▸ hs)
    · next hh => rw [hh]; exact EngineKept.profileReleased s ⟨fun h => (nomatch h), hs.timed, fun h => nomatch h⟩
    · next hh => rw [hh]; exact ⟨fun h => (nomatch h), hs.timed, fun h => nomatch h⟩
  have noise : ∀ t : State, (t.applyNoiseHalt was).pe.drive = t.pe.drive := fun t => by
    unfold State.applyNoiseHalt
    split
    · rw [State.syncStreams_frame t.noisePause |>.2.2.2.2.2.2.2.1]
      exact State.noisePause_drive t
    · rw [State.syncStreams_frame t.tryOpen |>.2.2.2.2.2.2.2.1]
      exact State.tryOpen_drive t
    · rfl
  have rest : (s.applyHalts was).pe = ((s.applyProfileHalt was).applyNoiseHalt was).pe := by simp [State.applyHalts]
  have hstack : (s.applyHalts was).cu.stack = s.cu.stack := by simp
  rw [driveLaw_iff, State.halt_congr hstack, show (s.applyHalts was).severeFrame = s.severeFrame by simp [State.severeFrame], rest]
  exact EngineKept.of_drive (noise _) profile

theorem driveLaw_checked {was : StopSet} {s : State} (first : List (Fin 20)) (hs : s.pe.Lawful was.profile false) :
    DriveLaw ((s.takingCheck first).applyHalts was) :=
  driveLaw_applyHalts (by rwa [show (s.takingCheck first).pe = s.pe by simp])

/-! ### Operations under which the halt set stands -/

/-- The stack stands, and the engine keeps its law under it. -/
structure DriveKept (s t : State) : Prop where
  stack : t.cu.stack = s.cu.stack
  engine : EngineKept s.halt.profile s.severeFrame s t

namespace DriveKept

variable {s t u : State}

theorem of_all (hc : t.cu.stack = s.cu.stack) (hk : ∀ h v, EngineKept h v s t) : DriveKept s t := ⟨hc, hk _ _⟩

theorem of_same (hc : t.cu.stack = s.cu.stack) (hp : t.pe = s.pe) : DriveKept s t := ⟨hc, .of_pe hp⟩

theorem refl (s : State) : DriveKept s s := of_same rfl rfl

theorem trans (h : DriveKept s t) (h' : DriveKept t u) : DriveKept s u := by
  refine ⟨h'.stack.trans h.stack, h.engine.trans ?_⟩
  have := h'.engine
  rwa [State.halt_congr h.stack, show t.severeFrame = s.severeFrame by simp [State.severeFrame, h.stack]] at this

theorem law (h : DriveKept s t) (hs : DriveLaw s) : DriveLaw t := by
  rw [driveLaw_iff] at hs ⊢
  rw [State.halt_congr h.stack, show t.severeFrame = s.severeFrame by simp [State.severeFrame, h.stack]]
  exact h.engine hs

theorem then_checked (h : DriveKept s t) (hs : DriveLaw s) : DriveLaw ((t.takingCheck []).applyHalts s.halt) :=
  driveLaw_checked [] (h.engine ((driveLaw_iff s).mp hs)).mild

theorem react (h : DriveKept s t) (hs : DriveLaw s) : DriveLaw (react s t) := by
  unfold Machine.react checkIfActivated
  split
  · exact h.then_checked hs
  · exact driveLaw_applyHalts (h.engine ((driveLaw_iff s).mp hs)).mild

theorem elapse (us : Nat) (s : State) : DriveKept s (s.elapse us) := of_all rfl fun _ _ => .elapse us s

theorem elapseMs (ms : Nat) (s : State) : DriveKept s (s.elapseMs ms) := elapse _ s

theorem elapseTo (ms : Nat) (s : State) : DriveKept s (s.elapseTo ms) := elapse _ s

theorem setAfe (a : FrontEnd) (s : State) : DriveKept s (s.setAfe a) := of_same rfl rfl

theorem absorb (n : Word32) (xs : List SlowSample) (s : State) : DriveKept s (s.absorb n xs) := of_all (by simp) fun _ _ => .absorb n xs s

theorem releaseSlow (d : Fin 8) (s : State) : DriveKept s (s.releaseSlow d) := of_same (by simp) (by simp)

theorem releaseLeak (d : Fin 8) (s : State) : DriveKept s (s.releaseLeak d) := of_same (by simp) (by simp)

theorem takeLeakRecord (n : Word32) (xs : List LeakSample) (s : State) : DriveKept s (s.takeLeakRecord n xs) :=
  of_same (by simp) (by simp)

theorem abandonOpen (s : State) : DriveKept s s.abandonOpen := of_same (by simp) (by simp)

theorem evaluateAll (s : State) : DriveKept s s.evaluateAll := of_same (by simp) (by simp)

theorem endSlot (st : SlotStream) (s : State) : DriveKept s (s.endSlot st) := by
  cases st with
  | slow =>
    show DriveKept s s.endSlow
    unfold State.endSlow
    dsimp only
    split
    · split
      · exact (elapseTo _ s).trans (setAfe _ _)
      · exact (((elapseTo _ s).trans (setAfe _ _)).trans (absorb _ _ _)).trans (releaseSlow _ _)
    · exact refl s
  | leak =>
    show DriveKept s s.endLeak
    unfold State.endLeak
    dsimp only
    split
    · split
      · exact ((elapseTo _ s).trans (setAfe _ _)).trans (evaluateAll _)
      · exact ((((elapseTo _ s).trans (setAfe _ _)).trans (takeLeakRecord _ _ _)).trans (releaseLeak _ _)).trans (evaluateAll _)
    · exact refl s

theorem boundarySlow (n : Nat) (s : State) : DriveKept s (s.boundarySlow n) := of_same (by simp) (by simp)

theorem boundaryLeak (n : Nat) (s : State) : DriveKept s (s.boundaryLeak n) := of_same (by simp) (by simp)

theorem startSlot (st : SlotStream) (s : State) : DriveKept s (s.startSlot st) := by
  cases st with
  | slow =>
    show DriveKept s s.startSlow
    unfold State.startSlow
    dsimp only
    split
    · exact ((elapseTo _ s).trans (setAfe _ _)).trans (boundarySlow _ _)
    · exact refl s
  | leak =>
    show DriveKept s s.startLeak
    unfold State.startLeak
    dsimp only
    split
    · exact ((elapseTo _ s).trans (setAfe _ _)).trans (boundaryLeak _ _)
    · exact refl s

theorem takeChannel (i : Fin 10) (x : Int) (s : State) : DriveKept s (s.takeChannel i x) := of_same rfl rfl

theorem storeSlow (s : State) : DriveKept s s.storeSlow := of_same (by simp) (by simp)

theorem judgeSlow (s : State) : DriveKept s s.judgeSlow := of_same (by simp) (by simp)

theorem takeSlow (x : SlowSample) (s : State) : DriveKept s (s.takeSlow x) :=
  ((((((((elapseTo _ s).trans (takeChannel 0 _ _)).trans (takeChannel 1 _ _)).trans (takeChannel 2 _ _)).trans (takeChannel 3 _ _)).trans
    (takeChannel 4 _ _)).trans (storeSlow _)).trans (setAfe _ _)).trans (judgeSlow _)

theorem takeLeak (x : LeakSample) (s : State) : DriveKept s (s.takeLeak x) := by
  have stored : ∀ q : State, DriveKept q (q.storeLeak) := fun q => of_same (by simp) (by simp)
  have sensed : ∀ q : State, DriveKept q q.sensed := fun q => by
    unfold State.sensed
    split <;> exact of_same (by simp) (by simp)
  have filled : ∀ q : State, DriveKept q q.checkFills := fun q => of_same (by simp) (by simp)
  have sensorsJudged : ∀ q : State, DriveKept q q.judgeSensors := fun q => of_same (by simp) (by simp)
  rw [State.takeLeak_eq]
  exact ((((((((((elapseTo _ s).trans (takeChannel 5 _ _)).trans (takeChannel 6 _ _)).trans (takeChannel 7 _ _)).trans
    (takeChannel 8 _ _)).trans (takeChannel 9 _ _)).trans (stored _)).trans (setAfe _ _)).trans (filled _)).trans
    (sensed _)).trans (sensorsJudged _)

theorem pulse (us : Nat) (forward : Bool) (x : AngleSample) (s : State) : DriveKept s (s.pulse us forward x) := by
  have stored : ∀ q : State, DriveKept q (q.storeAngle x) := fun q => of_same (by simp) (by simp)
  unfold State.pulse
  dsimp only
  split
  · exact ((elapse us s).trans (setAfe _ _)).trans (stored _)
  · exact (elapse us s).trans (setAfe _ _)

theorem index (us : Nat) (x : AngleSample) (s : State) : DriveKept s (s.index us x) := by
  have closed : ∀ q : State, DriveKept q q.closeVib.checkRunDone := fun q => of_same (by simp) (by simp)
  have bounded : ∀ q : State, DriveKept q (q.boundaryVib x) := fun q => of_same (by simp) (by simp)
  exact (((elapse us s).trans (closed _)).trans (setAfe _ _)).trans (bounded _)

theorem feedback (speed : Int) (f : Feedback) (s : State) :
    DriveKept s (((s.setAfe { s.afe with feedback := some f }).takeSpeed speed).judgeFeedback speed) := by
  have judged : ∀ q : State, DriveKept q (q.judgeFeedback speed) := fun q =>
    of_same (by simp [State.judgeFeedback]) (by simp [State.judgeFeedback])
  have speedTaken : ∀ q : State, DriveKept q (q.takeSpeed speed) := fun q => of_all (by simp) fun _ _ => .takeSpeed speed q
  exact ((setAfe _ s).trans (speedTaken _)).trans (judged _)

theorem updateSetpoint (s : State) : DriveKept s s.updateSetpoint := of_all (by simp) fun _ _ => .updateSetpoint s

theorem settle (s : State) : DriveKept s s.settle :=
  of_all (by simp [State.settle]) fun _ _ => .of_drive (State.tryOpen_drive _)

/-- The step timer runs in STEPPING alone, so its expiry moves no halted engine (R43, R47, R48). -/
theorem stepExpiry (s : State) : DriveKept s s.stepExpiry := by
  unfold State.stepExpiry
  split
  · exact refl s
  · next left hleft =>
    dsimp only
    split
    · exact (elapseMs left s).trans (of_all (by simp) fun _ _ => .failStep _)
    · refine ⟨by simp, fun hs => ?_⟩
      have stepping : (s.elapseMs left).pe.phase = .stepping := hs.timed (by simp [hleft])
      exact EngineKept.endCurrent stepping ((elapseMs left s).engine hs)

end DriveKept

/-! ### Every step -/

theorem driveLaw_event (e : Instr) {s : State} (hs : DriveLaw s) : DriveLaw (eventEffect e s) := by
  cases e with
  | startupScanEnd =>
    show DriveLaw s.endScan
    have given : ∀ q : State, DriveKept q q.giveVent := fun q => by
      unfold State.giveVent
      split <;> exact .of_same rfl rfl
    have configured : DriveKept s s.scanConfig := by
      unfold State.scanConfig
      split <;> exact .of_same (by simp) (by simp)
    by_cases hscan : s.rs.scanning = true
    · rw [State.endScan_scanning hscan]
      exact (given _).law (configured.then_checked hs)
    · rwa [State.endScan_idle (by simpa using hscan)]
  | lineSilenceExpiry =>
    show DriveLaw s.silenceExpiry
    unfold State.silenceExpiry
    split
    · next left _ => exact (DriveKept.trans (.elapseMs left s) (.of_same (by simp) (by simp))).react hs
    · exact hs
  | eraseComplete k => exact (DriveKept.of_same (by simp) (by simp) : DriveKept s (s.completeErase k)).law hs
  | closeComplete k =>
    show DriveLaw (s.completeClose k)
    unfold State.completeClose
    dsimp only
    split
    · split
      · exact DriveKept.then_checked (.of_same (by simp) (by simp)) hs
      · exact DriveKept.law (.of_same (by simp) (by simp)) hs
    · exact hs
  | arrive2Rise => exact (DriveKept.of_same (by simp) (by simp) : DriveKept s s.arrive).law hs
  | transferTimerExpiry =>
    show DriveLaw s.transferExpiry
    unfold State.transferExpiry
    split
    · exact hs
    · next left _ => exact (DriveKept.trans (.elapseMs left s) (.of_same (by simp) (by simp))).react hs
  | transferStart => exact (DriveKept.of_same (by simp) (by simp) : DriveKept s s.checkTransfer).law hs
  | leakStart => exact (DriveKept.of_same (by simp) (by simp) : DriveKept s s.decideLeak).law hs
  | enterRunDone => exact (DriveKept.of_same (by simp) (by simp) : DriveKept s s.checkRunDone).law hs
  | unitDone => exact (DriveKept.of_same (by simp) (by simp) : DriveKept s s.checkLeakEnd).law hs
  | setpointUpdate => exact (DriveKept.trans (.elapseTo _ s) (.updateSetpoint _)).law hs
  | driveFeedback speed ready fault => exact (DriveKept.feedback speed _ s).react hs
  | stepTimerExpiry => exact (DriveKept.stepExpiry s).law hs
  | windowSettleExpiry =>
    show DriveLaw s.settleExpiry
    unfold State.settleExpiry
    split
    · exact hs
    · exact (DriveKept.trans (.elapseMs _ s) (.settle _)).law hs
  | windowDrainClose => exact (DriveKept.of_same (by simp) (by simp) : DriveKept s s.drainClose.checkRunDone).law hs
  | encoderIndex us x => exact (DriveKept.index us x s).react hs
  | encoderPulse us forward x => exact (DriveKept.pulse us forward x s).law hs
  | revolutionTimeout =>
    show DriveLaw s.revolutionTimeout
    unfold State.revolutionTimeout
    split
    · exact (DriveKept.trans (.elapse _ s) (.abandonOpen _)).law hs
    · exact hs
  | analysisComplete => exact (DriveKept.of_same (by simp) (by simp) : DriveKept s s.completeAnalysis.checkRunDone).law hs
  | timeSlotStart st => exact (DriveKept.startSlot st s).react hs
  | timeSlotEnd st => exact (DriveKept.endSlot st s).law hs
  | planApply => exact (DriveKept.of_same (by simp) (by simp) : DriveKept s s.checkPlans).law hs
  | slowSample x => exact (DriveKept.takeSlow x s).react hs
  | leakSample x => exact (DriveKept.takeLeak x s).react hs
  | fillGrant => exact (DriveKept.of_same (by simp) (by simp) : DriveKept s s.checkGrant).law hs
  | fillTimeout c =>
    show DriveLaw (s.fillTimeout c)
    unfold State.fillTimeout
    split
    · exact hs
    · next left _ => exact (DriveKept.trans (.elapseMs left s) (.of_same (by simp) (by simp))).law hs
  | settleExpiry c =>
    show DriveLaw (s.settleEnd c)
    unfold State.settleEnd
    split
    · exact hs
    · next left _ => exact (DriveKept.trans (.elapseMs left s) (.of_same (by simp) (by simp))).law hs
  | measureTimerExpiry c =>
    show DriveLaw (s.measureEnd c)
    unfold State.measureEnd
    split
    · exact hs
    · next left _ => exact (DriveKept.trans (.elapseMs left s) (.of_same (by simp) (by simp))).law hs
  | attemptEvaluation c => exact (DriveKept.of_same (by simp) (by simp) : DriveKept s (s.evaluate c)).law hs
  | ventExpiry c =>
    show DriveLaw (s.ventExpiry c)
    unfold State.ventExpiry
    split
    · exact hs
    · next left _ => exact (DriveKept.trans (.elapseMs left s) (.of_same (by simp) (by simp))).law hs
  | resetVentEnd =>
    show DriveLaw s.resetVentEnd
    unfold State.resetVentEnd
    split
    · next stop _ => exact (DriveKept.trans (.elapseTo stop s) (.of_same (by simp) (by simp))).law hs
    · exact hs
  | conditionLineChange line b => exact DriveKept.react (.of_same (by simp) (by simp)) hs
  | keyChange b =>
    show DriveLaw (s.changeKey b)
    have keyed : ∀ m : Nat, DriveKept s (if s.anyWorking then (s.setCu { s.cu with mode := keyMode b, mask := m }).sourceInstant 8
        else s.setCu { s.cu with mode := keyMode b, mask := m }) := fun m => by
      split <;> exact .of_same (by simp) (by simp)
    unfold State.changeKey
    split
    · exact hs
    · cases b with
      | true => exact (keyed _).react hs
      | false => exact (keyed _).then_checked hs
  | conditionTake => exact (DriveKept.refl s).then_checked hs
  | _ => exact hs

theorem driveLaw_take (c : Command) {s : State} (hs : DriveLaw s) : DriveLaw (take c s).1 := by
  cases c with
  | startRun id =>
    have started : ∀ (q : State) (r : Recipe), DriveKept q (q.startProfile r) := fun q r => ⟨by simp, .startProfile r q⟩
    show DriveLaw (takeStartRun id s).1
    unfold takeStartRun
    split
    · exact hs
    · split
      · exact hs
      · split
        · exact (DriveKept.trans (.of_same (by simp) (by simp)) (started _ _)).law hs
        · exact hs
  | abortUnit id =>
    have aborted : ∀ q : State, DriveKept q q.abortProfile := fun q => .of_all (by simp) fun _ _ => .abortProfile q
    show DriveLaw (takeAbortUnit id s).1
    unfold takeAbortUnit State.abortByState
    split
    · exact hs
    · split
      · exact hs
      · split
        · exact hs
        · dsimp only
          split
          · exact DriveKept.law (.of_same (by simp [State.abortLoaded]) (by simp [State.abortLoaded])) hs
          · exact (DriveKept.trans (.of_same (by simp) (by simp)) (aborted _)).law hs
          all_goals exact DriveKept.law (.of_same (by simp) (by simp)) hs
  | advanceStep =>
    show DriveLaw (takeAdvanceStep s).1
    unfold takeAdvanceStep
    split
    · exact hs
    · split
      · next hp => exact (DriveKept.of_all (by simp) fun _ _ => .endCurrent hp).law hs
      · exact hs
  | condInject b =>
    show DriveLaw (withCondition b _ s).1
    unfold withCondition
    split
    · exact hs
    · dsimp only
      split
      · exact hs
      · exact DriveKept.then_checked (.of_same (by simp) (by simp)) hs
  | condConfig b sev vec =>
    show DriveLaw (withCondition b _ s).1
    unfold withCondition
    split
    · exact hs
    · dsimp only
      split
      · exact hs
      split
      · exact hs
      split
      · exact hs
      · split
        · exact DriveKept.law (.of_same (by simp) (by simp)) hs
        · exact DriveKept.then_checked (.of_same (by simp) (by simp)) hs
  | setMask level =>
    show DriveLaw (takeSetMask level s).1
    unfold takeSetMask
    dsimp only
    split
    · exact DriveKept.then_checked (.of_same rfl rfl) hs
    · exact DriveKept.law (.of_same rfl rfl) hs
  | resume =>
    show DriveLaw (takeResume s).1
    unfold takeResume
    split
    · exact hs
    · split
      · exact hs
      · exact driveLaw_checked _ ((driveLaw_iff s).mp hs).mild
  | _ => exact DriveKept.law (.of_same (by simp [Machine.take]) (by simp [Machine.take])) hs

/-- Every step keeps the law of the halted run stand (R56, R57). -/
theorem driveLaw_keptBySteps : KeptBySteps DriveLaw where
  setLp _ h := h
  setPending _ h := h
  elapse us h := (DriveKept.elapse us _).law h
  doReset _ := driveLaw_checked _ ⟨fun h => (nomatch h), fun h => absurd rfl h, fun h => nomatch h⟩
  take c h := driveLaw_take c h
  event e h := driveLaw_event e h

/-- Settles O60: each of the three laws is kept by every step from itself alone. -/
theorem everyStepKeepsTheStandsLaws : Obligations.EveryStepKeepsTheStandsLaws := fun _ _ ht =>
  ⟨fun hs => stationLaw_keptBySteps.step hs ht, fun hs => supplyLaw_keptBySteps.step hs ht, fun hs => driveLaw_keptBySteps.step hs ht⟩

end Sys2Proof.Machine
end

