-- ==== Sys2Proof/Proofs/Basics.lean ====
section
/-! The step itself, the values of a reset, and the power of an order (R20, R92). -/

namespace Sys2Proof.Machine

/-- Settles O1: a command in the queue is executed, and with none waiting `tick` lets a millisecond pass. -/
theorem stepTakesTheFrontCommand : Obligations.StepTakesTheFrontCommand := by
  refine ⟨fun c rest s h => by simp [step, h], fun s h => ⟨s.tick, by simp [step, h], ?_⟩⟩
  have one : (s.clockUs + 1000 * 1) / 1000 - s.clockUs / 1000 = 1 := by omega
  refine ⟨onlyChanges_elapse _ s, rfl, ?_, ?_, ?_, rfl, rfl, rfl, fun c => ?_⟩
  · simp only [State.tick, State.elapseMs, State.elapse, one]
    cases s.lp.silence <;> rfl
  · simp only [State.tick, State.elapseMs, State.elapse, one, Timer.after]
  · simp only [State.tick, State.elapseMs, State.elapse, one, Timer.after]
  · simp [State.tick, State.elapseMs, State.elapse, Timer.after, Chamber.after]

/-- Settles O2, item by item: each is read off the reset state. -/
theorem resetStateHoldsTheResetValues : Obligations.ResetStateHoldsTheResetValues := by
  have streams : ∀ st, State.reset.stream st = ⟨.idle, ⟨0, 0, 100⟩, none, 0, 0, 0, none⟩ := fun st => by cases st <;> rfl
  have caps : ∀ st, State.reset.cs.cap st = 0 := fun st => by cases st <;> rfl
  unfold Obligations.ResetStateHoldsTheResetValues
  refine ⟨rfl, rfl, by decide, rfl, rfl, rfl, by decide, rfl, rfl, rfl, rfl, rfl, rfl, rfl, rfl, rfl, rfl, rfl, rfl, rfl, rfl, rfl, rfl, rfl,
    rfl, rfl, rfl, rfl, rfl, streams, by decide, by decide, caps, by decide, by decide, rfl, rfl, rfl, by decide, rfl, by decide,
    rfl, rfl, rfl, rfl, by decide, rfl, rfl, rfl, rfl, rfl, rfl, rfl, rfl, rfl, rfl, rfl, rfl, rfl⟩

/-- Settles O56, law by law: the slots are BLANK, one frame is on the stack, no block is held, no unit is loaded, and nothing moves. -/
theorem lawsHoldAtReset : Obligations.LawsHoldAtReset := by
  refine ⟨?_, ?_, ?_, ?_, ?_, ?_⟩
  · unfold MemoryLaw
    decide
  · have severities : ∀ n, (State.reset.cond n).severity ≤ 15 := by decide
    have blank : ¬(State.reset.slot 0).state = .valid := by decide
    exact ⟨⟨rfl, by decide, rfl⟩, by decide, by decide, by decide, by decide, severities, fun h => absurd h blank⟩
  · exact (accountsLaw_iff _).mpr ⟨fun st => by cases st <;> exact Nat.le_refl 0, Nat.zero_le _⟩
  · intro i j r r' hi
    simp [State.reset, UnitTable.atReset] at hi
  · have rest : ∀ c, (State.reset.chamber c).phase = .idle := by decide
    exact (supplyLaw_iff _).mpr ⟨⟨fun c d hc => by simp [rest] at hc, fun _ c => by simp [rest]⟩, fun _ c => by rw [rest]; rfl⟩
  · exact ⟨fun _ => by decide, fun h => absurd rfl h, fun _ ⟨f, hf, hsev⟩ => by
      have : f.severity = 13 := by
        rw [show State.reset.cu.stack = [⟨1, 13, .full, 0, 0⟩] from rfl, List.mem_singleton] at hf
        rw [hf]
      omega⟩

/-! ## The power of an order (R92) -/

theorem correlate_eq_sum (tab : Nat → Int) (q n : Nat) (xs : List Int) :
    correlate tab q n xs = ((List.range xs.length).map fun i => xs.getD i 0 * tab (q * (n + i) % 128)).sum := by
  induction xs generalizing n with
  | nil => rfl
  | cons x xs ih =>
    rw [correlate, ih, List.length_cons, List.range_succ_eq_map, List.map_cons, List.sum_cons, List.map_map]
    have shifted : ∀ i, q * (n + 1 + i) % 128 = q * (n + (i + 1)) % 128 := fun i => by rw [Nat.add_assoc, Nat.add_comm 1 i]
    simp [Function.comp_def, shifted]

theorem cosTab_bounded (m : Nat) : -16384 ≤ cosTab m ∧ cosTab m ≤ 16384 := by
  have quarter : ∀ k, 0 ≤ cosQuarter.getD k 0 ∧ cosQuarter.getD k 0 ≤ 16384 := fun k => by
    have all : ∀ x ∈ cosQuarter, 0 ≤ x ∧ x ≤ 16384 := by decide
    rw [List.getD_eq_getElem?_getD]
    cases hk : cosQuarter[k]? with
    | none => decide
    | some x => exact all x (List.mem_of_getElem? hk)
  have := quarter m
  have := quarter (64 - m)
  have := quarter (m - 64)
  have := quarter (128 - m)
  unfold cosTab
  split
  · omega
  split
  · omega
  split <;> omega

/-- A sum of 16-bit samples against a table of R92 stays below 2^29 for each sample. -/
theorem correlate_bounded {tab : Nat → Int} (htab : ∀ m, -16384 ≤ tab m ∧ tab m ≤ 16384) (q n : Nat) {xs : List Int}
    (hx : ∀ x ∈ xs, -32768 ≤ x ∧ x ≤ 32767) :
    |correlate tab q n xs| ≤ xs.length * 2 ^ 29 := by
  induction xs generalizing n with
  | nil => simp [correlate]
  | cons x xs ih =>
    have hrest := ih (n + 1) fun y hy => hx y (List.mem_cons_of_mem x hy)
    have hhead : |x * tab (q * n % 128)| ≤ 2 ^ 29 := by
      have h1 : |x| ≤ 32768 := abs_le.mpr (by have := hx x List.mem_cons_self; omega)
      have h2 : |tab (q * n % 128)| ≤ 16384 := abs_le.mpr (htab _)
      rw [abs_mul]
      exact (mul_le_mul h1 h2 (abs_nonneg _) (by norm_num)).trans (by norm_num)
    calc |correlate tab q n (x :: xs)| ≤ |x * tab (q * n % 128)| + |correlate tab q (n + 1) xs| := abs_add_le _ _
      _ ≤ 2 ^ 29 + xs.length * 2 ^ 29 := add_le_add hhead hrest
      _ = (x :: xs).length * 2 ^ 29 := by push_cast [List.length_cons]; ring

/-- Settles O55: the tables are near the cosine and the sine, the recursion is the sum of R92, and each sum is at most 2^36. -/
theorem orderPowerIsAtMostTwoToThe41 : Obligations.OrderPowerIsAtMostTwoToThe41 := by
  refine ⟨fun m hm => ⟨cosTab_near m hm, sinTab_near m hm⟩, by decide, by decide, fun q xs => ?_, fun q xs hlen hx => ?_⟩
  · have hpos := add_nonneg (mul_self_nonneg (correlate cosTab q 0 xs)) (mul_self_nonneg (correlate sinTab q 0 xs))
    have hcos := correlate_eq_sum cosTab q 0 xs
    have hsin := correlate_eq_sum sinTab q 0 xs
    simp only [Nat.zero_add] at hcos hsin
    dsimp only
    rw [← hcos, ← hsin, orderPower, Int.toNat_of_nonneg (Int.ediv_nonneg hpos (by norm_num))]
    norm_num
  · have square : ∀ {tab : Nat → Int}, (∀ m, -16384 ≤ tab m ∧ tab m ≤ 16384) →
        correlate tab q 0 xs * correlate tab q 0 xs ≤ 2 ^ 72 := fun {tab} htab => by
      have hsum : |correlate tab q 0 xs| ≤ 2 ^ 36 :=
        (correlate_bounded htab q 0 hx).trans (by have : (xs.length : Int) ≤ 128 := by exact_mod_cast hlen
                                                  omega)
      calc correlate tab q 0 xs * correlate tab q 0 xs = |correlate tab q 0 xs| * |correlate tab q 0 xs| := (abs_mul_abs_self _).symm
        _ ≤ 2 ^ 36 * 2 ^ 36 := mul_le_mul hsum hsum (abs_nonneg _) (by norm_num)
        _ = 2 ^ 72 := by norm_num
    have hcos := square cosTab_bounded
    have hsin := square fun m => cosTab_bounded ((m + 96) % 128)
    rw [orderPower, Int.toNat_le]
    exact (Int.ediv_le_ediv (by norm_num) (add_le_add hcos hsin)).trans (by norm_num)

end Sys2Proof.Machine
end

