-- ==== Sys2Proof/Proofs/Resets.lean ====
section
/-! What a reset does: every block is cleared, RESET_OCCURRED is taken, ESTOP after it where its line is asserted, and the halt that they
bring finds every block at rest (R20, R40, R63, R125, R144, R145). -/

namespace Sys2Proof.Machine

/-! ## The conditions as the reset judges them (R127, R144, R145) -/

/-- The cell with its blocks cleared, the lines judged and RESET_OCCURRED latched. -/
def State.resetJudged (s : State) : State := s.cleared.judgeLines.sourceInstant 1

/-- A condition record right after a reset under these lines. -/
def resetCondition (lines : Lines) (n : Fin 20) : Condition :=
  let latch := decide (n = 1) || (decide (n = 0) && lines.estop)
  ⟨(conditionTable[n]).severity, (conditionTable[n]).vector, lineAsserts lines n, latch, false,
    if latch || lineAsserts lines n then some 0 else none⟩

theorem State.cond_cleared (s : State) (n : Fin 20) : s.cleared.cond n = .atReset conditionTable[n] := by
  simp [State.cond, State.cleared]

/-- The judgement of a line after the reset (R127). -/
theorem State.cond_setSource_atReset {n : Fin 20} {b : Bool} {s : State} (hs : s.cond n = .atReset conditionTable[n])
    (h0 : s.now = 0) : (s.setSource n b).cond n =
      ⟨(conditionTable[n]).severity, (conditionTable[n]).vector, b, b && decide (conditionKind n = .latched), false,
        if b then some 0 else none⟩ := by
  rw [State.cond_setSource_judged, hs]
  have inactive : s.active n = false := by
    rw [State.active, hs]
    cases conditionKind n <;> rfl
  cases b <;> simp [judged, Condition.atReset, inactive, h0]

/-- The four line conditions as the lines stand, the others as the table has them. -/
theorem State.cond_judgeLines_cleared (s : State) (n : Fin 20) : s.cleared.judgeLines.cond n =
    ⟨(conditionTable[n]).severity, (conditionTable[n]).vector, lineAsserts s.lines n, decide (n = 0) && s.lines.estop, false,
      if lineAsserts s.lines n then some 0 else none⟩ := by
  have judged : ∀ {q : State} {m : Fin 20} (b : Bool), q.cond m = s.cleared.cond m → q.now = 0 → (q.setSource m b).cond m =
      ⟨(conditionTable[m]).severity, (conditionTable[m]).vector, b, b && decide (conditionKind m = .latched), false,
        if b then some 0 else none⟩ := fun b hq h0 => State.cond_setSource_atReset (by rw [hq, State.cond_cleared]) h0
  have now0 : s.cleared.now = 0 := by simp [State.now, State.uptime, State.cleared]
  rw [State.judgeLines]
  by_cases h0 : n = 0
  · subst h0
    rw [State.cond_setSource_ne (by decide), State.cond_setSource_ne (by decide), State.cond_setSource_ne (by decide),
      judged _ rfl now0]
    simp [lineAsserts, conditionKind]
  by_cases h6 : n = 6
  · subst h6
    rw [State.cond_setSource_ne (by decide), State.cond_setSource_ne (by decide), judged _ (by simp) (by simp [State.now, State.uptime, State.cleared])]
    simp [lineAsserts, conditionKind]
  by_cases h7 : n = 7
  · subst h7
    rw [State.cond_setSource_ne (by decide), judged _ (by simp) (by simp [State.now, State.uptime, State.cleared])]
    simp [lineAsserts, conditionKind]
  by_cases h12 : n = 12
  · subst h12
    rw [judged _ (by simp) (by simp [State.now, State.uptime, State.cleared])]
    simp [lineAsserts, conditionKind]
  · rw [State.cond_setSource_ne h12, State.cond_setSource_ne h7, State.cond_setSource_ne h6, State.cond_setSource_ne h0,
      State.cond_cleared]
    simp [lineAsserts, h0, h6, h7, h12, Condition.atReset]

theorem State.cond_resetJudged (s : State) (n : Fin 20) : s.resetJudged.cond n = resetCondition s.lines n := by
  by_cases h1 : n = 1
  · subst h1
    rw [State.resetJudged, State.cond_sourceInstant (by decide), State.cond_judgeLines_cleared]
    simp [resetCondition, lineAsserts, State.now, State.uptime, State.cleared]
  · rw [State.resetJudged, State.cond_sourceInstant_ne h1, State.cond_judgeLines_cleared]
    by_cases h0 : n = 0
    · subst h0
      simp [resetCondition, lineAsserts]
    · simp [resetCondition, h0, h1]

/-! ## The takings (R133, R145) -/

/-- The cell with RESET_OCCURRED on the stack. -/
def State.resetTaken (s : State) : State := s.resetJudged.take 1

theorem State.cond_resetTaken (s : State) (n : Fin 20) : s.resetTaken.cond n = resetCondition s.lines n := by
  rw [State.resetTaken, State.cond_take, State.cond_resetJudged]

theorem State.resetTaken_cu (s : State) : s.resetTaken.cu.stack = [⟨1, 13, .full, 0, 0⟩] ∧ s.resetTaken.cu.rl = 13 ∧
    s.resetTaken.cu.mask = 0 ∧ s.resetTaken.cu.mode = s.cu.mode := by
  simp [State.resetTaken, State.cond_resetJudged, resetCondition]
  simp [State.resetJudged, State.cleared, State.now, State.uptime, conditionTable]

theorem conditionTable_low : ∀ n : Fin 20, n = 0 ∨ n = 2 ∨ n = 3 ∨ (conditionTable[n]).severity ≤ 13 := by decide

/-- Above the level of RESET_OCCURRED only ESTOP and LINE_SILENT and OVERSPEED stand, and of these a line asserts ESTOP alone. -/
theorem State.resetTaken_qualifies (s : State) (n : Fin 20) : s.resetTaken.qualifies n = (decide (n = 0) && s.lines.estop) := by
  obtain ⟨hstack, hrl, hmask, -⟩ := s.resetTaken_cu
  by_cases h0 : n = 0
  · subst h0
    simp [State.qualifies, State.active, State.onStack, hstack, hrl, hmask, State.cond_resetTaken, resetCondition, conditionKind,
      conditionTable, Condition.active]
  · rcases (conditionTable_low n).resolve_left h0 with h | h | h
    · subst h
      simp [State.qualifies, State.active, State.cond_resetTaken, resetCondition, conditionKind, Condition.active]
    · subst h
      simp [State.qualifies, State.active, State.cond_resetTaken, resetCondition, conditionKind, Condition.active]
    · have hnot : decide (s.resetTaken.cu.rl < (s.resetTaken.cond n).severity) = false := by
        simpa [hrl, State.cond_resetTaken, resetCondition] using h
      simp [State.qualifies, hnot, h0]

/-- The cell with every taking of the reset made and announced. -/
def State.resetChecked (s : State) : State := s.resetTaken.takingCheck [1]

theorem State.doReset_eq (s : State) : s.doReset = s.resetChecked.applyHalts .empty := rfl

theorem State.resetChecked_of_calm {s : State} (h : s.lines.estop = false) : s.resetChecked = s.resetTaken.condNotice 1 :=
  State.takingCheck_none (fun n => by rw [State.resetTaken_qualifies, h, Bool.and_false]) _

theorem State.resetChecked_of_estop {s : State} (h : s.lines.estop = true) :
    s.resetChecked = ((s.resetTaken.take 0).condNotice 1).condNotice 0 := by
  refine State.takingCheck_one ⟨by rw [State.resetTaken_qualifies, h]; rfl, fun m hm => .inr ?_⟩ _
  rw [State.resetTaken_qualifies, h, Bool.and_true, decide_eq_true_eq] at hm
  exact ⟨by rw [hm], hm ▸ le_rfl⟩

/-- The stack after the takings of a reset (R145). -/
theorem State.resetChecked_stack (s : State) :
    s.resetChecked.cu.stack = (if s.lines.estop then [⟨0, 15, .full, 13, 0⟩] else []) ++ [⟨1, 13, .full, 0, 0⟩] ∧
    s.resetChecked.cu.rl = (if s.lines.estop then 15 else 13) ∧ s.resetChecked.cu.mask = 0 ∧ s.resetChecked.cu.mode = s.cu.mode := by
  obtain ⟨hstack, hrl, hmask, hmode⟩ := s.resetTaken_cu
  cases h : s.lines.estop with
  | false =>
    rw [State.resetChecked_of_calm h]
    simp [hstack, hrl, hmask, hmode]
  | true =>
    have hnow : s.resetTaken.now = 0 := by simp [State.now, State.uptime, State.resetTaken, State.resetJudged, State.cleared]
    rw [State.resetChecked_of_estop h]
    simp [hstack, hrl, hmask, hmode, hnow, State.cond_resetTaken, resetCondition, conditionTable]

theorem State.resetChecked_cond (s : State) (n : Fin 20) : s.resetChecked.cond n = resetCondition s.lines n := by
  rw [← State.cond_resetTaken]
  simp [State.resetChecked]

/-- The notices of the takings, RESET_OCCURRED's first (R143). -/
theorem State.resetChecked_notices (s : State) : ∃ x y,
    s.resetChecked.lp = { LinePort.atReset with
      notices := ⟨.condition 1, x⟩ :: if s.lines.estop then [⟨.condition 0, y⟩] else [] } := by
  have base : s.resetTaken.lp = .atReset := by simp [State.resetTaken, State.resetJudged, State.cleared]
  cases h : s.lines.estop with
  | false =>
    rw [State.resetChecked_of_calm h]
    exact ⟨_, .condition 0 none 0 0 .empty 0, by simp [State.condNotice, State.raise, base, LinePort.atReset, putNotice]; rfl⟩
  | true =>
    rw [State.resetChecked_of_estop h]
    exact ⟨_, _, by simp [State.condNotice, State.raise, base, LinePort.atReset, putNotice]; exact ⟨rfl, rfl⟩⟩

/-- The other blocks right after the takings of a reset. -/
theorem State.resetChecked_blocks (s : State) : s.resetChecked.ut = .atReset ∧ s.resetChecked.pe = .atReset ∧
    s.resetChecked.afe = .atReset ∧ s.resetChecked.cs = .atReset ∧ s.resetChecked.oa = .atReset ∧ s.resetChecked.lkc = .atReset ∧
    s.resetChecked.reports = [] ∧ s.resetChecked.clockUs = 0 ∧ s.resetChecked.rs = s.cleared.rs := by
  have interrupted : ∀ n (q : State), q.ut = .atReset → (q.take n).ut = .atReset := fun n q hq => by
    simp only [State.take, State.interruptUnits, State.setUt_ut, State.setCu_ut, hq, UnitTable.atReset]
    congr
  have hut : s.resetTaken.ut = .atReset := interrupted 1 _ (by simp [State.resetJudged, State.cleared])
  refine ⟨?_, ?_⟩
  · cases h : s.lines.estop with
    | false => rw [State.resetChecked_of_calm h]; simpa using hut
    | true => rw [State.resetChecked_of_estop h]; simpa using interrupted 0 _ hut
  · simp [State.resetChecked, State.resetTaken, State.resetJudged, State.cleared]

theorem UnitTable.find_atReset (p : UnitState → Bool) : UnitTable.find p .atReset = none :=
  List.find?_eq_none.mpr fun i _ => by simp [UnitTable.atReset]

/-! ## The halt that the takings bring (R56, R145) -/

/-- The halt of a cell at rest turns the engine's halt style and nothing else (R56, R57). -/
theorem State.applyHalts_atReset {s : State} (hut : s.ut = .atReset) (hpe : s.pe = .atReset) (hcs : s.cs = .atReset)
    (hoa : s.oa = .atReset) (hlkc : s.lkc = .atReset) (hh : s.halt = .full) :
    s.applyHalts .empty = s.setPe { ProfileEngine.atReset with halt := if s.severeFrame then .hard else .soft } := by
  have disabled : ∀ q : State, q.pe.enable = false → q.setEnable false = q := fun q hq => by simp [State.setEnable, hq]
  obtain ⟨q, hq⟩ : ∃ q, q = s.setPe { ProfileEngine.atReset with halt := if s.severeFrame then .hard else .soft } := ⟨_, rfl⟩
  have profile : s.applyProfileHalt .empty = q := by
    have soft : s.profileHalted = (s.setPe { s.pe with halt := .soft }).hardCheck := by
      simp [State.profileHalted, hpe, ProfileEngine.atReset]
    have hprofile : s.applyProfileHalt .empty = s.profileHalted := by simp [State.applyProfileHalt, hh, StopSet.empty, StopSet.full]
    rw [hprofile, soft, hq, hpe]
    cases hs : s.severeFrame with
    | false => exact State.hardCheck_of_mild (by simpa [State.severeFrame] using hs)
    | true =>
      rw [State.hardCheck_cuts (by simp) (by simpa [State.severeFrame] using hs) (.inl (by simp [ProfileEngine.atReset])), State.cutDrive,
        disabled _ rfl]
      rfl
  have hqh : q.halt = .full := by rw [hq]; exact hh
  have noise : q.applyNoiseHalt .empty = q := by
    have idle : ∀ st, q.syncStream st = q := fun st => by
      have unwanted : q.wanted st = false := by
        rw [hq]
        cases st <;> simp [State.wanted, State.anyUnit, hut, UnitTable.find_atReset, hoa, OrderAnalyzer.atReset, OrderAnalyzer.openWindow]
      have state : (q.stream st).state = .idle := by
        rw [hq]
        cases st <;> simp [State.stream, CaptureStore.stream, hcs, CaptureStore.atReset, Stream.atReset]
      simp [State.syncStream, unwanted, state]
    have hnoise : q.applyNoiseHalt .empty = q.noisePause.syncStreams := by simp [State.applyNoiseHalt, hqh, StopSet.empty, StopSet.full]
    rw [hnoise, State.noisePause_of_not_sent (by rw [hq]; rfl), State.syncStreams, idle, idle, idle]
  have leak : q.applyLeakHalt .empty = q := by
    have rest : ∀ c, (q.chamber c).phase.attempting = false := fun c => by
      rw [hq]
      simp [State.chamber, hlkc, LeakController.atReset, Chamber.atRest, ChamberPhase.attempting]
    have hleak : q.applyLeakHalt .empty = q.haltChambers := by simp [State.applyLeakHalt, hqh, StopSet.empty, StopSet.full]
    rw [hleak, State.haltChambers]
    generalize List.finRange 4 = cs
    induction cs with
    | nil => rfl
    | cons c cs ih => rw [List.foldl_cons, if_neg (by simp [rest]), ih]
  have transfer : q.applyTransferHalt .empty = q := by
    have none : q.anyTransfer = false := by
      rw [State.anyTransfer, hq, State.setPe_ut, hut, UnitTable.find_atReset]
      rfl
    simp [State.applyTransferHalt, hqh, StopSet.empty, StopSet.full, none]
  rw [State.applyHalts, profile, noise, leak, transfer, hq]

theorem State.doReset_rest (s : State) : s.doReset = s.resetChecked.setPe
    { ProfileEngine.atReset with halt := if s.lines.estop then .hard else .soft } := by
  obtain ⟨hut, hpe, -, hcs, hoa, hlkc, -⟩ := s.resetChecked_blocks
  obtain ⟨hstack, -⟩ := s.resetChecked_stack
  have hhalt : s.resetChecked.halt = .full := by
    rw [State.halt, hstack]
    cases s.lines.estop <;> rfl
  have hsevere : s.resetChecked.severeFrame = s.lines.estop := by
    rw [State.severeFrame, hstack]
    cases s.lines.estop <;> rfl
  rw [State.doReset_eq, State.applyHalts_atReset hut hpe hcs hoa hlkc hhalt, hsevere]

/-- Settles O3: both rows are the reset, whose state is known block by block. -/
theorem powerOnAndResetLineResetEveryBlock : Obligations.PowerOnAndResetLineResetEveryBlock := by
  intro s c hc
  have hexec : exec c s = .next (arbitrate s.doReset) := by rcases hc with rfl | rfl <;> rfl
  obtain ⟨hut, -, hafe, hcs, hoa, hlkc, hreports, hclock, hrs⟩ := s.resetChecked_blocks
  obtain ⟨hstack, hrl, hmask, hmode⟩ := s.resetChecked_stack
  obtain ⟨x, y, hlp⟩ := s.resetChecked_notices
  have hsent : arbitrate s.doReset = s.doReset.setLp { s.doReset.lp with
      sending := some (.notice ⟨.condition 1, x⟩), notices := if s.lines.estop then [⟨.condition 0, y⟩] else [] } := by
    simp [arbitrate, State.doReset_rest, hlp, LinePort.atReset]
  refine ⟨_, hexec, ⟨by simp, fun b hb => ?_⟩, ?_⟩
  · cases b <;> simp [Part.same] at hb ⊢
  · have clock : (arbitrate s.doReset).clockUs = s.resetChecked.clockUs := by simp [State.doReset_rest]
    have blocks : (arbitrate s.doReset).ut = s.resetChecked.ut ∧ (arbitrate s.doReset).rs = s.resetChecked.rs ∧
        (arbitrate s.doReset).afe = s.resetChecked.afe ∧ (arbitrate s.doReset).cs = s.resetChecked.cs ∧
        (arbitrate s.doReset).oa = s.resetChecked.oa ∧ (arbitrate s.doReset).lkc = s.resetChecked.lkc ∧
        (arbitrate s.doReset).cu = s.resetChecked.cu ∧ (arbitrate s.doReset).reports = s.resetChecked.reports := by
      simp [State.doReset_rest]
    have engine : (arbitrate s.doReset).pe = { ProfileEngine.atReset with halt := if s.lines.estop then .hard else .soft } := by
      simp [State.doReset_rest]
    have port : (arbitrate s.doReset).lp = { LinePort.atReset with
        sending := some (.notice ⟨.condition 1, x⟩), notices := if s.lines.estop then [⟨.condition 0, y⟩] else [] } := by
      rw [hsent, State.setLp_lp, State.doReset_rest, State.setPe_lp, hlp]
    obtain ⟨but, brs, bafe, bcs, boa, blkc, bcu, breports⟩ := blocks
    rw [clock, but, brs, bafe, bcs, boa, blkc, bcu, breports, engine, port, hut, hafe, hcs, hoa, hlkc, hreports, hclock, hrs]
    refine ⟨rfl, rfl, rfl, rfl, rfl, rfl, rfl, rfl, rfl, rfl, rfl, fun k => ?_, hmode, hmask, hrl, hstack, fun n => ?_, rfl, rfl, rfl, rfl, rfl,
      rfl, rfl, rfl, ⟨x, rfl⟩, ?_⟩
    · simp [State.cleared]
    · rw [show (arbitrate s.doReset).cond n = s.resetChecked.cond n by simp only [State.cond, bcu]]
      exact s.resetChecked_cond n
    · cases s.lines.estop <;> rfl

end Sys2Proof.Machine
end

