-- ==== Sys2Proof/Proofs/HostLine.lean ====
section
/-! The host line: how the receiver takes the bytes of a frame, what becomes of a frame that is broken, and of one that waits, is lost or is
refused (R157 to R160, R167). -/

namespace Sys2Proof.Machine

/-! ## The receiver (R157, R158) -/

theorem State.takeBytes_append (xs ys : List Byte) (s : State) : s.takeBytes (xs ++ ys) = (s.takeBytes xs).takeBytes ys :=
  List.foldl_append

theorem State.takeBytes_cons (x : Byte) (xs : List Byte) (s : State) : s.takeBytes (x :: xs) = (s.takeByte x).takeBytes xs := rfl

theorem State.setReceiver_setReceiver (r r' : Receiver) (s : State) : (s.setReceiver r).setReceiver r' = s.setReceiver r' := rfl

theorem State.setReceiver_self {r : Receiver} {s : State} (h : s.lp.receiver = r) : s.setReceiver r = s := by
  rw [State.setReceiver, ← h, State.setLp_self]

/-- In HUNT every byte but the start byte is noise (R157). -/
theorem State.takeBytes_noise {noise : List Byte} {s : State} (hn : startByte ∉ noise) (hr : s.lp.receiver = .hunt) :
    s.takeBytes noise = s := by
  induction noise with
  | nil => rfl
  | cons b bs ih =>
    obtain ⟨hb, hbs⟩ := not_or.mp (fun h => hn (List.mem_cons.mpr h))
    have : s.takeByte b = s := by simp [State.takeByte, hr, Ne.symm hb]
    rw [State.takeBytes_cons, this, ih hbs]

/-- The header of a frame is taken (R157). -/
theorem State.takeBytes_header {kind tag lo hi : Byte} {s : State} (hr : s.lp.receiver = .hunt) :
    s.takeBytes [startByte, kind, tag, lo, hi] = s.takeHeader kind tag lo hi := by
  have start : s.takeByte startByte = s.setReceiver (.header []) := by simp [State.takeByte, hr]
  have kindTaken : (s.setReceiver (.header [])).takeByte kind = s.setReceiver (.header [kind]) := by
    simp [State.takeByte, State.setReceiver]
  have tagTaken : (s.setReceiver (.header [kind])).takeByte tag = s.setReceiver (.header [kind, tag]) := by
    simp [State.takeByte, State.setReceiver]
  have loTaken : (s.setReceiver (.header [kind, tag])).takeByte lo = s.setReceiver (.header [kind, tag, lo]) := by
    simp [State.takeByte, State.setReceiver]
  have hiTaken : (s.setReceiver (.header [kind, tag, lo])).takeByte hi =
      (s.setReceiver (.header [kind, tag, lo])).takeHeader kind tag lo hi := by
    simp [State.takeByte, State.setReceiver]
  have fresh : (s.setReceiver (.header [kind, tag, lo])).takeHeader kind tag lo hi = s.takeHeader kind tag lo hi := by
    simp [State.takeHeader, State.setReceiver_setReceiver]
  rw [State.takeBytes_cons, start, State.takeBytes_cons, kindTaken, State.takeBytes_cons, tagTaken, State.takeBytes_cons, loTaken,
    State.takeBytes_cons, hiTaken, fresh]
  rfl

/-- The body of a frame is taken byte by byte (R157). -/
theorem State.takeBytes_body {kind tag : Byte} {n : Nat} (rest got : List Byte) (s : State) (hrest : rest ≠ []) (hn : got.length + rest.length = n) :
    (s.setReceiver (.body kind tag n got)).takeBytes rest = s.setReceiver (.check kind tag (got ++ rest) none) := by
  induction rest generalizing got with
  | nil => exact absurd rfl hrest
  | cons b rest ih =>
    rw [State.takeBytes_cons]
    cases rest with
    | nil =>
      have last : (s.setReceiver (.body kind tag n got)).takeByte b = s.setReceiver (.check kind tag (got ++ [b]) none) := by
        simp at hn
        simp [State.takeByte, State.setReceiver, hn]
      rw [last]
      rfl
    | cons c rest =>
      have more : (s.setReceiver (.body kind tag n got)).takeByte b = s.setReceiver (.body kind tag n (got ++ [b])) := by
        simp only [List.length_cons] at hn
        simp [State.takeByte, State.setReceiver, show ¬n ≤ got.length + 1 by omega]
      rw [more, ih (got ++ [b]) (List.cons_ne_nil c rest) (by simp at hn ⊢; omega)]
      simp

/-- What a frame's core leaves in the receiver: its check is expected (R157). -/
theorem State.takeBytes_core {f : Frame} {s : State} (hr : s.lp.receiver = .hunt) (hb : f.body.length ≤ 1024) :
    s.takeBytes (startByte :: f.core) = s.setReceiver (.check f.kind f.tag f.body none) := by
  have length : leNat [BitVec.ofNat 8 f.body.length, BitVec.ofNat 8 (f.body.length / 256)] = f.body.length := by
    have := leNat_leBytes 2 f.body.length
    rw [leBytes_two, Nat.mod_eq_of_lt (by omega)] at this
    exact this
  have hsplit : startByte :: f.core = [startByte, f.kind, f.tag, BitVec.ofNat 8 f.body.length, BitVec.ofNat 8 (f.body.length / 256)] ++ f.body := rfl
  rw [hsplit, State.takeBytes_append, State.takeBytes_header hr, State.takeHeader]
  simp only [length, if_neg (show ¬1024 < f.body.length by omega)]
  cases hbody : f.body with
  | nil => rfl
  | cons b bs =>
    rw [if_neg (by simp), ← hbody]
    exact State.takeBytes_body f.body [] s (by simp [hbody]) (by simp)

/-- A frame with two check bytes is received as one (R158). -/
theorem State.takeBytes_checked {f : Frame} {a b : Byte} {s : State} (hr : s.lp.receiver = .hunt) (hb : f.body.length ≤ 1024) :
    s.takeBytes (startByte :: (f.core ++ [a, b])) = if f.checkBytes = [a, b] then s.passFrame f else s.badFrame := by
  have first : (s.setReceiver (.check f.kind f.tag f.body none)).takeByte a = s.setReceiver (.check f.kind f.tag f.body (some a)) := by
    simp [State.takeByte, State.setReceiver]
  have second : (s.setReceiver (.check f.kind f.tag f.body (some a))).takeByte b =
      (s.setReceiver (.check f.kind f.tag f.body (some a))).checkFrame f a b := by
    simp [State.takeByte, State.setReceiver]
  have hunting : (s.setReceiver (.check f.kind f.tag f.body (some a))).setReceiver .hunt = s := by
    rw [State.setReceiver_setReceiver, State.setReceiver_self hr]
  rw [← List.cons_append, State.takeBytes_append, State.takeBytes_core hr hb, State.takeBytes_cons, first, State.takeBytes_cons, second,
    State.checkFrame, hunting]
  rfl

/-- The bytes of a whole frame are its arrival (log 1). -/
theorem State.takeBytes_wire {f : Frame} {s : State} (hr : s.lp.receiver = .hunt) (hb : f.body.length ≤ 1024) :
    s.takeBytes f.wire = s.arriveFrame f := by
  rw [State.arriveFrame, if_neg (by omega)]
  exact (State.takeBytes_checked hr hb).trans (if_pos rfl)

/-- Settles O5: noise leaves the receiver in HUNT, and the frame's bytes are the arrival that its row is. -/
theorem receivedFrameIsItsCommand : Obligations.ReceivedFrameIsItsCommand := by
  intro c f noise s hc hw hn hr
  have hb : f.body.length ≤ 1024 := by
    rcases commandFrame_statement c with ⟨h, -⟩ | ⟨f', hf, hs⟩
    · rw [h] at hc
      cases hc
    · rw [hf] at hc
      cases hc
      exact (hs hw).2.1
  refine ⟨_, ?_, exec_of_frame hc s⟩
  show finish (s.takeBytes (noise ++ f.wire)) = _
  rw [State.takeBytes_append, State.takeBytes_noise hn hr, State.takeBytes_wire hr hb]
  rfl

/-! ## Frames that are discarded (R158, R167) -/

theorem exec_frameReceived (bytes : List Byte) (s : State) : exec (.frameReceived bytes) s = .next (arbitrate (s.takeBytes bytes)) := rfl

/-- A change of the Line Port and the arbiter's choice after it touch the Line Port alone. -/
theorem onlyChanges_line (x : LinePort) (s : State) : OnlyChanges [.lp] s (arbitrate (s.setLp x)) :=
  ⟨by simp, fun b hb => by cases b <;> simp [Part.same] at hb ⊢⟩

/-- A discarded frame is counted (R158). -/
theorem State.badFrame_counted (s : State) : OnlyChanges [.lp] s (arbitrate s.badFrame) ∧
    (arbitrate s.badFrame).lp = { (arbitrate s).lp with badFrames := count16 s.lp.badFrames } := by
  refine ⟨onlyChanges_line _ s, ?_⟩
  have h := arbitrate_rest s s.lp.receiver s.lp.head s.lp.second (count16 s.lp.badFrames) s.lp.overruns s.lp.silence s.lp.restartDue
  have rest := arbitrate_rest s s.lp.receiver s.lp.head s.lp.second s.lp.badFrames s.lp.overruns s.lp.silence s.lp.restartDue
  rw [State.setLp_self] at rest
  rw [show s.badFrame = s.setLp { s.lp with badFrames := count16 s.lp.badFrames } from rfl, h, rest]

/-- A discarded frame that has passed its check restarts the line silence timer (R167). -/
theorem State.replyKind_counted (s : State) : OnlyChanges [.lp] s (arbitrate s.restartSilence.badFrame) ∧
    (arbitrate s.restartSilence.badFrame).lp =
      { (arbitrate s).lp with badFrames := count16 s.lp.badFrames, silence := s.silenceAfterFrame } := by
  have h := arbitrate_rest s s.lp.receiver s.lp.head s.lp.second (count16 s.lp.badFrames) s.lp.overruns s.silenceAfterFrame s.lp.restartDue
  have rest := arbitrate_rest s s.lp.receiver s.lp.head s.lp.second s.lp.badFrames s.lp.overruns s.lp.silence s.lp.restartDue
  rw [State.setLp_self] at rest
  rw [State.restartSilence_eq]
  refine ⟨onlyChanges_line _ s, ?_⟩
  exact h.trans (by rw [rest])

/-- A frame broken by a gap is discarded (R157). -/
theorem State.gap_counted (s : State) : OnlyChanges [.lp] s (arbitrate (s.setReceiver .hunt).badFrame) ∧
    (arbitrate (s.setReceiver .hunt).badFrame).lp =
      { (arbitrate s).lp with badFrames := count16 s.lp.badFrames, receiver := .hunt } := by
  have h := arbitrate_rest s .hunt s.lp.head s.lp.second (count16 s.lp.badFrames) s.lp.overruns s.lp.silence s.lp.restartDue
  have rest := arbitrate_rest s s.lp.receiver s.lp.head s.lp.second s.lp.badFrames s.lp.overruns s.lp.silence s.lp.restartDue
  rw [State.setLp_self] at rest
  refine ⟨onlyChanges_line _ s, ?_⟩
  exact h.trans (by rw [rest])

/-- Settles O6: each of the four discards is `badFrame`, after the restart of the silence timer or the return to HUNT where one is due. -/
theorem brokenFramesAreCountedAndDiscarded : Obligations.BrokenFramesAreCountedAndDiscarded := by
  intro s
  refine ⟨fun f a b hr hb hne => ?_, fun kind tag lo hi hr hlong => ?_, fun f hr hb hk => ?_, fun hr => ?_, fun hr => ?_⟩
  · refine ⟨_, exec_frameReceived _ s, ?_⟩
    rw [State.takeBytes_checked hr hb, if_neg (Ne.symm hne)]
    exact s.badFrame_counted
  · refine ⟨_, exec_frameReceived _ s, ?_⟩
    have hlength : 1024 < leNat [lo, hi] := by simpa [leNat] using hlong
    have hunting : s.setReceiver .hunt = s := State.setReceiver_self hr
    rw [State.takeBytes_header hr, State.takeHeader]
    simp only [if_pos hlength, hunting]
    exact s.badFrame_counted
  · refine ⟨_, exec_frameReceived _ s, ?_⟩
    rw [State.takeBytes_wire hr hb, State.arriveFrame, if_neg (by omega), State.passFrame]
    simp only [if_pos hk]
    exact s.replyKind_counted
  · have hgap : s.gapTimeout = (s.setReceiver .hunt).badFrame := by
      unfold State.gapTimeout
      split
      · next h => exact absurd h hr
      · rfl
    exact ⟨arbitrate s.gapTimeout, rfl, hgap ▸ s.gap_counted⟩
  · show finish s.gapTimeout = _
    simp [State.gapTimeout, hr, finish]

/-! ## Frames that wait, are lost or are refused (R159, R160) -/

/-- A frame that has taken the head and leads to no change is only answered (R160, R161). -/
theorem handled_only_answers {f : Frame} {r : Reply} {s : State} (hs : serve f (s.headed f) = (s.headed f, r)) :
    OnlyAnswers f r s (arbitrate ((s.headed f).handle f)) := by
  have hl := arbitrate_handled f (s.headed f) r
  have hhandle : (s.headed f).handle f = (s.headed f).setLp { (s.headed f).lp with reply := some (replyTo f r) } := by
    rw [State.handle, hs]
  rw [hhandle]
  refine ⟨onlyChanges_line _ s, ?_, ?_⟩
  · simp only [Answered, hl]
    cases hsend : s.lp.sending <;> simp [hsend, replyTo]
  · simp only [hl]
    split <;> simp

theorem bodyLimits_of_no_command {kind : Byte} (h : ∀ e ∈ commandBodies, e.1 ≠ kind) : bodyLimits kind = none := by
  have other : ∀ n, n < 256 → kind.toNat = n → kind = BitVec.ofNat 8 n := fun n hn hk => BitVec.eq_of_toNat_eq (by simp [hk, Nat.mod_eq_of_lt hn])
  have refuted : ∀ n, n < 256 → (∃ e ∈ commandBodies, e.1 = BitVec.ofNat 8 n) → kind.toNat ≠ n := fun n hn ⟨e, he, hen⟩ hk =>
    h e he (hen.trans (other n hn hk).symm)
  unfold bodyLimits
  split <;> first
    | rfl
    | next hk => exact absurd hk (refuted _ (by decide) (by decide))

theorem bodyLimits_of_command : ∀ e ∈ commandBodies, bodyLimits e.1 = some e.2 := by decide

/-- Settles O7: a frame in the head is served by the tests of R160 in their order, and one that finds the head taken goes by R159. -/
theorem commandsWaitOverrunOrFindTheScanRunning : Obligations.CommandsWaitOverrunOrFindTheScanRunning := by
  refine ⟨fun f s hr hh hb hk => ?_, fun c f s hc hw => ?_⟩
  · refine ⟨_, exec_frameReceived _ s, ?_⟩
    rw [State.takeBytes_wire hr hb, arriveFrame_headed hk hb hh]
    refine ⟨fun hnone => handled_only_answers ?_, fun e he hek => ⟨fun hserved => handled_only_answers ?_, fun hserved hlen => handled_only_answers ?_⟩⟩
    · rw [serve, bodyLimits_of_no_command hnone]
      rfl
    · simp only [not_or] at hserved
      have hlim := bodyLimits_of_command e he
      rw [hek] at hlim
      have hscan : (s.headed f).rs.scanning = true ∧ ¬servedInScan f.kind = true :=
        ⟨by simpa using hserved.1, by simpa [servedInScan] using hserved.2⟩
      rw [serve, hlim]
      simp only [if_pos hscan]
      rfl
    · have hlim := bodyLimits_of_command e he
      rw [hek] at hlim
      have hscan : ¬((s.headed f).rs.scanning = true ∧ ¬servedInScan f.kind = true) := by
        rcases hserved with h | h | h <;> simp [h, servedInScan]
      have hwithin : within e.2.1 e.2.2 f.body.length = false := by
        unfold within
        rcases hlen with h | h <;> simp <;> omega
      rw [serve, hlim]
      simp only [if_neg hscan, hwithin]
      rfl
  · obtain ⟨f', hf, hs⟩ := (commandFrame_statement c).resolve_left fun h => by rw [h.1] at hc; cases hc
    rw [hf] at hc
    cases hc
    obtain ⟨hk, hb, -⟩ := hs hw
    refine ⟨_, exec_of_frame hf s, fun held hheld => ?_, fun hh hscan h1 h2 => ?_⟩
    · have hoffer : s.arriveFrame f = (s.setLp { s.lp with silence := s.silenceAfterFrame }).offer f := by
        rw [State.arriveFrame, if_neg (by omega), State.passFrame]
        simp only [if_neg (show ¬0x40 ≤ f.kind.toNat by omega), State.restartSilence_eq]
      have rest := arbitrate_rest s s.lp.receiver s.lp.head s.lp.second s.lp.badFrames s.lp.overruns s.lp.silence s.lp.restartDue
      rw [State.setLp_self] at rest
      cases hsecond : s.lp.second with
      | none =>
        have hwait : s.arriveFrame f = s.setLp { s.lp with second := some f, silence := s.silenceAfterFrame } := by
          rw [hoffer, State.offer]
          simp [hheld, hsecond]
        have h := arbitrate_rest s s.lp.receiver s.lp.head (some f) s.lp.badFrames s.lp.overruns s.silenceAfterFrame s.lp.restartDue
        rw [hwait]
        exact ⟨onlyChanges_line _ s, fun _ => h.trans (by rw [rest]), fun g hg => by cases hg⟩
      | some g =>
        have hover : s.arriveFrame f = s.setLp { s.lp with overruns := count16 s.lp.overruns, silence := s.silenceAfterFrame } := by
          rw [hoffer, State.offer]
          simp [hheld, hsecond]
        have h := arbitrate_rest s s.lp.receiver s.lp.head s.lp.second s.lp.badFrames (count16 s.lp.overruns) s.silenceAfterFrame s.lp.restartDue
        rw [hover]
        exact ⟨onlyChanges_line _ s, fun hnone => (nomatch hnone), fun _ _ => h.trans (by rw [rest])⟩
    · rw [arriveFrame_headed hk hb hh]
      exact handled_only_answers (serve_starting hf hw (by simpa using hscan) h1 h2)

end Sys2Proof.Machine
end

