-- ==== Sys2Proof/Proofs/RecordQueries.lean ====
section
/-! UNIT_GET, REPORT_GET and COND_GET: the record as it is encoded is the record in the layout of spec/10, field by field (R9, R142, R152,
R153). -/

namespace Sys2Proof.Machine

/-! ## The fields of the layout (R169) -/

theorem codeOpt_verdict (v : Option Verdict) : verdictOpt v = verdictField v := by
  cases v <;> rfl

theorem leIntOpt_eq_signedField {n : Nat} (hn : leInt n (-(256 ^ n : Nat) / 2) = List.replicate (n - 1) 0 ++ [0x80]) (x : Option Int) :
    leIntOpt n x = signedField n x := by
  cases x with
  | none => exact hn
  | some v => rfl

theorem leIntOpt_two (x : Option Int) : leIntOpt 2 x = signedField 2 x := leIntOpt_eq_signedField (by decide) x

theorem leIntOpt_four (x : Option Int) : leIntOpt 4 x = signedField 4 x := leIntOpt_eq_signedField (by decide) x

theorem leIntOpt_eight (x : Option Int) : leIntOpt 8 x = signedField 8 x := leIntOpt_eq_signedField (by decide) x

theorem timeBytes_eq (t : Option CellTime) : timeBytes t = match t with | some v => leBytes 4 v.toNat | none => [0, 0, 0, 0] := by
  cases t <;> rfl

/-! ## The groups of the record (spec/10 section 10.4) -/

theorem WindowSummary.encode_eq (results : List OrderResult) (w : WindowSummary) : w.encode results = summaryBytes results w := by
  have hresults : ∀ mine : List OrderResult, mine.flatMap OrderResult.encode = mine.flatMap fun o =>
      [codeByte o.channel.code, codeByte o.order, codeByte o.grade.code] ++ leBytes 6 o.power ++ leInt 2 o.level ++ leInt 2 o.limit :=
    fun _ => rfl
  simp [WindowSummary.encode, summaryBytes, hresults, flagByte]

theorem ChamberResult.encode_eq (x : ChamberResult) : x.encode = chamberBytes x := by
  have hkind : codeOpt (x.kind.map ChamberKind.code) = match x.kind with | some k => codeByte k.code | none => 0xFF := by
    cases x.kind <;> rfl
  have houtcome : codeOpt (x.outcome.map LeakOutcome.code) = match x.outcome with | some o => codeByte o.code | none => 0xFF := by
    cases x.outcome <;> rfl
  rw [ChamberResult.encode, chamberBytes, hkind, houtcome, codeOpt_verdict, leIntOpt_eight, leIntOpt_four] <;> rfl

/-- The chambers of the leak group stand one after the other. -/
theorem flatMap_chambers (v : Vector ChamberResult 4) :
    v.toList.flatMap ChamberResult.encode = chamberBytes v[0] ++ chamberBytes v[1] ++ chamberBytes v[2] ++ chamberBytes v[3] := by
  have hlist : v.toList = [v[0], v[1], v[2], v[3]] := List.ext_getElem (by simp) fun i h _ => by
    have hi : i < 4 := by simpa using h
    interval_cases i <;> simp
  simp [hlist, ChamberResult.encode_eq]

/-- A measured value beyond 32 bits shows the bound of its sign (log 34). -/
theorem measuredBytes_eq (x : Option Int) : measuredBytes x =
    signedField 4 (x.map fun v => if v ≤ -2147483648 then -2147483647 else if 2147483647 ≤ v then 2147483647 else v) := by
  have hclamp : ∀ v : Int, clampInt (-2147483647) 2147483647 v =
      if v ≤ -2147483648 then -2147483647 else if 2147483647 ≤ v then 2147483647 else v := by
    intro v
    unfold clampInt
    split <;> [skip; split] <;> omega
  rw [measuredBytes, leIntOpt_four]
  cases x with
  | none => rw [Option.map_none, Option.map_none]
  | some v => simp only [Option.map_some, hclamp]

theorem Defect.encode_eq (x : Defect) : x.encode = defectBytes x := by
  have hitem : x.item.encode = match x.item with
      | .drag => [0, 0, 0, 0]
      | .noise w c q => [1, codeByte w, codeByte c.code, codeByte q]
      | .chamber c => [2, codeByte c.val, 0, 0] := by
    cases x.item <;> rfl
  rw [Defect.encode, defectBytes, hitem, measuredBytes_eq, leIntOpt_four] <;> rfl

/-- The report's fields of the record: those of no report are 0, with no overall verdict and no entries. -/
theorem UnitRecord.reportFields (r : UnitRecord) : let part := r.report.getD ⟨0, .pass, [], 0⟩
    (r.report.map ReportPart.toothCount).getD 0 = part.toothCount ∧
    verdictOpt (r.report.map ReportPart.overall) = (if r.report.isSome then codeByte part.overall.code else 0xFF) ∧
    (r.report.map fun p => p.defects.length).getD 0 = part.defects.length ∧
    (r.report.map ReportPart.notListed).getD 0 = part.notListed ∧
    ((r.report.map ReportPart.defects).getD []) = part.defects := by
  cases r.report <;> exact ⟨rfl, rfl, rfl, rfl, rfl⟩

/-- The record is sent in the layout of spec/10. -/
theorem UnitRecord.encode_eq (r : UnitRecord) : r.encode = recordBytes r := by
  obtain ⟨htooth, hoverall, hcount, hrest, hdefects⟩ := r.reportFields
  have hsummaries : WindowSummary.encode r.noise.results = summaryBytes r.noise.results := funext (WindowSummary.encode_eq _)
  have hentries : Defect.encode = defectBytes := funext Defect.encode_eq
  unfold UnitRecord.encode recordBytes RunIn.encode Noise.encode LeakSection.encode
  simp only [htooth, hoverall, hcount, hrest, hdefects, hsummaries, hentries, flatMap_chambers, timeBytes_eq, leIntOpt_four, leIntOpt_two,
    codeOpt_verdict, textBytes, flagByte, UnitRecord.presence, List.append_assoc] <;> rfl

/-! ## What the owners answer -/

theorem CarriesId.record {id : Nat} {i : Fin 8} {r : UnitRecord} {s : State} (h : CarriesId id i r s) :
    ((s.ut.findId id).bind fun i => s.ut.records[i]) = some r := by
  rw [h.find]
  exact h.1

theorem takeUnitGet_carried {id : Nat} {i : Fin 8} {r : UnitRecord} {s : State} (h : CarriesId id i r s) :
    takeUnitGet id s = (s, answer .ok (recordBytes r)) := by
  simp only [takeUnitGet, h.record, UnitRecord.encode_eq]

theorem takeUnitGet_absent {id : Nat} {s : State} (h : NoUnitCarries id s) : takeUnitGet id s = (s, refuse .notFound) := by
  simp [takeUnitGet, h.find]

theorem takeReportGet_empty {s : State} (h : s.reports = []) : takeReportGet s = (s, refuse .empty) := by
  simp [takeReportGet, h]

theorem takeReportGet_head {id : Nat} {rest : List Nat} {i : Fin 8} {r : UnitRecord} {s : State} (hq : s.reports = id :: rest)
    (h : CarriesId id i r s) : takeReportGet s = (s, answer .ok (recordBytes r)) := by
  simp only [takeReportGet, hq, h.record, UnitRecord.encode_eq]

theorem takeCondGet_condition (n : Fin 20) (s : State) :
    takeCondGet (BitVec.ofNat 8 n.val) s = (s, answer .ok (s.condGetData n)) := by
  simp only [takeCondGet, withCondition, conditionIndex_of_condition]

theorem takeCondGet_large {b : Byte} (h : 19 < b.toNat) (s : State) : takeCondGet b s = (s, refuse .badValue) := by
  simp only [takeCondGet, withCondition, conditionIndex_of_large b h]

/-- Settles O10: each owner changes nothing, and the record it encodes is that of the layout. -/
theorem recordQueriesReturnTheRecord : Obligations.RecordQueriesReturnTheRecord := by
  refine fun tag s hl => ⟨fun id i r hid => ?_, fun id hid => ?_, fun hq => ?_, fun id rest i r hq hid => ?_, fun n => ?_, fun n hn => ?_⟩
  · exact exec_answers_of_take (cmd := .unitGet id.toNat) rfl rfl hl rfl (by simp [bodyLimits, within]) (takeUnitGet_carried hid)
  · exact exec_answers_of_take (cmd := .unitGet id.toNat) rfl rfl hl rfl (by simp [bodyLimits, within]) (takeUnitGet_absent hid)
  · exact exec_answers_of_take (cmd := .reportGet) rfl rfl hl rfl (by simp [bodyLimits, within]) (takeReportGet_empty hq)
  · exact exec_answers_of_take (cmd := .reportGet) rfl rfl hl rfl (by simp [bodyLimits, within]) (takeReportGet_head hq hid)
  · exact exec_answers_of_take (cmd := .condGet _) rfl rfl hl rfl (by simp [bodyLimits, within]) (takeCondGet_condition n _)
  · exact exec_answers_of_take (cmd := .condGet n) rfl rfl hl rfl (by simp [bodyLimits, within]) (takeCondGet_large hn _)

end Sys2Proof.Machine
end

