-- ==== Sys2Proof/Proofs/SlotCommands.lean ====
section
/-! What the owner of a command leaves, behind the arbiter's choice; and the slot commands, each by the slot it names (R23, R24, R26 to R28,
R31, R36, R37). -/

namespace Sys2Proof.Machine

/-! ## A command that reaches its owner -/

/-- `t` is what the owner's outcome leaves of `s`: its reply in its place, and every block but the line as it left it. -/
structure Served (f : Frame) (out : State × Reply) (s t : State) : Prop where
  answered : Answered f out.2 s t
  pending : t.pending = s.pending
  parts : ∀ b : Part, b ≠ .lp → b.same out.1 t
  notices : t.lp.notices = out.1.lp.notices
  restartDue : t.lp.restartDue = out.1.lp.restartDue
  silence : t.lp.silence = out.1.lp.silence

/-- Once the scan is over, a command of the right length that finds the head free has the effect its owner gives it (R159 to R161). -/
theorem exec_serves {c : Instr} {f : Frame} {cmd : Command} {s : State} (hc : commandFrame c = some f) (hw : c.wf = true)
    (hl : s.listens) (hcmd : hostCommand c = some cmd)
    (hb : ∀ lim, bodyLimits f.kind = some lim → within lim.1 lim.2 f.body.length = true) :
    ∃ t, exec c s = .next t ∧ Served f (take cmd (s.headed f)) s t := by
  obtain ⟨t, ht, ha, hp, hparts, hn, hd, hs⟩ := exec_served hc hw hl.1
  rw [serve_eq_take hc hw (by simpa using hl.2) hcmd hb] at ha hparts hn hd hs
  exact ⟨t, ht, ha, hp, hparts, hn, hd, hs⟩

/-- A command of a wrong length is answered BAD_LENGTH before its owner sees it (R160). -/
theorem exec_refuses_length {c : Instr} {f : Frame} {lim : Nat × Nat} {s : State} (hc : commandFrame c = some f) (hw : c.wf = true)
    (hl : s.listens) (hlim : bodyLimits f.kind = some lim) (hlen : within lim.1 lim.2 f.body.length = false) :
    ∃ t, exec c s = .next t ∧ OnlyAnswers f [0x11] s t := by
  refine exec_only_answers hc hw hl.1 ?_
  simp [serve, hlim, hlen, hl.2]
  rfl

namespace Served

variable {f : Frame} {out : State × Reply} {s t : State}

/-- An owner that changes nothing leaves the command only answered. -/
theorem onlyAnswers {r : Reply} (h : Served f (s.headed f, r) s t) : OnlyAnswers f r s t := by
  obtain ⟨ha, hp, hparts, hn, hd, hs⟩ := h
  refine ⟨⟨hp, fun b hb => ?_⟩, ha, hn, hd, hs⟩
  have := hparts b (by simpa using hb)
  cases b <;> simp_all [Part.same]

/-- An owner's changes are those of the blocks it touches. -/
theorem onlyChanges (h : Served f out s t) {bs : List Part} (hlp : Part.lp ∈ bs) (hout : ∀ b : Part, b ∉ bs → b.same (s.headed f) out.1) :
    OnlyChanges bs s t := by
  refine ⟨h.pending, fun b hb => ?_⟩
  have hne : b ≠ .lp := fun e => hb (e ▸ hlp)
  have howner := hout b hb
  have hline := h.parts b hne
  cases b with
  | lp => exact absurd rfl hne
  | _ => exact hline.trans howner

theorem ut (h : Served f out s t) : t.ut = out.1.ut := h.parts .ut (by decide)
theorem rs (h : Served f out s t) : t.rs = out.1.rs := h.parts .rs (by decide)
theorem pe (h : Served f out s t) : t.pe = out.1.pe := h.parts .pe (by decide)
theorem afe (h : Served f out s t) : t.afe = out.1.afe := h.parts .afe (by decide)
theorem cs (h : Served f out s t) : t.cs = out.1.cs := h.parts .cs (by decide)
theorem oa (h : Served f out s t) : t.oa = out.1.oa := h.parts .oa (by decide)
theorem lkc (h : Served f out s t) : t.lkc = out.1.lkc := h.parts .lkc (by decide)
theorem cu (h : Served f out s t) : t.cu = out.1.cu := h.parts .cu (by decide)
theorem reports (h : Served f out s t) : t.reports = out.1.reports := h.parts .reports (by decide)

end Served

/-! ## The owners, by the slot (R23, R24, R26 to R28, R31, R36, R37) -/

section
variable (k : Fin 16) (s : State)

theorem SlotState.busy_iff (x : SlotState) : x.busy = true ↔ x = .erasing ∨ x = .closing := by
  cases x <;> simp [SlotState.busy]

theorem withSlot_slot (f : Fin 16 → State → State × Reply) : withSlot (BitVec.ofNat 8 k.val) f s = f k s := by
  simp only [withSlot, slotIndex_of_slot]

theorem withSlot_large {b : Byte} (h : 15 < b.toNat) (f : Fin 16 → State → State × Reply) : withSlot b f s = (s, refuse .badValue) := by
  simp only [withSlot, slotIndex_of_large b h]

/-- The checks of R23, in their order. -/
theorem withOwnSlot_slot (f : Fin 16 → State → State × Reply) : withOwnSlot (BitVec.ofNat 8 k.val) f s =
    if k = 0 ∧ s.cu.mode = .production then (s, refuse .protected_)
    else if k = 0 ∧ s.ut.count ≠ 0 then (s, refuse .wrongState)
    else f k s := by
  rw [withOwnSlot, withSlot_slot, State.slotGuard]
  by_cases hk : k = 0
  · by_cases hmode : s.cu.mode = .production
    · simp [hk, hmode]
    · by_cases hcount : s.ut.count = 0 <;> simp [hk, hmode, hcount]
  · simp [hk]

theorem withOwnSlot_large {b : Byte} (h : 15 < b.toNat) (f : Fin 16 → State → State × Reply) :
    withOwnSlot b f s = (s, refuse .badValue) := by
  simp only [withOwnSlot, withSlot_large _ h]

theorem takeSlotErase_slot : takeSlotErase (BitVec.ofNat 8 k.val) s =
    if k = 0 ∧ s.cu.mode = .production then (s, refuse .protected_)
    else if k = 0 ∧ s.ut.count ≠ 0 then (s, refuse .wrongState)
    else if (s.slot k).state = .erasing ∨ (s.slot k).state = .closing then (s, refuse .slotBusy)
    else if 0 < (s.slot k).inUse then (s, refuse .slotInUse)
    else (s.mapSlot k fun x => { x with state := .erasing, reason := none, written := 0, digest := none, mark := true },
      refuse .accepted) := by
  simp only [takeSlotErase, withOwnSlot_slot, SlotState.busy_iff]

theorem takeSlotClose_slot : takeSlotClose (BitVec.ofNat 8 k.val) s =
    if k = 0 ∧ s.cu.mode = .production then (s, refuse .protected_)
    else if k = 0 ∧ s.ut.count ≠ 0 then (s, refuse .wrongState)
    else if (s.slot k).state ≠ .writing then (s, refuse .wrongState)
    else (s.mapSlot k fun x => { x with state := .closing, mark := true }, refuse .accepted) := by
  simp only [takeSlotClose, withOwnSlot_slot, ite_not]

theorem takeSlotWrite_slot (offset : Nat) (data : List Byte) (hlen : data.length ≤ 1000) :
    takeSlotWrite (BitVec.ofNat 8 k.val) offset data s =
    if k = 0 ∧ s.cu.mode = .production then (s, refuse .protected_)
    else if k = 0 ∧ s.ut.count ≠ 0 then (s, refuse .wrongState)
    else if (s.slot k).state = .erasing ∨ (s.slot k).state = .closing then (s, refuse .slotBusy)
    else if (s.slot k).state = .valid ∨ (s.slot k).state = .invalid then (s, refuse .notBlank)
    else if data = [] then (s, refuse .badLength)
    else if offset ≠ (s.slot k).written then (s, answer .badOffset (leBytes 2 (s.slot k).written))
    else if slotSize < offset + data.length then (s, refuse .badLength)
    else (s.mapSlot k fun x => { x with
        bytes := x.bytes.writeAll offset data, state := .writing, written := offset + data.length },
      answer .ok (leBytes 2 (offset + data.length))) := by
  have hwithin : (¬within 1 1000 data.length = true) ↔ data = [] := by
    cases data with
    | nil => decide
    | cons x xs => simpa [within] using hlen
  simp only [takeSlotWrite, withOwnSlot_slot, SlotState.busy_iff, hwithin]

theorem takeSlotVerify_slot (digest : Word32) : takeSlotVerify (BitVec.ofNat 8 k.val) digest s =
    (s, if (s.slot k).state ≠ .valid then [0x14] else if (s.slot k).digest = some digest then [0x03] else [0x04]) := by
  simp only [takeSlotVerify, withSlot_slot]
  by_cases hvalid : (s.slot k).state = .valid
  · by_cases hdigest : (s.slot k).digest = some digest <;> simp [hvalid, hdigest] <;> rfl
  · simp [hvalid]
    rfl

theorem takeSlotRead_slot (off len : Nat) : takeSlotRead (BitVec.ofNat 8 k.val) off len s =
    (s, if slotSize ≤ off then [0x13]
      else if len = 0 ∨ 1000 < len ∨ slotSize < off + len then [0x11]
      else if (s.slot k).state = .erasing ∨ (s.slot k).state = .closing then [0x1B]
      else 0x00 :: (List.range len).map fun i => (s.slot k).byteAt (off + i)) := by
  have hlen : (¬(within 1 1000 len && decide (off + len ≤ slotSize)) = true) ↔ len = 0 ∨ 1000 < len ∨ slotSize < off + len := by
    simp [within]
    omega
  simp only [takeSlotRead, withSlot_slot, SlotState.busy_iff, hlen]
  split_ifs <;> rfl

theorem takeSlotInfo_slot : takeSlotInfo (BitVec.ofNat 8 k.val) s =
    (s, [0x00, codeByte (s.slot k).state.code, codeOpt ((s.slot k).reason.map Reason.code)] ++ leBytes 2 (s.slot k).written ++
      leBytes 4 ((s.slot k).digest.getD 0).toNat ++
      [codeByte (s.slot k).inUse, if k = 0 then codeByte s.rs.source.code else 0xFF]) := by
  simp only [takeSlotInfo, withSlot_slot]
  rfl

theorem takeSlotBlank_slot : takeSlotBlank (BitVec.ofNat 8 k.val) s =
    if (s.slot k).state = .erasing ∨ (s.slot k).state = .closing then (s, refuse .slotBusy)
    else (s, answer .ok (flagByte (s.slot k).firstWritten.isNone :: leBytes 2 ((s.slot k).firstWritten.getD 0))) := by
  simp only [takeSlotBlank, withSlot_slot, SlotState.busy_iff]

end

/-! A slot number above 15 (R23). -/

section
variable {b : Byte} (h : 15 < b.toNat) (s : State)
include h

theorem takeSlotErase_large : takeSlotErase b s = (s, refuse .badValue) := withOwnSlot_large s h _
theorem takeSlotBlank_large : takeSlotBlank b s = (s, refuse .badValue) := withSlot_large s h _
theorem takeSlotWrite_large (offset : Nat) (data : List Byte) : takeSlotWrite b offset data s = (s, refuse .badValue) := withOwnSlot_large s h _
theorem takeSlotClose_large : takeSlotClose b s = (s, refuse .badValue) := withOwnSlot_large s h _
theorem takeSlotVerify_large (digest : Word32) : takeSlotVerify b digest s = (s, refuse .badValue) := withSlot_large s h _
theorem takeSlotRead_large (off len : Nat) : takeSlotRead b off len s = (s, refuse .badValue) := withSlot_large s h _
theorem takeSlotInfo_large : takeSlotInfo b s = (s, refuse .badValue) := withSlot_large s h _

end

/-! ## The first byte that does not read FFh (R26) -/

theorem Slot.firstWritten_none {x : Slot} (h : ∀ off, off < slotSize → x.byteAt off = erasedByte)
    (hb : ∀ cell ∈ x.bytes, cell.1 < slotSize) (hw : x.bytes.wf = true) : x.firstWritten = none := by
  unfold Slot.firstWritten
  split
  case h_1 hnone =>
    cases hbytes : x.bytes with
    | nil => rfl
    | cons cell rest =>
      obtain ⟨a, v⟩ := cell
      have hfirst := ((Memory.head_first hw).2 a v rest hbytes).1
      have hread := h a (hb (a, v) (by simp [hbytes]))
      simp only [Slot.byteAt, hnone] at hread
      exact absurd hread hfirst
  case h_2 n hsome =>
    exact List.find?_eq_none.mpr fun off hoff => by simp [h off (List.mem_range.mp hoff)]

theorem Slot.firstWritten_some {x : Slot} {off : Nat} (hlt : off < slotSize) (hoff : x.byteAt off ≠ erasedByte)
    (hbelow : ∀ o, o < off → x.byteAt o = erasedByte) (hw : x.bytes.wf = true) : x.firstWritten = some off := by
  unfold Slot.firstWritten
  split
  case h_1 hnone =>
    simp only [Slot.byteAt, hnone] at hoff hbelow
    cases hbytes : x.bytes with
    | nil => exact absurd ((Memory.head_first hw).1 hbytes off) hoff
    | cons cell rest =>
      obtain ⟨a, v⟩ := cell
      obtain ⟨hfirst, hunder⟩ := (Memory.head_first hw).2 a v rest hbytes
      have hage : a ≤ off := Nat.le_of_not_lt fun hlt => hoff (hunder off hlt)
      have hle : off ≤ a := Nat.le_of_not_lt fun hlt => hfirst (hbelow a hlt)
      simp [Nat.le_antisymm hage hle]
  case h_2 n hsome =>
    refine List.find?_range_eq_some.mpr ⟨by simpa using hoff, by simpa using hlt, fun o ho => ?_⟩
    simp [hbelow o ho]

/-! ## The obligations -/

/-- Settles O11: each owner changes nothing, and the canonical form gives the first byte that does not read FFh. -/
theorem slotQueriesAnswerFromTheSlot : Obligations.SlotQueriesAnswerFromTheSlot := by
  refine ⟨fun tag s hl hm => ⟨fun b hb => ?_, fun k => ?_⟩, fun tag s hl => ⟨fun b digest off len hb => ⟨?_, ?_, ?_⟩, fun k => ⟨fun digest => ?_, fun off len => ?_, ?_⟩⟩⟩
  · exact exec_answers_of_take (cmd := .slotBlank b) rfl rfl hl rfl (by simp [bodyLimits, within]) (takeSlotBlank_large hb _)
  · obtain ⟨hwf, hbound⟩ := hm k
    obtain ⟨t, ht, hserved⟩ := exec_serves (c := .slotBlank tag (BitVec.ofNat 8 k.val)) rfl rfl hl rfl (by simp [bodyLimits, within])
    rw [take, takeSlotBlank_slot] at hserved
    change Served _ (if (s.slot k).state = .erasing ∨ (s.slot k).state = .closing then _ else _) s t at hserved
    refine ⟨t, ht, fun hbusy => ?_, fun he hc => ?_⟩
    · rw [if_pos hbusy] at hserved
      exact hserved.onlyAnswers
    · rw [if_neg (not_or.mpr ⟨he, hc⟩)] at hserved
      refine ⟨fun hall => ?_, fun off hlt hoff hbelow => ?_⟩
      · have hfirst : (s.slot k).firstWritten = none := Slot.firstWritten_none hall hbound hwf
        have := hserved.onlyAnswers
        rw [show ((s.headed _).slot k) = s.slot k from rfl, hfirst] at this
        exact this
      · have hfirst : (s.slot k).firstWritten = some off := Slot.firstWritten_some hlt hoff hbelow hwf
        have := hserved.onlyAnswers
        rw [show ((s.headed _).slot k) = s.slot k from rfl, hfirst] at this
        exact this
  · exact exec_answers_of_take (cmd := .slotVerify b digest) rfl rfl hl rfl (by simp [bodyLimits, within]) (takeSlotVerify_large hb _ digest)
  · exact exec_answers_of_take (cmd := .slotRead b off.toNat len.toNat) rfl rfl hl rfl (by simp [bodyLimits, within]) (takeSlotRead_large hb _ off.toNat len.toNat)
  · exact exec_answers_of_take (cmd := .slotInfo b) rfl rfl hl rfl (by simp [bodyLimits, within]) (takeSlotInfo_large hb _)
  · exact exec_answers_of_take (cmd := .slotVerify _ digest) rfl rfl hl rfl (by simp [bodyLimits, within]) (takeSlotVerify_slot k _ digest)
  · exact exec_answers_of_take (cmd := .slotRead _ off.toNat len.toNat) rfl rfl hl rfl (by simp [bodyLimits, within])
      (takeSlotRead_slot k _ off.toNat len.toNat)
  · exact exec_answers_of_take (cmd := .slotInfo _) rfl rfl hl rfl (by simp [bodyLimits, within]) (takeSlotInfo_slot k _)

/-- A command that changes one slot leaves the rest of the Recipe Store. -/
theorem Served.slotChanged {f : Frame} {r : Reply} {k : Fin 16} {g : Slot → Slot} {s t : State}
    (h : Served f ((s.headed f).mapSlot k g, r) s t) : OnlyChanges [.lp, .rs] s t ∧ Answered f r s t ∧ t.lp.notices = s.lp.notices ∧
      t.slot k = g (s.slot k) ∧ OtherSlotsKept k s t ∧ t.rs.live = s.rs.live ∧ t.rs.source = s.rs.source ∧
      t.rs.scanning = s.rs.scanning := by
  have hslot : ∀ j, t.slot j = ((s.headed f).mapSlot k g).slot j := State.slot_congr h.rs
  have hrest := State.mapSlot_rest k g (s.headed f)
  refine ⟨h.onlyChanges (by decide) fun b hb => by cases b <;> simp [Part.same] at hb ⊢, h.answered, by simpa using h.notices, ?_, fun j hj => ?_, ?_⟩
  · rw [hslot, State.slot_mapSlot, if_pos rfl]
    rfl
  · exact (hslot j).trans (by rw [State.slot_mapSlot, if_neg hj]; rfl)
  · rw [h.rs]
    exact hrest

/-- Settles O12: the refusals of R23, R24 and R28 in their order, and the slot's entry to ERASING or CLOSING. -/
theorem slotEraseAndCloseBeginTheirOperation : Obligations.SlotEraseAndCloseBeginTheirOperation := by
  refine fun tag s hl => ⟨fun b hb => ⟨?_, ?_⟩, fun k => ⟨?_, ?_⟩⟩
  · exact exec_answers_of_take (cmd := .slotErase b) rfl rfl hl rfl (by simp [bodyLimits, within]) (takeSlotErase_large hb _)
  · exact exec_answers_of_take (cmd := .slotClose b) rfl rfl hl rfl (by simp [bodyLimits, within]) (takeSlotClose_large hb _)
  · obtain ⟨t, ht, hserved⟩ := exec_serves (c := .slotErase tag (BitVec.ofNat 8 k.val)) rfl rfl hl rfl (by simp [bodyLimits, within])
    rw [take, takeSlotErase_slot] at hserved
    refine ⟨t, ht, ?_⟩
    change Served _ (if k = 0 ∧ s.cu.mode = .production then _ else if k = 0 ∧ s.ut.count ≠ 0 then _
      else if (s.slot k).state = .erasing ∨ (s.slot k).state = .closing then _ else if 0 < (s.slot k).inUse then _ else _) s t at hserved
    split_ifs at hserved ⊢
    · exact hserved.onlyAnswers
    · exact hserved.onlyAnswers
    · exact hserved.onlyAnswers
    · exact hserved.onlyAnswers
    · exact hserved.slotChanged
  · obtain ⟨t, ht, hserved⟩ := exec_serves (c := .slotClose tag (BitVec.ofNat 8 k.val)) rfl rfl hl rfl (by simp [bodyLimits, within])
    rw [take, takeSlotClose_slot] at hserved
    refine ⟨t, ht, ?_⟩
    change Served _ (if k = 0 ∧ s.cu.mode = .production then _ else if k = 0 ∧ s.ut.count ≠ 0 then _
      else if (s.slot k).state ≠ .writing then _ else _) s t at hserved
    split_ifs at hserved ⊢
    · exact hserved.onlyAnswers
    · exact hserved.onlyAnswers
    · exact hserved.onlyAnswers
    · exact hserved.slotChanged

/-- Settles O13: the data part above 1,000 bytes by the Line Port, the refusals of R23 and R27 in their order, and what the stored bytes
read as by the laws of the memory. -/
theorem slotWriteStoresInOrder : Obligations.SlotWriteStoresInOrder := by
  intro tag offset data s hl hm hmax
  have hw : ∀ b, (Instr.slotWrite tag b offset data).wf = true := fun _ =>
    decide_eq_true (show 3 + data.length ≤ 1024 by omega)
  have hlength : ∀ b : Byte, (b :: (leBytes 2 offset.toNat ++ data)).length = 3 + data.length := fun b => by
    simp [leBytes]
    omega
  have hlim : ∀ b : Byte, data.length ≤ 1000 → ∀ lim, bodyLimits 0x22 = some lim →
      within lim.1 lim.2 (b :: (leBytes 2 offset.toNat ++ data)).length = true := fun b hle lim hlim => by
    cases hlim
    simp only [hlength, within]
    simp
    omega
  refine ⟨fun b hb hle => ?_, fun k => ?_⟩
  · exact exec_answers_of_take (cmd := .slotWrite b offset.toNat data) rfl (hw b) hl rfl (hlim b hle) (takeSlotWrite_large hb _ offset.toNat data)
  · by_cases hlong : 1000 < data.length
    · obtain ⟨t, ht, hanswer⟩ := exec_refuses_length (c := .slotWrite tag (BitVec.ofNat 8 k.val) offset data) (lim := (3, 1003)) rfl (hw _) hl rfl
        (by simp only [hlength, within]; simp; omega)
      refine ⟨t, ht, ?_⟩
      rw [if_pos hlong]
      exact hanswer
    · have hle : data.length ≤ 1000 := Nat.le_of_not_lt hlong
      obtain ⟨t, ht, hserved⟩ := exec_serves (c := .slotWrite tag (BitVec.ofNat 8 k.val) offset data) rfl (hw _) hl rfl (hlim _ hle)
      rw [take, takeSlotWrite_slot _ _ _ _ hle] at hserved
      refine ⟨t, ht, ?_⟩
      rw [if_neg hlong]
      change Served _ (if k = 0 ∧ s.cu.mode = .production then _ else if k = 0 ∧ s.ut.count ≠ 0 then _
        else if (s.slot k).state = .erasing ∨ (s.slot k).state = .closing then _
        else if (s.slot k).state = .valid ∨ (s.slot k).state = .invalid then _ else if data = [] then _
        else if offset.toNat ≠ (s.slot k).written then _ else if 4096 < offset.toNat + data.length then _ else _) s t at hserved
      split_ifs at hserved ⊢
      · exact hserved.onlyAnswers
      · exact hserved.onlyAnswers
      · exact hserved.onlyAnswers
      · exact hserved.onlyAnswers
      · exact hserved.onlyAnswers
      · exact hserved.onlyAnswers
      · exact hserved.onlyAnswers
      · obtain ⟨hchanges, hanswered, hnotices, hslot, hothers, hrest⟩ := hserved.slotChanged
        have hread := fun a => Memory.read_writeAll (hm k).1 offset.toNat a data
        have hbytes : (t.slot k).bytes = (s.slot k).bytes.writeAll offset.toNat data := by rw [hslot]
        refine ⟨hchanges, hanswered, hnotices, fun j hj => ?_, fun a ha => ?_, by rw [hslot], hothers, hrest⟩
        · rw [hbytes]
          refine (hread _).trans ?_
          rw [dif_pos (by omega)]
          simp
        · rw [hbytes]
          exact (hread a).trans (dif_neg (by omega))

end Sys2Proof.Machine
end

