-- ==== Sys2Proof/Proofs/NoticesKept.lean ====
section
/-! Which pending notices an operation leaves pending: those of every key it does not itself raise (R165). -/

namespace Sys2Proof.Machine

/-- The pending notices of `s` whose keys are of `K` stand in `t`. -/
def NoticesKept (K : NoticeKey → Prop) (s t : State) : Prop := ∀ n ∈ s.lp.notices, K n.key → n ∈ t.lp.notices

namespace NoticesKept

variable {K : NoticeKey → Prop} {s t u : State}

theorem of_notices (h : t.lp.notices = s.lp.notices) : NoticesKept K s t := fun _ hn _ => by rwa [h]

theorem refl (s : State) : NoticesKept K s s := of_notices rfl

theorem trans (h : NoticesKept K s t) (h' : NoticesKept K t u) : NoticesKept K s u := fun n hn hk => h' n (h n hn hk) hk

/-- Raising a key outside `K` leaves the notices of `K`. -/
theorem raise {key : NoticeKey} (hk : ¬K key) (content : NoticeContent) (s : State) : NoticesKept K s (s.raise key content) :=
  fun _ hmem hn => mem_putNotice_of_ne hmem fun h => hk (by rwa [h] at hn)

/-! ### Where no CONDITION notice is of `K` -/

theorem condNotice {m : Fin 20} (hk : ¬K (.condition m)) (s : State) : NoticesKept K s (s.condNotice m) := raise hk _ s

theorem takingCheck (hk : ∀ m, ¬K (.condition m)) (s : State) : NoticesKept K s (s.takingCheck []) := by
  rcases taken_or_none s with ⟨m, hm⟩ | hnone
  · rw [State.takingCheck_one hm]
    exact (of_notices (by simp [State.take]) : NoticesKept K s (s.take m)).trans (condNotice (hk m) _)
  · rw [State.takingCheck_none hnone]
    exact refl s

/-! ### Where no STREAM notice is of `K` -/

section
variable (hst : ∀ st, ¬K (.stream st))
include hst

theorem enterWanted (st : StreamId) (s : State) : NoticesKept K s (s.enterWanted st) := by
  have entered : NoticesKept K s (s.enterStream st (s.wantedState st)) := of_notices (by simp)
  unfold State.enterWanted
  dsimp only
  split
  · exact entered.trans (raise (hst st) _ _)
  · exact entered

theorem applyPlan (st : StreamId) (p : Plan) (s : State) : NoticesKept K s (s.applyPlan st p) :=
  (of_notices (by simp) : NoticesKept K s (s.setStream st _)).trans (enterWanted hst st _)

theorem setTarget (st : StreamId) (p : Plan) (s : State) : NoticesKept K s (s.setTarget st p) := by
  unfold State.setTarget
  dsimp only
  split
  · split
    · exact (of_notices (by simp) : NoticesKept K s (s.setStream st _)).trans (enterWanted hst st _)
    · exact refl s
  · split
    · exact applyPlan hst st p s
    · exact of_notices (by simp)

theorem checkPlan (st : StreamId) (s : State) : NoticesKept K s (s.checkPlan st) := by
  unfold State.checkPlan
  split
  · split
    · exact applyPlan hst st _ s
    · exact refl s
  · exact refl s

theorem checkPlans (s : State) : NoticesKept K s s.checkPlans :=
  ((checkPlan hst .vib s).trans (checkPlan hst .slow _)).trans (checkPlan hst .leak _)

theorem releaseVib (d : Fin 32) (s : State) : NoticesKept K s (s.releaseVib d) := by
  have freed : ∀ x, NoticesKept K s (s.setCs x) := fun _ => of_notices rfl
  exact (freed _).trans (checkPlans hst _)

theorem abandonFor (n : Nat) (s : State) : NoticesKept K s (s.abandonFor n) := by
  unfold State.abandonFor State.abandonOpen
  split
  · split
    · next d _ _ => exact (of_notices rfl : NoticesKept K s (s.setAfe { s.afe with openVib := none })).trans (releaseVib hst d _)
    · exact refl s
  · exact refl s

theorem closeWindow (n : Nat) (s : State) : NoticesKept K s (s.closeWindow n) := by
  cases hw : s.oa.window n with
  | none => rw [State.closeWindow_absent hw]; exact refl s
  | some w =>
    rcases State.closeWindow_found hw with ⟨-, -, h⟩ | ⟨-, -, h⟩ | ⟨-, -, h⟩ <;> rw [h]
    · exact (abandonFor hst n s).trans (of_notices (by simp))
    · exact (abandonFor hst n s).trans (of_notices (by simp))
    · exact refl s

theorem closeAll (s : State) : NoticesKept K s s.closeAll := by
  unfold State.closeAll
  generalize s.oa.windows.map Window.number = ns
  induction ns generalizing s with
  | nil => exact refl s
  | cons n ns ih => exact (closeWindow hst n s).trans (ih _)

theorem closeWindows (s : State) : NoticesKept K s s.closeWindows := by
  unfold State.closeWindows
  split
  · exact of_notices (by simp)
  · exact closeAll hst s

end

/-! ### Where no UNIT notice of the record is of `K` -/

theorem enterState {i : Fin 8} (hu : ¬K (.unit i)) (v : UnitState) (s : State) : NoticesKept K s (s.enterState i v) := by
  have changed : NoticesKept K s (s.mapUnit i fun r => { r with state := v }) := of_notices rfl
  refine changed.trans ?_
  unfold State.enterState State.unitNotice
  split
  · exact raise hu _ _
  · exact refl _

section
variable (hst : ∀ st, ¬K (.stream st)) (hu : ∀ i, ¬K (.unit i))
include hst hu

theorem checkTransfer (s : State) : NoticesKept K s s.checkTransfer := by
  unfold State.checkTransfer
  split
  · next i _ =>
    split
    · dsimp only
      have moved := (of_notices rfl : NoticesKept K s s.runConveyor).trans (enterState (hu i) .inTransfer _)
      split
      · exact moved.trans (setTarget hst _ _ _)
      · exact moved
    · exact refl s
  · exact refl s

theorem checkRunDone (s : State) : NoticesKept K s s.checkRunDone := by
  unfold State.checkRunDone
  split
  · exact refl s
  · next i _ =>
    split
    · exact refl s
    · split
      · have moved : NoticesKept K s (s.enterState i .runDone).syncStreams :=
          (enterState (hu i) .runDone s).trans (of_notices (by simp))
        exact (moved.trans (of_notices (by unfold State.disarmSilence; split <;> rfl))).trans (checkTransfer hst hu _)
      · exact refl s

end

/-- The halts raise UNIT and STREAM notices alone. -/
theorem keptByHalts (hst : ∀ st, ¬K (.stream st)) (hu : ∀ i, ¬K (.unit i)) : KeptByHalts (NoticesKept K) where
  refl := refl
  trans := trans
  setPe _ _ := of_notices rfl
  setEnable _ := of_notices (by simp)
  complete _ _ := of_notices (by simp)
  closeWindows := closeWindows hst
  checkRunDone := checkRunDone hst hu
  pauseWindow _ _ := of_notices (by simp)
  syncStreams _ := of_notices (by simp)
  haltChambers _ := of_notices (by simp)
  stopConveyor _ := of_notices rfl

/-- The end of an event keeps the notices of every key but CONDITION, UNIT and STREAM. -/
theorem checked (hc : ∀ m, ¬K (.condition m)) (hst : ∀ st, ¬K (.stream st)) (hu : ∀ i, ¬K (.unit i)) (s : State) :
    NoticesKept K s ((s.takingCheck []).applyHalts s.halt) :=
  (takingCheck hc s).trans ((keptByHalts hst hu).applyHalts (State.halt_within_takingCheck s))

end NoticesKept

/-- A raised notice that the rest of its event leaves pending is announced. -/
theorem NoticesKept.announced {K : NoticeKey → Prop} {key : NoticeKey} {content : NoticeContent} {s t : State}
    (h : NoticesKept K (s.raise key content) t) (hk : K key) : Announced ⟨key, content⟩ (arbitrate t) :=
  announced_arbitrate (h _ (mem_putNotice_self _ _) hk)

end Sys2Proof.Machine
end

