-- ==== Sys2Proof/Proofs/StoreCompletions.lean ====
section
/-! The Recipe Store's events: the end of the start-up scan, and the completions of an erase and of a close (R25, R29, R33 to R35). -/

namespace Sys2Proof.Machine

/-! ## A cell configuration in force (R33, R34, R140, R141) -/

/-- The twelve configurable conditions in the order of the configuration (R126, R140). -/
theorem configIndex_configurable : ∀ (n : Fin 20) (k : Fin 12), (n = 5 ∧ k = 0) ∨ (9 ≤ n.val ∧ k.val + 8 = n.val) →
    configIndex n = some k := by decide

theorem configIndex_fixed : ∀ n : Fin 20, n ≠ 5 → n.val < 9 → configIndex n = none := by decide

theorem State.cond_loaded (cfg : CellConfig) (source : ConfigSource) (n : Fin 20) (s : State) :
    (s.useConfig cfg source).cond n = match configIndex n with
      | some k => { s.cond n with severity := (cfg.conditions[k]).severity, vector := (cfg.conditions[k]).vector }
      | none => s.cond n := by
  simp [State.cond, State.useConfig, loadSettings] <;> rfl

/-- A configuration in force holds the settings of its twelve conditions. -/
theorem settingsLoaded_useConfig (cfg : CellConfig) (source : ConfigSource) (s : State) : SettingsLoaded cfg s (s.useConfig cfg source) := by
  refine fun n => ⟨fun k hk => ?_, fun h5 h9 => ?_⟩
  · rw [State.cond_loaded, configIndex_configurable n k hk]
    exact ⟨rfl, rfl⟩
  · rw [State.cond_loaded, configIndex_fixed n h5 h9]
    exact ⟨rfl, rfl⟩

/-- Settings read the live severities and vectors alone. -/
theorem SettingsLoaded.congr {cfg : CellConfig} {s s' t t' : State} (h : SettingsLoaded cfg s t)
    (hs : ∀ n, (s'.cond n).severity = (s.cond n).severity ∧ (s'.cond n).vector = (s.cond n).vector)
    (ht : ∀ n, (t'.cond n).severity = (t.cond n).severity ∧ (t'.cond n).vector = (t.cond n).vector) : SettingsLoaded cfg s' t' := by
  refine fun n => ⟨fun k hk => ?_, fun h5 h9 => ?_⟩
  · rw [(ht n).1, (ht n).2]
    exact (h n).1 k hk
  · rw [(ht n).1, (ht n).2, (hs n).1, (hs n).2]
    exact (h n).2 h5 h9

/-- What a configuration's taking check and its halts leave of a state `s`, whose Condition Unit and clock are those of `u` (R33, R34, R141). -/
theorem useConfig_checked {s u v : State} (cfg : CellConfig) (source : ConfigSource) (hcu : u.cu = s.cu) (hk : u.clockUs = s.clockUs)
    (hv : v.cu = (((u.useConfig cfg source).takingCheck []).applyHalts s.halt).cu) :
    SettingsLoaded cfg s v ∧ TakingCheckMade (s.setCu { s.cu with conditions := loadSettings cfg s.cu.conditions }) v := by
  constructor
  · refine (settingsLoaded_useConfig cfg source u).congr (fun n => by simp [State.cond_congr hcu]) fun n => ?_
    rw [State.cond_congr hv]
    simp
  · refine (takingCheck_made [] (u.useConfig cfg source)).congr ?_ ?_ ?_ ?_
    · simp [State.useConfig, hcu]
    · simp [hk]
    · simp [hv]
    · simp [hv]

/-! ## The end of the start-up scan (R34, R144) -/

theorem Slot.interrupted_iff (x : Slot) :
    x.interrupted = true ↔ x.state = .writing ∨ x.state = .erasing ∨ x.state = .closing ∨ x.mark = true := by
  cases hx : x.state <;> simp [Slot.interrupted, SlotState.busy, hx]

/-- Where the scan finds slot 0 as it left it, VALID with no mark, its configuration is in force; else that of the defaults (R34). -/
theorem State.scanConfig_eq (s : State) : s.scanConfig =
    if (s.slot 0).state = .valid ∧ (s.slot 0).mark = false then s.scannedSlots.useConfig (readConfig (s.slot 0).bytes) .slot0
    else s.scannedSlots.useConfig defaultConfig .defaults := by
  have hscanned : s.scannedSlots.slot 0 = (s.slot 0).scanned (s.freeCount + 0) := by
    simp [State.scannedSlots, State.slot]
  by_cases hstill : (s.slot 0).interrupted = true
  · have hfound : ¬((s.slot 0).state = .valid ∧ (s.slot 0).mark = false) := by
      rcases (Slot.interrupted_iff _).mp hstill with h | h | h | h <;> simp [h]
    rw [State.scanConfig, hscanned, Slot.scanned, if_pos hstill, if_neg hfound, if_neg (by simp)]
  · have hsettled : (s.slot 0).mark = false := by
      rw [Slot.interrupted_iff] at hstill
      simp only [not_or, Bool.not_eq_true] at hstill
      exact hstill.2.2.2
    rw [State.scanConfig, hscanned, Slot.scanned, if_neg hstill]
    simp [hsettled]

@[simp] theorem State.giveVent_frame (s : State) :
    s.giveVent.pending = s.pending ∧ s.giveVent.clockUs = s.clockUs ∧ s.giveVent.freeCount = s.freeCount ∧ s.giveVent.lines = s.lines ∧
    s.giveVent.lp = s.lp ∧ s.giveVent.ut = s.ut ∧ s.giveVent.rs = s.rs ∧ s.giveVent.pe = s.pe ∧ s.giveVent.afe = s.afe ∧
    s.giveVent.cs = s.cs ∧ s.giveVent.oa = s.oa ∧ s.giveVent.cu = s.cu ∧ s.giveVent.reports = s.reports := by
  unfold State.giveVent
  split <;> simp

theorem State.giveVent_resetVent (s : State) :
    (∀ stop, s.lkc.resetVent = .running stop → s.giveVent.lkc.resetVent = .running (some s.rs.live.resetVent)) ∧
    (s.lkc.resetVent = .over → s.giveVent.lkc.resetVent = .over) := by
  unfold State.giveVent
  constructor
  · intro stop h
    rw [h]
    rfl
  · intro h
    rw [h]
    exact h

/-- The scan over configuration `cfg`: the machine with the slots settled, the configuration in force and checked. -/
theorem endScan_useConfig {cfg : CellConfig} {source : ConfigSource} {s : State} (hscan : s.rs.scanning = true)
    (hcfg : s.scanConfig = s.scannedSlots.useConfig cfg source) :
    s.endScan.rs = { s.scannedSlots.rs with live := cfg, source := source } ∧ SettingsLoaded cfg s s.endScan ∧
    TakingCheckMade (scanFound cfg s) s.endScan ∧
    (∀ stop, s.lkc.resetVent = .running stop → s.endScan.lkc.resetVent = .running (some cfg.resetVent)) ∧
    (s.lkc.resetVent = .over → s.endScan.lkc.resetVent = .over) := by
  have hend := State.endScan_scanning hscan
  rw [hcfg] at hend
  obtain ⟨hsettings, hcheck⟩ := useConfig_checked cfg source (s := s) (u := s.scannedSlots) (v := s.endScan) (by simp) (by simp) (by simp [hend])
  obtain ⟨hrunning, hover⟩ := State.giveVent_resetVent (((s.scannedSlots.useConfig cfg source).takingCheck []).applyHalts s.halt)
  refine ⟨by simp [hend, State.useConfig], hsettings, hcheck, fun stop hv => ?_, fun hv => ?_⟩
  · rw [hend, hrunning stop (by simpa using hv)]
    simp [State.useConfig]
  · rw [hend, hover (by simpa using hv)]

/-- Settles O4: the scan's findings, the configuration they put in force, and the reset vent's end. -/
theorem startupScanEndPutsTheConfigurationInForce : Obligations.StartupScanEndPutsTheConfigurationInForce := by
  intro s hscan
  refine ⟨arbitrate s.endScan, rfl, ⟨by simp, fun b hb => by cases b <;> simp [Part.same] at hb ⊢⟩, ?_⟩
  have hrs : (arbitrate s.endScan).rs = s.endScan.rs := by simp
  have hcu : (arbitrate s.endScan).cu = s.endScan.cu := by simp
  have hlkc : (arbitrate s.endScan).lkc = s.endScan.lkc := by simp
  have hslots : ∀ k : Fin 16, s.scannedSlots.rs.slots[k] = (s.rs.slots[k]).scanned (s.freeCount + k.val) := fun k => by
    simp [State.scannedSlots]
  -- The configuration that the scan puts in force, with all that it brings.
  obtain ⟨cfg, source, hcfg, hfound, hnone⟩ : ∃ cfg source, s.scanConfig = s.scannedSlots.useConfig cfg source ∧
      ((s.slot 0).state = .valid ∧ (s.slot 0).mark = false → cfg = readConfig (s.slot 0).bytes ∧ source = .slot0) ∧
      (¬((s.slot 0).state = .valid ∧ (s.slot 0).mark = false) → cfg = defaultConfig ∧ source = .defaults) := by
    rw [State.scanConfig_eq]
    split
    · next h => exact ⟨_, _, rfl, fun _ => ⟨rfl, rfl⟩, fun hn => absurd h hn⟩
    · next h => exact ⟨_, _, rfl, fun hp => absurd hp h, fun _ => ⟨rfl, rfl⟩⟩
  obtain ⟨hend, hsettings, hcheck, hrunning, hover⟩ := endScan_useConfig hscan hcfg
  have hlive : (arbitrate s.endScan).rs.live = cfg := by rw [hrs, hend]
  have hsource : (arbitrate s.endScan).rs.source = source := by rw [hrs, hend]
  refine ⟨by rw [hrs, hend]; rfl, fun k => ?_, fun h => ?_, fun h => ?_, ?_, ?_, fun stop hv => ?_, fun hv => ?_⟩
  · rw [hrs, hend]
    show let x := s.rs.slots[k]; let y := s.scannedSlots.rs.slots[k]; _
    simp only [hslots, Slot.scanned, ← Slot.interrupted_iff]
    split <;> simp
  · rw [hlive, hsource]
    exact hfound h
  · rw [hlive, hsource]
    exact hnone h
  · rw [hlive]
    exact hsettings.congr (fun n => ⟨rfl, rfl⟩) fun n => by rw [State.cond_congr hcu]; exact ⟨rfl, rfl⟩
  · rw [hlive]
    exact hcheck.congr rfl rfl (by rw [hcu]) (by rw [hcu])
  · rw [hlkc, hlive]
    exact hrunning stop hv
  · rw [hlkc]
    exact hover hv

/-! ## A slot that its operation has changed, and its notice (R25, R29, R35) -/

/-- The completion that changes slot `k` by `g` and announces it. -/
def State.slotDone (k : Fin 16) (g : Slot → Slot) (s : State) : State := (s.mapSlot k g).storeDone k

section
variable {k : Fin 16} {g : Slot → Slot} {s : State}

theorem State.slotDone_slot (j : Fin 16) : (s.slotDone k g).slot j = if j = k then g (s.slot k) else s.slot j := by
  rw [State.slotDone, State.slot_congr (s := s.mapSlot k g) (by simp), State.slot_mapSlot]

theorem State.slotDone_raised : s.slotDone k g =
    (s.mapSlot k g).raise .storeDone (.storeDone k (g (s.slot k)).state (g (s.slot k)).reason (g (s.slot k)).digest) := by
  have hslot : (s.mapSlot k g).slot k = g (s.slot k) := by rw [State.slot_mapSlot, if_pos rfl]
  rw [State.slotDone, State.storeDone]
  simp only [hslot]

/-- A completion touches its slot and the line (R25, R29). -/
theorem slotDone_done : OnlyChanges [.lp, .rs] s (arbitrate (s.slotDone k g)) ∧ HoldingKept s (arbitrate (s.slotDone k g)) ∧
    (arbitrate (s.slotDone k g)).slot k = g (s.slot k) ∧ OtherSlotsKept k s (arbitrate (s.slotDone k g)) ∧
    (arbitrate (s.slotDone k g)).rs.live = s.rs.live ∧ (arbitrate (s.slotDone k g)).rs.source = s.rs.source ∧
    (arbitrate (s.slotDone k g)).rs.scanning = s.rs.scanning ∧
    Announced ⟨.storeDone, .storeDone k (g (s.slot k)).state (g (s.slot k)).reason (g (s.slot k)).digest⟩ (arbitrate (s.slotDone k g)) := by
  have hslot : ∀ j, (arbitrate (s.slotDone k g)).slot j = (s.slotDone k g).slot j := State.slot_congr (by simp)
  refine ⟨⟨by simp [State.slotDone], fun b hb => by cases b <;> simp [Part.same, State.slotDone] at hb ⊢⟩, ?_, ?_, fun j hj => ?_, ?_, ?_, ?_, ?_⟩
  · simp [HoldingKept, State.slotDone]
  · rw [hslot, State.slotDone_slot, if_pos rfl]
  · exact (hslot j).trans (by rw [State.slotDone_slot, if_neg hj]; rfl)
  · simp [State.slotDone]
  · simp [State.slotDone]
  · simp [State.slotDone]
  · rw [State.slotDone_raised]
    exact (NoticesKept.refl (K := fun key => key = .storeDone) _).announced rfl

end

theorem State.completeErase_erasing {k : Fin 16} {s : State} (hscan : s.rs.scanning = false) (h : (s.slot k).state = .erasing) :
    s.completeErase k = s.slotDone k fun x => { x with
      bytes := [], garbled := none, state := .blank, reason := none, written := 0, digest := none, mark := false } :=
  if_pos ⟨h, by simp [hscan]⟩

theorem State.completeErase_idle {k : Fin 16} {s : State} (h : (s.slot k).state ≠ .erasing) : s.completeErase k = s :=
  if_neg fun hn => h hn.1

theorem State.completeClose_idle {k : Fin 16} {s : State} (h : (s.slot k).state ≠ .closing) : s.completeClose k = s :=
  if_neg fun hn => h hn.1

/-- The close of a recipe slot, or of a slot 0 whose image fails (R29, R33). -/
theorem State.completeClose_alone {k : Fin 16} {s : State} (hscan : s.rs.scanning = false) (h : (s.slot k).state = .closing)
    (hk : k = 0 → (imageReason k (s.slot k)).isNone = false) : s.completeClose k = s.slotDone k (Slot.closed k) := by
  have hrest : ¬(k = 0 ∧ ((s.slotDone k (Slot.closed k)).slot 0).state = .valid) := by
    rintro ⟨rfl, hvalid⟩
    rw [State.slotDone_slot, if_pos rfl] at hvalid
    simp [Slot.closed, hk rfl] at hvalid
  rw [State.completeClose, if_pos ⟨h, by simp [hscan]⟩]
  exact if_neg hrest

/-- The close of a slot 0 whose image passes puts it in force (R33). -/
theorem State.completeClose_config {s : State} (hscan : s.rs.scanning = false) (h : (s.slot 0).state = .closing)
    (hpass : configReason (s.slot 0).bytes (s.slot 0).written = none) : s.completeClose 0 =
      (((s.slotDone 0 (Slot.closed 0)).useConfig (readConfig (s.slot 0).bytes) .slot0).takingCheck []).applyHalts s.halt := by
  have hclosed : (s.slotDone 0 (Slot.closed 0)).slot 0 = Slot.closed 0 (s.slot 0) := by rw [State.slotDone_slot, if_pos rfl]
  have hvalid : ((s.slotDone 0 (Slot.closed 0)).slot 0).state = .valid := by
    rw [hclosed]
    simp [Slot.closed, imageReason, hpass]
  have hbytes : ((s.slotDone 0 (Slot.closed 0)).slot 0).bytes = (s.slot 0).bytes := by rw [hclosed]; rfl
  rw [State.completeClose, if_pos ⟨h, by simp [hscan]⟩, ← hbytes]
  exact if_pos ⟨rfl, hvalid⟩

/-- Settles O14: each completion changes its slot and announces it; the close of a slot 0 that passes is followed by its configuration and
the taking check, which raise no STORE_DONE notice. -/
theorem storeOperationsComplete : Obligations.StoreOperationsComplete := by
  refine ⟨fun k s hscan => ⟨fun he => ?_, fun he => ?_, fun hk hc => ?_, fun hc => ?_⟩, fun s hscan hc => ?_⟩
  · refine ⟨arbitrate (s.completeErase k), rfl, ?_⟩
    rw [State.completeErase_erasing hscan he]
    obtain ⟨hchanges, hholding, hslot, hothers, hlive, hsource, -, hannounced⟩ := slotDone_done (s := s) (k := k) (g := fun x => { x with
      bytes := [], garbled := none, state := .blank, reason := none, written := 0, digest := none, mark := false })
    refine ⟨hchanges, hholding, hslot, fun off => ?_, hothers, hlive, hsource, hannounced⟩
    rw [hslot]
    rfl
  · exact congrArg finish (State.completeErase_idle he)
  · refine ⟨arbitrate (s.completeClose k), rfl, ?_⟩
    rw [State.completeClose_alone hscan hc fun h0 => absurd h0 hk]
    obtain ⟨hchanges, hholding, hslot, hothers, hlive, hsource, -, hannounced⟩ := slotDone_done (s := s) (k := k) (g := Slot.closed k)
    have hwhy : imageReason k (s.slot k) = recipeReason (s.slot k).bytes (s.slot k).written := if_neg hk
    refine ⟨hchanges, hholding, hothers, hlive, hsource, ?_⟩
    simp only [Slot.closed, hwhy, Option.isNone_iff_eq_none] at hslot hannounced
    exact ⟨hslot, hannounced⟩
  · exact congrArg finish (State.completeClose_idle hc)
  · have hwhy : imageReason 0 (s.slot 0) = configReason (s.slot 0).bytes (s.slot 0).written := rfl
    obtain ⟨hchanges, -, hslot, hothers, hlive, hsource, hscanning, hannounced⟩ := slotDone_done (s := s) (k := 0) (g := Slot.closed 0)
    cases hreason : configReason (s.slot 0).bytes (s.slot 0).written with
    | none =>
      refine ⟨arbitrate (s.completeClose 0), rfl, ?_⟩
      have hend := State.completeClose_config hscan hc hreason
      have hrs : (arbitrate (s.completeClose 0)).rs =
          { (s.slotDone 0 (Slot.closed 0)).rs with live := readConfig (s.slot 0).bytes, source := .slot0 } := by
        simp [hend, State.useConfig]
      have hslots : ∀ j, (arbitrate (s.completeClose 0)).slot j = (s.slotDone 0 (Slot.closed 0)).slot j := fun j => by
        rw [State.slot, hrs]
        rfl
      have hclosed : Slot.closed 0 (s.slot 0) = { s.slot 0 with
          state := .valid, reason := none, mark := false
          digest := some (crc32 ((s.slot 0).bytes.readAll 0 (s.slot 0).written)) } := by
        simp [Slot.closed, hwhy, hreason]
      obtain ⟨hsettings, hcheck⟩ := useConfig_checked (readConfig (s.slot 0).bytes) .slot0 (s := s) (u := s.slotDone 0 (Slot.closed 0))
        (v := arbitrate (s.completeClose 0)) (by simp [State.slotDone]) (by simp [State.slotDone]) (by simp [hend])
      refine ⟨fun j hj => ?_, ?_, fun _ => ⟨⟨by simp, fun b hb => by cases b <;> simp [Part.same] at hb ⊢⟩, ?_, ?_, ?_, hsettings, ?_, hcheck⟩,
        fun why h => absurd h (by simp [hreason])⟩
      · exact (hslots j).trans (by rw [State.slotDone_slot, if_neg hj]; rfl)
      · rw [hrs]
        simpa [State.slotDone] using hscan
      · rw [hslots, State.slotDone_slot, if_pos rfl, hclosed]
      · rw [hrs]
      · rw [hrs]
      · have hkept : NoticesKept (fun key => key = .storeDone) (s.slotDone 0 (Slot.closed 0)) (s.completeClose 0) := by
          have hhalt : ((s.slotDone 0 (Slot.closed 0)).useConfig (readConfig (s.slot 0).bytes) .slot0).halt = s.halt :=
            State.halt_congr (by simp [State.useConfig, State.slotDone])
          rw [hend, ← hhalt]
          exact (NoticesKept.of_notices (by simp)).trans (NoticesKept.checked (by simp) (by simp) (by simp) _)
        rw [State.slotDone_raised, hclosed] at hkept
        exact hkept.announced rfl
    | some why =>
      refine ⟨arbitrate (s.completeClose 0), rfl, ?_⟩
      rw [State.completeClose_alone hscan hc fun _ => by simp [hwhy, hreason]]
      refine ⟨hothers, by rw [hscanning]; exact hscan, fun h => absurd h (by simp [hreason]), fun why' h => ?_⟩
      obtain rfl : why = why' := Option.some.inj (hreason.symm.trans h)
      have hclosed : Slot.closed 0 (s.slot 0) = { s.slot 0 with
          state := .invalid, reason := some why, mark := false
          digest := some (crc32 ((s.slot 0).bytes.readAll 0 (s.slot 0).written)) } := by
        simp [Slot.closed, hwhy, hreason]
      rw [hclosed] at hslot hannounced
      exact ⟨hchanges, hslot, hlive, hsource, hannounced⟩

end Sys2Proof.Machine
end

