-- ==== Sys2Proof/Proofs/ReportRelease.lean ====
section
/-! REPORT_RELEASE: the head of the report queue and the record that it frees (R17, R22, R154). -/

namespace Sys2Proof.Machine

theorem mem_raise_self (key : NoticeKey) (content : NoticeContent) (s : State) : ⟨key, content⟩ ∈ (s.raise key content).lp.notices :=
  mem_putNotice_self _ _

theorem mem_raise_of_ne {n : Notice} {key : NoticeKey} {s : State} (h : n ∈ s.lp.notices) (hk : n.key ≠ key) (content : NoticeContent) :
    n ∈ (s.raise key content).lp.notices := mem_putNotice_of_ne h hk

/-- The machine with the report at the head of the queue released (R154). -/
def State.released (rest : List Nat) (i : Fin 8) (r : UnitRecord) (s : State) : State :=
  ((((s.setReports rest).setUt { s.ut with records := s.ut.records.set i none }).mapSlot r.slot fun x => { x with inUse := x.inUse - 1 }).raise
    (.unit i) (.unit r.id none r.abort s.now)).reportNotice

theorem takeReportRelease_head {id : Nat} {rest : List Nat} {i : Fin 8} {r : UnitRecord} {s : State} (hq : s.reports = id :: rest)
    (h : CarriesId id i r s) : takeReportRelease id s =
      (s.released rest i r, answer .ok (codeByte rest.length :: leBytes 2 (rest.head?.getD 0))) := by
  have hfree : (s.setReports rest).freeId id = ((((s.setReports rest).setUt { s.ut with records := s.ut.records.set i none }).mapSlot r.slot
      fun x => { x with inUse := x.inUse - 1 }).raise (.unit i) (.unit r.id none r.abort s.now)) := by
    rw [State.freeId, show (s.setReports rest).ut = s.ut from rfl, h.find]
    simp only [State.freeUnit]
    rw [show (s.setReports rest).ut.records[i] = some r from h.1]
    rfl
  have hreports : (s.released rest i r).reports = rest := by simp [State.released]
  rw [takeReportRelease, hq]
  simp only [if_true, hfree]
  rw [← State.released, hreports]

theorem takeReportRelease_absent {id : Nat} {s : State} (h : id ∉ s.reports) : takeReportRelease id s = (s, refuse .notFound) := by
  unfold takeReportRelease
  split
  · rfl
  · next head rest hq =>
    rw [hq, List.mem_cons, not_or] at h
    obtain ⟨hhead, hrest⟩ := h
    rw [if_neg (Ne.symm hhead)]
    simp [hrest]

theorem takeReportRelease_elsewhere {id head : Nat} {rest : List Nat} {s : State} (hq : s.reports = head :: rest) (hne : id ≠ head)
    (h : id ∈ rest) : takeReportRelease id s = (s, refuse .wrongReport) := by
  rw [takeReportRelease, hq]
  simp [Ne.symm hne, h]

/-- Settles O24: the id at the head, elsewhere in the queue, or in none of its places. -/
theorem reportReleaseFreesTheHead : Obligations.ReportReleaseFreesTheHead := by
  intro tag id s hl
  refine ⟨fun habsent => ?_, fun head rest hq hne hmem => ?_, fun rest i r hq hid => ?_⟩
  · exact exec_answers_of_take (cmd := .reportRelease id.toNat) rfl rfl hl rfl (by simp [bodyLimits, within]) (takeReportRelease_absent habsent)
  · exact exec_answers_of_take (cmd := .reportRelease id.toNat) rfl rfl hl rfl (by simp [bodyLimits, within])
      (takeReportRelease_elsewhere hq hne hmem)
  · obtain ⟨t, ht, hserved⟩ := exec_serves (c := .reportRelease tag id) rfl rfl hl rfl (by simp [bodyLimits, within])
    set u := s.headed ⟨0x19, tag, leBytes 2 id.toNat⟩ with hu
    rw [take, takeReportRelease_head (s := u) hq hid] at hserved
    have hut : t.ut = { s.ut with records := s.ut.records.set i none } := by
      rw [hserved.ut]
      simp [State.released, hu]
    have hslot : ∀ k, t.slot k = if k = r.slot then { s.slot r.slot with inUse := (s.slot r.slot).inUse - 1 } else s.slot k := fun k => by
      rw [State.slot_congr (s := ((u.setReports rest).mapSlot r.slot fun x => { x with inUse := x.inUse - 1 })) (by
        rw [hserved.rs]
        simp [State.released]
        rfl), State.slot_mapSlot]
      rfl
    refine ⟨t, ht, ?_, hserved.answered, ?_, ?_, fun j hj => ?_, ?_, ?_, ?_, ?_, fun k hk => ?_, ?_, ?_⟩
    · exact hserved.onlyChanges (by decide) fun b hb => by cases b <;> simp [Part.same, State.released, hu] at hb ⊢
    · rw [hserved.reports]
      simp [State.released]
    · simp [hut]
    · simp only [hut]
      simp [Vector.getElem_set, Fin.val_ne_of_ne (Ne.symm hj)]
    · rw [hut]
    · rw [hut]
    · rw [hut]
    · rw [hslot, if_pos rfl]
    · exact (hslot k).trans (if_neg hk)
    · refine .inl ?_
      rw [hserved.notices]
      exact mem_raise_of_ne (mem_raise_self _ _ _) (by simp) _
    · refine .inl ?_
      rw [hserved.notices]
      exact mem_raise_self _ _ _

end Sys2Proof.Machine
end

