-- ==== Sys2Proof/Proofs/ChamberTimers.lean ====
section
/-! The fill arbiter and the phase timers of the chambers: a grant, the reset vent's end, the fill timeout, the settle time and the measure
time (R108, R110, R112, R114, R119, R120, R125). -/

namespace Sys2Proof.Machine

/-! ## The arbiter (R108) -/

/-- Where one of its conditions fails, the arbiter's check changes nothing (R108). -/
theorem State.checkGrant_refuses {s : State}
    (h : s.lkc.queue = [] ∨ (∃ c, (s.chamber c).phase = .fill) ∨ s.halt.leak = true ∨ s.lkc.resetVent ≠ .over) : s.checkGrant = s := by
  unfold State.checkGrant
  split
  · rfl
  · next c rest hq =>
    refine if_neg fun ⟨hfree, hhalt, hvent⟩ => ?_
    rcases h with h | ⟨d, hd⟩ | h | h
    · simp [hq] at h
    · have hnone : ∀ c, (s.chamber c).phase ≠ .fill := by simpa [State.supplyFree] using hfree
      exact hnone d hd
    · exact hhalt h
    · exact h hvent

theorem onlyChanges_checkGrant (s : State) : OnlyChanges [.lkc] s s.checkGrant :=
  ⟨by simp, fun b hb => by cases b <;> simp [Part.same] at hb ⊢⟩

theorem onlyChanges_setChamber (c : Fin 4) (x : Chamber) (s : State) : OnlyChanges [.lkc] s (s.setChamber c x) :=
  ⟨by simp, fun b hb => by cases b <;> simp [Part.same] at hb ⊢⟩

/-- An event that leaves the line to the arbiter, and its other parts as it stood but for `bs`. -/
theorem arbitrate_leaves {bs : List Part} {s t : State} (h : OnlyChanges bs s t) (hl : t.lp = s.lp) :
    OnlyChanges (.lp :: bs) s (arbitrate t) ∧ LineLeftToArbiter s (arbitrate t) :=
  ⟨(h.trans (onlyChanges_arbitrate t)).mono fun b hb => by simpa [or_comm] using hb, lineLeftToArbiter_of_lp hl⟩

/-! ## FILL_GRANT and RESET_VENT_END (R108, R125) -/

theorem State.resetVentEnd_idle {s : State} (h : s.lkc.resetVent = .over ∨ s.lkc.resetVent = .running none) : s.resetVentEnd = s := by
  unfold State.resetVentEnd
  rcases h with h | h <;> rw [h]

/-- The machine with its reset vent over. -/
def State.ventOver (s : State) : State := s.setLkc { s.lkc with resetVent := .over }

theorem State.resetVentEnd_running {stop : Nat} {s : State} (h : s.lkc.resetVent = .running (some stop)) :
    s.resetVentEnd = (s.elapseTo stop).ventOver.checkGrant := by
  unfold State.resetVentEnd
  rw [h]
  rfl

/-- Settles O41: the arbiter's check as it grants and as it refuses, alone and after the reset vent's end. -/
theorem arbiterGrantsTheHeadOfTheQueue : Obligations.ArbiterGrantsTheHeadOfTheQueue := by
  intro s
  refine ⟨fun h => congrArg finish (State.checkGrant_refuses h), fun c rest hq hf hl hv => ?_,
    fun h => congrArg finish (State.resetVentEnd_idle h), fun stop hstop => ?_⟩
  · obtain ⟨hfill, hrest⟩ := State.checkGrant_grants hq hf hl hv
    obtain ⟨hparts, hline⟩ := arbitrate_leaves (onlyChanges_checkGrant s) (by simp)
    have hlkc : (arbitrate s.checkGrant).lkc = s.checkGrant.lkc := by simp
    have hchamber := State.chamber_congr hlkc
    have hvent : (arbitrate s.checkGrant).lkc.resetVent = .over := by rw [hlkc]; simpa using hv
    refine ⟨_, rfl, hparts, hline, by rw [hchamber, hfill], fun d hd => ?_, by rw [hlkc, hrest], hvent, ?_, ?_⟩
    · exact (hchamber d).trans (State.chamber_checkGrant_ne (by simp [hq, Ne.symm hd]))
    · simp [State.fillLine, hchamber, hfill]
    · simp [State.ventLine, hchamber, hfill, hv]
  · obtain ⟨hparts, hline⟩ := arbitrate_leaves (s := s.elapseTo stop) (t := s.resetVentEnd) (bs := [.lkc]) (by
        rw [State.resetVentEnd_running hstop]
        exact ⟨by simp [State.ventOver], fun b hb => by cases b <;> simp [Part.same, State.ventOver] at hb ⊢⟩) (by
        rw [State.resetVentEnd_running hstop]
        simp [State.ventOver])
    have hlkc : (arbitrate s.resetVentEnd).lkc = (s.elapseTo stop).ventOver.checkGrant.lkc := by simp [State.resetVentEnd_running hstop]
    have hchamber := State.chamber_congr hlkc
    refine ⟨_, rfl, hparts, hline, by rw [hlkc]; simp [State.ventOver], fun hn => ?_, fun c rest hq hf hl => ?_⟩
    · have hnone : (s.elapseTo stop).ventOver.checkGrant = (s.elapseTo stop).ventOver :=
        State.checkGrant_refuses (hn.imp (fun h => h) fun h => .inr (.inl h))
      rw [hlkc, hnone]
      rfl
    · obtain ⟨hfill, hrest⟩ := State.checkGrant_grants (s := (s.elapseTo stop).ventOver) hq
        (fun d => by rw [show ((s.elapseTo stop).ventOver.chamber d).phase = _ from (State.chamber_elapseTo stop d s).1]; exact hf d) hl rfl
      refine ⟨by rw [hchamber, hfill]; rfl, by rw [hlkc, hrest], fun d hd => ?_⟩
      rw [hchamber, State.chamber_checkGrant_ne (by simp [State.ventOver, hq, Ne.symm hd])]
      rfl

/-! ## The phase timers -/

theorem State.phaseTimer_none {p : ChamberPhase} {c : Fin 4} {s : State} (h : (s.chamber c).phase ≠ p ∨ (s.chamber c).timer = none) :
    s.phaseTimer p c = none := by
  unfold State.phaseTimer
  rcases h with h | h <;> simp [h]

theorem State.phaseTimer_some {p : ChamberPhase} {c : Fin 4} {left : Nat} {s : State} (hp : (s.chamber c).phase = p)
    (ht : (s.chamber c).timer = some left) : s.phaseTimer p c = some left := by rw [State.phaseTimer, if_pos hp, ht]

theorem State.elapseMs_clock (ms : Nat) (s : State) : (s.elapseMs ms).clockUs = s.clockUs + 1000 * ms := rfl

/-! ## FILL_TIMEOUT (R110, R118, R119) -/

/-- A GROSS attempt is counted with verdict FAIL and no figures (R110, R118). -/
theorem ChamberResult.count_gross (retries : Nat) (x : ChamberResult) : x.count retries (.bare .gross) =
    { x with attempts := x.attempts + 1, outcome := some .gross, q := none, d := none, tMs := none, verdict := some .fail } := rfl

/-- A GROSS attempt of chamber `c` in record `r` (R110). -/
def UnitRecord.grossAt (c : Fin 4) (r : UnitRecord) : UnitRecord :=
  { r with leak := { r.leak with chambers := r.leak.chambers.set c { r.leak.chambers[c] with
    attempts := (r.leak.chambers[c]).attempts + 1, outcome := some .gross, q := none, d := none, tMs := none, verdict := some .fail } } }

/-- A GROSS attempt is counted in the LEAKING unit's record, and its chamber vents for its last time (R110, R118, R119). -/
theorem State.countAttempt_gross {c : Fin 4} {i : Fin 8} {r : UnitRecord} {s : State} (hi : IsUnitIn .leaking i r s) :
    s.countAttempt c (.bare .gross) =
      (s.setRecord i (r.grossAt c)).setChamber c ⟨.vent, some (s.chamberPlan c).vent, some .done, none⟩ := by
  have hmap : s.mapResult i c (ChamberResult.count (s.chamberPlan c).retries (.bare .gross)) = s.setRecord i (r.grossAt c) := by
    simp only [State.mapResult, State.mapUnit, hi.1, Option.map_some, State.setRecord, UnitRecord.grossAt, ChamberResult.count_gross]
  have hplan : (s.setRecord i (r.grossAt c)).chamberPlan c = s.chamberPlan c := State.setRecord_chamberPlan (r' := r.grossAt c) hi.1 rfl rfl c
  have hverdict : (s.setRecord i (r.grossAt c)).chamberVerdict i c = some .fail := by
    rw [State.chamberVerdict, State.setRecord_records, if_pos rfl]
    simp [UnitRecord.grossAt]
  simp only [State.countAttempt, hi.leaking]
  rw [hmap, State.enterVent, hplan, hverdict]
  rfl

/-- Settles O42: the attempt is counted GROSS, its chamber vents, and the supply it frees goes to the head of the queue. -/
theorem fillTimeoutCountsAGrossAttempt : Obligations.FillTimeoutCountsAGrossAttempt := by
  intro c s
  refine ⟨fun h => ?_, fun left i r hp htimer hu hi hs => ?_⟩
  · have hnone : s.fillTimeout c = s := by rw [State.fillTimeout, State.phaseTimer_none h]
    exact congrArg finish hnone
  set u := s.elapseMs left with hudef
  have hi' : IsUnitIn .leaking i r u := hi
  set v := (u.setRecord i (r.grossAt c)).setChamber c ⟨.vent, some (s.chamberPlan c).vent, some .done, none⟩ with hv
  have hend : s.fillTimeout c = v.checkGrant := by
    rw [State.fillTimeout, State.phaseTimer_some hp htimer]
    dsimp only
    rw [State.countAttempt_gross hi']
    rfl
  obtain ⟨hparts, hline⟩ := arbitrate_leaves (s := u) (t := s.fillTimeout c) (bs := [.ut, .lkc]) (by
      rw [hend]
      exact ⟨by simp [hv, State.setRecord], fun b hb => by cases b <;> simp [Part.same, hv, State.setRecord] at hb ⊢⟩) (by
      rw [hend]
      simp [hv, State.setRecord])
  have hlkc : (arbitrate (s.fillTimeout c)).lkc = v.checkGrant.lkc := by simp [hend]
  have hchamber := State.chamber_congr hlkc
  have hrecords : ∀ j, (arbitrate (s.fillTimeout c)).ut.records[j] = if j = i then some (r.grossAt c) else s.ut.records[j] := fun j => by
    rw [show (arbitrate (s.fillTimeout c)).ut = (u.setRecord i (r.grossAt c)).ut by simp [hend, hv], State.setRecord_records]
    rfl
  have hvented : ∀ d, v.chamber d = if d = c then ⟨.vent, some (s.chamberPlan c).vent, some .done, none⟩ else u.chamber d := fun d => by
    rw [hv, State.chamber_setChamber]
    rfl
  have hfree : ∀ d, (v.chamber d).phase ≠ .fill := fun d => by
    rw [hvented]
    split
    · simp
    · next hd => exact fun hf => hd (hu d (by rwa [hudef, State.chamber_elapseMs] at hf))
  have hhalt : v.halt = s.halt := rfl
  have hplan : ∀ d, v.chamberPlan d = s.chamberPlan d := fun d => State.setRecord_chamberPlan (s := u) (r' := r.grossAt c) hi.1 rfl rfl d
  refine ⟨_, _, rfl, hparts, hline, by simp [hend, hv, State.setRecord, hudef, State.elapseMs_clock], fun j hj => ?_, ?_, rfl, fun hc => ?_, fun hn => ?_, fun d rest hq hl hvent => ?_⟩
  · rw [hrecords, if_neg hj]
  · rw [hrecords, if_pos rfl]
    rfl
  · have hhead : v.lkc.queue.head? ≠ some c := fun h => hc (List.mem_of_mem_head? h)
    have hvent : (arbitrate (s.fillTimeout c)).chamber c = ⟨.vent, some (s.chamberPlan c).vent, some .done, none⟩ := by
      rw [hchamber, State.chamber_checkGrant_ne hhead, hvented, if_pos rfl]
    exact ⟨hvent, by simp [State.fillLine, hvent], by simp [State.ventLine, hvent]⟩
  · rw [hlkc, State.checkGrant_refuses (s := v) (hn.imp (fun h => h) fun h => .inr (h.imp (fun h => h) fun h => h))]
    rfl
  · obtain ⟨hfill, hrest⟩ := State.checkGrant_grants (s := v) hq hfree hl hvent
    exact ⟨by rw [hchamber, hfill, hplan], by rw [hlkc, hrest]⟩

/-! ## SETTLE_EXPIRY and MEASURE_TIMER_EXPIRY (R112, R114) -/

/-- Time moves the timer of a chamber, and nothing else of it. -/
theorem State.elapseMs_chamber (ms : Nat) (c : Fin 4) (s : State) :
    (s.elapseMs ms).chamber c = { s.chamber c with timer := ((s.elapseMs ms).chamber c).timer } := by
  rw [State.chamber, State.elapseMs, State.elapse_chamber]
  rfl

/-- What an event leaves that ends one phase of chamber `c` after its time has passed. -/
theorem setChamber_leaves (c : Fin 4) (x : Chamber) (left : Nat) (s : State) : let u := s.elapseMs left
    OnlyChanges [.lp, .lkc] u (arbitrate (u.setChamber c x)) ∧ LineLeftToArbiter u (arbitrate (u.setChamber c x)) ∧
    (arbitrate (u.setChamber c x)).clockUs = s.clockUs + 1000 * left ∧ OtherChambersKept c u (arbitrate (u.setChamber c x)) ∧
    (arbitrate (u.setChamber c x)).lkc.queue = s.lkc.queue ∧ (arbitrate (u.setChamber c x)).lkc.resetVent = s.lkc.resetVent ∧
    (arbitrate (u.setChamber c x)).chamber c = x := by
  intro u
  obtain ⟨hparts, hline⟩ := arbitrate_leaves (onlyChanges_setChamber c x u) (by simp)
  have hlkc : (arbitrate (u.setChamber c x)).lkc = (u.setChamber c x).lkc := by simp
  have hchamber := State.chamber_congr hlkc
  refine ⟨hparts, hline, by simp [u, State.elapseMs_clock], fun d hd => ?_, by rw [hlkc]; rfl, by rw [hlkc]; rfl, ?_⟩
  · exact (hchamber d).trans (by rw [State.chamber_setChamber, if_neg hd]; rfl)
  · rw [hchamber, State.chamber_setChamber, if_pos rfl]

/-- A chamber whose measure time has passed (R114). -/
def Chamber.measured (x : Chamber) (m : Measure) : Chamber := ⟨.measure, none, x.afterVent, some { m with expired := true }⟩

theorem State.measureEnd_running {c : Fin 4} {left : Nat} {m : Measure} {s : State} (hp : (s.chamber c).phase = .measure)
    (ht : (s.chamber c).timer = some left) (hm : (s.chamber c).measure = some m) :
    s.measureEnd c = ((s.elapseMs left).setChamber c ((s.chamber c).measured m)).evaluate c := by
  have hx : { (s.elapseMs left).chamber c with
      timer := none, measure := ((s.elapseMs left).chamber c).measure.map fun m => { m with expired := true } } = (s.chamber c).measured m := by
    rw [State.elapseMs_chamber]
    simp [Chamber.measured, hp, hm]
  rw [State.measureEnd, State.phaseTimer_some hp ht]
  simp only [hx]

/-- The last slot that can qualify has not ended (R114). -/
theorem State.evaluable_waits {c : Fin 4} {m : Measure} {s : State} (hm : (s.chamber c).measure = some m)
    (h : timeDiff ((BitVec.ofNat 32 s.afe.leakEnded : CellTime) * 640 + 635) m.start ≤ timeDiff m.stop m.start) :
    s.evaluable c = false := by
  have hslots : m.slotsEnded s.afe.leakEnded = false := decide_eq_false (Int.not_lt.mpr h)
  simp [State.evaluable, hm, hslots]

/-- Settles O43: the phase that each timer ends, and the evaluation that a measurement's last slot has left to its timer. -/
theorem settlingLeadsToMeasuring : Obligations.SettlingLeadsToMeasuring := by
  intro c s
  refine ⟨fun h => ?_, fun left hp ht => ?_, fun h => ?_, fun left m hp ht hm hslot => ?_, fun left m hp ht hm _ => ?_⟩
  · have hnone : s.settleEnd c = s := by rw [State.settleEnd, State.phaseTimer_none h]
    exact congrArg finish hnone
  · have hend : s.settleEnd c = (s.elapseMs left).setChamber c ⟨.measure, some (s.chamberPlan c).measure, none,
        some ⟨(s.elapseMs left).now, (s.elapseMs left).now + BitVec.ofNat 32 (s.chamberPlan c).measure, false, none, none, false⟩⟩ := by
      rw [State.settleEnd, State.phaseTimer_some hp ht]
      rfl
    refine ⟨arbitrate (s.settleEnd c), rfl, ?_⟩
    rw [hend]
    exact setChamber_leaves c _ left s
  · have hnone : s.measureEnd c = s := by rw [State.measureEnd, State.phaseTimer_none h]
    exact congrArg finish hnone
  · have hend : s.measureEnd c = (s.elapseMs left).setChamber c ((s.chamber c).measured m) := by
      rw [State.measureEnd_running hp ht hm]
      refine State.evaluate_of_not (State.evaluable_waits (m := { m with expired := true }) ?_ hslot)
      rw [State.chamber_setChamber, if_pos rfl]
      rfl
    refine ⟨arbitrate (s.measureEnd c), rfl, ?_⟩
    rw [hend]
    obtain ⟨hparts, hline, hclock, hothers, hqueue, -, hchamber⟩ := setChamber_leaves c ((s.chamber c).measured m) left s
    exact ⟨hparts, hline, hclock, hothers, hqueue, hchamber⟩
  · exact congrArg finish (State.measureEnd_running hp ht hm)

end Sys2Proof.Machine
end

