-- ==== Sys2Proof/Proofs/TransferStart.lean ====
section
/-! The transfer start, and the LEAK plan of the unit that it takes to station 2 (R12, R79). -/

namespace Sys2Proof.Machine

/-! ## A stream and its new plan (R79, R80) -/

theorem State.stream_enterWanted (st : StreamId) (s : State) :
    (s.enterWanted st).stream st = { s.stream st with state := s.wantedState st } := by
  have entered : (s.enterStream st (s.wantedState st)).stream st = { s.stream st with state := s.wantedState st } := by
    rw [State.stream_enterStream, if_pos rfl]
  unfold State.enterWanted
  dsimp only
  split
  · exact (State.stream_congr (s := s.enterStream st (s.wantedState st)) (by simp) st).trans entered
  · exact entered

theorem State.wantedState_not_waiting (st : StreamId) (s : State) : s.wantedState st ≠ .pendingPlan := by
  unfold State.wantedState
  split <;> simp

theorem State.stream_setStream_self (st : StreamId) (x : Stream) (s : State) : (s.setStream st x).stream st = x := by
  rw [State.stream_setStream, if_pos rfl]

/-- A new target plan is applied, or waits (R79, R80). -/
theorem planFollows_setTarget (st : StreamId) (p : Plan) (s : State) : PlanFollows p ((s.setTarget st p).stream st) := by
  unfold State.setTarget
  dsimp only
  split
  · next hp =>
    split
    · rw [State.stream_enterWanted, State.stream_setStream_self]
      exact .inl ⟨hp.symm, State.wantedState_not_waiting _ _⟩
    · next hw => exact .inl ⟨hp.symm, hw⟩
  · split
    · rw [State.applyPlan, State.stream_enterWanted, State.stream_setStream_self]
      exact .inl ⟨rfl, State.wantedState_not_waiting _ _⟩
    · rw [State.stream_enterStream, if_pos rfl, State.stream_setStream_self]
      exact .inr ⟨rfl, rfl⟩

theorem PlanFollows.applied_or_waiting {p : Plan} {x : Stream} (h : PlanFollows p x) :
    x.plan = p ∨ (x.state = .pendingPlan ∧ x.target = some p) := h.imp (fun h => h.1) fun h => h

theorem onlyChanges_setTarget (st : StreamId) (p : Plan) (s : State) : OnlyChanges [.lp, .cs, .cu] s (s.setTarget st p) :=
  ⟨by simp, fun b hb => by cases b <;> simp [Part.same] at hb ⊢⟩

/-! ## The check of the three conditions (R12) -/

/-- Where one of the three fails the check changes nothing. -/
theorem State.checkTransfer_stays {s : State} (h : NoUnitIn .runDone s ∨ s.halt.transfer = true ∨ ¬Station2Free s) : s.checkTransfer = s := by
  unfold State.checkTransfer
  split
  · next i hi =>
    refine if_neg fun ⟨hfree, hhalt⟩ => ?_
    rcases h with h | h | h
    · rw [h.find] at hi
      cases hi
    · exact hhalt h
    · exact h ((unit2_eq_none s).mp (Option.isNone_iff_eq_none.mp hfree))
  · rfl

/-- The machine with record `i`, which stood as `r`, on the conveyor (R12, R6). -/
def State.departed (i : Fin 8) (r : UnitRecord) (s : State) : State :=
  (s.setUt { s.ut with
    records := s.ut.records.set i (some { r with state := .inTransfer }), transferLine := true
    transferTimer := some (s.rs.live.transfer * 1000) }).raise (.unit i) (.unit r.id (some .inTransfer) r.abort s.now)

theorem State.departed_records (i j : Fin 8) (r : UnitRecord) (s : State) :
    (s.departed i r).ut.records[j] = if j = i then some { r with state := .inTransfer } else s.ut.records[j] := by
  simp only [State.departed, State.raise, State.setLp_ut, State.setUt_ut, Fin.getElem_fin, Vector.getElem_set, Fin.ext_iff, eq_comm]

theorem State.enterState_inTransfer {i : Fin 8} {r : UnitRecord} {s : State} (hi : s.ut.records[i] = some r) :
    s.runConveyor.enterState i .inTransfer = s.departed i r := by
  have hmoved : s.runConveyor.mapUnit i (fun r => { r with state := .inTransfer }) = s.setUt { s.ut with
      records := s.ut.records.set i (some { r with state := .inTransfer }), transferLine := true
      transferTimer := some (s.rs.live.transfer * 1000) } := by
    simp only [State.mapUnit, State.runConveyor, State.setUt_ut, hi, Option.map_some]
    rfl
  rw [State.enterState, hmoved, State.unitNotice]
  simp
  rfl

/-- Where all three hold the record departs, and the LEAK stream follows its recipe (R12, R79). -/
theorem State.checkTransfer_starts {i : Fin 8} {r : UnitRecord} {s : State} (hi : IsUnitIn .runDone i r s) (hh : s.halt.transfer = false)
    (hf : Station2Free s) : s.checkTransfer = (s.departed i r).setTarget .leak (s.recipeOf r).leakPlan := by
  have hunit2 : (s.departed i r).unit2 = some i := by
    refine UnitTable.find_unique (r := { r with state := .inTransfer }) (by rw [State.departed_records, if_pos rfl]) rfl fun j r' hj hr' => ?_
    by_contra hne
    rw [State.departed_records, if_neg hne] at hj
    rw [hf j r' hj] at hr'
    cases hr'
  have hrecipe : (s.departed i r).recipe2 = some (s.recipeOf r) := by
    rw [State.recipe2_of hunit2 (by rw [State.departed_records, if_pos rfl])]
    rfl
  unfold State.checkTransfer
  rw [hi.find]
  dsimp only
  rw [if_pos ⟨Option.isNone_iff_eq_none.mpr ((unit2_eq_none s).mpr hf), by simp [hh]⟩, State.enterState_inTransfer hi.1, hrecipe]

/-- What the transfer start leaves (R12, R79). -/
theorem transfer_started {i : Fin 8} {r : UnitRecord} {s t : State} (hi : IsUnitIn .runDone i r s) (hh : s.halt.transfer = false)
    (hf : Station2Free s) (ht : t = s.checkTransfer) :
    t.ut = (s.departed i r).ut ∧ PlanFollows (s.recipeOf r).leakPlan (t.stream .leak) ∧ t.cs.vib = s.cs.vib ∧ t.cs.slow = s.cs.slow ∧
    Announced ⟨.unit i, .unit r.id (some .inTransfer) r.abort s.now⟩ (arbitrate t) := by
  rw [State.checkTransfer_starts hi hh hf] at ht
  have kept : NoticesKept (fun key => key = .unit i) (s.departed i r) t := ht ▸ NoticesKept.setTarget (by simp) _ _ _
  refine ⟨by simp [ht], ht ▸ planFollows_setTarget _ _ _, ?_, ?_, kept.announced rfl⟩
  · rw [ht]
    exact State.stream_setTarget_ne (st := .leak) (st' := .vib) (by simp) _ _
  · rw [ht]
    exact State.stream_setTarget_ne (st := .leak) (st' := .slow) (by simp) _ _

/-- Settles O19: the check of R12 as one of its conditions fails and as all hold. -/
theorem transferStartsWhenItsThreeThingsHold : Obligations.TransferStartsWhenItsThreeThingsHold := by
  refine fun s => ⟨fun h => congrArg finish (State.checkTransfer_stays h), fun i r hi hh hf => ?_⟩
  obtain ⟨hut, hplan, hvib, hslow, hannounced⟩ := transfer_started hi hh hf rfl
  have hmoved : (arbitrate s.checkTransfer).ut = (s.departed i r).ut := by simp [hut]
  have hcs : (arbitrate s.checkTransfer).cs = s.checkTransfer.cs := by simp
  refine ⟨arbitrate s.checkTransfer, rfl, ⟨by simp, fun b hb => by cases b <;> simp [Part.same] at hb ⊢⟩, by simp [HoldingKept], ?_, ?_, ?_, fun j hj => ?_, ?_, hannounced, by rw [hcs, hvib], by rw [hcs, hslow], ?_⟩
  · rw [hmoved]
    rfl
  · rw [hmoved]
    rfl
  · rw [hmoved, State.departed_records, if_pos rfl]
  · rw [hmoved, State.departed_records, if_neg hj]
  · rw [hmoved]
    rfl
  · rw [State.stream_congr hcs]
    exact hplan.applied_or_waiting

end Sys2Proof.Machine
end

