-- ==== Sys2Proof/Proofs/RunDoneEntry.lean ====
section
/-! The entry to RUN_DONE: the streams, the line silence timer, and the transfer that may start at once (R11, R12, R74, R167). -/

namespace Sys2Proof.Machine

/-! ## A stream as capture is wanted for it or not (R74) -/

/-- A stream's state after a change of what is wanted. -/
def syncedState (x : StreamState) (wanted : Bool) : StreamState :=
  match x, wanted with
  | .idle, true => .running
  | .running, false | .starved, false => .idle
  | _, _ => x

theorem State.stream_syncStream (st : StreamId) (s : State) :
    (s.syncStream st).stream st = { s.stream st with state := syncedState (s.stream st).state (s.wanted st) } := by
  have entered : ∀ x, (s.enterStream st x).stream st = { s.stream st with state := x } := fun x => by
    rw [State.stream_enterStream, if_pos rfl]
  unfold State.syncStream
  cases hx : (s.stream st).state <;> cases hw : s.wanted st <;> simp only [entered, syncedState, ← hx]

/-- The streams of the time slots, after the check of what is wanted. -/
theorem State.stream_syncStreams {st : StreamId} (hst : st ≠ .vib) (s : State) :
    s.syncStreams.stream st = { s.stream st with state := syncedState (s.stream st).state (s.wanted st) } := by
  have hwanted : ∀ st' : StreamId, ∀ t : State, (t.syncStream st').wanted st = t.wanted st := fun _ _ =>
    State.wanted_congr hst (RecordsKeep.of_ut (by simp))
  have hvib : (s.syncStream .vib).stream st = s.stream st := State.stream_syncStream_ne hst s
  have hsync : s.syncStreams = ((s.syncStream .vib).syncStream .slow).syncStream .leak := rfl
  cases st with
  | vib => exact absurd rfl hst
  | slow => rw [hsync, State.stream_syncStream_ne (by simp), State.stream_syncStream, hvib, hwanted]
  | leak =>
    have hslow : ((s.syncStream .vib).syncStream .slow).stream .leak = s.stream .leak :=
      (State.stream_syncStream_ne (by simp) _).trans hvib
    rw [hsync, State.stream_syncStream, hslow, hwanted, hwanted]

/-- Where capture is not wanted the stream does not run, and it does not starve. -/
theorem syncedState_unwanted (x : StreamState) : syncedState x false ≠ .running ∧ syncedState x false ≠ .starved := by
  cases x <;> decide

/-! ## The record in RUN_DONE, before its transfer (R11) -/

/-- The machine with record `i` in RUN_DONE, before the check of the transfer start. -/
def State.runLeft (i : Fin 8) (s : State) : State := ((s.enterState i .runDone).syncStreams).disarmSilence

theorem State.checkRunDone_ended {i : Fin 8} {r : UnitRecord} {s : State} (hu : IsUnitIn .running i r s) (he : r.runIn.ended = true)
    (hw : s.oa.windows = []) : s.checkRunDone = (s.runLeft i).checkTransfer := by
  unfold State.checkRunDone
  rw [hu.find]
  dsimp only
  rw [hu.1]
  dsimp only
  rw [if_pos ⟨he, hw⟩]
  rfl

section
variable {i : Fin 8} {r : UnitRecord} {s : State} (hl : StationLaw s) (hu : IsUnitIn .running i r s)
include hu

theorem State.runLeft_ut : (s.runLeft i).ut = (s.setRecord i { r with state := .runDone }).ut := by
  have hut := (hu.enterState (v := .runDone)).1
  simpa [State.runLeft] using hut

theorem State.runLeft_records (j : Fin 8) :
    (s.runLeft i).ut.records[j] = if j = i then some { r with state := .runDone } else s.ut.records[j] := by
  rw [State.runLeft_ut hu, State.setRecord_records]

theorem State.runLeft_unit2 : (s.runLeft i).unit2 = s.unit2 :=
  (State.unit2_congr (show (s.runLeft i).ut = (s.enterState i .runDone).ut by simp [State.runLeft])).trans ((hu.enterState (v := .runDone)).2 _ rfl)

omit hu in
theorem State.runLeft_halt : (s.runLeft i).halt = s.halt := State.halt_congr (by simp [State.runLeft])

omit hu in
theorem State.notices_disarmSilence (s : State) : s.disarmSilence.lp.notices = s.lp.notices := by
  unfold State.disarmSilence
  split <;> rfl

/-- The UNIT notice of the entry stands (R6). -/
theorem State.runLeft_announces : ⟨.unit i, .unit r.id (some .runDone) r.abort s.now⟩ ∈ (s.runLeft i).lp.notices := by
  have hraised : s.enterState i .runDone =
      (s.setRecord i { r with state := .runDone }).raise (.unit i) (.unit r.id (some .runDone) r.abort s.now) := by
    rw [State.enterState, State.mapUnit_eq_setRecord hu.1, State.unitNotice, State.setRecord_self_records]
    rfl
  have hkept : NoticesKept (fun _ => True) (s.enterState i .runDone) (s.runLeft i) :=
    (NoticesKept.of_notices (by simp) : NoticesKept _ _ (s.enterState i .runDone).syncStreams).trans
      (NoticesKept.of_notices (State.notices_disarmSilence _))
  refine hkept _ ?_ trivial
  rw [hraised]
  exact mem_raise_self _ _ _

include hl

theorem State.runLeft_runDone : IsUnitIn .runDone i { r with state := .runDone } (s.runLeft i) := by
  refine ⟨by rw [State.runLeft_records hu, if_pos rfl], rfl, fun j hj r' hr' hstate => hj ?_⟩
  rw [State.runLeft_records hu, if_neg hj] at hr'
  exact (hl j i r' r hr' hu.1).1 (by rw [hstate]; rfl) (by rw [hu.2.1]; rfl)

omit hl in
/-- No other record is RUNNING, so capture of SLOW is no longer wanted (R74). -/
theorem State.runLeft_slow : ((s.runLeft i).stream .slow).state ≠ .running ∧ ((s.runLeft i).stream .slow).state ≠ .starved := by
  have hut := (hu.enterState (v := .runDone)).1
  have hwanted : (s.enterState i .runDone).wanted .slow = false := by
    show (s.enterState i .runDone).anyUnit .running = false
    rw [State.anyUnit, UnitTable.find_none fun j r' hj => ?_]
    · rfl
    · rw [hut, State.setRecord_records] at hj
      split at hj
      · cases hj
        rfl
      · next hne => exact decide_eq_false (hu.2.2 j hne r' hj)
  have hstream : (s.runLeft i).stream .slow = (s.enterState i .runDone).syncStreams.stream .slow := State.stream_congr (by simp [State.runLeft]) _
  rw [hstream, State.stream_syncStreams (by simp), hwanted]
  exact syncedState_unwanted _

end

/-! ## What the entry leaves (R11, R12, R167) -/

/-- Record `i`, which stood as `r` and RUNNING, is in RUN_DONE, or on its way where `starts`. -/
structure RunLeft (starts : Bool) (i : Fin 8) (r : UnitRecord) (s t : State) : Prop where
  others : OtherUnitsKept i s t
  record : t.ut.records[i] = some { r with state := if starts then .inTransfer else .runDone }
  line : t.ut.transferLine = (if starts then true else s.ut.transferLine)
  timer : t.ut.transferTimer = (if starts then some (s.rs.live.transfer * 1000) else s.ut.transferTimer)
  plan : starts = true → PlanFollows (s.recipeOf r).leakPlan (t.stream .leak)
  announced : Announced ⟨.unit i, .unit r.id (some (if starts then .inTransfer else .runDone)) r.abort s.now⟩ t
  slow : (t.stream .slow).state ≠ .running ∧ (t.stream .slow).state ≠ .starved
  silence : t.lp.silence = if t.anyWorking then s.lp.silence else .disarmed

/-- The line silence timer after its check (R167). -/
theorem State.silence_disarmSilence (s : State) : s.disarmSilence.lp.silence = if s.anyWorking then s.lp.silence else .disarmed := by
  unfold State.disarmSilence
  split <;> rfl

theorem State.anyWorking_congr {s t : State} (h : RecordsKeep (fun r => r.state.working) s t) : t.anyWorking = s.anyWorking :=
  congrArg Option.isSome h.find

/-- The profile's end with every window CLOSED brings RUN_DONE, and IN_TRANSFER where station 2 is free and TRANSFER not halted. -/
theorem runLeft_checkRunDone {i : Fin 8} {r : UnitRecord} {s : State} (hl : StationLaw s) (hu : IsUnitIn .running i r s)
    (he : r.runIn.ended = true) (hw : s.oa.windows = []) :
    RunLeft (!s.halt.transfer && s.unit2.isNone) i r s (arbitrate s.checkRunDone) := by
  set v := s.runLeft i with hv
  have hend : s.checkRunDone = v.checkTransfer := State.checkRunDone_ended hu he hw
  have hdone : IsUnitIn .runDone i { r with state := .runDone } v := State.runLeft_runDone hl hu
  have hhalt : v.halt = s.halt := State.runLeft_halt
  have hunit2 : v.unit2 = s.unit2 := State.runLeft_unit2 hu
  have hclock : v.now = s.now := State.now_congr (by simp [hv, State.runLeft])
  have hrs : v.rs = s.rs := by simp [hv, State.runLeft]
  have hsilence : v.lp.silence = if v.anyWorking then s.lp.silence else .disarmed := by
    have hworking : v.anyWorking = (s.enterState i .runDone).syncStreams.anyWorking := State.anyWorking_congr (RecordsKeep.of_ut (by simp [hv, State.runLeft]))
    rw [hworking, hv, State.runLeft, State.silence_disarmSilence]
    simp
  rw [hend]
  cases hstarts : (!s.halt.transfer && s.unit2.isNone) with
  | false =>
    have hstays : v.checkTransfer = v := by
      refine State.checkTransfer_stays (.inr ?_)
      rw [hhalt, ← unit2_eq_none, hunit2]
      cases ht : s.halt.transfer with
      | true => exact .inl rfl
      | false => exact .inr fun h => by simp [ht, h] at hstarts
    have hut : (arbitrate v).ut = v.ut := by simp
    rw [hstays]
    refine ⟨fun j hj => ?_, ?_, ?_, ?_, fun h => absurd h (by simp), announced_arbitrate (State.runLeft_announces hu), ?_, ?_⟩
    · rw [hut, State.runLeft_records hu, if_neg hj]
    · rw [hut, State.runLeft_records hu, if_pos rfl]
      rfl
    · rw [hut, State.runLeft_ut hu]
      rfl
    · rw [hut, State.runLeft_ut hu]
      rfl
    · rw [State.stream_congr (s := v) (by simp)]
      exact State.runLeft_slow hu
    · rw [State.anyWorking_congr (s := v) (RecordsKeep.of_ut hut)]
      simpa using hsilence
  | true =>
    obtain ⟨hfree, hnone⟩ : s.halt.transfer = false ∧ s.unit2 = none := by simpa using hstarts
    obtain ⟨hut, hplan, -, hslow, hannounced⟩ := transfer_started hdone (by rw [hhalt, hfree])
      ((unit2_eq_none v).mp (by rw [hunit2, hnone])) rfl
    have hmoved : (arbitrate v.checkTransfer).ut = (v.departed i { r with state := .runDone }).ut := by simp [hut]
    have hcs : (arbitrate v.checkTransfer).cs = v.checkTransfer.cs := by simp
    refine ⟨fun j hj => ?_, ?_, ?_, ?_, fun _ => ?_, ?_, ?_, ?_⟩
    · rw [hmoved, State.departed_records, if_neg hj, State.runLeft_records hu, if_neg hj]
    · rw [hmoved, State.departed_records, if_pos rfl]
      rfl
    · rw [hmoved]
      rfl
    · rw [hmoved, ← hrs]
      rfl
    · rw [State.stream_congr hcs]
      have : v.recipeOf { r with state := .runDone } = s.recipeOf r := by simp [State.recipeOf, hrs]
      rwa [this] at hplan
    · rw [hclock] at hannounced
      exact hannounced
    · rw [State.stream_congr hcs, show v.checkTransfer.stream .slow = v.stream .slow from hslow]
      exact State.runLeft_slow hu
    · have hworking : (arbitrate v.checkTransfer).anyWorking = v.anyWorking := State.anyWorking_congr fun j => by
        rw [hmoved, State.departed_records, State.runLeft_records hu]
        split <;> rfl
      rw [hworking]
      simpa using hsilence

theorem RunIn.ended_iff (x : RunIn) : x.ended = true ↔ x.state = .finished ∨ x.state = .failed ∨ x.state = .aborted := by
  cases hx : x.state <;> simp [RunIn.ended, hx]

/-- Before the profile has ended, and while a window is left, the record stays RUNNING (R11). -/
theorem State.checkRunDone_stays {i : Fin 8} {r : UnitRecord} {s : State} (hu : IsUnitIn .running i r s)
    (h : ¬(r.runIn.ended = true ∧ s.oa.windows = [])) : s.checkRunDone = s := by
  unfold State.checkRunDone
  rw [hu.find]
  dsimp only
  rw [hu.1]
  exact if_neg h

theorem State.checkRunDone_idle {s : State} (h : NoUnitIn .running s) : s.checkRunDone = s := by
  unfold State.checkRunDone
  rw [h.find]

/-- Settles O22: the check of R11 as it stays and as it brings RUN_DONE. -/
theorem runDoneFollowsTheProfileAndTheWindows : Obligations.RunDoneFollowsTheProfileAndTheWindows := by
  refine fun s => ⟨fun h => congrArg finish (State.checkRunDone_idle h), fun i r hu => ⟨fun h => ?_, fun he hw hl => ?_⟩⟩
  · exact congrArg finish (State.checkRunDone_stays hu (by rwa [RunIn.ended_iff]))
  · obtain ⟨others, record, line, timer, -, announced, ⟨hrun, hstarve⟩, silence⟩ := runLeft_checkRunDone hl hu ((RunIn.ended_iff _).mpr he) hw
    exact ⟨arbitrate s.checkRunDone, rfl, by simp [HoldingKept], ⟨by simp, fun b hb => by cases b <;> simp [Part.same] at hb ⊢⟩, others,
      ⟨record, line, timer, announced⟩, hrun, hstarve, silence⟩

end Sys2Proof.Machine
end

