-- ==== Sys2Proof/Proofs/UnitReport.lean ====
section
/-! The report of a unit: its overall verdict and its defects, in the order of R151 (R147 to R151). -/

namespace Sys2Proof.Machine

/-! ## The worst of several verdicts (R148) -/

theorem Verdict.worse_code (a b : Verdict) : a.code ≤ (a.worse b).code ∧ b.code ≤ (a.worse b).code ∧ (a.worse b = a ∨ a.worse b = b) := by
  cases a <;> cases b <;> decide

/-- The worst verdict is one of those given, or the first, and none is worse. -/
theorem foldl_worse (vs : List Verdict) (v : Verdict) :
    (vs.foldl Verdict.worse v = v ∨ vs.foldl Verdict.worse v ∈ vs) ∧ v.code ≤ (vs.foldl Verdict.worse v).code ∧
    ∀ x ∈ vs, x.code ≤ (vs.foldl Verdict.worse v).code := by
  induction vs generalizing v with
  | nil => exact ⟨.inl rfl, le_refl _, by simp⟩
  | cons x vs ih =>
    obtain ⟨hmem, hle, hall⟩ := ih (v.worse x)
    obtain ⟨hv, hx, heither⟩ := v.worse_code x
    rw [List.foldl_cons]
    refine ⟨?_, hv.trans hle, fun y hy => ?_⟩
    · rcases hmem with hmem | hmem
      · rcases heither with he | he
        · exact .inl (hmem.trans he)
        · exact .inr (by rw [hmem, he]; exact List.mem_cons_self ..)
      · exact .inr (List.mem_cons_of_mem _ hmem)
    · rcases List.mem_cons.1 hy with rfl | hy
      · exact hx.trans hle
      · exact hall y hy

theorem worst_spec (vs : List Verdict) : (worst vs = .pass ∨ worst vs ∈ vs) ∧ ∀ v ∈ vs, v.code ≤ (worst vs).code := by
  obtain ⟨hmem, -, hall⟩ := foldl_worse vs .pass
  exact ⟨hmem, hall⟩

/-! ## The order of the entries (R151) -/

/-- An entry of a greater key goes past those of a smaller one. -/
theorem orderedInsert_append {α : Type} (le : α → α → Prop) [DecidableRel le] (a : α) (xs ys : List α) (h : ∀ x ∈ xs, ¬le a x) :
    List.orderedInsert le a (xs ++ ys) = xs ++ List.orderedInsert le a ys := by
  induction xs with
  | nil => rfl
  | cons x xs ih =>
    obtain ⟨hx, hxs⟩ := List.forall_mem_cons.1 h
    rw [List.cons_append, List.orderedInsert, if_neg hx, ih hxs, List.cons_append]

/-- An entry goes in front of those of the same and of greater keys. -/
theorem orderedInsert_front {α : Type} (le : α → α → Prop) [DecidableRel le] (a : α) (xs : List α) (h : ∀ x ∈ xs, le a x) :
    List.orderedInsert le a xs = a :: xs := by
  cases xs with
  | nil => rfl
  | cons x xs => exact if_pos (h x (List.mem_cons_self ..))

/-- The results of window `n` stand together. -/
def resultsOf (rs : List OrderResult) (n : Nat) : List OrderResult := rs.filter fun o => decide (o.window = n)

theorem mem_resultsOf {rs : List OrderResult} {n : Nat} {o : OrderResult} (h : o ∈ resultsOf rs n) : o.window = n := by
  simpa using (List.mem_filter.1 h).2

theorem resultsOf_cons (a : OrderResult) (rs : List OrderResult) (n : Nat) :
    resultsOf (a :: rs) n = if a.window = n then a :: resultsOf rs n else resultsOf rs n := by
  simp only [resultsOf, List.filter_cons, decide_eq_true_eq]

/-- A result joins those of its own window, in front of them. -/
theorem orderedInsert_windows (a : OrderResult) (rs : List OrderResult) (ns : List Nat) (hs : ns.Pairwise (· < ·)) (ha : a.window ∈ ns) :
    List.orderedInsert (fun x y => x.window ≤ y.window) a (ns.flatMap (resultsOf rs)) = ns.flatMap (resultsOf (a :: rs)) := by
  induction ns with
  | nil => cases ha
  | cons n ns ih =>
    obtain ⟨hn, hs⟩ := List.pairwise_cons.1 hs
    have hlater : ∀ m ∈ ns, ∀ o ∈ resultsOf rs m, n < o.window := fun m hm o ho => by rw [mem_resultsOf ho]; exact hn m hm
    rw [List.flatMap_cons, List.flatMap_cons, resultsOf_cons]
    by_cases hwindow : a.window = n
    · have hrest : ns.flatMap (resultsOf (a :: rs)) = ns.flatMap (resultsOf rs) :=
        List.flatMap_congr fun m hm => by rw [resultsOf_cons, if_neg]; have := hn m hm; omega
      rw [if_pos hwindow, hrest, orderedInsert_front]
      · rfl
      · intro o ho
        rcases List.mem_append.1 ho with ho | ho
        · rw [mem_resultsOf ho, hwindow]
        · obtain ⟨m, hm, ho⟩ := List.mem_flatMap.1 ho
          have := hlater m hm o ho
          omega
    · have hmem : a.window ∈ ns := (List.mem_cons.1 ha).resolve_left hwindow
      rw [if_neg hwindow, orderedInsert_append, ih hs hmem]
      intro o ho
      have := hn _ hmem
      rw [mem_resultsOf ho]
      omega

/-- The results by window number are those of window 1, then those of window 2, and so on. -/
theorem byWindow_eq {rs : List OrderResult} (h : ∀ o ∈ rs, 1 ≤ o.window ∧ o.window ≤ 6) :
    byWindow rs = [1, 2, 3, 4, 5, 6].flatMap (resultsOf rs) := by
  induction rs with
  | nil => rfl
  | cons a rs ih =>
    obtain ⟨ha, hrs⟩ := List.forall_mem_cons.1 h
    have hinsert := orderedInsert_windows a rs [1, 2, 3, 4, 5, 6] (by decide) (by simp; omega)
    rw [← ih hrs] at hinsert
    exact hinsert

/-! ## The report part (R147) -/

theorem dragItems_eq (recipe : Recipe) (r : UnitRecord) : dragItems recipe r = dragEntry recipe r.runIn := by
  unfold dragItems dragEntry dragLimit
  cases r.runIn.dragResult <;> cases r.runIn.dragMean <;> rfl

theorem chamberItem_eq (recipe : Recipe) (r : UnitRecord) (c : Fin 4) : chamberItem recipe r c = chamberEntry recipe r.leak c := by
  unfold chamberItem chamberEntry
  dsimp only
  cases hverdict : (r.leak.chambers[c]).verdict with
  | none => rfl
  | some g => cases g <;> rfl

theorem isDefect_eq (g : Verdict) : g.isDefect = decide (g = .warn ∨ g = .incomplete ∨ g = .fail) := by
  cases g <;> rfl

/-- The graded items stand in the order of R151. -/
theorem gradedItems_eq {recipe : Recipe} {r : UnitRecord} (h : ∀ o ∈ r.noise.results, 1 ≤ o.window ∧ o.window ≤ 6) : gradedItems recipe r =
    ([1, 2, 3, 4, 5, 6].flatMap fun n => (resultsOf r.noise.results n).map noiseEntry) ++ dragEntry recipe r.runIn ++
      ([0, 1, 2, 3] : List (Fin 4)).flatMap (chamberEntry recipe r.leak) := by
  have hnoise : noiseDefect = noiseEntry := rfl
  have hchambers : chamberItem recipe r = chamberEntry recipe r.leak := funext (chamberItem_eq recipe r)
  rw [gradedItems, byWindow_eq h, hnoise, dragItems_eq, hchambers, List.map_flatMap]
  rfl

theorem assemble_isReport (recipe : Recipe) (r : UnitRecord) : IsReport recipe r (assemble recipe r) := by
  refine ⟨rfl, fun ha => if_pos ha, fun ha => ?_, fun h => ?_⟩
  · have hoverall : (assemble recipe r).overall = worst ([r.runIn.verdict, r.noise.verdict, r.leak.verdict].filterMap id) :=
      if_neg (by simp [ha])
    rw [hoverall]
    exact worst_spec _
  · have hdefects : allDefects recipe r = (([1, 2, 3, 4, 5, 6].flatMap fun n => (resultsOf r.noise.results n).map noiseEntry) ++
        dragEntry recipe r.runIn ++ ([0, 1, 2, 3] : List (Fin 4)).flatMap (chamberEntry recipe r.leak)).filter
          fun d => decide (d.grade = .warn ∨ d.grade = .incomplete ∨ d.grade = .fail) := by
      simp only [allDefects, gradedItems_eq h, isDefect_eq]
    exact ⟨congrArg (List.take 12) hdefects, congrArg (fun ds => ds.length - 12) hdefects⟩

end Sys2Proof.Machine
end

