-- ==== Sys2Proof/Proofs/UnitEnd.lean ====
section
/-! The end of a unit's test: the record in DONE with its report, the chambers at rest, the vacated LEAK plan, and the transfer that may
start then (R12, R17, R79, R124, R147, R155). -/

namespace Sys2Proof.Machine

/-! ## The record handed over (R17, R147) -/

/-- Record `r` in DONE. -/
def UnitRecord.ended (r : UnitRecord) (time : CellTime) : UnitRecord := { r with state := .done, doneTime := some time }

/-- Record `r` in DONE, with its report. -/
def UnitRecord.reported (r : UnitRecord) (recipe : Recipe) (time : CellTime) : UnitRecord :=
  { r.ended time with report := some (assemble recipe (r.ended time)) }

/-- The machine with record `i`, which stood as `r`, in DONE, the chambers at rest, and the report in the queue, before the LEAK plan is
vacated. -/
def State.handedOver (i : Fin 8) (r : UnitRecord) (s : State) : State :=
  (((((s.setRecord i (r.ended s.now)).syncStreams.restChambers).setRecord i (r.reported (s.recipeOf r) s.now)).setReports
    (s.reports ++ [r.id])).reportNotice).raise (.unit i) (.unit r.id (some .done) r.abort s.now)

/-- The machine with the LEAK plan vacated too, before the check of the transfer start. -/
def State.vacated (i : Fin 8) (r : UnitRecord) (s : State) : State := ((s.handedOver i r).setTarget .leak .vacant).disarmSilence

theorem State.enterDone_eq {i : Fin 8} {r : UnitRecord} {s : State} (hi : s.ut.records[i] = some r) :
    s.enterDone i = (s.vacated i r).checkTransfer := by
  set w := (s.setRecord i (r.ended s.now)).syncStreams.restChambers with hw
  have hrest : (s.mapUnit i fun r => { r with state := .done, doneTime := some s.now }).syncStreams.restChambers = w := by
    rw [State.mapUnit_eq_setRecord hi]
    rfl
  have hself : w.ut.records[i] = some (r.ended s.now) := by
    rw [show w.ut = (s.setRecord i (r.ended s.now)).ut by simp [hw], State.setRecord_self_records]
  have hrs : w.rs = s.rs := by simp [hw, State.setRecord]
  have hrecipe : w.recipeOf (r.ended s.now) = s.recipeOf r := by simp [State.recipeOf, hrs, UnitRecord.ended]
  have hreports : w.reports = s.reports := by simp [hw, State.setRecord]
  have hnow : w.now = s.now := State.now_congr (by simp [hw, State.setRecord])
  have hassembled : w.assembleReport i =
      ((w.setRecord i (r.reported (s.recipeOf r) s.now)).setReports (s.reports ++ [r.id])).reportNotice := by
    unfold State.assembleReport
    rw [hself]
    dsimp only
    rw [State.mapUnit_eq_setRecord hself, hrecipe, hreports]
    rfl
  have hnotice : (w.assembleReport i).unitNotice i = s.handedOver i r := by
    have hrec : (w.assembleReport i).ut.records[i] = some (r.reported (s.recipeOf r) s.now) := by
      rw [hassembled]
      simp [State.reportNotice, State.setRecord]
    rw [State.unitNotice, hrec]
    dsimp only
    rw [hassembled, State.handedOver, ← hw]
    show State.raise _ (.unit r.id (some .done) r.abort w.now) _ = _
    rw [hnow]
  rw [State.enterDone]
  simp only [hrest, hnotice]
  rfl

section
variable {i : Fin 8} {r : UnitRecord} {s : State}

theorem State.handedOver_frame (i : Fin 8) (r : UnitRecord) (s : State) :
    OnlyChanges [.lp, .ut, .cs, .lkc, .cu, .reports] s (s.handedOver i r) := by
  refine ⟨by simp [State.handedOver, State.reportNotice, State.setRecord], fun b hb => ?_⟩
  cases b <;> simp [Part.same, State.handedOver, State.reportNotice, State.setRecord] at hb ⊢

theorem State.vacated_ut : (s.vacated i r).ut = (s.setRecord i (r.reported (s.recipeOf r) s.now)).ut := by
  simp [State.vacated, State.handedOver, State.reportNotice, State.setRecord]

theorem State.vacated_records (j : Fin 8) :
    (s.vacated i r).ut.records[j] = if j = i then some (r.reported (s.recipeOf r) s.now) else s.ut.records[j] := by
  rw [State.vacated_ut, State.setRecord_records]

theorem State.vacated_halt : (s.vacated i r).halt = s.halt :=
  State.halt_congr (by simp [State.vacated, State.handedOver, State.reportNotice, State.setRecord])

theorem State.vacated_plan : PlanFollows .vacant ((s.vacated i r).stream .leak) := by
  rw [State.vacated, State.stream_congr (s := (s.handedOver i r).setTarget .leak .vacant) (by simp)]
  exact planFollows_setTarget _ _ _

/-- The notices of the hand-over stand. -/
theorem State.vacated_announces :
    ⟨.unit i, .unit r.id (some .done) r.abort s.now⟩ ∈ (s.vacated i r).lp.notices ∧
    ⟨.reportReady, .reportReady (s.reports ++ [r.id]).length (s.reports ++ [r.id]).head? s.now⟩ ∈ (s.vacated i r).lp.notices := by
  have kept : NoticesKept (fun key => key = .unit i ∨ key = .reportReady) (s.handedOver i r) (s.vacated i r) :=
    (NoticesKept.setTarget (by simp) _ _ _).trans (NoticesKept.of_notices (State.notices_disarmSilence _))
  have hnow : ((((s.setRecord i (r.ended s.now)).syncStreams.restChambers).setRecord i (r.reported (s.recipeOf r) s.now)).setReports
      (s.reports ++ [r.id])).now = s.now := State.now_congr (by simp [State.setRecord])
  have hready : ⟨.reportReady, .reportReady (s.reports ++ [r.id]).length (s.reports ++ [r.id]).head? s.now⟩ ∈
      (((((s.setRecord i (r.ended s.now)).syncStreams.restChambers).setRecord i (r.reported (s.recipeOf r) s.now)).setReports
        (s.reports ++ [r.id])).reportNotice).lp.notices := by
    have := mem_raise_self .reportReady (.reportReady (s.reports ++ [r.id]).length (s.reports ++ [r.id]).head? s.now)
      ((((s.setRecord i (r.ended s.now)).syncStreams.restChambers).setRecord i (r.reported (s.recipeOf r) s.now)).setReports
        (s.reports ++ [r.id]))
    rw [State.reportNotice, hnow]
    simpa using this
  exact ⟨kept _ (mem_raise_self _ _ _) (.inl rfl), kept _ (mem_raise_of_ne hready (by simp) _) (.inr rfl)⟩

/-- After a unit at station 2 is DONE the station is free (R5). -/
theorem State.vacated_free (hl : StationLaw s) (hi : s.ut.records[i] = some r) (h2 : r.state.atStation2 = true) :
    Station2Free (s.vacated i r) := by
  intro j q hj
  rw [State.vacated_records] at hj
  split at hj
  · cases hj
    rfl
  · next hne =>
    by_contra hq
    exact hne ((hl j i q r hj hi).2 (by simpa using hq) h2)

/-- A unit that waits at station 1 waits still. -/
theorem State.vacated_waiting {j : Fin 8} {q : UnitRecord} (hi : s.ut.records[i] = some r) (h2 : r.state.atStation2 = true)
    (hq : IsUnitIn .runDone j q s) : IsUnitIn .runDone j q (s.vacated i r) := by
  obtain ⟨hj, hstate, hunique⟩ := hq
  have hne : j ≠ i := fun e => by
    subst e
    rw [hi] at hj
    cases hj
    rw [hstate] at h2
    cases h2
  refine ⟨by rw [State.vacated_records, if_neg hne]; exact hj, hstate, fun k hk q' hk' => ?_⟩
  rw [State.vacated_records] at hk'
  split at hk'
  · cases hk'
    simp [UnitRecord.reported, UnitRecord.ended]
  · exact hunique k hk q' hk'

end

/-! ## What the end of a unit's test leaves -/

/-- Record `i`, which stood as `r`, is DONE with its report, and all that follows of it (R12, R17, R79, R124, R147, R155). -/
structure UnitEnded (i : Fin 8) (r : UnitRecord) (s t : State) : Prop where
  changes : OnlyChanges [.lp, .ut, .cs, .lkc, .cu, .reports] s t
  holding : HoldingKept s t
  record : t.ut.records[i] = some (r.reported (s.recipeOf r) s.now)
  reports : t.reports = s.reports ++ [r.id]
  chambers : ∀ c, t.chamber c = ⟨.idle, none, none, none⟩
  queue : t.lkc.queue = []
  resetVent : t.lkc.resetVent = s.lkc.resetVent
  unitNotice : ⟨.unit i, .unit r.id (some .done) r.abort s.now⟩ ∈ t.lp.notices
  reportNotice : ⟨.reportReady, .reportReady t.reports.length t.reports.head? s.now⟩ ∈ t.lp.notices
  none_waits : NoUnitIn .runDone s ∨ s.halt.transfer = true → OtherUnitsKept i s t ∧ PlanFollows .vacant (t.stream .leak)
  waiting : StationLaw s → r.state.atStation2 = true → s.halt.transfer = false → ∀ (j : Fin 8) (q : UnitRecord),
    IsUnitIn .runDone j q s → t.ut.records[j] = some { q with state := .inTransfer } ∧ t.ut.transferLine = true ∧
      PlanFollows (s.recipeOf q).leakPlan (t.stream .leak)

/-- A transfer start raises the UNIT notice of the record that waits alone. -/
theorem NoticesKept.checkTransfer_of {K : NoticeKey → Prop} (hst : ∀ st, ¬K (.stream st)) {s : State}
    (hu : ∀ j : Fin 8, ∀ q : UnitRecord, s.ut.records[j] = some q → q.state = .runDone → ¬K (.unit j)) : NoticesKept K s s.checkTransfer := by
  unfold State.checkTransfer
  split
  · next j hj =>
    split
    · obtain ⟨q, hq, hstate⟩ := UnitTable.find_some hj
      have moved := (of_notices rfl : NoticesKept K s s.runConveyor).trans (enterState (hu j q hq (by simpa using hstate)) .inTransfer _)
      dsimp only
      split
      · exact moved.trans (setTarget hst _ _ _)
      · exact moved
    · exact refl s
  · exact refl s

theorem State.checkTransfer_record {i : Fin 8} {r : UnitRecord} {s : State} (hi : s.ut.records[i] = some r) (hr : r.state ≠ .runDone) :
    s.checkTransfer.ut.records[i] = some r := by
  unfold State.checkTransfer
  split
  · next j hj =>
    obtain ⟨q, hq, hstate⟩ := UnitTable.find_some hj
    have hne : i ≠ j := fun e => by
      subst e
      rw [hi] at hq
      cases hq
      exact hr (by simpa using hstate)
    have hmoved : (s.runConveyor.enterState j .inTransfer).ut.records[i] = some r := by
      rw [State.enterState_ut, State.records_mapUnit_ne hne]
      exact hi
    split
    · dsimp only
      split
      · simpa using hmoved
      · exact hmoved
    · exact hi
  · exact hi

theorem unitEnded_enterDone {i : Fin 8} {r : UnitRecord} {s : State} (hi : s.ut.records[i] = some r) : UnitEnded i r s (s.enterDone i) := by
  set v := s.vacated i r with hv
  have hend : s.enterDone i = v.checkTransfer := State.enterDone_eq hi
  have hself : v.ut.records[i] = some (r.reported (s.recipeOf r) s.now) := by rw [hv, State.vacated_records, if_pos rfl]
  have hdone : (r.reported (s.recipeOf r) s.now).state ≠ .runDone := by simp [UnitRecord.reported, UnitRecord.ended]
  have hlkc : v.checkTransfer.lkc = ((s.setRecord i (r.ended s.now)).syncStreams.restChambers).lkc := by
    simp [hv, State.vacated, State.handedOver, State.reportNotice, State.setRecord]
  have hreports : v.checkTransfer.reports = s.reports ++ [r.id] := by
    simp [hv, State.vacated, State.handedOver, State.reportNotice]
  have hkept : NoticesKept (fun key => key = .unit i ∨ key = .reportReady) v v.checkTransfer :=
    NoticesKept.checkTransfer_of (by simp) fun j q hj hstate => by
      have hne : j ≠ i := fun e => by
        subst e
        rw [hself] at hj
        cases hj
        exact hdone hstate
      simpa using hne
  obtain ⟨hunit, hready⟩ := State.vacated_announces (i := i) (r := r) (s := s)
  rw [hend]
  have hframe := State.handedOver_frame i r s
  refine ⟨⟨by simpa [hv, State.vacated] using hframe.1, fun b hb => ?_⟩, ?_, State.checkTransfer_record hself hdone, hreports, fun c => ?_, ?_,
    ?_, hkept _ hunit (.inl rfl), ?_, fun hn => ?_, fun hl h2 hh j q hq => ?_⟩
  · have := hframe.2 b hb
    cases b <;> simp [Part.same, hv, State.vacated] at hb this ⊢ <;> exact this
  · simp [HoldingKept, hv, State.vacated, State.handedOver, State.reportNotice, State.setRecord]
  · rw [State.chamber_congr hlkc]
    simp [State.chamber, State.restChambers, Chamber.atRest]
  · rw [hlkc]
    simp [State.restChambers]
  · rw [hlkc]
    simp [State.setRecord]
  · rw [hreports]
    exact hkept _ hready (.inr rfl)
  · have hstays : v.checkTransfer = v := by
      refine State.checkTransfer_stays (hn.imp (fun hnone j q hj => ?_) fun hh => .inl (by rw [hv, State.vacated_halt]; exact hh))
      rw [hv, State.vacated_records] at hj
      split at hj
      · cases hj
        exact hdone
      · exact hnone j q hj
    rw [hstays]
    exact ⟨fun j hj => by rw [hv, State.vacated_records, if_neg hj], State.vacated_plan⟩
  · obtain ⟨hut, hplan, -⟩ := transfer_started (State.vacated_waiting hi h2 hq) (by rw [State.vacated_halt, hh]) (State.vacated_free hl hi h2)
      rfl
    refine ⟨by rw [hv, hut, State.departed_records, if_pos rfl], by rw [hv, hut]; rfl, ?_⟩
    have hrecipe : (s.vacated i r).recipeOf q = s.recipeOf q := by
      simp [State.recipeOf, State.vacated, State.handedOver, State.reportNotice, State.setRecord]
    rwa [hrecipe] at hplan

end Sys2Proof.Machine
end

