-- ==== Sys2Proof/Proofs/LeakTestEnd.lean ====
section
/-! The end of a LEAKING unit's test: when it comes, and what it leaves; UNIT_DONE and VENT_EXPIRY (R17, R108, R119, R123, R124). -/

namespace Sys2Proof.Machine

/-! ## When the test ends (R123, R124) -/

/-- Every enabled chamber is DONE with its verdict in record `r`. -/
def TestFinished (r : UnitRecord) (s : State) : Prop :=
  ∀ c, (s.chamberPlan c).enabled = true → (s.chamber c).phase = .done ∧ ((r.leak.chambers[c]).verdict).isSome = true

/-- No chamber vents. -/
def NoneVents (s : State) : Prop := ∀ c, (s.chamber c).phase ≠ .vent

theorem State.chambersDone_iff {i : Fin 8} {r : UnitRecord} {s : State} (hi : s.ut.records[i] = some r) :
    s.chambersDone i = true ↔ TestFinished r s := by
  have hverdict : ∀ c, s.chamberVerdict i c = (r.leak.chambers[c]).verdict := fun c => by
    rw [State.chamberVerdict, hi]
    rfl
  simp only [State.chambersDone, hverdict, List.all_eq_true, List.mem_finRange, forall_const, Bool.or_eq_true, Bool.not_eq_true',
    Bool.and_eq_true, decide_eq_true_eq, TestFinished]
  refine forall_congr' fun c => ?_
  cases (s.chamberPlan c).enabled <;> simp

theorem State.anyVenting_iff (s : State) : s.anyVenting = false ↔ NoneVents s := by
  simp [State.anyVenting, NoneVents]

/-- The leak section of a unit whose test has ended (R17, R123, R124). -/
def UnitRecord.testedLeak (r : UnitRecord) : LeakSection :=
  if r.abort then { r.leak with state := .aborted, verdict := some .aborted }
  else { r.leak with state := .complete, verdict := some r.leak.worstVerdict }

/-- The test has ended: after an abort once nothing vents, and else once every chamber is finished. -/
def TestOver (r : UnitRecord) (s : State) : Prop := (r.abort = true ∧ NoneVents s) ∨ (r.abort = false ∧ TestFinished r s)

theorem State.checkLeakEnd_over {i : Fin 8} {r : UnitRecord} {s : State} (hu : IsUnitIn .leaking i r s) (h : TestOver r s) :
    s.checkLeakEnd = (s.setRecord i { r with leak := r.testedLeak }).enterDone i := by
  have hmap : ∀ f, s.mapLeak i f = s.setRecord i { r with leak := f r.leak } := fun f => State.mapUnit_eq_setRecord hu.1 _
  unfold State.checkLeakEnd
  rw [hu.leaking]
  dsimp only
  rw [hu.1]
  dsimp only
  rcases h with ⟨ha, hvents⟩ | ⟨ha, hfinished⟩
  · rw [if_pos ha, if_neg (by simpa using (State.anyVenting_iff s).mpr hvents), hmap, UnitRecord.testedLeak, if_pos ha]
  · rw [if_neg (by simp [ha]), if_pos ((State.chambersDone_iff hu.1).mpr hfinished), hmap, UnitRecord.testedLeak, if_neg (by simp [ha])]

theorem State.checkLeakEnd_goes_on {i : Fin 8} {r : UnitRecord} {s : State} (hu : IsUnitIn .leaking i r s) (h : ¬TestOver r s) :
    s.checkLeakEnd = s := by
  unfold State.checkLeakEnd
  rw [hu.leaking]
  dsimp only
  rw [hu.1]
  dsimp only
  cases ha : r.abort with
  | true =>
    have hvents : s.anyVenting = true := by
      by_contra hn
      exact h (.inl ⟨ha, (State.anyVenting_iff s).mp (by simpa using hn)⟩)
    simp [hvents]
  | false =>
    have hdone : ¬s.chambersDone i = true := fun hd => h (.inr ⟨ha, (State.chambersDone_iff hu.1).mp hd⟩)
    simp [hdone]

/-! ## What the end leaves -/

/-- State `t` has record `r'` in the place of `r`, in the same unit state, and the other records of `s`. -/
structure RecordReplaced (i : Fin 8) (r r' : UnitRecord) (s t : State) : Prop where
  before : s.ut.records[i] = some r
  after : t.ut.records[i] = some r'
  others : ∀ j, j ≠ i → t.ut.records[j] = s.ut.records[j]
  state : r'.state = r.state

section
variable {i : Fin 8} {r r' : UnitRecord} {s t : State}

theorem RecordReplaced.record (h : RecordReplaced i r r' s t) {j : Fin 8} {x : UnitRecord} (hx : t.ut.records[j] = some x) :
    ∃ y, s.ut.records[j] = some y ∧ y.state = x.state := by
  by_cases he : j = i
  · subst he
    rw [h.after] at hx
    cases hx
    exact ⟨r, h.before, h.state.symm⟩
  · exact ⟨x, by rw [← h.others j he]; exact hx, rfl⟩

theorem RecordReplaced.stationLaw (h : RecordReplaced i r r' s t) (hl : StationLaw s) : StationLaw t := by
  intro a b x y hx hy
  obtain ⟨x', hx', hxs⟩ := h.record hx
  obtain ⟨y', hy', hys⟩ := h.record hy
  rw [← hxs, ← hys]
  exact hl a b x' y' hx' hy'

theorem RecordReplaced.noUnitIn (h : RecordReplaced i r r' s t) {state : UnitState} (hn : NoUnitIn state s) : NoUnitIn state t := by
  intro j x hx
  obtain ⟨y, hy, hs⟩ := h.record hx
  rw [← hs]
  exact hn j y hy

theorem RecordReplaced.isUnitIn (h : RecordReplaced i r r' s t) {state : UnitState} {j : Fin 8} {q : UnitRecord} (hr : r.state ≠ state)
    (hq : IsUnitIn state j q s) : j ≠ i ∧ IsUnitIn state j q t := by
  have hji : j ≠ i := by
    rintro rfl
    have := hq.1.symm.trans h.before
    cases this
    exact hr hq.2.1
  refine ⟨hji, by rw [h.others j hji]; exact hq.1, hq.2.1, fun k hk x hx hst => ?_⟩
  obtain ⟨y, hy, hs⟩ := h.record hx
  exact hq.2.2 k hk y hy (hs.trans hst)

end

/-- The end of record `i`, whose leak section was written in `s1`, is the end of the test seen from `u`. -/
theorem UnitEnded.testEnded {i : Fin 8} {r : UnitRecord} {u s1 t : State}
    (hrep : RecordReplaced i r { r with leak := r.testedLeak } u s1) (hleaking : r.state = .leaking)
    (hbase : OnlyChanges [.lkc, .ut] u s1) (hvent : s1.lkc.resetVent = u.lkc.resetVent)
    (h : UnitEnded i { r with leak := r.testedLeak } s1 t) : HoldingKept u (arbitrate t) ∧ TestEnded i r u (arbitrate t) := by
  obtain ⟨changes, holding, record, reports, chambers, queue, vent, hunit, hready, hnone, hwaiting⟩ := h
  have hlp : s1.lp = u.lp := hbase.2 .lp (by decide)
  have hrs : s1.rs = u.rs := hbase.2 .rs (by decide)
  have hhalt : s1.halt = u.halt := State.halt_congr (congrArg ConditionUnit.stack (hbase.2 .cu (by decide)))
  have hnow : s1.now = u.now := State.now_congr (hbase.2 .clock (by decide))
  have hrep' : s1.reports = u.reports := hbase.2 .reports (by decide)
  have hrecipe : ∀ q, s1.recipeOf q = u.recipeOf q := fun q => by simp [State.recipeOf, hrs]
  have hut : (arbitrate t).ut = t.ut := by simp
  have hlkc : (arbitrate t).lkc = t.lkc := by simp
  have hcs : ∀ st, (arbitrate t).stream st = t.stream st := fun st => State.stream_congr (s := t) (t := arbitrate t) (by simp) st
  have hr : (arbitrate t).reports = t.reports := by simp
  rw [hnow] at record hunit hready
  rw [hrecipe] at record
  refine ⟨?_, ?_, ⟨assemble (u.recipeOf r) (UnitRecord.ended { r with leak := r.testedLeak } u.now), ?_, ?_⟩, fun hl => ⟨fun hn => ?_, fun hh j q hq => ?_⟩, ?_, fun c => ?_,
    ?_, ?_, announced_arbitrate hunit, ?_⟩
  · simpa [HoldingKept, hlp] using holding
  · exact ((hbase.trans changes).trans (onlyChanges_arbitrate _)).mono (by decide)
  · rw [hut]
    exact record
  · exact assemble_isReport _ _
  · obtain ⟨hothers, hplan⟩ := hnone (hn.imp hrep.noUnitIn fun hh => by rw [hhalt]; exact hh)
    refine ⟨fun j hj => ?_, by rw [hcs]; exact hplan⟩
    rw [hut, hothers j hj, hrep.others j hj]
  · obtain ⟨-, hq1⟩ := hrep.isUnitIn (by simp [hleaking]) hq
    obtain ⟨hmoved, hline, hplan⟩ := hwaiting (hrep.stationLaw hl) (by simp [hleaking, UnitState.atStation2]) (by rw [hhalt]; exact hh) j q hq1
    rw [hrecipe] at hplan
    exact ⟨by rw [hut]; exact hmoved, by rw [hut]; exact hline, by rw [hcs]; exact hplan⟩
  · rw [hr, reports, hrep']
  · rw [State.chamber_congr hlkc]
    exact chambers c
  · rw [hlkc]
    exact queue
  · rw [hlkc, vent, hvent]
  · rw [hr]
    exact announced_arbitrate hready

/-- The end of the test of record `i`, seen from a state `u` that differs from the one it ends in by the chambers alone. -/
theorem testEnded_checkLeakEnd {i : Fin 8} {r : UnitRecord} {u s : State} (hu : IsUnitIn .leaking i r s) (h : TestOver r s)
    (hbase : OnlyChanges [.lkc] u s) (hvent : s.lkc.resetVent = u.lkc.resetVent) :
    HoldingKept u (arbitrate s.checkLeakEnd) ∧ TestEnded i r u (arbitrate s.checkLeakEnd) := by
  have hut : s.ut = u.ut := hbase.2 .ut (by decide)
  have hwritten : OnlyChanges [.ut] s (s.setRecord i { r with leak := r.testedLeak }) :=
    ⟨rfl, fun b hb => by cases b <;> simp [Part.same, State.setRecord] at hb ⊢⟩
  rw [State.checkLeakEnd_over hu h]
  exact (unitEnded_enterDone (State.setRecord_self_records i _ s)).testEnded
    ⟨by rw [← hut]; exact hu.1, State.setRecord_self_records i _ s, fun j hj => by rw [State.setRecord_records, if_neg hj, hut], rfl⟩ hu.2.1
    (hbase.trans hwritten) hvent

theorem OnlyChanges.refl (bs : List Part) (s : State) : OnlyChanges bs s s := ⟨rfl, fun b _ => by cases b <;> rfl⟩

/-- Settles O23: the check of the test's end as it goes on and as it is over. -/
theorem unitDoneAssemblesTheReport : Obligations.UnitDoneAssemblesTheReport := by
  refine fun s => ⟨fun h => ?_, fun i r hu => ⟨fun ha hv => ?_, fun ha hf => ?_, fun h => ?_⟩⟩
  · have hidle : s.checkLeakEnd = s := by
      unfold State.checkLeakEnd
      rw [State.leakingUnit, h.find]
    exact congrArg finish hidle
  · exact congrArg finish (State.checkLeakEnd_goes_on hu (by rintro (⟨-, hn⟩ | ⟨hn, -⟩); exacts [hv hn, by simp [ha] at hn]))
  · exact congrArg finish (State.checkLeakEnd_goes_on hu (by rintro (⟨hn, -⟩ | ⟨-, hn⟩); exacts [by simp [ha] at hn, hf hn]))
  · exact ⟨arbitrate s.checkLeakEnd, rfl, testEnded_checkLeakEnd hu h (OnlyChanges.refl _ s) rfl⟩

end Sys2Proof.Machine
end

