-- ==== Sys2Proof/Proofs/VentExpiry.lean ====
section
/-! VENT_EXPIRY: where a vented chamber goes, and whether its unit's test ends by that (R108, R119, R123, R124). -/

namespace Sys2Proof.Machine

/-! ## The chamber that leaves VENT (R119) -/

theorem State.joinQueue_queue (c : Fin 4) (s : State) : (s.joinQueue c).lkc.queue = s.lkc.queue ++ [c] := rfl

theorem State.chamber_joinQueue (c d : Fin 4) (s : State) :
    (s.joinQueue c).chamber d = if d = c then ⟨.waitFill, none, none, none⟩ else s.chamber d := State.chamber_setChamber c d _ s

/-- A grant takes a chamber from WAIT_FILL to FILL, and leaves every other phase. -/
theorem State.phase_checkGrant {s : State} (hw : ∀ d ∈ s.lkc.queue, (s.chamber d).phase = .waitFill) {p : ChamberPhase} (hf : p ≠ .fill)
    (hp : p ≠ .waitFill) (d : Fin 4) : (s.checkGrant.chamber d).phase = p ↔ (s.chamber d).phase = p := by
  unfold State.checkGrant
  split
  · exact Iff.rfl
  · next c rest hq =>
    split
    · rw [State.chamber_setChamber]
      split
      · next hd =>
        subst hd
        rw [hw d (by simp [hq])]
        exact iff_of_false hf.symm hp.symm
      · exact Iff.rfl
    · exact Iff.rfl

section
variable {c : Fin 4} {s : State}

/-- The phase of every chamber after chamber `c` has left VENT, but for WAIT_FILL and FILL. -/
theorem State.phase_leaveVent (hw : ∀ d ∈ s.lkc.queue, (s.chamber d).phase = .waitFill) {p : ChamberPhase} (hf : p ≠ .fill) (hp : p ≠ .waitFill)
    (hi : p ≠ .idle) (d : Fin 4) :
    ((s.leaveVent c).chamber d).phase = p ↔ (d = c ∧ (s.chamber c).afterVent = some .done ∧ p = .done) ∨ (d ≠ c ∧ (s.chamber d).phase = p) := by
  have placed : ∀ x : Chamber, ((s.setChamber c x).chamber d).phase = p ↔ (d = c ∧ x.phase = p) ∨ (d ≠ c ∧ (s.chamber d).phase = p) := fun x => by
    rw [State.chamber_setChamber]
    split <;> simp [*]
  unfold State.leaveVent
  split
  · next ha => simp [placed, ha, eq_comm]
  · next ha =>
    have hwait : ∀ e ∈ (s.joinQueue c).lkc.queue, ((s.joinQueue c).chamber e).phase = .waitFill := fun e he => by
      rw [State.chamber_joinQueue]
      split
      · rfl
      · next hne => exact hw e (by simpa [State.joinQueue_queue, hne] using he)
    rw [State.phase_checkGrant hwait hf hp, State.chamber_joinQueue]
    split <;> simp [*, hp.symm]
  · next ha => simp [placed, ha, Chamber.atRest, hi.symm]
  · next ha => simp [placed, ha, Chamber.atRest, hi.symm]

/-- Whether the test of record `r` is over once chamber `c` has left VENT (R123, R124). -/
theorem testOver_leaveVent (r : UnitRecord) (hw : ∀ d ∈ s.lkc.queue, (s.chamber d).phase = .waitFill) :
    TestOver r (s.leaveVent c) ↔ (r.abort = true → ∀ d, d ≠ c → (s.chamber d).phase ≠ .vent) ∧
      (r.abort = false → ∀ d, (s.chamberPlan d).enabled = true →
        ((d = c ∧ (s.chamber c).afterVent = some .done) ∨ (d ≠ c ∧ (s.chamber d).phase = .done)) ∧ ((r.leak.chambers[d]).verdict).isSome = true) := by
  have hplan : ∀ d, (s.leaveVent c).chamberPlan d = s.chamberPlan d := fun d => State.chamberPlan_congr (by simp) (by simp) d
  cases ha : r.abort <;>
    simp [TestOver, NoneVents, TestFinished, ha, hplan, State.phase_leaveVent (c := c) hw]

theorem onlyChanges_leaveVent (c : Fin 4) (s : State) : OnlyChanges [.lkc] s (s.leaveVent c) :=
  ⟨by simp, fun b hb => by cases b <;> simp [Part.same] at hb ⊢⟩

/-- A chamber that goes back to the queue waits where the arbiter may not grant (R108, R119). -/
theorem State.leaveVent_waits (ha : (s.chamber c).afterVent = some .requeue) (hc : (s.chamber c).phase = .vent)
    (h : s.halt.leak = true ∨ s.lkc.resetVent ≠ .over ∨ ∃ d, (s.chamber d).phase = .fill) : s.leaveVent c = s.joinQueue c := by
  unfold State.leaveVent
  rw [ha]
  refine State.checkGrant_refuses (.inr ?_)
  rcases h with h | h | ⟨d, hd⟩
  · exact .inr (.inl h)
  · exact .inr (.inr h)
  · refine .inl ⟨d, ?_⟩
    rw [State.chamber_joinQueue, if_neg (by rintro rfl; simp [hc] at hd)]
    exact hd

/-- A chamber that goes back to the queue has the head filled where the arbiter may grant (R108, R119). -/
theorem State.leaveVent_grants (ha : (s.chamber c).afterVent = some .requeue) (hl : s.halt.leak = false) (hv : s.lkc.resetVent = .over)
    (hf : ∀ d, (s.chamber d).phase ≠ .fill) {d : Fin 4} {rest : List (Fin 4)} (hq : s.lkc.queue ++ [c] = d :: rest) :
    (s.leaveVent c).chamber d = ⟨.fill, some (s.chamberPlan d).fillTimeout, none, none⟩ ∧ (s.leaveVent c).lkc.queue = rest ∧
    ∀ e, e ≠ d → (s.leaveVent c).chamber e = if e = c then ⟨.waitFill, none, none, none⟩ else s.chamber e := by
  have hleave : s.leaveVent c = (s.joinQueue c).checkGrant := by rw [State.leaveVent, ha]
  have hfree : ∀ e, ((s.joinQueue c).chamber e).phase ≠ .fill := fun e => by
    rw [State.chamber_joinQueue]
    split
    · simp
    · exact hf e
  have hqueue : (s.joinQueue c).lkc.queue = d :: rest := hq
  obtain ⟨hfill, hrest⟩ := State.checkGrant_grants hqueue hfree hl hv
  rw [hleave]
  refine ⟨hfill, hrest, fun e he => ?_⟩
  rw [State.chamber_checkGrant_ne (by simp [hqueue, Ne.symm he]), State.chamber_joinQueue]

end

/-! ## VENT_EXPIRY -/

theorem State.ventExpiry_running {c : Fin 4} {left : Nat} {s : State} (hp : (s.chamber c).phase = .vent) (ht : (s.chamber c).timer = some left) :
    s.ventExpiry c = ((s.elapseMs left).leaveVent c).checkLeakEnd := by
  rw [State.ventExpiry, State.phaseTimer_some hp ht]

theorem State.afterVent_elapseMs (ms : Nat) (c : Fin 4) (s : State) : ((s.elapseMs ms).chamber c).afterVent = (s.chamber c).afterVent := by
  rw [State.elapseMs_chamber]

/-- A vented chamber that goes to its place outside the queue. -/
theorem placed_of_leaveVent {c : Fin 4} {x : Chamber} {u t : State} (hlkc : t.lkc = (u.leaveVent c).lkc) (h : u.leaveVent c = u.setChamber c x) :
    t.chamber c = x ∧ t.lkc.queue = u.lkc.queue ∧ OtherChambersKept c u t := by
  rw [h] at hlkc
  have hchamber := State.chamber_congr hlkc
  refine ⟨by rw [hchamber, State.chamber_setChamber, if_pos rfl], by rw [hlkc]; rfl, fun d hd => ?_⟩
  exact (hchamber d).trans (by rw [State.chamber_setChamber, if_neg hd]; rfl)

/-- Settles O45: where the chamber goes by its after vent, and the end of the test where that ends it. -/
theorem ventedChamberGoesWhereItsAfterVentPoints : Obligations.VentedChamberGoesWhereItsAfterVentPoints := by
  intro c s
  refine ⟨fun h => ?_, fun left i r hp ht hi hs hw => ?_⟩
  · have hnone : s.ventExpiry c = s := by rw [State.ventExpiry, State.phaseTimer_none h]
    exact congrArg finish hnone
  intro u after finished
  have hphase : ∀ d, (u.chamber d).phase = (s.chamber d).phase := fun d => State.chamber_elapseMs left d s
  have hafter : (u.chamber c).afterVent = after := State.afterVent_elapseMs left c s
  have hwait : ∀ d ∈ u.lkc.queue, (u.chamber d).phase = .waitFill := fun d hd => by
    rw [hphase]
    exact hw d hd
  have hplan : ∀ d, u.chamberPlan d = s.chamberPlan d := fun d => rfl
  have hover : TestOver r (u.leaveVent c) ↔ finished := by
    rw [testOver_leaveVent r hwait, hafter]
    simp only [hphase, hplan]
    exact Iff.rfl
  have hleft := onlyChanges_leaveVent c u
  have hi' : IsUnitIn .leaking i r (u.leaveVent c) := IsUnitIn.congr (s := u) hi (by simp)
  have hend : exec (.ventExpiry c) s = .next (arbitrate (u.leaveVent c).checkLeakEnd) := congrArg finish (State.ventExpiry_running hp ht)
  refine ⟨_, hend, ?_⟩
  by_cases hfin : finished
  · obtain ⟨hholding, hended⟩ := testEnded_checkLeakEnd hi' (hover.mpr hfin) hleft (by simp)
    obtain ⟨hparts, -, -, -, -, -, hvent, -⟩ := id hended
    exact ⟨hholding, hparts.2 .clock (by decide), hvent, hparts, fun _ => hended, fun hn => absurd hfin hn⟩
  rw [State.checkLeakEnd_goes_on hi' (fun h => hfin (hover.mp h))]
  obtain ⟨hparts, hline⟩ := arbitrate_leaves hleft (by simp)
  have hlkc : (arbitrate (u.leaveVent c)).lkc = (u.leaveVent c).lkc := by simp
  have hchamber := State.chamber_congr hlkc
  refine ⟨by simp [HoldingKept, u], hparts.2 .clock (by decide), by simp [u], hparts.mono (by decide), fun h => absurd h hfin,
    fun _ => ⟨hparts, hline, fun ha => ?_, fun ha => ?_, fun ha hno => ?_, fun ha hl hv hf => ⟨fun hq => ?_, fun d rest hq => ?_⟩⟩⟩
  · exact placed_of_leaveVent hlkc (by rw [State.leaveVent, hafter, ha])
  · exact placed_of_leaveVent hlkc (by rw [State.leaveVent, hafter, ha]; rfl)
  · have hwaits : u.leaveVent c = u.joinQueue c := State.leaveVent_waits (hafter.trans ha) ((hphase c).trans hp)
      (hno.imp (fun h => h) (Or.imp (fun h => h) fun ⟨d, hd⟩ => ⟨d, (hphase d).trans hd⟩))
    refine ⟨by rw [hchamber, hwaits, State.chamber_joinQueue, if_pos rfl], by rw [hlkc, hwaits]; rfl, fun d hd => ?_⟩
    rw [hlkc, hwaits]
    exact (State.chamber_joinQueue c d u).trans (if_neg hd)
  · obtain ⟨hfill, hrest, hothers⟩ := State.leaveVent_grants (hafter.trans ha) hl hv (fun d => by rw [hphase]; exact hf d) (d := c) (rest := [])
      (by rw [show u.lkc.queue = [] from hq]; rfl)
    refine ⟨(hchamber c).trans hfill, by rw [hlkc, hrest], fun e he => ?_⟩
    rw [hlkc]
    exact (hothers e he).trans (if_neg he)
  · obtain ⟨hfill, hrest, hothers⟩ := State.leaveVent_grants (hafter.trans ha) hl hv (fun d => by rw [hphase]; exact hf d) (d := d)
      (rest := rest ++ [c]) (by rw [show u.lkc.queue = d :: rest from hq]; rfl)
    have hdc : c ≠ d := by
      rintro rfl
      have := hw c (by simp [hq])
      simp [hp] at this
    refine ⟨(hchamber d).trans hfill, ?_, by rw [hlkc, hrest], fun e hc hd => ?_⟩
    · rw [hchamber, hothers c hdc, if_pos rfl]
    · rw [hchamber, hothers e hd, if_neg hc]

end Sys2Proof.Machine
end

