-- ==== Sys2Proof/Proofs/LeakStart.lean ====
section
/-! The leak start decision, and the arrival at station 2 that makes it (R13, R16, R79, R107, R108). -/

namespace Sys2Proof.Machine

/-! ## The decision (R16) -/

/-- When the test of a record is skipped (R16). -/
theorem skipsLeak_iff (recipe : Recipe) (r : UnitRecord) : skipsLeak recipe r = true ↔
    r.abort = true ∨ (r.runIn.verdict = some .fail ∧ recipe.leakAfterFail = false) ∨ ∀ c : Fin 4, (recipe.chambers[c]).enabled = false := by
  simp [skipsLeak, or_assoc]

/-- Record `r` in LEAKING, with its test begun (R16). -/
def UnitRecord.inLeak (r : UnitRecord) : UnitRecord := { r with state := .leaking, leak := { r.leak with state := .inProgress } }

/-- The machine with record `i`, which stood as `r`, in LEAKING, before its chambers start. -/
def State.leakEntered (i : Fin 8) (r : UnitRecord) (s : State) : State :=
  (((s.setRecord i r.inLeak).raise (.unit i) (.unit r.id (some .leaking) r.abort s.now)).syncStreams).armSilence

section
variable {i : Fin 8} {r : UnitRecord} {s : State}

theorem State.decideLeak_skips (hi : IsUnitIn .atLeak i r s) (h : skipsLeak (s.recipeOf r) r = true) :
    s.decideLeak = (s.setRecord i { r with leak := r.leak.skip }).enterDone i := by
  unfold State.decideLeak
  rw [hi.find]
  dsimp only
  rw [hi.1]
  dsimp only
  rw [if_pos h, State.mapLeak, State.mapUnit_eq_setRecord hi.1]

theorem State.decideLeak_waits (hi : IsUnitIn .atLeak i r s) (h : ¬skipsLeak (s.recipeOf r) r = true) (hh : s.halt.leak = true) :
    s.decideLeak = s := by
  unfold State.decideLeak
  rw [hi.find]
  dsimp only
  rw [hi.1]
  dsimp only
  rw [if_neg h, if_pos hh]

theorem State.decideLeak_starts (hi : IsUnitIn .atLeak i r s) (h : ¬skipsLeak (s.recipeOf r) r = true) (hh : s.halt.leak = false) :
    s.decideLeak = (s.leakEntered i r).startChambers := by
  have hentered : (s.mapLeak i fun x => { x with state := .inProgress }).enterState i .leaking =
      (s.setRecord i r.inLeak).raise (.unit i) (.unit r.id (some .leaking) r.abort s.now) := by
    rw [State.mapLeak, State.mapUnit_eq_setRecord hi.1, State.enterState, State.mapUnit_eq_setRecord (State.setRecord_self_records i _ s),
      State.setRecord_setRecord, State.unitNotice, State.setRecord_self_records]
    rfl
  unfold State.decideLeak
  rw [hi.find]
  dsimp only
  rw [hi.1]
  dsimp only
  rw [if_neg h, if_neg (by simp [hh]), hentered]
  rfl

/-! ## The record in LEAKING -/

theorem State.leakEntered_ut : (s.leakEntered i r).ut = (s.setRecord i r.inLeak).ut := by simp [State.leakEntered]

theorem State.leakEntered_records (j : Fin 8) : (s.leakEntered i r).ut.records[j] = if j = i then some r.inLeak else s.ut.records[j] := by
  rw [State.leakEntered_ut, State.setRecord_records]

theorem onlyChanges_leakEntered (i : Fin 8) (r : UnitRecord) (s : State) : OnlyChanges [.lp, .ut, .cs, .cu] s (s.leakEntered i r) :=
  ⟨by simp [State.leakEntered, State.setRecord], fun b hb => by cases b <;> simp [Part.same, State.leakEntered, State.setRecord] at hb ⊢⟩

theorem State.notices_armSilence (s : State) : s.armSilence.lp.notices = s.lp.notices := by
  unfold State.armSilence
  split <;> rfl

/-- The UNIT notice of the entry stands (R6). -/
theorem State.leakEntered_announces : ⟨.unit i, .unit r.id (some .leaking) r.abort s.now⟩ ∈ (s.leakEntered i r).lp.notices := by
  rw [State.leakEntered, State.notices_armSilence, show ∀ t : State, t.syncStreams.lp.notices = t.lp.notices from fun t => by simp]
  exact mem_raise_self _ _ _

theorem State.silence_armSilence (s : State) :
    s.armSilence.lp.silence = if s.lp.silence = .disarmed then .running s.rs.live.silence else s.lp.silence := by
  unfold State.armSilence
  split
  · next h => rw [if_pos h]; rfl
  · next h => rw [if_neg (by simpa using h)]

theorem State.leakEntered_silence :
    (s.leakEntered i r).lp.silence = if s.lp.silence = .disarmed then .running s.rs.live.silence else s.lp.silence := by
  rw [State.leakEntered, State.silence_armSilence]
  simp [State.setRecord]

/-! ## The chambers that start (R107) -/

/-- The enabled chambers of a recipe, in order. -/
def enabledChambers (recipe : Recipe) : List (Fin 4) := (List.finRange 4).filter fun c => (recipe.chambers[c]).enabled

/-- The chambers of `cs` that a predicate names join the queue in order. -/
def State.joinAll (p : Fin 4 → Bool) (cs : List (Fin 4)) (s : State) : State := cs.foldl (fun t c => if p c then t.joinQueue c else t) s

theorem State.joinAll_queue (p : Fin 4 → Bool) (cs : List (Fin 4)) (s : State) :
    (s.joinAll p cs).lkc.queue = s.lkc.queue ++ cs.filter p := by
  induction cs generalizing s with
  | nil => simp [State.joinAll]
  | cons c cs ih =>
    have hstep : s.joinAll p (c :: cs) = (if p c then s.joinQueue c else s).joinAll p cs := rfl
    rw [hstep, ih]
    split <;> simp [State.joinQueue_queue, *]

theorem State.joinAll_chamber (p : Fin 4 → Bool) (cs : List (Fin 4)) (d : Fin 4) (s : State) :
    (s.joinAll p cs).chamber d = if d ∈ cs.filter p then ⟨.waitFill, none, none, none⟩ else s.chamber d := by
  induction cs generalizing s with
  | nil => simp [State.joinAll]
  | cons c cs ih =>
    have hstep : s.joinAll p (c :: cs) = (if p c then s.joinQueue c else s).joinAll p cs := rfl
    rw [hstep, ih]
    by_cases hp : p c = true
    · simp only [if_pos hp, State.chamber_joinQueue, List.filter_cons_of_pos hp, List.mem_cons]
      by_cases hd : d = c <;> simp [hd]
    · simp only [if_neg hp, List.filter_cons_of_neg hp]

theorem State.joinAll_others (p : Fin 4 → Bool) (cs : List (Fin 4)) (s : State) :
    OnlyChanges [.lkc] s (s.joinAll p cs) ∧ (s.joinAll p cs).lkc.resetVent = s.lkc.resetVent := by
  induction cs generalizing s with
  | nil => exact ⟨OnlyChanges.refl _ s, rfl⟩
  | cons c cs ih =>
    have hone : OnlyChanges [.lkc] s (if p c then s.joinQueue c else s) ∧ (if p c then s.joinQueue c else s).lkc.resetVent = s.lkc.resetVent := by
      split
      · exact ⟨⟨rfl, fun b hb => by cases b <;> simp [Part.same] at hb ⊢⟩, rfl⟩
      · exact ⟨OnlyChanges.refl _ s, rfl⟩
    exact ⟨(hone.1.trans (ih _).1).mono (by simp), (ih _).2.trans hone.2⟩

/-- The plans of the chambers stand as they join the queue, so all of those that a plan enables join it. -/
theorem State.startChambers_eq (s : State) :
    s.startChambers = (s.joinAll (fun c => (s.chamberPlan c).enabled) (List.finRange 4)).checkGrant := by
  have hfold : ∀ (cs : List (Fin 4)) (t : State), (∀ c, t.chamberPlan c = s.chamberPlan c) →
      cs.foldl (fun t c => if (t.chamberPlan c).enabled then t.joinQueue c else t) t = t.joinAll (fun c => (s.chamberPlan c).enabled) cs := by
    intro cs
    induction cs with
    | nil => intros; rfl
    | cons c cs ih =>
      intro t ht
      rw [List.foldl_cons, ht c, ih]
      · rfl
      · intro d
        split
        · exact ht d
        · exact ht d
  rw [State.startChambers, hfold _ s fun _ => rfl]

/-- What the start of the chambers leaves (R107, R108). -/
theorem started_startChambers {recipe : Recipe} (hplan : ∀ c, s.chamberPlan c = recipe.chambers[c]) (hrest : ∀ c, s.chamber c = ⟨.idle, none, none, none⟩)
    (hq : s.lkc.queue = []) (hl : s.halt.leak = false) :
    (s.lkc.resetVent ≠ .over → s.startChambers.lkc.queue = enabledChambers recipe ∧
      ∀ c, s.startChambers.chamber c = if c ∈ enabledChambers recipe then ⟨.waitFill, none, none, none⟩ else ⟨.idle, none, none, none⟩) ∧
    (s.lkc.resetVent = .over → ∀ c rest, enabledChambers recipe = c :: rest → s.startChambers.lkc.queue = rest ∧
      ∀ d, s.startChambers.chamber d =
        if d = c then ⟨.fill, some (recipe.chambers[c]).fillTimeout, none, none⟩
        else if d ∈ enabledChambers recipe then ⟨.waitFill, none, none, none⟩ else ⟨.idle, none, none, none⟩) := by
  have henabled : (List.finRange 4).filter (fun c => (s.chamberPlan c).enabled) = enabledChambers recipe := by simp only [hplan]; rfl
  obtain ⟨w, hw⟩ : ∃ w, w = s.joinAll (fun c => (s.chamberPlan c).enabled) (List.finRange 4) := ⟨_, rfl⟩
  obtain ⟨hothers, hvent⟩ := hw ▸ State.joinAll_others (fun c => (s.chamberPlan c).enabled) (List.finRange 4) s
  have hqueue : w.lkc.queue = enabledChambers recipe := by rw [hw, State.joinAll_queue, hq, henabled]; rfl
  have hchamber : ∀ d, w.chamber d = if d ∈ enabledChambers recipe then ⟨.waitFill, none, none, none⟩ else ⟨.idle, none, none, none⟩ := fun d => by
    rw [hw, State.joinAll_chamber, henabled, hrest]
  have hhalt : w.halt.leak = false := by
    rw [State.halt_congr (s := s) (congrArg ConditionUnit.stack (hothers.2 .cu (by decide)))]
    exact hl
  rw [State.startChambers_eq, ← hw]
  refine ⟨fun hn => ?_, fun hv c rest hc => ?_⟩
  · rw [State.checkGrant_refuses (.inr (.inr (.inr (by rw [hvent]; exact hn))))]
    exact ⟨hqueue, hchamber⟩
  · obtain ⟨hfill, hrest'⟩ := State.checkGrant_grants (hqueue.trans hc) (fun d => by rw [hchamber]; split <;> simp) hhalt (hvent.trans hv)
    refine ⟨hrest', fun d => ?_⟩
    split
    · next hd =>
      subst hd
      rw [hfill, State.chamberPlan_congr (s := s) (hothers.2 .ut (by decide)) (hothers.2 .rs (by decide)), hplan]
    · next hd => rw [State.chamber_checkGrant_ne (by rw [hqueue, hc]; simpa using Ne.symm hd), hchamber]

end

end Sys2Proof.Machine
end

