-- ==== Sys2Proof/Proofs/Arrival.lean ====
section
/-! LEAK_START and ARRIVE2_RISE (R13, R16, R79, R107, R108). -/

namespace Sys2Proof.Machine

theorem onlyChanges_setRecord (i : Fin 8) (r : UnitRecord) (s : State) : OnlyChanges [.ut] s (s.setRecord i r) :=
  ⟨rfl, fun b hb => by cases b <;> simp [Part.same, State.setRecord] at hb ⊢⟩

/-- Record `i`, which stood as `r` in AT_LEAK, is LEAKING, and its chambers have started (R16, R107). -/
structure LeakBegun (i : Fin 8) (r : UnitRecord) (s t : State) : Prop where
  changes : OnlyChanges [.lp, .ut, .cs, .lkc, .cu] s t
  holding : HoldingKept s t
  others : OtherUnitsKept i s t
  record : t.ut.records[i] = some r.inLeak
  notice : ⟨.unit i, .unit r.id (some .leaking) r.abort s.now⟩ ∈ t.lp.notices
  silence : t.lp.silence = if s.lp.silence = .disarmed then .running s.rs.live.silence else s.lp.silence

theorem leakBegun_startChambers (i : Fin 8) (r : UnitRecord) (s : State) : LeakBegun i r s (s.leakEntered i r).startChambers := by
  have hut : (s.leakEntered i r).startChambers.ut = (s.leakEntered i r).ut := by simp
  have hlp : (s.leakEntered i r).startChambers.lp = (s.leakEntered i r).lp := by simp
  have hstart : OnlyChanges [.lkc] (s.leakEntered i r) (s.leakEntered i r).startChambers :=
    ⟨by simp, fun b hb => by cases b <;> simp [Part.same] at hb ⊢⟩
  refine ⟨((onlyChanges_leakEntered i r s).trans hstart).mono (by decide), by simp [HoldingKept, State.leakEntered, State.setRecord],
    fun j hj => ?_, ?_, ?_, ?_⟩
  · rw [hut, State.leakEntered_records, if_neg hj]
  · rw [hut, State.leakEntered_records, if_pos rfl]
  · rw [hlp]
    exact State.leakEntered_announces
  · rw [hlp, State.leakEntered_silence]

/-- The plans of the chambers are those of the unit that starts on them (R105). -/
theorem State.leakEntered_chamberPlan {i : Fin 8} {r : UnitRecord} {s : State} (hl : StationLaw s) (hi : IsUnitIn .atLeak i r s) (c : Fin 4) :
    (s.leakEntered i r).chamberPlan c = (s.recipeOf r).chambers[c] := by
  have hunit2 : (s.leakEntered i r).unit2 = some i := by
    refine UnitTable.find_unique (r := r.inLeak) (by rw [State.leakEntered_records, if_pos rfl]) rfl fun j q hj hq => ?_
    by_contra hne
    rw [State.leakEntered_records, if_neg hne] at hj
    exact hne ((hl j i q r hj hi.1).2 hq (by rw [hi.2.1]; rfl))
  have hrs : (s.leakEntered i r).rs = s.rs := (onlyChanges_leakEntered i r s).2 .rs (by decide)
  rw [State.chamberPlan, State.recipe2_of hunit2 (by rw [State.leakEntered_records, if_pos rfl])]
  simp only [State.recipeOf, hrs]
  rfl


/-- Settles O21: the decision as it skips the test, waits under a halt, and starts the chambers. -/
theorem leakStartSkipsWaitsOrStarts : Obligations.LeakStartSkipsWaitsOrStarts := by
  refine fun s => ⟨fun h => ?_, fun i r hi => ?_⟩
  · have hidle : s.decideLeak = s := by
      unfold State.decideLeak
      rw [h.find]
    exact congrArg finish hidle
  intro skip
  have hskip : skipsLeak (s.recipeOf r) r = true ↔ skip := skipsLeak_iff _ _
  refine ⟨fun h => ?_, fun h hh => ?_, fun h hh hl hrest hq => ?_⟩
  · have hend := State.decideLeak_skips hi (hskip.mpr h)
    obtain ⟨changes, -, record, reports, -⟩ := unitEnded_enterDone (State.setRecord_self_records i { r with leak := r.leak.skip } s)
    refine ⟨arbitrate s.decideLeak, _, rfl, ?_, ?_, (by rw [hend]; simpa using record), rfl, rfl, rfl, rfl, fun c => ?_, ?_⟩
    · simp [HoldingKept, hend, State.setRecord]
    · rw [hend]
      exact ((onlyChanges_setRecord _ _ _).trans (changes.trans (onlyChanges_arbitrate _))).mono (by decide)
    · simp [UnitRecord.reported, UnitRecord.ended, LeakSection.skip]
    · rw [hend]
      simpa [State.setRecord] using reports
  · exact congrArg finish (State.decideLeak_waits hi (fun hs => h (hskip.mp hs)) hh)
  · have hend := State.decideLeak_starts hi (fun hs => h (hskip.mp hs)) hh
    obtain ⟨changes, -, others, record, notice, silence⟩ := leakBegun_startChambers i r s
    rw [← hend] at changes others record notice silence
    have hlkc : (s.leakEntered i r).lkc = s.lkc := (onlyChanges_leakEntered i r s).2 .lkc (by decide)
    have hhalt : (s.leakEntered i r).halt.leak = false := by
      rw [State.halt_congr (s := s) (by simp [State.leakEntered, State.setRecord])]
      exact hh
    have hend' : (arbitrate s.decideLeak).lkc = (s.leakEntered i r).startChambers.lkc := by simp [hend]
    have hchamber := State.chamber_congr hend'
    obtain ⟨hwait, hfill⟩ := started_startChambers (State.leakEntered_chamberPlan hl hi) (fun c => by rw [State.chamber_congr hlkc, hrest])
      (by rw [hlkc, hq]) hhalt
    rw [hlkc] at hwait hfill
    refine ⟨arbitrate s.decideLeak, rfl, ?_, (changes.trans (onlyChanges_arbitrate _)).mono (by decide), fun j hj => ?_, ?_,
      announced_arbitrate notice, ?_, fun hn => ?_, fun hv c rest hc => ?_⟩
    · simp [HoldingKept]
    · simpa using others j hj
    · rw [show (arbitrate s.decideLeak).ut = s.decideLeak.ut by simp]
      exact record
    · simpa using silence
    · simp only [hend', hchamber]
      exact hwait hn
    · simp only [hend', hchamber]
      exact hfill hv c rest hc

/-! ## The plans of the streams over the decision (R79) -/

/-- A stream has plan `p`, or waits for it (R79, R80). -/
def PlanHeld (p : Plan) (x : Stream) : Prop := x.plan = p ∨ (x.state = .pendingPlan ∧ x.target = some p)

theorem PlanHeld.synced {p : Plan} {x : Stream} (h : PlanHeld p x) (wanted : Bool) : PlanHeld p { x with state := syncedState x.state wanted } :=
  h.imp (fun h => h) fun ⟨hstate, htarget⟩ => ⟨by cases wanted <;> simp [hstate, syncedState], htarget⟩

theorem PlanHeld.syncStreams {p : Plan} {st : StreamId} {s : State} (h : PlanHeld p (s.stream st)) : PlanHeld p (s.syncStreams.stream st) := by
  have one : ∀ (st' : StreamId) (t : State), PlanHeld p (t.stream st) → PlanHeld p ((t.syncStream st').stream st) := fun st' t ht => by
    by_cases hst : st = st'
    · subst hst
      rw [State.stream_syncStream]
      exact ht.synced _
    · rwa [State.stream_syncStream_ne hst]
  exact one .leak _ (one .slow _ (one .vib s h))

theorem PlanHeld.leakEntered {p : Plan} {st : StreamId} {i : Fin 8} {r : UnitRecord} {s : State} (h : PlanHeld p (s.stream st)) :
    PlanHeld p ((s.leakEntered i r).startChambers.stream st) := by
  rw [State.stream_congr (s := ((s.setRecord i r.inLeak).raise (.unit i) (.unit r.id (some .leaking) r.abort s.now)).syncStreams)
    (by simp [State.leakEntered])]
  refine PlanHeld.syncStreams ?_
  rwa [State.stream_congr (s := s) (by simp [State.setRecord])]

theorem PlanHeld.vacated {p : Plan} {st : StreamId} (hst : st ≠ .leak) {i : Fin 8} {r : UnitRecord} {s : State} (h : PlanHeld p (s.stream st)) :
    PlanHeld p ((s.vacated i r).stream st) := by
  rw [State.vacated, State.stream_congr (s := (s.handedOver i r).setTarget .leak .vacant) (by simp), State.stream_setTarget_ne hst,
    State.stream_congr (s := (s.setRecord i (r.ended s.now)).syncStreams) (by simp [State.handedOver, State.reportNotice, State.setRecord])]
  refine PlanHeld.syncStreams ?_
  rwa [State.stream_congr (s := s) (by simp [State.setRecord])]

/-! ## The arrival (R13) -/

/-- The machine with record `i` in AT_LEAK, the conveyor at rest and station 1 vacant, before the decision. -/
def State.arrived (i : Fin 8) (s : State) : State :=
  (((s.stopConveyor.enterState i .atLeak).setTarget .vib .vacant).setTarget .slow .vacant)

theorem State.arrive_eq {i : Fin 8} {r : UnitRecord} {s : State} (hi : IsUnitIn .inTransfer i r s) : s.arrive = (s.arrived i).decideLeak := by
  unfold State.arrive
  rw [hi.find]
  rfl

section
variable {i : Fin 8} {r : UnitRecord} {s : State}

theorem onlyChanges_arrived (i : Fin 8) (s : State) : OnlyChanges [.lp, .ut, .cs, .cu] s (s.arrived i) :=
  ⟨by simp [State.arrived, State.stopConveyor], fun b hb => by cases b <;> simp [Part.same, State.arrived, State.stopConveyor] at hb ⊢⟩

theorem State.arrived_ut (hi : s.ut.records[i] = some r) : (s.arrived i).ut = (s.stopConveyor.setRecord i { r with state := .atLeak }).ut := by
  have hstopped : s.stopConveyor.ut.records[i] = some r := hi
  rw [← State.mapUnit_eq_setRecord hstopped fun r => { r with state := .atLeak }]
  simp [State.arrived]

theorem State.arrived_records (hi : s.ut.records[i] = some r) (j : Fin 8) :
    (s.arrived i).ut.records[j] = if j = i then some { r with state := .atLeak } else s.ut.records[j] := by
  rw [State.arrived_ut hi, State.setRecord_records]
  rfl

theorem State.arrived_unit (hl : StationLaw s) (hi : IsUnitIn .inTransfer i r s) : IsUnitIn .atLeak i { r with state := .atLeak } (s.arrived i) := by
  refine ⟨by rw [State.arrived_records hi.1, if_pos rfl], rfl, fun j hj q hq hstate => hj ?_⟩
  rw [State.arrived_records hi.1, if_neg hj] at hq
  exact (hl j i q r hq hi.1).2 (by rw [hstate]; rfl) (by rw [hi.2.1]; rfl)

/-- No unit waits at station 1, which the unit on the conveyor still holds (R5). -/
theorem State.arrived_none_waits (hl : StationLaw s) (hi : IsUnitIn .inTransfer i r s) : NoUnitIn .runDone (s.arrived i) := by
  intro j q hq hstate
  rw [State.arrived_records hi.1] at hq
  split at hq
  · cases hq
    cases hstate
  · next hne => exact hne ((hl j i q r hq hi.1).1 (by rw [hstate]; rfl) (by rw [hi.2.1]; rfl))

theorem State.arrived_plans {st : StreamId} (hst : st ≠ .leak) : PlanHeld .vacant ((s.arrived i).stream st) := by
  cases st with
  | vib =>
    rw [State.arrived, State.stream_setTarget_ne (by simp)]
    exact (planFollows_setTarget _ _ _).applied_or_waiting
  | slow => exact (planFollows_setTarget _ _ _).applied_or_waiting
  | leak => exact absurd rfl hst

theorem State.arrived_announces (hi : s.ut.records[i] = some r) :
    ⟨.unit i, .unit r.id (some .atLeak) r.abort s.now⟩ ∈ (s.arrived i).lp.notices := by
  have hstopped : s.stopConveyor.ut.records[i] = some r := hi
  have hraised : s.stopConveyor.enterState i .atLeak =
      (s.stopConveyor.setRecord i { r with state := .atLeak }).raise (.unit i) (.unit r.id (some .atLeak) r.abort s.now) := by
    rw [State.enterState, State.mapUnit_eq_setRecord hstopped, State.unitNotice, State.setRecord_self_records]
    rfl
  have kept : NoticesKept (fun key => key = .unit i) (s.stopConveyor.enterState i .atLeak) (s.arrived i) :=
    (NoticesKept.setTarget (by simp) _ _ _).trans (NoticesKept.setTarget (by simp) _ _ _)
  refine kept _ ?_ rfl
  rw [hraised]
  exact mem_raise_self _ _ _

end

/-- What every outcome of the decision leaves: record `i` as `r'`, the others and the conveyor as they stood, and the plans of station 1. -/
structure Decided (i : Fin 8) (r' : UnitRecord) (u t : State) : Prop where
  changes : OnlyChanges [.lp, .ut, .cs, .lkc, .cu, .reports] u t
  holding : HoldingKept u t
  line : t.ut.transferLine = u.ut.transferLine ∧ t.ut.transferTimer = u.ut.transferTimer
  others : OtherUnitsKept i u t
  record : t.ut.records[i] = some r'
  notice : ∃ x, ⟨.unit i, x⟩ ∈ t.lp.notices
  plans : ∀ p st, st ≠ .leak → PlanHeld p (u.stream st) → PlanHeld p (t.stream st)

section
variable {i : Fin 8} {q : UnitRecord} {u : State}

theorem decided_skips (hi : IsUnitIn .atLeak i q u) (hnone : NoUnitIn .runDone u) (h : skipsLeak (u.recipeOf q) q = true) :
    Decided i (UnitRecord.reported { q with leak := q.leak.skip } (u.recipeOf q) u.now) u u.decideLeak ∧ u.decideLeak.reports = u.reports ++ [q.id] := by
  obtain ⟨v, hv⟩ : ∃ v, v = u.setRecord i { q with leak := q.leak.skip } := ⟨_, rfl⟩
  have hself : v.ut.records[i] = some { q with leak := q.leak.skip } := hv ▸ State.setRecord_self_records i _ u
  have hend : u.decideLeak = v.enterDone i := hv ▸ State.decideLeak_skips hi h
  have hnone' : NoUnitIn .runDone v := fun j x hx => by
    rw [hv, State.setRecord_records] at hx
    split at hx
    · cases hx
      simp [hi.2.1]
    · exact hnone j x hx
  obtain ⟨changes, holding, record, reports, -, -, -, hunit, -, hwaits, -⟩ := unitEnded_enterDone hself
  have hstays : v.enterDone i = v.vacated i { q with leak := q.leak.skip } := by
    rw [State.enterDone_eq hself, State.checkTransfer_stays (.inl fun j x hx => ?_)]
    rw [State.vacated_records] at hx
    split at hx
    · cases hx
      simp [UnitRecord.reported, UnitRecord.ended]
    · exact hnone' j x hx
  rw [hend]
  refine ⟨⟨?_, ?_, ?_, fun j hj => ?_, ?_, ⟨_, hunit⟩, fun p st hst hp => ?_⟩, ?_⟩
  · exact ((hv ▸ onlyChanges_setRecord i _ u).trans changes).mono (by decide)
  · simp [HoldingKept, hv, State.setRecord]
  · rw [hstays, State.vacated_ut, hv]
    exact ⟨rfl, rfl⟩
  · rw [(hwaits (.inl hnone')).1 j hj, hv, State.setRecord_records, if_neg hj]
  · rw [record, hv]
    rfl
  · rw [hstays]
    refine PlanHeld.vacated hst ?_
    rwa [State.stream_congr (s := u) (by simp [hv, State.setRecord])]
  · rw [reports, hv]
    rfl

theorem decided_starts (hi : IsUnitIn .atLeak i q u) (h : ¬skipsLeak (u.recipeOf q) q = true) (hh : u.halt.leak = false) :
    Decided i q.inLeak u u.decideLeak ∧ u.decideLeak.reports = u.reports := by
  rw [State.decideLeak_starts hi h hh]
  obtain ⟨changes, holding, others, record, notice, -⟩ := leakBegun_startChambers i q u
  refine ⟨⟨changes.mono (by decide), holding, ?_, others, record, ⟨_, notice⟩, fun p st _ hp => hp.leakEntered⟩, changes.2 .reports (by decide)⟩
  rw [show (u.leakEntered i q).startChambers.ut = (u.leakEntered i q).ut by simp, State.leakEntered_ut]
  exact ⟨rfl, rfl⟩

theorem decided_waits {x : NoticeContent} (hi : u.ut.records[i] = some q) (hx : ⟨.unit i, x⟩ ∈ u.lp.notices) : Decided i q u u :=
  ⟨OnlyChanges.refl _ u, ⟨rfl, rfl, rfl, rfl, rfl⟩, ⟨rfl, rfl⟩, fun _ _ => rfl, hi, ⟨x, hx⟩, fun _ _ _ h => h⟩

end

/-- Settles O18: the arrival and what the leak start decision makes of it. -/
theorem arrivalStopsTheConveyorAndDecidesTheLeakStart : Obligations.ArrivalStopsTheConveyorAndDecidesTheLeakStart := by
  refine fun s hl => ⟨fun h => ?_, fun i r hi => ?_⟩
  · have hidle : s.arrive = s := by
      unfold State.arrive
      rw [h.find]
    exact congrArg finish hidle
  intro skip
  obtain ⟨u, hu⟩ : ∃ u, u = s.arrived i := ⟨_, rfl⟩
  have hend : exec .arrive2Rise s = .next (arbitrate u.decideLeak) := congrArg finish (hu ▸ State.arrive_eq hi)
  have hchanges : OnlyChanges [.lp, .ut, .cs, .cu] s u := hu ▸ onlyChanges_arrived i s
  have hunit : IsUnitIn .atLeak i { r with state := .atLeak } u := hu ▸ State.arrived_unit hl hi
  have hnone : NoUnitIn .runDone u := hu ▸ State.arrived_none_waits hl hi
  have hplans : ∀ st, st ≠ .leak → PlanHeld .vacant (u.stream st) := fun st hst => hu ▸ State.arrived_plans hst
  have hut : u.ut = (s.stopConveyor.setRecord i { r with state := .atLeak }).ut := hu ▸ State.arrived_ut hi.1
  have hothers : ∀ j, j ≠ i → u.ut.records[j] = s.ut.records[j] := fun j hj => by rw [hu, State.arrived_records hi.1, if_neg hj]
  have hskip : skipsLeak (u.recipeOf { r with state := .atLeak }) { r with state := .atLeak } = true ↔ skip := by
    rw [State.recipeOf, hchanges.2 .rs (by decide)]
    exact skipsLeak_iff _ _
  have hrecipe : ∀ q, u.recipeOf q = s.recipeOf q := fun q => by rw [State.recipeOf, hchanges.2 .rs (by decide), State.recipeOf]
  have hnow : u.now = s.now := State.now_congr (hchanges.2 .clock (by decide))
  have hhalt : u.halt = s.halt := State.halt_congr (by rw [hu]; simp [State.arrived, State.stopConveyor])
  have hreports : u.reports = s.reports := hchanges.2 .reports (by decide)
  have left : ∀ r', Decided i r' u u.decideLeak → OnlyChanges [.lp, .ut, .cs, .lkc, .cu, .reports] s (arbitrate u.decideLeak) ∧
      HoldingKept s (arbitrate u.decideLeak) ∧ (arbitrate u.decideLeak).ut.transferLine = false ∧
      (arbitrate u.decideLeak).ut.transferTimer = none ∧ OtherUnitsKept i s (arbitrate u.decideLeak) ∧
      (arbitrate u.decideLeak).ut.records[i] = some r' ∧ (∃ x, Announced ⟨.unit i, x⟩ (arbitrate u.decideLeak)) ∧
      ∀ st, st ≠ .leak → PlanHeld .vacant ((arbitrate u.decideLeak).stream st) := by
    rintro r' ⟨changes, holding, ⟨hline, htimer⟩, others, record, ⟨x, hx⟩, plans⟩
    have hmoved : (arbitrate u.decideLeak).ut = u.decideLeak.ut := by simp
    refine ⟨((hchanges.trans changes).trans (onlyChanges_arbitrate _)).mono (by decide), by simp [HoldingKept, hu, State.arrived, State.stopConveyor],
      ?_, ?_, fun j hj => ?_, ?_, ⟨x, announced_arbitrate hx⟩, fun st hst => ?_⟩
    · rw [hmoved, hline, hut]
      rfl
    · rw [hmoved, htimer, hut]
      rfl
    · rw [hmoved, others j hj, hothers j hj]
    · rw [hmoved, record]
    · rw [State.stream_congr (s := u.decideLeak) (by simp)]
      exact plans _ _ hst (hplans st hst)
  have harb : (arbitrate u.decideLeak).reports = u.decideLeak.reports := by simp
  by_cases h : skip
  · obtain ⟨decided, hqueued⟩ := decided_skips hunit hnone (hskip.mpr h)
    obtain ⟨changes, holding, hline, htimer, others, record, notice, plans⟩ := left _ decided
    refine ⟨_, _, hend, changes, holding, hline, htimer, others, record, rfl, rfl, rfl, rfl, notice,
      fun _ => ⟨rfl, ?_, rfl, rfl, ?_⟩, fun hn => absurd h hn, fun hn => absurd h hn, fun st hst => plans st (by rintro rfl; simp at hst)⟩
    · rw [hnow]
      rfl
    · rw [harb, hqueued, hreports]
  · have hno : ¬skipsLeak (u.recipeOf { r with state := .atLeak }) { r with state := .atLeak } = true := fun hs => h (hskip.mp hs)
    cases hleak : s.halt.leak with
    | true =>
      have hstays : u.decideLeak = u := State.decideLeak_waits hunit hno (by rw [hhalt, hleak])
      obtain ⟨changes, holding, hline, htimer, others, record, notice, plans⟩ :=
        left { r with state := .atLeak } (by
          rw [hstays]
          exact decided_waits hunit.1 (hu ▸ State.arrived_announces hi.1))
      refine ⟨_, _, hend, changes, holding, hline, htimer, others, record, rfl, rfl, rfl, rfl, notice, fun hs => absurd hs h,
        fun _ _ => ⟨rfl, ?_, ?_⟩, fun _ hf => absurd hf (by simp), fun st hst => plans st (by rintro rfl; simp at hst)⟩
      · rw [hstays]
        exact (arbitrate_frame u).2.2.2.2.2.2.2.2.2.2.1.trans (hchanges.2 .lkc (by decide))
      · rw [harb, hstays, hreports]
    | false =>
      obtain ⟨decided, hqueued⟩ := decided_starts hunit hno (by rw [hhalt, hleak])
      obtain ⟨changes, holding, hline, htimer, others, record, notice, plans⟩ := left _ decided
      exact ⟨_, _, hend, changes, holding, hline, htimer, others, record, rfl, rfl, rfl, rfl, notice, fun hs => absurd hs h,
        fun _ hf => absurd hf (by simp), fun _ _ => ⟨rfl, rfl, rfl, by rw [harb, hqueued, hreports]⟩,
        fun st hst => plans st (by rintro rfl; simp at hst)⟩

end Sys2Proof.Machine
end

