-- ==== Sys2Proof/Proofs/ConditionSettings.lean ====
section
/-! COND_CONFIG and SET_MASK: the clamped settings, and the taking check that they bring (R131, R136, R141). -/

namespace Sys2Proof.Machine

/-! ## The clamps (R141) -/

theorem clampSeverity_eq (n : Fin 20) (severity : Nat) :
    clampSeverity n severity = min (if 16 ≤ n.val then 10 else 14) (max (if n = 5 then 11 else 1) severity) := by
  have hrange : severityRange n = (if n = 5 then 11 else 1, if 16 ≤ n.val then 10 else 14) := by revert n; decide
  simp [clampSeverity, hrange]

theorem completeVector_ofCode (n : Fin 20) (m : Nat) :
    completeVector n (.ofCode m) = ⟨m.testBit 0 || decide (n = 5), m.testBit 1, m.testBit 2, m.testBit 3⟩ := by
  by_cases h : n = 5 <;> simp [completeVector, StopSet.ofCode, h]

theorem configurable_iff (n : Fin 20) : (configIndex n).isNone = true ↔ ¬(n = 5 ∨ 9 ≤ n.val) := by revert n; decide

/-! ## A taking check and the halts it brings -/

/-- A taking check and its halts leave the Recipe Store and the lines. -/
theorem onlyChanges_checkedHalts (first : List (Fin 20)) (was : StopSet) (s : State) :
    OnlyChanges [.lp, .ut, .pe, .afe, .cs, .oa, .lkc, .cu, .reports] s ((s.takingCheck first).applyHalts was) :=
  ⟨by simp, fun b hb => by cases b <;> simp [Part.same] at hb ⊢⟩

theorem takingCheckMade_checkedHalts (first : List (Fin 20)) (was : StopSet) (s : State) :
    TakingCheckMade s ((s.takingCheck first).applyHalts was) :=
  (takingCheck_made first s).congr rfl rfl (by simp) (by simp)

/-! ## COND_CONFIG -/

/-- The machine with other settings of condition `n`. -/
def State.configured (n : Fin 20) (severity : Nat) (vector : StopSet) (s : State) : State :=
  s.mapCond n fun c => { c with severity := severity, vector := vector }

/-- What COND_CONFIG makes of the machine where it is not refused (R141): an on-stack condition brings no taking check. -/
def State.configAndCheck (n : Fin 20) (severity : Nat) (vector : StopSet) (s : State) : State :=
  if s.onStack n then s.configured n severity vector else ((s.configured n severity vector).takingCheck []).applyHalts s.halt

section
variable (n : Fin 20) (severity vector : Byte) (s : State)

theorem takeCondConfig_condition : takeCondConfig (BitVec.ofNat 8 n.val) severity vector s =
    if s.cu.mode = .production ∨ ¬(n = 5 ∨ 9 ≤ n.val) then (s, [0x1D])
    else if 15 < vector.toNat then (s, [0x12])
    else (s.configAndCheck n (clampSeverity n severity.toNat) (completeVector n (.ofCode vector.toNat)),
      [0x00, codeByte (clampSeverity n severity.toNat), codeByte (completeVector n (.ofCode vector.toNat)).code]) := by
  simp only [takeCondConfig, withCondition, conditionIndex_of_condition, configurable_iff, ite_or]
  rfl

theorem takeCondConfig_large {b : Byte} (h : 19 < b.toNat) : takeCondConfig b severity vector s = (s, [0x12]) := by
  rw [takeCondConfig, withCondition, conditionIndex_of_large b h]
  rfl

end

section
variable (n : Fin 20) (severity : Nat) (vector : StopSet) (s : State)

theorem State.settings_configAndCheck : ((s.configAndCheck n severity vector).cond n).severity = severity ∧
    ((s.configAndCheck n severity vector).cond n).vector = vector := by
  have hset : (s.configured n severity vector).cond n = { s.cond n with severity := severity, vector := vector } := by
    rw [State.configured, State.cond_mapCond, if_pos rfl]
  unfold State.configAndCheck
  split <;> simp [hset]

theorem onlyChanges_configAndCheck :
    OnlyChanges [.lp, .ut, .pe, .afe, .cs, .oa, .lkc, .cu, .reports] s (s.configAndCheck n severity vector) := by
  have hset : OnlyChanges [.cu] s (s.configured n severity vector) :=
    ⟨rfl, fun b hb => by cases b <;> simp [Part.same, State.configured, State.mapCond] at hb ⊢⟩
  unfold State.configAndCheck
  split
  · exact hset.mono (by decide)
  · exact (hset.trans (onlyChanges_checkedHalts _ _ _)).mono (by decide)

end

/-! ## SET_MASK (R131) -/

/-- What SET_MASK makes of the machine: a lowered mask brings the taking check. -/
def State.maskAndCheck (mask : Nat) (s : State) : State :=
  if mask < s.cu.mask then ((s.setCu { s.cu with mask := mask }).takingCheck []).applyHalts s.halt else s.setCu { s.cu with mask := mask }

theorem takeSetMask_eq (level : Byte) (s : State) : takeSetMask level s =
    (s.maskAndCheck (min level.toNat s.cu.mode.cap), [0x00, codeByte (min level.toNat s.cu.mode.cap)]) := rfl

theorem Mode.cap_eq (m : Mode) : m.cap = if m = .maintenance then 14 else 10 := by cases m <;> rfl

theorem onlyChanges_maskAndCheck (mask : Nat) (s : State) :
    OnlyChanges [.lp, .ut, .pe, .afe, .cs, .oa, .lkc, .cu, .reports] s (s.maskAndCheck mask) := by
  have hset : OnlyChanges [.cu] s (s.setCu { s.cu with mask := mask }) := ⟨rfl, fun b hb => by cases b <;> simp [Part.same] at hb ⊢⟩
  unfold State.maskAndCheck
  split
  · exact (hset.trans (onlyChanges_checkedHalts _ _ _)).mono (by decide)
  · exact hset.mono (by decide)

theorem State.mask_maskAndCheck (mask : Nat) (s : State) : (s.maskAndCheck mask).cu.mask = mask := by
  unfold State.maskAndCheck
  split <;> simp

/-! ## The obligation -/

/-- Settles O51: the refusals leave the command answered; the settings and the mask stand, with the taking check where it is due. -/
theorem configAndMaskAreClampedAndChecked : Obligations.ConfigAndMaskAreClampedAndChecked := by
  refine fun tag s hl => ⟨fun b severity vector => ⟨fun hb => ?_, ?_⟩, fun level => ?_⟩
  · exact exec_answers_of_take (cmd := .condConfig b severity vector) rfl rfl hl rfl (by simp [bodyLimits, within])
      (takeCondConfig_large severity vector _ hb)
  · rintro n rfl configurable
    obtain ⟨t, ht, hserved⟩ := exec_serves (c := .condConfig tag (BitVec.ofNat 8 n.val) severity vector) rfl rfl hl rfl (by simp [bodyLimits, within])
    rw [take, takeCondConfig_condition] at hserved
    change Served _ (if s.cu.mode = .production ∨ ¬configurable then _ else if 15 < vector.toNat then _ else _) s t at hserved
    refine ⟨fun h => ⟨t, ht, ?_⟩, fun hm hc hv => ⟨t, ht, ?_⟩, fun hm hc hv => ?_⟩
    · rw [if_pos h] at hserved
      exact hserved.onlyAnswers
    · rw [if_neg (by simp [hm, hc]), if_pos hv] at hserved
      exact hserved.onlyAnswers
    · intro least most sev vec v
      have hsev : clampSeverity n severity.toNat = sev := clampSeverity_eq _ _
      have hvec : completeVector n (.ofCode vector.toNat) = vec := completeVector_ofCode _ _
      rw [if_neg (by simp [hm, hc]), if_neg (Nat.not_lt.mpr hv), hsev, hvec] at hserved
      obtain ⟨u, hu⟩ : ∃ u, u = s.headed ⟨0x14, tag, [BitVec.ofNat 8 n.val, severity, vector]⟩ := ⟨_, rfl⟩
      rw [← hu] at hserved
      have hucu : u.cu = s.cu := by simp [hu]
      have hset : (u.configured n sev vec).cu = v.cu := by simp [State.configured, State.mapCond, hucu, v, State.cond]
      have honstack : u.onStack n = s.onStack n := by simp [State.onStack, hucu]
      obtain ⟨hseverity, hvector⟩ := State.settings_configAndCheck n sev vec u
      refine ⟨t, ht, hserved.answered, ?_, ?_, ?_, fun hon => ?_, fun hoff => ?_⟩
      · exact hserved.onlyChanges (by decide) (hu ▸ (onlyChanges_configAndCheck n sev vec u).2)
      · rw [State.cond_congr hserved.cu]
        exact hseverity
      · rw [State.cond_congr hserved.cu]
        exact hvector
      · have hquiet : u.configAndCheck n sev vec = u.configured n sev vec := if_pos (honstack.trans hon)
        rw [hquiet] at hserved
        refine ⟨hserved.onlyChanges (by decide) fun b hb => ?_, hserved.cu.trans hset⟩
        cases b <;> simp [Part.same, State.configured, State.mapCond, hu] at hb ⊢
      · have hchecked : u.configAndCheck n sev vec = ((u.configured n sev vec).takingCheck []).applyHalts u.halt :=
          if_neg (by rw [honstack, hoff]; simp)
        rw [hchecked] at hserved
        exact (takingCheckMade_checkedHalts [] u.halt (u.configured n sev vec)).congr hset.symm (by simp [v, State.configured, State.mapCond, hu])
          (by rw [hserved.cu]) (by rw [hserved.cu])
  · intro mask
    obtain ⟨t, ht, hserved⟩ := exec_serves (c := .setMask tag level) rfl rfl hl rfl (by simp [bodyLimits, within])
    rw [take, takeSetMask_eq, Mode.cap_eq] at hserved
    change Served _ (_, [0x00, codeByte mask]) s t at hserved
    obtain ⟨u, hu⟩ : ∃ u, u = s.headed ⟨0x15, tag, [level]⟩ := ⟨_, rfl⟩
    change Served _ ((s.headed ⟨0x15, tag, [level]⟩).maskAndCheck mask, _) s t at hserved
    rw [← hu] at hserved
    have hucu : u.cu = s.cu := by simp [hu]
    refine ⟨t, ht, hserved.answered, hserved.onlyChanges (by decide) (hu ▸ (onlyChanges_maskAndCheck mask u).2), ?_, fun hle => ?_, fun hlt => ?_⟩
    · rw [hserved.cu]
      exact State.mask_maskAndCheck mask u
    · have hquiet : u.maskAndCheck mask = u.setCu { u.cu with mask := mask } := if_neg (by rw [hucu]; exact Nat.not_lt.mpr hle)
      rw [hquiet] at hserved
      refine ⟨hserved.onlyChanges (by decide) fun b hb => ?_, by rw [hserved.cu, State.setCu_cu, hucu]⟩
      cases b <;> simp [Part.same, hu] at hb ⊢
    · have hchecked : u.maskAndCheck mask = ((u.setCu { u.cu with mask := mask }).takingCheck []).applyHalts u.halt :=
        if_pos (by rw [hucu]; exact hlt)
      rw [hchecked] at hserved
      exact (takingCheckMade_checkedHalts [] u.halt (u.setCu { u.cu with mask := mask })).congr (by simp [hucu]) (by simp [hu])
        (by rw [hserved.cu]) (by rw [hserved.cu])

end Sys2Proof.Machine
end

