-- ==== Sys2Proof/Proofs/LineConditions.lean ====
section
/-! The conditions of the field lines, of the key and of the two timers: one condition record judged, the taking check where it became
active, and what the halts leave of it (R14, R15, R127, R129, R130, R133, R167). -/

namespace Sys2Proof.Machine

/-! ## An event that judges one condition -/

/-- Condition `n`, replaced by `c`, is all that differs in the Condition Unit. -/
def OneJudged (n : Fin 20) (c : Condition) (s w : State) : Prop :=
  w.cu = { s.cu with conditions := s.cu.conditions.set n c }

section
variable {n : Fin 20} {c : Condition} {s w : State} (h : OneJudged n c s w)
include h

theorem OneJudged.cond_self : w.cond n = c := by
  unfold OneJudged at h
  simp [State.cond, h]

theorem OneJudged.cond_ne {m : Fin 20} (hm : m ≠ n) : w.cond m = s.cond m := by
  unfold OneJudged at h
  simp [State.cond, h, Fin.val_ne_of_ne (Ne.symm hm)]

theorem OneJudged.stack : w.cu.stack = s.cu.stack ∧ w.cu.rl = s.cu.rl ∧ w.cu.mask = s.cu.mask ∧ w.cu.mode = s.cu.mode := by
  unfold OneJudged at h
  simp [h]

theorem OneJudged.active_self : w.active n = c.active (conditionKind n) := by rw [State.active, h.cond_self]

/-- A condition that was active already, or is not, makes no condition active (R129). -/
theorem OneJudged.quiet (hq : s.active n = true ∨ c.active (conditionKind n) = false) (m : Fin 20) (hm : w.active m = true) : s.active m = true := by
  by_cases e : m = n
  · subst e
    rw [h.active_self] at hm
    exact hq.resolve_right (by simp [hm])
  · rwa [State.active_congr (h.cond_ne e)] at hm

/-- Without a new activity the stack and RL stand (R133). -/
theorem OneJudged.react_quiet (hq : s.active n = true ∨ c.active (conditionKind n) = false) :
    (react s w).cu.stack = s.cu.stack ∧ (react s w).cu.rl = s.cu.rl := by
  obtain ⟨hstack, hrl, -, -⟩ := h.stack
  rw [react, checkIfActivated_none (h.quiet hq)]
  simp [hstack, hrl]

/-- A new activity has the taking check (R133). -/
theorem OneJudged.react_takes {us : Nat} (hs : s.active n = false) (hc : c.active (conditionKind n) = true) (hk : w.clockUs = s.clockUs + us) :
    TakingCheckMade (raisedAt us n c s) (react s w) := by
  refine (takingCheckMade_react n hs (by rw [h.active_self, hc])).congr ?_ ?_ rfl rfl
  · unfold OneJudged at h
    rw [h]
    rfl
  · rw [hk]
    rfl

/-- The record stands through the taking check and the halts, but for those of starvation and of DRIVE_FAULT. -/
theorem OneJudged.react_cond (hm : NotStarvation n) (h4 : n ≠ 4) : (react s w).cond n = c := by
  rw [cond_react _ _ hm h4, h.cond_self]

theorem OneJudged.react_mode : (react s w).cu.mask = s.cu.mask ∧ (react s w).cu.mode = s.cu.mode := by
  obtain ⟨-, -, hmask, hmode⟩ := h.stack
  simp [hmask, hmode]

end

/-- A judgement of one source, after changes outside the Condition Unit. -/
theorem oneJudged_setSource {n : Fin 20} {b : Bool} {s v : State} (hv : v.cu = s.cu) : OneJudged n ((v.setSource n b).cond n) s (v.setSource n b) := by
  rw [OneJudged, ← hv]
  exact State.setSource_cu n b v

/-! ## CONDITION_LINE_CHANGE -/

/-- The source of a line's condition at level `b` (R127). -/
def lineSource (line : CondLine) (b : Bool) : Bool := if line = .supplyOk then !b else b

theorem State.changeLine_eq (line : CondLine) (b : Bool) (s : State) :
    s.changeLine line b = react s ((s.setLines (s.lines.put line b)).setSource (lineCondition line) (lineSource line b)) := by
  cases line <;> rfl

theorem lineCondition_kind (line : CondLine) :
    conditionKind (lineCondition line) = if line = .estop then .latched else .level := by cases line <;> rfl

theorem lineCondition_settled (line : CondLine) : NotStarvation (lineCondition line) ∧ lineCondition line ≠ 4 := by
  cases line <;> exact ⟨⟨by decide, by decide, by decide⟩, by decide⟩

/-- The record of a line's condition after its judgement (R127, R129). -/
theorem State.cond_changedLine (line : CondLine) (source : Bool) (s v : State) (hv : v.cu = s.cu) (hk : v.clockUs = s.clockUs) :
    let n := lineCondition line
    let latch := (s.cond n).latch || (decide (line = .estop) && source)
    let active := if line = .estop then latch else source || (s.cond n).injected
    (v.setSource n source).cond n = { s.cond n with
      source := source, latch := latch, lastActive := if s.active n = false ∧ active = true then some s.now else (s.cond n).lastActive } := by
  intro n latch active
  have hcond : v.cond n = s.cond n := State.cond_congr hv n
  have hnow : v.now = s.now := State.now_congr hk
  by_cases hl : line = .estop
  · have hkind : conditionKind n = .latched := by rw [show conditionKind n = _ from lineCondition_kind line, if_pos hl]
    rw [State.cond_setSource_latched hkind, State.active_latched hkind, hcond, hnow]
    simp only [latch, active, hl, decide_true, Bool.true_and, if_true]
    cases (s.cond n).latch <;> simp
  · have hkind : conditionKind n = .level := by rw [show conditionKind n = _ from lineCondition_kind line, if_neg hl]
    rw [State.cond_setSource_level hkind, State.active_level hkind, hcond, hnow]
    simp only [latch, active, hl, decide_false, Bool.false_and, Bool.or_false, if_false]
    cases (s.cond n).source <;> cases (s.cond n).injected <;> simp

/-- Settles O46: the record after the judgement of its source, with the taking check where it became active and without one else. -/
theorem lineChangeJudgesItsCondition : Obligations.LineChangeJudgesItsCondition := by
  intro line b s n source latch active
  obtain ⟨w, hw⟩ : ∃ w, w = (s.setLines (s.lines.put line b)).setSource n source := ⟨_, rfl⟩
  have hone : OneJudged n (w.cond n) s w := hw ▸ oneJudged_setSource rfl
  obtain ⟨hstarve, h4⟩ := lineCondition_settled line
  have hend : exec (.conditionLineChange line b) s = .next (arbitrate (react s w)) := congrArg finish (hw ▸ State.changeLine_eq line b s)
  have hrecord : w.cond n = { s.cond n with
      source := source, latch := latch, lastActive := if s.active n = false ∧ active = true then some s.now else (s.cond n).lastActive } :=
    hw ▸ State.cond_changedLine line source s (s.setLines (s.lines.put line b)) rfl rfl
  have hactive : (w.cond n).active (conditionKind n) = active := by
    rw [hrecord, show conditionKind n = _ from lineCondition_kind line]
    by_cases hl : line = .estop <;> simp [Condition.active, hl, active]
  have hcond : ∀ m, (arbitrate (react s w)).cond m = (react s w).cond m := fun m => State.cond_congr (by simp) m
  have hself : (arbitrate (react s w)).cond n = w.cond n := (hcond n).trans (hone.react_cond hstarve h4)
  have hstack : (arbitrate (react s w)).cu = (react s w).cu := by simp
  refine ⟨_, hend, by simp [HoldingKept, hw], ⟨by simp [hw], fun p hp => ?_⟩, by simp [hw], ?_, ?_, ?_, ?_, ?_, ?_, fun h => ?_, fun hs ha => ?_⟩
  · cases p <;> simp [Part.same, hw] at hp ⊢
  · rw [hself, hrecord]
  · rw [hself, hrecord]
  · rw [hself, hrecord]
  · rw [State.active, hself, hactive]
  · rw [hstack]
    exact hone.react_mode.2
  · rw [hstack]
    exact hone.react_mode.1
  · have hquiet : s.active n = true ∨ (w.cond n).active (conditionKind n) = false := by rwa [hactive]
    obtain ⟨hkept, hrl⟩ := hone.react_quiet hquiet
    refine ⟨?_, by rw [hstack, hkept], by rw [hstack, hrl], fun hh => ?_⟩
    · rw [hself, hrecord]
      exact if_neg fun ⟨hs, ha⟩ => by rcases h with h | h <;> simp_all
    · have hsame : react s w = w := react_standing (hone.quiet hquiet) hone.stack.1 (by simp [hw]) hh
      rw [hsame]
      refine ⟨⟨by simp [hw], fun p hp => ?_⟩, fun m hm => ?_⟩
      · cases p <;> simp [Part.same, hw] at hp ⊢
      · rw [State.cond_congr (s := w) (by simp), hone.cond_ne hm]
  · refine ⟨by rw [hself, hrecord]; exact if_pos ⟨hs, ha⟩, ?_⟩
    have hmade := hone.react_takes (us := 0) hs (by rw [hactive, ha]) (by simp [hw])
    rw [hrecord, if_pos ⟨hs, ha⟩] at hmade
    exact hmade.congr rfl rfl (by rw [hstack]) (by rw [hstack])

end Sys2Proof.Machine
end

