-- ==== Sys2Proof/Proofs/KeyChange.lean ====
section
/-! KEY_CHANGE: the mode and the mask, MODE_CHANGE over a working unit, and the taking check (R127, R130, R131, R133). -/

namespace Sys2Proof.Machine

/-- A taking check looks at the activity and the settings of the conditions, at the stack, RL and the mask, and at the clock. -/
theorem TakingCheckMade.congr_conditions {u u' t : State} (h : TakingCheckMade u t) (ha : ∀ n, u'.active n = u.active n)
    (hs : ∀ n, (u'.cond n).severity = (u.cond n).severity ∧ (u'.cond n).vector = (u.cond n).vector)
    (hu : u'.cu.stack = u.cu.stack ∧ u'.cu.rl = u.cu.rl ∧ u'.cu.mask = u.cu.mask) (hk : u'.clockUs = u.clockUs) : TakingCheckMade u' t := by
  obtain ⟨hstack, hrl, hmask⟩ := hu
  have hq : ∀ n, u'.qualifies n = u.qualifies n := fun n => by
    simp only [State.qualifies, ha, State.onStack, hstack, hrl, hmask, (hs n).1]
  obtain ⟨hleft, hpushed⟩ := h
  refine ⟨fun hn => ?_, fun n ⟨hn, hbest⟩ => ?_⟩
  · rw [hstack, hrl]
    exact hleft fun n => (hq n).symm.trans (hn n)
  · obtain ⟨hseverity, hvector⟩ := hs n
    rw [hstack, hrl, hseverity, hvector, State.now_congr hk]
    exact hpushed n ⟨(hq n).symm.trans hn, fun m hm => by simpa [hs] using hbest m ((hq m).trans hm)⟩

/-- The machine with the mode and the mask of a key level (R130, R131). -/
def State.keyed (b : Bool) (s : State) : State :=
  s.setCu { s.cu with mode := keyMode b, mask := if b then s.cu.mask else min 10 s.cu.mask }

/-- MODE_CHANGE is asserted for an instant where a unit works (R127). -/
def State.modeChanged (b : Bool) (s : State) : State := if s.anyWorking then (s.keyed b).sourceInstant 8 else s.keyed b

theorem State.changeKey_eq {b : Bool} {s : State} (h : s.cu.mode ≠ keyMode b) :
    s.changeKey b = if b then react s (s.modeChanged b) else ((s.modeChanged b).takingCheck []).applyHalts s.halt := by
  rw [State.changeKey, if_neg h]
  rfl

/-- The record of MODE_CHANGE after the key (R127, R129). -/
theorem State.cond_modeChanged (b : Bool) (s : State) : (s.modeChanged b).cond 8 = { s.cond 8 with
    source := (s.cond 8).source && !s.anyWorking, latch := (s.cond 8).latch || s.anyWorking
    lastActive := if s.anyWorking = true ∧ s.active 8 = false then some s.now else (s.cond 8).lastActive } := by
  have hkind : conditionKind 8 = .latched := rfl
  rw [State.active_latched hkind]
  unfold State.modeChanged
  split
  · next hw =>
    rw [State.cond_sourceInstant hkind]
    simp only [hw, true_and, Bool.not_true, Bool.and_false, Bool.or_true]
    rfl
  · next hw => simp [State.keyed, hw, State.cond]

theorem State.cond_modeChanged_ne {m : Fin 20} (hm : m ≠ 8) (b : Bool) (s : State) : (s.modeChanged b).cond m = s.cond m := by
  unfold State.modeChanged
  split
  · rw [State.cond_sourceInstant_ne hm]
    rfl
  · rfl

theorem State.modeChanged_rest (b : Bool) (s : State) : (s.modeChanged b).cu.stack = s.cu.stack ∧ (s.modeChanged b).cu.rl = s.cu.rl ∧
    (s.modeChanged b).cu.mode = keyMode b ∧ (s.modeChanged b).cu.mask = if b then s.cu.mask else min s.cu.mask 10 := by
  unfold State.modeChanged
  split <;> simp [State.keyed, Nat.min_comm]

theorem onlyChanges_modeChanged (b : Bool) (s : State) : OnlyChanges [.cu] s (s.modeChanged b) := by
  refine ⟨?_, fun p hp => ?_⟩
  · unfold State.modeChanged
    split <;> simp [State.keyed]
  · unfold State.modeChanged
    split <;> cases p <;> simp [Part.same, State.keyed] at hp ⊢

theorem State.active_modeChanged (b : Bool) (s : State) : (s.modeChanged b).active 8 = (s.active 8 || s.anyWorking) := by
  rw [State.active_latched rfl, State.cond_modeChanged, State.active_latched rfl]

theorem onlyChanges_react (s t : State) : OnlyChanges [.lp, .ut, .pe, .afe, .cs, .oa, .lkc, .cu, .reports] t (react s t) :=
  ⟨by simp, fun b hb => by cases b <;> simp [Part.same] at hb ⊢⟩

theorem State.cond_replaced_ne {n m : Fin 20} (h : m ≠ n) (c : Condition) (s : State) : (s.cu.conditions.set n c)[m] = s.cond m :=
  Vector.getElem_set_ne _ _ (Fin.val_ne_of_ne (Ne.symm h))

/-- What the key leaves whichever way it turns. -/
theorem State.changeKey_leaves {b : Bool} {s : State} (h : s.cu.mode ≠ keyMode b) :
    OnlyChanges [.lp, .ut, .pe, .afe, .cs, .oa, .lkc, .cu, .reports] (s.modeChanged b) (s.changeKey b) ∧
    (s.changeKey b).cond 8 = (s.modeChanged b).cond 8 ∧ (s.changeKey b).cu.mode = (s.modeChanged b).cu.mode ∧
    (s.changeKey b).cu.mask = (s.modeChanged b).cu.mask := by
  have hstarve : NotStarvation 8 := ⟨by decide, by decide, by decide⟩
  have h4 : (8 : Fin 20) ≠ 4 := by decide
  rw [State.changeKey_eq h]
  split
  · exact ⟨onlyChanges_react _ _, cond_react _ _ hstarve h4, by simp, by simp⟩
  · exact ⟨onlyChanges_checkedHalts _ _ _, by rw [State.cond_applyHalts _ _ hstarve h4, State.cond_takingCheck], by simp, by simp⟩

/-- With no unit working, or with MODE_CHANGE active already, the key makes no condition active (R129). -/
theorem State.modeChanged_quiet {b : Bool} {s : State} (h : s.anyWorking = false ∨ s.active 8 = true) (m : Fin 20)
    (hm : (s.modeChanged b).active m = true) : s.active m = true := by
  by_cases e : m = 8
  · subst e
    rw [State.active_modeChanged] at hm
    rcases h with h | h
    · simpa [h] using hm
    · exact h
  · rwa [State.active_congr (State.cond_modeChanged_ne e b s)] at hm

/-- Settles O47: the mode, the mask and MODE_CHANGE after the key, and the taking check that either direction brings. -/
theorem keyChangeSetsTheModeAndCapsTheMask : Obligations.KeyChangeSetsTheModeAndCapsTheMask := by
  refine fun b s => ⟨fun h => congrArg finish (if_pos h), fun h => ?_⟩
  intro mask
  obtain ⟨hchanges, hcond, hmode, hmask⟩ := State.changeKey_leaves h
  obtain ⟨hstack, hrl, hmode', hmask'⟩ := State.modeChanged_rest b s
  have hcu : (arbitrate (s.changeKey b)).cu = (s.changeKey b).cu := by simp
  have hcond' : (arbitrate (s.changeKey b)).cond 8 = (s.modeChanged b).cond 8 := (State.cond_congr hcu 8).trans hcond
  have hall := ((onlyChanges_modeChanged b s).trans hchanges).trans (onlyChanges_arbitrate _)
  have quiet : b = true → (s.anyWorking = false ∨ s.active 8 = true) →
      (arbitrate (s.changeKey b)).cu.stack = s.cu.stack ∧ (arbitrate (s.changeKey b)).cu.rl = s.cu.rl := fun hb hq => by
    rw [hcu, State.changeKey_eq h, if_pos hb, react, checkIfActivated_none (State.modeChanged_quiet hq)]
    simp [hstack, hrl]
  rw [State.cond_modeChanged] at hcond'
  refine ⟨_, rfl, by simp [HoldingKept], hall.mono (by decide), by rw [hcu, hmode, hmode']; rfl, by rw [hcu, hmask, hmask'], by rw [hcond'],
    by rw [hcond'], fun hw ha => by rw [hcond']; exact if_pos ⟨hw, ha⟩, fun hb hw => quiet hb (.inl hw), fun hb _ ha => quiet hb (.inr ha),
    fun hb hw ha => ?_, fun hb => ?_⟩
  · have hactive : (s.modeChanged b).active 8 = true := by rw [State.active_modeChanged, hw, Bool.or_true]
    have hmade := takingCheckMade_react 8 ha hactive
    have hend : s.changeKey b = react s (s.modeChanged b) := by rw [State.changeKey_eq h, if_pos hb]
    rw [← hend] at hmade
    have hrecord : ∀ m, (raisedAt 0 8 { s.cond 8 with source := false, latch := true, lastActive := some s.now } s).cond m =
        (s.modeChanged b).cond m := fun m => by
      by_cases e : m = 8
      · subst e
        rw [State.cond_modeChanged, if_pos ⟨hw, ha⟩, hw]
        simp [raisedAt]
      · rw [State.cond_modeChanged_ne e]
        exact State.cond_replaced_ne e _ s
    refine (hmade.congr rfl rfl (by rw [hcu]) (by rw [hcu])).congr_conditions (fun m => State.active_congr (hrecord m))
      (fun m => by rw [hrecord]; exact ⟨rfl, rfl⟩) ⟨by rw [hstack]; rfl, by rw [hrl]; rfl, by rw [hmask', if_pos hb]; rfl⟩ ?_
    exact ((onlyChanges_modeChanged b s).2 .clock (by decide)).symm
  · have hend : s.changeKey b = ((s.modeChanged b).takingCheck []).applyHalts s.halt := by rw [State.changeKey_eq h, if_neg (by simp [hb])]
    have hmade := takingCheckMade_checkedHalts [] s.halt (s.modeChanged b)
    rw [← hend] at hmade
    refine (hmade.congr rfl rfl (by rw [hcu]) (by rw [hcu])).congr_conditions (fun m => ?_) (fun m => ?_)
      ⟨by rw [hstack]; rfl, by rw [hrl]; rfl, by rw [hmask']; rfl⟩ ((onlyChanges_modeChanged b s).2 .clock (by decide)).symm
    · by_cases e : m = 8
      · subst e
        rw [State.active_modeChanged, State.active_latched rfl, State.active_latched rfl]
        simp
      · refine State.active_congr ?_
        rw [State.cond_modeChanged_ne e]
        exact State.cond_replaced_ne e _ s
    · by_cases e : m = 8
      · subst e
        rw [State.cond_modeChanged]
        simp
      · rw [State.cond_modeChanged_ne e]
        have hsame : (s.cu.conditions.set 8 { s.cond 8 with latch := (s.cond 8).latch || s.anyWorking })[m] = s.cond m :=
          State.cond_replaced_ne e _ s
        exact ⟨congrArg Condition.severity hsame, congrArg Condition.vector hsame⟩

end Sys2Proof.Machine
end

