-- ==== Sys2Proof/Proofs/TimerConditions.lean ====
section
/-! LINE_SILENCE_EXPIRY and TRANSFER_TIMER_EXPIRY: the latched condition, its taking check, and what the halt leaves of the timer and the
conveyor (R14, R15, R127, R129, R133, R167). -/

namespace Sys2Proof.Machine

/-! ## An instant of assertion (R127) -/

theorem oneJudged_sourceInstant {n : Fin 20} {s v : State} (hv : v.cu = s.cu) : OneJudged n ((v.sourceInstant n).cond n) s (v.sourceInstant n) := by
  have hfirst := State.setSource_cu n true v
  have hsecond := State.setSource_cu n false (v.setSource n true)
  rw [OneJudged, ← hv]
  unfold State.sourceInstant
  rw [hsecond, hfirst]
  simp

/-- The record after an instant of assertion, from a state that has the conditions of `s`. -/
theorem State.cond_instant {n : Fin 20} (hk : conditionKind n = .latched) {s v : State} (hv : v.cu = s.cu) :
    (v.sourceInstant n).cond n = { s.cond n with
      source := false, latch := true, lastActive := if s.active n = false then some v.now else (s.cond n).lastActive } := by
  rw [State.cond_sourceInstant hk, State.cond_congr hv, State.active_latched hk]

/-- What the expiry of a timer leaves of its condition, and whether it brings the taking check (R129, R133). -/
theorem react_instant {n : Fin 20} (hk : conditionKind n = .latched) (hm : NotStarvation n) (h4 : n ≠ 4) {us : Nat} {s v : State}
    (hv : v.cu = s.cu) (hc : v.clockUs = s.clockUs + us) : let t := arbitrate (react s (v.sourceInstant n))
    t.now = v.now ∧ (t.cond n).latch = true ∧ (t.cond n).source = false ∧ (t.cond n).injected = (s.cond n).injected ∧
    (s.active n = false → (t.cond n).lastActive = some t.now ∧ TakingCheckMade (raisedAt us n
      { s.cond n with latch := true, source := false, lastActive := some t.now } s) t) ∧
    (s.active n = true → (t.cond n).lastActive = (s.cond n).lastActive ∧ t.cu.stack = s.cu.stack ∧ t.cu.rl = s.cu.rl) := by
  intro t
  have hone : OneJudged n ((v.sourceInstant n).cond n) s (v.sourceInstant n) := oneJudged_sourceInstant hv
  have hcu : t.cu = (react s (v.sourceInstant n)).cu := by simp [t]
  have hnow : t.now = v.now := State.now_congr (by simp [t])
  have hrecord := State.cond_instant hk hv
  have hcond : t.cond n = (v.sourceInstant n).cond n := (State.cond_congr hcu n).trans (hone.react_cond hm h4)
  have hactive : ((v.sourceInstant n).cond n).active (conditionKind n) = true := by rw [hrecord, hk]; rfl
  refine ⟨hnow, ?_, ?_, ?_, fun hs => ?_, fun hs => ?_⟩
  · rw [hcond, hrecord]
  · rw [hcond, hrecord]
  · rw [hcond, hrecord]
  · have hmade := hone.react_takes (us := us) hs hactive (by simp [hc])
    rw [hrecord, if_pos hs] at hmade
    refine ⟨by rw [hcond, hrecord, if_pos hs, hnow], ?_⟩
    rw [hnow]
    exact hmade.congr rfl rfl (by rw [hcu]) (by rw [hcu])
  · obtain ⟨hstack, hrl⟩ := hone.react_quiet (.inl hs)
    exact ⟨by rw [hcond, hrecord, if_neg (by simp [hs])], by rw [hcu, hstack], by rw [hcu, hrl]⟩

/-! ## What the end of an event keeps of the records -/

/-- A taking check leaves of a record all but its interruptions (R4, R134). -/
theorem RecordsKeep.takingCheck {α : Type} {f : UnitRecord → α} (hf : ∀ r x y, f { r with interruptions := x, overflow := y } = f r)
    (s : State) : RecordsKeep f s (s.takingCheck []) := by
  rcases taken_or_none s with ⟨n, hn⟩ | hn
  · rw [State.takingCheck_one hn]
    exact State.taken_keeps hf n s
  · rw [State.takingCheck_none hn]
    exact .of_ut rfl

theorem RecordsKeep.checkIfActivated {α : Type} {f : UnitRecord → α} (hf : ∀ r x y, f { r with interruptions := x, overflow := y } = f r)
    (s t : State) : RecordsKeep f t (checkIfActivated s t) := by
  unfold Machine.checkIfActivated
  split
  · exact .takingCheck hf t
  · exact .of_ut rfl

/-! ## The line silence timer (R167) -/

/-- The timer has expired, or no unit is left that works. -/
def SilenceSettled (s : State) : Prop := s.lp.silence = .expired ∨ (s.lp.silence = .disarmed ∧ s.anyWorking = false)

theorem SilenceSettled.of {s t : State} (h : SilenceSettled s) (hs : t.lp.silence = s.lp.silence)
    (hr : RecordsKeep (fun r => r.state.working) s t) : SilenceSettled t := by
  unfold SilenceSettled
  rwa [hs, State.anyWorking_congr hr]

/-- A check of R12 leaves the timer, and takes no working unit. -/
theorem SilenceSettled.checkTransfer {s : State} (h : SilenceSettled s) : SilenceSettled s.checkTransfer := by
  refine h.of (by simp) ?_
  unfold State.checkTransfer
  split
  · next i hi =>
    obtain ⟨r, hr, hstate⟩ := UnitTable.find_some hi
    have moved : RecordsKeep (fun r => r.state.working) s (s.runConveyor.enterState i .inTransfer) := by
      refine RecordsKeep.then_same (t := s.runConveyor.mapUnit i fun r => { r with state := .inTransfer })
        (RecordsKeep.trans (fun _ => rfl) (.mapUnit i fun q hq => ?_)) (by simp)
      obtain rfl : r = q := Option.some.inj (hr.symm.trans hq)
      rw [show r.state = .runDone by simpa using hstate]
      rfl
    split
    · dsimp only
      split
      · exact moved.then_same (by simp)
      · exact moved
    · exact .of_ut rfl
  · exact .of_ut rfl

/-- The end of a run disarms the timer where no unit is left working, and with none working there is no such end. -/
theorem SilenceSettled.checkRunDone {s : State} (h : SilenceSettled s) : SilenceSettled s.checkRunDone := by
  rcases h with hexpired | ⟨hdisarmed, hnone⟩
  · unfold State.checkRunDone
    split
    · exact .inl hexpired
    · next i _ =>
      split
      · exact .inl hexpired
      · split
        · refine SilenceSettled.checkTransfer ?_
          have hsame : (s.enterState i .runDone).syncStreams.disarmSilence.anyWorking = (s.enterState i .runDone).syncStreams.anyWorking :=
            State.anyWorking_congr (.of_ut (by simp))
          rw [SilenceSettled, State.silence_disarmSilence, hsame]
          cases (s.enterState i .runDone).syncStreams.anyWorking with
          | true => exact .inl (by simp [hexpired])
          | false => exact .inr ⟨rfl, rfl⟩
        · exact .inl hexpired
  · have hidle : s.checkRunDone = s := State.checkRunDone_idle fun j r hr hstate => by
      have hfind : s.ut.find UnitState.working = none := by simpa [State.anyWorking] using hnone
      have := UnitTable.find_eq_none hfind j r hr
      simp [hstate, UnitState.working] at this
    rw [hidle]
    exact .inr ⟨hdisarmed, hnone⟩

theorem keptByHalts_silence : KeptByHalts fun s t => SilenceSettled s → SilenceSettled t where
  refl _ := fun h => h
  trans h h' := fun hs => h' (h hs)
  setPe _ _ := fun h => h.of rfl (.of_ut rfl)
  setEnable _ := fun h => h.of (by simp) (.of_ut (by simp))
  complete _ s := fun h => h.of (by simp) (.mapRunIn_of (fun _ _ => rfl) _ s)
  closeWindows s := fun h => h.of (by simp) (.closeWindows (fun _ _ => rfl) s)
  checkRunDone _ := SilenceSettled.checkRunDone
  pauseWindow _ _ := fun h => h.of (by simp) (.of_ut (by simp))
  syncStreams _ := fun h => h.of (by simp) (.of_ut (by simp))
  haltChambers _ := fun h => h.of (by simp) (.of_ut (by simp))
  stopConveyor _ := fun h => h.of rfl (fun _ => rfl)

/-- What the end of an event that leaves the hold stack has of a relation that the halts keep. -/
theorem KeptByHalts.react {R : State → State → Prop} (h : KeptByHalts R) {s t : State} (hs : t.cu.stack = s.cu.stack) :
    R (checkIfActivated s t) (react s t) := by
  refine h.applyHalts ?_
  rw [← State.halt_congr hs]
  exact halt_within_checkIfActivated s t

/-! ## The conveyor (R15) -/

theorem NoUnitIn.of_records {u : UnitState} {s t : State} (h : NoUnitIn u s) (hk : RecordsKeep UnitRecord.state s t) : NoUnitIn u t := by
  intro j r hr hstate
  have hj := hk j
  rw [hr] at hj
  cases hs : s.ut.records[j] with
  | none => simp [hs] at hj
  | some q =>
    rw [hs] at hj
    exact h j q hs ((Option.some.inj hj).symm.trans hstate)

/-- With no unit RUNNING the end of a profile leaves the conveyor. -/
theorem State.profileEnd_conveyor {s : State} (h : NoUnitIn .running s) (cause : StopCause) :
    (s.profileEnd cause).ut.transferLine = s.ut.transferLine ∧ (s.profileEnd cause).ut.transferTimer = s.ut.transferTimer := by
  obtain ⟨t, ht⟩ : ∃ t, t = (s.driveOff.mapRunIn (RunIn.complete cause)).closeWindows := ⟨_, rfl⟩
  have hkept : RecordsKeep UnitRecord.state s t := by
    rw [ht]
    exact ((RecordsKeep.of_ut (by simp [State.driveOff])).trans (.mapRunIn_of (fun _ _ => rfl) _ _)).trans (.closeWindows (fun _ _ => rfl) _)
  have hnone : NoUnitIn .running (t.setPe { t.pe with phase := .idle, cause := none }) := h.of_records (hkept.then_same rfl)
  rw [State.profileEnd_eq]
  dsimp only
  rw [← ht, State.checkRunDone_idle hnone]
  simp [ht, State.driveOff]

theorem State.hardCheck_conveyor {s : State} (h : NoUnitIn .running s) :
    s.hardCheck.ut.transferLine = s.ut.transferLine ∧ s.hardCheck.ut.transferTimer = s.ut.transferTimer := by
  unfold State.hardCheck
  split
  · dsimp only
    split
    · next cause _ _ =>
      have hkept := State.profileEnd_conveyor (h.of_records (t := s.cutDrive) (.of_ut (by simp))) cause
      simpa [State.cutDrive] using hkept
    · simp
  · exact ⟨rfl, rfl⟩

theorem State.applyProfileHalt_conveyor {was : StopSet} {s : State} (hw : was.Within s.halt) (h : NoUnitIn .running s) :
    (s.applyProfileHalt was).ut.transferLine = s.ut.transferLine ∧ (s.applyProfileHalt was).ut.transferTimer = s.ut.transferTimer := by
  obtain ⟨hp, -⟩ := hw
  have halted : ∀ t : State, t.ut = s.ut → t.hardCheck.ut.transferLine = s.ut.transferLine ∧ t.hardCheck.ut.transferTimer = s.ut.transferTimer :=
    fun t ht => by
      have := State.hardCheck_conveyor (h.of_records (t := t) (.of_ut ht))
      rwa [ht] at this
  unfold State.applyProfileHalt
  split
  · unfold State.profileHalted
    dsimp only
    refine halted _ ?_
    split
    · split <;> simp
    all_goals rfl
  · exact halted s rfl
  · simp_all
  · exact ⟨rfl, rfl⟩

/-- The conveyor as an event ends that leaves the hold stack, with a unit on it: it stops where TRANSFER enters the halt set (R15). -/
theorem State.react_conveyor {i : Fin 8} {r : UnitRecord} {s w : State} (hs : w.cu.stack = s.cu.stack) (hi : IsUnitIn .inTransfer i r w)
    (hl : StationLaw w) (htimer : w.ut.transferTimer = none) :
    (react s w).ut.transferLine = (w.ut.transferLine && !(!s.halt.transfer && (react s w).halt.transfer)) ∧
    (react s w).ut.transferTimer = none ∧ ∃ r', (react s w).ut.records[i] = some r' ∧ r'.state = .inTransfer := by
  obtain ⟨c, hc⟩ : ∃ c, c = checkIfActivated s w := ⟨_, rfl⟩
  obtain ⟨l, hl'⟩ : ∃ l, l = ((c.applyProfileHalt s.halt).applyNoiseHalt s.halt).applyLeakHalt s.halt := ⟨_, rfl⟩
  have hend : react s w = l.applyTransferHalt s.halt := by rw [react, State.applyHalts, ← hc, ← hl']
  have hwithin : s.halt.Within c.halt := by
    rw [← State.halt_congr hs, hc]
    exact halt_within_checkIfActivated s w
  have within : ∀ {t : State}, t.cu.stack = c.cu.stack → s.halt.Within t.halt := fun ht => by rwa [State.halt_congr ht]
  have hkept : RecordsKeep UnitRecord.state w c := hc ▸ .checkIfActivated (fun _ _ _ => rfl) s w
  have hnone : NoUnitIn .running c := NoUnitIn.of_records (fun j q hq hstate => by
    obtain rfl := (hl i j r q hi.1 hq).1 (by rw [hi.2.1]; rfl) (by rw [hstate]; rfl)
    rw [hi.1] at hq
    cases hq
    simp [hi.2.1] at hstate) hkept
  obtain ⟨hline, htime⟩ := State.applyProfileHalt_conveyor hwithin hnone
  have hleak : l.ut = (c.applyProfileHalt s.halt).ut := by
    rw [hl', State.applyLeakHalt_entering (within (by simp))]
    split <;> simp
  have hlhalt : l.halt = c.halt := State.halt_congr (by simp [hl'])
  have hmoving : l.anyTransfer = true := by
    have hlwithin := within (t := (c.applyProfileHalt s.halt).applyNoiseHalt s.halt) (by simp)
    have hrun := keptByHalts_station2.trans (keptByHalts_station2.applyProfileHalt hwithin)
      (keptByHalts_station2.applyNoiseHalt (within (t := c.applyProfileHalt s.halt) (by simp)))
    have hboth := hc ▸ RecordsKeep.checkIfActivated (f := UnitRecord.station2) (fun _ _ _ => rfl) s w
    have hocc : c.unit2.isSome = true := by rw [hboth.unit2]; exact hi.unit2_isSome rfl
    have hall := hl' ▸ keptByHalts_station2.trans hrun (keptByHalts_station2.applyLeakHalt hlwithin) hocc
    rw [hall.anyTransfer, hboth.anyTransfer, State.anyTransfer, hi.find]
    rfl
  have hhalt : (react s w).halt = c.halt := State.halt_congr (by rw [hend]; simp [hl'])
  have hrecord : ∃ r', (react s w).ut.records[i] = some r' ∧ r'.state = .inTransfer := by
    have hboth : RecordsKeep UnitRecord.station2 w (react s w) := by
      have hchecked := hc ▸ RecordsKeep.checkIfActivated (f := UnitRecord.station2) (fun _ _ _ => rfl) s w
      have hocc : c.unit2.isSome = true := by rw [hchecked.unit2]; exact hi.unit2_isSome rfl
      exact hchecked.trans (hc ▸ keptByHalts_station2.react hs (hc ▸ hocc))
    have hj := hboth i
    rw [hi.1] at hj
    cases hr : (react s w).ut.records[i] with
    | none => simp [hr] at hj
    | some r' =>
      rw [hr] at hj
      have hstation := Option.some.inj hj
      refine ⟨r', rfl, ?_⟩
      simpa [UnitRecord.station2, hi.2.1] using congrArg (fun x : Fin 16 × Bool × Bool => x.2.2) hstation
  have hcline : c.ut.transferLine = w.ut.transferLine ∧ c.ut.transferTimer = w.ut.transferTimer := by simp [hc]
  refine ⟨?_, ?_, hrecord⟩
  · rw [hhalt, hend, State.applyTransferHalt_entering (within (by simp [hl'])), hlhalt, hmoving]
    cases s.halt.transfer <;> cases c.halt.transfer <;> simp [hleak, hline, hcline, State.stopConveyor]
  · rw [hend, State.applyTransferHalt_entering (within (by simp [hl'])), hlhalt, hmoving]
    cases s.halt.transfer <;> cases c.halt.transfer <;> simp [hleak, htime, hcline, htimer, State.stopConveyor]

/-! ## The obligation -/

/-- What an expiry leaves that lets `left` milliseconds pass. -/
theorem expiry_leaves {bs : List Part} {left : Nat} {s v : State} (n : Fin 20) (hv : OnlyChanges bs (s.elapseMs left) v)
    (hbs : ∀ b ∈ bs, b ∈ [Part.lp, .ut]) :
    OnlyChanges [.clock, .lp, .ut, .pe, .afe, .cs, .oa, .lkc, .cu, .reports] s (arbitrate (react s (v.sourceInstant n))) := by
  have hinstant : OnlyChanges [.cu] v (v.sourceInstant n) := ⟨by simp, fun b hb => by cases b <;> simp [Part.same] at hb ⊢⟩
  refine (((((onlyChanges_elapse (1000 * left) s).trans hv).trans hinstant).trans (onlyChanges_react s _)).trans (onlyChanges_arbitrate _)).mono ?_
  intro b hb
  cases b <;> simp at hb ⊢
  all_goals exact absurd (hbs _ hb) (by decide)

/-- Settles O20: the condition that each expiry latches, the timer that stands after it, and the conveyor. -/
theorem timerExpiriesLatchTheirConditions : Obligations.TimerExpiriesLatchTheirConditions := by
  refine ⟨fun s h => ?_, fun s left h => ?_, fun s => ⟨fun h => ?_, fun left i r h hi hl => ?_⟩⟩
  · have hidle : s.silenceExpiry = s := by
      unfold State.silenceExpiry
      rcases h with h | h <;> rw [h]
    exact congrArg finish hidle
  · obtain ⟨v, hv⟩ : ∃ v, v = (s.elapseMs left).setLp { (s.elapseMs left).lp with silence := .expired } := ⟨_, rfl⟩
    have hend : exec .lineSilenceExpiry s = .next (arbitrate (react s (v.sourceInstant 2))) := by
      refine congrArg finish ?_
      rw [State.silenceExpiry, h, hv]
    have hchanges : OnlyChanges [.lp] (s.elapseMs left) v := hv ▸ ⟨rfl, fun b hb => by cases b <;> simp [Part.same] at hb ⊢⟩
    obtain ⟨-, hlatch, hsource, hinjected, hnew, hold⟩ := react_instant (n := 2) (us := 1000 * left) rfl ⟨by decide, by decide, by decide⟩ (by decide)
      (s := s) (v := v) (by rw [hv]; rfl) (by rw [hv]; rfl)
    refine ⟨_, hend, expiry_leaves 2 hchanges (by decide), by simp [HoldingKept, hv, State.elapseMs], by simp [hv, State.elapseMs_clock], hlatch, hsource,
      hinjected, hnew, hold, ?_⟩
    have hsettled : SilenceSettled (checkIfActivated s (v.sourceInstant 2)) :=
      SilenceSettled.of (s := v) (.inl (by rw [hv]; rfl)) (by simp)
        (RecordsKeep.trans (.of_ut (by simp)) (.checkIfActivated (fun _ _ _ => rfl) s _))
    exact (keptByHalts_silence.react (by simp [hv, State.elapseMs]) hsettled).of (by simp) (.of_ut (by simp))
  · have hidle : s.transferExpiry = s := by
      unfold State.transferExpiry
      rw [h]
    exact congrArg finish hidle
  · obtain ⟨v, hv⟩ : ∃ v, v = (s.elapseMs left).setUt { (s.elapseMs left).ut with transferTimer := none } := ⟨_, rfl⟩
    have hend : exec .transferTimerExpiry s = .next (arbitrate (react s (v.sourceInstant 9))) := by
      refine congrArg finish ?_
      rw [State.transferExpiry, h, hv]
    have hchanges : OnlyChanges [.ut] (s.elapseMs left) v := hv ▸ ⟨rfl, fun b hb => by cases b <;> simp [Part.same] at hb ⊢⟩
    obtain ⟨-, hlatch, hsource, -, hnew, hold⟩ := react_instant (n := 9) (us := 1000 * left) rfl ⟨by decide, by decide, by decide⟩ (by decide)
      (s := s) (v := v) (by rw [hv]; rfl) (by rw [hv]; rfl)
    have hrecords : (v.sourceInstant 9).ut = v.ut := by simp
    have hvut : v.ut.records = s.ut.records := by rw [hv]; rfl
    have hwi : IsUnitIn .inTransfer i r (v.sourceInstant 9) := by
      unfold IsUnitIn at hi ⊢
      rwa [hrecords, hvut]
    have hwl : StationLaw (v.sourceInstant 9) := by
      unfold StationLaw at hl ⊢
      rwa [hrecords, hvut]
    obtain ⟨hline, htimer, hrecord⟩ := State.react_conveyor (s := s) (w := v.sourceInstant 9) (by simp [hv, State.elapseMs]) hwi hwl (by rw [hrecords, hv]; rfl)
    have hut : (arbitrate (react s (v.sourceInstant 9))).ut = (react s (v.sourceInstant 9)).ut := by simp
    have hhalt : (arbitrate (react s (v.sourceInstant 9))).halt = (react s (v.sourceInstant 9)).halt := State.halt_congr (by simp)
    refine ⟨_, hend, by simp [HoldingKept, hv, State.elapseMs], expiry_leaves 9 hchanges (by decide), by simp [hv, State.elapseMs_clock],
      by rw [hut, htimer], by rw [hut]; exact hrecord, hlatch, hsource, hnew, fun ha => (hold ha).2, ?_⟩
    rw [hhalt, hut, hline, hrecords, hv]
    rfl

end Sys2Proof.Machine
end

