-- ==== Sys2Proof/Proofs/PlanApply.lean ====
section
/-! PLAN_APPLY: the one stream that waits for its plan, as it gets it and as it waits on (R72, R73, R75, R79, R80). -/

namespace Sys2Proof.Machine

/-- A stream after its plan has been applied (R79). -/
def Stream.planned (p : Plan) (wanted : Bool) (x : Stream) : Stream :=
  { x with plan := p, target := none, state := if wanted then .running else .idle }

/-- Where one stream alone waits, the check of the waiting plans is that of its own. -/
theorem State.checkPlans_of_one_waits {st : StreamId} {s : State} (h : ∀ other, other ≠ st → (s.stream other).state ≠ .pendingPlan) :
    s.checkPlans = s.checkPlan st := by
  have skip : ∀ other, other ≠ st → s.checkPlan other = s := fun other ho => State.checkPlan_of_not_waiting (h other ho)
  have skip' : ∀ other, other ≠ st → (s.checkPlan st).checkPlan other = s.checkPlan st := fun other ho =>
    State.checkPlan_of_not_waiting (by rw [State.stream_checkPlan_ne ho]; exact h other ho)
  unfold State.checkPlans
  cases st with
  | vib => rw [skip' .slow (by simp), skip' .leak (by simp)]
  | slow => rw [skip .vib (by simp), skip' .leak (by simp)]
  | leak => rw [skip .vib (by simp), skip .slow (by simp)]

/-- A waiting plan that fits is applied, and nothing else happens: the stream was not STARVED (R79, R82). -/
theorem State.applyPlan_waiting {st : StreamId} {p : Plan} {s : State} (h : (s.stream st).state = .pendingPlan) :
    s.applyPlan st p = s.setStream st ((s.stream st).planned p (s.wanted st)) := by
  obtain ⟨u, hu⟩ : ∃ u, u = s.setStream st { s.stream st with plan := p, target := none } := ⟨_, rfl⟩
  have hstream : u.stream st = { s.stream st with plan := p, target := none } := hu ▸ State.stream_setStream_self st _ s
  have hwanted : u.wanted st = s.wanted st := by rw [hu]; cases st <;> rfl
  have hstate : (u.stream st).state ≠ .starved := by simp [hstream, h]
  have hentered : u.enterStream st (u.wantedState st) = u.setStream st ((s.stream st).planned p (s.wanted st)) := by
    have hnot : u.wantedState st ≠ .starved := by
      unfold State.wantedState
      split <;> simp
    rw [State.enterStream]
    dsimp only
    rw [if_neg hnot, if_neg hstate, hstream, State.wantedState, hwanted]
    rfl
  rw [State.applyPlan, ← hu, State.enterWanted]
  rw [if_neg fun ⟨hs, _⟩ => hstate hs, hentered, hu]
  cases st <;> rfl

theorem canApply_iff (st : StreamId) (p : Plan) (s : State) : s.cs.canApply st p = true ↔
    (s.stream st).heldRes + (s.stream st).heldPool = 0 ∧ p.res ≤ (s.stream st).plan.res + poolLeft s := by
  rw [CaptureStore.canApply, Bool.and_eq_true, decide_eq_true_iff, decide_eq_true_iff]
  exact Iff.rfl

theorem onlyChanges_setStream (st : StreamId) (x : Stream) (s : State) : OnlyChanges [.cs] s (s.setStream st x) :=
  ⟨rfl, fun b hb => by cases b <;> simp [Part.same] at hb ⊢⟩

/-- Settles O36: the accounts by their rules, and the check of the one plan that waits. -/
theorem waitingPlanIsAppliedWhenItFits : Obligations.WaitingPlanIsAppliedWhenItFits := by
  refine ⟨fun s => ⟨rfl, rfl, rfl, fun st => ⟨State.cap_eq st s, State.obtainable_eq st s⟩⟩, fun s => ⟨fun h => ?_, fun st p hw hp ho => ?_⟩⟩
  · exact congrArg finish (State.checkPlans_of_no_plan_waits h)
  intro x fits
  have hchecked : s.checkPlans = if s.cs.canApply st p then s.applyPlan st p else s := by
    rw [State.checkPlans_of_one_waits ho, State.checkPlan, hw, hp]
  refine ⟨fun h => ?_, fun h => ?_⟩
  · rw [if_neg (fun hc => h ((canApply_iff st p s).mp hc))] at hchecked
    exact congrArg finish hchecked
  · rw [if_pos ((canApply_iff st p s).mpr h), State.applyPlan_waiting hw] at hchecked
    obtain ⟨hchanges, hline⟩ := arbitrate_leaves (onlyChanges_setStream st ((s.stream st).planned p (s.wanted st)) s) rfl
    have hend : exec .planApply s = .next (arbitrate (s.setStream st ((s.stream st).planned p (s.wanted st)))) := congrArg finish hchecked
    have hcs : (arbitrate (s.setStream st ((s.stream st).planned p (s.wanted st)))).cs = s.cs.setStream st ((s.stream st).planned p (s.wanted st)) := by
      simp [State.setStream]
    have hdescs : ∀ y, (s.cs.setStream st y).vibDescs = s.cs.vibDescs ∧ (s.cs.setStream st y).slowDescs = s.cs.slowDescs ∧
        (s.cs.setStream st y).leakDescs = s.cs.leakDescs := fun y => by cases st <;> exact ⟨rfl, rfl, rfl⟩
    have hstream := State.stream_congr (s := s.setStream st ((s.stream st).planned p (s.wanted st))) 
      (t := arbitrate (s.setStream st ((s.stream st).planned p (s.wanted st)))) (by simp)
    refine ⟨_, hend, hchanges, hline, ?_, fun other hne => ?_, ?_⟩
    · rw [hstream, State.stream_setStream_self]
      rfl
    · rw [hstream, State.stream_setStream, if_neg hne]
    · rw [hcs]
      exact hdescs _

end Sys2Proof.Machine
end

