-- ==== Sys2Proof/Proofs/WindowEntry.lean ====
section
/-! The entry of one window to CLOSED: its grades in the noise section, and RUN_DONE behind the last (R11, R12, R96, R98, R99). -/

namespace Sys2Proof.Machine

/-! ## The grades (R96, R99) -/

section
variable {i : Fin 8} {r : UnitRecord} {s t : State}

/-- The window `g` of the table enters CLOSED, whatever stands beside it. -/
theorem State.gradeWindow_shown_of_window {g : Window} (hl : StationLaw s) (hu : IsUnitIn .running i r s)
    (ht : t.ut = s.ut) (hr : t.rs = s.rs) (hg : t.oa.window g.number = some g) :
    TableShown i r (t.oa.windows.map fun v => if v.number = g.number then { v with state := .closed } else v) (r.noise.join s.rs.live g) s
      (t.gradeWindow g.number) := by
  obtain ⟨m, hm⟩ : ∃ m, m = t.mapWindow g.number fun v => { v with state := .closed } := ⟨_, rfl⟩
  have hself : m.ut = (s.setRecord i (r.withNoise r.noise)).ut := by
    rw [show r.withNoise r.noise = r from rfl, State.setRecord_self hu.1, hm]
    simp [ht]
  obtain ⟨h1, hi⟩ := running_of_noise hl hu hself
  have hgrade : t.gradeWindow g.number = (m.setRecord i (r.withNoise (r.noise.join s.rs.live g))).closeTable := by
    unfold State.gradeWindow
    rw [hg]
    dsimp only
    rw [← hm, State.mapNoise_eq_setRecord h1 hi, hr]
    rfl
  rw [hgrade]
  refine State.closeTable_shown hl hu ?_ (by simpa [hm] using hr) (by simp [hm, State.mapWindow, OrderAnalyzer.mapWindow, State.setRecord])
  rw [State.setRecord_ut_congr hself, State.setRecord_setRecord]

end

/-- The window `g` stands in the place of its number in the table of `s`, in a state `a` that has the records, the settings, the halts and
the clock of `s`. -/
structure WindowReplaced (g : Window) (s a : State) : Prop where
  windows : a.oa.windows = s.oa.windows.map fun v => if v.number = g.number then g else v
  present : ∃ v ∈ s.oa.windows, v.number = g.number
  ut : a.ut = s.ut
  rs : a.rs = s.rs
  stack : a.cu.stack = s.cu.stack
  clock : a.clockUs = s.clockUs
  silence : a.lp.silence = s.lp.silence

theorem WindowReplaced.found {g : Window} {s a : State} (h : WindowReplaced g s a) : a.oa.window g.number = some g := by
  obtain ⟨v, hv, hn⟩ := h.present
  have hall : ∀ x ∈ a.oa.windows, x.number = g.number → x = g := fun x hx hxn => by
    rw [h.windows, List.mem_map] at hx
    obtain ⟨y, -, rfl⟩ := hx
    split at hxn
    · next hy => rw [if_pos hy]
    · next hy => exact absurd hxn hy
  have hmem : g ∈ a.oa.windows := by
    rw [h.windows, List.mem_map]
    exact ⟨v, hv, if_pos hn⟩
  rw [OrderAnalyzer.window]
  cases hf : a.oa.windows.find? fun w => decide (w.number = g.number) with
  | none => exact absurd (List.find?_eq_none.mp hf g hmem) (by simp)
  | some x => rw [hall x (List.mem_of_find?_eq_some hf) (by simpa using List.find?_some hf)]

/-- The table after `g` has entered CLOSED. -/
theorem WindowReplaced.closedTable {g : Window} {s a : State} (h : WindowReplaced g s a) :
    (a.oa.windows.map fun v => if v.number = g.number then { v with state := .closed } else v) =
      s.oa.windows.map fun v => if v.number = g.number then { g with state := .closed } else v := by
  rw [h.windows, List.map_map]
  refine List.map_congr_left fun v _ => ?_
  by_cases hv : v.number = g.number <;> simp [hv]

/-- Whether the window is the last to close. -/
theorem allClosed_replaced_iff (g : Window) (ws : List Window) :
    allClosed (ws.map fun v => if v.number = g.number then { g with state := .closed } else v) = true ↔
      ∀ v ∈ ws, v.number ≠ g.number → v.state = .closed := by
  simp only [allClosed, List.all_map, List.all_eq_true, Function.comp, decide_eq_true_eq]
  refine forall₂_congr fun v _ => ?_
  by_cases hv : v.number = g.number <;> simp [hv]

/-- A window's entry to CLOSED with the check of R11 behind it (R96, R99, R11, R12). -/
theorem windowClosed_gradeWindow {g : Window} {i : Fin 8} {r : UnitRecord} {s a : State} (h : WindowReplaced g s a) (hl : StationLaw s)
    (hu : IsUnitIn .running i r s) (he : r.runIn.ended = true) :
    WindowClosed g i r s (arbitrate (a.gradeWindow g.number).checkRunDone) := by
  obtain ⟨d, hd⟩ : ∃ d, d = a.gradeWindow g.number := ⟨_, rfl⟩
  obtain ⟨hwindows, hut, hrs⟩ := hd ▸ State.gradeWindow_shown_of_window hl hu h.ut h.rs h.found
  rw [h.closedTable] at hwindows hut
  rw [← hd]
  have hhalt : d.halt = s.halt := State.halt_congr (by rw [hd]; simpa using h.stack)
  have hnow : d.now = s.now := State.now_congr (by rw [hd]; simpa using h.clock)
  have hsilence : d.lp.silence = s.lp.silence := by rw [hd]; simpa using h.silence
  obtain ⟨r', hr'⟩ : ∃ r', r' = r.withNoise (if allClosed (s.oa.windows.map fun v => if v.number = g.number then { g with state := .closed } else v)
      then (r.noise.join s.rs.live g).concluded else r.noise.join s.rs.live g) := ⟨_, rfl⟩
  rw [← hr'] at hut
  have hstate : r'.state = r.state := by rw [hr']; rfl
  have hud : IsUnitIn .running i r' d := (hu.setRecord hstate).congr hut
  have hld : StationLaw d := (hl.setRecord hu.1 hstate).congr hut
  have hothers : ∀ j, j ≠ i → d.ut.records[j] = s.ut.records[j] := fun j hj => by rw [hut, State.setRecord_records, if_neg hj]
  have hrun : r'.runIn = r.runIn := by rw [hr']; rfl
  by_cases hlast : ∀ v ∈ s.oa.windows, v.number ≠ g.number → v.state = .closed
  · have hall := (allClosed_replaced_iff g s.oa.windows).mpr hlast
    rw [hall, if_pos rfl] at hwindows hr'
    have hunit2 : d.unit2 = s.unit2 := (State.unit2_congr hut).trans (State.unit2_setRecord hu.1 hstate)
    obtain ⟨others, record, line, timer, plan, announced, ⟨hslow, hstarved⟩, silence⟩ := runLeft_checkRunDone hld hud (by rw [hrun, he]) hwindows
    have hplan : d.recipeOf r' = s.recipeOf r := by rw [State.recipeOf, hrs, hr', State.recipeOf]; rfl
    rw [hhalt, hunit2] at record line timer plan announced
    rw [hplan] at plan
    rw [hnow] at announced
    rw [hsilence] at silence
    refine ⟨fun j hj => (others j hj).trans (hothers j hj), fun hn => absurd hlast hn, fun _ => ⟨?_, ?_, ?_, ?_, plan, ?_, hslow, hstarved, silence⟩⟩
    · simpa using hwindows
    · rw [record, hr']
      rfl
    · rw [line, hut]
      rfl
    · rw [timer, hut, hrs]
      rfl
    · rw [hr'] at announced
      exact announced
  · have hnot : ¬allClosed (s.oa.windows.map fun v => if v.number = g.number then { g with state := .closed } else v) = true :=
      fun hc => hlast ((allClosed_replaced_iff g s.oa.windows).mp hc)
    rw [if_neg hnot] at hwindows hr'
    obtain ⟨v, hv, -⟩ := h.present
    have hstays : d.checkRunDone = d := State.checkRunDone_stays hud fun ⟨_, hnil⟩ => by
      rw [hwindows] at hnil
      simp [List.map_eq_nil_iff.mp hnil] at hv
    rw [hstays]
    refine ⟨fun j hj => by rw [← hothers j hj]; simp, fun _ => ⟨?_, ?_⟩, fun hc => absurd hc hlast⟩
    · rw [show (arbitrate d).ut = d.ut by simp, hud.1, hr']
      rfl
    · simpa using hwindows

end Sys2Proof.Machine
end

