-- ==== Sys2Proof/Proofs/WindowDrain.lean ====
section
/-! WINDOW_DRAIN_CLOSE (R11, R12, R96, R98, R99). -/

namespace Sys2Proof.Machine

/-- A window that is CLOSING and holds no record. -/
def Window.drained (w : Window) : Bool := decide (w.state = .closing) && decide (w.held = 0)

theorem State.drainClose_none {s : State} (h : ∀ w ∈ s.oa.windows, ¬(w.state = .closing ∧ w.held = 0)) : s.drainClose = s := by
  have hnone : s.oa.windows.find? Window.drained = none := List.find?_eq_none.mpr fun w hw => by simpa [Window.drained] using h w hw
  unfold State.drainClose
  rw [show s.oa.windows.find? (fun w => decide (w.state = .closing) && decide (w.held = 0)) = none from hnone]

theorem State.drainClose_one {w : Window} {s : State} (hw : w ∈ s.oa.windows) (hc : w.state = .closing) (hh : w.held = 0)
    (hone : ∀ v ∈ s.oa.windows, v.state = .closing → v.held = 0 → v = w) : s.drainClose = s.gradeWindow w.number := by
  have hfound : s.oa.windows.find? Window.drained = some w := by
    cases hf : s.oa.windows.find? Window.drained with
    | none => exact absurd (List.find?_eq_none.mp hf w hw) (by simp [Window.drained, hc, hh])
    | some v =>
      have hv := List.find?_some hf
      simp only [Window.drained, Bool.and_eq_true, decide_eq_true_eq] at hv
      rw [hone v (List.mem_of_find?_eq_some hf) hv.1 hv.2]
  unfold State.drainClose
  rw [show s.oa.windows.find? (fun w => decide (w.state = .closing) && decide (w.held = 0)) = some w from hfound]

/-- A window of the table stands in its own place. -/
theorem windowReplaced_self {w : Window} {s : State} (hw : w ∈ s.oa.windows) (hone : ∀ v ∈ s.oa.windows, v.number = w.number → v = w) :
    WindowReplaced w s s := by
  refine ⟨?_, ⟨w, hw, rfl⟩, rfl, rfl, rfl, rfl, rfl⟩
  refine ((List.map_congr_left fun v hv => ?_).trans (List.map_id _)).symm
  split
  · next hn => exact (hone v hv hn).symm
  · rfl

/-- Settles O40: the grade of the one window that is drained, and the check of R11 behind it. -/
theorem drainedWindowIsGradedAndWritten : Obligations.DrainedWindowIsGradedAndWritten := by
  refine fun s => ⟨fun h => ?_, fun w i r hw hc hh hn hone hl hu he => ?_⟩
  · have hsame : s.drainClose.checkRunDone = s.checkRunDone := by rw [State.drainClose_none h]
    refine ⟨congrArg finish hsame, fun hquiet => congrArg finish (hsame.trans ?_)⟩
    rcases hquiet with hq | hq
    · exact State.checkRunDone_idle hq
    · exact State.checkRunDone_windows hq
  · have hgraded := State.drainClose_one hw hc hh hone
    have hend : exec .windowDrainClose s = .next (arbitrate (s.gradeWindow w.number).checkRunDone) :=
      congrArg finish (congrArg State.checkRunDone hgraded)
    refine ⟨_, hend, by simp [HoldingKept], ⟨by simp, fun b hb => by cases b <;> simp [Part.same] at hb ⊢⟩, by simp, by simp,
      windowClosed_gradeWindow (windowReplaced_self hw hn) hl hu ((RunIn.ended_iff _).mpr he), fun ⟨v, hv, hne, hopen⟩ => ?_⟩
    have hstays : (s.gradeWindow w.number).checkRunDone = s.gradeWindow w.number := by
      obtain ⟨-, hwindows, -⟩ := windowClosed_gradeWindow (windowReplaced_self hw hn) hl hu ((RunIn.ended_iff _).mpr he)
      obtain ⟨-, htable⟩ := hwindows fun hall => hopen (hall v hv hne)
      refine State.checkRunDone_windows fun hnil => ?_
      have hafter : (arbitrate (s.gradeWindow w.number).checkRunDone).oa.windows = [] := by simpa using hnil
      rw [hafter] at htable
      simp [List.map_eq_nil_iff.mp htable.symm] at hv
    rw [hstays]
    exact arbitrate_leaves (bs := [.ut, .oa]) ⟨by simp, fun b hb => by cases b <;> simp [Part.same] at hb ⊢⟩ (by simp)

end Sys2Proof.Machine
end

