-- ==== Sys2Proof/Proofs/Revolutions.lean ====
section
/-! The acceptance checks of a revolution, the release of a record, and the table of windows under a change of one (R77, R85, R89, R90). -/

namespace Sys2Proof.Machine

/-! ## The acceptance checks (R90) -/

theorem matches_iff (y : VibDescriptor) (w : WindowSpec) : y.direction.matches w.direction = true ↔ SameWay y w := by
  unfold SameWay
  cases y.direction <;> cases w.direction <;> simp [RevDirection.matches]

/-- A window that has rejected a record: counted, and one record less held. -/
def Window.rejected (why : Reject) (w : Window) : Window := { w.countReject why with held := w.held - 1 }

theorem Window.rejected_number (why : Reject) (w : Window) : (w.rejected why).number = w.number := by cases why <;> rfl

/-- A record passes the four checks, or its window counts the first that it fails. -/
theorem passes_or_rejected (y : VibDescriptor) (w : WindowSpec) :
    (Passes y w ∧ rejectReason y w = none) ∨
    (¬Passes y w ∧ ∃ why, rejectReason y w = some why ∧ ∀ v : Window, v.spec = w → IsRejection y v (v.rejected why)) := by
  unfold Passes rejectReason
  by_cases hp : y.pulses = 1024
  · by_cases hw : y.direction.matches w.direction = true
    · have hway := (matches_iff y w).mp hw
      by_cases hb : InBand y w
      · cases ho : y.overload with
        | false =>
          refine .inl ⟨⟨hp, hway, hb, rfl⟩, ?_⟩
          rw [if_neg (by simp [hp]), if_neg (by simp [hw]), if_neg (not_not_intro (show _ ∧ _ from hb)), if_neg (by simp)]
        | true =>
          refine .inr ⟨by simp, .overload, ?_, fun v hv => ?_⟩
          · rw [if_neg (by simp [hp]), if_neg (by simp [hw]), if_neg (not_not_intro (show _ ∧ _ from hb)), if_pos rfl]
          · subst hv
            exact ⟨fun h => absurd hp h, fun _ h => absurd hway h, fun _ _ h => absurd hb h, fun _ _ _ => rfl⟩
      · refine .inr ⟨fun h => hb h.2.2.1, .speedBand, ?_, fun v hv => ?_⟩
        · rw [if_neg (by simp [hp]), if_neg (by simp [hw]), if_pos (show ¬(_ ∧ _) from hb)]
        · subst hv
          exact ⟨fun h => absurd hp h, fun _ h => absurd hway h, fun _ _ _ => rfl, fun _ _ h => absurd h hb⟩
    · have hway : ¬SameWay y w := fun h => hw ((matches_iff y w).mpr h)
      refine .inr ⟨fun h => hway h.2.1, .wrongWay, ?_, fun v hv => ?_⟩
      · rw [if_neg (by simp [hp]), if_pos hw]
      · subst hv
        exact ⟨fun h => absurd hp h, fun _ _ => rfl, fun _ h => absurd h hway, fun _ h => absurd h hway⟩
  · refine .inr ⟨fun h => hp h.1, .slip, if_pos hp, fun v hv => ?_⟩
    subst hv
    exact ⟨fun _ => rfl, fun h => absurd h hp, fun h => absurd h hp, fun h => absurd h hp⟩

/-! ## The counts of R85 -/

/-- A 16-bit count after `n` events: it stops at 65535. -/
theorem repeat_count16 {n x : Nat} (h : x ≤ 65535) : Nat.repeat count16 n x = min 65535 (x + n) := by
  induction n with
  | zero => simp [Nat.repeat, h]
  | succ n ih =>
    rw [Nat.repeat, ih, count16, countUpTo]
    split <;> omega

/-! ## The release of a VIB record (R77) -/

/-- The accounts after the record in descriptor `d` has come back. -/
def CaptureStore.released (d : Fin 32) (c : CaptureStore) : CaptureStore :=
  { c with vib := c.vib.returnBlocks (c.vibDescs[d]).fromRes (c.vibDescs[d]).fromPool, vibDescs := c.vibDescs.set d .vacant }

section
variable {s t : State}

theorem NoPlanWaits.congr (h : NoPlanWaits s) (ht : t.cs = s.cs) : NoPlanWaits t := fun st => by rw [State.stream_congr ht]; exact h st

theorem NoPlanWaits.released (h : NoPlanWaits s) (d : Fin 32) : NoPlanWaits (s.setCs (s.cs.released d)) := fun st => by
  cases st
  · exact h .vib
  · exact h .slow
  · exact h .leak

theorem State.releaseVib_eq (h : NoPlanWaits s) (d : Fin 32) : s.releaseVib d = s.setCs (s.cs.released d) :=
  State.checkPlans_of_no_plan_waits (h.released d)

theorem CaptureStore.released_descs (d e : Fin 32) (c : CaptureStore) :
    (c.released d).vibDescs[e] = if e = d then .vacant else c.vibDescs[e] := by
  simp only [CaptureStore.released, Fin.getElem_fin, Vector.getElem_set, Fin.ext_iff, eq_comm]

/-- Several releases: each of the descriptors is FREE, and the others stand. -/
theorem State.foldl_releaseVib_eq (h : NoPlanWaits s) (ds : List (Fin 32)) :
    NoPlanWaits (ds.foldl (fun u d => u.releaseVib d) s) ∧
    (∃ c, ds.foldl (fun u d => u.releaseVib d) s = s.setCs c) ∧
    ∀ e : Fin 32, (ds.foldl (fun u d => u.releaseVib d) s).cs.vibDescs[e] = if e ∈ ds then .vacant else s.cs.vibDescs[e] := by
  induction ds generalizing s with
  | nil => exact ⟨h, ⟨s.cs, rfl⟩, fun e => by simp⟩
  | cons d ds ih =>
    obtain ⟨hwaits, ⟨c, hc⟩, hdescs⟩ := ih (h.released d)
    rw [List.foldl_cons, State.releaseVib_eq h]
    refine ⟨hwaits, ⟨c, by rw [hc]; rfl⟩, fun e => ?_⟩
    rw [hdescs, State.setCs_cs, CaptureStore.released_descs]
    by_cases he : e = d <;> simp [he]

end

/-! ## The table of windows (R85) -/

/-- A window of a table that is changed without a change of numbers. -/
theorem window_map {oa oa' : OrderAnalyzer} {g : Window → Window} (hg : ∀ v, (g v).number = v.number)
    (h : oa'.windows = oa.windows.map g) (n : Nat) : oa'.window n = (oa.window n).map g := by
  rw [OrderAnalyzer.window, OrderAnalyzer.window, h, List.find?_map]
  simp only [Function.comp_def, hg]

theorem window_number {oa : OrderAnalyzer} {n : Nat} {w : Window} (h : oa.window n = some w) : w.number = n ∧ w ∈ oa.windows :=
  ⟨by simpa using List.find?_some h, List.mem_of_find?_eq_some h⟩

/-- A window whose number is its own is found by it. -/
theorem window_of_number {oa : OrderAnalyzer} {n : Nat} {w : Window} (h : oa.window n = some w) : oa.window w.number = some w := by
  rw [(window_number h).1]
  exact h

/-- A window that does not wait for its last record is not closed by a drain (R96). -/
theorem State.closeIfDrained_stays {n : Nat} {w : Window} {s : State} (h : s.oa.window n = some w) (hw : w.state ≠ .closing ∨ w.held ≠ 0) :
    s.closeIfDrained n = s := by
  unfold State.closeIfDrained
  rw [h]
  exact if_neg fun ⟨hc, hh⟩ => hw.elim (fun h => h hc) fun h => h hh

theorem State.closeIfDrained_grades {n : Nat} {w : Window} {s : State} (h : s.oa.window n = some w) (hc : w.state = .closing) (hh : w.held = 0) :
    s.closeIfDrained n = s.gradeWindow n := by
  unfold State.closeIfDrained
  rw [h]
  exact if_pos ⟨hc, hh⟩

/-! ## The head of the queue (R89) -/

theorem State.takeHeads_none {s : State} (h : s.oa.queue = [] ∨ s.oa.current.isSome = true) : s.takeHeads = s := by
  have hpump : ∀ n, pump (n + 1) s = s := fun n => by
    rw [pump]
    split
    · next hc hq => rcases h with h | h <;> simp_all
    · rfl
  exact hpump _

/-- The head that passes the four checks is taken under analysis. -/
theorem State.takeHeads_accepts {s : State} {e : Fin 32} {rest : List (Fin 32)} {v : Window} (hc : s.oa.current = none)
    (hq : s.oa.queue = e :: rest) (hw : s.oa.window (s.cs.vibDescs[e]).window = some v) (hp : rejectReason (s.cs.vibDescs[e]) v.spec = none) :
    s.takeHeads = s.setOa { s.oa with queue := rest, current := some e } := by
  rw [State.takeHeads, pump, hc, hq]
  dsimp only
  rw [hw]
  dsimp only
  rw [hp]
  rfl

/-- The machine with the one record of the queue, that of descriptor `e`, rejected by the windows of number `n` and released. -/
def State.headRejected (e : Fin 32) (n : Nat) (why : Reject) (s : State) : State :=
  (s.setOa ⟨[], none, s.oa.windows.map fun x => if x.number = n then x.rejected why else x⟩).setCs (s.cs.released e)

/-- The last head that is rejected leaves the Order Analyzer free. -/
theorem State.takeHeads_rejects {s : State} {e : Fin 32} {v : Window} {why : Reject} (hn : NoPlanWaits s) (hc : s.oa.current = none)
    (hq : s.oa.queue = [e]) (hw : s.oa.window (s.cs.vibDescs[e]).window = some v)
    (hp : rejectReason (s.cs.vibDescs[e]) v.spec = some why) (hv : v.state ≠ .closing) :
    s.takeHeads = s.headRejected e v.number why := by
  obtain ⟨u, hu⟩ : ∃ u, u = s.headRejected e v.number why := ⟨_, rfl⟩
  have hstate : (v.rejected why).state = v.state := by cases why <;> rfl
  have hreject : (s.setOa { s.oa with queue := [] }).rejectRecord e v.number why = u := by
    have hmapped : ((s.setOa { s.oa with queue := [] }).mapWindow v.number fun w => w.rejected why).releaseVib e = u := by
      rw [State.releaseVib_eq (s := (s.setOa { s.oa with queue := [] }).mapWindow v.number fun w => w.rejected why) (hn.congr rfl), hu]
      simp only [State.mapWindow, OrderAnalyzer.mapWindow, State.setOa_oa, hc]
      rfl
    have hheld : ∀ x : Window, { x.countReject why with held := (x.countReject why).held - 1 } = x.rejected why := fun x => by cases why <;> rfl
    have hfound : u.oa.window v.number = some (v.rejected why) := by
      rw [window_map (oa := s.oa) (g := fun x => if x.number = v.number then x.rejected why else x) (fun x => by split <;> simp [Window.rejected_number])
        (by rw [hu]; rfl), window_of_number hw]
      simp
    rw [State.rejectRecord]
    simp only [hheld]
    rw [hmapped]
    exact State.closeIfDrained_stays hfound (.inl (by rw [hstate]; exact hv))
  rw [State.takeHeads, hq, List.length_singleton, pump, hc, hq]
  dsimp only
  rw [hw]
  dsimp only
  rw [hp]
  dsimp only
  rw [hreject, ← hu, pump]
  rw [show u.oa.queue = [] by rw [hu]; rfl]
  split <;> simp_all

end Sys2Proof.Machine
end

