-- ==== Sys2Proof/Proofs/Analysis.lean ====
section
/-! ANALYSIS_COMPLETE: the accumulated revolution, the head that is taken behind it, and the window that completes or closes (R89 to R91, R93,
R94, R96). -/

namespace Sys2Proof.Machine

/-! ## The accumulated revolution (R91, R93, R94) -/

/-- A window after the powers of record `y` have joined it, and with one record less. -/
def Window.joinedBy (y : VibDescriptor) (v : Window) : Window := { v with
  held := v.held - 1
  acc := match v.spec.kind with
    | .steady => List.zipWith (· + ·) v.acc (y.powers v.spec)
    | .sweep => List.zipWith max v.acc (y.powers v.spec)
  nAcc := if v.spec.kind = .sweep ∧ v.spec.nReq ≤ v.nAcc then v.nAcc else v.nAcc + 1 }

theorem Window.accumulate_held (y : VibDescriptor) (v : Window) :
    { v.accumulate (y.powers v.spec) with held := (v.accumulate (y.powers v.spec)).held - 1 } = v.joinedBy y := by
  unfold Window.accumulate Window.joinedBy
  cases v.spec.kind with
  | steady => simp
  | sweep =>
    by_cases h : v.nAcc < v.spec.nReq
    · simp [h]
    · simp [h, Nat.le_of_not_lt h]

/-- The table with the record of descriptor `d` joined to the windows of number `n`. -/
def State.joinedTable (d : Fin 32) (n : Nat) (s : State) : List Window :=
  s.oa.windows.map fun v => if v.number = n then v.joinedBy (s.cs.vibDescs[d]) else v

/-- The machine with the record of descriptor `d` accumulated in window `n` and released. -/
def State.analysed (d : Fin 32) (n : Nat) (s : State) : State :=
  (s.setOa { queue := s.oa.queue, current := none, windows := s.joinedTable d n }).setCs (s.cs.released d)

theorem State.completeAnalysis_eq {d : Fin 32} {w : Window} {s : State} (hn : NoPlanWaits s) (hc : s.oa.current = some d)
    (hw : s.oa.window (s.cs.vibDescs[d]).window = some w) :
    s.completeAnalysis = ((s.analysed d w.number).afterAccept w.number).takeHeads := by
  have hmapped : ((s.setOa { s.oa with current := none }).mapWindow w.number fun v =>
      { v.accumulate ((s.cs.vibDescs[d]).powers v.spec) with held := (v.accumulate ((s.cs.vibDescs[d]).powers v.spec)).held - 1 }).releaseVib d =
        s.analysed d w.number := by
    simp only [Window.accumulate_held]
    exact State.releaseVib_eq (s := (s.setOa { s.oa with current := none }).mapWindow w.number fun v => v.joinedBy (s.cs.vibDescs[d])) (hn.congr rfl) d
  unfold State.completeAnalysis
  rw [hc]
  dsimp only
  rw [hw]
  dsimp only
  rw [hmapped]

section
variable {d : Fin 32} {w : Window} {s : State}

theorem NoPlanWaits.analysed (hn : NoPlanWaits s) (d : Fin 32) (n : Nat) : NoPlanWaits (s.analysed d n) := (hn.released d).congr rfl

/-- A window of the table with the record joined. -/
theorem State.analysed_window (d : Fin 32) (n m : Nat) (s : State) :
    (s.analysed d n).oa.window m = (s.oa.window m).map fun v => if v.number = n then v.joinedBy (s.cs.vibDescs[d]) else v :=
  window_map (fun v => by split <;> rfl) rfl m

theorem State.analysed_own (hw : s.oa.window (s.cs.vibDescs[d]).window = some w) :
    (s.analysed d w.number).oa.window w.number = some (w.joinedBy (s.cs.vibDescs[d])) := by
  rw [State.analysed_window, window_of_number hw]
  simp

theorem State.analysed_present (hw : w ∈ s.oa.windows) (n : Nat) : (s.analysed d n).oa.windows ≠ [] := fun h => by
  simp [List.map_eq_nil_iff.mp (show s.joinedTable d n = [] from h)] at hw

theorem State.analysed_descs (e : Fin 32) (n : Nat) : (s.analysed d n).cs.vibDescs[e] = if e = d then .vacant else s.cs.vibDescs[e] :=
  CaptureStore.released_descs d e s.cs

/-- A window that neither completes nor closes has no more to it (R93, R96). -/
theorem State.afterAccept_goes_on {n : Nat} {s : State} (hw : s.oa.window n = some w) (hfull : ¬(w.spec.kind = .steady ∧ w.nAcc = w.spec.nReq))
    (hopen : w.state ≠ .closing ∨ w.held ≠ 0) : s.afterAccept n = s := by
  unfold State.afterAccept
  rw [hw]
  dsimp only
  rw [if_neg hfull]
  exact State.closeIfDrained_stays hw hopen

theorem State.afterAccept_drains {n : Nat} {s : State} (hw : s.oa.window n = some w) (hfull : ¬(w.spec.kind = .steady ∧ w.nAcc = w.spec.nReq))
    (hc : w.state = .closing) (hh : w.held = 0) : s.afterAccept n = s.gradeWindow n := by
  unfold State.afterAccept
  rw [hw]
  dsimp only
  rw [if_neg hfull]
  exact State.closeIfDrained_grades hw hc hh

theorem State.afterAccept_full {n : Nat} {s : State} (hw : s.oa.window n = some w) (hfull : w.spec.kind = .steady ∧ w.nAcc = w.spec.nReq) :
    s.afterAccept n = if w.state = .closing then (s.releaseSurplus n).gradeWindow n
      else ((s.releaseSurplus n).mapWindow n fun v => { v with state := .complete }).syncStreams := by
  unfold State.afterAccept
  rw [hw]
  exact if_pos hfull

/-- A window that has given up the `count` records it held in the queue (R93). -/
def Window.emptied (count : Nat) (v : Window) : Window := { v with released := Nat.repeat count16 count v.released, held := 0 }

/-- Where every record of the queue is of window `n`, they are all released unanalysed (R93). -/
theorem State.releaseSurplus_all {n : Nat} {s : State} (hn : NoPlanWaits s) (hq : ∀ e ∈ s.oa.queue, (s.cs.vibDescs[e]).window = n) :
    (s.releaseSurplus n).oa = { s.oa with
      queue := [], windows := s.oa.windows.map fun v =>
        if v.number = n then v.emptied s.oa.queue.length else v } ∧
    (∀ e : Fin 32, (s.releaseSurplus n).cs.vibDescs[e] = if e ∈ s.oa.queue then .vacant else s.cs.vibDescs[e]) := by
  have hmine : s.oa.queue.filter (fun d => decide ((s.cs.vibDescs[d]).window = n)) = s.oa.queue :=
    List.filter_eq_self.mpr fun e he => by simpa using hq e he
  have hrest : s.oa.queue.filter (fun d => !decide ((s.cs.vibDescs[d]).window = n)) = [] :=
    List.filter_eq_nil_iff.mpr fun e he => by simpa using hq e he
  unfold State.releaseSurplus
  dsimp only
  rw [hmine, hrest]
  obtain ⟨-, ⟨c, hc⟩, hdescs⟩ := State.foldl_releaseVib_eq (s := (s.setOa { s.oa with queue := [] }).mapWindow n fun w =>
    { w with released := Nat.repeat count16 s.oa.queue.length w.released, held := 0 }) (hn.congr rfl) s.oa.queue
  refine ⟨?_, hdescs⟩
  rw [hc]
  rfl

end

/-! ## The obligation -/

theorem exec_analysisComplete_eq (s : State) : exec .analysisComplete s = .next (arbitrate s.completeAnalysis.checkRunDone) := rfl

/-- The end of an analysis that leaves windows in the table. -/
theorem exec_analysisComplete_windows {s u : State} (h : s.completeAnalysis = u) (hw : u.oa.windows ≠ []) :
    exec .analysisComplete s = .next (arbitrate u) := by rw [exec_analysisComplete_eq, h, State.checkRunDone_windows hw]

/-- Settles O39: the accumulated revolution, and what follows of it by the window and the queue. -/
theorem analysisAccumulatesTheRevolution : Obligations.AnalysisAccumulatesTheRevolution := by
  refine fun s hn => ⟨fun hc => ?_, fun d w hc hw hstate => ?_⟩
  · have hidle : s.completeAnalysis = s := by
      unfold State.completeAnalysis
      rw [hc]
    exact ⟨_, (exec_analysisComplete_eq s).trans (by rw [hidle]), by simp, by simp, by simp⟩
  intro old added full goesOn join
  obtain ⟨hnum, hmem⟩ := window_number hw
  have hend := State.completeAnalysis_eq hn hc hw
  have hown := State.analysed_own hw
  have hwaits := hn.analysed d w.number
  have hpresent : (s.analysed d w.number).oa.windows ≠ [] := State.analysed_present hmem _
  have hcount : (w.joinedBy (s.cs.vibDescs[d])).spec.kind = .steady ∧ (w.joinedBy (s.cs.vibDescs[d])).nAcc = w.spec.nReq ↔ full := by
    simp only [Window.joinedBy, full]
    cases w.spec.kind <;> simp
  have hcompletes : goesOn → s.completeAnalysis = (s.analysed d w.number).takeHeads := fun ⟨hf, hopen⟩ => by
    rw [hend, State.afterAccept_goes_on hown (fun h => hf (hcount.mp h)) (hopen.imp (fun h => h) fun h => Nat.sub_ne_zero_of_lt h)]
  have surplus : (∀ e ∈ s.oa.queue, e ≠ d → (s.cs.vibDescs[e]).window = w.number) → d ∉ s.oa.queue →
      ((s.analysed d w.number).releaseSurplus w.number).oa = ⟨[], none, s.oa.windows.map fun v =>
        if v.number = w.number then (v.joinedBy (s.cs.vibDescs[d])).emptied s.oa.queue.length else v⟩ ∧
      ∀ e : Fin 32, ((s.analysed d w.number).releaseSurplus w.number).cs.vibDescs[e] =
        if e ∈ s.oa.queue then .vacant else (s.analysed d w.number).cs.vibDescs[e] := fun hall hd => by
    have hmine : ∀ e ∈ (s.analysed d w.number).oa.queue, ((s.analysed d w.number).cs.vibDescs[e]).window = w.number := fun e he => by
      have hed : e ≠ d := fun h => hd (h ▸ he)
      rw [State.analysed_descs, if_neg hed]
      exact hall e he hed
    obtain ⟨hoa, hdescs⟩ := State.releaseSurplus_all hwaits hmine
    refine ⟨hoa.trans ?_, hdescs⟩
    show OrderAnalyzer.mk [] none ((s.joinedTable d w.number).map _) = _
    rw [State.joinedTable, List.map_map]
    refine congrArg (OrderAnalyzer.mk [] none) (List.map_congr_left fun v _ => ?_)
    by_cases hv : v.number = w.number <;> simp [hv, Window.joinedBy, Window.emptied] <;> rfl
  refine ⟨arbitrate s.completeAnalysis.checkRunDone, rfl, by simp [HoldingKept],
    ⟨by simp, fun b hb => by cases b <;> simp [Part.same] at hb ⊢⟩, fun hgo hq => ?_, fun hgo e rest hq hed v hv hvs huniq => ?_,
    fun hfull hs hall hd => ?_, fun i r hclosing huniq hl hu' he => ⟨fun hfull hrel hall hd => ?_, fun hfull hh hq => ?_⟩⟩
  · rw [hcompletes hgo, State.takeHeads_none (s := s.analysed d w.number) (.inl hq), State.checkRunDone_windows hpresent]
    have harb : (arbitrate (s.analysed d w.number)).cs = s.cs.released d ∧
        (arbitrate (s.analysed d w.number)).oa = ⟨s.oa.queue, none, s.joinedTable d w.number⟩ := by simp [State.analysed]
    obtain ⟨hcs, hoa⟩ := harb
    exact ⟨hcs, by rw [hoa, hq]; rfl⟩
  · have hdesc : (s.analysed d w.number).cs.vibDescs[e] = s.cs.vibDescs[e] := by rw [State.analysed_descs, if_neg hed]
    have hhead : (s.analysed d w.number).oa.queue = e :: rest := hq
    have hfound : (s.analysed d w.number).oa.window ((s.analysed d w.number).cs.vibDescs[e]).window = some (join v) := by
      rw [hdesc, State.analysed_window, hv]
      rfl
    have hspec : (join v).spec = v.spec := by simp only [join]; split <;> rfl
    have hfree : (s.analysed d w.number).cs.vibDescs[d] = .vacant := by rw [State.analysed_descs, if_pos rfl]
    rcases passes_or_rejected (s.cs.vibDescs[e]) v.spec with ⟨hp, hreason⟩ | ⟨hp, why, hreason, hrejection⟩
    · refine ⟨fun _ => ?_, fun h => absurd hp h⟩
      have haccepts := State.takeHeads_accepts rfl hhead hfound (by rw [hdesc, hspec, hreason])
      obtain ⟨u, hu⟩ : ∃ u, u = (s.analysed d w.number).setOa { (s.analysed d w.number).oa with queue := rest, current := some e } := ⟨_, rfl⟩
      have harb : (arbitrate u).cs = (s.analysed d w.number).cs ∧ (arbitrate u).oa = ⟨rest, some e, s.joinedTable d w.number⟩ := by
        simp [hu, State.analysed]
      rw [hcompletes hgo, haccepts, ← hu, State.checkRunDone_windows (s := u) (by rw [hu]; exact hpresent), harb.1, harb.2, hdesc, hfree]
      exact ⟨rfl, rfl, rfl⟩
    · refine ⟨fun h => absurd h hp, fun _ hr => ?_⟩
      subst hr
      have hjstate : (join v).state = v.state := by simp only [join]; split <;> rfl
      have hjnumber : ∀ x, (join x).number = x.number := fun x => by simp only [join]; split <;> rfl
      have hrejects := State.takeHeads_rejects hwaits rfl hhead hfound (by rw [hdesc, hspec, hreason])
        (by rw [hjstate]; rcases hvs with h | h <;> simp [h])
      obtain ⟨v', hv'⟩ : ∃ v', v' = (join v).rejected why := ⟨_, rfl⟩
      have hv'number : v'.number = v.number := by rw [hv', Window.rejected_number, hjnumber]
      have htable : (s.joinedTable d w.number).map (fun x => if x.number = (join v).number then x.rejected why else x) =
          s.oa.windows.map fun x => if x.number = v.number then v' else join x := by
        rw [State.joinedTable, List.map_map]
        refine List.map_congr_left fun x hx => ?_
        show (if (join x).number = (join v).number then (join x).rejected why else join x) = _
        rw [hjnumber, hjnumber]
        split
        · next hxv => rw [hv', huniq x hx hxv]
        · rfl
      obtain ⟨u, hu⟩ : ∃ u, u = (s.analysed d w.number).headRejected e (join v).number why := ⟨_, rfl⟩
      have huwindows : u.oa.windows = s.oa.windows.map fun x => if x.number = v.number then v' else join x := by rw [hu]; exact htable
      have hupresent : u.oa.windows ≠ [] := by
        rw [huwindows]
        exact fun h => by simp [List.map_eq_nil_iff.mp h] at hmem
      have harb : (arbitrate u).cs = (s.analysed d w.number).cs.released e ∧ (arbitrate u).oa = ⟨[], none, u.oa.windows⟩ := by simp [hu, State.headRejected]
      rw [hcompletes hgo, show (s.analysed d w.number).takeHeads = u from hu ▸ hrejects, State.checkRunDone_windows hupresent, harb.1, harb.2]
      refine ⟨?_, ?_, v', ?_, hv'number, ?_, by rw [huwindows]⟩
      · rw [CaptureStore.released_descs, if_pos rfl]
        rfl
      · rw [CaptureStore.released_descs, if_neg (Ne.symm hed), hfree]
        rfl
      · rw [huwindows, List.mem_map]
        exact ⟨v, (window_number hv).2, if_pos rfl⟩
      · rw [hv']
        exact hrejection (join v) hspec
  · obtain ⟨u, hu⟩ : ∃ u, u = (((s.analysed d w.number).releaseSurplus w.number).mapWindow w.number fun v => { v with state := .complete }).syncStreams := ⟨_, rfl⟩
    obtain ⟨hsurplus, hfreed⟩ := surplus hall hd
    have hutable : u.oa = ⟨[], none, s.oa.windows.map fun v => if v.number = w.number then { (v.joinedBy (s.cs.vibDescs[d])).emptied s.oa.queue.length with state := .complete } else v⟩ := by
      rw [hu, show ∀ x : State, x.syncStreams.oa = x.oa from fun x => by simp, State.mapWindow, State.setOa_oa, OrderAnalyzer.mapWindow, hsurplus]
      simp only [OrderAnalyzer.mk.injEq, true_and, List.map_map]
      refine List.map_congr_left fun v _ => ?_
      by_cases hv : v.number = w.number <;> simp [hv, Window.joinedBy, Window.emptied]
    have hcompleted : s.completeAnalysis = u := by
      rw [hend, State.afterAccept_full hown (hcount.mpr hfull), if_neg (show ¬(w.joinedBy _).state = .closing from hs), ← hu]
      exact State.takeHeads_none (.inl (by rw [hutable]))
    have hupresent : u.oa.windows ≠ [] := by
      rw [hutable]
      exact fun h => by simp [List.map_eq_nil_iff.mp h] at hmem
    have hdescs : (arbitrate u).cs.vibDescs = ((s.analysed d w.number).releaseSurplus w.number).cs.vibDescs := by simp [hu]
    rw [hcompleted, State.checkRunDone_windows hupresent, hdescs, show (arbitrate u).oa = u.oa by simp, hutable]
    refine ⟨rfl, rfl, fun e he => ?_, ?_, _, List.mem_map.mpr ⟨w, hmem, if_pos rfl⟩, rfl, rfl, rfl, ?_, ?_, fun hle => ?_⟩
    · rw [hfreed, if_pos he]
      rfl
    · rw [hfreed, if_neg hd, State.analysed_descs, if_pos rfl]
      rfl
    · exact (hcount.mpr hfull).2
    · simp [Window.emptied, Window.joinedBy, hfull.1] <;> rfl
    · show Nat.repeat count16 s.oa.queue.length w.released = _
      rw [repeat_count16 (by omega)]
      omega
  · obtain ⟨hsurplus, hfreed⟩ := surplus hall hd
    obtain ⟨g, hg⟩ : ∃ g, g = (w.joinedBy (s.cs.vibDescs[d])).emptied s.oa.queue.length := ⟨_, rfl⟩
    obtain ⟨u, hu⟩ : ∃ u, u = (s.analysed d w.number).releaseSurplus w.number := ⟨_, rfl⟩
    have hgexact : g = { added w with held := 0, released := min 65535 (w.released + s.oa.queue.length) } := by
      rw [hg, Window.emptied, show (w.joinedBy (s.cs.vibDescs[d])).released = w.released from rfl, repeat_count16 hrel]
      rfl
    have hreplaced : WindowReplaced g s u := by
      refine ⟨?_, ⟨w, hmem, by rw [hg]; rfl⟩, by simp [hu, State.releaseSurplus, State.analysed], by simp [hu, State.releaseSurplus, State.analysed], by simp [hu, State.releaseSurplus, State.analysed], by simp [hu, State.releaseSurplus, State.analysed], by simp [hu, State.releaseSurplus, State.analysed]⟩
      rw [hu, hsurplus]
      refine List.map_congr_left fun v hv => ?_
      by_cases hvn : v.number = w.number
      · rw [if_pos hvn, if_pos (by rw [hvn, hg]; rfl), huniq v hv hvn, hg]
      · rw [if_neg hvn, if_neg (by rw [hg]; exact hvn)]
    have hgraded : s.completeAnalysis = u.gradeWindow g.number := by
      rw [hend, State.afterAccept_full hown (hcount.mpr hfull), if_pos (show (w.joinedBy _).state = .closing from hclosing), ← hu, show g.number = w.number by rw [hg]; rfl]
      exact State.takeHeads_none (.inl (by rw [State.gradeWindow_parts w.number u |>.2.2.2.1, hu, hsurplus]))
    have hclosed := windowClosed_gradeWindow hreplaced hl hu' ((RunIn.ended_iff _).mpr he)
    rw [← hgexact, hgraded]
    have hdescs : (arbitrate (u.gradeWindow g.number).checkRunDone).cs.vibDescs = u.cs.vibDescs := by simp
    refine ⟨hclosed, ?_, ?_, fun e he => ?_, ?_⟩
    · simp [hu, hsurplus]
    · simp [hu, hsurplus]
    · rw [hdescs, hu, hfreed, if_pos he]
      rfl
    · rw [hdescs, hu, hfreed, if_neg hd, State.analysed_descs, if_pos rfl]
      rfl
  · obtain ⟨g, hg⟩ : ∃ g, g = w.joinedBy (s.cs.vibDescs[d]) := ⟨_, rfl⟩
    have hreplaced : WindowReplaced g s (s.analysed d w.number) := by
      refine ⟨List.map_congr_left fun v hv => ?_, ⟨w, hmem, by rw [hg]; rfl⟩, rfl, rfl, rfl, rfl, rfl⟩
      by_cases hvn : v.number = w.number
      · rw [if_pos hvn, if_pos (by rw [hvn, hg]; rfl), huniq v hv hvn, hg]
      · rw [if_neg hvn, if_neg (by rw [hg]; exact hvn)]
    have hgraded : s.completeAnalysis = (s.analysed d w.number).gradeWindow g.number := by
      rw [hend, State.afterAccept_drains hown (fun h => hfull (hcount.mp h)) hclosing (Nat.sub_eq_zero_of_le hh), show g.number = w.number by rw [hg]; rfl]
      exact State.takeHeads_none (.inl (by rw [State.gradeWindow_parts w.number _ |>.2.2.2.1]; exact hq))
    have hclosed := windowClosed_gradeWindow hreplaced hl hu' ((RunIn.ended_iff _).mpr he)
    rw [hgraded]
    have hdescs : (arbitrate ((s.analysed d w.number).gradeWindow g.number).checkRunDone).cs.vibDescs = (s.analysed d w.number).cs.vibDescs := by simp
    refine ⟨hg ▸ hclosed, ?_, ?_, ?_⟩
    · simpa [State.analysed] using hq
    · simp [State.analysed]
    · rw [hdescs, State.analysed_descs, if_pos rfl]
      rfl

end Sys2Proof.Machine
end

