-- ==== Sys2Proof/Proofs/Encoder.lean ====
section
/-! ENCODER_PULSE and REVOLUTION_TIMEOUT: the counted pulse, the angle sample it stores, and the record that is abandoned (R64, R67, R68,
R77). -/

namespace Sys2Proof.Machine

/-! ## Angle samples (R64, R65, R68) -/

theorem rawCount_eq (x : Int) : rawCount x = max (-32768) (min 32767 x) := by
  unfold rawCount
  exact clampInt_eq (by decide) x

theorem saturated_eq (x : Int) : saturated x = (decide (32767 ≤ x) || decide (x ≤ -32768)) := by
  rw [saturated, rawCount_eq]
  congr 1 <;> exact decide_eq_decide.mpr (by omega)

theorem VibDescriptor.addSample_eq (x : AngleSample) (d : VibDescriptor) : d.addSample x = { d with
    blocks := d.blocks.map fun b => { b with samples := b.samples ++ [max (-32768) (min 32767 (angleOf x b.channel))] }
    overload := d.overload || d.blocks.any fun b => decide (32767 ≤ angleOf x b.channel) || decide (angleOf x b.channel ≤ -32768) } := by
  simp only [VibDescriptor.addSample, rawCount_eq, saturated_eq]

/-! ## A pulse -/

/-- The machine with a pulse counted, `us` microseconds later. -/
def State.pulseCounted (us : Nat) (forward : Bool) (s : State) : State :=
  (s.elapse us).setAfe { (s.elapse us).afe with
    pulses := s.afe.pulses + 1, sawForward := s.afe.sawForward || forward, sawReverse := s.afe.sawReverse || !forward }

theorem State.pulse_eq (us : Nat) (forward : Bool) (x : AngleSample) (s : State) : s.pulse us forward x =
    if (s.afe.pulses + 1) % 8 = 0 ∧ (s.afe.pulses + 1) / 8 < 128 then (s.pulseCounted us forward).storeAngle x else s.pulseCounted us forward := rfl

/-- A pulse stores a sample in the open record, or leaves the Capture Store. -/
theorem State.pulse_stores {us : Nat} {forward : Bool} {x : AngleSample} {s : State} :
    ((s.afe.openVib = none ∨ (s.afe.pulses + 1) % 8 ≠ 0 ∨ 1024 ≤ s.afe.pulses + 1) → s.pulse us forward x = s.pulseCounted us forward) ∧
    (∀ d : Fin 32, s.afe.openVib = some d → (s.afe.pulses + 1) % 8 = 0 → s.afe.pulses + 1 < 1024 →
      s.pulse us forward x = (s.pulseCounted us forward).setCs { s.cs with vibDescs := s.cs.vibDescs.set d ((s.cs.vibDescs[d]).addSample x) }) := by
  have hopen : (s.pulseCounted us forward).afe.openVib = s.afe.openVib := rfl
  refine ⟨fun h => ?_, fun d hd h8 hlt => ?_⟩
  · rw [State.pulse_eq]
    split
    · next hs =>
      have hnone : s.afe.openVib = none := h.resolve_right (by omega)
      unfold State.storeAngle
      rw [hopen, hnone]
    · rfl
  · rw [State.pulse_eq, if_pos ⟨h8, by omega⟩]
    unfold State.storeAngle
    rw [hopen, hd]
    rfl

/-- Settles O31: the pulse with and without a stored sample, and the abandoned record by the law of a release. -/
theorem pulsesFillTheOpenRecordAndTimeoutAbandonsIt : Obligations.PulsesFillTheOpenRecordAndTimeoutAbandonsIt := by
  refine ⟨fun us forward x s => ?_, fun s => ⟨fun h => ?_, fun d p hd hp hle hn => ?_⟩⟩
  · intro u
    obtain ⟨hquiet, hstore⟩ := State.pulse_stores (us := us) (forward := forward) (x := x) (s := s)
    have hshape : ∃ c, s.pulse us forward x = (s.pulseCounted us forward).setCs c := by
      rw [State.pulse_eq]
      split
      · unfold State.storeAngle
        split <;> exact ⟨_, rfl⟩
      · exact ⟨_, rfl⟩
    obtain ⟨c, hc⟩ := hshape
    obtain ⟨hchanges, hline⟩ := arbitrate_leaves (s := u) (t := s.pulse us forward x) (bs := [.afe, .cs])
      (by rw [hc]; exact ⟨rfl, fun b hb => by cases b <;> simp [Part.same] at hb ⊢ <;> rfl⟩) (by rw [hc]; rfl)
    refine ⟨_, rfl, hchanges, hline, ?_, ?_, fun h => ?_, fun d hd h8 hlt => ?_⟩
    · simp [hc, State.pulseCounted]
    · simp only [arbitrate_frame, hc]
      rfl
    · rw [show (arbitrate (s.pulse us forward x)).cs = (s.pulse us forward x).cs by simp, hquiet h]
      rfl
    · rw [show (arbitrate (s.pulse us forward x)).cs = (s.pulse us forward x).cs by simp, hstore d hd h8 hlt, VibDescriptor.addSample_eq]
      rfl
  · have hidle : s.revolutionTimeout = s := by
      unfold State.revolutionTimeout
      rw [h]
    exact congrArg finish hidle
  · intro u old
    obtain ⟨v, hv⟩ : ∃ v, v = u.setAfe { u.afe with openVib := none } := ⟨_, rfl⟩
    have hend : s.revolutionTimeout = v.setCs (s.cs.released d) := by
      unfold State.revolutionTimeout
      rw [hd, hp]
      show u.abandonOpen = _
      unfold State.abandonOpen
      rw [show u.afe.openVib = some d from hd]
      dsimp only
      rw [← hv, State.releaseVib_eq (s := v) (hn.congr (by rw [hv]; rfl))]
      rw [show v.cs = s.cs by rw [hv]; rfl]
    obtain ⟨hchanges, hline⟩ := arbitrate_leaves (s := u) (t := s.revolutionTimeout) (bs := [.afe, .cs])
      (by rw [hend, hv]; exact ⟨rfl, fun b hb => by cases b <;> simp [Part.same] at hb ⊢⟩) (by rw [hend, hv]; rfl)
    refine ⟨_, rfl, hchanges, hline, ?_, ?_⟩
    · simp [hend, hv]
    · simp only [arbitrate_frame, hend]
      rfl

end Sys2Proof.Machine
end

