-- ==== Sys2Proof/Proofs/SlowSamples.lean ====
section
/-! SLOW_SAMPLE: the five values that become live, the row that joins the record of its slot, and the three conditions that are judged by
them (R64 to R66, R69, R128, R133). -/

namespace Sys2Proof.Machine

/-! ## The sample -/

/-- The state after a SLOW sample has been taken and stored, before the conditions are judged (R64 to R66, R69). -/
def State.sampledSlow (x : SlowSample) (s : State) : State :=
  let t := s.elapseTo (2 * s.afe.slowTaken)
  let t := ((((t.takeChannel 0 x.tqp).takeChannel 1 x.tql).takeChannel 2 x.tqr).takeChannel 3 x.toil).takeChannel 4 x.thsg
  let t := t.storeSlow
  t.setAfe { t.afe with slowTaken := t.afe.slowTaken + 1 }

theorem State.takeSlow_eq (x : SlowSample) (s : State) : s.takeSlow x = (s.sampledSlow x).judgeSlow := rfl

theorem exec_slowSample_eq (x : SlowSample) (s : State) : exec (.slowSample x) s = .next (arbitrate (react s (s.takeSlow x))) := rfl

theorem State.sampledSlow_channels (x : SlowSample) (s : State) (c : Fin 10) :
    (c.val < 5 → IsLiveValue s.rs.live.channels[c] ([x.tqp, x.tql, x.tqr, x.toil, x.thsg].getD c.val 0)
      (s.sampledSlow x).afe.live[c] (s.sampledSlow x).afe.faults[c]) ∧
    (5 ≤ c.val → (s.sampledSlow x).afe.live[c] = s.afe.live[c] ∧ (s.sampledSlow x).afe.faults[c] = s.afe.faults[c]) := by
  simp only [State.sampledSlow, State.setAfe_afe, State.storeSlow_frame, State.takeChannel_live]
  fin_cases c <;> simp <;> exact calibrate_isLiveValue _ _

theorem State.sampledSlow_frame (x : SlowSample) (s : State) :
    OnlyChanges [.afe, .cs] (s.elapseTo (2 * s.afe.slowTaken)) (s.sampledSlow x) ∧
    (s.sampledSlow x).afe.slowTaken = s.afe.slowTaken + 1 := by
  refine ⟨⟨by simp [State.sampledSlow], fun b hb => ?_⟩, by simp [State.sampledSlow]⟩
  cases b <;> simp [Part.same, State.sampledSlow] at hb ⊢

/-- The live SLOW values join the record of the slot, and no other record changes (R69). -/
theorem State.storeSlow_descs (d : Fin 8) (s : State) :
    s.storeSlow.cs.slowDescs[d] = if s.cs.slowRecord (slotNumber (s.afe.slowTaken / 128)) = some d then
      { s.cs.slowDescs[d] with samples := (s.cs.slowDescs[d]).samples ++ [s.afe.slowRow] } else s.cs.slowDescs[d] := by
  unfold State.storeSlow
  cases s.cs.slowRecord (slotNumber (s.afe.slowTaken / 128)) with
  | none => simp
  | some e =>
    by_cases h : e = d
    · simp [h]
    · simp [h, Fin.val_ne_of_ne h]

theorem State.sampledSlow_descs (x : SlowSample) (d : Fin 8) (s : State) :
    (s.sampledSlow x).cs.slowDescs[d] = if s.cs.slowRecord (slotNumber (s.afe.slowTaken / 128)) = some d then
      { s.cs.slowDescs[d] with samples := (s.cs.slowDescs[d]).samples ++ [(s.sampledSlow x).afe.slowRow] } else s.cs.slowDescs[d] := by
  refine (State.storeSlow_descs d _).trans ?_
  simp [State.sampledSlow, FrontEnd.slowRow]

/-! ## The three conditions -/

/-- The sources of TORQUE_HIGH and OIL_HOT by the live values (R128). -/
def State.torqueExceeds (s : State) : Bool :=
  decide (s.torqueLimit < (s.afe.live[1]).natAbs) || decide (s.torqueLimit < (s.afe.live[2]).natAbs)

def State.oilExceeds (s : State) : Bool := decide (s.oilLimit < s.afe.live[3])

/-- The limits that the sample does not change (R39). -/
theorem State.sampledSlow_limits (x : SlowSample) (s : State) :
    (s.sampledSlow x).torqueLimit = s.torqueLimit ∧ (s.sampledSlow x).oilLimit = s.oilLimit := by
  have hut : (s.sampledSlow x).ut = (s.elapseTo (2 * s.afe.slowTaken)).ut := by simp [State.sampledSlow]
  have hrs : (s.sampledSlow x).rs = s.rs := by simp [State.sampledSlow]
  simp only [State.torqueLimit, State.oilLimit, State.recipe1, State.recipeOf, State.unit1, hut, hrs]
  exact ⟨rfl, rfl⟩

theorem State.judgeSlow_eq (s : State) :
    s.judgeSlow = ((s.setSource 5 s.torqueExceeds).setSource 10 s.oilExceeds).setSource 11 s.afe.sensorFaulty := by
  simp [State.judgeSlow, State.judgeSensors, State.torqueExceeds, State.oilExceeds]

/-- The three records after their judgement, of which each has its own source (R127 to R129). -/
theorem State.judgeSlow_cond (s : State) :
    s.judgeSlow.cond 5 = judged true s.torqueExceeds (s.active 5) s.now (s.cond 5) ∧
    s.judgeSlow.cond 10 = judged false s.oilExceeds (s.active 10) s.now (s.cond 10) ∧
    s.judgeSlow.cond 11 = judged false s.afe.sensorFaulty (s.active 11) s.now (s.cond 11) := by
  have hnow : ∀ (n m : Fin 20) (b c : Bool), ((s.setSource n b).setSource m c).now = s.now := fun n m b c => State.now_congr (by simp)
  have hnow' : ∀ (n : Fin 20) (b : Bool), (s.setSource n b).now = s.now := fun n b => State.now_congr (by simp)
  rw [State.judgeSlow_eq]
  refine ⟨?_, ?_, ?_⟩
  · rw [State.cond_setSource_ne (by decide), State.cond_setSource_ne (by decide), State.cond_setSource_judged]
    rfl
  · rw [State.cond_setSource_ne (by decide), State.cond_setSource_judged, State.active_setSource_ne (by decide),
      State.cond_setSource_ne (by decide), hnow']
    rfl
  · rw [State.cond_setSource_judged, State.active_setSource_ne (by decide), State.active_setSource_ne (by decide),
      State.cond_setSource_ne (by decide), State.cond_setSource_ne (by decide), hnow]
    rfl

theorem State.judgeSlow_cu (s : State) : s.judgeSlow.cu = { s.cu with
    conditions := ((s.cu.conditions.set 5 (s.judgeSlow.cond 5)).set 10 (s.judgeSlow.cond 10)).set 11 (s.judgeSlow.cond 11) } := by
  rw [State.judgeSlow_eq]
  simp only [State.setSource_cu, State.cond_setSource_ne (show (5 : Fin 20) ≠ 10 by decide),
    State.cond_setSource_ne (show (5 : Fin 20) ≠ 11 by decide), State.cond_setSource_ne (show (10 : Fin 20) ≠ 11 by decide)]
  rfl

/-- A condition that the judgements make active is one of the three, and its source is asserted (R129). -/
theorem State.active_judgeSlow {m : Fin 20} {s : State} (h5 : s.active 5 = true ∨ s.torqueExceeds = false)
    (h10 : s.active 10 = true ∨ s.oilExceeds = false) (h11 : s.active 11 = true ∨ s.afe.sensorFaulty = false)
    (hm : s.judgeSlow.active m = true) : s.active m = true := by
  rw [State.judgeSlow_eq] at hm
  refine State.active_of_setSource h5 (State.active_of_setSource ?_ (State.active_of_setSource ?_ hm))
  · rwa [State.active_setSource_ne (by decide)]
  · rwa [State.active_setSource_ne (by decide), State.active_setSource_ne (by decide)]

/-- A LEVEL condition whose source is asserted is active (R127). -/
theorem State.active_of_source {n : Fin 20} {s : State} (hk : conditionKind n = .level) (h : (s.cond n).source = true) :
    s.active n = true := by
  rw [State.active_level hk, h, Bool.true_or]

/-! ## The event -/

/-- The event keeps the holding and touches no more than a taking and its halts can. -/
theorem react_takeSlow_frame (x : SlowSample) (s : State) :
    HoldingKept s (arbitrate (react s (s.takeSlow x))) ∧
    OnlyChanges [.clock, .lp, .ut, .pe, .afe, .cs, .oa, .lkc, .cu, .reports] s (arbitrate (react s (s.takeSlow x))) := by
  refine ⟨by simp [HoldingKept], by simp, fun b hb => ?_⟩
  cases b <;> simp [Part.same] at hb ⊢

/-- The sample and the records stand, whatever follows in the event. -/
theorem react_takeSlow_sample (x : SlowSample) (s : State) :
    (react s (s.takeSlow x)).afe.live = (s.sampledSlow x).afe.live ∧
    (react s (s.takeSlow x)).afe.faults = (s.sampledSlow x).afe.faults ∧
    (react s (s.takeSlow x)).afe.slowTaken = (s.sampledSlow x).afe.slowTaken ∧
    (react s (s.takeSlow x)).cs.slowDescs = (s.sampledSlow x).cs.slowDescs := by simp [State.takeSlow_eq]

/-- The three conditions after the sample (R128, R129). -/
theorem State.takeSlow_judges (x : SlowSample) (s : State) :
    let v := s.sampledSlow x
    let now := (s.elapseTo (2 * s.afe.slowTaken)).now
    (s.takeSlow x).cond 5 = judged true v.torqueExceeds (s.active 5) now (s.cond 5) ∧
    (s.takeSlow x).cond 10 = judged false v.oilExceeds (s.active 10) now (s.cond 10) ∧
    (s.takeSlow x).cond 11 = judged false v.afe.sensorFaulty (s.active 11) now (s.cond 11) ∧
    (s.takeSlow x).cu = { s.cu with
      conditions := ((s.cu.conditions.set 5 ((s.takeSlow x).cond 5)).set 10 ((s.takeSlow x).cond 10)).set 11 ((s.takeSlow x).cond 11) } := by
  intro v now
  have hcu : v.cu = s.cu := by simp [v, State.sampledSlow]
  have hnow : v.now = now := State.now_congr (by simp [v, State.sampledSlow])
  have hactive : ∀ n, v.active n = s.active n := fun n => State.active_congr (State.cond_congr hcu n)
  obtain ⟨h5, h10, h11⟩ := v.judgeSlow_cond
  simp only [hactive, hnow, State.cond_congr hcu] at h5 h10 h11
  exact ⟨h5, h10, h11, hcu ▸ v.judgeSlow_cu⟩

/-- Where none of the three has become active, the event has no more to it than the sample, also under a standing PROFILE halt. -/
theorem react_takeSlow_quiet {x : SlowSample} {s : State} (h5 : s.active 5 = true ∨ (s.sampledSlow x).torqueExceeds = false)
    (h10 : s.active 10 = true ∨ (s.sampledSlow x).oilExceeds = false)
    (h11 : s.active 11 = true ∨ (s.sampledSlow x).afe.sensorFaulty = false) (hh : HardWhereSevere s) :
    react s (s.takeSlow x) = s.takeSlow x := by
  have hactive : ∀ m, (s.sampledSlow x).active m = s.active m :=
    fun m => State.active_congr (State.cond_congr (by simp [State.sampledSlow]) m)
  refine react_standing (fun n hn => ?_) (by simp) (by simp) hh
  rw [State.takeSlow_eq] at hn
  rw [← hactive n]
  exact State.active_judgeSlow (by rwa [hactive]) (by rwa [hactive]) (by rwa [hactive]) hn

/-- Settles O37: the sample is taken and stored, and the three conditions are judged, with the taking check where one became active. -/
theorem slowSampleBecomesLiveAndIsJudged : Obligations.SlowSampleBecomesLiveAndIsJudged := by
  intro x s i u
  obtain ⟨hholding, hchanges⟩ := react_takeSlow_frame x s
  obtain ⟨hlive, hfaults, htaken, hdescs⟩ := react_takeSlow_sample x s
  obtain ⟨hsampled, hcount⟩ := s.sampledSlow_frame x
  obtain ⟨h5, h10, h11, hcu⟩ := s.takeSlow_judges x
  obtain ⟨htorque, hoil⟩ := s.sampledSlow_limits x
  have hclock : (s.takeSlow x).clockUs = u.clockUs := by simp [State.takeSlow_eq, State.sampledSlow, u, i]
  have hcond : ∀ n : Fin 20, NotStarvation n → n ≠ 4 → (arbitrate (react s (s.takeSlow x))).cond n = (s.takeSlow x).cond n :=
    fun n hn h4 => by rw [cond_arbitrate, cond_react _ _ hn h4]
  have hcond5 := hcond 5 (by unfold NotStarvation; decide) (by decide)
  have hcond10 := hcond 10 (by unfold NotStarvation; decide) (by decide)
  have hcond11 := hcond 11 (by unfold NotStarvation; decide) (by decide)
  have hsource5 : ((s.takeSlow x).cond 5).source = (s.sampledSlow x).torqueExceeds := by rw [h5]; rfl
  have hsource10 : ((s.takeSlow x).cond 10).source = (s.sampledSlow x).oilExceeds := by rw [h10]; rfl
  have hsource11 : ((s.takeSlow x).cond 11).source = (s.sampledSlow x).afe.sensorFaulty := by rw [h11]; rfl
  rw [exec_slowSample_eq]
  refine ⟨_, rfl, hholding, by simpa using hclock, hchanges, ?_, fun c hc => ?_, fun c hc => ?_, fun d => ?_, ?_, ?_, ?_, ?_, ?_⟩
  · simp only [arbitrate_frame, htaken, hcount]; rfl
  · simp only [arbitrate_frame, hlive, hfaults]
    exact (s.sampledSlow_channels x c).1 hc
  · simp only [arbitrate_frame, hlive, hfaults]
    exact (s.sampledSlow_channels x c).2 hc
  · simp only [arbitrate_frame, hlive, hdescs]
    exact s.sampledSlow_descs x d
  · simp only [hcond5, hsource5, arbitrate_frame, hlive, State.torqueExceeds, htorque]
  · simp only [hcond10, hsource10, arbitrate_frame, hlive, State.oilExceeds, hoil]
  · simp only [hcond11, hsource11, arbitrate_frame, hfaults]
    rfl
  · rw [hcond5, h5]
    intro h
    simpa [judged] using .inr h
  intro c5 c10 c11 v raised
  have hc5 : (s.takeSlow x).cond 5 = c5 := by simp only [c5, hcond5, hsource5]; exact h5
  have hc10 : (s.takeSlow x).cond 10 = c10 := by simp only [c10, hcond10, hsource10]; exact h10
  have hc11 : (s.takeSlow x).cond 11 = c11 := by simp only [c11, hcond11, hsource11]; exact h11
  have hv : (s.takeSlow x).cu = v.cu := by rw [hcu, hc5, hc10, hc11]; rfl
  have hactive : ∀ n, (s.takeSlow x).active n = v.active n := fun n => State.active_congr (State.cond_congr hv n)
  refine ⟨hcond5.trans hc5, hcond10.trans hc10, hcond11.trans hc11, fun hr => ?_, fun hr hh => ?_⟩
  · have hnew : ∃ n, s.active n = false ∧ (s.takeSlow x).active n = true := by
      rcases hr with ⟨hs, hon⟩ | ⟨hs, hon⟩ | ⟨hs, hon⟩
      · rw [hcond5, hsource5] at hon
        exact ⟨5, hs, by rw [State.active_latched rfl, h5]; simp [judged, hon]⟩
      · exact ⟨10, hs, (hactive 10).trans hon⟩
      · exact ⟨11, hs, (hactive 11).trans hon⟩
    obtain ⟨n, hs, ht⟩ := hnew
    exact (takingCheckMade_react n hs ht).congr hv.symm hclock.symm (by simp) (by simp)
  · simp only [raised, not_or, not_and, Bool.not_eq_true, hcond5, hsource5, ← hactive] at hr
    obtain ⟨hn5, hn10, hn11⟩ := hr
    have hquiet : ∀ {n : Fin 20} {b : Bool}, conditionKind n = .level → ((s.takeSlow x).cond n).source = b →
        (s.active n = false → (s.takeSlow x).active n = false) → s.active n = true ∨ b = false := by
      intro n b hk hb hn
      cases ha : s.active n with
      | true => exact .inl rfl
      | false =>
        refine .inr (Bool.eq_false_iff.2 fun hon => ?_)
        rw [State.active_of_source hk (hb.trans hon)] at hn
        exact absurd (hn ha) (by decide)
    rw [react_takeSlow_quiet ((Bool.eq_false_or_eq_true (s.active 5)).imp_right hn5) (hquiet rfl hsource10 hn10) (hquiet rfl hsource11 hn11) hh]
    refine ⟨by simpa using hv, (hsampled.trans (⟨?_, fun p hp => ?_⟩ : OnlyChanges [.lp, .cu] _ _)).mono (by decide)⟩
    · simp [State.takeSlow_eq]
    · rw [State.takeSlow_eq]
      cases p <;> simp [Part.same] at hp ⊢

end Sys2Proof.Machine
end

