-- ==== Sys2Proof/Proofs/SlowSlotEnd.lean ====
section
/-! TIME_SLOT_END of SLOW: the record of the slot joins the statistics and the drag accumulator, and comes back to its stream (R52, R54, R69,
R71, R77). -/

namespace Sys2Proof.Machine

/-! ## The slot's record -/

/-- The state at the end of the SLOW slot that is due, before its record is absorbed (R69). -/
def State.slowEnd (n : Nat) (u : State) : State := u.setAfe { u.afe with slowEnded := n + 1 }

def State.atSlowEnd (s : State) : State := (s.elapseTo (256 * (s.afe.slowEnded + 1))).slowEnd s.afe.slowEnded

theorem onlyChanges_slowEnd (n : Nat) (u : State) : OnlyChanges [.afe] u (u.slowEnd n) :=
  ⟨rfl, fun b hb => by cases b <;> simp [Part.same, State.slowEnd] at hb ⊢⟩

theorem State.atSlowEnd_cs (s : State) : s.atSlowEnd.cs = s.cs := by
  rw [State.atSlowEnd, (onlyChanges_slowEnd _ _).2 .cs (by decide)]
  exact (State.elapseTo_frame _ s).2.2.2.2.1

/-- What the end of slot `n` does with the record it captured, if it captured one (R54, R71). -/
def State.deliverSlow (n : Nat) (captured : Option (Fin 8)) (s : State) : State :=
  match captured with
  | none => s
  | some d => (s.absorb (slotNumber n) (s.cs.slowDescs[d]).samples).releaseSlow d

theorem State.endSlow_eq {s : State} (h : s.afe.slowEnded ≤ s.afe.slowSlot) :
    s.endSlow = s.atSlowEnd.deliverSlow s.afe.slowEnded (s.atSlowEnd.cs.slowRecord (slotNumber s.afe.slowEnded)) := by
  unfold State.endSlow
  rw [if_pos h]
  rfl

/-- A slot without a record ends with nothing absorbed (R69). -/
theorem State.endSlow_empty {s : State} (h : s.afe.slowEnded ≤ s.afe.slowSlot)
    (hn : ∀ d : Fin 8, (s.cs.slowDescs[d]).state = .filling → (s.cs.slowDescs[d]).seq ≠ slotNumber s.afe.slowEnded) :
    s.endSlow = s.atSlowEnd := by
  have hrec : s.atSlowEnd.cs.slowRecord (slotNumber s.afe.slowEnded) = none :=
    find_finRange_none fun d => by
      rw [State.atSlowEnd_cs]
      simpa using hn d
  rw [State.endSlow_eq h, hrec, State.deliverSlow]

/-- The one record of a slot that ends is absorbed and released (R69, R71). -/
theorem State.endSlow_record {s : State} {d : Fin 8} (h : s.afe.slowEnded ≤ s.afe.slowSlot) (hd : (s.cs.slowDescs[d]).state = .filling)
    (hq : (s.cs.slowDescs[d]).seq = slotNumber s.afe.slowEnded)
    (hu : ∀ e, e ≠ d → (s.cs.slowDescs[e]).state = .filling → (s.cs.slowDescs[e]).seq ≠ slotNumber s.afe.slowEnded) :
    s.endSlow = (s.atSlowEnd.absorb (slotNumber s.afe.slowEnded) (s.cs.slowDescs[d]).samples).releaseSlow d := by
  have hrec : s.atSlowEnd.cs.slowRecord (slotNumber s.afe.slowEnded) = some d := by
    rw [State.atSlowEnd_cs]
    refine find_finRange_unique (Bool.and_eq_true_iff.2 ⟨decide_eq_true hd, decide_eq_true hq⟩) fun e he => ?_
    rw [Bool.and_eq_true, decide_eq_true_eq, decide_eq_true_eq] at he
    exact Decidable.byContradiction fun hne => hu e hne he.1 he.2
  rw [State.endSlow_eq h, hrec, State.deliverSlow, State.atSlowEnd_cs]

/-- Where no plan waits, the release of a SLOW record gives back its blocks and its descriptor (R77). -/
theorem State.releaseSlow_eq {s : State} (h : NoPlanWaits s) (d : Fin 8) : s.releaseSlow d = s.setCs { s.cs with
    slow := s.cs.slow.returnBlocks (s.cs.slowDescs[d]).fromRes (s.cs.slowDescs[d]).fromPool
    slowDescs := s.cs.slowDescs.set d .vacant } := by
  refine State.checkPlans_of_no_plan_waits fun st => ?_
  cases st
  · exact h .vib
  · exact h .slow
  · exact h .leak

/-! ## The statistics and the drag accumulator (R52, R54) -/

theorem peak_eq (old : Option Int) (x : Int) : peak old x = some (max (old.getD x) x) := by
  cases old with
  | none => simp [peak]
  | some y => simp only [peak, Option.getD_some, max_def]; grind

/-- Between a profile's start and its end the record joins the statistics of the RUNNING unit (R54). -/
theorem State.absorb_running {s : State} {i : Fin 8} {r : UnitRecord} (hi : IsUnitIn .running i r s) (hp : s.pe.phase ≠ .idle)
    (seq : Word32) (xs : List SlowSample) :
    s.absorb seq xs = (s.setRecord i (r.withRunIn
      (r.runIn.absorb (recordMean (xs.map SlowSample.toil)) (recordMean (xs.map SlowSample.thsg))))).takeDrag seq xs := by
  have hmap : s.mapRunIn (RunIn.absorb (recordMean (xs.map SlowSample.toil)) (recordMean (xs.map SlowSample.thsg))) =
      s.setRecord i (r.withRunIn (r.runIn.absorb (recordMean (xs.map SlowSample.toil)) (recordMean (xs.map SlowSample.thsg)))) := by
    rw [State.mapRunIn, hi.running]
    exact State.mapUnit_eq_setRecord hi.1 _
  rw [← hmap]
  unfold State.absorb
  cases h : s.pe.phase with
  | idle => exact absurd h hp
  | _ => rfl

theorem State.absorb_idle {s : State} (hp : s.pe.phase = .idle) (seq : Word32) (xs : List SlowSample) : s.absorb seq xs = s := by
  unfold State.absorb
  rw [hp]

/-- A step goes on while the record of the RUNNING unit keeps its state and its slot. -/
theorem IsStepping.setRecord {k : Nat} {x : Step} {i : Fin 8} {r r' : UnitRecord} {s : State} (h : IsStepping k x i r s)
    (hs : r'.state = r.state) (hk : r'.slot = r.slot) : IsStepping k x i r' (s.setRecord i r') := by
  obtain ⟨hl, hu, hp, hstep, h1, hx⟩ := h
  have hrecipe : (s.setRecord i r').recipeOf r' = s.recipeOf r := by simp [State.recipeOf, State.setRecord, hk]
  exact ⟨hl.setRecord hu.1 hs, hu.setRecord hs, by simpa [State.setRecord] using hp, by simpa [State.setRecord] using hstep, h1, by rwa [hrecipe]⟩

/-- The drag accumulator takes a record that lies in the drag span of a MEASURE_DRAG step, and no other (R52). -/
theorem IsStepping.takeDrag {k : Nat} {x : Step} {i : Fin 8} {r : UnitRecord} {s : State} (h : IsStepping k x i r s)
    (seq : Word32) (xs : List SlowSample) :
    (x.kind = .measureDrag ∧ inDragSpan s.pe.stepStart s.now seq = true →
      let sum := (xs.map SlowSample.tqp).sum
      s.takeDrag seq xs = s.setPe { s.pe with
        dragRecords := s.pe.dragRecords + 1, dragSamples := s.pe.dragSamples + 128
        dragSum := s.pe.dragSum + if x.target < 0 then -sum else sum }) ∧
    (¬(x.kind = .measureDrag ∧ inDragSpan s.pe.stepStart s.now seq = true) → s.takeDrag seq xs = s) := by
  have hphase : s.pe.phase = .stepping := h.2.2.1
  refine ⟨fun hin => ?_, fun hout => ?_⟩
  all_goals
    unfold State.takeDrag
    rw [hphase, h.currentStep]
  · exact if_pos hin
  · exact if_neg hout

/-! ## The event -/

theorem onlyChanges_deliverSlow (n : Nat) (captured : Option (Fin 8)) (s : State) :
    OnlyChanges [.lp, .ut, .pe, .cs, .cu] s (s.deliverSlow n captured) ∧ (s.deliverSlow n captured).clockUs = s.clockUs := by
  cases captured with
  | none => exact ⟨OnlyChanges.refl _ s, rfl⟩
  | some d =>
    refine ⟨⟨by simp [State.deliverSlow], fun b hb => ?_⟩, by simp [State.deliverSlow]⟩
    cases b <;> simp [Part.same, State.deliverSlow] at hb ⊢

theorem onlyChanges_endSlow (s : State) (h : s.afe.slowEnded ≤ s.afe.slowSlot) :
    OnlyChanges [.lp, .ut, .pe, .afe, .cs, .cu] (s.elapseTo (256 * (s.afe.slowEnded + 1))) s.endSlow ∧
    s.endSlow.clockUs = (s.elapseTo (256 * (s.afe.slowEnded + 1))).clockUs ∧
    s.endSlow.afe = { (s.elapseTo (256 * (s.afe.slowEnded + 1))).afe with slowEnded := s.afe.slowEnded + 1 } := by
  rw [State.endSlow_eq h]
  obtain ⟨hchanges, hclock⟩ :=
    onlyChanges_deliverSlow s.afe.slowEnded (s.atSlowEnd.cs.slowRecord (slotNumber s.afe.slowEnded)) s.atSlowEnd
  exact ⟨((onlyChanges_slowEnd s.afe.slowEnded (s.elapseTo (256 * (s.afe.slowEnded + 1)))).trans hchanges).mono (by decide), hclock, hchanges.2 .afe (by decide)⟩

/-- Settles O34: the slot ends, its record joins the statistics and the drag accumulator, and comes back. -/
theorem slowRecordIsAbsorbedAndReleased : Obligations.SlowRecordIsAbsorbedAndReleased := by
  intro s hdue n u
  obtain ⟨hchanges, hclock, hafe⟩ := onlyChanges_endSlow s hdue
  refine ⟨arbitrate s.endSlow, rfl, by simp [HoldingKept], by simp only [arbitrate_frame, hclock]; rfl,
    (hchanges.trans (onlyChanges_arbitrate _)).mono (by decide), hafe ▸ by simp, fun hnone => ?_, fun d hd hq hu => ?_⟩
  · rw [State.endSlow_empty hdue hnone]
    exact ((onlyChanges_slowEnd s.afe.slowEnded (s.elapseTo (256 * (s.afe.slowEnded + 1)))).trans (onlyChanges_arbitrate _)).mono (by decide)
  intro old
  rw [State.endSlow_record hdue hd hq hu]
  refine ⟨fun hplan => ?_, fun hidle => ?_, fun i r hi hp => ?_⟩
  · have hwaits : NoPlanWaits (s.atSlowEnd.absorb (slotNumber n) old.samples) := hplan.congr (by simp [State.atSlowEnd_cs])
    rw [State.releaseSlow_eq hwaits]
    simp only [arbitrate_frame, State.setCs_cu, State.setCs_cs, State.absorb_frame, State.atSlowEnd_cs]
    exact ⟨rfl, rfl⟩
  · rw [State.absorb_idle (s := s.atSlowEnd) hidle]
    simp only [arbitrate_frame, State.releaseSlow_frame]
    exact ⟨rfl, rfl⟩
  · intro oil housing
    have hi' : IsUnitIn .running i r s.atSlowEnd := hi
    obtain ⟨r', hr'⟩ : ∃ r', r' = r.withRunIn (r.runIn.absorb oil housing) := ⟨_, rfl⟩
    have habsorb : s.atSlowEnd.absorb (slotNumber n) old.samples = (s.atSlowEnd.setRecord i r').takeDrag (slotNumber n) old.samples :=
      hr' ▸ State.absorb_running hi' hp _ _
    rw [habsorb]
    refine ⟨fun j hj => ?_, ?_, fun k x hx => ?_⟩
    · simp only [arbitrate_frame, State.releaseSlow_frame, State.takeDrag_frame, State.setRecord_records, if_neg hj]
      rfl
    · simp only [arbitrate_frame, State.releaseSlow_frame, State.takeDrag_frame, State.setRecord_records, if_true]
      rw [hr', UnitRecord.withRunIn, RunIn.absorb, peak_eq, peak_eq]
    · intro start
      have hx' : IsStepping k x i r s.atSlowEnd := hx
      obtain ⟨htakes, hleaves⟩ := (hx'.setRecord (r' := r') (by rw [hr']; rfl) (by rw [hr']; rfl)).takeDrag (slotNumber n) old.samples
      have hspan : inDragSpan (s.atSlowEnd.setRecord i r').pe.stepStart (s.atSlowEnd.setRecord i r').now (slotNumber n) = true ↔
          500 ≤ start.toNat ∧ start.toNat + 256 ≤ (u.now - s.pe.stepStart).toNat := by
        rw [inDragSpan, Bool.and_eq_true, decide_eq_true_eq, decide_eq_true_eq]
        rfl
      rw [hspan] at htakes hleaves
      refine ⟨fun hk h1 h2 => ?_, fun hout => ?_⟩
      · intro sum
        rw [htakes ⟨hk, h1, h2⟩]
        simp only [arbitrate_frame, State.releaseSlow_frame, State.setPe_pe]
        rfl
      · rw [hleaves hout]
        simp only [arbitrate_frame, State.releaseSlow_frame]
        rfl

end Sys2Proof.Machine
end

