-- ==== Sys2Proof/Proofs/LeakSlotEnd.lean ====
section
/-! TIME_SLOT_END of LEAK: the pairs that the record of the slot gives, the record that comes back, and the attempts that waited for the slot
(R69, R71, R77, R113 to R115, R118, R119). -/

namespace Sys2Proof.Machine

/-! ## The slot's record -/

/-- A LEAK slot `n` has ended (R69). -/
def State.leakEnd (n : Nat) (u : State) : State := u.setAfe { u.afe with leakEnded := n + 1 }

/-- The state at the end of the LEAK slot that is due, before its record is taken (R69). -/
def State.atLeakEnd (s : State) : State := (s.elapseTo (640 * (s.afe.leakEnded + 1))).leakEnd s.afe.leakEnded

/-- What the end of slot `n` does with the record it captured, if it captured one (R71, R113). -/
def State.deliverLeak (n : Nat) (captured : Option (Fin 8)) (s : State) : State :=
  match captured with
  | none => s
  | some d => (s.takeLeakRecord (slotNumber n) (s.cs.leakDescs[d]).samples).releaseLeak d

theorem onlyChanges_leakEnd (n : Nat) (u : State) : OnlyChanges [.afe] u (u.leakEnd n) :=
  ⟨rfl, fun b hb => by cases b <;> simp [Part.same, State.leakEnd] at hb ⊢⟩

theorem State.leakEnd_cs (n : Nat) (u : State) : (u.leakEnd n).cs = u.cs := rfl

theorem State.leakEnd_chamber (n : Nat) (u : State) (c : Fin 4) : (u.leakEnd n).chamber c = u.chamber c := rfl

theorem State.atLeakEnd_cs (s : State) : s.atLeakEnd.cs = s.cs := by
  rw [State.atLeakEnd, (onlyChanges_leakEnd _ _).2 .cs (by decide)]
  exact (State.elapseTo_frame _ s).2.2.2.2.1

theorem State.endLeak_eq {s : State} (h : s.afe.leakEnded ≤ s.afe.leakSlot) :
    s.endLeak = (s.atLeakEnd.deliverLeak s.afe.leakEnded (s.atLeakEnd.cs.leakRecord (slotNumber s.afe.leakEnded))).evaluateAll := by
  unfold State.endLeak
  rw [if_pos h]
  rfl

/-- The search for the record of a slot finds the one there is. -/
theorem leakRecord_of {n : Nat} {captured : Option (Fin 8)} {s : State} (h : IsLeakRecordOf n captured s) :
    s.cs.leakRecord (slotNumber n) = captured := by
  have hfills : ∀ d : Fin 8, (decide ((s.cs.leakDescs[d]).state = .filling) && decide ((s.cs.leakDescs[d]).seq = slotNumber n)) = true ↔
      (s.cs.leakDescs[d]).state = .filling ∧ (s.cs.leakDescs[d]).seq = BitVec.ofNat 32 n := fun d => by
    rw [Bool.and_eq_true, decide_eq_true_eq, decide_eq_true_eq, slotNumber]
  cases captured with
  | none => exact find_finRange_none fun d => Bool.eq_false_iff.2 fun hd => h d ((hfills d).1 hd)
  | some d => exact find_finRange_unique ((hfills d).2 h.1) fun e he => Decidable.byContradiction fun hne => h.2 e hne ((hfills e).1 he)

/-- Where no plan waits, the release of a LEAK record gives back its blocks and its descriptor (R77). -/
theorem State.releaseLeak_eq {s : State} (h : NoPlanWaits s) (d : Fin 8) : s.releaseLeak d = s.setCs { s.cs with
    leak := s.cs.leak.returnBlocks (s.cs.leakDescs[d]).fromRes (s.cs.leakDescs[d]).fromPool
    leakDescs := s.cs.leakDescs.set d .vacant } := by
  refine State.checkPlans_of_no_plan_waits fun st => ?_
  cases st
  · exact h .vib
  · exact h .slow
  · exact h .leak

/-! ## The pairs (R113, R114) -/

theorem takeRecord_eq (n : Nat) (xs : List LeakSample) (c : Fin 4) (m : Measure) :
    m.takeRecord (slotNumber n) (recordMean (xs.map (pressureOf c))) (recordMean (xs.map LeakSample.tlk)) =
      pairsTaken n (some xs) c m := by
  simp only [Measure.takeRecord, pairsTaken, Bool.and_eq_true, Bool.not_eq_true', Option.isNone_iff_eq_none, decide_eq_true_eq, and_assoc]
  rfl

/-- A record gives pairs to a measurement and leaves its times and its mark. -/
theorem pairsTaken_times (n : Nat) (xs : Option (List LeakSample)) (c : Fin 4) (m : Measure) :
    (pairsTaken n xs c m).start = m.start ∧ (pairsTaken n xs c m).stop = m.stop ∧ (pairsTaken n xs c m).expired = m.expired := by
  cases xs <;> simp [pairsTaken]

theorem pairsTaken_none (n : Nat) (c : Fin 4) : pairsTaken n none c = id := rfl

theorem State.chamber_deliverLeak (n : Nat) (captured : Option (Fin 8)) (c : Fin 4) (s : State) :
    (s.deliverLeak n captured).chamber c = { s.chamber c with
      measure := (s.chamber c).measure.map (pairsTaken n (captured.map fun d => (s.cs.leakDescs[d]).samples) c) } := by
  cases captured with
  | none => simp [State.deliverLeak, pairsTaken_none]
  | some d =>
    rw [State.deliverLeak, State.chamber_congr (s := s.takeLeakRecord (slotNumber n) (s.cs.leakDescs[d]).samples) (by simp),
      State.chamber_takeLeakRecord, takeRecordFor]
    simp only [takeRecord_eq, Option.map_some]

theorem onlyChanges_deliverLeak (n : Nat) (captured : Option (Fin 8)) (s : State) :
    OnlyChanges [.lp, .cs, .lkc, .cu] s (s.deliverLeak n captured) ∧
    (s.deliverLeak n captured).lkc.queue = s.lkc.queue ∧ (s.deliverLeak n captured).lkc.resetVent = s.lkc.resetVent := by
  cases captured with
  | none => exact ⟨OnlyChanges.refl _ s, rfl, rfl⟩
  | some d =>
    refine ⟨⟨by simp [State.deliverLeak, State.takeLeakRecord], fun b hb => ?_⟩, by simp [State.deliverLeak, State.takeLeakRecord],
      by simp [State.deliverLeak, State.takeLeakRecord]⟩
    cases b <;> simp [Part.same, State.deliverLeak, State.takeLeakRecord] at hb ⊢

/-- Where no plan waits, the record has come back, and the Line Port and the Condition Unit stand (R77). -/
theorem State.deliverLeak_released {s : State} (h : NoPlanWaits s) (n : Nat) (d : Fin 8) :
    (s.deliverLeak n (some d)).cu = s.cu ∧ (s.deliverLeak n (some d)).lp = s.lp ∧ (s.deliverLeak n (some d)).cs = { s.cs with
      leak := s.cs.leak.returnBlocks (s.cs.leakDescs[d]).fromRes (s.cs.leakDescs[d]).fromPool
      leakDescs := s.cs.leakDescs.set d .vacant } := by
  have hwaits : NoPlanWaits (s.takeLeakRecord (slotNumber n) (s.cs.leakDescs[d]).samples) := h.congr rfl
  rw [State.deliverLeak, State.releaseLeak_eq hwaits]
  exact ⟨rfl, rfl, rfl⟩

/-! ## The attempts that waited for the slot (R114) -/

/-- The measure time of chamber `c` has expired, and slot `n` was the last that can qualify. -/
def AttemptDue (n : Nat) (c : Fin 4) (m : Measure) (s : State) : Prop :=
  (s.chamber c).phase = .measure ∧ (s.chamber c).measure = some m ∧ m.expired = true ∧
  timeDiff m.stop m.start < timeDiff ((BitVec.ofNat 32 (n + 1) : CellTime) * 640 + 635) m.start

/-- The pairs of the slot's record do not decide which attempts are evaluated. -/
theorem evaluable_iff_due {n : Nat} {xs : Option (List LeakSample)} {c : Fin 4} {s v : State}
    (hphase : (v.chamber c).phase = (s.chamber c).phase)
    (hmeasure : (v.chamber c).measure = (s.chamber c).measure.map (pairsTaken n xs c)) (hended : v.afe.leakEnded = n + 1) :
    v.evaluable c = true ↔ ∃ m, AttemptDue n c m s := by
  unfold State.evaluable AttemptDue
  rw [hphase, hmeasure, hended]
  cases hm : (s.chamber c).measure with
  | none => simp
  | some m =>
    obtain ⟨hstart, hstop, hexpired⟩ := pairsTaken_times n xs c m
    simp [Measure.slotsEnded, Measure.length, hstart, hstop, hexpired, leakSlotLast, leakSlotStart]

/-- Without a LEAKING unit an evaluation counts nothing. -/
theorem foldl_evaluate_ut {s : State} (h : s.leakingUnit = none) (cs : List (Fin 4)) :
    (cs.foldl (fun t c => t.evaluate c) s).ut = s.ut := by
  induction cs generalizing s with
  | nil => rfl
  | cons c cs ih =>
    have hcount : ∀ a, (s.countAttempt c a).ut = s.ut := fun a => by simp [State.countAttempt, h, State.enterVent]
    have hut : (s.evaluate c).ut = s.ut := by
      unfold State.evaluate
      repeat' split
      all_goals simp only [hcount]
    rw [List.foldl_cons, ih (by simpa [State.leakingUnit, hut] using h), hut]

theorem State.evaluateAll_of_none {s : State} (h : ∀ c, s.evaluable c = false) : s.evaluateAll = s := by
  have hfold : ∀ cs : List (Fin 4), cs.foldl (fun t c => t.evaluate c) s = s := fun cs => by
    induction cs with
    | nil => rfl
    | cons c cs ih => rw [List.foldl_cons, State.evaluate_of_not (h c), ih]
  exact hfold _

theorem onlyChanges_evaluateAll (s : State) : OnlyChanges [.ut, .lkc] s s.evaluateAll :=
  ⟨by simp, fun b hb => by cases b <;> simp [Part.same] at hb ⊢⟩

/-! ## The event -/

/-- What the end of a slot reads of `s` stands in `u`, but for the timers of the chambers. -/
structure ReadsAs (s u : State) : Prop where
  records : u.ut.records = s.ut.records
  store : u.rs = s.rs
  captured : u.cs = s.cs
  conditions : u.cu = s.cu
  plans : ∀ c, u.chamberPlan c = s.chamberPlan c
  queue : u.lkc.queue = s.lkc.queue
  resetVent : u.lkc.resetVent = s.lkc.resetVent
  chambers : ∀ c, (u.chamber c).phase = (s.chamber c).phase ∧ (u.chamber c).measure = (s.chamber c).measure

theorem State.elapseTo_reads (ms : Nat) (s : State) : ReadsAs s (s.elapseTo ms) :=
  ⟨rfl, rfl, rfl, rfl, fun _ => rfl, rfl, rfl, s.chamber_elapseTo ms⟩

/-- Settles O35: the slot ends, its record gives its pairs and comes back, and the attempts that waited for it are evaluated. -/
theorem leakRecordGivesItsPairsAndIsReleased : Obligations.LeakRecordGivesItsPairsAndIsReleased := by
  intro s hdue n u due
  obtain ⟨hrecords, hrs, hcs, hcu, hplans, hqueue, hvent, hbefore⟩ : ReadsAs s u := s.elapseTo_reads _
  obtain ⟨found, hfound⟩ : ∃ found, found = s.cs.leakRecord (slotNumber n) := ⟨_, rfl⟩
  obtain ⟨v, hv⟩ : ∃ v, v = (u.leakEnd n).deliverLeak n found := ⟨_, rfl⟩
  have heq : s.endLeak = v.evaluateAll := by
    rw [State.endLeak_eq hdue, s.atLeakEnd_cs, hv, hfound]
    rfl
  have hend : exec (.timeSlotEnd .leak) s = .next (arbitrate v.evaluateAll) := congrArg finish heq
  have hhold : HoldingKept s (arbitrate v.evaluateAll) := by
    rw [← heq]
    simp [HoldingKept]
  obtain ⟨hdelivered, hqueue', hvent'⟩ := onlyChanges_deliverLeak n found (u.leakEnd n)
  rw [← hv] at hdelivered hqueue' hvent'
  have hchanges : OnlyChanges [.lp, .afe, .cs, .lkc, .cu] u v := ((onlyChanges_leakEnd n u).trans hdelivered).mono (by decide)
  have hafe : v.afe = { u.afe with leakEnded := n + 1 } := hdelivered.2 .afe (by decide)
  have hut : v.ut = u.ut := hchanges.2 .ut (by decide)
  have hrs' : v.rs = u.rs := hchanges.2 .rs (by decide)
  have hchamber : ∀ c, v.chamber c = { u.chamber c with
      measure := (s.chamber c).measure.map (pairsTaken n (found.map fun d => (s.cs.leakDescs[d]).samples) c) } := fun c => by
    rw [hv, State.chamber_deliverLeak, State.leakEnd_chamber, State.leakEnd_cs, hcs, (hbefore c).2]
  have hevaluable : ∀ c, v.evaluable c = true ↔ ∃ m, due c m := fun c =>
    evaluable_iff_due (n := n) (s := s) (by rw [hchamber c]; exact (hbefore c).1) (by rw [hchamber c]) (by rw [hafe])
  have hnot : ∀ c, (∀ m, ¬due c m) → v.evaluable c = false := fun c hc =>
    Bool.eq_false_iff.2 fun h => ((hevaluable c).1 h).elim hc
  refine ⟨_, hend, hhold, ?_, (hchanges.trans ((onlyChanges_evaluateAll v).trans (onlyChanges_arbitrate _))).mono (by decide), ?_, ?_, ?_,
    fun h => ?_, fun captured hcap => ?_⟩
  · simp only [arbitrate_frame, State.evaluateAll_frame]
    exact hchanges.2 .clock (by decide)
  · simp only [arbitrate_frame, State.evaluateAll_frame, hafe]
  · simp only [arbitrate_frame, State.evaluateAll_parts, hqueue', ← hqueue]
    rfl
  · simp only [arbitrate_frame, State.evaluateAll_parts, hvent', ← hvent]
    rfl
  · simp only [arbitrate_frame]
    rcases h with h | h
    · rw [State.evaluateAll_of_none fun c => hnot c (h c), hut]
    · have hnone : v.leakingUnit = none := UnitTable.find_none fun j r hj => by
        rw [hut, hrecords] at hj
        exact decide_eq_false (h j r hj)
      rw [State.evaluateAll, foldl_evaluate_ut hnone, hut]
  obtain rfl : found = captured := hfound.trans (leakRecord_of hcap)
  intro taken
  refine ⟨fun hnone => ?_, fun d hd hplan => ?_, fun c hc => ?_, fun i r hi => ?_⟩
  · subst hnone
    rw [State.deliverLeak] at hv
    simp only [arbitrate_frame, State.evaluateAll_frame]
    rw [hv]
    exact ⟨((onlyChanges_leakEnd n u).2 .cs (by decide)).trans hcs, ((onlyChanges_leakEnd n u).2 .cu (by decide)).trans hcu,
      lineLeftToArbiter_of_lp (by simp only [State.evaluateAll_frame]; exact (onlyChanges_leakEnd n u).2 .lp (by decide))⟩
  · intro old
    subst hd
    obtain ⟨hcu', hlp, hcs'⟩ := State.deliverLeak_released (s := u.leakEnd n) (hplan.congr ((State.leakEnd_cs n u).trans hcs)) n d
    rw [← hv] at hcu' hlp hcs'
    simp only [arbitrate_frame, State.evaluateAll_frame]
    rw [State.leakEnd_cs, hcs] at hcs'
    exact ⟨(hcu'.trans ((onlyChanges_leakEnd n u).2 .cu (by decide))).trans hcu, lineLeftToArbiter_of_lp (by
      simp only [State.evaluateAll_frame]
      exact hlp.trans ((onlyChanges_leakEnd n u).2 .lp (by decide))), hcs'⟩
  · rw [State.chamber_arbitrate, State.chamber_evaluateAll_of_not (hnot c hc)]
    exact hchamber c
  · have hi' : IsUnitIn .leaking i r v := by
      unfold IsUnitIn at hi ⊢
      rwa [hut, hrecords]
    obtain ⟨results, hresults, hcounts⟩ := State.evaluateAll_counts hi'
    refine ⟨results, ?_, fun c => ⟨fun hc => ((hcounts c).1 (hnot c hc)).2, fun m hm => ?_⟩⟩
    · simp only [arbitrate_frame, hresults, hut]
      rfl
    · have hmeasure : (v.chamber c).measure = some (taken c m) := by
        rw [hchamber c, hm.2.1]
        rfl
      have hcounted := (hcounts c).2 (taken c m) ((hevaluable c).2 ⟨m, hm⟩) hmeasure
      rw [State.chamberPlan_congr hut hrs', hplans, hrs', hrs] at hcounted
      rw [State.chamber_arbitrate]
      exact ⟨_, judgeAttempt_isOutcome _ _ _, hcounted⟩

end Sys2Proof.Machine
end

