-- ==== Sys2Proof/Proofs/UnitIds.lean ====
section
/-! The ids of the Unit Table: the counter's id or the first after it that no record in use carries, and the FREE record of lowest index
(R1, R8). -/

namespace Sys2Proof.Machine

/-! ## The counter (R8) -/

theorem repeat_apply {α : Type} (f : α → α) (n : Nat) (a : α) : Nat.repeat f n (f a) = Nat.repeat f (n + 1) a := by
  induction n with
  | zero => rfl
  | succ n ih => exact congrArg f ih

/-- The id that stands `n` after `c`: it wraps from 65535 to 1. -/
theorem repeat_nextId {n c : Nat} (hn : 1 ≤ n) (h : n ≤ 65535) :
    Nat.repeat nextId n c = if 65535 ≤ c then n else if c + n ≤ 65535 then c + n else c + n - 65535 := by
  induction n, hn using Nat.le_induction with
  | base =>
    show nextId c = _
    unfold nextId
    split
    · rfl
    · rw [if_pos (by omega)]
  | succ n hn ih =>
    rw [Nat.repeat, ih (by omega), nextId]
    grind

/-- Eight ids in a row are different. -/
theorem repeat_nextId_injective (c : Nat) : Function.Injective fun m : Fin 8 => Nat.repeat nextId m.val c := by
  have hform : ∀ m : Fin 8, Nat.repeat nextId m.val c =
      if m.val = 0 then c else if 65535 ≤ c then m.val else if c + m.val ≤ 65535 then c + m.val else c + m.val - 65535 := fun m => by
    by_cases h : m.val = 0
    · rw [h]
      rfl
    · rw [if_neg h]
      exact repeat_nextId (by omega) (by omega)
  intro a b hab
  simp only [hform] at hab
  have := a.isLt
  have := b.isLt
  grind

/-! ## The id of a load (R1, R8) -/

theorem findId_isSome (id : Nat) (s : State) : (s.ut.findId id).isSome = true ↔ ¬NoUnitCarries id s := by
  unfold UnitTable.findId NoUnitCarries
  rw [List.find?_isSome]
  constructor
  · rintro ⟨j, -, hj⟩ hnone
    cases hr : s.ut.records[j] with
    | none => simp [hr] at hj
    | some r => exact hnone j r hr (by simpa [hr] using hj)
  · intro h
    simp only [not_forall, not_not] at h
    obtain ⟨j, r, hr, hid⟩ := h
    exact ⟨j, List.mem_finRange j, by simp [hr, hid]⟩

/-- The search passes ids that are carried, and ends at one that is not or with its fuel. -/
theorem freeId_eq (fuel c : Nat) (s : State) : ∃ n, n ≤ fuel ∧ s.ut.freeId fuel c = Nat.repeat nextId n c ∧
    (∀ m, m < n → ¬NoUnitCarries (Nat.repeat nextId m c) s) ∧ (n < fuel → NoUnitCarries (Nat.repeat nextId n c) s) := by
  induction fuel generalizing c with
  | zero => exact ⟨0, le_refl _, rfl, by simp, by simp⟩
  | succ fuel ih =>
    by_cases h : NoUnitCarries c s
    · refine ⟨0, by omega, ?_, by simp, fun _ => h⟩
      rw [UnitTable.freeId, if_neg (fun hs => (findId_isSome c s).1 hs h)]
      rfl
    · obtain ⟨n, hn, hid, hpassed, hfree⟩ := ih (nextId c)
      refine ⟨n + 1, by omega, ?_, fun m hm => ?_, fun hlt => ?_⟩
      · rw [UnitTable.freeId, if_pos ((findId_isSome c s).2 h), hid, repeat_apply]
      · cases m with
        | zero => exact h
        | succ m => rw [← repeat_apply]; exact hpassed m (by omega)
      · rw [← repeat_apply]
        exact hfree (by omega)

/-- With a FREE record at most seven ids are carried, so that one of eight in a row is not. -/
theorem freeId_of_free {i : Fin 8} {s : State} (hi : s.ut.records[i] = none) (c : Nat) :
    NoUnitCarries (s.ut.freeId 8 c) s ∧ (NoUnitCarries c s → s.ut.freeId 8 c = c) ∧
    ∃ n : Fin 8, s.ut.freeId 8 c = Nat.repeat nextId n.val c ∧ ∀ m : Fin 8, m < n → ¬NoUnitCarries (Nat.repeat nextId m.val c) s := by
  obtain ⟨n, hn, hid, hpassed, hfree⟩ := freeId_eq 8 c s
  have hlt : n < 8 := by
    refine lt_of_le_of_ne hn fun he => ?_
    have hcarried : ∀ m : Fin 8, ∃ (j : Fin 8) (r : UnitRecord), s.ut.records[j] = some r ∧ r.id = Nat.repeat nextId m.val c := fun m => by
      have := hpassed m.val (by omega)
      simpa [NoUnitCarries] using this
    choose index record hrecord hcarries using hcarried
    have hinjective : Function.Injective index := fun a b hab => by
      refine repeat_nextId_injective c ?_
      have hsame : record a = record b := Option.some.inj ((hrecord a).symm.trans (hab ▸ hrecord b))
      show Nat.repeat nextId a.val c = Nat.repeat nextId b.val c
      rw [← hcarries a, ← hcarries b, hsame]
    obtain ⟨m, hm⟩ := Finite.surjective_of_injective hinjective i
    have := hrecord m
    rw [hm, hi] at this
    cases this
  rw [hid]
  refine ⟨hfree hlt, fun h => ?_, ⟨n, hlt⟩, rfl, fun m hm => hpassed m.val hm⟩
  cases n with
  | zero => rfl
  | succ n => exact absurd h (hpassed 0 (by omega))

/-! ## The FREE record (R1, R8) -/

theorem freeRecord_none {s : State} (h : ∀ i : Fin 8, (s.ut.records[i]).isSome = true) : s.ut.freeRecord = none :=
  find_finRange_none fun i => by
    rw [← Option.not_isSome, h i]
    rfl

theorem freeRecord_some {i : Fin 8} {s : State} (h : s.ut.freeRecord = some i) :
    s.ut.records[i] = none ∧ ∀ j, j < i → (s.ut.records[j]).isSome = true := by
  obtain ⟨hi, k, hk, hki, hbefore⟩ := List.find?_eq_some_iff_getElem.1 h
  obtain rfl : k = i.val := by rw [← hki]; simp
  refine ⟨by simpa using hi, fun j hj => ?_⟩
  simpa [← Option.not_isSome] using hbefore j.val hj

theorem freeRecord_exists {i : Fin 8} {s : State} (h : s.ut.records[i] = none) : ∃ j, s.ut.freeRecord = some j :=
  Option.isSome_iff_exists.1 (List.find?_isSome.2 ⟨i, List.mem_finRange i, by simp [h]⟩)

end Sys2Proof.Machine
end

