-- ==== Sys2Proof/Proofs/Loading.lean ====
section
/-! LOAD_UNIT: its refusals in their order, and the record, the slot, the notice and the plans of a load (R3, R7, R8, R79, R160). -/

namespace Sys2Proof.Machine

/-! ## The target of a stream (R79, R80) -/

theorem State.wantedState_setStream (st : StreamId) (x : Stream) (s : State) :
    (s.setStream st x).wantedState st = if s.wanted st then .running else .idle := by
  cases st <;> rfl

/-- A new target is applied already, applied at once where it fits, and waits otherwise. -/
theorem planTaken_setTarget (st : StreamId) (p : Plan) (s : State) :
    PlanTaken p (poolLeft s) (s.wanted st) (s.stream st) ((s.setTarget st p).stream st) := by
  unfold State.setTarget
  dsimp only
  by_cases hp : p = (s.stream st).plan
  · rw [if_pos hp]
    refine ⟨fun _ => ?_, fun h => absurd hp h, fun h => absurd hp h⟩
    by_cases hw : (s.stream st).state = .pendingPlan
    · rw [if_pos hw, if_pos hw, State.stream_enterWanted, State.stream_setStream_self, State.wantedState_setStream]
      exact ⟨rfl, rfl⟩
    · rw [if_neg hw, if_neg hw]
      exact ⟨rfl, rfl⟩
  · rw [if_neg hp]
    refine ⟨fun h => absurd h hp, fun _ hfits => ?_, fun _ hfits => ?_⟩
    · rw [if_pos ((canApply_iff st p s).2 hfits), State.applyPlan, State.stream_enterWanted, State.stream_setStream_self,
        State.wantedState_setStream]
      exact ⟨rfl, rfl, rfl⟩
    · rw [if_neg fun h => hfits ((canApply_iff st p s).1 h), State.stream_enterStream, if_pos rfl, State.stream_setStream_self]
      exact ⟨rfl, rfl, rfl⟩

/-! ## The record and the slot (R3, R8) -/

/-- The record that a load makes (R3, R8). -/
def State.loadedRecord (serial : List Byte) (k : Fin 16) (s : State) : UnitRecord :=
  .begun (s.ut.freeId 8 s.ut.idCounter) serial k ((s.slot k).digest.getD 0) (readRecipe (s.slot k).bytes) s.now

/-- A load before the streams have their new targets (R8). -/
def State.bound (i : Fin 8) (serial : List Byte) (k : Fin 16) (s : State) : State :=
  let t := s.mapSlot k fun x => { x with inUse := x.inUse + 1 }
  (t.setUt { t.ut with
    records := t.ut.records.set i (some (s.loadedRecord serial k)), idCounter := nextId (s.ut.freeId 8 s.ut.idCounter) }).unitNotice i

theorem State.load_eq (i : Fin 8) (serial : List Byte) (k : Fin 16) (s : State) : s.load i serial k =
    ((s.bound i serial k).setTarget .vib (readRecipe (s.slot k).bytes).vibPlan).setTarget .slow (readRecipe (s.slot k).bytes).slowPlan := rfl

section
variable (i : Fin 8) (serial : List Byte) (k : Fin 16) (s : State)

theorem onlyChanges_bound : OnlyChanges [.lp, .ut, .rs] s (s.bound i serial k) :=
  ⟨by simp [State.bound], fun b hb => by cases b <;> simp [Part.same, State.bound] at hb ⊢⟩

theorem onlyChanges_load : OnlyChanges [.lp, .ut, .rs, .cs, .cu] s (s.load i serial k) := by
  rw [State.load_eq]
  exact ((onlyChanges_bound i serial k s).trans ((onlyChanges_setTarget _ _ _).trans (onlyChanges_setTarget _ _ _))).mono (by decide)

theorem State.bound_ut : (s.bound i serial k).ut = { s.ut with
    records := s.ut.records.set i (some (s.loadedRecord serial k)), idCounter := nextId (s.ut.freeId 8 s.ut.idCounter) } := by
  simp [State.bound]

theorem State.bound_rs : (s.bound i serial k).rs = (s.mapSlot k fun x => { x with inUse := x.inUse + 1 }).rs := by
  simp [State.bound]

theorem State.load_ut : (s.load i serial k).ut = (s.bound i serial k).ut := by simp [State.load_eq]

theorem State.load_rs : (s.load i serial k).rs = (s.bound i serial k).rs := by simp [State.load_eq]

/-- The notice of the loaded record stands behind those of the streams (R6, R165). -/
theorem State.load_notice : ⟨.unit i, .unit (s.ut.freeId 8 s.ut.idCounter) (some .loaded) false s.now⟩ ∈ (s.load i serial k).lp.notices := by
  have hraised : ⟨.unit i, .unit (s.ut.freeId 8 s.ut.idCounter) (some .loaded) false s.now⟩ ∈ (s.bound i serial k).lp.notices := by
    unfold State.bound State.unitNotice
    simp only [State.setUt_ut, Fin.getElem_fin, Vector.getElem_set_self]
    exact mem_raise_self _ _ _
  have kept : NoticesKept (fun key => key = .unit i) (s.bound i serial k) (s.load i serial k) :=
    (NoticesKept.setTarget (by simp) _ _ _).trans (NoticesKept.setTarget (by simp) _ _ _)
  exact kept _ hraised rfl

/-- A LOADED record makes no wish for capture (R74). -/
theorem State.wanted_bound {i : Fin 8} {s : State} (hi : s.ut.records[i] = none) (st : StreamId) (hst : st ≠ .leak) :
    (s.bound i serial k).wanted st = s.wanted st := by
  cases st with
  | vib =>
    have hparts := onlyChanges_bound i serial k s
    have hcu : (s.bound i serial k).cu = s.cu := hparts.2 .cu (by decide)
    simp only [State.wanted, State.halt_congr (s := s) (by rw [hcu]), show (s.bound i serial k).oa = s.oa from hparts.2 .oa (by decide)]
  | leak => exact absurd rfl hst
  | slow =>
    refine congrArg Option.isSome ?_
    rw [State.bound_ut]
    unfold UnitTable.find
    congr 1
    funext j
    by_cases hj : j = i
    · subst hj
      simp [hi, State.loadedRecord, UnitRecord.begun]
    · simp [Fin.val_ne_of_ne (Ne.symm hj)]

/-- VIB and SLOW follow the recipe of the slot, VIB first (R79). -/
theorem State.load_plans {i : Fin 8} {s : State} (hi : s.ut.records[i] = none) :
    PlanTaken (readRecipe (s.slot k).bytes).vibPlan (poolLeft s) (s.wanted .vib) s.cs.vib (s.load i serial k).cs.vib ∧
    PlanTaken (readRecipe (s.slot k).bytes).slowPlan (poolLeft (s.setCs { s.cs with vib := (s.load i serial k).cs.vib })) (s.wanted .slow)
      s.cs.slow (s.load i serial k).cs.slow ∧
    (s.load i serial k).cs.leak = s.cs.leak := by
  obtain ⟨u, hu⟩ : ∃ u, u = s.bound i serial k := ⟨_, rfl⟩
  obtain ⟨v, hv⟩ : ∃ v, v = u.setTarget .vib (readRecipe (s.slot k).bytes).vibPlan := ⟨_, rfl⟩
  have hcs : u.cs = s.cs := hu ▸ (onlyChanges_bound i serial k s).2 .cs (by decide)
  have hwanted : ∀ st, st ≠ .leak → u.wanted st = s.wanted st := hu ▸ State.wanted_bound serial k hi
  have hload : s.load i serial k = v.setTarget .slow (readRecipe (s.slot k).bytes).slowPlan := by rw [State.load_eq, hv, hu]
  have hvib : (s.load i serial k).cs.vib = v.cs.vib := by
    rw [hload]
    exact State.stream_setTarget_ne (st := .slow) (st' := .vib) (by simp) _ _
  have hslow : v.cs.slow = s.cs.slow := by
    rw [hv, ← hcs]
    exact State.stream_setTarget_ne (st := .vib) (st' := .slow) (by simp) _ _
  have hleak : v.cs.leak = s.cs.leak := by
    rw [hv, ← hcs]
    exact State.stream_setTarget_ne (st := .vib) (st' := .leak) (by simp) _ _
  have hpool : poolLeft v = poolLeft (s.setCs { s.cs with vib := v.cs.vib }) := by
    simp only [poolLeft, poolOf, State.setCs_cs, hslow, hleak]
  have hwantedv : v.wanted .slow = s.wanted .slow := by
    rw [← hwanted .slow (by simp)]
    exact State.wanted_congr (by simp) (RecordsKeep.of_ut (by simp [hv]))
  have htaken := planTaken_setTarget .vib (readRecipe (s.slot k).bytes).vibPlan u
  have htaken' := planTaken_setTarget .slow (readRecipe (s.slot k).bytes).slowPlan v
  rw [← hv, hwanted .vib (by simp)] at htaken
  rw [← hload, hpool, hwantedv] at htaken'
  refine ⟨?_, ?_, ?_⟩
  · rw [hvib]
    have hx : u.stream .vib = s.cs.vib := congrArg CaptureStore.vib hcs
    have hroom : poolLeft u = poolLeft s := by simp only [poolLeft, poolOf, hcs]
    rw [hx, hroom] at htaken
    exact htaken
  · rw [hvib]
    have hx : v.stream .slow = s.cs.slow := hslow
    rw [hx] at htaken'
    exact htaken'
  · rw [hload, ← hleak]
    exact State.stream_setTarget_ne (st := .slow) (st' := .leak) (by simp) _ _

end

/-! ## The refusals (R7) -/

theorem loadValues_iff {slot : Byte} {serial : List Byte} (h : serial.length ≤ 20) :
    (within 1 20 serial.length && serial.all printable && decide (slot.toNat ≤ 15)) = true ↔
      ¬(serial = [] ∨ (∃ ch ∈ serial, ch.toNat < 0x20 ∨ 0x7E < ch.toNat) ∨ 15 < slot.toNat) := by
  have hlen : 1 ≤ serial.length ↔ serial ≠ [] := by rw [Nat.succ_le_iff, List.length_pos_iff]
  simp only [within, printable, Bool.and_eq_true, decide_eq_true_eq, List.all_eq_true, h, and_true, hlen, not_or, not_exists, not_and,
    not_lt, and_assoc]

theorem unit1_isSome (s : State) : s.unit1.isSome = true ↔ ∃ i : Fin 8, (s.ut.records[i]).any (fun r => r.state.atStation1) = true := by
  rw [State.unit1, UnitTable.find, List.find?_isSome]
  constructor
  · rintro ⟨i, -, hi⟩
    refine ⟨i, ?_⟩
    cases hr : s.ut.records[i] <;> simp_all
  · rintro ⟨i, hi⟩
    refine ⟨i, List.mem_finRange i, ?_⟩
    cases hr : s.ut.records[i] <;> simp_all

section
variable {slot : Byte} {serial : List Byte} {s : State} (hlen : serial.length ≤ 20)
include hlen

theorem takeLoadUnit_badValue (h : serial = [] ∨ (∃ ch ∈ serial, ch.toNat < 0x20 ∨ 0x7E < ch.toNat) ∨ 15 < slot.toNat) :
    takeLoadUnit slot serial s = (s, refuse .badValue) := by
  unfold takeLoadUnit
  exact if_pos fun hvalues => (loadValues_iff hlen).1 hvalues h

variable (hv : ¬(serial = [] ∨ (∃ ch ∈ serial, ch.toNat < 0x20 ∨ 0x7E < ch.toNat) ∨ 15 < slot.toNat))
include hv

theorem takeLoadUnit_tableFull (h : s.ut.freeRecord = none) : takeLoadUnit slot serial s = (s, refuse .tableFull) := by
  unfold takeLoadUnit
  rw [if_neg (not_not_intro ((loadValues_iff hlen).2 hv)), h]

/-- With a FREE record the checks of the station and of the slot follow (R7). -/
theorem takeLoadUnit_free {i : Fin 8} (h : s.ut.freeRecord = some i) :
    takeLoadUnit slot serial s =
      if ∃ i : Fin 8, (s.ut.records[i]).any (fun r => r.state.atStation1) = true then (s, refuse .stationBusy)
      else if slot = 0 then (s, refuse .notRecipe)
      else if (s.slot (Fin.ofNat 16 slot.toNat)).state ≠ .valid then (s, refuse .recipeInvalid)
      else (s.load i serial (Fin.ofNat 16 slot.toNat), answer .ok (leBytes 2 (s.ut.freeId 8 s.ut.idCounter))) := by
  have hzero : slot.toNat = 0 ↔ slot = 0 := ⟨fun h => BitVec.eq_of_toNat_eq (by rw [h]; rfl), fun h => by rw [h]; rfl⟩
  unfold takeLoadUnit
  rw [if_neg (not_not_intro ((loadValues_iff hlen).2 hv)), h]
  exact if_congr (unit1_isSome s) rfl (if_congr hzero rfl rfl)

end

/-- What a served load leaves: the record, the slot, the notice and the plans. -/
theorem Served.loaded {f : Frame} {i : Fin 8} {serial : List Byte} {k : Fin 16} {r : Reply} {s t : State}
    (h : Served f ((s.headed f).load i serial k, r) s t) (hi : s.ut.records[i] = none) :
    OnlyChanges [.lp, .ut, .rs, .cs, .cu] s t ∧
    t.ut = { s.ut with
      records := s.ut.records.set i (some (s.loadedRecord serial k)), idCounter := nextId (s.ut.freeId 8 s.ut.idCounter) } ∧
    (∀ j, t.slot j = if j = k then { s.slot k with inUse := (s.slot k).inUse + 1 } else s.slot j) ∧
    (PlanTaken (readRecipe (s.slot k).bytes).vibPlan (poolLeft s) (s.wanted .vib) s.cs.vib t.cs.vib ∧
      PlanTaken (readRecipe (s.slot k).bytes).slowPlan (poolLeft (s.setCs { s.cs with vib := t.cs.vib })) (s.wanted .slow)
        s.cs.slow t.cs.slow ∧ t.cs.leak = s.cs.leak) ∧
    Announced ⟨.unit i, .unit (s.ut.freeId 8 s.ut.idCounter) (some .loaded) false s.now⟩ t := by
  obtain ⟨u, hu⟩ : ∃ u, u = s.headed f := ⟨_, rfl⟩
  have hut : u.ut = s.ut := by rw [hu, (State.headed_frame f s).2.2.2.2.1]
  have hslot : ∀ j, u.slot j = s.slot j := fun j => State.slot_congr (by simp [hu]) j
  have hcs : u.cs = s.cs := by simp [hu]
  have hnow : u.now = s.now := by rw [hu, State.headed_now]
  have hwanted : ∀ st, u.wanted st = s.wanted st := fun st => by
    cases st <;> simp [State.wanted, State.anyUnit, State.halt, hu]
  have hpool : poolLeft u = poolLeft s := by simp only [poolLeft, poolOf, hcs]
  have hpool' : ∀ x, poolLeft (u.setCs x) = poolLeft (s.setCs x) := fun x => by simp only [poolLeft, poolOf, State.setCs_cs]
  have hrecord : u.loadedRecord serial k = s.loadedRecord serial k := by simp only [State.loadedRecord, hut, hslot, hnow]
  rw [← hu] at h
  have hplans := State.load_plans serial k (i := i) (s := u) (by rw [hut, hi])
  have hnotice := State.load_notice i serial k u
  simp only [hslot, hpool, hpool', hwanted, hcs] at hplans
  rw [hut, hnow] at hnotice
  refine ⟨h.onlyChanges (by decide) (hu ▸ (onlyChanges_load i serial k u).2), ?_, fun j => ?_, ?_, .inl ?_⟩
  · rw [h.ut, State.load_ut, State.bound_ut, hut, hrecord]
  · rw [State.slot_congr (s := u.mapSlot k fun x => { x with inUse := x.inUse + 1 })
      (by rw [h.rs, State.load_rs, State.bound_rs]), State.slot_mapSlot, hslot, hslot]
  · rw [h.cs]
    exact hplans
  · rw [h.notices]
    exact hnotice

/-- What a load makes of the FREE record (R3). -/
theorem State.loadedRecord_leak (serial : List Byte) (k : Fin 16) (s : State) (c : Fin 4) :
    ((s.loadedRecord serial k).leak.chambers[c]).attempts = 0 ∧ ((s.loadedRecord serial k).leak.chambers[c]).outcome = none ∧
    ((s.loadedRecord serial k).leak.chambers[c]).verdict =
      if ((readRecipe (s.slot k).bytes).chambers[c]).enabled then none else some .skipped := by
  simp only [State.loadedRecord, UnitRecord.begun, LeakSection.begun, Fin.getElem_fin, Vector.getElem_ofFn]
  split <;> exact ⟨rfl, rfl, rfl⟩

/-- Settles O15: the body's length, the refusals of R7 in their order, and the load. -/
theorem loadUnitBindsARecipeToAFreeRecord : Obligations.LoadUnitBindsARecipeToAFreeRecord := by
  intro tag slot serial s hl hmax f
  have hw : (Instr.loadUnit tag slot serial).wf = true := decide_eq_true (show 1 + serial.length ≤ 1024 by omega)
  have hbody : f.body.length = serial.length + 1 := rfl
  by_cases hlong : 20 < serial.length
  · simp only [if_pos hlong]
    exact exec_refuses_length (c := .loadUnit tag slot serial) rfl hw hl rfl (by simp [within]; omega)
  have hlen : serial.length ≤ 20 := by omega
  obtain ⟨t, ht, hserved⟩ := exec_serves (c := .loadUnit tag slot serial) rfl hw hl rfl (fun lim hlim => by
    cases hlim
    simp only [within, List.length_cons, Bool.and_eq_true, decide_eq_true_eq]
    omega)
  refine ⟨t, ht, ?_⟩
  rw [take] at hserved
  rw [if_neg hlong]
  by_cases hvalues : serial = [] ∨ (∃ ch ∈ serial, ch.toNat < 0x20 ∨ 0x7E < ch.toNat) ∨ 15 < slot.toNat
  · rw [takeLoadUnit_badValue hlen hvalues] at hserved
    rw [if_pos hvalues]
    exact hserved.onlyAnswers
  rw [if_neg hvalues]
  by_cases hfull : ∀ i : Fin 8, (s.ut.records[i]).isSome = true
  · rw [takeLoadUnit_tableFull hlen hvalues (s := s.headed f) (freeRecord_none hfull)] at hserved
    rw [if_pos hfull]
    exact hserved.onlyAnswers
  rw [if_neg hfull]
  obtain ⟨i, hfree⟩ : ∃ i, s.ut.freeRecord = some i := by
    simp only [not_forall, Bool.not_eq_true, Option.isSome_eq_false_iff, Option.isNone_iff_eq_none] at hfull
    obtain ⟨j, hj⟩ := hfull
    exact freeRecord_exists hj
  rw [takeLoadUnit_free hlen hvalues (s := s.headed f) hfree] at hserved
  obtain ⟨k, hk⟩ : ∃ k : Fin 16, k = Fin.ofNat 16 slot.toNat := ⟨_, rfl⟩
  have hkval : k.val = slot.toNat := by
    rw [hk, Fin.val_ofNat]
    omega
  change Served f (if ∃ i : Fin 8, (s.ut.records[i]).any (fun r => r.state.atStation1) = true then _ else if slot = 0 then _
    else if (s.slot (Fin.ofNat 16 slot.toNat)).state ≠ .valid then _ else _) s t at hserved
  rw [← hk] at hserved
  have hslots : (∀ k : Fin 16, k.val = slot.toNat → (s.slot k).state ≠ .valid) ↔ (s.slot k).state ≠ .valid :=
    ⟨fun h => h k hkval, fun h j hj => by rwa [Fin.ext (hj.trans hkval.symm)]⟩
  rw [if_congr hslots rfl rfl]
  split_ifs at hserved ⊢
  · exact hserved.onlyAnswers
  · exact hserved.onlyAnswers
  · exact hserved.onlyAnswers
  obtain ⟨hnone, hbefore⟩ := freeRecord_some hfree
  obtain ⟨hcarries, hcounter, hfirst⟩ := freeId_of_free hnone s.ut.idCounter
  obtain ⟨hchanges, hut, hslot, ⟨hvib, hslow, hleak⟩, hnotice⟩ := hserved.loaded hnone
  have hanswered : Answered f (0x00 :: leBytes 2 (s.ut.freeId 8 s.ut.idCounter)) s t := hserved.answered
  clear hserved
  refine ⟨i, k, s.ut.freeId 8 s.ut.idCounter, hkval, hnone, hbefore, hchanges, hanswered, ⟨hcarries, hcounter, hfirst⟩, ?_,
    by rw [hut], by rw [hut], ⟨⟨s.loadedRecord serial k, ?_, ?_⟩, hvib, hslow⟩, fun j hj => ?_, ?_, fun j hj => ?_, hleak, hnotice⟩
  · rw [hut]
    rfl
  · rw [hut]
    simp
  · have hleak' := s.loadedRecord_leak serial k
    exact ⟨rfl, rfl, rfl, rfl, rfl, rfl, rfl, rfl, rfl, rfl, rfl, rfl, rfl, rfl, rfl, rfl, hleak'⟩
  · rw [hut]
    simp [Fin.val_ne_of_ne (Ne.symm hj)]
  · rw [hslot, if_pos rfl]
  · exact (hslot j).trans (if_neg hj)

end Sys2Proof.Machine
end

