-- ==== Sys2Proof/Proofs/AdvanceStep.lean ====
section
/-! ADVANCE_STEP: the refusals of R50, and the normal end of the current step by command (R47, R49 to R51, R53, R55). -/

namespace Sys2Proof.Machine

/-- What the command's frame leaves of the machine that the engine looks at. -/
theorem IsStepping.headed {k : Nat} {x : Step} {i : Fin 8} {r : UnitRecord} {s : State} (h : IsStepping k x i r s) (f : Frame) :
    IsStepping k x i r (s.headed f) := h

/-- Settles O27: the refusals in their order, and the normal end of the step as at its timer's expiry. -/
theorem advanceStepEndsTheCurrentStep : Obligations.AdvanceStepEndsTheCurrentStep := by
  intro tag s hl f
  obtain ⟨t, ht, hserved⟩ := exec_serves (c := .advanceStep tag) rfl rfl hl rfl (by simp [bodyLimits, within])
  rw [take] at hserved
  change Served f (if s.cu.mode = .production then _ else if s.pe.phase = .stepping then _ else _) s t at hserved
  refine ⟨fun hm => ⟨t, ht, ?_⟩, fun hm hp => ⟨t, ht, ?_⟩, fun k x i r hm hst => ⟨t, ht, ?_⟩⟩
  · rw [if_pos hm] at hserved
    exact hserved.onlyAnswers
  · rw [if_neg (by simp [hm]), if_neg hp] at hserved
    exact hserved.onlyAnswers
  rw [if_neg (by simp [hm]), if_pos hst.2.2.1] at hserved
  have hst' := hst.headed f
  refine ⟨hserved.answered, hserved.onlyChanges (by decide) (onlyChanges_engine (State.endCurrent_frame (s.headed f))).2, ?_, fun y hn hy he => ?_,
    fun hlast => ?_⟩
  · rw [hserved.pe]
    simp
  · obtain ⟨hent, hcounters, r', hr', hdrag⟩ := hst'.endCurrent_enters hn hy he
    refine ⟨hent.congr hserved.pe hserved.ut hserved.oa ?_, by rw [hserved.pe]; exact hcounters, r', by rw [hserved.ut]; exact hr', hdrag⟩
    exact hserved.parts .clock (by decide)
  · refine (hst'.endCurrent_runsOut hlast).congr hserved.pe hserved.ut hserved.oa ?_ hserved.afe
    rw [hserved.cu]

end Sys2Proof.Machine
end

