-- ==== Sys2Proof/Proofs/OneUnit.lean ====
section
/-! The unit at station 1 through the Profile Engine: no other record changes, and its own keeps who it is, when it started, its abort mark
and its leak section (R5, R42, R43, R51, R55, R60). -/

namespace Sys2Proof.Machine

/-- What the run-in and the windows of a unit leave of its record. -/
def UnitRecord.identity (r : UnitRecord) : Nat × List Byte × Option CellTime × Bool × LeakSection :=
  (r.id, r.serial, r.startTime, r.abort, r.leak)

/-- No record but `i` is at station 1 (R5). -/
def AloneAtStation1 (i : Fin 8) (s : State) : Prop :=
  ∀ (j : Fin 8) (r : UnitRecord), s.ut.records[j] = some r → r.state.atStation1 = true → j = i

/-- With no other record at station 1, an operation changes none but `i`, and that one keeps its identity. -/
def OnlyUnit (i : Fin 8) (s t : State) : Prop :=
  AloneAtStation1 i s → OtherUnitsKept i s t ∧ (t.ut.records[i]).map UnitRecord.identity = (s.ut.records[i]).map UnitRecord.identity

theorem StationLaw.alone {i : Fin 8} {r : UnitRecord} {s : State} (hl : StationLaw s) (hi : s.ut.records[i] = some r)
    (hr : r.state.atStation1 = true) : AloneAtStation1 i s := fun j r' hj hr' => (hl j i r' r hj hi).1 hr' hr

theorem AloneAtStation1.congr {i : Fin 8} {s t : State} (h : AloneAtStation1 i s) (ht : t.ut = s.ut) : AloneAtStation1 i t := by
  unfold AloneAtStation1
  rw [ht]
  exact h

/-- What a search among the states of station 1 finds is the one record there. -/
theorem AloneAtStation1.found {i j : Fin 8} {s : State} {p : UnitState → Bool} (h : AloneAtStation1 i s) (hj : s.ut.find p = some j)
    (hp : ∀ u, p u = true → u.atStation1 = true) : j = i := by
  obtain ⟨r, hr, hstate⟩ := UnitTable.find_some hj
  exact h j r hr (hp _ hstate)

namespace OnlyUnit

variable {i : Fin 8} {s t u : State}

theorem of_ut (h : t.ut = s.ut) : OnlyUnit i s t := fun _ => ⟨fun j _ => by rw [h], by rw [h]⟩

theorem of_records (h : t.ut.records = s.ut.records) : OnlyUnit i s t := fun _ => ⟨fun j _ => by rw [h], by rw [h]⟩

theorem trans (h : OnlyUnit i s t) (h' : OnlyUnit i t u) : OnlyUnit i s u := fun halone => by
  obtain ⟨hothers, hkept⟩ := h halone
  have halone' : AloneAtStation1 i t := fun j r hj hr => by
    by_contra hne
    exact hne (halone j r ((hothers j hne).symm.trans hj) hr)
  obtain ⟨hothers', hkept'⟩ := h' halone'
  exact ⟨fun j hj => (hothers' j hj).trans (hothers j hj), hkept'.trans hkept⟩

theorem then_same (h : OnlyUnit i s t) (hu : u.ut = t.ut) : OnlyUnit i s u := h.trans (of_ut hu)

theorem setPe (p : ProfileEngine) (s : State) : OnlyUnit i s (s.setPe p) := of_ut rfl

theorem mapUnit {j : Fin 8} {g : UnitRecord → UnitRecord} (hj : AloneAtStation1 i s → j = i) (hg : ∀ r, (g r).identity = r.identity) :
    OnlyUnit i s (s.mapUnit j g) := fun halone => by
  obtain rfl := hj halone
  refine ⟨fun k hk => ?_, ?_⟩
  · rw [State.records_mapUnit, if_neg hk]
  · rw [State.records_mapUnit, if_pos rfl, Option.map_map]
    exact congrArg (fun f => (s.ut.records[j]).map f) (funext hg)

theorem mapRunIn (g : RunIn → RunIn) (s : State) : OnlyUnit i s (s.mapRunIn g) := by
  unfold State.mapRunIn
  split
  · next j hj => exact mapUnit (fun h => h.found hj fun u hu => by rw [of_decide_eq_true hu]; rfl) fun _ => rfl
  · exact of_ut rfl

theorem mapNoise (g : Noise → Noise) (s : State) : OnlyUnit i s (s.mapNoise g) := by
  unfold State.mapNoise
  split
  · next j hj => exact mapUnit (fun h => h.found hj fun _ hu => hu) fun _ => rfl
  · exact of_ut rfl

theorem closeTable (s : State) : OnlyUnit i s s.closeTable := by
  unfold State.closeTable
  split
  · exact (mapNoise _ s).then_same rfl
  · exact of_ut rfl

theorem gradeWindow (n : Nat) (s : State) : OnlyUnit i s (s.gradeWindow n) := by
  unfold State.gradeWindow
  split
  · exact of_ut rfl
  · exact ((of_ut rfl : OnlyUnit i s (s.mapWindow n _)).trans (mapNoise _ _)).trans (closeTable _)

theorem closeWindow (n : Nat) (s : State) : OnlyUnit i s (s.closeWindow n) := by
  have graded : OnlyUnit i s ((s.abandonFor n).gradeWindow n).syncStreams :=
    ((of_ut (by simp) : OnlyUnit i s (s.abandonFor n)).trans (gradeWindow n _)).then_same (by simp)
  cases hw : s.oa.window n with
  | none => rw [State.closeWindow_absent hw]; exact of_ut rfl
  | some w =>
    rcases State.closeWindow_found hw with ⟨-, -, h⟩ | ⟨-, -, h⟩ | ⟨-, -, h⟩ <;> rw [h]
    · exact graded
    · exact of_ut (by simp)
    · exact of_ut rfl

theorem closeWindows (s : State) : OnlyUnit i s s.closeWindows := by
  unfold State.closeWindows
  split
  · exact closeTable s
  · unfold State.closeAll
    generalize s.oa.windows.map Window.number = ns
    clear *-
    induction ns generalizing s with
    | nil => exact of_ut rfl
    | cons n ns ih => exact (closeWindow n s).trans (ih _)

/-- The record of station 1 moves. -/
theorem enterState {j : Fin 8} {u : UnitState} (hj : AloneAtStation1 i s → j = i) : OnlyUnit i s (s.enterState j u) :=
  (mapUnit hj (g := fun r => { r with state := u }) fun _ => rfl).then_same (by simp)

theorem checkTransfer (s : State) : OnlyUnit i s s.checkTransfer := by
  unfold State.checkTransfer
  split
  · next j hj =>
    split
    · have moved : OnlyUnit i s (s.runConveyor.enterState j .inTransfer) :=
        (of_records rfl : OnlyUnit i s s.runConveyor).trans
          (enterState fun h => h.found (p := fun u => decide (u = .runDone)) hj fun u hu => by rw [of_decide_eq_true hu]; rfl)
      dsimp only
      split
      · exact moved.then_same (by simp)
      · exact moved
    · exact of_ut rfl
  · exact of_ut rfl

theorem checkRunDone (s : State) : OnlyUnit i s s.checkRunDone := by
  unfold State.checkRunDone
  split
  · exact of_ut rfl
  · next j hj =>
    split
    · exact of_ut rfl
    · split
      · have done : OnlyUnit i s (s.enterState j .runDone) := enterState fun h => h.found hj fun u hu => by rw [of_decide_eq_true hu]; rfl
        exact (done.then_same (by simp)).trans (checkTransfer _)
      · exact of_ut rfl

theorem profileEnd (cause : StopCause) (s : State) : OnlyUnit i s (s.profileEnd cause) := by
  unfold State.profileEnd
  refine trans ?_ (checkRunDone _)
  refine then_same (trans ?_ (closeWindows _)) rfl
  exact (of_ut (by simp) : OnlyUnit i s _).trans (mapRunIn _ _)

theorem beginStop (cause : StopCause) (s : State) : OnlyUnit i s (s.beginStop cause) := by
  unfold State.beginStop
  dsimp only
  split
  · exact (setPe _ s).trans (profileEnd cause _)
  · exact of_ut rfl

theorem endStep (k : Nat) (x : Step) (s : State) : OnlyUnit i s (s.endStep k x).1 := by
  have paused : OnlyUnit i s s.pauseStep := of_ut (by simp)
  unfold State.endStep State.evaluateDrag
  dsimp only
  split
  · split
    · exact (paused.trans (mapRunIn _ _)).then_same rfl
    · exact paused.then_same rfl
  · exact paused.then_same rfl

theorem enterStep (k : Nat) (x : Step) (s : State) : OnlyUnit i s (s.enterStep k x) :=
  ((of_ut rfl : OnlyUnit i s (s.setPe { s.pe with step := some k })).trans (mapRunIn (fun r => { r with steps := count32 r.steps }) _)).then_same (by simp [State.enterStep])

theorem runSteps (fuel k : Nat) (s : State) : OnlyUnit i s (runSteps fuel k s) := by
  induction fuel generalizing k s with
  | zero => exact of_ut rfl
  | succ fuel ih =>
    unfold Machine.runSteps
    split
    · exact beginStop _ s
    · next x _ =>
      dsimp only
      split
      · exact ((enterStep k x s).trans (endStep k x _)).trans (ih _ _)
      · exact enterStep k x s

theorem startProfile (r : Recipe) (s : State) : OnlyUnit i s (s.startProfile r) := by
  unfold State.startProfile State.beginProfile
  dsimp only
  split
  · exact of_ut rfl
  · exact (of_ut (by simp) : OnlyUnit i s _).trans (runSteps _ _ _)

theorem abortProfile (s : State) : OnlyUnit i s s.abortProfile := by
  unfold State.abortProfile
  split
  · exact (of_ut (by simp [State.clearDrag]) : OnlyUnit i s s.pauseStep.clearDrag).trans (beginStop _ _)
  · exact beginStop _ s
  · exact beginStop _ s
  · exact beginStop _ s
  · exact profileEnd _ s
  · exact of_ut rfl

end OnlyUnit

end Sys2Proof.Machine
end

