-- ==== Sys2Proof/Proofs/StartRun.lean ====
section
/-! START_RUN: the record that runs, its windows, SLOW capture and the line silence timer, and the profile that begins at step 1 or is HELD
(R10, R42, R43, R74, R167). -/

namespace Sys2Proof.Machine

/-! ## Capture of SLOW while a unit runs (R74) -/

/-- SLOW capture is wanted and has begun: the stream stands as `x`, which is not IDLE. -/
def SlowHeldAt (x : Stream) (s : State) : Prop := s.wanted .slow = true ∧ s.stream .slow = x ∧ x.state ≠ .idle

namespace SlowHeldAt

variable {x : Stream} {s t : State}

theorem congr (h : SlowHeldAt x s) (hcs : t.cs = s.cs) (hut : RecordsKeep UnitRecord.state s t) : SlowHeldAt x t := by
  obtain ⟨hwanted, hstream, hx⟩ := h
  exact ⟨(State.wanted_congr (by simp) hut).trans hwanted, (State.stream_congr hcs _).trans hstream, hx⟩

theorem setPe (h : SlowHeldAt x s) (p : ProfileEngine) : SlowHeldAt x (s.setPe p) := h

theorem syncStreams (h : SlowHeldAt x s) : SlowHeldAt x s.syncStreams := by
  obtain ⟨hwanted, hstream, hx⟩ := h
  refine ⟨(State.wanted_congr (by simp) (RecordsKeep.of_ut (by simp))).trans hwanted, ?_, hx⟩
  have hstate : syncedState x.state true = x.state := by
    revert hx
    cases x.state <;> simp [syncedState]
  rw [State.stream_syncStreams (by simp), hwanted, hstream, hstate]

theorem openWindow (h : SlowHeldAt x s) (n : Nat) : SlowHeldAt x (s.openWindow n) := by
  unfold State.openWindow
  exact SlowHeldAt.syncStreams (h.congr (by simp) (RecordsKeep.of_ut (by simp)))

theorem tryOpen (h : SlowHeldAt x s) : SlowHeldAt x s.tryOpen := by
  unfold State.tryOpen
  split
  · exact h
  · split
    · exact (h.setPe _).openWindow _
    · exact h

theorem loadSettle (h : SlowHeldAt x s) (y : Step) : SlowHeldAt x (s.loadSettle y) := by
  unfold State.loadSettle
  dsimp only
  split
  · exact h
  · split
    · exact ((h.setPe _).setPe _).tryOpen
    · exact h

theorem loadStep (h : SlowHeldAt x s) (y : Step) : SlowHeldAt x (s.loadStep y) := (h.setPe _).loadSettle y

theorem enterStep (h : SlowHeldAt x s) (k : Nat) (y : Step) : SlowHeldAt x (s.enterStep k y) := by
  have counted : SlowHeldAt x ((s.setPe { s.pe with step := some k }).mapRunIn fun r => { r with steps := count32 r.steps }) :=
    h.congr (by simp) (RecordsKeep.mapRunIn_of (fun _ _ => rfl) _ (s.setPe { s.pe with step := some k }))
  exact counted.loadStep y

end SlowHeldAt

/-! ## The unit that runs (R10) -/

/-- The record that START_RUN leaves, before its first step is counted (R10). -/
def UnitRecord.started (now : CellTime) (r : UnitRecord) : UnitRecord :=
  { r with state := .running, startTime := some now, runIn := { r.runIn with state := .inProgress } }

/-- The machine as the Profile Engine is handed the unit (R10, R42). -/
def State.unitStarted (i : Fin 8) (recipe : Recipe) (s : State) : State :=
  ((((s.mapUnit i fun r => { r with startTime := some s.now, runIn := { r.runIn with state := .inProgress } }).enterState i
    .running).setUpWindows recipe).syncStreams).armSilence

theorem State.startRun_eq (i : Fin 8) (recipe : Recipe) (s : State) : s.startRun i recipe = (s.unitStarted i recipe).startProfile recipe := rfl

/-- The window table as START_RUN sets it up (R84, R85). -/
def Recipe.freshWindows (recipe : Recipe) : List Window := (recipe.windows.zipIdx 1).map fun p => Window.fresh p.2 p.1

theorem State.setUpWindows_windows (recipe : Recipe) (s : State) : (s.setUpWindows recipe).oa.windows = recipe.freshWindows := rfl

/-- What START_RUN leaves of the blocks before the profile begins. -/
theorem State.unitStarted_frame (i : Fin 8) (recipe : Recipe) (s : State) :
    (s.unitStarted i recipe).pe = s.pe ∧ (s.unitStarted i recipe).rs = s.rs ∧ (s.unitStarted i recipe).clockUs = s.clockUs ∧
    (s.unitStarted i recipe).cu.stack = s.cu.stack ∧ (s.unitStarted i recipe).oa.windows = recipe.freshWindows := by
  obtain ⟨m, hm⟩ : ∃ m, m = ((s.mapUnit i fun r =>
      { r with startTime := some s.now, runIn := { r.runIn with state := .inProgress } }).enterState i .running) := ⟨_, rfl⟩
  have hstarted : s.unitStarted i recipe = ((m.setUpWindows recipe).syncStreams).armSilence := by rw [hm]; rfl
  have hwindows : (s.unitStarted i recipe).oa.windows = (m.setUpWindows recipe).oa.windows := by simp [hstarted]
  refine ⟨?_, ?_, ?_, ?_, hwindows.trans (State.setUpWindows_windows recipe m)⟩ <;> simp [hstarted, hm, State.setUpWindows]

section
variable {i : Fin 8} {r : UnitRecord} {s : State} (hi : s.ut.records[i] = some r) (recipe : Recipe)
include hi

theorem State.unitStarted_ut : (s.unitStarted i recipe).ut = (s.setRecord i (r.started s.now)).ut := by
  have hut : (s.unitStarted i recipe).ut =
      ((s.mapUnit i fun r => { r with startTime := some s.now, runIn := { r.runIn with state := .inProgress } }).enterState i .running).ut := by
    simp [State.unitStarted, State.setUpWindows]
  rw [hut, State.enterState_ut, State.mapUnit_eq_setRecord hi, State.mapUnit_eq_setRecord (State.setRecord_self_records _ _ _),
    State.setRecord_setRecord]
  rfl

theorem State.unitStarted_announces :
    ⟨.unit i, .unit r.id (some .running) r.abort s.now⟩ ∈ (s.unitStarted i recipe).lp.notices := by
  obtain ⟨m, hm⟩ : ∃ m, m = s.setRecord i { r with startTime := some s.now, runIn := { r.runIn with state := .inProgress } } := ⟨_, rfl⟩
  have hmi : m.ut.records[i] = some { r with startTime := some s.now, runIn := { r.runIn with state := .inProgress } } := by
    rw [hm, State.setRecord_self_records]
  have hraised : ⟨.unit i, .unit r.id (some .running) r.abort s.now⟩ ∈ (m.enterState i .running).lp.notices := by
    rw [State.enterState, State.mapUnit_eq_setRecord hmi, State.unitNotice, State.setRecord_self_records]
    have hnow : (m.setRecord i { r with
        startTime := some s.now, runIn := { r.runIn with state := .inProgress }, state := .running }).now = s.now :=
      State.now_congr (by simp [hm, State.setRecord])
    dsimp only
    rw [hnow]
    exact mem_raise_self _ _ _
  have hkept : ∀ u : State, u.syncStreams.armSilence.lp.notices = u.lp.notices := fun u => by
    have harm : ∀ v : State, v.armSilence.lp.notices = v.lp.notices := fun v => by unfold State.armSilence; split <;> rfl
    rw [harm]
    simp
  unfold State.unitStarted
  rw [hkept, State.mapUnit_eq_setRecord hi, ← hm]
  exact hraised

/-- Capture of SLOW is wanted from now on, and an IDLE stream runs (R74). -/
theorem State.unitStarted_slow : SlowHeldAt { s.stream .slow with
    state := if (s.stream .slow).state = .idle then .running else (s.stream .slow).state } (s.unitStarted i recipe) := by
  have hrecord : (s.unitStarted i recipe).ut.records[i] = some (r.started s.now) := by
    rw [State.unitStarted_ut hi, State.setRecord_self_records]
  have hwanted : (s.unitStarted i recipe).wanted .slow = true := by
    show ((s.unitStarted i recipe).ut.find fun u => decide (u = .running)).isSome = true
    rw [Option.isSome_iff_ne_none]
    intro hnone
    have := UnitTable.find_eq_none hnone i _ hrecord
    simp [UnitRecord.started] at this
  obtain ⟨m, hm⟩ : ∃ m, m = ((s.mapUnit i fun r =>
      { r with startTime := some s.now, runIn := { r.runIn with state := .inProgress } }).enterState i .running).setUpWindows recipe := ⟨_, rfl⟩
  have hstarted : s.unitStarted i recipe = m.syncStreams.armSilence := by rw [hm]; rfl
  have hmwanted : m.wanted .slow = true := by
    rw [hstarted] at hwanted
    exact (State.wanted_congr (by simp) (RecordsKeep.of_ut (by simp))).symm.trans hwanted
  have hmslow : m.stream .slow = s.stream .slow := State.stream_congr (by simp [hm, State.setUpWindows]) _
  have hstream : (s.unitStarted i recipe).stream .slow = m.syncStreams.stream .slow :=
    State.stream_congr (by simp [hstarted]) _
  refine ⟨hwanted, ?_, by split <;> simp_all⟩
  rw [hstream, State.stream_syncStreams (by simp), hmwanted, hmslow]
  cases (s.stream .slow).state <;> rfl

variable (hl : StationLaw s) (hr : r.state = .loaded)
include hl hr

theorem State.unitStarted_law : StationLaw (s.unitStarted i recipe) := by
  refine hl.replaced i (o := some (r.started s.now)) (fun j => ?_) fun r' hr' j q hj hq => ?_
  · rw [State.unitStarted_ut hi, State.setRecord_records]
  · cases hr'
    obtain ⟨hothers, -⟩ := hl.others hi j q hj hq
    exact ⟨fun _ => hothers (by rw [hr]; rfl), fun h => nomatch h⟩

theorem State.unitStarted_unit : IsUnitIn .running i (r.started s.now) (s.unitStarted i recipe) := by
  refine ⟨by rw [State.unitStarted_ut hi, State.setRecord_self_records], rfl, fun j hj q hq hrun => ?_⟩
  rw [State.unitStarted_ut hi, State.setRecord_records, if_neg hj] at hq
  obtain ⟨hothers, -⟩ := hl.others hi j q hj hq
  have := hothers (by rw [hr]; rfl)
  rw [hrun] at this
  exact nomatch this

end

/-- The timer is running as it starts (R167). -/
theorem State.unitStarted_silence {s : State} (i : Fin 8) (recipe : Recipe) (hs : s.lp.silence = .disarmed ∨ s.lp.silence = .running s.rs.live.silence) :
    (s.unitStarted i recipe).lp.silence = .running s.rs.live.silence := by
  unfold State.unitStarted
  generalize hu : (((s.mapUnit i _).enterState i .running).setUpWindows recipe).syncStreams = u
  have hkept : u.lp.silence = s.lp.silence := by simp [← hu, State.setUpWindows]
  have hrs : u.rs = s.rs := by simp [← hu, State.setUpWindows]
  unfold State.armSilence
  rcases hs with hs | hs <;> rw [hkept, hs] <;> simp [hkept, hs, hrs]

/-! ## The profile (R42, R43) -/

/-- The engine with the loop counters of a recipe loaded and no halt (R42). -/
def State.profileLoaded (recipe : Recipe) (s : State) : State :=
  (s.setPe { s.pe with counters := recipe.steps.map Step.loopCount, halt := .none }).clearDrag

/-- Under a PROFILE halt the profile is HELD (R42, R57). -/
theorem State.startProfile_held {s : State} (h : s.halt.profile = true) (recipe : Recipe) :
    s.startProfile recipe = (s.profileLoaded recipe).setPe { (s.profileLoaded recipe).pe with
      phase := .held, step := none, stepTimer := none, halt := if s.severeFrame then .hard else .soft } := if_pos h

theorem State.startProfile_begins {s : State} (h : s.halt.profile = false) (recipe : Recipe) :
    s.startProfile recipe = (s.profileLoaded recipe).beginProfile := if_neg (by simp [h])

theorem State.setEnable_rest (b : Bool) (s : State) :
    (s.setEnable b).pe.counters = s.pe.counters ∧ (s.setEnable b).pe.halt = s.pe.halt ∧ (s.setEnable b).pe.setpoint = s.pe.setpoint := by
  unfold State.setEnable
  split <;> simp

/-- The engine with its drive enabled and released, before step 1 (R42). -/
def State.driveBegun (recipe : Recipe) (s : State) : State :=
  ((s.profileLoaded recipe).setEnable true).setPe { ((s.profileLoaded recipe).setEnable true).pe with brake := false, phase := .stepping }

theorem State.driveBegun_frame (recipe : Recipe) (s : State) :
    (s.driveBegun recipe).lp = s.lp ∧ (s.driveBegun recipe).ut = s.ut ∧ (s.driveBegun recipe).rs = s.rs ∧ (s.driveBegun recipe).cs = s.cs ∧
    (s.driveBegun recipe).oa = s.oa ∧ (s.driveBegun recipe).cu.stack = s.cu.stack := by
  simp [State.driveBegun, State.profileLoaded]

theorem State.driveBegun_pe (recipe : Recipe) (s : State) :
    (s.driveBegun recipe).pe.enable = true ∧ (s.driveBegun recipe).pe.brake = false ∧ (s.driveBegun recipe).pe.halt = .none ∧
    (s.driveBegun recipe).pe.setpoint = s.pe.setpoint ∧ (s.driveBegun recipe).pe.counters = recipe.steps.map Step.loopCount := by
  have henable := State.setEnable_enable true (s.profileLoaded recipe)
  obtain ⟨hcounters, hhalt, hsetpoint⟩ := State.setEnable_rest true (s.profileLoaded recipe)
  exact ⟨henable, rfl, hhalt, hsetpoint, hcounters⟩

/-! ## The command -/

/-- What follows the start however the profile begins: the silence timer, SLOW capture and the notice (R6, R74, R167). -/
structure RunBegan (i : Fin 8) (r : UnitRecord) (s t : State) : Prop where
  silence : t.lp.silence = .running s.rs.live.silence
  slow : t.stream .slow = { s.stream .slow with state := if (s.stream .slow).state = .idle then .running else (s.stream .slow).state }
  notice : ⟨.unit i, .unit r.id (some .running) r.abort s.now⟩ ∈ t.lp.notices

section
variable {i : Fin 8} {r : UnitRecord} {s : State} (hi : s.ut.records[i] = some r) (hl : StationLaw s) (hr : r.state = .loaded)
include hi

theorem State.unitStarted_began (hs : s.lp.silence = .disarmed ∨ s.lp.silence = .running s.rs.live.silence) (recipe : Recipe) :
    RunBegan i r s (s.unitStarted i recipe) := by
  obtain ⟨-, hslow, -⟩ := s.unitStarted_slow hi recipe
  exact ⟨s.unitStarted_silence i recipe hs, hslow, s.unitStarted_announces hi recipe⟩

include hl hr

/-- However the profile begins, only the record of the command changes, and it starts now (R10). -/
theorem State.startRun_record (recipe : Recipe) :
    OtherUnitsKept i s (s.startRun i recipe) ∧
    ∃ r', (s.startRun i recipe).ut.records[i] = some r' ∧ r'.identity = (r.started s.now).identity := by
  obtain ⟨hrecord, -⟩ := s.unitStarted_unit hi recipe hl hr
  have halone := (s.unitStarted_law hi recipe hl hr).alone hrecord rfl
  obtain ⟨hothers, hkept⟩ := OnlyUnit.startProfile recipe (s.unitStarted i recipe) halone
  rw [hrecord] at hkept
  refine ⟨fun j hj => (hothers j hj).trans ?_, Option.map_eq_some_iff.1 hkept⟩
  rw [State.unitStarted_ut hi, State.setRecord_records, if_neg hj]

omit hl hr in
/-- Under a PROFILE halt the unit waits with its profile HELD (R42, R57). -/
theorem State.startRun_held (hs : s.lp.silence = .disarmed ∨ s.lp.silence = .running s.rs.live.silence) (h : s.halt.profile = true)
    (recipe : Recipe) :
    (s.startRun i recipe).ut.records[i] = some (r.started s.now) ∧
    (s.startRun i recipe).pe = { s.pe with
      counters := recipe.steps.map Step.loopCount, dragRecords := 0, dragSamples := 0, dragSum := 0, phase := .held, step := none
      stepTimer := none, halt := if s.severeFrame then .hard else .soft } ∧
    (s.startRun i recipe).oa.windows = recipe.freshWindows ∧
    RunBegan i r s (s.startRun i recipe) := by
  obtain ⟨hpe, -, -, hstack, hwindows⟩ := s.unitStarted_frame i recipe
  have hut := s.unitStarted_ut hi recipe
  obtain ⟨hsilence, hslow, hnotice⟩ := s.unitStarted_began hi hs recipe
  have hhalt : (s.unitStarted i recipe).halt.profile = true := by rw [State.halt_congr hstack, h]
  have hsevere : (s.unitStarted i recipe).severeFrame = s.severeFrame := by simp only [State.severeFrame, hstack]
  rw [State.startRun_eq, State.startProfile_held hhalt]
  refine ⟨?_, ?_, hwindows, hsilence, hslow, hnotice⟩
  · show (s.unitStarted i recipe).ut.records[i] = _
    rw [hut, State.setRecord_self_records]
  · rw [State.setPe_pe, hsevere]
    simp only [State.profileLoaded, State.clearDrag, State.setPe_pe, hpe]

/-- Without a PROFILE halt step 1 is entered, where it lasts (R42, R43). -/
theorem State.startRun_begins (hs : s.lp.silence = .disarmed ∨ s.lp.silence = .running s.rs.live.silence) (h : s.halt.profile = false)
    {x : Step} {rest : List Step} (hx : (s.recipeOf r).steps = x :: rest) (he : x.endsAtEntry = false) :
    (∃ r', (s.startRun i (s.recipeOf r)).ut.records[i] = some r' ∧ r'.state = .running ∧ r'.runIn.state = .inProgress ∧
      r'.runIn.steps = count32 r.runIn.steps) ∧
    StepLoaded (s.recipeOf r) x s.halt.noise (s.recipeOf r).freshWindows
      (s.startRun i (s.recipeOf r)) ∧
    (s.startRun i (s.recipeOf r)).pe.step = some 1 ∧ (s.startRun i (s.recipeOf r)).pe.setpoint = s.pe.setpoint ∧
    (s.startRun i (s.recipeOf r)).pe.enable = true ∧ (s.startRun i (s.recipeOf r)).pe.brake = false ∧
    (s.startRun i (s.recipeOf r)).pe.halt = .none ∧
    (s.startRun i (s.recipeOf r)).pe.counters = (s.recipeOf r).steps.map Step.loopCount ∧ RunBegan i r s (s.startRun i (s.recipeOf r)) := by
  obtain ⟨R, hR⟩ : ∃ R, R = s.recipeOf r := ⟨_, rfl⟩
  rw [← hR] at hx ⊢
  obtain ⟨hpe, hrs, -, hstack, hwindows⟩ := s.unitStarted_frame i R
  have hlaw := s.unitStarted_law hi R hl hr
  have hunit := s.unitStarted_unit hi R hl hr
  obtain ⟨hsilence, -, hnotice⟩ := s.unitStarted_began hi hs R
  have hslow := s.unitStarted_slow hi R
  rw [State.startRun_eq]
  generalize s.unitStarted i R = u at *
  obtain ⟨hlp, hut, hrs', hcs, hoa, hstack'⟩ := u.driveBegun_frame R
  obtain ⟨henable, hbrake, hhalt, hsetpoint, hcounters⟩ := u.driveBegun_pe R
  have hrecipe : (u.driveBegun R).recipeOf (r.started s.now) = R := by
    have hsame : (u.driveBegun R).recipeOf (r.started s.now) = s.recipeOf r := by
      simp only [State.recipeOf, hrs', hrs]
      rfl
    exact hsame.trans hR.symm
  have hfirst : ((u.driveBegun R).recipeOf (r.started s.now)).steps[1 - 1]? = some x := by rw [hrecipe, hx]; rfl
  have hstep : (u.driveBegun R).stepOf 1 = some x :=
    (State.stepOf_of ((hunit.congr hut).recipe1 (hlaw.congr hut)) le_rfl).trans hfirst
  have hbegins : u.startProfile R = (u.driveBegun R).enterStep 1 x := by
    rw [State.startProfile_begins (by rw [State.halt_congr hstack, h])]
    exact State.goTo_lasting hstep he
  obtain ⟨hload, hcurrent, hrecord⟩ := State.enterStep_entered (hlaw.congr hut) (hunit.congr hut) le_rfl hfirst
  rw [hrecipe, State.halt_congr (hstack'.trans hstack), hoa, hwindows] at hload
  obtain ⟨-, hslow', -⟩ := (hslow.congr hcs (RecordsKeep.of_ut hut)).enterStep 1 x
  rw [hbegins]
  refine ⟨⟨_, hrecord, rfl, rfl, rfl⟩, hload, hcurrent, by simp [hsetpoint, hpe], by simp [henable], by simp [hbrake], by simp [hhalt],
    by simp [hcounters], by simp [hlp, hsilence], hslow', by simp [hlp, hnotice]⟩

end

/-- A frame that has arrived leaves no timer that has run out (R167). -/
theorem State.silenceAfterFrame_cases (s : State) : s.silenceAfterFrame = .disarmed ∨ s.silenceAfterFrame = .running s.rs.live.silence := by
  unfold State.silenceAfterFrame
  cases s.lp.silence <;> simp

theorem RunBegan.served {f : Frame} {i : Fin 8} {r : UnitRecord} {s t : State} {out : State × Reply} (h : RunBegan i r (s.headed f) out.1)
    (hserved : Served f out s t) :
    t.lp.silence = .running s.rs.live.silence ∧
    t.stream .slow = { s.stream .slow with state := if (s.stream .slow).state = .idle then .running else (s.stream .slow).state } ∧
    Announced ⟨.unit i, .unit r.id (some .running) r.abort s.now⟩ t := by
  obtain ⟨hsilence, hslow, hnotice⟩ := h
  exact ⟨hserved.silence.trans hsilence, (State.stream_congr hserved.cs _).trans hslow, .inl (by rw [hserved.notices]; exact hnotice)⟩

/-- Settles O16: the refusals, and the start under a PROFILE halt and without one. -/
theorem startRunBeginsOrHoldsTheProfile : Obligations.StartRunBeginsOrHoldsTheProfile := by
  intro tag id s hl f
  obtain ⟨t, ht, hserved⟩ := exec_serves (c := .startRun tag id) rfl rfl hl rfl (by simp [bodyLimits, within])
  rw [take] at hserved
  refine ⟨fun hnone => ⟨t, ht, ?_⟩, fun i r hid => ⟨fun hstate => ⟨t, ht, ?_⟩, fun hstate hlaw => ?_⟩⟩
  · have hrefused : takeStartRun id.toNat (s.headed f) = (s.headed f, refuse .notFound) := by
      unfold takeStartRun
      rw [show (s.headed f).ut.findId id.toNat = none from hnone.find]
    exact (hrefused ▸ hserved).onlyAnswers
  · have hrefused : takeStartRun id.toNat (s.headed f) = (s.headed f, refuse .wrongState) := by
      unfold takeStartRun
      rw [show (s.headed f).ut.findId id.toNat = some i from hid.find]
      dsimp only
      rw [show (s.headed f).ut.records[i] = some r from hid.1]
      exact if_neg hstate
    exact (hrefused ▸ hserved).onlyAnswers
  have hstarts : takeStartRun id.toNat (s.headed f) = ((s.headed f).startRun i (s.recipeOf r), refuse .ok) := by
    unfold takeStartRun
    rw [show (s.headed f).ut.findId id.toNat = some i from hid.find]
    dsimp only
    rw [show (s.headed f).ut.records[i] = some r from hid.1]
    exact if_pos hstate
  rw [hstarts] at hserved
  have hi : (s.headed f).ut.records[i] = some r := hid.1
  have hsilence := s.silenceAfterFrame_cases
  obtain ⟨hothers, r', hr', hidentity⟩ := State.startRun_record hi hlaw hstate (s.recipeOf r)
  simp only [UnitRecord.identity, UnitRecord.started, Prod.mk.injEq] at hidentity
  obtain ⟨hid', hserial, hstart, habort, hleak⟩ := hidentity
  refine ⟨t, ht, hserved.answered, hserved.onlyChanges (by decide) (onlyChanges_engine (State.startRun_frame i _ (s.headed f))).2,
    fun j hj => ?_, ⟨r', by rw [hserved.ut]; exact hr', hstart, hid', hserial, habort, hleak⟩, fun hhalt => ?_, fun hhalt x rest hx he => ?_⟩
  · rw [hserved.ut]
    exact hothers j hj
  · obtain ⟨hrecord, hpe, hwindows, hbegan⟩ := State.startRun_held hi hsilence hhalt (s.recipeOf r)
    have hpe' := hserved.pe.trans hpe
    refine ⟨by rw [hserved.ut]; exact hrecord, by rw [hpe'], by rw [hpe'], by rw [hpe']; rfl, by rw [hpe']; rfl, by rw [hpe']; rfl, ?_,
      by rw [hserved.oa]; exact hwindows, hbegan.served hserved⟩
    rw [hpe']
    refine if_congr ?_ rfl rfl
    simp [State.severeFrame]
  · obtain ⟨hrecord, hload, hstep, hsetpoint, henable, hbrake, hnone, hcounters, hbegan⟩ :=
      State.startRun_begins hi hlaw hstate hsilence hhalt hx he
    refine ⟨by rw [hserved.ut]; exact hrecord, hload.congr hserved.pe hserved.oa (hserved.parts .clock (by decide)), ?_⟩
    rw [hserved.pe]
    exact ⟨hstep, hsetpoint, henable, hbrake, hnone, hcounters, hbegan.served hserved⟩

end Sys2Proof.Machine
end

