-- ==== Sys2Proof/Proofs/AbortOfLoaded.lean ====
section
/-! The abort of a LOADED unit: the fresh windows that are set up and closed at once, and the record's way to RUN_DONE or on to station 2
(R11, R12, R18, R88, R99). And the UNIT notice that stays pending through an abort (R6, R165). -/

namespace Sys2Proof.Machine

/-! ## A pending UNIT notice (R165) -/

/-- A UNIT notice of record `i` is pending. -/
def UnitNoticed (i : Fin 8) (s : State) : Prop := ∃ x, ⟨.unit i, x⟩ ∈ s.lp.notices

namespace UnitNoticed

variable {i : Fin 8} {s t : State}

theorem of_kept (h : UnitNoticed i s) (hk : NoticesKept (fun key => key = .unit i) s t) : UnitNoticed i t := by
  obtain ⟨x, hx⟩ := h
  exact ⟨x, hk _ hx rfl⟩

theorem of_notices (h : UnitNoticed i s) (ht : t.lp.notices = s.lp.notices) : UnitNoticed i t := h.of_kept (NoticesKept.of_notices ht)

theorem raise (h : UnitNoticed i s) (key : NoticeKey) (content : NoticeContent) : UnitNoticed i (s.raise key content) := by
  by_cases hk : key = .unit i
  · subst hk
    exact ⟨content, mem_raise_self _ _ _⟩
  · exact h.of_kept (NoticesKept.raise (K := fun key => key = .unit i) hk content s)

theorem unitNotice (h : UnitNoticed i s) (j : Fin 8) : UnitNoticed i (s.unitNotice j) := by
  unfold State.unitNotice
  split
  · exact h.raise _ _
  · exact h

theorem enterState (h : UnitNoticed i s) (j : Fin 8) (u : UnitState) : UnitNoticed i (s.enterState j u) := by
  have changed : UnitNoticed i (s.mapUnit j fun r => { r with state := u }) := h.of_notices rfl
  exact changed.unitNotice j

theorem checkTransfer (h : UnitNoticed i s) : UnitNoticed i s.checkTransfer := by
  unfold State.checkTransfer
  split
  · next j _ =>
    split
    · dsimp only
      have conveyed : UnitNoticed i s.runConveyor := h.of_notices rfl
      have moved := conveyed.enterState j .inTransfer
      split
      · exact moved.of_kept (NoticesKept.setTarget (by simp) _ _ _)
      · exact moved
    · exact h
  · exact h

theorem checkRunDone (h : UnitNoticed i s) : UnitNoticed i s.checkRunDone := by
  unfold State.checkRunDone
  split
  · exact h
  · next j _ =>
    split
    · exact h
    · split
      · have moved : UnitNoticed i (s.enterState j .runDone).syncStreams := (h.enterState j .runDone).of_notices (by simp)
        exact checkTransfer (moved.of_notices (State.notices_disarmSilence _))
      · exact h

theorem closeWindows (h : UnitNoticed i s) : UnitNoticed i s.closeWindows := h.of_kept (NoticesKept.closeWindows (by simp) s)

theorem profileEnd (h : UnitNoticed i s) (cause : StopCause) : UnitNoticed i (s.profileEnd cause) := by
  rw [State.profileEnd_eq]
  have off : UnitNoticed i (s.driveOff.mapRunIn (RunIn.complete cause)) := h.of_notices (by simp [State.driveOff])
  exact checkRunDone (off.closeWindows.of_notices rfl)

theorem beginStop (h : UnitNoticed i s) (cause : StopCause) : UnitNoticed i (s.beginStop cause) := by
  by_cases hs : s.pe.setpoint = 0
  · rw [State.beginStop_standing hs]
    have stopping : UnitNoticed i (s.stoppingFor cause) := h.of_notices rfl
    exact stopping.profileEnd cause
  · rw [State.beginStop_moving hs]
    exact h.of_notices rfl

theorem abortProfile (h : UnitNoticed i s) : UnitNoticed i s.abortProfile := by
  unfold State.abortProfile
  split
  · have paused : UnitNoticed i s.pauseStep.clearDrag := h.of_notices (by simp [State.clearDrag])
    exact paused.beginStop _
  · exact h.beginStop _
  · exact h.beginStop _
  · exact h.beginStop _
  · exact h.profileEnd _
  · exact h

end UnitNoticed

/-! ## The close of fresh windows (R88, R99) -/

/-- The windows `ns` of the table are IDLE and the others CLOSED, and a table that is all CLOSED is empty (R99). -/
def IdleLeft (ns : List Nat) (ws : List Window) : Prop :=
  (∀ w ∈ ws, w.state = if w.number ∈ ns then .idle else .closed) ∧ (allClosed ws = true → ws = [])

theorem State.closeTable_windows (s : State) : s.closeTable.oa.windows = if allClosed s.oa.windows = true then [] else s.oa.windows := by
  unfold State.closeTable
  split
  · next h =>
    rw [if_pos (by exact h)]
    rfl
  · next h => rw [if_neg (by exact h)]

/-- The window table after window `n` has been graded (R96, R99). -/
theorem State.gradeWindow_windows {n : Nat} {s : State} {w : Window} (h : s.oa.window n = some w) :
    (s.gradeWindow n).oa.windows =
      let ws := s.oa.windows.map fun v => if v.number = n then { v with state := .closed } else v
      if allClosed ws = true then [] else ws := by
  unfold State.gradeWindow
  rw [h]
  dsimp only
  rw [State.closeTable_windows]
  simp [State.mapWindow, OrderAnalyzer.mapWindow]

/-- The close of the next IDLE window leaves the others (R88). -/
theorem IdleLeft.closeWindow {n : Nat} {ns : List Nat} {s : State} (h : IdleLeft (n :: ns) s.oa.windows) (hn : n ∉ ns) :
    IdleLeft ns (s.closeWindow n).oa.windows := by
  obtain ⟨hstates, hempty⟩ := h
  cases hw : s.oa.window n with
  | none =>
    rw [State.closeWindow_absent hw]
    refine ⟨fun w hmem => ?_, hempty⟩
    have hne : w.number ≠ n := by
      have := List.find?_eq_none.1 hw w hmem
      simpa using this
    simpa [hne] using hstates w hmem
  | some w =>
    have hnum : w.number = n := by simpa using List.find?_some hw
    have hidle : w.state = .idle := by simpa [hnum] using hstates w (List.mem_of_find?_eq_some hw)
    obtain ⟨-, -, hclose⟩ | ⟨hafter, -, -⟩ | ⟨-, hs, -⟩ := State.closeWindow_found hw
    · have hgraded := State.gradeWindow_windows (s := s.abandonFor n) (n := n) (w := w) (by simpa using hw)
      have hwindows : (s.closeWindow n).oa.windows = ((s.abandonFor n).gradeWindow n).oa.windows := by simp [hclose]
      rw [hwindows, hgraded]
      dsimp only
      have hleft : (s.abandonFor n).oa.windows = s.oa.windows := by simp
      rw [hleft]
      split
      · exact ⟨fun w hmem => (nomatch hmem), fun _ => rfl⟩
      · next hopen =>
        refine ⟨fun v hv => ?_, fun hall => absurd hall hopen⟩
        obtain ⟨x, hx, rfl⟩ := List.mem_map.1 hv
        have hstate := hstates x hx
        by_cases hxn : x.number = n
        · simp [hxn, hn]
        · simpa [hxn] using hstate
    · rw [Window.afterClose, if_pos (.inl hidle)] at hafter
      have := congrArg Window.state hafter
      simp at this
    · rcases hs with hs | hs <;> simp [hs] at hidle

theorem IdleLeft.closes {ns : List Nat} {s : State} (h : IdleLeft ns s.oa.windows) (hn : ns.Nodup) :
    (ns.foldl (fun t n => t.closeWindow n) s).oa.windows = [] := by
  induction ns generalizing s with
  | nil =>
    obtain ⟨hstates, hempty⟩ := h
    refine hempty ?_
    simp only [allClosed, List.all_eq_true, decide_eq_true_eq]
    exact fun w hw => by simpa using hstates w hw
  | cons n ns ih =>
    obtain ⟨hnot, hns⟩ := List.nodup_cons.1 hn
    exact ih (h.closeWindow hnot) hns

theorem Recipe.freshWindows_numbers (recipe : Recipe) : recipe.freshWindows.map Window.number = List.range' 1 recipe.windows.length := by
  rw [Recipe.freshWindows, List.map_map]
  exact List.zipIdx_map_snd 1 recipe.windows

theorem Recipe.freshWindows_idle {recipe : Recipe} {w : Window} (h : w ∈ recipe.freshWindows) : w.state = .idle := by
  obtain ⟨p, -, rfl⟩ := List.mem_map.1 h
  rfl

/-- The windows that are set up and closed at once leave no table (R18, R88, R99). -/
theorem State.closeWindows_fresh {recipe : Recipe} {s : State} (h : s.oa.windows = recipe.freshWindows) : s.closeWindows.oa.windows = [] := by
  unfold State.closeWindows
  split
  · next hnil =>
    rw [State.closeTable_windows, hnil]
    rfl
  · next hsome =>
    refine IdleLeft.closes ⟨fun w hw => ?_, fun hall => ?_⟩ ?_
    · rw [if_pos (List.mem_map_of_mem hw)]
      rw [h] at hw
      exact Recipe.freshWindows_idle hw
    · obtain ⟨w, hw⟩ := List.exists_mem_of_ne_nil _ hsome
      have hclosed : w.state = .closed := by simpa using List.all_eq_true.1 hall w hw
      rw [h] at hw
      rw [Recipe.freshWindows_idle hw] at hclosed
      exact nomatch hclosed
    · rw [h, Recipe.freshWindows_numbers]
      exact List.nodup_range'

/-! ## The abort of a LOADED record (R18) -/

/-- The run-in section that the abort of a LOADED record leaves (R18). -/
def RunIn.abortedAtLoad (x : RunIn) : RunIn := { x with state := .aborted, verdict := some .aborted, steps := 0 }

theorem state_ignoresNoise : IgnoresNoise UnitRecord.state := fun _ _ => rfl

theorem State.abortLoaded_leaves {i : Fin 8} {r : UnitRecord} {s : State} (hi : s.ut.records[i] = some r) (hl : StationLaw s)
    (hr : r.state = .loaded) (recipe : Recipe) :
    ∃ r', (s.abortLoaded i recipe).ut.records[i] = some r' ∧ r'.identity = r.identity ∧ r'.runIn = r.runIn.abortedAtLoad ∧
      r'.state = (if s.unit2.isNone ∧ s.halt.transfer = false then .inTransfer else .runDone) ∧
      (s.abortLoaded i recipe).oa.windows = [] ∧ (UnitNoticed i s → UnitNoticed i (s.abortLoaded i recipe)) := by
  obtain ⟨a, ha⟩ : ∃ a, a = (s.mapUnit i fun r => { r with runIn := r.runIn.abortedAtLoad }).setUpWindows recipe := ⟨_, rfl⟩
  obtain ⟨c, hc⟩ : ∃ c, c = a.closeWindows := ⟨_, rfl⟩
  have haborts : s.abortLoaded i recipe = (c.enterState i .runDone).checkTransfer := by rw [hc, ha]; rfl
  have haut : a.ut = (s.setRecord i (r.withRunIn r.runIn.abortedAtLoad)).ut := by
    rw [ha, ← State.mapUnit_eq_setRecord hi fun r => r.withRunIn r.runIn.abortedAtLoad]
    rfl
  have hai : a.ut.records[i] = some (r.withRunIn r.runIn.abortedAtLoad) := by rw [haut, State.setRecord_self_records]
  have hla : StationLaw a := (hl.setRecord hi (r.withRunIn_parts _).2.1).congr haut
  have hstates : RecordsKeep UnitRecord.state a c := hc ▸ RecordsKeep.closeWindows state_ignoresNoise a
  obtain ⟨hothers, hkept⟩ := (hc ▸ OnlyUnit.closeWindows a : OnlyUnit i a c) (hla.alone hai (by simp [UnitRecord.withRunIn, hr, UnitState.atStation1]))
  rw [hai] at hkept
  obtain ⟨q, hq, hidentity⟩ := Option.map_eq_some_iff.1 hkept
  have hqrun : q.runIn = r.runIn.abortedAtLoad := by
    have := (hc ▸ RecordsKeep.closeWindows runIn_ignoresNoise a : RecordsKeep UnitRecord.runIn a c) i
    rw [hq, hai] at this
    simpa [UnitRecord.withRunIn] using this
  have hqstate : q.state = .loaded := by
    have := hstates i
    rw [hq, hai] at this
    simpa [UnitRecord.withRunIn, hr] using this
  have hlc : StationLaw c := hstates.stationLaw hla
  have hloaded : IsUnitIn .loaded i q c := ⟨hq, hqstate, fun j hj x hx hstate => hj ((hlc j i x q hx hq).1 (by rw [hstate]; rfl) (by rw [hqstate]; rfl))⟩
  obtain ⟨hut, hfind⟩ := hloaded.enterState (v := .runDone)
  have hdone : IsUnitIn .runDone i { q with state := .runDone } (c.enterState i .runDone) := by
    refine ⟨by rw [hut, State.setRecord_self_records], rfl, fun j hj x hx hstate => hj ?_⟩
    rw [hut, State.setRecord_records, if_neg hj] at hx
    exact (hlc j i x q hx hq).1 (by rw [hstate]; rfl) (by rw [hqstate]; rfl)
  have hunit2 : (c.enterState i .runDone).unit2 = s.unit2 := by
    have hcunit : c.unit2 = a.unit2 := (hstates.comp UnitState.atStation2).find
    have haunit : a.unit2 = s.unit2 := (State.unit2_congr haut).trans (State.unit2_setRecord hi (r.withRunIn_parts _).2.1)
    exact ((hfind _ rfl).trans hcunit).trans haunit
  have hhalt : (c.enterState i .runDone).halt = s.halt := State.halt_congr (by simp [hc, ha, State.setUpWindows])
  have hrecord := State.checkTransfer_runDone hdone
  rw [hunit2, hhalt] at hrecord
  rw [haborts]
  refine ⟨_, hrecord, hidentity, hqrun, rfl, ?_, fun h => ?_⟩
  · have hwindows : (c.enterState i .runDone).checkTransfer.oa.windows = c.oa.windows := by simp
    rw [hwindows, hc]
    exact State.closeWindows_fresh (recipe := recipe) (by rw [ha]; exact State.setUpWindows_windows _ _)
  · have hset : UnitNoticed i a := h.of_notices (by rw [ha]; rfl)
    exact (hc ▸ hset.closeWindows).enterState i _ |>.checkTransfer

end Sys2Proof.Machine
end

