-- ==== Sys2Proof/Proofs/AbortUnit.lean ====
section
/-! ABORT_UNIT: the profile it stops, the chambers it vents, and what it leaves by the record's state (R18, R19, R60, R62, R123). -/

namespace Sys2Proof.Machine

/-! ## The record of the command -/

/-- The unit record with its abort mark set (R18). -/
def UnitRecord.marked (r : UnitRecord) : UnitRecord := { r with abort := true }

/-- The machine with the abort mark of record `i` set and shown (R6, R18). -/
def State.abortMarked (i : Fin 8) (s : State) : State := (s.mapUnit i fun r => { r with abort := true }).unitNotice i

theorem State.abortMarked_frame (i : Fin 8) (s : State) :
    (s.abortMarked i).rs = s.rs ∧ (s.abortMarked i).pe = s.pe ∧ (s.abortMarked i).afe = s.afe ∧ (s.abortMarked i).cs = s.cs ∧
    (s.abortMarked i).oa = s.oa ∧ (s.abortMarked i).lkc = s.lkc ∧ (s.abortMarked i).cu = s.cu ∧ (s.abortMarked i).reports = s.reports ∧
    (s.abortMarked i).clockUs = s.clockUs := by simp [State.abortMarked]

theorem onlyChanges_abortMarked (i : Fin 8) (s : State) : OnlyChanges [.lp, .ut] s (s.abortMarked i) :=
  ⟨by simp [State.abortMarked], fun b hb => by cases b <;> simp [Part.same, State.abortMarked] at hb ⊢⟩

section
variable {i : Fin 8} {r : UnitRecord} {s : State} (hi : s.ut.records[i] = some r)
include hi

theorem State.abortMarked_ut : (s.abortMarked i).ut = (s.setRecord i r.marked).ut := by
  have hmap : s.mapUnit i (fun r => { r with abort := true }) = s.setRecord i r.marked := State.mapUnit_eq_setRecord hi _
  simp [State.abortMarked, hmap]

theorem State.abortMarked_self : (s.abortMarked i).ut.records[i] = some r.marked := by
  rw [State.abortMarked_ut hi, State.setRecord_self_records]

theorem State.abortMarked_others : OtherUnitsKept i s (s.abortMarked i) := fun j hj => by
  rw [State.abortMarked_ut hi, State.setRecord_records, if_neg hj]

theorem State.abortMarked_noticed : UnitNoticed i (s.abortMarked i) := by
  have hmap : s.mapUnit i (fun r => { r with abort := true }) = s.setRecord i r.marked := State.mapUnit_eq_setRecord hi _
  rw [State.abortMarked, hmap, State.unitNotice, State.setRecord_self_records]
  exact ⟨_, mem_raise_self _ _ _⟩

theorem State.abortMarked_law (hl : StationLaw s) : StationLaw (s.abortMarked i) :=
  (hl.setRecord (r' := r.marked) hi rfl).congr (State.abortMarked_ut hi)

theorem State.abortMarked_unit2 : (s.abortMarked i).unit2 = s.unit2 :=
  (State.unit2_congr (State.abortMarked_ut hi)).trans (State.unit2_setRecord (r' := r.marked) hi rfl)

end

theorem IsUnitIn.abortMarked {u : UnitState} {i : Fin 8} {r : UnitRecord} {s : State} (h : IsUnitIn u i r s) :
    IsUnitIn u i r.marked (s.abortMarked i) := (h.setRecord (r' := r.marked) rfl).congr (State.abortMarked_ut h.1)

theorem IsStepping.abortMarked {k : Nat} {x : Step} {i : Fin 8} {r : UnitRecord} {s : State} (h : IsStepping k x i r s) :
    IsStepping k x i r.marked (s.abortMarked i) := by
  obtain ⟨hl, hu, hphase, hstep, hk, hx⟩ := h
  obtain ⟨hrs, hpe, -⟩ := s.abortMarked_frame i
  refine ⟨State.abortMarked_law hu.1 hl, hu.abortMarked, by rw [hpe, hphase], by rw [hpe, hstep], hk, ?_⟩
  have hrecipe : (s.abortMarked i).recipeOf r.marked = s.recipeOf r := by
    simp only [State.recipeOf, hrs]
    rfl
  rwa [hrecipe]

/-! ## The profile of a RUNNING record (R60, R62) -/

/-- The machine as the profile of a stepping unit begins to stop: its step's window paused, and no drag pass (R54, R62). -/
def State.stepDropped (s : State) : State := s.pauseStep.clearDrag

theorem State.stepDropped_frame (s : State) :
    s.stepDropped.ut = s.ut ∧ s.stepDropped.rs = s.rs ∧ s.stepDropped.afe = s.afe ∧ s.stepDropped.cs.vibDescs = s.cs.vibDescs ∧
    s.stepDropped.cu.stack = s.cu.stack ∧ s.stepDropped.pe.setpoint = s.pe.setpoint ∧ s.stepDropped.pe.settleTimer = none ∧
    s.stepDropped.pe.dragRecords = 0 := by
  refine ⟨?_, ?_, ?_, ?_, ?_, ?_, ?_, rfl⟩ <;> simp [State.stepDropped, State.clearDrag, State.pauseStep_engine, State.unsettled]

theorem IsStepping.stepDropped_windows {k : Nat} {x : Step} {i : Fin 8} {r : UnitRecord} {s : State} (h : IsStepping k x i r s) :
    s.stepDropped.oa.windows = pausedWindow x.window s.oa.windows := State.pauseStep_windows h.currentStep

theorem State.abortProfile_stepping {s : State} (h : s.pe.phase = .stepping) : s.abortProfile = s.stepDropped.beginStop .abort := by
  unfold State.abortProfile
  rw [h]
  rfl

theorem State.abortProfile_moving {s : State} (h : s.pe.phase = .reapproach ∨ s.pe.phase = .suspended ∨ s.pe.phase = .stopping) :
    s.abortProfile = s.beginStop .abort := by
  unfold State.abortProfile
  rcases h with h | h | h <;> rw [h]

theorem State.abortProfile_idle {s : State} (h : s.pe.phase = .idle) : s.abortProfile = s := by
  unfold State.abortProfile
  rw [h]

/-- At setpoint 0 and in HELD the profile ends at once, of a state whose windows are paused where a step was current (R60, log 19). -/
theorem State.abortProfile_ends {s : State} (h : s.pe.phase = .held ∨ (s.pe.phase ≠ .idle ∧ s.pe.setpoint = 0)) :
    ∃ v : State, s.abortProfile = v.profileEnd .abort ∧ v.ut = s.ut ∧ v.rs = s.rs ∧ v.afe = s.afe ∧ v.cs.vibDescs = s.cs.vibDescs ∧
      (s.pe.phase = .stepping → v.oa = s.stepDropped.oa) ∧ (s.pe.phase ≠ .stepping → v.oa = s.oa) := by
  obtain ⟨hut, hrs, hafe, hdescs, -, hsetpoint, -⟩ := s.stepDropped_frame
  cases hphase : s.pe.phase with
  | stepping =>
    have hzero : s.pe.setpoint = 0 := by simpa [hphase] using h
    refine ⟨s.stepDropped.stoppingFor .abort, ?_, hut, hrs, hafe, hdescs, fun _ => rfl, fun hn => absurd rfl hn⟩
    rw [State.abortProfile_stepping hphase, State.beginStop_standing (by rw [hsetpoint, hzero])]
  | held =>
    refine ⟨s, ?_, rfl, rfl, rfl, rfl, fun hn => (nomatch hn), fun _ => rfl⟩
    unfold State.abortProfile
    rw [hphase]
  | idle => simp [hphase] at h
  | reapproach | suspended | stopping =>
    have hzero : s.pe.setpoint = 0 := by simpa [hphase] using h
    refine ⟨s.stoppingFor .abort, ?_, rfl, rfl, rfl, rfl, fun hn => (nomatch hn), fun _ => rfl⟩
    rw [State.abortProfile_moving (by simp [hphase]), State.beginStop_standing hzero]

/-! ## The chambers of a LEAKING record (R123) -/

/-- A chamber after an abort, where its attempt vents for `vent` (R123). -/
def Chamber.aborted (vent : Nat) (x : Chamber) : Chamber :=
  match x.phase with
  | .waitFill => ⟨.idle, none, none, none⟩
  | .fill | .settle | .measure => ⟨.vent, some vent, some .idle, none⟩
  | .vent => { x with afterVent := if x.afterVent = some .requeue then some .idle else x.afterVent }
  | .idle | .done => x

theorem State.abortChamber_spec (c : Fin 4) (s : State) :
    (∀ d, (s.abortChamber c).chamber d = if d = c then (s.chamber c).aborted (s.chamberPlan c).vent else s.chamber d) ∧
    ∀ d, (s.abortChamber c).chamberPlan d = s.chamberPlan d := by
  refine ⟨fun d => ?_, fun d => State.chamberPlan_congr (by simp) (by simp) d⟩
  have stands : ∀ x : Chamber, x = s.chamber c → s.chamber d = if d = c then x else s.chamber d := fun x hx => by
    split
    · next h => rw [hx, h]
    · rfl
  unfold State.abortChamber Chamber.aborted
  cases hx : (s.chamber c).phase with
  | waitFill => exact State.chamber_setChamber c d _ s
  | fill | settle | measure => exact State.enterVent_chamber c d _ s
  | vent =>
    dsimp only
    split
    · rw [State.chamber_setChamber, hx]
    · exact stands _ (by rw [← hx])
  | idle | done => exact stands _ rfl

theorem foldl_abortChamber (cs : List (Fin 4)) (s : State) (hcs : cs.Nodup) (d : Fin 4) :
    (cs.foldl (fun t c => t.abortChamber c) s).chamber d =
      if d ∈ cs then (s.chamber d).aborted (s.chamberPlan d).vent else s.chamber d := by
  induction cs generalizing s with
  | nil => simp
  | cons c cs ih =>
    obtain ⟨hc, hrest⟩ := List.nodup_cons.1 hcs
    obtain ⟨hchamber, hplan⟩ := State.abortChamber_spec c s
    rw [List.foldl_cons, ih _ hrest]
    by_cases hd : d = c
    · subst hd
      simp [hc, hchamber]
    · simp [hchamber, hplan, hd]

theorem State.abortChambers_chamber (d : Fin 4) (s : State) : s.abortChambers.chamber d = (s.chamber d).aborted (s.chamberPlan d).vent := by
  have h := foldl_abortChamber (List.finRange 4) s (List.nodup_finRange 4) d
  rw [if_pos (List.mem_finRange d)] at h
  exact h

/-- A chamber vents after an abort where it had an attempt in progress, and where it vented (R123). -/
theorem Chamber.aborted_vents (vent : Nat) (x : Chamber) : (x.aborted vent).phase = .vent ↔ x.phase.attempting = true ∨ x.phase = .vent := by
  unfold Chamber.aborted
  cases hx : x.phase <;> simp [hx, ChamberPhase.attempting]

theorem State.abortChambers_noneVents (s : State) :
    NoneVents s.abortChambers ↔ ∀ c, (s.chamber c).phase.attempting = false ∧ (s.chamber c).phase ≠ .vent := by
  unfold NoneVents
  refine forall_congr' fun c => ?_
  rw [State.abortChambers_chamber, Ne, Chamber.aborted_vents, not_or, Bool.not_eq_true]

/-! ## What the abort leaves, by the record's state (R18, R19) -/

section
variable {i : Fin 8} {q : UnitRecord} {s : State}

/-- A record in AT_LEAK, now aborted, is DONE with its test skipped (R16, R19). -/
theorem State.decideLeak_aborted (hi : IsUnitIn .atLeak i q s) (ha : q.abort = true) :
    UnitEnded i { q with leak := q.leak.skip } (s.setRecord i { q with leak := q.leak.skip }) s.decideLeak := by
  rw [State.decideLeak_skips hi ((skipsLeak_iff _ _).2 (.inl ha))]
  exact unitEnded_enterDone (State.setRecord_self_records i { q with leak := q.leak.skip } s)

/-- The chambers of a LEAKING record that still vent go on until they have vented (R123). -/
theorem State.abortLeaking_vents (hi : IsUnitIn .leaking i q s) (ha : q.abort = true)
    (h : ∃ c, (s.chamber c).phase.attempting = true ∨ (s.chamber c).phase = .vent) : s.abortChambers.checkLeakEnd = s.abortChambers := by
  refine State.checkLeakEnd_goes_on (hi.congr (by simp)) ?_
  rintro (⟨-, hnone⟩ | ⟨hn, -⟩)
  · obtain ⟨c, hc⟩ := h
    obtain ⟨hattempt, hvent⟩ := (State.abortChambers_noneVents s).1 hnone c
    simp [hattempt, hvent] at hc
  · simp [ha] at hn

/-- Where nothing vents, the record is DONE at once (R19, R123). -/
theorem State.abortLeaking_ends (hi : IsUnitIn .leaking i q s) (ha : q.abort = true)
    (h : ∀ c, (s.chamber c).phase.attempting = false ∧ (s.chamber c).phase ≠ .vent) :
    UnitEnded i { q with leak := q.testedLeak } (s.abortChambers.setRecord i { q with leak := q.testedLeak }) s.abortChambers.checkLeakEnd := by
  rw [State.checkLeakEnd_over (hi.congr (by simp)) (.inl ⟨ha, (State.abortChambers_noneVents s).2 h⟩)]
  exact unitEnded_enterDone (State.setRecord_self_records i { q with leak := q.testedLeak } s.abortChambers)

end

/-- A record alone at its station is the only one in its state (R5). -/
theorem StationLaw.isUnitIn {i : Fin 8} {r : UnitRecord} {s : State} (hl : StationLaw s) (hi : s.ut.records[i] = some r)
    (hr : r.state.atStation1 = true ∨ r.state.atStation2 = true) : IsUnitIn r.state i r s := by
  refine ⟨hi, rfl, fun j hj x hx hstate => hj ?_⟩
  obtain ⟨h1, h2⟩ := hl j i x r hx hi
  rw [hstate] at h1 h2
  rcases hr with hr | hr
  · exact h1 hr hr
  · exact h2 hr hr

/-- Whatever the record's state, it is the same unit with its abort mark set, and its UNIT notice stays pending (R6, R18). -/
theorem State.abortByState_keeps {i : Fin 8} {r : UnitRecord} {s : State} (hi : s.ut.records[i] = some r.marked) (hl : StationLaw s)
    (hnoticed : UnitNoticed i s) (hr : r.state ≠ .done) :
    ∃ r', (s.abortByState i r).ut.records[i] = some r' ∧ r'.abort = true ∧ r'.id = r.id ∧ r'.serial = r.serial ∧
      UnitNoticed i (s.abortByState i r) := by
  have hidentity : ∀ {x : UnitRecord}, x.identity = r.marked.identity → x.abort = true ∧ x.id = r.id ∧ x.serial = r.serial := fun hx => by
    simp only [UnitRecord.identity, UnitRecord.marked, Prod.mk.injEq] at hx
    obtain ⟨hid, hserial, -, habort, -⟩ := hx
    exact ⟨habort, hid, hserial⟩
  unfold State.abortByState
  cases hstate : r.state with
  | loaded =>
    dsimp only
    generalize s.recipeOf r = recipe
    obtain ⟨x, hx, hsame, -, -, -, hnotice⟩ := State.abortLoaded_leaves hi hl hstate recipe
    obtain ⟨habort, hid, hserial⟩ := hidentity hsame
    exact ⟨x, hx, habort, hid, hserial, hnotice hnoticed⟩
  | running =>
    have halone := hl.alone hi (by show r.state.atStation1 = true; rw [hstate]; rfl)
    obtain ⟨-, hkept⟩ := OnlyUnit.abortProfile s halone
    rw [hi] at hkept
    obtain ⟨x, hx, hsame⟩ := Option.map_eq_some_iff.1 hkept
    obtain ⟨habort, hid, hserial⟩ := hidentity hsame
    exact ⟨x, hx, habort, hid, hserial, hnoticed.abortProfile⟩
  | runDone | inTransfer => exact ⟨r.marked, hi, rfl, rfl, rfl, hnoticed⟩
  | atLeak =>
    have hu : IsUnitIn .atLeak i r.marked s := hstate ▸ hl.isUnitIn hi (.inr (by show r.state.atStation2 = true; rw [hstate]; rfl))
    have hended := State.decideLeak_aborted hu rfl
    exact ⟨_, hended.record, rfl, rfl, rfl, _, hended.unitNotice⟩
  | leaking =>
    have hu : IsUnitIn .leaking i r.marked s := hstate ▸ hl.isUnitIn hi (.inr (by show r.state.atStation2 = true; rw [hstate]; rfl))
    by_cases hvents : ∃ c, (s.chamber c).phase.attempting = true ∨ (s.chamber c).phase = .vent
    · simp only [State.abortLeaking_vents hu rfl hvents]
      exact ⟨r.marked, by simpa using hi, rfl, rfl, rfl, hnoticed.of_notices (by simp)⟩
    · have hended := State.abortLeaking_ends hu rfl (by simpa using hvents)
      exact ⟨_, hended.record, rfl, rfl, rfl, _, hended.unitNotice⟩
  | done => exact absurd hstate hr

end Sys2Proof.Machine
end

