-- ==== Sys2Proof/Proofs/AbortUnitSettled.lean ====
section
/-! ABORT_UNIT settled: each clause of R18 as the owner leaves the machine, and the command itself. -/

namespace Sys2Proof.Machine

/-- The machine after the abort of record `i`, which stood as `r` (R18). -/
def State.aborted (i : Fin 8) (r : UnitRecord) (s : State) : State := (s.abortMarked i).abortByState i r

section
variable {i : Fin 8} {r r' : UnitRecord} {s : State} (hi : s.ut.records[i] = some r) (hl : StationLaw s)
  (hr' : (s.aborted i r).ut.records[i] = some r')

section
include hi hl hr'

theorem State.aborted_loaded (hr : r.state = .loaded) :
    r'.runIn = r.runIn.abortedAtLoad ∧ r'.startTime = r.startTime ∧ (s.aborted i r).oa.windows = [] ∧ (s.aborted i r).pe = s.pe ∧
    r'.state = (if s.halt.transfer = false ∧ s.unit2 = none then .inTransfer else .runDone) := by
  have haborted : s.aborted i r = (s.abortMarked i).abortLoaded i ((s.abortMarked i).recipeOf r) := by
    simp only [State.aborted, State.abortByState, hr]
  obtain ⟨-, hpe, -, -, -, -, hcu, -⟩ := s.abortMarked_frame i
  rw [haborted] at hr' ⊢
  generalize (s.abortMarked i).recipeOf r = recipe at hr' ⊢
  obtain ⟨x, hx, hsame, hrun, hstate, hwindows, -⟩ :=
    State.abortLoaded_leaves (State.abortMarked_self hi) (State.abortMarked_law hi hl) (r := r.marked) hr recipe
  obtain rfl : x = r' := Option.some.inj (hx.symm.trans hr')
  simp only [UnitRecord.identity, UnitRecord.marked, Prod.mk.injEq] at hsame
  obtain ⟨-, -, hstart, -⟩ := hsame
  refine ⟨hrun, hstart, hwindows, by simp [hpe], ?_⟩
  rw [hstate, State.abortMarked_unit2 hi, State.halt_congr (congrArg ConditionUnit.stack hcu)]
  exact if_congr (by rw [Option.isNone_iff_eq_none, and_comm]) rfl rfl

variable (hu : IsUnitIn .running i r s)
include hu

omit hl in
theorem State.aborted_running_stepping (hphase : s.pe.phase = .stepping) (hmoves : s.pe.setpoint ≠ 0) :
    r' = r.marked ∧ (s.aborted i r).pe.phase = .stopping ∧ (s.aborted i r).pe.cause = some .abort ∧ (s.aborted i r).pe.stepTimer = none ∧
    (s.aborted i r).pe.settleTimer = none ∧ (s.aborted i r).pe.torqueL = 0 ∧ (s.aborted i r).pe.torqueR = 0 ∧
    (s.aborted i r).pe.setpoint = s.pe.setpoint ∧ (s.aborted i r).pe.dragRecords = 0 ∧
    ∀ (k : Nat) (x : Step), IsStepping k x i r s → (s.aborted i r).oa.windows = pausedWindow x.window s.oa.windows := by
  obtain ⟨-, hpe, -, -, hoa, -⟩ := s.abortMarked_frame i
  obtain ⟨hut, -, -, -, -, hsetpoint, hsettle, hdrag⟩ := (s.abortMarked i).stepDropped_frame
  have haborted : s.aborted i r = (s.abortMarked i).stepDropped.stoppingFor .abort := by
    simp only [State.aborted, State.abortByState, hu.2.1]
    rw [State.abortProfile_stepping (by rw [hpe, hphase]), State.beginStop_moving (by rw [hsetpoint, hpe]; exact hmoves)]
  rw [haborted] at hr' ⊢
  refine ⟨?_, rfl, rfl, rfl, hsettle, rfl, rfl, by rw [← hpe]; exact hsetpoint, hdrag, fun k x hst => ?_⟩
  · have hrecord := State.abortMarked_self hi
    rw [← hut] at hrecord
    exact (Option.some.inj (hrecord.symm.trans hr')).symm
  · rw [← hoa]
    exact hst.abortMarked.stepDropped_windows

omit hl in
theorem State.aborted_running_moving (hphase : s.pe.phase = .reapproach ∨ s.pe.phase = .suspended ∨ s.pe.phase = .stopping)
    (hmoves : s.pe.setpoint ≠ 0) :
    r' = r.marked ∧ (s.aborted i r).pe = { s.pe with phase := .stopping, cause := some .abort, stepTimer := none, torqueL := 0, torqueR := 0 } := by
  obtain ⟨-, hpe, -⟩ := s.abortMarked_frame i
  have haborted : s.aborted i r = (s.abortMarked i).stoppingFor .abort := by
    simp only [State.aborted, State.abortByState, hu.2.1]
    rw [State.abortProfile_moving (by rwa [hpe]), State.beginStop_moving (by rwa [hpe])]
  rw [haborted] at hr' ⊢
  refine ⟨(Option.some.inj ((State.abortMarked_self hi).symm.trans hr')).symm, ?_⟩
  rw [State.stoppingFor, State.setPe_pe, hpe]

theorem State.aborted_running_ends (hphase : s.pe.phase = .held ∨ (s.pe.phase ≠ .idle ∧ s.pe.setpoint = 0)) :
    r'.runIn.state = .aborted ∧ r'.runIn.verdict = some .aborted ∧ r'.runIn.steps = r.runIn.steps ∧ EngineAtRest (s.aborted i r) ∧
    (s.pe.phase ≠ .stepping → TableClosed s.oa.windows r r' s (s.aborted i r)) ∧
    ∀ (k : Nat) (x : Step), IsStepping k x i r s → TableClosed (pausedWindow x.window s.oa.windows) r r' s (s.aborted i r) := by
  obtain ⟨hrs, hpe, hafe, hcs, hoa, -⟩ := s.abortMarked_frame i
  obtain ⟨v, hv, hvut, hvrs, hvafe, hvdescs, hvpaused, hvstood⟩ := State.abortProfile_ends (s := s.abortMarked i) (by rwa [hpe])
  have haborted : s.aborted i r = v.profileEnd .abort := by
    simp only [State.aborted, State.abortByState, hu.2.1]
    exact hv
  rw [haborted] at hr' ⊢
  obtain ⟨hrest, x, hx, hrun, htable⟩ := State.profileEnd_ends ((State.abortMarked_law hi hl).congr hvut) (hu.abortMarked.congr hvut) .abort
  obtain rfl : x = r' := Option.some.inj (hx.symm.trans hr')
  have hclosed : ∀ ws, v.oa.windows = ws → TableClosed ws r x s (v.profileEnd .abort) := fun ws hws => by
    rw [hws] at htable
    exact htable.of_same rfl (hvrs.trans hrs) ((State.unit2_congr hvut).trans (State.abortMarked_unit2 hi)) (by rw [hvafe, hafe])
      (by rw [hvdescs, hcs])
  refine ⟨by rw [hrun]; rfl, by rw [hrun]; rfl, by rw [hrun]; rfl, hrest, fun hn => hclosed _ ?_, fun k y hst => hclosed _ ?_⟩
  · rw [hvstood (by rwa [hpe]), hoa]
  · have hmarked := hst.abortMarked
    obtain ⟨-, -, hstep, -⟩ := hst
    rw [hvpaused (by rw [hpe, hstep]), hmarked.stepDropped_windows, hoa]

omit hl in
theorem State.aborted_running_idle (hphase : s.pe.phase = .idle) :
    r' = r.marked ∧ (s.aborted i r).pe = s.pe ∧ (s.aborted i r).oa = s.oa := by
  obtain ⟨-, hpe, -, -, hoa, -⟩ := s.abortMarked_frame i
  have haborted : s.aborted i r = s.abortMarked i := by
    simp only [State.aborted, State.abortByState, hu.2.1]
    exact State.abortProfile_idle (by rw [hpe, hphase])
  rw [haborted] at hr' ⊢
  exact ⟨(Option.some.inj ((State.abortMarked_self hi).symm.trans hr')).symm, hpe, hoa⟩

end

/-- A record in RUN_DONE or IN_TRANSFER goes on, marked (R18). -/
theorem State.aborted_waiting (hr : r.state = .runDone ∨ r.state = .inTransfer) : s.aborted i r = s.abortMarked i := by
  rcases hr with hr | hr <;> simp only [State.aborted, State.abortByState, hr]

section
include hr'

theorem State.aborted_atLeak (hu : IsUnitIn .atLeak i r s) :
    r'.state = .done ∧ r'.doneTime = some s.now ∧ r'.leak.state = .skipped ∧ r'.leak.verdict = some .pass ∧
    (∀ c : Fin 4, (r'.leak.chambers[c]).verdict = some .skipped) ∧ (s.aborted i r).reports = s.reports ++ [r.id] := by
  obtain ⟨-, -, -, -, -, -, -, hreports, hclock⟩ := s.abortMarked_frame i
  have haborted : s.aborted i r = (s.abortMarked i).decideLeak := by simp only [State.aborted, State.abortByState, hu.2.1]
  have hended := State.decideLeak_aborted hu.abortMarked rfl
  rw [haborted] at hr' ⊢
  obtain rfl := Option.some.inj (hended.record.symm.trans hr')
  refine ⟨rfl, ?_, rfl, rfl, fun c => ?_, ?_⟩
  · exact congrArg some (State.now_congr hclock)
  · simp [UnitRecord.reported, UnitRecord.ended, LeakSection.skip]
  · rw [hended.reports]
    exact congrArg (· ++ [r.id]) hreports

theorem State.aborted_leaking_vents (hu : IsUnitIn .leaking i r s)
    (h : ∃ c, (s.chamber c).phase.attempting = true ∨ (s.chamber c).phase = .vent) :
    r' = r.marked ∧ (s.aborted i r).lkc.queue = [] ∧
    ∀ c, (s.aborted i r).chamber c = (s.chamber c).aborted (s.chamberPlan c).vent := by
  obtain ⟨hrs, -, -, -, -, hlkc, -⟩ := s.abortMarked_frame i
  have hchamber := State.chamber_congr hlkc
  have haborted : s.aborted i r = (s.abortMarked i).abortChambers := by
    simp only [State.aborted, State.abortByState, hu.2.1]
    exact State.abortLeaking_vents hu.abortMarked rfl (by simpa only [hchamber] using h)
  have hplan : ∀ c, (s.abortMarked i).chamberPlan c = s.chamberPlan c := fun c => by
    rw [State.chamberPlan_congr (State.abortMarked_ut hu.1) (hrs.trans (by simp [State.setRecord])),
      State.setRecord_chamberPlan (r' := r.marked) hu.1 rfl rfl]
  rw [haborted] at hr' ⊢
  refine ⟨?_, rfl, fun c => by rw [State.abortChambers_chamber, hchamber, hplan]⟩
  have hrecord : (s.abortMarked i).abortChambers.ut.records[i] = some r.marked := by simpa using State.abortMarked_self hu.1
  exact (Option.some.inj (hrecord.symm.trans hr')).symm

theorem State.aborted_leaking_ends (hu : IsUnitIn .leaking i r s)
    (h : ∀ c, (s.chamber c).phase.attempting = false ∧ (s.chamber c).phase ≠ .vent) :
    r'.state = .done ∧ r'.leak.state = .aborted ∧ r'.leak.verdict = some .aborted ∧ r'.leak.chambers = r.leak.chambers ∧
    (s.aborted i r).reports = s.reports ++ [r.id] := by
  obtain ⟨-, -, -, -, -, hlkc, -, hreports, -⟩ := s.abortMarked_frame i
  have haborted : s.aborted i r = (s.abortMarked i).abortChambers.checkLeakEnd := by
    simp only [State.aborted, State.abortByState, hu.2.1]
  have hended := State.abortLeaking_ends hu.abortMarked rfl (by simpa only [State.chamber_congr hlkc] using h)
  rw [haborted] at hr' ⊢
  obtain rfl := Option.some.inj (hended.record.symm.trans hr')
  refine ⟨rfl, rfl, rfl, rfl, ?_⟩
  rw [hended.reports]
  refine congrArg (· ++ [r.id]) ?_
  simpa [State.setRecord] using hreports

end
end

/-! ## The command -/

theorem takeAbortUnit_carried {id : Nat} {i : Fin 8} {r : UnitRecord} {s : State} (h : CarriesId id i r s) :
    takeAbortUnit id s = if r.state = .done then (s, refuse .wrongState) else (s.aborted i r, refuse .ok) := by
  unfold takeAbortUnit
  rw [h.find]
  dsimp only
  rw [h.1]
  rfl

/-- Settles O17: the refusals, and the clause of each state of the record. -/
theorem abortUnitActsByTheRecordsState : Obligations.AbortUnitActsByTheRecordsState := by
  intro tag id s hl f
  obtain ⟨t, ht, hserved⟩ := exec_serves (c := .abortUnit tag id) rfl rfl hl rfl (by simp [bodyLimits, within])
  rw [take] at hserved
  refine ⟨fun hnone => ⟨t, ht, ?_⟩, fun i r hid hlaw => ⟨fun hstate => ⟨t, ht, ?_⟩, fun hstate => ?_⟩⟩
  · have hrefused : takeAbortUnit id.toNat (s.headed f) = (s.headed f, refuse .notFound) := by
      unfold takeAbortUnit
      rw [show (s.headed f).ut.findId id.toNat = none from hnone.find]
    exact (hrefused ▸ hserved).onlyAnswers
  · rw [takeAbortUnit_carried (s := s.headed f) hid, if_pos hstate] at hserved
    exact hserved.onlyAnswers
  have hchanges := takeAbortUnit_frame id.toNat (s.headed f)
  rw [takeAbortUnit_carried (s := s.headed f) hid, if_neg hstate] at hserved hchanges
  have hi : (s.headed f).ut.records[i] = some r := hid.1
  obtain ⟨r', hr', habort, hid', hserial, x, hx⟩ := State.abortByState_keeps (State.abortMarked_self hi) (State.abortMarked_law hi hlaw)
    (State.abortMarked_noticed hi) hstate
  have hunit : ∀ u, r.state = u → u.atStation1 = true ∨ u.atStation2 = true → IsUnitIn u i r (s.headed f) := fun u hu hst =>
    hu ▸ hlaw.isUnitIn hi (hu ▸ hst)
  refine ⟨t, r', ht, hserved.answered, hserved.onlyChanges (by decide) fun b hb => ?_, by rw [hserved.ut]; exact hr', habort, hid', hserial,
    ⟨x, .inl (by rw [hserved.notices]; exact hx)⟩, fun hr => ?_, fun hr hphase hmoves => ?_, fun hr hphase hmoves => ?_, fun hr hphase => ?_,
    fun hr hphase => ?_, fun hr => ?_, fun hr => ?_, fun hr => ⟨fun hvents => ?_, fun hnone => ?_⟩⟩
  · obtain ⟨-, hclock, hfree, hlines, hrs⟩ := hchanges
    cases b <;> simp_all [Part.same]
  · rw [hserved.oa, hserved.pe]
    exact State.aborted_loaded hi hlaw hr' hr
  · rw [hserved.oa, hserved.pe]
    exact State.aborted_running_stepping hi hr' (hunit _ hr (.inl rfl)) hphase hmoves
  · rw [hserved.pe]
    exact State.aborted_running_moving hi hr' (hunit _ hr (.inl rfl)) hphase hmoves
  · obtain ⟨hstate', hverdict, hsteps, hrest, hclosed, hpaused⟩ := State.aborted_running_ends hi hlaw hr' (hunit _ hr (.inl rfl)) hphase
    have hstack : t.cu.stack = ((s.headed f).aborted i r).cu.stack := congrArg ConditionUnit.stack hserved.cu
    exact ⟨hstate', hverdict, hsteps, hrest.congr hserved.pe, fun hn => (hclosed hn).congr hserved.oa hstack hserved.afe,
      fun k y hst => (hpaused k y (hst.headed f)).congr hserved.oa hstack hserved.afe⟩
  · rw [hserved.oa, hserved.pe]
    exact State.aborted_running_idle hi hr' (hunit _ hr (.inl rfl)) hphase
  · have hwaits := State.aborted_waiting (i := i) (s := s.headed f) hr
    rw [hwaits] at hserved
    refine ⟨hserved.onlyChanges (by decide) (onlyChanges_abortMarked i (s.headed f)).2, ?_, fun j hj => ?_⟩
    · have hr'' : ((s.headed f).aborted i r).ut.records[i] = some r' := hr'
      rw [hwaits] at hr''
      exact (Option.some.inj ((State.abortMarked_self hi).symm.trans hr'')).symm
    · rw [hserved.ut]
      exact State.abortMarked_others hi j hj
  · rw [hserved.reports]
    obtain ⟨hdone, htime, hskipped, hverdict, hchambers, hreports⟩ := State.aborted_atLeak hr' (hunit _ hr (.inr rfl))
    exact ⟨hdone, by rw [htime, State.headed_now], hskipped, hverdict, hchambers, hreports⟩
  · obtain ⟨hmarked, hqueue, hchambers⟩ := State.aborted_leaking_vents hr' (hunit _ hr (.inr rfl)) hvents
    refine ⟨hmarked, by rw [hserved.lkc]; exact hqueue, fun c => ?_⟩
    rw [State.chamber_congr hserved.lkc]
    exact hchambers c
  · rw [hserved.reports]
    exact State.aborted_leaking_ends hr' (hunit _ hr (.inr rfl)) hnone

end Sys2Proof.Machine
end

