-- ==== Sys2Proof/Proofs/FeedbackJudged.lean ====
section
/-! DRIVE_FEEDBACK that is not for the Profile Engine: OVERSPEED and DRIVE_FAULT judged by it, with the taking check where one of them became
active (R45, R46, R59, R128, R129, R133). -/

namespace Sys2Proof.Machine

/-! ## The record, which the Profile Engine leaves -/

/-- The state with a feedback record taken (R45). -/
def State.fed (f : Feedback) (s : State) : State := s.setAfe { s.afe with feedback := some f }

/-- In a phase that waits for no speed the record is not for the Profile Engine (R46, R59). -/
theorem State.takeSpeed_resting {speed : Int} {s : State} (h : s.pe.phase ≠ .stepping ∧ s.pe.phase ≠ .reapproach) :
    s.takeSpeed speed = s := by
  obtain ⟨hstep, hre⟩ := h
  unfold State.takeSpeed
  cases hp : s.pe.phase <;> simp_all

/-- A record that ends no step and no re-approach is not for the Profile Engine (R46, R59). -/
theorem State.takeSpeed_fed {speed : Int} {ready fault : Bool} {s : State} {k : Nat} {x : Step} {i : Fin 8} {r : UnitRecord}
    (hl : StationLaw s) (hu : IsUnitIn .running i r s) (hk : s.pe.step = some k) (h1 : 1 ≤ k) (hx : (s.recipeOf r).steps[k - 1]? = some x)
    (h : (s.pe.phase = .stepping ∧ x.kind ≠ .ramp) ∨ s.pe.setpoint ≠ x.target * 100 ∨
      (s.recipeOf r).tolerance * 100 < (speed - x.target * 100).natAbs) :
    (s.fed ⟨speed, ready, fault⟩).takeSpeed speed = s.fed ⟨speed, ready, fault⟩ := by
  have hR : (s.fed ⟨speed, ready, fault⟩).recipe1 = some (s.recipeOf r) := hu.recipe1 hl
  have hcur : (s.fed ⟨speed, ready, fault⟩).currentStep = some x := State.currentStep_of hR hk h1 hx
  refine State.takeSpeed_self hcur ?_
  rcases h with h | h
  · exact .inl h
  · refine .inr (.inr fun ht => ?_)
    obtain ⟨hset, hnear⟩ := (State.onTarget_iff hR hcur).1 ht
    rcases h with h | h
    · exact h hset
    · omega

/-! ## The two judgements (R128) -/

theorem IsSpeedLimit.speedLimit {limit : Nat} {s : State} (h : IsSpeedLimit limit s) : s.speedLimit = limit := by
  rcases h with ⟨hnone, hlimit⟩ | ⟨i, r, hi, hr, hl, hlimit⟩
  · have hunit : s.unit1 = none := UnitTable.find_none hnone
    simp [State.speedLimit, State.recipe1, hunit, hlimit]
  · rw [State.speedLimit, State.recipe1_of (hl.unit1 hi hr) hi, hlimit]
    rfl

theorem State.driveFaulty_fed (speed : Int) (ready fault : Bool) (s : State) :
    (s.fed ⟨speed, ready, fault⟩).driveFaulty = driveFaultAsserted ready fault s := by
  have hfeedback : (s.fed ⟨speed, ready, fault⟩).afe.feedback = some ⟨speed, ready, fault⟩ := rfl
  have hpe : (s.fed ⟨speed, ready, fault⟩).pe = s.pe := rfl
  have huptime : (s.fed ⟨speed, ready, fault⟩).uptime = s.uptime := rfl
  unfold State.driveFaulty driveFaultAsserted
  rw [hfeedback, hpe, huptime]
  cases s.pe.enabledAt with
  | none => simp
  | some since =>
    have hsum : 500 ≤ s.uptime - since ↔ since + 500 ≤ s.uptime := by omega
    simp only [Option.getD_some, hsum]

theorem State.driveFaulty_congr {s t : State} (ha : t.afe = s.afe) (hp : t.pe = s.pe) (hc : t.clockUs = s.clockUs) :
    t.driveFaulty = s.driveFaulty := by
  unfold State.driveFaulty State.uptime
  rw [ha, hp, hc]

/-- The two records after their judgement (R127 to R129). -/
theorem State.judgeFeedback_cond {limit : Nat} {s : State} (hlimit : IsSpeedLimit limit s) (speed : Int) (ready fault : Bool) :
    let t := (s.fed ⟨speed, ready, fault⟩).judgeFeedback speed
    let c3 := judged true (decide (limit < speed.natAbs)) (s.active 3) s.now (s.cond 3)
    let c4 := judged false (driveFaultAsserted ready fault s) (s.active 4) s.now (s.cond 4)
    t.cond 3 = c3 ∧ t.cond 4 = c4 ∧ t.cu = { s.cu with conditions := (s.cu.conditions.set 3 c3).set 4 c4 } ∧
    t = ((s.fed ⟨speed, ready, fault⟩).setSource 3 (decide (limit < speed.natAbs))).setSource 4 (driveFaultAsserted ready fault s) := by
  intro t c3 c4
  have ht : t = ((s.fed ⟨speed, ready, fault⟩).setSource 3 (decide (limit < speed.natAbs))).setSource 4 (driveFaultAsserted ready fault s) := by
    have hfaulty : ∀ b, ((s.fed ⟨speed, ready, fault⟩).setSource 3 b).driveFaulty = (s.fed ⟨speed, ready, fault⟩).driveFaulty := fun b =>
      State.driveFaulty_congr (by simp) (by simp) (by simp)
    have hspeed : (s.fed ⟨speed, ready, fault⟩).speedLimit = limit := hlimit.speedLimit
    simp only [t, State.judgeFeedback, State.judgeDrive, hfaulty, hspeed, State.driveFaulty_fed]
  have hnow : ((s.fed ⟨speed, ready, fault⟩).setSource 3 (decide (limit < speed.natAbs))).now = s.now :=
    State.now_congr (by simp [State.fed])
  have h3 : t.cond 3 = c3 := by
    rw [ht, State.cond_setSource_ne (by decide), State.cond_setSource_judged]
    rfl
  have h4 : t.cond 4 = c4 := by
    rw [ht, State.cond_setSource_judged, State.active_setSource_ne (by decide), State.cond_setSource_ne (by decide), hnow]
    rfl
  refine ⟨h3, h4, ?_, ht⟩
  rw [← h4, ← h3, ht]
  simp only [State.setSource_cu, State.cond_setSource_ne (show (3 : Fin 20) ≠ 4 by decide)]
  rfl

/-! ## What the halts leave of DRIVE_FAULT (R127, R135) -/

theorem notStarvation_drive : NotStarvation 4 := by unfold NotStarvation; decide

/-- The latch of DRIVE_FAULT, which is LEVEL, stands (R127). -/
def DriveLatchKept (s t : State) : Prop := (t.cond 4).latch = (s.cond 4).latch

theorem DriveLatchKept.of_cond {s t : State} (h : t.cond 4 = s.cond 4) : DriveLatchKept s t := congrArg Condition.latch h

theorem keptByHalts_driveLatch : KeptByHalts DriveLatchKept where
  refl _ := rfl
  trans h h' := h'.trans h
  setPe _ _ := rfl
  setEnable s := by
    unfold State.setEnable
    split
    · rfl
    · rw [DriveLatchKept, State.judgeDrive, State.cond_setSource_level rfl]
      rfl
  complete _ _ := .of_cond (by simp)
  closeWindows _ := .of_cond (by simp [notStarvation_drive])
  checkRunDone _ := .of_cond (by simp [notStarvation_drive])
  pauseWindow _ _ := .of_cond (by simp [notStarvation_drive])
  syncStreams _ := .of_cond (by simp [notStarvation_drive])
  haltChambers _ := .of_cond (by simp)
  stopConveyor _ := .of_cond rfl

/-- The engine is IDLE with its drive off. -/
def EngineOff (s : State) : Prop := s.pe.phase = .idle ∧ s.pe.enable = false

/-- An operation of the halts with the engine off leaves the front end and DRIVE_FAULT. -/
def OffKept (s t : State) : Prop := EngineOff s → EngineOff t ∧ t.afe = s.afe ∧ t.cond 4 = s.cond 4

namespace OffKept

variable {was : StopSet} {s t u : State}

theorem refl (s : State) : OffKept s s := fun h => ⟨h, rfl, rfl⟩

theorem trans (h : OffKept s t) (h' : OffKept t u) : OffKept s u := fun hs => by
  obtain ⟨ht, hafe, hcond⟩ := h hs
  obtain ⟨hu, hafe', hcond'⟩ := h' ht
  exact ⟨hu, hafe'.trans hafe, hcond'.trans hcond⟩

theorem of_same (hpe : t.pe.phase = s.pe.phase ∧ t.pe.enable = s.pe.enable) (hafe : t.afe = s.afe) (hcond : t.cond 4 = s.cond 4) :
    OffKept s t := fun ⟨hphase, henable⟩ => ⟨⟨hpe.1.trans hphase, hpe.2.trans henable⟩, hafe, hcond⟩

theorem hardCheck (s : State) : OffKept s s.hardCheck := fun h => by
  obtain ⟨hphase, henable⟩ := h
  have hoff : s.setEnable false = s := if_pos henable
  unfold State.hardCheck
  split
  · rw [hoff]
    simp only [State.setPe_pe, hphase]
    exact ⟨⟨rfl, henable⟩, rfl, rfl⟩
  · exact ⟨⟨hphase, henable⟩, rfl, rfl⟩

theorem profileHalted (s : State) : OffKept s s.profileHalted := fun h => by
  obtain ⟨hphase, henable⟩ := h
  have hhalted : s.profileHalted = (s.setPe { s.pe with halt := .soft }).hardCheck := by
    unfold State.profileHalted
    simp only [hphase]
  rw [hhalted]
  exact hardCheck _ ⟨hphase, henable⟩

theorem applyProfileHalt (hw : was.Within s.halt) : OffKept s (s.applyProfileHalt was) := by
  obtain ⟨hp, -⟩ := hw
  unfold State.applyProfileHalt
  split
  · exact profileHalted s
  · exact hardCheck s
  · simp_all
  · exact refl s

theorem applyNoiseHalt (hw : was.Within s.halt) : OffKept s (s.applyNoiseHalt was) := by
  rw [State.applyNoiseHalt_entering hw]
  split
  · refine of_same ?_ (by simp) (by simp [notStarvation_drive])
    rw [show s.noisePause.syncStreams.pe = s.noisePause.pe by simp, State.noisePause_pe]
    exact ⟨rfl, rfl⟩
  · exact refl s

theorem applyLeakHalt (hw : was.Within s.halt) : OffKept s (s.applyLeakHalt was) := by
  rw [State.applyLeakHalt_entering hw]
  split
  · exact of_same (by simp) (by simp) (by simp)
  · exact refl s

theorem applyTransferHalt (hw : was.Within s.halt) : OffKept s (s.applyTransferHalt was) := by
  rw [State.applyTransferHalt_entering hw]
  split
  · exact of_same ⟨rfl, rfl⟩ rfl rfl
  · exact refl s

theorem applyHalts (hw : was.Within s.halt) : OffKept s (s.applyHalts was) := by
  have within : ∀ {t : State}, t.cu.stack = s.cu.stack → was.Within t.halt := fun ht => by rwa [State.halt_congr ht]
  exact (((applyProfileHalt hw).trans (applyNoiseHalt (within (by simp)))).trans (applyLeakHalt (within (by simp)))).trans
    (applyTransferHalt (within (by simp)))

end OffKept

/-- What the end of an event that left the stack leaves of DRIVE_FAULT. -/
theorem driveLatch_react {s t : State} (hs : t.cu.stack = s.cu.stack) : ((react s t).cond 4).latch = (t.cond 4).latch := by
  have hwithin : s.halt.Within (checkIfActivated s t).halt := State.halt_congr hs ▸ halt_within_checkIfActivated s t
  have hkept : DriveLatchKept _ (react s t) := keptByHalts_driveLatch.applyHalts hwithin
  rw [DriveLatchKept, cond_checkIfActivated] at hkept
  exact hkept

theorem offKept_react {s t : State} (hs : t.cu.stack = s.cu.stack) : OffKept t (react s t) := by
  have hwithin : s.halt.Within (checkIfActivated s t).halt := State.halt_congr hs ▸ halt_within_checkIfActivated s t
  have checked : OffKept t (checkIfActivated s t) := OffKept.of_same (by simp) (by simp) (by simp)
  exact checked.trans (OffKept.applyHalts hwithin)

/-! ## The event -/

/-- With nothing for the Profile Engine the record is judged and the event ended (R45, R133). -/
theorem State.feedbackArrives_judged {f : Feedback} {s : State} (h : (s.fed f).takeSpeed f.speed = s.fed f) :
    s.feedbackArrives f = react s ((s.fed f).judgeFeedback f.speed) := by
  have hdef : s.feedbackArrives f = react s (((s.fed f).takeSpeed f.speed).judgeFeedback f.speed) := rfl
  rw [hdef, h]

theorem State.judgeFeedback_rest (f : Feedback) (speed : Int) (s : State) :
    OnlyChanges [.afe, .cu] s ((s.fed f).judgeFeedback speed) ∧ ((s.fed f).judgeFeedback speed).afe = (s.fed f).afe ∧
    ((s.fed f).judgeFeedback speed).cu.stack = s.cu.stack := by
  refine ⟨⟨by simp [State.judgeFeedback, State.fed], fun b hb => ?_⟩, by simp [State.judgeFeedback], by simp [State.judgeFeedback, State.fed]⟩
  cases b <;> simp [Part.same, State.judgeFeedback, State.fed] at hb ⊢

/-- Settles O29: the two conditions are judged, and the taking check is made where one became active. -/
theorem feedbackJudgesOverspeedAndDriveFault : Obligations.FeedbackJudgesOverspeedAndDriveFault := by
  intro limit speed ready fault s hlimit hphase tooFast faulty c3 c4 v
  have hspeed : (s.fed ⟨speed, ready, fault⟩).takeSpeed speed = s.fed ⟨speed, ready, fault⟩ := by
    rcases hphase with h | ⟨k, x, i, r, hl, hu, hk, h1, hx, h⟩
    · exact State.takeSpeed_resting h
    · exact State.takeSpeed_fed hl hu hk h1 hx h
  obtain ⟨t, ht⟩ : ∃ t, t = (s.fed ⟨speed, ready, fault⟩).judgeFeedback speed := ⟨_, rfl⟩
  have hjudged := State.judgeFeedback_cond hlimit speed ready fault
  obtain ⟨hrest, hafe, hstack⟩ := State.judgeFeedback_rest ⟨speed, ready, fault⟩ speed s
  rw [exec_driveFeedback_eq, State.feedbackArrives_judged hspeed]
  simp only [← ht] at hjudged hrest hafe hstack ⊢
  obtain ⟨h3, h4, hcu, hsources⟩ := hjudged
  have hpe : t.pe = s.pe := hrest.2 .pe (by decide)
  have hclock : t.clockUs = s.clockUs := hrest.2 .clock (by decide)
  have hlp : t.lp = s.lp := hrest.2 .lp (by decide)
  have hholding : HoldingKept s (react s t) := by simp [HoldingKept, hlp]
  have hactive : ∀ n, (s.fed ⟨speed, ready, fault⟩).active n = s.active n := fun n => State.active_congr rfl
  refine ⟨_, rfl, ?_, ((hrest.trans (onlyChanges_react s t)).trans (onlyChanges_arbitrate _)).mono (by decide), ?_, ?_, ?_, fun hnew => ?_,
    fun hold3 hold4 hh => ?_, fun hidle hoff => ?_⟩
  · simpa [HoldingKept] using hholding
  · simp [hafe, State.fed]
  · rw [cond_arbitrate, cond_react _ _ (by unfold NotStarvation; decide) (by decide), h3]
  · rw [cond_arbitrate, driveLatch_react hstack, h4]
  · have hbecame : ∃ n, s.active n = false ∧ t.active n = true := by
      rcases hnew with ⟨hs, hon⟩ | ⟨hs, hon⟩
      · exact ⟨3, hs, by rw [State.active_latched rfl, h3]; simpa [judged] using Or.inr (of_decide_eq_true hon)⟩
      · exact ⟨4, hs, State.active_of_source rfl (by rw [h4]; exact hon)⟩
    obtain ⟨n, hs, hn⟩ := hbecame
    exact (takingCheckMade_react n hs hn).congr hcu.symm hclock.symm (by simp) (by simp)
  · have hquiet : react s t = t := by
      refine react_standing (fun n hn => ?_) hstack (by rw [hpe]) hh
      rw [hsources] at hn
      rw [← hactive n]
      refine State.active_of_setSource (by rwa [hactive]) (State.active_of_setSource ?_ hn)
      rwa [State.active_setSource_ne (by decide), hactive]
    rw [hquiet]
    exact ⟨(hrest.trans (onlyChanges_arbitrate _)).mono (by decide), by simp [hafe, State.fed],
      (show (arbitrate t).cu = t.cu by simp).trans hcu⟩
  · obtain ⟨-, hkept, hcond⟩ := offKept_react hstack (s := s) (t := t) ⟨by rw [hpe, hidle], by rw [hpe, hoff]⟩
    refine ⟨by simp [hkept, hafe, State.fed], ?_⟩
    rw [cond_arbitrate, hcond, h4]

end Sys2Proof.Machine
end

