-- ==== Sys2Proof/Proofs/VibStarvation.lean ====
section
/-! A starvation of the VIB stream through the end of its event: with no record open, whatever halts follow leave the stream STARVED, or IDLE
once capture is no longer wanted, and the descriptors, the queue and the windows' drop counts as they were (R62, R74, R76, R87, R88). -/

namespace Sys2Proof.Machine

/-! ## The stream (R74, R76) -/

/-- No record is open, the descriptors stand as `ds`, and the VIB stream is `x` in STARVED or, where capture is not wanted, in IDLE; and it is
IDLE wherever capture is not wanted, where `synced`. -/
structure VibStarving (synced : Bool) (x : Stream) (ds : Vector VibDescriptor 32) (s : State) : Prop where
  closed : s.afe.openVib = none
  descs : s.cs.vibDescs = ds
  stream : s.stream .vib = { x with state := .starved } ∨ (s.stream .vib = { x with state := .idle } ∧ s.wanted .vib = false)
  idle : synced = true → s.wanted .vib = false → s.stream .vib = { x with state := .idle }

/-- Capture for VIB is wanted by the table and the hold stack (R74). -/
theorem State.wanted_vib_congr {s t : State} (hw : t.oa.windows = s.oa.windows) (hs : t.cu.stack = s.cu.stack) :
    t.wanted .vib = s.wanted .vib := by simp only [State.wanted, OrderAnalyzer.openWindow, hw, State.halt_congr hs]

/-- Capture for VIB is wanted for no table that it was not wanted for, where no window has become OPEN. -/
theorem State.wanted_vib_lowered {s t : State} (hw : (∃ w ∈ t.oa.windows, w.state = .opened) → ∃ w ∈ s.oa.windows, w.state = .opened)
    (hn : t.halt.noise = false → s.halt.noise = false) (h : t.wanted .vib = true) : s.wanted .vib = true := by
  simp only [State.wanted, OrderAnalyzer.openWindow, List.find?_isSome, Bool.and_eq_true, Bool.not_eq_true', decide_eq_true_eq] at h ⊢
  obtain ⟨hopen, hnoise⟩ := h
  exact ⟨hw hopen, hn hnoise⟩

namespace VibStarving

variable {b : Bool} {x : Stream} {ds : Vector VibDescriptor 32} {s t : State}

theorem congr (h : VibStarving b x ds s) (hcs : t.cs.vib = s.cs.vib) (hd : t.cs.vibDescs = s.cs.vibDescs) (ho : t.afe.openVib = s.afe.openVib)
    (hw : t.wanted .vib = s.wanted .vib) : VibStarving b x ds t := by
  obtain ⟨hclosed, hdescs, hstream, hidle⟩ := h
  have hsame : t.stream .vib = s.stream .vib := hcs
  exact ⟨ho.trans hclosed, hd.trans hdescs, by rwa [hsame, hw], by rwa [hsame, hw]⟩

/-- An operation that leaves the store, the open record, the table and the stack. -/
theorem of_same (h : VibStarving b x ds s) (hcs : t.cs = s.cs) (ho : t.afe.openVib = s.afe.openVib) (hw : t.oa.windows = s.oa.windows)
    (hs : t.cu.stack = s.cu.stack) : VibStarving b x ds t :=
  h.congr (by rw [hcs]) (by rw [hcs]) ho (State.wanted_vib_congr hw hs)

/-- An operation after which capture may no longer be wanted. -/
theorem lowered (h : VibStarving b x ds s) (hcs : t.cs = s.cs) (ho : t.afe.openVib = s.afe.openVib)
    (hw : t.wanted .vib = true → s.wanted .vib = true) : VibStarving false x ds t := by
  obtain ⟨hclosed, hdescs, hstream, -⟩ := h
  have hsame : t.stream .vib = s.stream .vib := State.stream_congr hcs _
  refine ⟨ho.trans hclosed, by rw [hcs, hdescs], ?_, fun hf => nomatch hf⟩
  rw [hsame]
  refine hstream.imp_right fun ⟨hidle, hnot⟩ => ⟨hidle, ?_⟩
  exact Bool.eq_false_iff.2 fun ht => by simp [hw ht] at hnot

theorem weaken (h : VibStarving true x ds s) (b : Bool) : VibStarving b x ds s := ⟨h.closed, h.descs, h.stream, fun _ => h.idle rfl⟩

/-- The check of what is wanted makes the stream IDLE where capture is not (R74). -/
theorem synced (h : VibStarving b x ds s) : VibStarving true x ds s.syncStreams := by
  obtain ⟨hclosed, hdescs, hstream, -⟩ := h
  have hwanted : s.syncStreams.wanted .vib = s.wanted .vib := State.wanted_vib_congr (by simp) (by simp)
  have hvib : s.syncStreams.stream .vib = { s.stream .vib with state := syncedState (s.stream .vib).state (s.wanted .vib) } := by
    rw [State.syncStreams, State.stream_syncStream_ne (by simp), State.stream_syncStream_ne (by simp), State.stream_syncStream]
  refine ⟨by simpa using hclosed, by simpa using hdescs, ?_, fun _ hnot => ?_⟩
  · rw [hvib, hwanted]
    rcases hstream with hs | ⟨hs, hnot⟩
    · rw [hs]
      cases hw : s.wanted .vib
      · exact .inr ⟨rfl, rfl⟩
      · exact .inl rfl
    · rw [hs, hnot]
      exact .inr ⟨rfl, rfl⟩
  · rw [hwanted] at hnot
    rw [hvib, hnot]
    rcases hstream with hs | ⟨hs, -⟩ <;> rw [hs] <;> rfl

/-- The stream as capture is wanted for it. -/
theorem stream_eq (h : VibStarving true x ds s) :
    s.stream .vib = { x with state := if s.wanted .vib then .starved else .idle } := by
  obtain ⟨-, -, hstream, hidle⟩ := h
  cases hw : s.wanted .vib with
  | false => simpa using hidle rfl hw
  | true => simpa [hw] using hstream

theorem pauseWindow (h : VibStarving b x ds s) (n : Nat) : VibStarving b x ds (s.pauseWindow n) := by
  unfold State.pauseWindow
  refine VibStarving.weaken (VibStarving.synced (b := false) (h.lowered (by simp) (by simp) (State.wanted_vib_lowered ?_ ?_))) b
  · simp only [State.mapWindow, OrderAnalyzer.mapWindow, State.setOa_oa, List.mem_map]
    rintro ⟨v, ⟨w, hmem, rfl⟩, hv⟩
    refine ⟨w, hmem, ?_⟩
    by_contra hne
    rw [if_neg hne, ite_self] at hv
    exact hne hv
  · exact fun hn => by rwa [State.halt_congr (s := s) (by simp)] at hn

theorem closeTable (h : VibStarving b x ds s) : VibStarving b x ds s.closeTable := by
  refine h.congr (by simp) (by simp) (by simp) ?_
  simp only [State.wanted, OrderAnalyzer.openWindow, State.closeTable_windows, State.halt_congr (show s.closeTable.cu.stack = s.cu.stack by simp)]
  split
  · next hall =>
    have hnone : s.oa.windows.find? (fun w => decide (w.state = .opened)) = none := List.find?_eq_none.2 fun w hw => by
      have hclosed : w.state = .closed := by simpa using List.all_eq_true.1 hall w hw
      simp [hclosed]
    rw [hnone]
    rfl
  · rfl

/-- With no record open the close of a window takes none (R68, R88). -/
theorem closeWindow (h : VibStarving b x ds s) (n : Nat) : VibStarving b x ds (s.closeWindow n) := by
  have hnone : s.abandonFor n = s := by simp only [State.abandonFor, h.closed]
  cases hw : s.oa.window n with
  | none =>
    rw [State.closeWindow_absent hw]
    exact h
  | some w =>
    have lowers : ∀ (t : State) (y : WindowState), y ≠ .opened → t.cs = s.cs → t.afe.openVib = s.afe.openVib → t.cu.stack = s.cu.stack →
        (∀ v ∈ t.oa.windows, ∃ u ∈ s.oa.windows, v = if u.number = n then { u with state := y } else u) →
        VibStarving b x ds t.syncStreams := by
      intro t y hy hcs ho hs hmap
      refine (VibStarving.synced (h.lowered hcs ho (State.wanted_vib_lowered ?_ ?_))).weaken b
      · rintro ⟨v, hmem, hv⟩
        obtain ⟨u, hu, rfl⟩ := hmap v hmem
        refine ⟨u, hu, ?_⟩
        split at hv
        · exact absurd hv hy
        · exact hv
      · exact fun hn => by rwa [State.halt_congr hs] at hn
    rcases State.closeWindow_found hw with ⟨-, -, hc⟩ | ⟨-, -, hc⟩ | ⟨-, -, hc⟩ <;> rw [hc]
    · rw [hnone]
      refine lowers _ .closed (by simp) (by simp) (by simp) (by simp) fun v hv => ?_
      rw [State.gradeWindow_windows hw] at hv
      dsimp only at hv
      split at hv
      · exact nomatch hv
      · obtain ⟨u, hu, hvu⟩ := List.mem_map.1 hv
        exact ⟨u, hu, hvu.symm⟩
    · rw [hnone]
      refine lowers _ .closing (by simp) (by simp) (by simp) (by simp) fun v hv => ?_
      obtain ⟨u, hu, hvu⟩ := List.mem_map.1 hv
      exact ⟨u, hu, hvu.symm⟩
    · exact h

theorem closeWindows (h : VibStarving b x ds s) : VibStarving b x ds s.closeWindows := by
  unfold State.closeWindows
  split
  · exact h.closeTable
  · next hsome =>
    unfold State.closeAll
    generalize s.oa.windows.map Window.number = ns
    clear hsome
    induction ns generalizing s with
    | nil => exact h
    | cons n ns ih => exact ih (h.closeWindow n)

theorem checkTransfer (h : VibStarving b x ds s) : VibStarving b x ds s.checkTransfer := by
  unfold State.checkTransfer
  split
  · next i _ =>
    split
    · have moved : VibStarving b x ds (s.runConveyor.enterState i .inTransfer) := h.of_same (by simp) (by simp) (by simp) (by simp)
      dsimp only
      split
      · next r _ =>
        exact moved.congr (State.stream_setTarget_ne (st' := .vib) (by simp) _ _) (by simp) (by simp) (State.wanted_vib_congr (by simp) (by simp))
      · exact moved
    · exact h
  · exact h

theorem checkRunDone (h : VibStarving b x ds s) : VibStarving b x ds s.checkRunDone := by
  unfold State.checkRunDone
  split
  · exact h
  · next i _ =>
    split
    · exact h
    · split
      · have moved : VibStarving b x ds (s.enterState i .runDone) := h.of_same (by simp) (by simp) (by simp) (by simp)
        have left : VibStarving b x ds (s.enterState i .runDone).syncStreams.disarmSilence :=
          (moved.synced.weaken b).of_same (by simp) (by simp) (by simp) (by simp)
        exact left.checkTransfer
      · exact h

end VibStarving

theorem keptByHalts_vibStarving (b : Bool) : KeptByHalts fun s t => ∀ x ds, VibStarving b x ds s → VibStarving b x ds t where
  refl _ _ _ h := h
  trans h h' x ds hs := h' x ds (h x ds hs)
  setPe _ _ _ _ h := h.of_same rfl rfl rfl rfl
  setEnable _ _ _ h := h.of_same (by simp) (by simp) (by simp) (by simp)
  complete _ _ _ _ h := h.of_same (by simp) (by simp) (by simp) (by simp)
  closeWindows _ _ _ h := h.closeWindows
  checkRunDone _ _ _ h := h.checkRunDone
  pauseWindow n _ _ _ h := h.pauseWindow n
  syncStreams _ _ _ h := h.synced.weaken b
  haltChambers _ _ _ h := h.of_same (by simp) (by simp) (by simp) (by simp)
  stopConveyor _ _ _ h := h.of_same rfl rfl rfl rfl

/-! ## The end of the event (R133, R135) -/

section
variable {b : Bool} {x : Stream} {ds : Vector VibDescriptor 32} {s w : State}

/-- The halts that an event hands on only enter the set, where the event itself left the stack. -/
theorem within_checkIfActivated (hs : w.cu.stack = s.cu.stack) : s.halt.Within (checkIfActivated s w).halt :=
  State.halt_congr hs ▸ halt_within_checkIfActivated s w

/-- Whatever halts follow, no record opens, the descriptors stand, and the stream is STARVED or IDLE. -/
theorem VibStarving.reacts (h : VibStarving b x ds w) (hs : w.cu.stack = s.cu.stack) : VibStarving false x ds (react s w) := by
  have hnoise : (checkIfActivated s w).halt.noise = false → w.halt.noise = false := fun hn => by
    obtain ⟨-, hw, -⟩ := halt_within_checkIfActivated s w
    exact Bool.eq_false_iff.2 fun ht => by simp [hw ht] at hn
  have checked : VibStarving false x ds (checkIfActivated s w) :=
    h.lowered (by simp) (by simp) (State.wanted_vib_lowered (by simp) hnoise)
  exact (keptByHalts_vibStarving false).applyHalts (within_checkIfActivated hs) x ds checked

/-- Where NOISE was not in the halt set the stream is IDLE in the end wherever capture is no longer wanted (R74). -/
theorem VibStarving.reacts_synced (h : VibStarving true x ds w) (hs : w.cu.stack = s.cu.stack) (hn : s.halt.noise = false) :
    VibStarving true x ds (react s w) := by
  obtain ⟨v, hv⟩ : ∃ v, v = checkIfActivated s w := ⟨_, rfl⟩
  have hwithin : s.halt.Within v.halt := hv ▸ within_checkIfActivated hs
  have hends : react s w = v.applyHalts s.halt := by rw [hv]; rfl
  rw [hends]
  cases hentered : v.halt.noise with
  | false =>
    have hwanted : v.wanted .vib = w.wanted .vib := by
      have hwnoise : w.halt.noise = false := by rw [State.halt_congr hs, hn]
      have hwindows : v.oa = w.oa := by simp [hv]
      simp only [State.wanted, hwindows, hentered, hwnoise]
    have checked : VibStarving true x ds v := h.congr (by simp [hv]) (by simp [hv]) (by simp [hv]) hwanted
    exact (keptByHalts_vibStarving true).applyHalts hwithin x ds checked
  | true =>
    have hnoise : v.halt.noise = false → w.halt.noise = false := fun hf => by simp [hentered] at hf
    have checked : VibStarving false x ds v := h.lowered (by simp [hv]) (by simp [hv]) (State.wanted_vib_lowered (by simp [hv]) hnoise)
    have stopped := (keptByHalts_vibStarving false).applyProfileHalt hwithin x ds checked
    have within : ∀ {t : State}, t.cu.stack = v.cu.stack → s.halt.Within t.halt := fun ht => by rwa [State.halt_congr ht]
    have hpaused : VibStarving true x ds ((v.applyProfileHalt s.halt).applyNoiseHalt s.halt) := by
      rw [State.applyNoiseHalt_entering (within (by simp)), if_pos ⟨hn, by rw [State.halt_congr (s := v) (by simp), hentered]⟩]
      exact ((keptByHalts_vibStarving false).noisePause _ x ds stopped).synced
    have leak := (keptByHalts_vibStarving true).applyLeakHalt (within (by simp)) x ds hpaused
    exact (keptByHalts_vibStarving true).applyTransferHalt (within (by simp)) x ds leak

end

/-! ## The windows' drop counts while no profile stops (R88, R95) -/

/-- The numbers and drop counts of a table. -/
def dropCounts (ws : List Window) : List (Nat × Nat) := ws.map fun w => (w.number, w.dropped)

/-- An operation of the halts, on an engine that is not STOPPING, closes no window and leaves the drop counts. -/
def DropsKept (s t : State) : Prop :=
  s.pe.phase ≠ .stopping → t.pe.phase ≠ .stopping ∧ dropCounts t.oa.windows = dropCounts s.oa.windows

namespace DropsKept

variable {was : StopSet} {s t u : State}

theorem of_same (hp : t.pe.phase = s.pe.phase) (hw : dropCounts t.oa.windows = dropCounts s.oa.windows) : DropsKept s t :=
  fun h => ⟨by rwa [hp], hw⟩

theorem refl (s : State) : DropsKept s s := of_same rfl rfl

theorem trans (h : DropsKept s t) (h' : DropsKept t u) : DropsKept s u := fun hs => by
  obtain ⟨ht, hw⟩ := h hs
  obtain ⟨hu, hw'⟩ := h' ht
  exact ⟨hu, hw'.trans hw⟩

theorem hardCheck (s : State) : DropsKept s s.hardCheck := fun h => by
  have hsame : (s.setEnable false).pe.phase = s.pe.phase := by rw [State.setEnable_false_pe]
  unfold State.hardCheck
  split
  · dsimp only
    split
    · next hp _ =>
      rw [State.setPe_pe, hsame] at hp
      exact absurd hp h
    · exact ⟨by rw [State.setPe_pe, hsame]; exact h, by simp⟩
  · exact ⟨h, rfl⟩

theorem pausedWindow (n : Nat) (ws : List Window) : dropCounts (pausedWindow n ws) = dropCounts ws := by
  unfold Machine.pausedWindow dropCounts
  rw [List.map_map]
  refine List.map_congr_left fun w _ => ?_
  dsimp only [Function.comp]
  split <;> rfl

theorem pauseWindow (n : Nat) (s : State) : DropsKept s (s.pauseWindow n) := by
  refine of_same (by simp) ?_
  simp only [State.pauseWindow, State.syncStreams_frame, State.mapWindow, OrderAnalyzer.mapWindow, State.setOa_oa, dropCounts, List.map_map]
  refine List.map_congr_left fun w _ => ?_
  dsimp only [Function.comp]
  repeat' split
  all_goals rfl

theorem profileHalted (s : State) : DropsKept s s.profileHalted := by
  obtain ⟨q, hq, hpe, hoa, -⟩ := State.profileHalted_eq s
  rw [hq]
  refine trans (fun h => ⟨?_, ?_⟩) (hardCheck q)
  · rw [hpe]
    revert h
    cases hp : s.pe.phase <;> simp [ProfileEngine.stopped, hp]
  · rw [hoa]
    split
    · cases hx : s.currentStep with
      | none => simp [State.pauseStep, hx]
      | some x => rw [State.pauseStep_windows hx, pausedWindow]
    · rfl

theorem applyProfileHalt (hw : was.Within s.halt) : DropsKept s (s.applyProfileHalt was) := by
  obtain ⟨hp, -⟩ := hw
  unfold State.applyProfileHalt
  split
  · exact profileHalted s
  · exact hardCheck s
  · simp_all
  · exact refl s

theorem noisePause (s : State) : DropsKept s s.noisePause := by
  unfold State.noisePause
  split
  · split
    · exact (of_same rfl rfl : DropsKept s (s.setPe { s.pe with openSent := false })).trans (pauseWindow _ _)
    · exact refl s
  · exact refl s

theorem applyHalts (hw : was.Within s.halt) : DropsKept s (s.applyHalts was) := by
  have within : ∀ {t : State}, t.cu.stack = s.cu.stack → was.Within t.halt := fun ht => by rwa [State.halt_congr ht]
  obtain ⟨m, hm⟩ : ∃ m, m = s.applyProfileHalt was := ⟨_, rfl⟩
  have noise : DropsKept m (m.applyNoiseHalt was) := by
    rw [State.applyNoiseHalt_entering (within (by simp [hm]))]
    split
    · exact (noisePause m).trans (of_same (by simp) (by simp))
    · exact refl m
  have leak : ∀ v : State, v.cu.stack = s.cu.stack → DropsKept v (v.applyLeakHalt was) := fun v hv => by
    rw [State.applyLeakHalt_entering (within hv)]
    split
    · exact of_same (by simp) (by simp)
    · exact refl v
  have transfer : ∀ v : State, v.cu.stack = s.cu.stack → DropsKept v (v.applyTransferHalt was) := fun v hv => by
    rw [State.applyTransferHalt_entering (within hv)]
    split
    · exact of_same rfl rfl
    · exact refl v
  have first : DropsKept s (m.applyNoiseHalt was) := (hm ▸ applyProfileHalt hw : DropsKept s m).trans noise
  subst hm
  exact (first.trans (leak _ (by simp))).trans (transfer _ (by simp))

end DropsKept

theorem dropsKept_react {s w : State} (hs : w.cu.stack = s.cu.stack) : DropsKept w (react s w) :=
  (DropsKept.of_same (by simp) (by simp) : DropsKept w (checkIfActivated s w)).trans (DropsKept.applyHalts (within_checkIfActivated hs))

/-! ## The front end (R68) -/

/-- Nothing of the front end changes but which record is open. -/
def OnlyOpenRecord (s t : State) : Prop := ∃ o, t.afe = { s.afe with openVib := o }

namespace OnlyOpenRecord

variable {s t u : State}

theorem of_afe (h : t.afe = s.afe) : OnlyOpenRecord s t := ⟨s.afe.openVib, h⟩

theorem trans (h : OnlyOpenRecord s t) (h' : OnlyOpenRecord t u) : OnlyOpenRecord s u := by
  obtain ⟨o, ho⟩ := h
  obtain ⟨o', ho'⟩ := h'
  exact ⟨o', by rw [ho', ho]⟩

theorem abandonFor (n : Nat) (s : State) : OnlyOpenRecord s (s.abandonFor n) := by
  unfold State.abandonFor State.abandonOpen
  split
  · split
    · exact ⟨none, by simp⟩
    · exact of_afe rfl
  · exact of_afe rfl

theorem closeWindow (n : Nat) (s : State) : OnlyOpenRecord s (s.closeWindow n) := by
  cases hw : s.oa.window n with
  | none =>
    rw [State.closeWindow_absent hw]
    exact of_afe rfl
  | some w =>
    rcases State.closeWindow_found hw with ⟨-, -, h⟩ | ⟨-, -, h⟩ | ⟨-, -, h⟩ <;> rw [h]
    · exact (abandonFor n s).trans (of_afe (by simp))
    · exact (abandonFor n s).trans (of_afe (by simp))
    · exact of_afe rfl

theorem closeWindows (s : State) : OnlyOpenRecord s s.closeWindows := by
  unfold State.closeWindows
  split
  · exact of_afe (by simp)
  · unfold State.closeAll
    generalize s.oa.windows.map Window.number = ns
    clear *-
    induction ns generalizing s with
    | nil => exact of_afe rfl
    | cons n ns ih => exact (closeWindow n s).trans (ih _)

end OnlyOpenRecord

theorem keptByHalts_openRecord : KeptByHalts OnlyOpenRecord where
  refl _ := .of_afe rfl
  trans h h' := h.trans h'
  setPe _ _ := .of_afe rfl
  setEnable _ := .of_afe (by simp)
  complete _ _ := .of_afe (by simp)
  closeWindows := .closeWindows
  checkRunDone _ := .of_afe (by simp)
  pauseWindow _ _ := .of_afe (by simp)
  syncStreams _ := .of_afe (by simp)
  haltChambers _ := .of_afe (by simp)
  stopConveyor _ := .of_afe rfl

theorem openRecord_react {s w : State} (hs : w.cu.stack = s.cu.stack) : OnlyOpenRecord w (react s w) :=
  (OnlyOpenRecord.of_afe (by simp) : OnlyOpenRecord w (checkIfActivated s w)).trans
    (keptByHalts_openRecord.applyHalts (within_checkIfActivated hs))

end Sys2Proof.Machine
end

