-- ==== Sys2Proof/Proofs/IndexBoundary.lean ====
section
/-! The record boundary that an index makes for VIB: nothing, a capture, a drop, a starvation or a resumption, by the accounts and the table
that the close of the open record has left (R68, R75, R76, R78, R80, R95). -/

namespace Sys2Proof.Machine

/-! ## The boundary, case by case -/

section
variable {x : AngleSample} {w : Window} {s : State}

theorem State.boundaryVib_closed (h : s.oa.openWindow = none) : s.boundaryVib x = s := by simp only [State.boundaryVib, h]

theorem State.boundaryVib_skips (hw : s.oa.openWindow = some w) (h : s.boundary .vib w.spec.channels.length s.cs.freeVib.isSome = .nothing) :
    s.boundaryVib x = s := by simp only [State.boundaryVib, hw, h]

/-- A window that counts a drop (R95). -/
def Window.countDrop (w : Window) : Window := { w with dropped := count16 w.dropped }

theorem State.boundaryVib_drops {starves : Bool} (hw : s.oa.openWindow = some w)
    (h : s.boundary .vib w.spec.channels.length s.cs.freeVib.isSome = .drop starves) :
    s.boundaryVib x = (s.mapWindow w.number Window.countDrop).dropRecord .vib starves := by
  simp only [State.boundaryVib, hw, h]
  rfl

/-- The accounts with a record of window `w` captured in descriptor `d`, before its stream resumes (R68, R75). -/
def CaptureStore.taken (n : Word32) (x : AngleSample) (w : Window) (d : Fin 32) (c : CaptureStore) : CaptureStore :=
  let k := w.spec.channels.length
  { c with
    vib := c.vib.takeBlocks k n
    vibDescs := c.vibDescs.set d (VibDescriptor.addSample x
      ⟨.filling, n, c.vib.resShare k, k - c.vib.resShare k, w.number, .fwd, 0, 0, false, w.spec.channels.map fun c => ⟨c, []⟩⟩) }

/-- The record of window `w` fills in descriptor `d`. -/
def State.takenInto (x : AngleSample) (w : Window) (d : Fin 32) (s : State) : State :=
  (s.setCs (s.cs.taken s.afe.revolution x w d)).setAfe { s.afe with openVib := some d }

theorem State.boundaryVib_captures {resumed : Bool} {d : Fin 32} (hw : s.oa.openWindow = some w) (hd : s.cs.freeVib = some d)
    (h : s.boundary .vib w.spec.channels.length s.cs.freeVib.isSome = .capture resumed) :
    s.boundaryVib x = (s.takenInto x w d).resumeStream .vib resumed := by
  have hcaptures : s.boundaryVib x = s.captureVib w resumed x := by simp only [State.boundaryVib, hw, h]
  rw [hcaptures, State.captureVib, hd]
  rfl

/-- What a capture writes is the record of R68 and R75, once the stream is RUNNING. -/
theorem CaptureStore.taken_running (n : Word32) (x : AngleSample) (w : Window) (d : Fin 32) (c : CaptureStore) :
    (c.taken n x w d).setStream .vib { (c.taken n x w d).vib with state := .running } = capturedVib n x w d c := by
  simp only [CaptureStore.taken, CaptureStore.setStream, VibDescriptor.addSample_eq, capturedVib, Stream.takeBlocks, Stream.resShare,
    List.map_map, List.any_map, Bool.false_or, Function.comp_def, List.nil_append]

end

/-! ## Descriptors (log 15) -/

theorem CaptureStore.freeVib_none {c : CaptureStore} : c.freeVib = none ↔ ∀ d : Fin 32, (c.vibDescs[d]).state ≠ .free := by
  simp [CaptureStore.freeVib, List.mem_finRange]

theorem CaptureStore.freeVib_first {c : CaptureStore} {d : Fin 32} (hd : (c.vibDescs[d]).state = .free)
    (hfirst : ∀ e, e < d → (c.vibDescs[e]).state ≠ .free) : c.freeVib = some d := by
  refine List.find?_eq_some_iff_getElem.2 ⟨decide_eq_true hd, d.val, by simp, by simp, fun j hj => ?_⟩
  simpa using hfirst ⟨j, by omega⟩ hj

/-! ## The index (R67, R68) -/

/-- `v` is `s`, `us` microseconds later, with the counters restarted, no record open, the accounts `c` and the analyzer `o`. -/
structure IndexAt (us : Nat) (c : CaptureStore) (o : OrderAnalyzer) (s v : State) : Prop where
  changes : OnlyChanges [.afe, .cs, .oa] (s.elapse us) v
  cs : v.cs = c
  oa : v.oa = o
  closed : v.afe.openVib = none
  revolution : v.afe.revolution = s.afe.revolution + 1

namespace IndexAt

variable {us : Nat} {x : AngleSample} {c : CaptureStore} {o : OrderAnalyzer} {s v w : State} (h : IndexAt us c o s v)
include h

theorem cu : v.cu = s.cu := h.changes.2 .cu (by decide)

theorem lp : v.lp = (s.elapse us).lp := h.changes.2 .lp (by decide)

theorem now : v.now = (s.elapse us).now := State.now_congr (h.changes.2 .clock (by decide))

theorem pe : v.pe.halt = s.pe.halt ∧ v.pe.phase = s.pe.phase := by
  have hpe : v.pe = (s.elapse us).pe := h.changes.2 .pe (by decide)
  rw [hpe]
  exact ⟨rfl, rfl⟩

theorem active (m : Fin 20) : v.active m = s.active m := State.active_congr (State.cond_congr h.cu m)

theorem halt : v.halt = s.halt := State.halt_congr (by rw [h.cu])

theorem wanted : v.wanted .vib = (o.openWindow.isSome && !s.halt.noise) := by
  show (v.oa.openWindow.isSome && !v.halt.noise) = _
  rw [h.oa, h.halt]

theorem mapWindow (n : Nat) (f : Window → Window) : IndexAt us c (o.mapWindow n f) s (v.mapWindow n f) := by
  have hmapped : OnlyChanges [.oa] v (v.mapWindow n f) :=
    ⟨rfl, fun b hb => by cases b <;> simp [Part.same, State.mapWindow] at hb ⊢⟩
  obtain ⟨hchanges, hcs, hoa, hclosed, hrevolution⟩ := h
  exact ⟨(hchanges.trans hmapped).mono (by decide), hcs, by rw [← hoa]; rfl, hclosed, hrevolution⟩

/-- A boundary that activates nothing and leaves the stack has no more to it (R133, R135). -/
theorem quiet {bs : List Part} (hh : HardWhereSevere s) (hw : OnlyChanges bs v w) (hpe : Part.pe ∉ bs) (hs : w.cu.stack = v.cu.stack)
    (ha : ∀ m, w.active m = true → v.active m = true) :
    react s w = w ∧ OnlyChanges ([.lp, .afe, .cs, .oa] ++ bs) (s.elapse us) (arbitrate w) := by
  have hwpe : w.pe = v.pe := hw.2 .pe hpe
  refine ⟨react_standing (fun m hm => h.active m ▸ ha m hm) (hs.trans (by rw [h.cu])) (by rw [hwpe, h.pe.1]) hh, ?_⟩
  exact ((h.changes.trans hw).trans (onlyChanges_arbitrate w)).mono (by simp; tauto)

/-- A boundary that touches the front end and the store alone. -/
theorem stored (hh : HardWhereSevere s) (hw : OnlyChanges [.afe, .cs] v w) :
    react s w = w ∧ OnlyChanges [.lp, .afe, .cs, .oa] (s.elapse us) (arbitrate w) ∧ LineLeftToArbiter (s.elapse us) (arbitrate w) := by
  have hcu : w.cu = v.cu := hw.2 .cu (by decide)
  have hlp : w.lp = v.lp := hw.2 .lp (by decide)
  obtain ⟨hreact, hchanges⟩ := h.quiet hh hw (by decide) (by rw [hcu]) fun m hm => by rwa [State.active_congr (State.cond_congr hcu m)] at hm
  exact ⟨hreact, hchanges.mono (by decide), lineLeftToArbiter_of_lp (hlp.trans h.lp)⟩

/-- Nothing is captured and nothing dropped. -/
theorem skips (hh : HardWhereSevere s) :
    let t := arbitrate (react s v)
    (OnlyChanges [.lp, .afe, .cs, .oa] (s.elapse us) t ∧ LineLeftToArbiter (s.elapse us) t) ∧ t.afe.openVib = none ∧ t.cs = c ∧ t.oa = o := by
  obtain ⟨hreact, hquiet⟩ := h.stored hh ((OnlyChanges.refl [] v).mono (by simp))
  rw [hreact]
  exact ⟨hquiet, by simp [h.closed], by simp [h.cs], by simp [h.oa]⟩

/-- A drop that starves nothing is counted, and no more (R78, R80). -/
theorem drops (hh : HardWhereSevere s) :
    let t := arbitrate (react s (v.dropRecord .vib false))
    (OnlyChanges [.lp, .afe, .cs, .oa] (s.elapse us) t ∧ LineLeftToArbiter (s.elapse us) t) ∧ t.afe.openVib = none ∧
    t.cs = { c with vib := { c.vib with dropped := count32 c.vib.dropped } } ∧ t.oa = o := by
  obtain ⟨hreact, hquiet⟩ := h.stored hh ((onlyChanges_dropRecord .vib v).mono (by decide))
  have hdropped : (v.dropRecord .vib false).cs = { v.cs with vib := { v.cs.vib with dropped := count32 v.cs.vib.dropped } } := rfl
  rw [hreact]
  refine ⟨hquiet, by simp [h.closed], ?_, by simp [h.oa]⟩
  rw [← h.cs, ← hdropped]
  simp

omit h in
theorem onlyChanges_takenInto (y : Window) (d : Fin 32) : OnlyChanges [.afe, .cs] v (v.takenInto x y d) :=
  ⟨rfl, fun b hb => by cases b <;> simp [Part.same, State.takenInto] at hb ⊢⟩

/-- A RUNNING stream captures its record, and no more happens (R75). -/
theorem captures (hh : HardWhereSevere s) (hs : c.vib.state = .running) (y : Window) (d : Fin 32) :
    let t := arbitrate (react s (v.takenInto x y d))
    (OnlyChanges [.lp, .afe, .cs, .oa] (s.elapse us) t ∧ LineLeftToArbiter (s.elapse us) t) ∧ t.afe.openVib = some d ∧
    t.cs = capturedVib (s.afe.revolution + 1) x y d c ∧ t.oa = o := by
  obtain ⟨hreact, hquiet⟩ := h.stored hh (onlyChanges_takenInto (x := x) y d)
  have hruns : (c.taken (s.afe.revolution + 1) x y d).vib.state = .running := hs
  have hsame : c.taken (s.afe.revolution + 1) x y d = capturedVib (s.afe.revolution + 1) x y d c := by
    rw [← CaptureStore.taken_running, ← hruns]
    rfl
  have hcs : (v.takenInto x y d).cs = c.taken (s.afe.revolution + 1) x y d := by
    rw [← h.revolution, ← h.cs]
    rfl
  rw [hreact]
  exact ⟨hquiet, by simp [State.takenInto], by rw [← hsame, ← hcs]; simp, by simp [State.takenInto, h.oa]⟩

/-- A STARVED stream resumes with its record, its source is no longer asserted, and its notice is raised (R78, R82, R128). -/
theorem resumes (hh : HardWhereSevere s) (hs : c.vib.state = .starved) (y : Window) (d : Fin 32) :
    let t := arbitrate (react s ((v.takenInto x y d).resumeStream .vib true))
    OnlyChanges [.lp, .afe, .cs, .oa, .cu] (s.elapse us) t ∧
    (t.afe.openVib = some d ∧ t.cs = capturedVib (s.afe.revolution + 1) x y d c ∧ t.oa = o) ∧
    (t.cond 13).source = false ∧ OtherConditionsKept 13 s t ∧ t.cu.stack = s.cu.stack ∧
    Announced ⟨.stream .vib, .stream .running c.vib.dropped (t.cs.obtainable .vib) (s.elapse us).now⟩ t := by
  obtain ⟨m, hm⟩ : ∃ m, m = v.takenInto x y d := ⟨_, rfl⟩
  have hcapture : OnlyChanges [.afe, .cs] v m := hm ▸ onlyChanges_takenInto y d
  have hcu : m.cu = v.cu := hcapture.2 .cu (by decide)
  have hcs : m.cs = c.taken (s.afe.revolution + 1) x y d := by
    rw [← h.revolution, ← h.cs, hm]
    rfl
  have hstarved : (m.stream .vib).state = .starved := by
    show m.cs.vib.state = .starved
    rw [hcs]
    exact hs
  have hnow : m.now = (s.elapse us).now := (State.now_congr (hcapture.2 .clock (by decide))).trans h.now
  have hoa : m.oa = o := (hcapture.2 .oa (by decide)).trans h.oa
  have hopen : m.afe.openVib = some d := by rw [hm]; rfl
  rw [← hm]
  have hresume := State.resumeStream_starved hstarved
  obtain ⟨w, hw⟩ : ∃ w, w = m.resumeStream .vib true := ⟨_, rfl⟩
  have hchanges : OnlyChanges [.lp, .cs, .cu] m w :=
    hw ▸ ⟨by simp, fun b hb => by cases b <;> simp [Part.same] at hb ⊢⟩
  have hwcs : w.cs = capturedVib (s.afe.revolution + 1) x y d c := by
    rw [← CaptureStore.taken_running, ← hcs, hw, hresume]
    simp [State.setStream, State.stream, CaptureStore.stream]
  have hwcu : w.cu = (m.setSource 13 false).cu := by simp [hw, hresume, State.setStream, starvedCondition]
  have hnotice : ⟨.stream .vib, .stream .running c.vib.dropped (w.cs.obtainable .vib) (s.elapse us).now⟩ ∈ w.lp.notices := by
    have hdropped : (m.stream .vib).dropped = c.vib.dropped := by
      show m.cs.vib.dropped = _
      rw [hcs]
      rfl
    obtain ⟨p, hp⟩ : ∃ p, p = (m.setSource (starvedCondition .vib) false).setStream .vib { m.stream .vib with state := .running } := ⟨_, rfl⟩
    have hpstream : p.stream .vib = { m.stream .vib with state := .running } := by rw [hp, State.stream_setStream, if_pos rfl]
    have hpcs : w.cs = p.cs := by rw [hw, hresume, hp]; simp [State.streamNotice]
    have hpnow : p.now = m.now := State.now_congr (by simp [hp])
    have hraised : w = p.raise (.stream .vib) (.stream .running c.vib.dropped (w.cs.obtainable .vib) (s.elapse us).now) := by
      rw [hpcs, hw, hresume, ← hp, State.streamNotice, hpstream, hpnow, hnow, hdropped]
    have hlp := congrArg (fun u : State => u.lp.notices) hraised
    rw [hlp]
    exact mem_raise_self _ _ _
  rw [← hw]
  obtain ⟨hreact, hall⟩ := h.quiet hh (hcapture.trans hchanges) (by decide) (by simp [hwcu, hcu]) fun k hk => by
    rw [State.active_congr (State.cond_congr hwcu k)] at hk
    rw [← State.active_congr (State.cond_congr hcu k)]
    exact State.active_setSource_false hk
  rw [hreact]
  have hwoa : w.oa = o := (hchanges.2 .oa (by decide)).trans hoa
  have hwafe : w.afe = m.afe := hchanges.2 .afe (by decide)
  have harb : (arbitrate w).cs = w.cs := by simp
  refine ⟨hall.mono (by decide), ⟨by simp [hwafe, hopen], by rw [harb, hwcs], by simp [hwoa]⟩, ?_, fun k hk => ?_, by simp [hwcu, hcu, h.cu], ?_⟩
  · rw [cond_arbitrate, State.cond_congr hwcu, State.cond_setSource_judged]
    rfl
  · rw [cond_arbitrate, State.cond_congr hwcu, State.cond_setSource_ne hk, State.cond_congr hcu, State.cond_congr h.cu]
  · rw [harb]
    exact announced_arbitrate hnotice

/-! ### A RUNNING stream starves (R76) -/

theorem starved_cond : (v.dropRecord .vib true).cond 13 = judged true true (s.active 13) (s.elapse us).now (s.cond 13) := by
  have hcond := State.cond_dropRecord_starves .vib v
  rw [show starvedCondition .vib = 13 from rfl, h.active, State.cond_congr h.cu, h.now] at hcond
  exact hcond

theorem starved_stack : (v.dropRecord .vib true).cu.stack = s.cu.stack := by
  rw [(v.dropRecord_starves_parts .vib).2.1, ← h.cu]
  simp

/-- The starvation is announced, whatever follows in the event (R82). -/
theorem starves_announced :
    Announced ⟨.stream .vib, .stream .starved (count32 c.vib.dropped) (starvedStream .vib c).2 (s.elapse us).now⟩
      (arbitrate (react s (v.dropRecord .vib true))) := by
  have hnotice := v.dropRecord_announces .vib
  rw [State.stream, h.cs, h.now] at hnotice
  exact announced_arbitrate ((starvationKept_react h.starved_stack).notices .vib _ rfl hnotice)

/-- Where its condition was active already, a starvation has no more to it (R133). -/
theorem starves_again (hh : HardWhereSevere s) (ha : s.active 13 = true) :
    let t := arbitrate (react s (v.dropRecord .vib true))
    OnlyChanges [.lp, .afe, .cs, .oa, .cu] (s.elapse us) t ∧
    (t.afe.openVib = none ∧ t.cs = { c with vib := { c.vib with state := .starved, dropped := count32 c.vib.dropped } } ∧ t.oa = o) ∧
    (t.cond 13).source = true ∧ t.cu.stack = s.cu.stack ∧
    Announced ⟨.stream .vib, .stream .starved (count32 c.vib.dropped) (t.cs.obtainable .vib) (s.elapse us).now⟩ t := by
  have hannounced := h.starves_announced
  obtain ⟨hcs, hcu, hchanges⟩ := v.dropRecord_starves_parts .vib
  have hstack : (v.dropRecord .vib true).cu.stack = v.cu.stack := by rw [h.starved_stack, h.cu]
  obtain ⟨hreact, hall⟩ := h.quiet hh hchanges (by decide) hstack fun k hk => by
    rw [State.active_congr (State.cond_congr hcu k)] at hk
    exact State.active_of_setSource (.inl ((h.active _).trans ha)) hk
  have hwcs : (arbitrate (v.dropRecord .vib true)).cs = c.setStream .vib (starvedStream .vib c).1 := by
    rw [← h.cs, ← hcs]
    simp
  rw [hreact] at hannounced ⊢
  refine ⟨hall.mono (by decide), ⟨by simp [h.closed], hwcs, by simp [h.oa]⟩, ?_, by simp [h.cu], ?_⟩
  · rw [cond_arbitrate, h.starved_cond]
    rfl
  · rw [hwcs]
    exact hannounced

/-- Where its condition becomes active, a starvation latches it and has the taking check (R129, R133). -/
theorem starves_first (ha : s.active 13 = false) :
    let t := arbitrate (react s (v.dropRecord .vib true))
    (t.cond 13).latch = true ∧ (t.cond 13).lastActive = some (s.elapse us).now ∧
    TakingCheckMade (raisedAt us 13 { s.cond 13 with source := true, latch := true, lastActive := some (s.elapse us).now } s) t := by
  obtain ⟨-, hcu, hchanges⟩ := v.dropRecord_starves_parts .vib
  have hcond := h.starved_cond
  have hjudged : judged true true (s.active 13) (s.elapse us).now (s.cond 13) =
      { s.cond 13 with source := true, latch := true, lastActive := some (s.elapse us).now } := by
    rw [ha]
    simp [judged]
  rw [hjudged] at hcond
  obtain ⟨hlatch, hlast⟩ := (starvationKept_react h.starved_stack).latch 13 (by decide)
  rw [hcond] at hlatch hlast
  have hactive : (v.dropRecord .vib true).active 13 = true := by rw [State.active_latched rfl, hcond]
  refine ⟨by rw [cond_arbitrate, hlatch], by rw [cond_arbitrate, hlast], (takingCheckMade_react 13 ha hactive).congr ?_ ?_ (by simp) (by simp)⟩
  · have hrecord : (v.setSource 13 true).cond 13 = { s.cond 13 with source := true, latch := true, lastActive := some (s.elapse us).now } := by
      rw [← hcond, State.cond_congr hcu]
      rfl
    rw [hcu, show starvedCondition .vib = 13 from rfl, State.setSource_cu, hrecord, h.cu]
    rfl
  · have hdrop : (v.dropRecord .vib true).clockUs = v.clockUs := hchanges.2 .clock (by decide)
    exact (hdrop.trans (h.changes.2 .clock (by decide))).symm

/-- The stream that has just starved. -/
theorem starving (b : Bool) (hb : b = true → v.wanted .vib = true) :
    VibStarving b { c.vib with dropped := count32 c.vib.dropped } c.vibDescs (v.dropRecord .vib true) := by
  obtain ⟨hcs, -, hchanges⟩ := v.dropRecord_starves_parts .vib
  have hafe : (v.dropRecord .vib true).afe = v.afe := hchanges.2 .afe (by decide)
  have hoa : (v.dropRecord .vib true).oa = v.oa := hchanges.2 .oa (by decide)
  have hwanted : (v.dropRecord .vib true).wanted .vib = v.wanted .vib :=
    State.wanted_vib_congr (by rw [hoa]) (by rw [h.starved_stack, h.cu])
  refine ⟨by rw [hafe, h.closed], by rw [hcs, h.cs]; rfl, .inl ?_, fun hs hnot => ?_⟩
  · rw [State.stream, hcs, h.cs]
    rfl
  · rw [hwanted, hb hs] at hnot
    exact nomatch hnot

/-- What the halts that may follow a starvation leave of the run stand's capture (R62, R74, R87, R88). -/
theorem starves_ends :
    let t := arbitrate (react s (v.dropRecord .vib true))
    t.afe.openVib = none ∧ t.oa.queue = o.queue ∧ t.oa.current = o.current ∧ t.cs.vibDescs = c.vibDescs ∧
    (s.halt.noise = false → v.wanted .vib = true → t.stream .vib = { c.vib with
      state := if t.wanted .vib then .starved else .idle, dropped := count32 c.vib.dropped }) ∧
    (s.pe.phase ≠ .stopping → t.oa.windows.map (fun v => (v.number, v.dropped)) = o.windows.map fun v => (v.number, v.dropped)) := by
  obtain ⟨w, hw⟩ : ∃ w, w = v.dropRecord .vib true := ⟨_, rfl⟩
  obtain ⟨-, -, hchanges⟩ := v.dropRecord_starves_parts .vib
  rw [← hw] at hchanges ⊢
  have hstack : w.cu.stack = s.cu.stack := hw ▸ h.starved_stack
  have hoa : w.oa = o := (hchanges.2 .oa (by decide)).trans h.oa
  have hphase : w.pe.phase = s.pe.phase := by rw [show w.pe = v.pe from hchanges.2 .pe (by decide), h.pe.2]
  obtain ⟨hclosed, hdescs, -, -⟩ := (hw ▸ h.starving false (fun hf => nomatch hf)).reacts hstack
  refine ⟨by simpa using hclosed, by simp [hoa], by simp [hoa], by simpa using hdescs, fun hn hwanted => ?_, fun hp => ?_⟩
  · have hsynced := (hw ▸ h.starving true (fun _ => hwanted)).reacts_synced hstack hn
    have hwant : (arbitrate (react s w)).wanted .vib = (react s w).wanted .vib := State.wanted_vib_congr (by simp) (by simp)
    rw [State.stream_congr (s := react s w) (by simp), hwant, hsynced.stream_eq]
  · obtain ⟨-, hdrops⟩ := dropsKept_react hstack (by rwa [hphase])
    rw [hoa] at hdrops
    simpa [dropCounts] using hdrops

end IndexAt

end Sys2Proof.Machine
end

