-- ==== Sys2Proof/Proofs/EncoderIndex.lean ====
section
/-! ENCODER_INDEX: the close and delivery of the open record, and the boundary that follows (R67, R68, R75, R76, R89, R90, R95). -/

namespace Sys2Proof.Machine

/-! ## The boundary that an index makes -/

section
variable {us : Nat} {x : AngleSample} {c : CaptureStore} {o : OrderAnalyzer} {s v : State}

theorem IndexAt.boundaryMade_closed (h : IndexAt us c o s v) (hh : HardWhereSevere s) (ho : o.openWindow = none) :
    let t := arbitrate (react s (v.boundaryVib x))
    (OnlyChanges [.lp, .afe, .cs, .oa] (s.elapse us) t ∧ LineLeftToArbiter (s.elapse us) t) ∧ t.afe.openVib = none ∧ t.cs = c ∧ t.oa = o := by
  rw [State.boundaryVib_closed (by rw [h.oa, ho])]
  exact h.skips hh

/-- What the boundary of the index leaves (R75, R76, R78, R80, R95), where no record of the event ends the unit's run. -/
theorem boundaryMade (hh : HardWhereSevere s)
    (hidx : o.windows ≠ [] ∨ NoUnitIn .running s → ∃ v, IndexAt us c o s v ∧ s.index us x = v.boundaryVib x) :
    BoundaryMade us x c o s (arbitrate (react s (s.index us x))) := by
  refine ⟨fun ho hw => ?_, fun w ho => ?_⟩
  · obtain ⟨v, h, hv⟩ := hidx hw
    rw [hv]
    exact h.boundaryMade_closed hh ho
  have hmem : w ∈ o.windows := List.mem_of_find?_eq_some ho
  obtain ⟨v, h, hv⟩ := hidx (.inl (List.ne_nil_of_mem hmem))
  have hopen : v.oa.openWindow = some w := by rw [h.oa, ho]
  have hstate : (v.stream .vib).state = c.vib.state := by rw [State.stream, h.cs]; rfl
  have hplan : (v.stream .vib).plan = c.vib.plan := by rw [State.stream, h.cs]; rfl
  have hobtain : v.cs.obtainable .vib = c.obtainable .vib := by rw [h.cs]
  have hfree : v.cs.freeVib = c.freeVib := by rw [h.cs]
  have hwanted : v.wanted .vib = !s.halt.noise := by rw [h.wanted, ho]; rfl
  have hcounted : IndexAt us c (o.mapWindow w.number Window.countDrop) s (v.mapWindow w.number Window.countDrop) := h.mapWindow _ _
  have hcwanted : (v.mapWindow w.number Window.countDrop).wanted .vib = v.wanted .vib := by
    have hsame : ((o.mapWindow w.number Window.countDrop).openWindow).isSome = o.openWindow.isSome := by
      have hstates : ∀ u : Window, (if u.number = w.number then u.countDrop else u).state = u.state := fun u => by split <;> rfl
      simp only [OrderAnalyzer.openWindow, OrderAnalyzer.mapWindow, List.find?_map, Option.isSome_map, Function.comp_def, hstates]
    rw [hcounted.wanted, h.wanted, hsame]
  rw [hv]
  generalize hz : v.boundaryVib x = z
  intro k noneFree isFirst need captured dropped
  have short : ∀ room : Nat, noneFree ∨ c.obtainable .vib < room → ¬(v.cs.freeVib.isSome = true ∧ room ≤ v.cs.obtainable .vib) := by
    rintro room hk ⟨hsome, hroom⟩
    rw [hfree] at hsome
    rw [hobtain] at hroom
    rcases hk with hk | hk
    · rw [CaptureStore.freeVib_none.2 hk] at hsome
      exact nomatch hsome
    · omega
  have starves : c.vib.state = .running → noneFree ∨ c.obtainable .vib < k →
      z = (v.mapWindow w.number Window.countDrop).dropRecord .vib true := fun hs hk => hz.symm.trans <|
    State.boundaryVib_drops hopen (by rw [State.boundary_running (hstate.trans hs), if_neg (short k hk)])
  refine ⟨fun hs => ?_, fun hs hn => ?_, fun hs => ⟨fun d hd hk => ?_, fun hk => ⟨fun ha => ?_, fun ha => ?_⟩⟩,
    fun hs => ⟨fun d hd hk => ?_, fun hk => ?_⟩⟩
  · have hskips : v.boundary .vib w.spec.channels.length v.cs.freeVib.isSome = .nothing := by
      rcases hs with hs | ⟨hs, hn⟩
      · exact State.boundary_idle (hstate.trans hs)
      · rw [hn] at hwanted
        simp only [State.boundary, hstate.trans hs, hwanted]
        rfl
    obtain rfl := hz.symm.trans (State.boundaryVib_skips hopen hskips)
    exact h.skips hh
  · rw [hn] at hwanted
    obtain rfl := hz.symm.trans (State.boundaryVib_drops hopen (State.boundary_waiting (hstate.trans hs) hwanted))
    obtain ⟨hquiet, hclosed, hcs, hoa⟩ := hcounted.drops hh
    exact ⟨hquiet, hclosed, by rw [hcs, ← hs], hoa⟩
  · obtain ⟨hdfree, hbefore⟩ := hd
    have hfirst : v.cs.freeVib = some d := by rw [hfree, CaptureStore.freeVib_first hdfree hbefore]
    obtain rfl := hz.symm.trans (State.boundaryVib_captures (resumed := false) hopen hfirst
      (by rw [State.boundary_running (hstate.trans hs), hfirst, hobtain, if_pos ⟨rfl, hk⟩]))
    exact h.captures hh hs w d
  · obtain rfl := starves hs hk
    obtain ⟨hchanges, ⟨hclosed, hcs, hoa⟩, hsource, hstack, hannounced⟩ := hcounted.starves_again hh ha
    exact ⟨hchanges, ⟨hclosed, hcs, hoa⟩, hsource, hstack, hannounced⟩
  · obtain rfl := starves hs hk
    obtain ⟨hlatch, hlast, htaking⟩ := hcounted.starves_first ha
    obtain ⟨hclosed, hqueue, hcurrent, hdescs, hstream, hdrops⟩ := hcounted.starves_ends
    refine ⟨hlatch, hlast, hclosed, hqueue, hcurrent, hdescs, fun hn => ?_, fun hp => ?_, hcounted.starves_announced, htaking⟩
    · exact hstream hn (by rw [hcwanted, hwanted, hn]; rfl)
    · rw [hdrops hp]
      simp only [OrderAnalyzer.mapWindow, List.map_map]
      refine List.map_congr_left fun u _ => ?_
      dsimp only [Function.comp]
      split <;> rfl
  · obtain ⟨hdfree, hbefore⟩ := hd
    have hfirst : v.cs.freeVib = some d := by rw [hfree, CaptureStore.freeVib_first hdfree hbefore]
    have hneed : (v.stream .vib).plan.resumeNeed k ≤ v.cs.obtainable .vib := by rw [hplan, hobtain]; exact hk
    obtain rfl := hz.symm.trans (State.boundaryVib_captures (resumed := true) hopen hfirst
      (by rw [State.boundary_starved (hstate.trans hs), hfirst, if_pos ⟨rfl, hneed⟩]))
    obtain ⟨hchanges, hcaptured, hrest⟩ := h.resumes hh hs w d
    exact ⟨hchanges, hcaptured, hrest⟩
  · have hneed : (v.stream .vib).plan.resumeNeed k = need := by rw [hplan]; rfl
    obtain rfl := hz.symm.trans (State.boundaryVib_drops hopen
      (by rw [State.boundary_starved (hstate.trans hs), hneed, if_neg (short need hk)]))
    obtain ⟨hquiet, hclosed, hcs, hoa⟩ := hcounted.drops hh
    exact ⟨hquiet, hclosed, by rw [hcs, ← hs], hoa⟩

end

/-! ## The close and the delivery of the open record (R68, R89, R95) -/

/-- `a` is `s`, `us` microseconds later, with no record open, the accounts `c` and the analyzer `o`. -/
structure ClosedAt (us : Nat) (c : CaptureStore) (o : OrderAnalyzer) (s a : State) : Prop where
  changes : OnlyChanges [.afe, .cs, .oa] (s.elapse us) a
  cs : a.cs = c
  oa : a.oa = o
  closed : a.afe.openVib = none
  revolution : a.afe.revolution = s.afe.revolution

namespace ClosedAt

variable {us : Nat} {x : AngleSample} {c : CaptureStore} {o : OrderAnalyzer} {s a : State}

/-- The record that goes on ends no unit's run while a window is left, or while none runs (R11). -/
theorem goes_on (h : ClosedAt us c o s a) (hw : o.windows ≠ [] ∨ NoUnitIn .running s) : a.checkRunDone = a := by
  rcases hw with hw | hw
  · exact State.checkRunDone_windows (by rwa [h.oa])
  · have hut : a.ut = (s.elapse us).ut := h.changes.2 .ut (by decide)
    refine State.checkRunDone_idle fun j r hj => hw j r ?_
    rwa [hut, State.elapse_records] at hj

theorem indexAt (h : ClosedAt us c o s a) : IndexAt us c o s a.countIndex := by
  have hcount : OnlyChanges [.afe] a a.countIndex := ⟨by simp, fun b hb => by cases b <;> simp [Part.same] at hb ⊢⟩
  obtain ⟨hchanges, hcs, hoa, hclosed, hrevolution⟩ := h
  refine ⟨(hchanges.trans hcount).mono (by decide), by simp [hcs], by simp [hoa], by simp [hclosed], ?_⟩
  rw [← hrevolution]
  rfl

theorem boundary (h : ClosedAt us c o s (s.elapse us).closeVib) (hh : HardWhereSevere s) :
    BoundaryMade us x c o s (arbitrate (react s (s.index us x))) :=
  boundaryMade hh fun hw => ⟨(s.elapse us).closeVib.countIndex, h.indexAt, by rw [State.index, h.goes_on hw]⟩

end ClosedAt

theorem closedAt_none (us : Nat) {s : State} (h : s.afe.openVib = none) : ClosedAt us s.cs s.oa s (s.elapse us).closeVib := by
  have hsame : (s.elapse us).closeVib = s.elapse us := by
    have helapsed : (s.elapse us).afe.openVib = none := h
    rw [State.closeVib, helapsed]
  rw [hsame]
  exact ⟨(OnlyChanges.refl [] _).mono (by simp), rfl, rfl, h, rfl⟩

/-- A record as its index closes it (R68). -/
def VibDescriptor.closedBy (a : FrontEnd) (x : VibDescriptor) : VibDescriptor :=
  { x with state := .held, direction := a.direction, periodUs := a.periodUs.getD 0, pulses := a.pulses }

/-- The machine whose open record, of descriptor `d`, is closed and not yet delivered. -/
def State.vibHeld (d : Fin 32) (s : State) : State :=
  (s.setAfe { s.afe with openVib := none }).setCs
    { s.cs with vibDescs := s.cs.vibDescs.set d ((s.cs.vibDescs[d]).closedBy s.afe) }

theorem State.closeVib_open {s : State} {d : Fin 32} (h : s.afe.openVib = some d) : s.closeVib = (s.vibHeld d).deliverVib d := by
  rw [State.closeVib, h]
  rfl

theorem State.vibHeld_desc (d : Fin 32) (s : State) : (s.vibHeld d).cs.vibDescs[d] = (s.cs.vibDescs[d]).closedBy s.afe := by
  simp [State.vibHeld]

/-- The fields of the record that closes `us` microseconds after `s` (R67, R68). -/
theorem VibDescriptor.closedBy_elapse (us : Nat) (s : State) (x : VibDescriptor) : x.closedBy (s.elapse us).afe =
    { x with
      state := .held, pulses := s.afe.pulses, periodUs := (s.afe.periodUs.map (· + us)).getD 0
      direction := if s.afe.sawReverse = false then .fwd else if s.afe.sawForward = false then .rev else .mixed } := by
  have hdirection : (s.elapse us).afe.direction =
      if s.afe.sawReverse = false then .fwd else if s.afe.sawForward = false then .rev else .mixed := by
    show (if ¬s.afe.sawReverse then RevDirection.fwd else if ¬s.afe.sawForward then .rev else .mixed) = _
    simp
  simp only [VibDescriptor.closedBy, hdirection]
  rfl

/-! ### The delivery, by the state of the window -/

section
variable {d : Fin 32} {w : Window} {m : State}

/-- A window that holds one record more. -/
def Window.holdsMore (w : Window) : Window := { w with held := w.held + 1 }

/-- The record of descriptor `d` joins the tail of the queue, and is held by the windows of number `n` (R89). -/
def State.queued (d : Fin 32) (n : Nat) (m : State) : State :=
  m.setOa { m.oa.mapWindow n Window.holdsMore with queue := m.oa.queue ++ [d] }

theorem State.deliverVib_queued (hw : m.oa.window (m.cs.vibDescs[d]).window = some w)
    (hs : w.state = .opened ∨ w.state = .paused ∨ w.state = .closing) : m.deliverVib d = (m.queued d w.number).takeHeads := by
  rw [State.deliverVib, hw]
  dsimp only
  rcases hs with hs | hs | hs <;> rw [hs] <;> rfl

theorem State.deliverVib_complete (hw : m.oa.window (m.cs.vibDescs[d]).window = some w) (hs : w.state = .complete) :
    m.deliverVib d = (m.mapWindow w.number fun v => { v with released := count16 v.released }).releaseVib d := by
  rw [State.deliverVib, hw]
  dsimp only
  rw [hs]

theorem State.queued_window (hw : m.oa.window (m.cs.vibDescs[d]).window = some w) :
    (m.queued d w.number).oa.window ((m.queued d w.number).cs.vibDescs[d]).window = some w.holdsMore := by
  have hfound := window_map (oa := m.oa) (oa' := (m.queued d w.number).oa)
    (g := fun v => if v.number = w.number then v.holdsMore else v) (fun v => by split <;> rfl) rfl (m.cs.vibDescs[d]).window
  rw [hw, Option.map_some, if_pos rfl] at hfound
  exact hfound

/-- A busy Order Analyzer leaves the record in the queue (R89). -/
theorem State.delivers_behind {e : Fin 32} (hw : m.oa.window (m.cs.vibDescs[d]).window = some w)
    (hs : w.state = .opened ∨ w.state = .paused ∨ w.state = .closing) (he : m.oa.current = some e) :
    m.deliverVib d = m.queued d w.number := by
  rw [State.deliverVib_queued hw hs]
  exact State.takeHeads_none (.inr (by rw [show (m.queued d w.number).oa.current = m.oa.current from rfl, he]; rfl))

/-- A free Order Analyzer takes the record that passes (R89, R90). -/
theorem State.delivers_accepted (hw : m.oa.window (m.cs.vibDescs[d]).window = some w)
    (hs : w.state = .opened ∨ w.state = .paused ∨ w.state = .closing) (hc : m.oa.current = none) (hq : m.oa.queue = [])
    (hp : rejectReason (m.cs.vibDescs[d]) w.spec = none) :
    m.deliverVib d = m.setOa ⟨[], some d, (m.oa.mapWindow w.number Window.holdsMore).windows⟩ := by
  have hqueue : (m.queued d w.number).oa.queue = [d] := by
    show m.oa.queue ++ [d] = [d]
    rw [hq]
    rfl
  rw [State.deliverVib_queued hw hs, State.takeHeads_accepts (s := m.queued d w.number) hc hqueue (State.queued_window hw) hp]
  rfl

/-- A free Order Analyzer rejects and releases the record that does not (R90). -/
theorem State.delivers_rejected {why : Reject} (hn : NoPlanWaits m) (hw : m.oa.window (m.cs.vibDescs[d]).window = some w)
    (hs : w.state = .opened ∨ w.state = .paused) (hc : m.oa.current = none) (hq : m.oa.queue = [])
    (hp : rejectReason (m.cs.vibDescs[d]) w.spec = some why) : m.deliverVib d = (m.queued d w.number).headRejected d w.number why := by
  have hqueue : (m.queued d w.number).oa.queue = [d] := by
    show m.oa.queue ++ [d] = [d]
    rw [hq]
    rfl
  have hopen : w.holdsMore.state ≠ .closing := by
    show w.state ≠ .closing
    rcases hs with hs | hs <;> rw [hs] <;> decide
  rw [State.deliverVib_queued hw (by tauto)]
  exact State.takeHeads_rejects (s := m.queued d w.number) (v := w.holdsMore) (hn.congr rfl) hc hqueue (State.queued_window hw) hp hopen

end

/-! ### The accounts and the analyzer after the delivery -/

theorem onlyChanges_vibHeld (d : Fin 32) (u : State) : OnlyChanges [.afe, .cs] u (u.vibHeld d) :=
  ⟨rfl, fun b hb => by cases b <;> simp [Part.same, State.vibHeld] at hb ⊢⟩

/-- What follows the close of the record in descriptor `d` in the store and in the analyzer. -/
theorem closedAt_vibHeld {us : Nat} {d : Fin 32} {c : CaptureStore} {o : OrderAnalyzer} {s a : State}
    (h : OnlyChanges [.cs, .oa] ((s.elapse us).vibHeld d) a) (hcs : a.cs = c) (hoa : a.oa = o) : ClosedAt us c o s a := by
  have hafe : a.afe = ((s.elapse us).vibHeld d).afe := h.2 .afe (by decide)
  exact ⟨((onlyChanges_vibHeld d _).trans h).mono (by decide), hcs, hoa, by rw [hafe]; rfl, by rw [hafe]; rfl⟩

/-- The release of the record that has just closed (R77). -/
theorem CaptureStore.released_set (d : Fin 32) (y : VibDescriptor) (c : CaptureStore) :
    ({ c with vibDescs := c.vibDescs.set d y } : CaptureStore).released d =
      { c with
        vib := { c.vib with heldRes := c.vib.heldRes - y.fromRes, heldPool := c.vib.heldPool - y.fromPool }
        vibDescs := c.vibDescs.set d ⟨.free, 0, 0, 0, 0, .fwd, 0, 0, false, []⟩ } := by
  simp only [CaptureStore.released, Fin.getElem_fin, Vector.getElem_set_self, Vector.set_set]
  rfl

/-- The count of the one window of its number, after it has rejected the record it had joined to what it holds. -/
theorem rejected_alone {w : Window} {ws : List Window} (why : Reject) (hone : ∀ v ∈ ws, v.number = w.number → v = w) :
    (ws.map fun v => if v.number = w.number then v.holdsMore else v).map (fun v => if v.number = w.number then v.rejected why else v) =
      ws.map fun v => if v.number = w.number then w.holdsMore.rejected why else v := by
  rw [List.map_map]
  refine List.map_congr_left fun v hv => ?_
  dsimp only [Function.comp]
  by_cases hn : v.number = w.number
  · obtain rfl := hone v hv hn
    have hnumber : v.holdsMore.number = v.number := rfl
    simp [hnumber]
  · simp [hn]

/-! ## What every index does (R67) -/

theorem openRecord_boundaryVib (x : AngleSample) (s : State) : OnlyOpenRecord s (s.boundaryVib x) := by
  unfold State.boundaryVib
  split
  · exact .of_afe rfl
  · split
    · exact .of_afe rfl
    · unfold State.captureVib
      split
      · exact .of_afe rfl
      · next d _ => exact ⟨some d, by simp⟩
    · exact .of_afe (by simp)

theorem openRecord_closeVib (s : State) : OnlyOpenRecord s s.closeVib := by
  unfold State.closeVib
  split
  · exact .of_afe rfl
  · exact ⟨none, by simp⟩

/-- The counters restart, and the revolution is the next one (R67). -/
theorem index_counters (us : Nat) (x : AngleSample) (s : State) : let t := arbitrate (react s (s.index us x))
    t.afe.pulses = 0 ∧ t.afe.revolution = s.afe.revolution + 1 ∧ t.afe.periodUs = some 0 ∧
    t.afe.sawForward = false ∧ t.afe.sawReverse = false := by
  obtain ⟨o, ho⟩ := openRecord_react (s := s) (w := s.index us x) (by simp)
  obtain ⟨p, hp⟩ := openRecord_boundaryVib x (((s.elapse us).closeVib).checkRunDone.countIndex)
  have hindex : (s.index us x).afe = _ := hp
  simp [ho, hindex, State.countIndex]

theorem index_frame (us : Nat) (x : AngleSample) (s : State) : let t := arbitrate (react s (s.index us x))
    HoldingKept s t ∧ OnlyChanges [.clock, .lp, .ut, .pe, .afe, .cs, .oa, .lkc, .cu, .reports] s t ∧ t.clockUs = s.clockUs + us := by
  refine ⟨by simp [HoldingKept], ⟨by simp, fun b hb => ?_⟩, by simp [State.index]⟩
  cases b <;> simp [Part.same] at hb ⊢

/-- Settles O32: the counters, then the boundary on what the close and the delivery of the open record have left. -/
theorem indexClosesARecordAndMakesTheBoundary : Obligations.IndexClosesARecordAndMakesTheBoundary := by
  intro us x s
  obtain ⟨hholding, hchanges, hclock⟩ := index_frame us x s
  obtain ⟨hpulses, hrevolution, hperiod, hforward, hreverse⟩ := index_counters us x s
  refine ⟨_, rfl, hholding, hchanges, hclock, hpulses, hrevolution, hperiod, hforward, hreverse,
    fun hh ho => (closedAt_none us ho).boundary hh, fun hh d w ho hw => ?_⟩
  intro y closed released changed joined
  obtain ⟨m, hm⟩ : ∃ m, m = (s.elapse us).vibHeld d := ⟨_, rfl⟩
  have hdelivers : (s.elapse us).closeVib = m.deliverVib d := by
    rw [hm]
    exact State.closeVib_open (s := s.elapse us) ho
  have hdesc : m.cs.vibDescs[d] = y := by
    rw [hm, State.vibHeld_desc]
    exact VibDescriptor.closedBy_elapse us s _
  have hcs : m.cs = closed := by
    rw [hm]
    show ({ s.cs with vibDescs := s.cs.vibDescs.set d ((s.cs.vibDescs[d]).closedBy (s.elapse us).afe) } : CaptureStore) = _
    rw [VibDescriptor.closedBy_elapse]
  have hoa : m.oa = s.oa := by rw [hm]; rfl
  have hfound : m.oa.window (m.cs.vibDescs[d]).window = some w := by rw [hdesc, hoa]; exact hw
  have hreleased : m.cs.released d = released := by
    rw [hcs]
    exact CaptureStore.released_set d y s.cs
  have hnoplan : NoPlanWaits s → NoPlanWaits m := fun hn st => by
    have hstream : m.stream st = s.stream st := by
      rw [hm]
      cases st <;> rfl
    rw [hstream]
    exact hn st
  have made : ∀ {a : State} {c : CaptureStore} {o : OrderAnalyzer}, m.deliverVib d = a → OnlyChanges [.cs, .oa] m a → a.cs = c → a.oa = o →
      BoundaryMade us x c o s (arbitrate (react s (s.index us x))) := fun ha hch hac hao => by
    refine ClosedAt.boundary ?_ hh
    rw [hdelivers, ha]
    exact closedAt_vibHeld (by rwa [← hm]) hac hao
  refine ⟨fun hs => ⟨fun e he => ?_, fun hc hq hp => ?_, fun hc hq hopen hp hn hone => ?_⟩, fun hs hn => ?_⟩
  · exact made (State.delivers_behind hfound hs (by rw [hoa, he])) ⟨rfl, fun b hb => by cases b <;> simp [Part.same, State.queued] at hb ⊢⟩ hcs
      (by simp only [State.queued, State.setOa_oa, OrderAnalyzer.mapWindow, hoa, he]; rfl)
  · have hreason : rejectReason (m.cs.vibDescs[d]) w.spec = none := by
      rw [hdesc]
      rcases passes_or_rejected y w.spec with ⟨-, h⟩ | ⟨h, -⟩
      · exact h
      · exact absurd hp h
    exact made (State.delivers_accepted hfound hs (by rw [hoa, hc]) (by rw [hoa, hq]) hreason)
      ⟨rfl, fun b hb => by cases b <;> simp [Part.same] at hb ⊢⟩ hcs (by simp only [State.setOa_oa, OrderAnalyzer.mapWindow, hoa]; rfl)
  · rcases passes_or_rejected y w.spec with ⟨h, -⟩ | ⟨-, why, hreason, hrejection⟩
    · exact absurd h hp
    · rw [← hdesc] at hreason
      refine ⟨w.holdsMore.rejected why, hrejection _ rfl, ?_⟩
      refine made (State.delivers_rejected (hnoplan hn) hfound (by tauto) (by rw [hoa, hc]) (by rw [hoa, hq]) hreason)
        ⟨rfl, fun b hb => by cases b <;> simp [Part.same, State.headRejected, State.queued] at hb ⊢⟩ hreleased ?_
      have hwindows := rejected_alone why hone
      simp only [State.headRejected, State.queued, State.setCs_oa, State.setOa_oa, OrderAnalyzer.mapWindow, hoa]
      rw [hwindows]
  · have hreleases := State.releaseVib_eq (s := m.mapWindow w.number fun v => { v with released := count16 v.released }) ((hnoplan hn).congr rfl) d
    exact made ((State.deliverVib_complete hfound hs).trans hreleases)
      ⟨rfl, fun b hb => by cases b <;> simp [Part.same, State.mapWindow] at hb ⊢⟩ hreleased
      (by simp only [State.mapWindow, OrderAnalyzer.mapWindow, State.setCs_oa, State.setOa_oa, hoa]; rfl)

end Sys2Proof.Machine
end

