-- ==== Sys2Proof/Proofs/SilenceBlind.lean ====
section
/-! The line silence timer is armed and disarmed, and never read: what the blocks do with a command is the same whatever the timer holds
(R167). Here the functions that leave the timer; those that set it follow in SilenceAlike. -/

namespace Sys2Proof.Machine

/-- The machine with another state of the line silence timer. -/
def State.withSilence (q : Silence) (s : State) : State := s.setLp { s.lp with silence := q }

section
variable (q : Silence) (s : State)

/-! ## What does not see the timer -/

@[simp] theorem State.withSilence_frame :
    (s.withSilence q).pending = s.pending ∧ (s.withSilence q).clockUs = s.clockUs ∧ (s.withSilence q).freeCount = s.freeCount ∧
    (s.withSilence q).lines = s.lines ∧ (s.withSilence q).ut = s.ut ∧ (s.withSilence q).rs = s.rs ∧ (s.withSilence q).pe = s.pe ∧
    (s.withSilence q).afe = s.afe ∧ (s.withSilence q).cs = s.cs ∧ (s.withSilence q).oa = s.oa ∧ (s.withSilence q).lkc = s.lkc ∧
    (s.withSilence q).cu = s.cu ∧ (s.withSilence q).reports = s.reports ∧ (s.withSilence q).lp = { s.lp with silence := q } := by
  simp [State.withSilence]

@[simp] theorem State.withSilence_time : (s.withSilence q).now = s.now ∧ (s.withSilence q).uptime = s.uptime := ⟨rfl, rfl⟩

@[simp] theorem State.withSilence_units :
    (s.withSilence q).unit1 = s.unit1 ∧ (s.withSilence q).unit2 = s.unit2 ∧ (s.withSilence q).recipe1 = s.recipe1 ∧
    (s.withSilence q).recipe2 = s.recipe2 ∧ (s.withSilence q).runningUnit = s.runningUnit ∧ (s.withSilence q).leakingUnit = s.leakingUnit ∧
    (s.withSilence q).anyWorking = s.anyWorking ∧ (s.withSilence q).anyTransfer = s.anyTransfer ∧
    (∀ u, (s.withSilence q).anyUnit u = s.anyUnit u) ∧ ∀ r, (s.withSilence q).recipeOf r = s.recipeOf r :=
  ⟨rfl, rfl, rfl, rfl, rfl, rfl, rfl, rfl, fun _ => rfl, fun _ => rfl⟩

@[simp] theorem State.withSilence_steps :
    (s.withSilence q).currentStep = s.currentStep ∧ (∀ k, (s.withSilence q).stepOf k = s.stepOf k) ∧
    (∀ t, (s.withSilence q).clampTorque t = s.clampTorque t) ∧ (s.withSilence q).driveFaulty = s.driveFaulty ∧
    (s.withSilence q).severeFrame = s.severeFrame := ⟨rfl, fun _ => rfl, fun _ => rfl, rfl, rfl⟩

@[simp] theorem State.withSilence_streams :
    (∀ st, (s.withSilence q).stream st = s.stream st) ∧ (∀ st, (s.withSilence q).wanted st = s.wanted st) ∧
    ∀ st, (s.withSilence q).wantedState st = s.wantedState st :=
  ⟨fun _ => rfl, fun st => by cases st <;> rfl, fun st => by cases st <;> rfl⟩

@[simp] theorem State.withSilence_chambers :
    (s.withSilence q).supplyFree = s.supplyFree ∧ (s.withSilence q).anyVenting = s.anyVenting ∧
    (∀ c, (s.withSilence q).chamber c = s.chamber c) ∧ (∀ c, (s.withSilence q).chamberPlan c = s.chamberPlan c) ∧
    ∀ i, (s.withSilence q).chambersDone i = s.chambersDone i := ⟨rfl, rfl, fun _ => rfl, fun _ => rfl, fun _ => rfl⟩

@[simp] theorem State.withSilence_conditions :
    (s.withSilence q).halt = s.halt ∧ (s.withSilence q).pick = s.pick ∧ (∀ n, (s.withSilence q).cond n = s.cond n) ∧
    (∀ n, (s.withSilence q).active n = s.active n) ∧ (∀ n, (s.withSilence q).onStack n = s.onStack n) ∧
    ∀ n, (s.withSilence q).condCode n = s.condCode n := ⟨rfl, rfl, fun _ => rfl, fun _ => rfl, fun _ => rfl, fun _ => rfl⟩

@[simp] theorem State.withSilence_slots :
    (∀ k, (s.withSilence q).slot k = s.slot k) ∧ ∀ k, (s.withSilence q).slotGuard k = s.slotGuard k := ⟨fun _ => rfl, fun _ => rfl⟩

/-! ## Setters and notices -/

@[simp] theorem State.setters_withSilence :
    (∀ x, (s.withSilence q).setUt x = (s.setUt x).withSilence q) ∧ (∀ x, (s.withSilence q).setRs x = (s.setRs x).withSilence q) ∧
    (∀ x, (s.withSilence q).setPe x = (s.setPe x).withSilence q) ∧ (∀ x, (s.withSilence q).setAfe x = (s.setAfe x).withSilence q) ∧
    (∀ x, (s.withSilence q).setCs x = (s.setCs x).withSilence q) ∧ (∀ x, (s.withSilence q).setOa x = (s.setOa x).withSilence q) ∧
    (∀ x, (s.withSilence q).setLkc x = (s.setLkc x).withSilence q) ∧ (∀ x, (s.withSilence q).setCu x = (s.setCu x).withSilence q) ∧
    ∀ x, (s.withSilence q).setReports x = (s.setReports x).withSilence q :=
  ⟨fun _ => rfl, fun _ => rfl, fun _ => rfl, fun _ => rfl, fun _ => rfl, fun _ => rfl, fun _ => rfl, fun _ => rfl, fun _ => rfl⟩

@[simp] theorem State.raise_withSilence (k : NoticeKey) (c : NoticeContent) :
    (s.withSilence q).raise k c = (s.raise k c).withSilence q := rfl

@[simp] theorem State.maps_withSilence :
    (∀ k f, (s.withSilence q).mapSlot k f = (s.mapSlot k f).withSilence q) ∧ (∀ i f, (s.withSilence q).mapUnit i f = (s.mapUnit i f).withSilence q) ∧
    (∀ n f, (s.withSilence q).mapCond n f = (s.mapCond n f).withSilence q) ∧
    (∀ n f, (s.withSilence q).changeCond n f = (s.changeCond n f).withSilence q) ∧
    (∀ n b, (s.withSilence q).setSource n b = (s.setSource n b).withSilence q) ∧
    (∀ st x, (s.withSilence q).setStream st x = (s.setStream st x).withSilence q) ∧
    (∀ n f, (s.withSilence q).mapWindow n f = (s.mapWindow n f).withSilence q) ∧
    (∀ c x, (s.withSilence q).setChamber c x = (s.setChamber c x).withSilence q) ∧
    ∀ i f, (s.withSilence q).mapLeak i f = (s.mapLeak i f).withSilence q :=
  ⟨fun _ _ => rfl, fun _ _ => rfl, fun _ _ => rfl, fun _ _ => rfl, fun _ _ => rfl, fun _ _ => rfl, fun _ _ => rfl, fun _ _ => rfl,
    fun _ _ => rfl⟩

@[simp] theorem State.notices_withSilence :
    (∀ st, (s.withSilence q).streamNotice st = (s.streamNotice st).withSilence q) ∧
    (s.withSilence q).reportNotice = s.reportNotice.withSilence q ∧
    ∀ n, (s.withSilence q).condNotice n = (s.condNotice n).withSilence q := ⟨fun _ => rfl, rfl, fun _ => rfl⟩

@[simp] theorem State.unitNotice_withSilence (i : Fin 8) : (s.withSilence q).unitNotice i = (s.unitNotice i).withSilence q := by
  unfold State.unitNotice
  simp only [State.withSilence_frame, State.withSilence_time, State.raise_withSilence]
  split
  · next h => simp only [h]
  · next h => simp only [h]

/-! ## Streams and plans -/

@[simp] theorem State.enterStream_withSilence (st : StreamId) (x : StreamState) :
    (s.withSilence q).enterStream st x = (s.enterStream st x).withSilence q := by
  unfold State.enterStream
  simp only [State.withSilence_streams, State.maps_withSilence]
  split
  · rfl
  · split <;> rfl

@[simp] theorem State.enterWanted_withSilence (st : StreamId) : (s.withSilence q).enterWanted st = (s.enterWanted st).withSilence q := by
  unfold State.enterWanted
  simp only [State.withSilence_streams, State.enterStream_withSilence, State.notices_withSilence]
  split <;> rfl

@[simp] theorem State.applyPlan_withSilence (st : StreamId) (p : Plan) : (s.withSilence q).applyPlan st p = (s.applyPlan st p).withSilence q := by
  simp [State.applyPlan]

@[simp] theorem State.setTarget_withSilence (st : StreamId) (p : Plan) : (s.withSilence q).setTarget st p = (s.setTarget st p).withSilence q := by
  unfold State.setTarget
  simp only [State.withSilence_streams, State.withSilence_frame, State.maps_withSilence, State.enterWanted_withSilence,
    State.applyPlan_withSilence, State.enterStream_withSilence]
  split
  · split <;> rfl
  · split <;> rfl

@[simp] theorem State.syncStream_withSilence (st : StreamId) : (s.withSilence q).syncStream st = (s.syncStream st).withSilence q := by
  unfold State.syncStream
  simp only [State.withSilence_streams, State.enterStream_withSilence]
  split <;> rfl

@[simp] theorem State.syncStreams_withSilence : (s.withSilence q).syncStreams = s.syncStreams.withSilence q := by simp [State.syncStreams]

@[simp] theorem State.checkPlan_withSilence (st : StreamId) : (s.withSilence q).checkPlan st = (s.checkPlan st).withSilence q := by
  unfold State.checkPlan
  simp only [State.withSilence_streams, State.withSilence_frame, State.applyPlan_withSilence]
  split
  · split <;> rfl
  · rfl

@[simp] theorem State.checkPlans_withSilence : (s.withSilence q).checkPlans = s.checkPlans.withSilence q := by simp [State.checkPlans]

@[simp] theorem State.releaseVib_withSilence (d : Fin 32) : (s.withSilence q).releaseVib d = (s.releaseVib d).withSilence q := by
  simp [State.releaseVib]

@[simp] theorem State.abandonOpen_withSilence : (s.withSilence q).abandonOpen = s.abandonOpen.withSilence q := by
  unfold State.abandonOpen
  simp only [State.withSilence_frame, State.setters_withSilence, State.releaseVib_withSilence]
  split <;> rfl

@[simp] theorem State.abandonFor_withSilence (n : Nat) : (s.withSilence q).abandonFor n = (s.abandonFor n).withSilence q := by
  unfold State.abandonFor
  simp only [State.withSilence_frame, State.abandonOpen_withSilence]
  split
  · split <;> rfl
  · rfl

/-! ## Units and windows -/

@[simp] theorem State.enterState_withSilence (i : Fin 8) (u : UnitState) :
    (s.withSilence q).enterState i u = (s.enterState i u).withSilence q := by simp [State.enterState]

@[simp] theorem State.mapNoise_withSilence (f : Noise → Noise) : (s.withSilence q).mapNoise f = (s.mapNoise f).withSilence q := by
  unfold State.mapNoise
  simp only [State.withSilence_units, State.maps_withSilence]
  split <;> rfl

@[simp] theorem State.mapRunIn_withSilence (f : RunIn → RunIn) : (s.withSilence q).mapRunIn f = (s.mapRunIn f).withSilence q := by
  unfold State.mapRunIn
  simp only [State.withSilence_units, State.maps_withSilence]
  split <;> rfl

@[simp] theorem State.closeTable_withSilence : (s.withSilence q).closeTable = s.closeTable.withSilence q := by
  unfold State.closeTable
  simp only [State.withSilence_frame, State.mapNoise_withSilence, State.setters_withSilence]
  split <;> rfl

@[simp] theorem State.gradeWindow_withSilence (n : Nat) : (s.withSilence q).gradeWindow n = (s.gradeWindow n).withSilence q := by
  unfold State.gradeWindow
  simp only [State.withSilence_frame, State.maps_withSilence, State.mapNoise_withSilence, State.closeTable_withSilence]
  split <;> rfl

@[simp] theorem State.closeWindow_withSilence (n : Nat) : (s.withSilence q).closeWindow n = (s.closeWindow n).withSilence q := by
  cases hw : s.oa.window n with
  | none =>
    rw [State.closeWindow_absent hw, State.closeWindow_absent (by simpa using hw)]
  | some w =>
    unfold State.closeWindow
    simp only [State.withSilence_frame, State.maps_withSilence, State.abandonFor_withSilence, State.gradeWindow_withSilence,
      State.syncStreams_withSilence, hw]
    split
    · rfl
    · rfl
    · split <;> rfl
    · split <;> rfl
    · rfl
    · rfl

@[simp] theorem State.closeWindows_withSilence : (s.withSilence q).closeWindows = s.closeWindows.withSilence q := by
  have hall : (s.withSilence q).closeAll = s.closeAll.withSilence q :=
    List.foldl_hom (State.withSilence q) fun t n => State.closeWindow_withSilence q t n
  unfold State.closeWindows
  simp only [State.withSilence_frame, State.closeTable_withSilence, hall]
  split <;> rfl

@[simp] theorem State.openWindow_withSilence (n : Nat) : (s.withSilence q).openWindow n = (s.openWindow n).withSilence q := by
  simp [State.openWindow]

@[simp] theorem State.pauseWindow_withSilence (n : Nat) : (s.withSilence q).pauseWindow n = (s.pauseWindow n).withSilence q := by
  simp [State.pauseWindow]

@[simp] theorem State.setUpWindows_withSilence (r : Recipe) : (s.withSilence q).setUpWindows r = (s.setUpWindows r).withSilence q := by
  simp [State.setUpWindows]

/-! ## Steps -/

@[simp] theorem State.clearDrag_withSilence : (s.withSilence q).clearDrag = s.clearDrag.withSilence q := by simp [State.clearDrag]

@[simp] theorem State.setEnable_withSilence (b : Bool) : (s.withSilence q).setEnable b = (s.setEnable b).withSilence q := by
  unfold State.setEnable State.judgeDrive
  simp only [State.withSilence_frame, State.withSilence_time, State.withSilence_steps, State.setters_withSilence, State.maps_withSilence]
  split <;> rfl

@[simp] theorem State.tryOpen_withSilence : (s.withSilence q).tryOpen = s.tryOpen.withSilence q := by
  unfold State.tryOpen
  simp only [State.withSilence_frame, State.withSilence_steps, State.withSilence_conditions, State.setters_withSilence,
    State.openWindow_withSilence]
  split
  · rfl
  · split <;> rfl

@[simp] theorem State.loadSettle_withSilence (x : Step) : (s.withSilence q).loadSettle x = (s.loadSettle x).withSilence q := by
  unfold State.loadSettle State.settle
  simp only [State.withSilence_frame, State.withSilence_units, State.setters_withSilence, State.tryOpen_withSilence]
  split
  · rfl
  · split <;> rfl

@[simp] theorem State.enterStep_withSilence (k : Nat) (x : Step) : (s.withSilence q).enterStep k x = (s.enterStep k x).withSilence q := by
  simp [State.enterStep, State.loadStep]

@[simp] theorem State.pauseStep_withSilence : (s.withSilence q).pauseStep = s.pauseStep.withSilence q := by
  unfold State.pauseStep
  simp only [State.withSilence_frame, State.withSilence_steps, State.setters_withSilence, State.pauseWindow_withSilence]
  split
  · split <;> rfl
  · rfl

@[simp] theorem State.evaluateDrag_withSilence (x : Step) : (s.withSilence q).evaluateDrag x = (s.evaluateDrag x).withSilence q := by
  unfold State.evaluateDrag
  simp only [State.withSilence_frame, State.withSilence_units, State.mapRunIn_withSilence]
  split <;> rfl

theorem State.endStep_withSilence (k : Nat) (x : Step) :
    (s.withSilence q).endStep k x = ((s.endStep k x).1.withSilence q, (s.endStep k x).2) := by
  unfold State.endStep
  simp only [State.pauseStep_withSilence, State.evaluateDrag_withSilence]
  split <;> rfl

@[simp] theorem State.noisePause_withSilence : (s.withSilence q).noisePause = s.noisePause.withSilence q := by
  unfold State.noisePause
  simp only [State.withSilence_frame, State.withSilence_steps, State.setters_withSilence, State.pauseWindow_withSilence]
  split
  · split <;> rfl
  · rfl

/-! ## Transfer and chambers -/

@[simp] theorem State.conveyor_withSilence :
    (s.withSilence q).runConveyor = s.runConveyor.withSilence q ∧ (s.withSilence q).stopConveyor = s.stopConveyor.withSilence q := ⟨rfl, rfl⟩

@[simp] theorem State.checkTransfer_withSilence : (s.withSilence q).checkTransfer = s.checkTransfer.withSilence q := by
  unfold State.checkTransfer
  simp only [State.withSilence_frame, State.withSilence_units, State.withSilence_conditions, State.conveyor_withSilence,
    State.enterState_withSilence, State.setTarget_withSilence]
  split
  · split
    · split <;> rfl
    · rfl
  · rfl

@[simp] theorem State.assembleReport_withSilence (i : Fin 8) : (s.withSilence q).assembleReport i = (s.assembleReport i).withSilence q := by
  unfold State.assembleReport
  simp only [State.withSilence_frame, State.withSilence_units, State.maps_withSilence, State.setters_withSilence, State.notices_withSilence]
  split
  · next h => simp only [h]
  · next h => simp only [h]

@[simp] theorem State.checkGrant_withSilence : (s.withSilence q).checkGrant = s.checkGrant.withSilence q := by
  unfold State.checkGrant
  simp only [State.withSilence_frame, State.withSilence_chambers, State.withSilence_conditions, State.setters_withSilence, State.maps_withSilence]
  split
  · rfl
  · split <;> rfl

@[simp] theorem State.joinQueue_withSilence (c : Fin 4) : (s.withSilence q).joinQueue c = (s.joinQueue c).withSilence q := by
  simp [State.joinQueue]

@[simp] theorem State.startChambers_withSilence : (s.withSilence q).startChambers = s.startChambers.withSilence q := by
  have hstep : ∀ (t : State) (c : Fin 4), (if ((t.withSilence q).chamberPlan c).enabled then (t.withSilence q).joinQueue c else t.withSilence q) =
      (if (t.chamberPlan c).enabled then t.joinQueue c else t).withSilence q := fun t c => by
    simp only [State.withSilence_chambers, State.joinQueue_withSilence]
    split <;> rfl
  rw [State.startChambers, List.foldl_hom (State.withSilence q) hstep, State.checkGrant_withSilence]
  rfl

@[simp] theorem State.enterVent_withSilence (c : Fin 4) (after : AfterVent) :
    (s.withSilence q).enterVent c after = (s.enterVent c after).withSilence q := by simp [State.enterVent]

@[simp] theorem State.abortChamber_withSilence (c : Fin 4) : (s.withSilence q).abortChamber c = (s.abortChamber c).withSilence q := by
  unfold State.abortChamber
  simp only [State.withSilence_chambers, State.maps_withSilence, State.enterVent_withSilence]
  split
  · rfl
  · rfl
  · rfl
  · rfl
  · split <;> rfl
  · rfl
  · rfl

@[simp] theorem State.abortChambers_withSilence : (s.withSilence q).abortChambers = s.abortChambers.withSilence q := by
  have hall : (List.finRange 4).foldl (fun t c => t.abortChamber c) (s.withSilence q) =
      ((List.finRange 4).foldl (fun t c => t.abortChamber c) s).withSilence q :=
    List.foldl_hom (State.withSilence q) fun t c => State.abortChamber_withSilence q t c
  rw [State.abortChambers, hall]
  rfl

@[simp] theorem State.haltChambers_withSilence : (s.withSilence q).haltChambers = s.haltChambers.withSilence q := by
  have hstep : ∀ (t : State) (c : Fin 4),
      (if ((t.withSilence q).chamber c).phase.attempting then (t.withSilence q).enterVent c .requeue else t.withSilence q) =
      (if (t.chamber c).phase.attempting then t.enterVent c .requeue else t).withSilence q := fun t c => by
    simp only [State.withSilence_chambers, State.enterVent_withSilence]
    split <;> rfl
  exact List.foldl_hom (State.withSilence q) hstep

/-! ## The hold stack -/

@[simp] theorem State.take_withSilence (n : Fin 20) : (s.withSilence q).take n = (s.take n).withSilence q := by
  simp [State.take, State.interruptUnits]

theorem takeAll_withSilence (fuel : Nat) : takeAll fuel (s.withSilence q) = ((takeAll fuel s).1.withSilence q, (takeAll fuel s).2) := by
  induction fuel generalizing s with
  | zero => rfl
  | succ fuel ih =>
    unfold takeAll
    simp only [State.withSilence_conditions, State.take_withSilence, ih]
    split <;> rfl

@[simp] theorem State.takingCheck_withSilence (first : List (Fin 20)) :
    (s.withSilence q).takingCheck first = (s.takingCheck first).withSilence q := by
  unfold State.takingCheck
  simp only [takeAll_withSilence]
  exact List.foldl_hom (State.withSilence q) fun t n => (State.notices_withSilence q t).2.2 n

@[simp] theorem State.inject_withSilence (n : Fin 20) : (s.withSilence q).inject n = (s.inject n).withSilence q := by simp [State.inject]

@[simp] theorem State.applyTransferHalt_withSilence (was : StopSet) :
    (s.withSilence q).applyTransferHalt was = (s.applyTransferHalt was).withSilence q := by
  unfold State.applyTransferHalt
  simp only [State.withSilence_conditions, State.withSilence_units, State.conveyor_withSilence]
  split
  · split <;> rfl
  · split <;> simp
  · rfl

@[simp] theorem State.applyNoiseHalt_withSilence (was : StopSet) :
    (s.withSilence q).applyNoiseHalt was = (s.applyNoiseHalt was).withSilence q := by
  unfold State.applyNoiseHalt
  simp only [State.withSilence_conditions, State.noisePause_withSilence, State.tryOpen_withSilence, State.syncStreams_withSilence]
  split <;> rfl

/-! ## Records -/

@[simp] theorem State.load_withSilence (i : Fin 8) (serial : List Byte) (slot : Fin 16) :
    (s.withSilence q).load i serial slot = (s.load i serial slot).withSilence q := by simp [State.load]

@[simp] theorem State.freeId_withSilence (id : Nat) : (s.withSilence q).freeId id = (s.freeId id).withSilence q := by
  unfold State.freeId State.freeUnit
  simp only [State.withSilence_frame, State.withSilence_time, State.setters_withSilence, State.maps_withSilence, State.raise_withSilence]
  split
  · split
    · next h => simp only [h]
    · next h => simp only [h]
  · rfl

end

end Sys2Proof.Machine
end

