-- ==== Sys2Proof/Proofs/SilenceAlike.lean ====
section
/-! Machines that are the same but for the line silence timer stay so through everything that a command can bring (R160, R167): the halts and
what they do, the profile, the end of a unit's run and of its leak test, and the owners of the commands. -/

namespace Sys2Proof.Machine

namespace SameButSilence

variable {s t : State}

theorem withSilence (q q' : Silence) (s : State) : SameButSilence (s.withSilence q) (s.withSilence q') := rfl

theorem of_withSilence (q : Silence) (s : State) : SameButSilence s (s.withSilence q) := rfl

theorem refl (s : State) : SameButSilence s s := rfl

theorem eq_withSilence (h : SameButSilence s t) : ∃ q, t = s.withSilence q := ⟨_, h⟩

/-- A function that leaves the timer leaves its machines the same but for it. -/
theorem through {f : State → State} (h : SameButSilence s t) (hf : ∀ q u, f (u.withSilence q) = (f u).withSilence q) :
    SameButSilence (f s) (f t) := by
  obtain ⟨q, rfl⟩ := h.eq_withSilence
  rw [hf]
  exact of_withSilence q _

/-! ## The timer itself -/

theorem disarmSilence (h : SameButSilence s t) : SameButSilence s.disarmSilence t.disarmSilence := by
  obtain ⟨q, rfl⟩ := h.eq_withSilence
  unfold State.disarmSilence
  simp only [State.withSilence_units]
  split
  · exact of_withSilence q s
  · exact refl _

theorem armSilence_eq (s : State) : ∃ q, s.armSilence = s.withSilence q := by
  unfold State.armSilence
  split
  · exact ⟨_, rfl⟩
  · exact ⟨s.lp.silence, rfl⟩

theorem armSilence (h : SameButSilence s t) : SameButSilence s.armSilence t.armSilence := by
  obtain ⟨q, rfl⟩ := h.eq_withSilence
  obtain ⟨a, ha⟩ := armSilence_eq s
  obtain ⟨b, hb⟩ := armSilence_eq (s.withSilence q)
  rw [ha, hb]
  exact withSilence a b s

/-! ## The ends of a run and of a leak test -/

theorem checkTransfer (h : SameButSilence s t) : SameButSilence s.checkTransfer t.checkTransfer := h.through State.checkTransfer_withSilence

theorem checkRunDone (h : SameButSilence s t) : SameButSilence s.checkRunDone t.checkRunDone := by
  obtain ⟨q, rfl⟩ := h.eq_withSilence
  unfold State.checkRunDone
  simp only [State.withSilence_frame, State.enterState_withSilence, State.syncStreams_withSilence]
  split
  · exact of_withSilence q s
  · split
    · next hr =>
      simp only [hr]
      exact of_withSilence q s
    · next hr =>
      simp only [hr]
      split
      · exact (of_withSilence q _).disarmSilence.checkTransfer
      · exact of_withSilence q s

theorem enterDone (h : SameButSilence s t) (i : Fin 8) : SameButSilence (s.enterDone i) (t.enterDone i) := by
  obtain ⟨q, rfl⟩ := h.eq_withSilence
  have hdone : ∀ u : State, (u.withSilence q).restChambers = u.restChambers.withSilence q := fun u => rfl
  simp only [State.enterDone, State.withSilence_time, State.maps_withSilence, State.syncStreams_withSilence, hdone,
    State.assembleReport_withSilence, State.unitNotice_withSilence, State.setTarget_withSilence]
  exact (of_withSilence q _).disarmSilence.checkTransfer

theorem decideLeak (h : SameButSilence s t) : SameButSilence s.decideLeak t.decideLeak := by
  obtain ⟨q, rfl⟩ := h.eq_withSilence
  unfold State.decideLeak
  simp only [State.withSilence_frame, State.withSilence_units, State.withSilence_conditions, State.maps_withSilence,
    State.enterState_withSilence, State.syncStreams_withSilence]
  split
  · exact of_withSilence q s
  · split
    · next hr =>
      simp only [hr]
      exact of_withSilence q s
    · next hr =>
      simp only [hr]
      split
      · exact (of_withSilence q _).enterDone _
      · split
        · exact of_withSilence q s
        · exact (of_withSilence q _).armSilence.through State.startChambers_withSilence

theorem checkLeakEnd (h : SameButSilence s t) : SameButSilence s.checkLeakEnd t.checkLeakEnd := by
  obtain ⟨q, rfl⟩ := h.eq_withSilence
  unfold State.checkLeakEnd
  simp only [State.withSilence_frame, State.withSilence_units, State.withSilence_chambers, State.maps_withSilence]
  split
  · exact of_withSilence q s
  · split
    · next hr =>
      simp only [hr]
      exact of_withSilence q s
    · next hr =>
      simp only [hr]
      split
      · split
        · exact of_withSilence q s
        · exact (of_withSilence q _).enterDone _
      · split
        · exact (of_withSilence q _).enterDone _
        · exact of_withSilence q s

/-! ## The profile -/

theorem profileEnd (h : SameButSilence s t) (cause : StopCause) : SameButSilence (s.profileEnd cause) (t.profileEnd cause) := by
  obtain ⟨q, rfl⟩ := h.eq_withSilence
  simp only [State.profileEnd, State.setEnable_withSilence, State.withSilence_frame, State.setters_withSilence, State.mapRunIn_withSilence,
    State.closeWindows_withSilence]
  exact (of_withSilence q _).checkRunDone

theorem beginStop (h : SameButSilence s t) (cause : StopCause) : SameButSilence (s.beginStop cause) (t.beginStop cause) := by
  obtain ⟨q, rfl⟩ := h.eq_withSilence
  simp only [State.beginStop, State.withSilence_frame, State.setters_withSilence]
  split
  · exact (of_withSilence q _).profileEnd cause
  · exact of_withSilence q _

theorem runSteps (fuel k : Nat) (h : SameButSilence s t) : SameButSilence (runSteps fuel k s) (Machine.runSteps fuel k t) := by
  induction fuel generalizing k s t with
  | zero => exact h
  | succ fuel ih =>
    obtain ⟨q, rfl⟩ := h.eq_withSilence
    unfold Machine.runSteps
    simp only [State.withSilence_steps, State.enterStep_withSilence, State.endStep_withSilence]
    split
    · exact (of_withSilence q s).beginStop .runOut
    · split
      · exact ih _ (of_withSilence q _)
      · exact of_withSilence q _

theorem endCurrent (h : SameButSilence s t) : SameButSilence s.endCurrent t.endCurrent := by
  obtain ⟨q, rfl⟩ := h.eq_withSilence
  unfold State.endCurrent
  simp only [State.withSilence_frame, State.withSilence_steps, State.endStep_withSilence]
  split
  · exact (of_withSilence q _).runSteps _ _
  · exact of_withSilence q s

theorem beginProfile (h : SameButSilence s t) : SameButSilence s.beginProfile t.beginProfile := by
  obtain ⟨q, rfl⟩ := h.eq_withSilence
  simp only [State.beginProfile, State.setEnable_withSilence, State.withSilence_frame, State.setters_withSilence]
  exact (of_withSilence q _).runSteps _ _

theorem startProfile (h : SameButSilence s t) (r : Recipe) : SameButSilence (s.startProfile r) (t.startProfile r) := by
  obtain ⟨q, rfl⟩ := h.eq_withSilence
  simp only [State.startProfile, State.withSilence_frame, State.withSilence_conditions, State.withSilence_steps, State.setters_withSilence,
    State.clearDrag_withSilence]
  split
  · exact of_withSilence q _
  · exact (of_withSilence q _).beginProfile

theorem startRun (h : SameButSilence s t) (i : Fin 8) (r : Recipe) : SameButSilence (s.startRun i r) (t.startRun i r) := by
  obtain ⟨q, rfl⟩ := h.eq_withSilence
  simp only [State.startRun, State.withSilence_time, State.maps_withSilence, State.enterState_withSilence, State.setUpWindows_withSilence,
    State.syncStreams_withSilence]
  exact (of_withSilence q _).armSilence.startProfile r

/-! ## The halts -/

theorem hardCheck (h : SameButSilence s t) : SameButSilence s.hardCheck t.hardCheck := by
  obtain ⟨q, rfl⟩ := h.eq_withSilence
  unfold State.hardCheck
  simp only [State.withSilence_frame, State.withSilence_steps, State.setEnable_withSilence, State.setters_withSilence]
  split
  · split
    · exact (of_withSilence q _).profileEnd _
    · exact of_withSilence q _
  · exact of_withSilence q s

theorem profileHalted (h : SameButSilence s t) : SameButSilence s.profileHalted t.profileHalted := by
  obtain ⟨q, rfl⟩ := h.eq_withSilence
  unfold State.profileHalted
  simp only [State.withSilence_frame, State.setters_withSilence, State.pauseStep_withSilence, State.withSilence_steps,
    State.clearDrag_withSilence]
  split
  · split
    · exact (of_withSilence q _).hardCheck
    · exact (of_withSilence q _).hardCheck
  · exact (of_withSilence q _).hardCheck
  · exact (of_withSilence q _).hardCheck
  · exact (of_withSilence q _).hardCheck
  · exact (of_withSilence q _).hardCheck
  · exact (of_withSilence q _).hardCheck

theorem profileReleased (h : SameButSilence s t) : SameButSilence s.profileReleased t.profileReleased := by
  obtain ⟨q, rfl⟩ := h.eq_withSilence
  unfold State.profileReleased
  simp only [State.withSilence_frame, State.setters_withSilence, State.setEnable_withSilence]
  split
  · exact of_withSilence q _
  · exact (of_withSilence q _).beginProfile
  · exact of_withSilence q _
  · exact of_withSilence q _
  · exact of_withSilence q _
  · exact of_withSilence q _

theorem applyProfileHalt (h : SameButSilence s t) (was : StopSet) : SameButSilence (s.applyProfileHalt was) (t.applyProfileHalt was) := by
  obtain ⟨q, rfl⟩ := h.eq_withSilence
  unfold State.applyProfileHalt
  simp only [State.withSilence_conditions]
  split
  · exact (of_withSilence q s).profileHalted
  · exact (of_withSilence q s).hardCheck
  · exact (of_withSilence q s).profileReleased
  · exact of_withSilence q s

theorem applyLeakHalt (h : SameButSilence s t) (was : StopSet) : SameButSilence (s.applyLeakHalt was) (t.applyLeakHalt was) := by
  obtain ⟨q, rfl⟩ := h.eq_withSilence
  unfold State.applyLeakHalt
  simp only [State.withSilence_conditions, State.haltChambers_withSilence, State.checkGrant_withSilence]
  split
  · exact of_withSilence q _
  · exact (of_withSilence q _).decideLeak
  · exact of_withSilence q s

theorem applyHalts (h : SameButSilence s t) (was : StopSet) : SameButSilence (s.applyHalts was) (t.applyHalts was) :=
  (((h.applyProfileHalt was).through fun q u => State.applyNoiseHalt_withSilence q u was).applyLeakHalt was).through
    fun q u => State.applyTransferHalt_withSilence q u was

/-! ## The abort of a unit -/

theorem abortProfile (h : SameButSilence s t) : SameButSilence s.abortProfile t.abortProfile := by
  obtain ⟨q, rfl⟩ := h.eq_withSilence
  unfold State.abortProfile
  simp only [State.withSilence_frame, State.pauseStep_withSilence, State.clearDrag_withSilence]
  split
  · exact (of_withSilence q _).beginStop _
  · exact (of_withSilence q s).beginStop _
  · exact (of_withSilence q s).beginStop _
  · exact (of_withSilence q s).beginStop _
  · exact (of_withSilence q s).profileEnd _
  · exact of_withSilence q s

theorem abortByState (h : SameButSilence s t) (i : Fin 8) (r : UnitRecord) : SameButSilence (s.abortByState i r) (t.abortByState i r) := by
  obtain ⟨q, rfl⟩ := h.eq_withSilence
  unfold State.abortByState
  split
  · simp only [State.abortLoaded, State.withSilence_units, State.maps_withSilence, State.setUpWindows_withSilence,
      State.closeWindows_withSilence, State.enterState_withSilence]
    exact (of_withSilence q _).checkTransfer
  · exact (of_withSilence q s).abortProfile
  · exact of_withSilence q s
  · exact of_withSilence q s
  · exact of_withSilence q s
  · exact (of_withSilence q s).decideLeak
  · rw [State.abortChambers_withSilence]
    exact (of_withSilence q _).checkLeakEnd

end SameButSilence

end Sys2Proof.Machine
end

