-- ==== Sys2Proof/Proofs/ServedAlike.lean ====
section
/-! Every owner answers a command the same, and leaves the same machine but for the line silence timer, whatever the timer holds (R160, R167). -/

namespace Sys2Proof.Machine

/-- The same reply, and the same machine but for the line silence timer. -/
def ServedAlike (a b : State × Reply) : Prop := SameButSilence a.1 b.1 ∧ b.2 = a.2

theorem ServedAlike.answers {s t : State} (h : SameButSilence s t) (r : Reply) : ServedAlike (s, r) (t, r) := ⟨h, rfl⟩

section
variable (q : Silence) (s : State)

theorem answers_alike (r : Reply) : ServedAlike (s, r) (s.withSilence q, r) := ⟨.of_withSilence q s, rfl⟩

/-! ## Units -/

theorem takeLoadUnit_alike (slot : Byte) (serial : List Byte) :
    ServedAlike (takeLoadUnit slot serial s) (takeLoadUnit slot serial (s.withSilence q)) := by
  unfold takeLoadUnit
  simp only [State.withSilence_frame, State.withSilence_units, State.load_withSilence]
  split
  · exact answers_alike q s _
  · split
    · exact answers_alike q s _
    · split
      · exact answers_alike q s _
      · split
        · exact answers_alike q s _
        · split
          · exact answers_alike q s _
          · exact answers_alike q _ _

theorem takeStartRun_alike (id : Nat) : ServedAlike (takeStartRun id s) (takeStartRun id (s.withSilence q)) := by
  unfold takeStartRun
  simp only [State.withSilence_frame, State.withSilence_units]
  split
  · exact answers_alike q s _
  · split
    · next hr =>
      simp only [hr]
      exact answers_alike q s _
    · next hr =>
      simp only [hr]
      split
      · exact .answers ((SameButSilence.of_withSilence q s).startRun _ _) _
      · exact answers_alike q s _

theorem takeAbortUnit_alike (id : Nat) : ServedAlike (takeAbortUnit id s) (takeAbortUnit id (s.withSilence q)) := by
  unfold takeAbortUnit
  simp only [State.withSilence_frame, State.maps_withSilence, State.unitNotice_withSilence]
  split
  · exact answers_alike q s _
  · split
    · next hr =>
      simp only [hr]
      exact answers_alike q s _
    · next hr =>
      simp only [hr]
      split
      · exact answers_alike q s _
      · exact .answers ((SameButSilence.of_withSilence q _).abortByState _ _) _

theorem takeUnitGet_alike (id : Nat) : ServedAlike (takeUnitGet id s) (takeUnitGet id (s.withSilence q)) := by
  unfold takeUnitGet
  simp only [State.withSilence_frame]
  split
  · next hr =>
    simp only [hr]
    exact answers_alike q s _
  · next hr =>
    simp only [hr]
    exact answers_alike q s _

theorem takeAdvanceStep_alike : ServedAlike (takeAdvanceStep s) (takeAdvanceStep (s.withSilence q)) := by
  unfold takeAdvanceStep
  simp only [State.withSilence_frame]
  split
  · exact answers_alike q s _
  · split
    · exact .answers (SameButSilence.of_withSilence q s).endCurrent _
    · exact answers_alike q s _

/-! ## Conditions -/

theorem withCondition_alike (b : Byte) {f : Fin 20 → State → State × Reply} (hf : ∀ n, ServedAlike (f n s) (f n (s.withSilence q))) :
    ServedAlike (withCondition b f s) (withCondition b f (s.withSilence q)) := by
  unfold withCondition
  split
  · exact answers_alike q s _
  · exact hf _

theorem takeCondAck_alike (b : Byte) : ServedAlike (takeCondAck b s) (takeCondAck b (s.withSilence q)) := by
  refine withCondition_alike q s b fun n => ?_
  simp only [State.withSilence_conditions, State.maps_withSilence]
  split
  · split
    · exact answers_alike q s _
    · exact answers_alike q _ _
  · exact answers_alike q _ _

/-- The taking check and what its halts do. -/
theorem checked_alike (first : List (Fin 20)) (was : StopSet) :
    SameButSilence ((s.takingCheck first).applyHalts was) (((s.withSilence q).takingCheck first).applyHalts was) := by
  rw [State.takingCheck_withSilence]
  exact (SameButSilence.of_withSilence q _).applyHalts was

theorem SameButSilence.cu {s t : State} (h : SameButSilence s t) : t.cu = s.cu := by
  obtain ⟨q, rfl⟩ := h.eq_withSilence
  rfl

theorem SameButSilence.halt {s t : State} (h : SameButSilence s t) : t.halt = s.halt := by
  rw [State.halt, h.cu]
  rfl

theorem takeCondInject_alike (b : Byte) : ServedAlike (takeCondInject b s) (takeCondInject b (s.withSilence q)) := by
  refine withCondition_alike q s b fun n => ?_
  simp only [State.withSilence_frame, State.withSilence_conditions, State.inject_withSilence]
  split
  · exact answers_alike q s _
  · have h := checked_alike q (s.inject n) [] s.halt
    refine ⟨h, ?_⟩
    simp only [State.onStack, h.cu]

theorem takeCondConfig_alike (b severity vector : Byte) :
    ServedAlike (takeCondConfig b severity vector s) (takeCondConfig b severity vector (s.withSilence q)) := by
  refine withCondition_alike q s b fun n => ?_
  simp only [State.withSilence_frame, State.withSilence_conditions, State.maps_withSilence]
  split
  · exact answers_alike q s _
  · split
    · exact answers_alike q s _
    · split
      · exact answers_alike q s _
      · refine .answers ?_ _
        split
        · exact .of_withSilence q _
        · exact checked_alike q _ [] _

theorem takeSetMask_alike (level : Byte) : ServedAlike (takeSetMask level s) (takeSetMask level (s.withSilence q)) := by
  unfold takeSetMask
  simp only [State.withSilence_frame, State.withSilence_conditions, State.setters_withSilence]
  refine .answers ?_ _
  split
  · exact checked_alike q _ [] _
  · exact .of_withSilence q _

theorem takeResume_alike : ServedAlike (takeResume s) (takeResume (s.withSilence q)) := by
  unfold takeResume
  simp only [State.withSilence_frame, State.withSilence_conditions, State.setters_withSilence]
  split
  · exact answers_alike q s _
  · next f rest _ =>
    split
    · exact answers_alike q s _
    · have h := checked_alike q (s.setCu { s.cu with stack := rest, rl := f.savedRl }) [f.number] s.halt
      refine ⟨h, ?_⟩
      simp only [h.cu, h.halt]

/-! ## Reports -/

theorem takeReportGet_alike : ServedAlike (takeReportGet s) (takeReportGet (s.withSilence q)) := by
  unfold takeReportGet
  simp only [State.withSilence_frame]
  split
  · exact answers_alike q s _
  · split
    · next hr =>
      simp only [hr]
      exact answers_alike q s _
    · next hr =>
      simp only [hr]
      exact answers_alike q s _

theorem takeReportRelease_alike (id : Nat) : ServedAlike (takeReportRelease id s) (takeReportRelease id (s.withSilence q)) := by
  unfold takeReportRelease
  simp only [State.withSilence_frame, State.setters_withSilence, State.freeId_withSilence, State.notices_withSilence]
  split
  · exact answers_alike q s _
  · split
    · exact answers_alike q _ _
    · exact answers_alike q s _

/-! ## Slots -/

theorem withSlot_alike (b : Byte) {f : Fin 16 → State → State × Reply} (hf : ∀ k, ServedAlike (f k s) (f k (s.withSilence q))) :
    ServedAlike (withSlot b f s) (withSlot b f (s.withSilence q)) := by
  unfold withSlot
  split
  · exact answers_alike q s _
  · exact hf _

theorem withOwnSlot_alike (b : Byte) {f : Fin 16 → State → State × Reply} (hf : ∀ k, ServedAlike (f k s) (f k (s.withSilence q))) :
    ServedAlike (withOwnSlot b f s) (withOwnSlot b f (s.withSilence q)) := by
  refine withSlot_alike q s b fun k => ?_
  simp only [State.withSilence_slots]
  split
  · exact answers_alike q s _
  · exact hf k

theorem takeSlotErase_alike (b : Byte) : ServedAlike (takeSlotErase b s) (takeSlotErase b (s.withSilence q)) := by
  refine withOwnSlot_alike q s b fun k => ?_
  simp only [State.withSilence_slots, State.maps_withSilence]
  split
  · exact answers_alike q s _
  · split
    · exact answers_alike q s _
    · exact answers_alike q _ _

theorem takeSlotBlank_alike (b : Byte) : ServedAlike (takeSlotBlank b s) (takeSlotBlank b (s.withSilence q)) := by
  refine withSlot_alike q s b fun k => ?_
  simp only [State.withSilence_slots]
  split <;> exact answers_alike q s _

theorem takeSlotWrite_alike (b : Byte) (offset : Nat) (data : List Byte) :
    ServedAlike (takeSlotWrite b offset data s) (takeSlotWrite b offset data (s.withSilence q)) := by
  refine withOwnSlot_alike q s b fun k => ?_
  simp only [State.withSilence_slots, State.maps_withSilence]
  split
  · exact answers_alike q s _
  · split
    · exact answers_alike q s _
    · split
      · exact answers_alike q s _
      · split
        · exact answers_alike q s _
        · split
          · exact answers_alike q s _
          · exact answers_alike q _ _

theorem takeSlotClose_alike (b : Byte) : ServedAlike (takeSlotClose b s) (takeSlotClose b (s.withSilence q)) := by
  refine withOwnSlot_alike q s b fun k => ?_
  simp only [State.withSilence_slots, State.maps_withSilence]
  split
  · exact answers_alike q _ _
  · exact answers_alike q s _

theorem takeSlotVerify_alike (b : Byte) (digest : Word32) :
    ServedAlike (takeSlotVerify b digest s) (takeSlotVerify b digest (s.withSilence q)) := by
  refine withSlot_alike q s b fun k => ?_
  simp only [State.withSilence_slots]
  split <;> exact answers_alike q s _

theorem takeSlotRead_alike (b : Byte) (offset length : Nat) :
    ServedAlike (takeSlotRead b offset length s) (takeSlotRead b offset length (s.withSilence q)) := by
  refine withSlot_alike q s b fun k => ?_
  simp only [State.withSilence_slots]
  split
  · exact answers_alike q s _
  · split
    · exact answers_alike q s _
    · split <;> exact answers_alike q s _

theorem takeSlotInfo_alike (b : Byte) : ServedAlike (takeSlotInfo b s) (takeSlotInfo b (s.withSilence q)) := by
  refine withSlot_alike q s b fun k => ?_
  simp only [State.withSilence_slots, State.withSilence_frame]
  exact answers_alike q s _

/-! ## Every command -/

theorem take_alike (c : Command) : ServedAlike (take c s) (take c (s.withSilence q)) := by
  cases c with
  | status => exact answers_alike q s _
  | identify => exact answers_alike q s _
  | restart => exact answers_alike q (s.setLp { s.lp with restartDue := true }) _
  | loadUnit slot serial => exact takeLoadUnit_alike q s slot serial
  | startRun id => exact takeStartRun_alike q s id
  | abortUnit id => exact takeAbortUnit_alike q s id
  | unitGet id => exact takeUnitGet_alike q s id
  | advanceStep => exact takeAdvanceStep_alike q s
  | streamGet => exact answers_alike q s _
  | condList => exact answers_alike q s _
  | condGet n => exact withCondition_alike q s n fun _ => answers_alike q s _
  | condAck n => exact takeCondAck_alike q s n
  | condInject n => exact takeCondInject_alike q s n
  | condConfig n severity vector => exact takeCondConfig_alike q s n severity vector
  | setMask level => exact takeSetMask_alike q s level
  | resume => exact takeResume_alike q s
  | reportGet => exact takeReportGet_alike q s
  | reportRelease id => exact takeReportRelease_alike q s id
  | slotErase k => exact takeSlotErase_alike q s k
  | slotBlank k => exact takeSlotBlank_alike q s k
  | slotWrite k offset data => exact takeSlotWrite_alike q s k offset data
  | slotClose k => exact takeSlotClose_alike q s k
  | slotVerify k digest => exact takeSlotVerify_alike q s k digest
  | slotRead k offset length => exact takeSlotRead_alike q s k offset length
  | slotInfo k => exact takeSlotInfo_alike q s k

/-- A frame is served the same, whatever the timer holds (R160). -/
theorem serve_alike (f : Frame) : ServedAlike (serve f s) (serve f (s.withSilence q)) := by
  unfold serve
  simp only [State.withSilence_frame]
  split
  · exact answers_alike q s _
  · split
    · exact answers_alike q s _
    · split
      · exact answers_alike q s _
      · split
        · exact answers_alike q s _
        · exact take_alike q s _

end

/-- A frame in the head is handled and answered the same, whatever the timer holds. -/
theorem SameButSilence.handle {s t : State} (h : SameButSilence s t) (f : Frame) : SameButSilence (s.handle f) (t.handle f) := by
  obtain ⟨q, rfl⟩ := h.eq_withSilence
  obtain ⟨hstate, hreply⟩ := serve_alike q s f
  obtain ⟨q', hserved⟩ := hstate.eq_withSilence
  rw [State.handle, State.handle, hreply, hserved]
  exact of_withSilence q' _

theorem SameButSilence.arbitrate {s t : State} (h : SameButSilence s t) : SameButSilence (arbitrate s) (Machine.arbitrate t) := by
  refine h.through fun q u => ?_
  unfold Machine.arbitrate
  simp only [State.withSilence_frame]
  split <;> rfl

end Sys2Proof.Machine
end

