-- ==== Sys2Proof/Proofs/FrameSent.lean ====
section
/-! FRAME_SENT: what the end of a frame frees, and the second frame that is handled as its command is (R159, R160, R164, R166). -/

namespace Sys2Proof.Machine

/-! ## The arbiter over a free transmitter (R166) -/

/-- The machine whose transmitter is free. -/
def State.txFree (s : State) : State := s.setLp { s.lp with sending := none }

section
variable {s : State} (hs : s.lp.sending = none)
include hs

theorem arbitrate_reply {r : Frame} (hr : s.lp.reply = some r) :
    arbitrate s = s.setLp { s.lp with reply := none, sending := some (.reply r) } := by rw [arbitrate, hs, hr]

theorem arbitrate_notice {m : Notice} {ms : List Notice} (hr : s.lp.reply = none) (hn : s.lp.notices = m :: ms) :
    arbitrate s = s.setLp { s.lp with notices := ms, sending := some (.notice m) } := by rw [arbitrate, hs, hr, hn]

theorem arbitrate_rests (hr : s.lp.reply = none) (hn : s.lp.notices = []) : arbitrate s = s := by rw [arbitrate, hs, hr, hn]

end

/-! ## What ends a frame -/

section
variable {s : State}

theorem State.frameSent_free (h : s.lp.sending = none) : s.frameSent = s := by rw [State.frameSent, h]

theorem State.frameSent_notice {n : Notice} (h : s.lp.sending = some (.notice n)) : s.frameSent = s.txFree := by
  rw [State.frameSent, h]
  rfl

theorem State.frameSent_resets {f : Frame} (h : s.lp.sending = some (.reply f)) (hd : s.lp.restartDue = true) : s.frameSent = s.doReset := by
  rw [State.frameSent, h]
  exact if_pos hd

theorem State.frameSent_reply {f : Frame} (h : s.lp.sending = some (.reply f)) (hd : s.lp.restartDue = false) :
    s.frameSent = s.txFree.freeHead := by
  rw [State.frameSent, h]
  exact if_neg (by rw [hd]; exact Bool.false_ne_true)

/-- The machine whose holding is empty and whose transmitter is free. -/
def State.lineFree (s : State) : State := s.setLp { s.lp with sending := none, head := none, second := none }

theorem State.freeHead_none (h : s.lp.second = none) : s.txFree.freeHead = s.lineFree := by
  have hsecond : s.txFree.lp.second = none := h
  simp only [State.freeHead, hsecond, State.setLp_lp]
  rfl

/-- The machine whose second frame, `g`, has moved to the head. -/
def State.promoted (g : Frame) (s : State) : State := s.setLp { s.lp with sending := none, head := some g, second := none }

theorem State.freeHead_some {g : Frame} (h : s.lp.second = some g) : s.txFree.freeHead = (s.promoted g).handle g := by
  have hsecond : s.txFree.lp.second = some g := h
  simp only [State.freeHead, hsecond, State.setLp_lp]
  rfl

end

/-! ## The frame that moves up -/

/-- The frame that moves up is answered at once (R160, R161, R166). -/
theorem handle_promoted (g : Frame) (s : State) : ∃ r, let t := arbitrate ((s.promoted g).handle g)
    t.lp.head = some g ∧ t.lp.second = none ∧ t.lp.sending = some (.reply ⟨g.kind + 0x80, g.tag, r⟩) ∧ t.lp.reply = none := by
  refine ⟨(serve g (s.promoted g)).2, ?_⟩
  have hline := arbitrate_handled g (serve g (s.promoted g)).1 (serve g (s.promoted g)).2
  have hfree : (serve g (s.promoted g)).1.lp.sending = none := by simp [State.promoted]
  simp only [State.handle, hline, if_pos hfree]
  simp [State.promoted, replyTo]

/-- Where its command arrives with the holding empty, the frame finds what it finds in the head, but for the timer that it restarts. -/
theorem State.headed_lineFree (g : Frame) (s : State) : s.lineFree.headed g = (s.promoted g).withSilence s.silenceAfterFrame := rfl

/-- A frame that moves up has the effect of its command, but that it restarts no line silence timer (R159, R167). -/
theorem promoted_as_its_command {c : Instr} {g : Frame} (s : State) (hc : commandFrame c = some g) (hw : c.wf = true) :
    ∃ t', exec c s.lineFree = .next t' ∧ SameButSilence t' (arbitrate ((s.promoted g).handle g)) ∧
      (s.silenceAfterFrame = s.lp.silence → arbitrate ((s.promoted g).handle g) = t') := by
  rcases commandFrame_statement c with ⟨h, -⟩ | ⟨f, hf, hstatement⟩
  · rw [h] at hc
    exact nomatch hc
  obtain rfl : f = g := Option.some.inj (hf.symm.trans hc)
  obtain ⟨hkind, hbody, -⟩ := hstatement hw
  have harrives : s.lineFree.arriveFrame f = ((s.promoted f).withSilence s.silenceAfterFrame).handle f := by
    rw [arriveFrame_headed hkind hbody rfl, State.headed_lineFree]
  refine ⟨_, by rw [exec_of_frame hc, harrives]; rfl, ?_, fun hsame => ?_⟩
  · have halike : SameButSilence ((s.promoted f).withSilence s.silenceAfterFrame) (s.promoted f) :=
      .withSilence s.silenceAfterFrame (s.promoted f).lp.silence (s.promoted f)
    exact (halike.handle f).arbitrate
  · rw [hsame]
    rfl

/-! ## RESTART (R164) -/

theorem exec_restart_answers (tag : Byte) {s : State} (hl : s.listens) : ∃ t, exec (.restart tag) s = .next t ∧ OnlyChanges [.lp] s t ∧
    Answered ⟨0x03, tag, []⟩ [0x00] s t ∧ t.lp.restartDue = true ∧ t.lp.notices = s.lp.notices ∧ t.lp.silence = s.silenceAfterFrame := by
  obtain ⟨hhead, hscan⟩ := hl
  have hserve : serve ⟨0x03, tag, []⟩ (s.headed ⟨0x03, tag, []⟩) = takeRestart (s.headed ⟨0x03, tag, []⟩) :=
    serve_eq_take (c := .restart tag) rfl rfl (by simpa using hscan) rfl fun lim hlim => by
      obtain rfl : lim = (0, 0) := Option.some.inj (hlim.symm.trans rfl)
      rfl
  obtain ⟨t, ht, hanswered, hpending, hparts, hnotices, hdue, hsilence⟩ := exec_served (c := .restart tag) (f := ⟨0x03, tag, []⟩) rfl rfl hhead
  rw [hserve] at hanswered hparts hnotices hdue hsilence
  refine ⟨t, ht, ⟨hpending, fun b hb => ?_⟩, hanswered, hdue, hnotices, hsilence⟩
  have hkept := hparts b (by simpa using hb)
  cases b <;> simp_all [Part.same, takeRestart]

/-- Settles O8: what a sent notice and a sent reply free, and the second frame handled as its command is. -/
theorem frameSentFreesItsPlace : Obligations.FrameSentFreesItsPlace := by
  refine ⟨fun tag s hl => exec_restart_answers tag hl, fun s => ⟨fun h => congrArg finish (State.frameSent_free h), fun n h => ?_, fun f h hd => ?_,
    fun f h hd hsecond hreply => ?_, fun f g h hd hsecond => ?_⟩⟩
  · have hsent : exec .frameSent s = .next (arbitrate s.txFree) := congrArg finish (State.frameSent_notice h)
    refine ⟨_, hsent, onlyChanges_line _ _, by simp [HoldingKept, State.txFree], fun r hr => ?_, fun hr m ms hn => ?_, fun hr hn => ?_⟩
    · rw [arbitrate_reply (s := s.txFree) rfl hr]
      exact ⟨rfl, rfl, rfl⟩
    · rw [arbitrate_notice (s := s.txFree) rfl hr hn]
      exact ⟨rfl, rfl, hr⟩
    · rw [arbitrate_rests (s := s.txFree) rfl hr hn]
      exact ⟨rfl, hn, hr⟩
  · exact congrArg finish (State.frameSent_resets h hd)
  · have hsent : exec .frameSent s = .next (arbitrate s.lineFree) :=
      congrArg finish ((State.frameSent_reply h hd).trans (State.freeHead_none hsecond))
    refine ⟨_, hsent, onlyChanges_line _ _, by simp [State.lineFree], by simp [State.lineFree], by simp [State.lineFree],
      by simp [State.lineFree], by simp [State.lineFree], fun m ms hn => ?_, fun hn => ?_⟩
    · rw [arbitrate_notice (s := s.lineFree) rfl hreply hn]
      exact ⟨rfl, rfl⟩
    · rw [arbitrate_rests (s := s.lineFree) rfl hreply hn]
      exact ⟨rfl, hn⟩
  · have hsent : exec .frameSent s = .next (arbitrate ((s.promoted g).handle g)) :=
      congrArg finish ((State.frameSent_reply h hd).trans (State.freeHead_some hsecond))
    obtain ⟨r, hhead, hempty, hsending, hreply⟩ := handle_promoted g s
    exact ⟨_, r, hsent, hhead, hempty, hsending, hreply, fun c hc hw => promoted_as_its_command s hc hw⟩

end Sys2Proof.Machine
end
